-- ==== Sys2Proof/Word.lean ====
section
/-! DEFINITION. Word types of the Prestimin X4 (R4, R40). Bit vectors stand only for what the manual
treats as bits; every field helper lives in Machine/Bits.lean. -/

namespace Sys2Proof

/-- A byte of memory. -/
abbrev Byte := BitVec 8
/-- A 32-bit word: an F32 element, a lane mask, an immediate. -/
abbrev W32 := BitVec 32
/-- A 64-bit word: a lane word of a register, a special register. -/
abbrev W64 := BitVec 64
/-- A set of lanes, bit `l` = lane `l` (R40). -/
abbrev Mask := BitVec 32

end Sys2Proof
end

