-- ==== Sys2Proof/Config.lean ====
section
/-! DEFINITION. Values the spec leaves open: opaque functions of a counter or of operands, of which nothing
can be computed or proved. -/

namespace Sys2Proof.Config

/-- The scheduler's choice to switch slots at a long stall (R197). -/
opaque slotSwitch : Nat → BitVec 1

/-- Sign and payload of a narrow NaN widened: type code and bits of the narrow element, code of the wide type
(R233). -/
opaque nanPattern : Nat → Nat → Nat → BitVec 64

/-- The part's F32 result of a special function: function number (0 FRCP to 6 FTANH) and input bits (R333). -/
opaque special : Nat → Nat → BitVec 32

/-- Which entry of a full set leaves the MTLB, the L2 or the RDC (R76, R81, R99). -/
opaque victim : Nat → BitVec 32

/-- An 8-bit code of an array's converter where the comparator does not trip (R246). R247 gives its mean and deviation,
which exclude no single code. -/
opaque converter : Nat → BitVec 8

/-- Byte `i` of an L2 sector lost with its writes: what HBM4E holds there (R87). -/
opaque staleByte : Nat → Nat → BitVec 8

/-- TVAL of the PRIV trap of MPROG at level 0 (R372, R396). -/
opaque privTval : Nat → BitVec 64

/-- What a die's boot finds in a signed image (R442): bit 16 whether it verifies, bits 15 to 0 its version. -/
opaque image : Nat → BitVec 17

/-- Whether a die's authentication succeeds (R442). -/
opaque auth : Nat → BitVec 1

/-- The power controller (R445): bit 16 whether its spacing is full, bits 15 to 0 its estimate in watts. -/
opaque power : Nat → BitVec 17

/-- Whether a link's retraining succeeds (R75). -/
opaque retrain : Nat → BitVec 1

/-- The arrays of a core that pass boot self-test (R262). -/
opaque bootArrays : Nat → BitVec 24

/-- Bit `i` that a boundary scan, a state chain or a margining scan captures (R415). -/
opaque pins : Nat → Nat → Bool

/-- Byte `i` of measurement `n`, or of a signed SPDM response (R443). -/
opaque measure : Nat → Nat → BitVec 8

/-- The stepping that IDENT reports (R37). -/
opaque step : BitVec 8

/-- Whether a firmware pass over the ageing monitors rewrites an array's calibration table (R263). -/
opaque recalibrated : Nat → BitVec 1

/-- ACLK, of at most 64, that a change of a context's ASID takes to reach a core: ACLK of the change, context, core
(R93). -/
opaque asidReach : Nat → Nat → Nat → BitVec 7

/-- ACLK, of at most 64, that a change of a bank's mode takes to reach a core's AGMODE: ACLK of the change, bank, core
(R112). -/
opaque modeReach : Nat → Nat → Nat → BitVec 7

/-- Which of the old roots of an ASID and the present one a walk uses: ACLK, die, ASID (R94). -/
opaque oldRoot : Nat → Nat → Nat → BitVec 32

/-- Whether register `r` above a YIELD's watermark is lost in the pre-emption: counter, then 0 for a V register or 1 for
an S register, then its number (R217). -/
opaque deadReg : Nat → Nat → Nat → BitVec 1

/-- Whether result row `r` of an AGOP was written before a parity error stopped it: counter, row (R120). -/
opaque rowDone : Nat → Nat → BitVec 1

/-- The scale-up port through which a COPYP leaves its die (R366, R439). -/
opaque peerPort : Nat → BitVec 2

end Sys2Proof.Config
end

