-- ==== Sys2Proof/Syntax.lean ====
section
/-! DEFINITION. The steps of the Prestimin X4: program instructions (R265 to R394) and device events
(opcode_table.json), one constructor of `Instr` per row. -/

namespace Sys2Proof

/-! ## Fields of an instruction word -/

/-- Type codes of R270; the constructor order is the code order 0x00 to 0x14. -/
inductive Ty where
  | u0 | i8 | i16 | i32 | i64 | n8 | n16 | n32 | n64 | f16 | bf16 | f32 | f64
  | e4m3 | e5m2 | e3m2 | e2m3 | e2m1 | i4 | n4 | e8m0
  deriving DecidableEq, Repr

/-- Rounding modes of R226. -/
inductive Rnd where
  | rne | rtz | rdn | rup | rsx
  deriving DecidableEq, Repr

/-- An operand specifier of R271 and R272, and the special uses of a specifier field. -/
inductive Opnd where
  | none                                   -- a specifier the form does not use (0x000)
  | v (n : BitVec 8)                       -- vector register
  | s (n : BitVec 7)                       -- scalar register
  | zero | lane | sube | pos | imm32 | imm64
  | pv (k : BitVec 4)                      -- predicate as a value
  | small (k : BitVec 5)                   -- SMALL code 0x40 + k: the integer k - 16
  | hnd (h : BitVec 4)                     -- buffer handle
  | preg (k : BitVec 4)                    -- a field that holds a P register index
  | tyc (t : Ty)                           -- a field that holds a type code
  | lnx (k : BitVec 4) (span : BitVec 3)   -- LNX's SC: predicate and span code
  deriving DecidableEq, Repr

/-- Length of a word (R265), FILL apart. -/
inductive Len where
  | b64 | b96 | b128
  deriving DecidableEq, Repr

/-- A narrow selector (R278): W, ALT and K. -/
structure Sel where
  w : BitVec 2
  alt : Bool
  k : BitVec 4
  deriving DecidableEq, Repr

/-- The selector that narrows nothing. -/
def Sel.off : Sel := ⟨0, false, 0⟩

/-- The modifier block (R278). -/
structure Mods where
  sat : Bool
  rnd : Rnd
  dn : Sel
  cn : Sel
  bn : Sel
  an : Sel
  deriving DecidableEq, Repr

/-- A word with no modifier block (R278). -/
def Mods.plain : Mods := ⟨false, .rne, Sel.off, Sel.off, Sel.off, Sel.off⟩

/-- Predicate and lookahead fields of the common layout (R268). -/
structure Hd where
  pred : BitVec 4
  pneg : Bool
  la : BitVec 4
  deriving DecidableEq, Repr

/-- The extension of an ALU word (R280). -/
inductive AluExt where
  | none                                   -- 64-bit word
  | mods (m : Mods)                        -- 96-bit word, no IMM32 named
  | imm32 (x : W32)                        -- 96-bit word, IMM32 named
  | imm64 (x : W64)                        -- 128-bit word, IMM64 named
  | modsImm (m : Mods) (x : W32)           -- 128-bit word otherwise
  deriving DecidableEq, Repr

/-- Fields of an ALU word (0x00-0x1F, 0x40-0x77, 0x80-0x9F). -/
structure AluArgs where
  hd : Hd
  ty : Ty
  sub : BitVec 4
  dst : Opnd
  sa : Opnd
  sb : Opnd
  sc : Opnd
  ext : AluExt
  deriving DecidableEq, Repr

/-- Fields of a control or system word (0x20-0x3F, 0xF0-0xFB): `x1` is TGT, or the special-register
number of a 96-bit system word; `x2` is JOIN (R282). -/
structure CtlArgs where
  len : Len
  hd : Hd
  ty : Ty
  sub : BitVec 4
  dst : Opnd
  sa : Opnd
  sb : Opnd
  x1 : W32
  x2 : W32
  deriving DecidableEq, Repr

/-- YIELD's fields (R310). -/
structure YieldArgs where
  hd : Hd
  d : BitVec 5
  vl : BitVec 8
  sl : BitVec 8
  deriving DecidableEq, Repr

/-- The extension of the memory and asynchronous ranges (R281). -/
structure MemExt where
  disp : W32
  scope : BitVec 3
  ord : BitVec 2
  ro : Bool
  space : BitVec 2
  pset : BitVec 8
  sset : BitVec 8
  aop : BitVec 4
  eng : BitVec 4
  deriving DecidableEq, Repr

/-- A 64-bit word reads every extension field as zero (R281). -/
def MemExt.none : MemExt := ⟨0, 0, 0, false, 0, 0, 0, 0, 0⟩

/-- Fields of a memory or asynchronous word (0xA0-0xCF). -/
structure MemArgs where
  hd : Hd
  ty : Ty
  sub : BitVec 4
  dst : Opnd
  sa : Opnd
  sb : Opnd
  sc : Opnd
  ext : Option MemExt                      -- some: 128-bit word
  deriving DecidableEq, Repr

/-- The matrix extension (R283). -/
structure MatExt where
  prof : BitVec 4
  tile : BitVec 4
  arr : BitVec 6
  ksm1 : BitVec 5
  mm1 : BitVec 5
  scr : Bool
  bt : Ty
  ww : Bool
  deriving DecidableEq, Repr

/-- What a 64-bit matrix word reads in every extension field. -/
def MatExt.none : MatExt := ⟨0, 0, 0, 0, 0, false, .u0, false⟩

/-- Fields of a matrix word (0xD0-0xDF). -/
structure MatArgs where
  hd : Hd
  ty : Ty
  sub : BitVec 4
  dst : Opnd
  sa : Opnd
  sb : Opnd
  sc : Opnd
  ext : Option MatExt
  deriving DecidableEq, Repr

/-- The Agate extension (R284). -/
structure AgtExt where
  hd : BitVec 9
  ha : BitVec 9
  hb : BitVec 9
  hm : BitVec 9
  wm1 : BitVec 6
  sgn : Bool
  k : BitVec 6
  mw : BitVec 3
  deriving DecidableEq, Repr

/-- What a 64-bit Agate word reads in every extension field. -/
def AgtExt.none : AgtExt := ⟨0, 0, 0, 0, 0, false, 0, 0⟩

/-- Fields of an Agate word (0xE0-0xE7). -/
structure AgtArgs where
  hd : Hd
  sub : BitVec 4
  sa : Opnd
  sb : Opnd
  sc : Opnd
  ext : Option AgtExt
  deriving DecidableEq, Repr

/-- Fields of a Welt word (R285, R392). -/
structure WltArgs where
  hd : Hd
  pk : Bool
  ch : BitVec 5
  sub : BitVec 3
  dst : Opnd
  sa : Opnd
  deriving DecidableEq, Repr

/-- X operations of a paired word (R287). -/
inductive XOp where
  | fadd | fsub | fmul | ffma | fmin | fmax | fscale | itof | ftoi
  deriving DecidableEq, Repr

/-- Y operations of a paired word (R287). -/
inductive YOp where
  | vadd | vsub | vand | vor | vxor | vshl | vshr | vsra | vmin | vmax | vmov
  | eq | ne | lt | le | gt | ge
  deriving DecidableEq, Repr

/-- Fields of a paired word (R286). -/
structure PairArgs where
  pred : BitVec 4
  pneg : Bool
  ysb : Bool
  xt : BitVec 2
  xop : XOp
  xrnd : Rnd
  xsat : Bool
  xd : BitVec 8
  xa : BitVec 8
  xb : BitVec 8
  xc : BitVec 8
  yop : YOp
  yt : BitVec 3
  yd : BitVec 8
  ya : BitVec 8
  yb : BitVec 8
  deriving DecidableEq, Repr

/-! ## Payloads of the device events -/

/-- Who a request answers to. -/
inductive Src where
  | grp (g : Nat) (tag : Nat)              -- pending access `tag` of the group in slot key `g`
  | eng (op k : Nat)                       -- granule or part `k` of asynchronous operation `op`
  | pref (g gid epoch part : Nat)          -- a group's prefetch: 0 normal partition, 1 read-only, 2 no L1 (R359)
  | host (die : Nat)                       -- a CXL.mem request, and the logical device that took it
  | peer (die : Nat) (port : Nat)          -- an incoming scale-up request
  deriving DecidableEq, Repr

/-- What an access needs of its page (R97). -/
inductive Need where
  | r | w | rw | x
  deriving DecidableEq, Repr

/-- An atomic request (R79, R354, R355). -/
structure AtReq where
  ret : Bool                               -- AT, which returns the old value; else ATR
  ty : Ty
  aop : BitVec 4
  cas : Bool
  lane : Nat
  addr : W64
  b : W64
  c : W64                                  -- New of CAS and CASS
  deriving DecidableEq, Repr

/-- What a request does at its home (R68, R357). -/
inductive Req where
  | read (smask : BitVec 4)                -- sectors of the line
  | write (bytes : List (Nat × Byte))      -- offsets in the 512-byte line
  | atomic (a : AtReq)
  | flush (inv : Bool)
  deriving DecidableEq, Repr

/-- How a packet travels (R67, R69): its header, the flits delivered, and the ACLK at which the first was sent. -/
structure Wire where
  head : BitVec 128
  sent : Nat
  start : Nat
  deriving DecidableEq, Repr

/-- A request packet (R67, R68): `line` is the 512-byte-aligned virtual address, or the die-physical
address when `phys` is set. -/
structure Pkt where
  src : Src
  sdie : Nat
  ddie : Nat
  core : Nat                               -- issuing core; 256 where there is none
  line : Nat
  phys : Option Nat                        -- package-wide physical line address once translated
  held : Bool                              -- its line lock is taken (R78)
  asid : BitVec 16
  cls : BitVec 2
  need : Need
  peer : Bool
  rdc : Bool                               -- a read that may use and fill the RDC (R82)
  nr : Bool                                -- its page's NR (R97)
  trunc : Bool                             -- ended short by a cluster reset (R88)
  req : Req
  wire : Option Wire := none               -- none where it crosses no fabric
  deriving DecidableEq, Repr

/-- A scratch packet (SCR, SCW): the granule it names, and what an SCW writes. -/
structure ScPkt where
  src : Src
  gang : Nat
  rank : Nat
  off : Nat                                -- offset of the 128-byte granule in the target's interleaved window
  bytes : List (Nat × Byte)                -- SCW: offset in the window and byte; SCR: none
  full : Bool := false                     -- SCW: its granule is written whole
  va : Nat                                 -- scratch address of the granule as the requester names it
  cls : BitVec 2                           -- R71
  trunc : Bool := false                    -- ended short by a cluster reset (R88)
  wire : Option Wire := none
  deriving DecidableEq, Repr

/-- An INVACK (R68, R83): its packet, and the line lock it counts for. -/
structure InvAck where
  pkt : Pkt
  hold : Nat
  deriving DecidableEq, Repr

/-- Contribution of a Welt arrival (R171). -/
inductive WKind where
  | bar
  | bcast (x : W64)
  | red (x : W32)
  deriving DecidableEq, Repr

/-- A Welt arrival on its way to the hub (R172); `ch` is the channel key. -/
structure WArr where
  ch : Nat
  core : Nat
  slot : Nat
  kind : WKind
  crcBad : Bool
  deriving DecidableEq, Repr

/-- An incoming peer request (R440). -/
structure PeerReq where
  die : Nat
  port : Nat
  srcDev : Nat
  cls : BitVec 2                           -- class the packet names (R71)
  rscr : Bool                              -- pooled-window scratch request (R366)
  addr : W64
  wr : Option (List Byte)                  -- none: a read of `len` bytes
  len : Nat
  sig : Option (W64 × Bool × W64)          -- signal object, set, value
  deriving DecidableEq, Repr

/-- A register command (R414). -/
structure DbgCmd where
  die : Nat
  core : Nat
  slot : Nat
  lane : Nat
  cls : Nat
  idx : Nat
  deriving DecidableEq, Repr

/-- One step of the part: a program instruction, or a device event (opcode_table.json). -/
inductive Instr where
  -- scalar ALU (R300 to R303)
  | sadd (a : AluArgs) | ssub (a : AluArgs) | smul (a : AluArgs) | smulh (a : AluArgs)
  | sdiv (a : AluArgs) | srem (a : AluArgs) | sand (a : AluArgs) | sor (a : AluArgs)
  | sxor (a : AluArgs) | sshl (a : AluArgs) | sshr (a : AluArgs) | ssra (a : AluArgs)
  | smin (a : AluArgs) | smax (a : AluArgs) | scmp (a : AluArgs) | ssel (a : AluArgs)
  | smov (a : AluArgs) | smovi (a : AluArgs) | smoviHi (a : AluArgs) | slea (a : AluArgs)
  | sbfe (a : AluArgs) | sbfi (a : AluArgs) | spopc (a : AluArgs) | sclz (a : AluArgs)
  | sbrev (a : AluArgs)
  -- control (R305 to R314)
  | bra (a : CtlArgs) | bras (a : CtlArgs) | brv (a : CtlArgs) | jmp (a : CtlArgs)
  | jmpv (a : CtlArgs) | callLabel (a : CtlArgs) | callReg (a : CtlArgs) | ret (a : CtlArgs)
  | land (a : CtlArgs) | yield (a : YieldArgs) | exit (a : CtlArgs) | nop (a : CtlArgs)
  | elect (a : CtlArgs) | exmrd (a : CtlArgs) | exmrdOwn (a : CtlArgs) | exmwr (a : CtlArgs)
  | exmwrAnd (a : CtlArgs) | exmwrOr (a : CtlArgs) | regroup (a : CtlArgs)
  -- vector integer (R325 to R328)
  | vadd (a : AluArgs) | vsub (a : AluArgs) | vmul (a : AluArgs) | vmulh (a : AluArgs)
  | vmad (a : AluArgs) | vdiv (a : AluArgs) | vrem (a : AluArgs) | vand (a : AluArgs)
  | vor (a : AluArgs) | vxor (a : AluArgs) | vshl (a : AluArgs) | vshr (a : AluArgs)
  | vsra (a : AluArgs) | vmin (a : AluArgs) | vmax (a : AluArgs) | vabs (a : AluArgs)
  | vneg (a : AluArgs) | vcmp (a : AluArgs) | vsel (a : AluArgs) | vmov (a : AluArgs)
  | vmovi (a : AluArgs) | vmoviHi (a : AluArgs) | vbfe (a : AluArgs) | vbfi (a : AluArgs)
  | vpopc (a : AluArgs) | vclz (a : AluArgs) | vdot4 (a : AluArgs) | vlea (a : AluArgs)
  -- vector floating point (R329 to R334)
  | fadd (a : AluArgs) | fsub (a : AluArgs) | fmul (a : AluArgs) | ffma (a : AluArgs)
  | fmin (a : AluArgs) | fmax (a : AluArgs) | fcmp (a : AluArgs) | fclass (a : AluArgs)
  | fdiv (a : AluArgs) | fsqrt (a : AluArgs) | fscale (a : AluArgs) | fround (a : AluArgs)
  | ffrac (a : AluArgs) | fdot2 (a : AluArgs) | frcp (a : AluArgs) | frsq (a : AluArgs)
  | fexp2 (a : AluArgs) | flog2 (a : AluArgs) | fsin (a : AluArgs) | fcos (a : AluArgs)
  | ftanh (a : AluArgs) | pairedWord (a : PairArgs)
  -- conversion and cross-lane (R335 to R346)
  | cvt (a : AluArgs) | pack (a : AluArgs) | unpack (a : AluArgs) | unpackHi (a : AluArgs)
  | qmx (a : AluArgs) | dqmx (a : AluArgs)
  | lnxIdx (a : AluArgs) | lnxWin (a : AluArgs) | lnxRise (a : AluArgs) | lnxFall (a : AluArgs)
  | lnxSprd (a : AluArgs) | lnxRot (a : AluArgs)
  | censusSome (a : AluArgs) | censusEvery (a : AluArgs) | censusMask (a : AluArgs)
  | censusCount (a : AluArgs)
  | peersMask (a : AluArgs) | peersUniform (a : AluArgs) | peersLead (a : AluArgs)
  | reduce (a : AluArgs) | scan (a : AluArgs) | scanExc (a : AluArgs) | xshfl (a : AluArgs)
  -- memory (R347 to R359)
  | ld (a : MemArgs) | st (a : MemArgs) | ldw (a : MemArgs) | lds (a : MemArgs) | sts (a : MemArgs)
  | ldnr (a : MemArgs) | prefL1 (a : MemArgs) | prefRo (a : MemArgs) | prefL2 (a : MemArgs)
  | atom (a : MemArgs) | atoms (a : MemArgs) | atomr (a : MemArgs) | cas (a : MemArgs)
  | cass (a : MemArgs) | fence (a : MemArgs) | cflush (a : MemArgs) | cflushInv (a : MemArgs)
  | cinv (a : MemArgs) | cinvRo (a : MemArgs) | cinvI (a : MemArgs)
  -- asynchronous operations, barriers, signals (R360 to R371)
  | copyV2s (a : MemArgs) | copyS2v (a : MemArgs) | copyV2v (a : MemArgs) | copyS2s (a : MemArgs)
  | copygG (a : MemArgs) | copygS (a : MemArgs) | copypPut (a : MemArgs) | copypGet (a : MemArgs)
  | batch (a : MemArgs) | waitb (a : MemArgs) | waitc (a : MemArgs)
  | hacqDrain (a : MemArgs) | hacqFill (a : MemArgs) | hrel (a : MemArgs) | hstat (a : MemArgs)
  | gatePass (a : MemArgs) | gateMark (a : MemArgs) | gateHold (a : MemArgs)
  | ggatePass (a : MemArgs) | ggateMark (a : MemArgs) | ggateHold (a : MemArgs)
  | sigset (a : MemArgs) | sigadd (a : MemArgs) | sigwait (a : MemArgs)
  -- matrix (R372 to R386)
  | mppt (a : MatArgs) | mcfg (a : MatArgs) | madmit (a : MatArgs) | mrelease (a : MatArgs)
  | mloop (a : MatArgs) | maclr (a : MatArgs) | mamovCpy (a : MatArgs) | mamovAdd (a : MatArgs)
  | maload (a : MatArgs) | mastore (a : MatArgs) | mstest (a : MatArgs) | mprogRd (a : MatArgs)
  | mprogWr (a : MatArgs) | mstat (a : MatArgs)
  -- Agate (R387 to R391)
  | agon (a : AgtArgs) | agoff (a : AgtArgs) | agld (a : AgtArgs) | agst (a : AgtArgs)
  | agop (a : AgtArgs) | agred (a : AgtArgs)
  -- Welt (R392 to R394)
  | wbar (a : WltArgs) | wwait (a : WltArgs) | wbcast (a : WltArgs) | wrecvB (a : WltArgs)
  | wrecvR (a : WltArgs) | wred (a : WltArgs) | wtick (a : WltArgs)
  -- system (R315 to R320)
  | trap (a : CtlArgs) | tret (a : CtlArgs) | sysrd (a : CtlArgs) | syswr (a : CtlArgs)
  | kill (a : CtlArgs) | brk (a : CtlArgs) | pmcrd (a : CtlArgs) | pmcwr (a : CtlArgs)
  -- events the part itself schedules; `g` and `h` are group slot keys (core × 48 + slot), `bank` is
  -- die × 128 + slice × 4 + bank
  | resultWriteback (g tag : Nat) | loadDataReturn (g tag : Nat) | storeAck (g tag : Nat)
  | ifetchFill (core : Nat) (asid : BitVec 16) (blk : Nat) | regroupFuse (g h : Nat)
  | xshflExchange (g h : Nat) | contextEndRecord (ctx : Nat) | handleAdmit (blk h : Nat)
  | gateRelease (blk gate : Nat) | ggateCrossDie (gang : Nat) | ggateRelease (gang : Nat)
  | sigwaitReread (g : Nat) | madmitComplete (op : Nat) | mreleaseComplete (op : Nat)
  | mloopStep (op : Nat) | mloopComplete (op : Nat) | asyncOpComplete (op : Nat) | agonWritebackDone (bank : Nat)
  | agonComplete (bank : Nat) | agoffDrainDone (bank : Nat) | agoffComplete (bank : Nat)
  | agateCommandComplete (bank : Nat) | weltArrival (m : WArr) | weltRelease (ch : Nat)
  | preemptRequest (pid die : Nat) (x : W64) | tickLoad (x : W64) | recordTake (pid q : Nat)
  | dependenceReread (pid q : Nat) | workingSetPrewalk (pid q : Nat) | blockPlace (pid : Nat)
  | xmapServe (die : Nat) | rd (p : Pkt) | wr (p : Pkt) | atq (p : Pkt) | atr (p : Pkt) | scr (p : ScPkt)
  | scw (p : ScPkt) | inv (p : Pkt) (die hold : Nat) | invack (a : InvAck)
  | dataRsp (p : Pkt) (bytes : List Byte) | ack (p : Pkt) (old : W64) | nack (p : Pkt) (subc : BitVec 4)
  | sigUpd (p : Pkt) (set : Bool) | pageWalkComplete (p : Pkt) | hbmFill (p : Pkt) (bad : Bool)
  | clusterResetDone (die cluster : Nat) | shootdownDone (die : Nat) | imageVerify (die : Nat)
  | dieAuthentication (die : Nat)
  -- padding, events that follow at once from another, and events that come from outside
  | fill | selfTest (arr : Nat) | pooledAccessRelease (g : Nat) | agateCommandAccept (bank : Nat)
  | madmitAccept (op : Nat) | mastoreAccept (op : Nat) | mloopAccept (op : Nat) | mpptTakeEffect (op : Nat)
  | traceSample (die : Nat) | tickCheck (crcBad : Bool) | reconverge (g : Nat) | regroupRelease (g : Nat)
  | trapEntry (g : Nat) | watchdogExpiry (g : Nat) | preemptWaitExit (g : Nat)
  | schedulerSwap (core sched : Nat) | activePositionFill (core sched : Nat) | blockEnd (blk : Nat)
  | agonAccept (bank : Nat) | agoffAccept (bank : Nat) | globalTick
  | tailRegisterWrite (pid q : Nat) (t : BitVec 48) | queueEnable (pid q : Nat)
  | qheadWrite (pid q : Nat) (x : BitVec 48) | recordComplete (launch : Nat) | swparkWrite (x : W64)
  | swblkBaseWrite (x : W64) | swblkGo (x : W64) | blockRestore (pid : Nat) | xmap (va : W64)
  | lqdoor (x : W64) | asidWrite (x : W64) | agsetWrite (n : BitVec 5) (x : W64) | wgrantWrite (x : W64)
  | wcfgWrite (x : W64) | splitdwAccess (wr : Option W64) (dst : BitVec 7)
  | batchRegWrite (c : BitVec 2) (x : W64) | gatestWrite (b : BitVec 3) (x : W64)
  | hndWrite (h : BitVec 4) (x : W64) | pmcfgWrite (k : BitVec 4) (x : W64)
  | specialRegisterWrite (n : BitVec 12) (x : W64) | hostRegisterWrite (die off width : Nat) (x : W64)
  | conflictQueueRelease (bank : Nat) | class0BudgetGain | linkRetrain (link : Nat) (ok : Bool)
  | clusterReset (die : Nat) (mask : W32) | shootdown (die : Nat) (x : W64)
  | preqRaise (pid : Nat) (x : W64) | preqCancel (pid : Nat) (x : W64) | ctxkill (pid : Nat) (x : W64)
  | ctxkillRetire (pid : Nat) (x : W64) | contextCreate (pid entry : Nat) (x : W64) | partset (x : W64)
  | weltPartitionGrant (pid k : Nat) (x : W64) | qstop (pid : Nat) (x : W64) | qstopDone (pid : Nat)
  | qrun (pid : Nat) (x : W64) | dbgcmdRead (pid : Nat) (c : DbgCmd) | dbgcmdWrite (pid : Nat) (c : DbgCmd)
  | tstop (x : W64) | tickStop | extest (die : Nat) (x : W64) | sample (die : Nat)
  | scansel (die : Nat) (x : BitVec 16) | scanout (die : Nat) | dbgacc (wr : Bool) (c : DbgCmd) (x : W64)
  | tstopnow (x : Bool) | resume (x : Bool) | lanemg (die : Nat) | idcode (die : Nat)
  | bypass (die : Nat) (x : Bool) | hostMemRead (die : Nat) (ha : Nat) (len : Nat)
  | hostMemWrite (die : Nat) (ha : Nat) (xs : List Byte) | hdmCommit (die n base size ways : Nat)
  | functionLevelReset (die : Nat) | spdmRequest (die idx : Nat) (signed : Bool)
  | peerRequest (r : PeerReq) | portclr (die : Nat) (x : W64) | coldReset | bootld (x : W64) | authTimeout
  | powerEstimate | thermalTrip | ageingMonitorRead | setdasa (static dyn : BitVec 7)
  | i3cSelectorWrite (sel : BitVec 24) | i3cRead | i3cPwrlimWrite (sel : BitVec 24) (lim : BitVec 16)
  | flitReplay (link : Nat) (bad : Bool) | issueCounters
  deriving DecidableEq, Repr

end Sys2Proof
end

