-- ==== Sys2Proof/WellFormed.lean ====
section
/-! DEFINITION. Which instruction words the opcode map admits (R268 to R291): for every program row one
form, and `Instr.wf`, the check that an instruction's fields meet its form. -/

namespace Sys2Proof

/-! ## Types (R270) -/

/-- All types in code order. -/
def Ty.all : List Ty :=
  [.u0, .i8, .i16, .i32, .i64, .n8, .n16, .n32, .n64, .f16, .bf16, .f32, .f64,
   .e4m3, .e5m2, .e3m2, .e2m3, .e2m1, .i4, .n4, .e8m0]

/-- The type code of R270. -/
def Ty.code : Ty → Nat
  | .u0 => 0 | .i8 => 1 | .i16 => 2 | .i32 => 3 | .i64 => 4 | .n8 => 5 | .n16 => 6 | .n32 => 7
  | .n64 => 8 | .f16 => 9 | .bf16 => 10 | .f32 => 11 | .f64 => 12 | .e4m3 => 13 | .e5m2 => 14
  | .e3m2 => 15 | .e2m3 => 16 | .e2m1 => 17 | .i4 => 18 | .n4 => 19 | .e8m0 => 20

/-- Element width in bits (R270). -/
def Ty.width : Ty → Nat
  | .u0 | .i64 | .n64 | .f64 => 64
  | .i32 | .n32 | .f32 => 32
  | .i16 | .n16 | .f16 | .bf16 => 16
  | .i8 | .n8 | .e4m3 | .e5m2 | .e8m0 => 8
  | .e3m2 | .e2m3 => 6
  | .e2m1 | .i4 | .n4 => 4

/-- Elements of a 64-bit lane word (R41, R270). -/
def Ty.count (t : Ty) : Nat := 64 / t.width

/-- Kind of a type. -/
inductive Kind where
  | untyped | int | nat | float
  deriving DecidableEq, Repr

/-- Kind of a type (R220, R221). -/
def Ty.kind : Ty → Kind
  | .u0 => .untyped
  | .i8 | .i16 | .i32 | .i64 | .i4 => .int
  | .n8 | .n16 | .n32 | .n64 | .n4 => .nat
  | _ => .float

/-- A typed integer: .Iw or .Nw. -/
def Ty.isInt (t : Ty) : Bool := t.kind = .int || t.kind = .nat

/-- Type sets of R300, R325 and R329. -/
def tyNone : List Ty := [.u0]
def tyIntP : List Ty := [.i8, .i16, .i32, .i64, .n8, .n16, .n32, .n64]
def tyInt : List Ty := tyIntP ++ [.i4, .n4]
def tyFlt : List Ty := [.f16, .bf16, .f32, .f64]
def tyMem : List Ty := tyIntP ++ tyFlt
def tyCmp : List Ty := [.i32, .i64, .n32, .n64]
def tyMx : List Ty := [.e4m3, .e5m2, .e3m2, .e2m3, .e2m1, .i8, .i4]

/-! ## Operand classes (R271, R272) -/

/-- What a form lets a specifier field hold. -/
inductive Cls where
  | no                                     -- unused: 0x000
  | vv | ss                                -- V register; S register
  | vd | sd                                -- V or ZERO; S or ZERO
  | vs                                     -- V or S
  | ssrc                                   -- scalar ALU source (R300)
  | vsrc                                   -- vector source (R325)
  | sx                                     -- S, ZERO or SMALL
  | sm                                     -- S or SMALL
  | xa                                     -- V, S or ZERO
  | xs                                     -- V, S, ZERO or SMALL
  | vp                                     -- V or PV
  | lx                                     -- V, S, ZERO, SMALL or IMM32
  | lu                                     -- S, ZERO, SMALL or IMM32
  | imm                                    -- IMM32
  | zz                                     -- ZERO
  | zh                                     -- ZERO or a handle
  | hh                                     -- a handle
  | pd                                     -- P register index
  | tc                                     -- type code
  | lc                                     -- LNX predicate and span code
  deriving DecidableEq, Repr

/-- The operands a class admits. -/
def Cls.admits : Cls → Opnd → Bool
  | .no, .none => true
  | .vv, .v _ => true
  | .ss, .s _ => true
  | .vd, .v _ | .vd, .zero => true
  | .sd, .s _ | .sd, .zero => true
  | .vs, .v _ | .vs, .s _ => true
  | .ssrc, .s _ | .ssrc, .zero | .ssrc, .small _ | .ssrc, .imm32 | .ssrc, .imm64 => true
  | .vsrc, .v _ | .vsrc, .s _ | .vsrc, .zero | .vsrc, .lane | .vsrc, .sube | .vsrc, .pos => true
  | .vsrc, .small _ | .vsrc, .imm32 | .vsrc, .imm64 | .vsrc, .pv _ => true
  | .sx, .s _ | .sx, .zero | .sx, .small _ => true
  | .sm, .s _ | .sm, .small _ => true
  | .xa, .v _ | .xa, .s _ | .xa, .zero => true
  | .xs, .v _ | .xs, .s _ | .xs, .zero | .xs, .small _ => true
  | .vp, .v _ | .vp, .pv _ => true
  | .lx, .v _ | .lx, .s _ | .lx, .zero | .lx, .small _ | .lx, .imm32 => true
  | .lu, .s _ | .lu, .zero | .lu, .small _ | .lu, .imm32 => true
  | .imm, .imm32 => true
  | .zz, .zero => true
  | .zh, .zero | .zh, .hnd _ => true
  | .hh, .hnd _ => true
  | .pd, .preg _ => true
  | .tc, .tyc _ => true
  | .lc, .lnx _ c => c.toNat ≤ 4
  | _, _ => false

/-! ## The ALU ranges (R278 to R280, R300, R325, R329, R333 to R346) -/

/-- A form of the ALU ranges: which types, SUB values, operand classes, lengths and modifiers it lists. -/
structure AluForm where
  opc : Nat
  types : List Ty
  subs : List Nat := [0]
  dst : Cls
  sa : Cls
  sb : Cls := .no
  sc : Cls := .no
  b64 : Bool := true
  b96 : Bool := true
  b128 : Bool := true
  modb : Bool := true                      -- a modifier block accepted (R278)
  mrnd : Bool := false                     -- RND listed
  msat : Bool := false                     -- SAT listed
  nard : Bool := false                     -- narrowing of DST listed
  nars : Bool := false                     -- narrowing of V sources listed
  noRsx : Bool := false                    -- RSX refused (R229, R344)
  long : Bool := false                     -- long-latency: LA allowed (R275)
  deriving Repr

/-- Any of the four specifiers is `o`. -/
def AluArgs.names (a : AluArgs) (o : Opnd) : Bool :=
  a.dst = o || a.sa = o || a.sb = o || a.sc = o

/-- The modifier block of a word; a word without one acts as `Mods.plain` (R278). -/
def AluArgs.mods (a : AluArgs) : Mods :=
  match a.ext with
  | .mods m | .modsImm m _ => m
  | _ => Mods.plain

/-- Narrow width of a selector, 0 for none (R278). -/
def Sel.width (s : Sel) : Nat :=
  match s.w.toNat with
  | 1 => 8 | 2 => 6 | 3 => 4 | _ => 0

/-- The narrow type a selector names on an instruction of type `t` (R279); `none` is ILLOP. -/
def Sel.ty (s : Sel) (t : Ty) : Option Ty :=
  match t.kind, s.w.toNat with
  | .float, 1 => if s.k.toNat ≥ 8 then (if s.alt then none else some .e8m0)
                 else some (if s.alt then .e5m2 else .e4m3)
  | .float, 2 => some (if s.alt then .e2m3 else .e3m2)
  | .float, 3 => if s.alt then none else some .e2m1
  | .int, 1 => if s.k.toNat ≥ 8 then none else some (if s.alt then .n8 else .i8)
  | .int, 3 => some (if s.alt then .n4 else .i4)
  | .nat, 1 | .untyped, 1 => if s.k.toNat ≥ 8 then none else some (if s.alt then .i8 else .n8)
  | .nat, 3 | .untyped, 3 => some (if s.alt then .i4 else .n4)
  | _, _ => none

/-- First slot of a selector: K[2:0] for 8-bit types, K otherwise (R279). -/
def Sel.slot (s : Sel) : Nat := if s.w.toNat = 1 then s.k.toNat % 8 else s.k.toNat

/-- A selector that is off is all zero; one that is on names a type, fits its slots (R279), and stands
on an operand that may narrow. `isDst`: E8M0 is refused. `it`: the type the selector is read by. -/
def Sel.ok (s : Sel) (listed isDst : Bool) (o : Opnd) (t it : Ty) : Bool :=
  if s.w = 0 then !s.alt && s.k = 0
  else
    listed && (match o with | .v _ => true | _ => false) &&
    [Ty.u0, .i16, .i32, .i64, .n16, .n32, .n64, .f16, .bf16, .f32, .f64].contains t &&
    (match s.ty it with
     | none => false
     | some nt => (nt ≠ .e8m0 || (!isDst && t ≠ .f16)) &&
                  s.slot + t.count ≤ 64 / nt.width)

/-- The integer type by whose rows FSCALE's source B is read (R331). -/
def Ty.asInt (t : Ty) : Ty :=
  match t.width with
  | 16 => .i16 | 32 => .i32 | 64 => .i64 | 8 => .i8 | _ => .i4

/-- The modifier block meets the form (R278, R279). FSCALE (0x6A) reads source B's selector by the
integer rows (R331). -/
def AluForm.modsOk (f : AluForm) (a : AluArgs) (m : Mods) : Bool :=
  (m.sat = false || f.msat) && (m.rnd = .rne || f.mrnd) && (m.rnd ≠ .rsx || !f.noRsx) &&
  m.dn.ok f.nard true a.dst a.ty a.ty &&
  m.an.ok f.nars false a.sa a.ty a.ty &&
  m.bn.ok f.nars false a.sb a.ty (if f.opc = 0x6A then a.ty.asInt else a.ty) &&
  m.cn.ok f.nars false a.sc a.ty a.ty

/-- An operand is legal for the instruction type: LANE, SUBE and POS need an integer type (R272); SMALL
is refused by the 8-, 6- and 4-bit floats (R273). -/
def Opnd.okFor (o : Opnd) (t : Ty) : Bool :=
  match o with
  | .lane | .sube | .pos => t.isInt
  | .small _ => !(t.kind = .float && t.width < 16)
  | _ => true

/-- The word's extension matches its length and its immediates (R280). -/
def AluForm.extOk (f : AluForm) (a : AluArgs) : Bool :=
  let i32 := a.names .imm32
  let i64 := a.names .imm64
  match a.ext with
  | .none => f.b64 && !i32 && !i64
  | .mods m => f.b96 && f.modb && !i32 && !i64 && f.modsOk a m
  | .imm32 _ => f.b96 && i32 && !i64
  | .imm64 _ => f.b128 && i64 && !i32
  | .modsImm m x => f.b128 && f.modb && !i64 && (i32 || x = 0) && f.modsOk a m

/-- Predicate and lookahead fields of a form (R274, R275). -/
def Hd.ok (h : Hd) (long : Bool) : Bool :=
  (h.pred ≠ 0 || !h.pneg) && (long || h.la = 0)

/-- PACK, UNPACK, QMX and DQMX part numbers, CVT's types and part number (R335 to R339). -/
def partOk (h n big : Nat) : Bool := (h + 1) * n ≤ big

/-- Rules of a form beyond its table row. -/
def AluForm.extra (f : AluForm) (a : AluArgs) : Bool :=
  match f.opc with
  | 0x80 =>                                -- CVT (R335)
    match a.sb with
    | .tyc st =>
      a.ty ≠ .u0 && st ≠ .u0 && a.ty ≠ .e8m0 &&
      (st ≠ .e8m0 || a.ty = .bf16 || a.ty = .f32 || a.ty = .f64) &&
      partOk a.sub.toNat (min st.count a.ty.count) (max st.count a.ty.count)
    | _ => false
  | 0x83 =>                                -- QMX (R338)
    match a.sb with
    | .tyc st => (st = .f16 || st = .bf16 || st = .f32) && partOk a.sub.toNat st.count a.ty.count
    | _ => false
  | 0x84 =>                                -- DQMX (R339)
    match a.sc with
    | .tyc t => tyMx.contains t && partOk a.sub.toNat a.ty.count t.count
    | _ => false
  | 0x90 | 0x91 =>                         -- REDUCE, SCAN: float types take ADD, MUL, MIN, MAX (R344)
    a.ty.kind ≠ .float || a.sub.toNat % 8 < 4
  | 0x88 => (if a.sub = 4 then Cls.lu.admits a.sb else true)   -- LNX.SPRD (R340)
  | 0x92 => a.hd.pred = 0                  -- XSHFL (R346)
  | _ => true

/-- The fields of an ALU word meet its form. -/
def AluForm.ok (f : AluForm) (a : AluArgs) : Bool :=
  a.hd.ok f.long && f.types.contains a.ty && f.subs.contains a.sub.toNat &&
  f.dst.admits a.dst && f.sa.admits a.sa && f.sb.admits a.sb && f.sc.admits a.sc &&
  a.sa.okFor a.ty && (f.opc = 0x88 || a.sb.okFor a.ty) &&
  a.sc.okFor a.ty && f.extOk a && f.extra a

/-! ## Control and system ranges (R296, R305 to R315) -/

/-- What the extension fields of a control or system word hold. -/
inductive X where
  | zero | any
  | sreg                                   -- a 12-bit special-register number
  deriving DecidableEq, Repr

/-- A form of the control or system range. -/
structure CtlForm where
  opc : Nat
  lens : List Len
  types : List Ty := [.u0]
  subs : List Nat := [0]
  dst : Cls := .no
  sa : Cls := .no
  sb : Cls := .no
  x1 : X := .zero
  x2 : X := .zero
  deriving Repr

/-- An extension field meets its form. -/
def X.ok (x : X) (w : W32) : Bool :=
  match x with
  | .zero => w = 0
  | .any => true
  | .sreg => w.toNat < 4096

/-- The fields of a control or system word meet its form; a field the word has no room for is zero. -/
def CtlForm.ok (f : CtlForm) (a : CtlArgs) : Bool :=
  a.hd.ok false && f.lens.contains a.len && f.types.contains a.ty && f.subs.contains a.sub.toNat &&
  f.dst.admits a.dst && f.sa.admits a.sa && f.sb.admits a.sb && f.x1.ok a.x1 && f.x2.ok a.x2 &&
  (a.len ≠ .b64 || a.x1 = 0) && (a.len = .b128 || a.x2 = 0)

/-- YIELD's fixed limits (R217, R310); the watermarks are held against the declared counts at issue. -/
def YieldArgs.ok (a : YieldArgs) : Bool :=
  a.hd.ok false && 1 ≤ a.d.toNat && a.d.toNat ≤ 16

/-! ## Memory and asynchronous ranges (R347 to R371) -/

/-- A form of the memory and asynchronous ranges. -/
structure MemForm where
  opc : Nat
  b64 : Bool := true
  types : List Ty := [.u0]
  subs : List Nat := [0]
  dst : Cls := .no
  sa : Cls := .no
  sb : Cls := .no
  sc : Cls := .no
  disp : Bool := false
  acq : Bool := false                      -- ORD may hold .ACQ
  rel : Bool := false                      -- ORD may hold .REL
  ro : Bool := false
  scope : Bool := false                    -- SCOPE used whatever ORD is
  space : Bool := false
  sets : Bool := false
  atomic : Bool := false                   -- AOP used
  eng : Bool := false
  long : Bool := false
  deriving Repr

/-- ORD 0b01 .ACQ, 0b10 .REL, 0b11 both: each needs its form, and both need both (R347). -/
def MemForm.ordOk (f : MemForm) (o : BitVec 2) : Bool :=
  match o.toNat with
  | 0 => true | 1 => f.acq | 2 => f.rel | _ => f.acq && f.rel

/-- The extension fields meet the form (R281, R347). -/
def MemForm.extOk (f : MemForm) (e : MemExt) : Bool :=
  (f.disp || e.disp = 0) && e.scope.toNat ≤ 5 && f.ordOk e.ord &&
  (e.scope = 0 || f.scope || e.ord ≠ 0) &&
  (!e.ro || (f.ro && e.ord = 0)) && (e.space.toNat ≤ 1 && (f.space || e.space = 0)) &&
  (f.sets || (e.pset = 0 && e.sset = 0)) && (f.atomic || e.aop = 0) &&
  (e.eng.toNat ≤ 3 && (f.eng || e.eng = 0))

/-- The extension a word reads (R281). -/
def MemArgs.e (a : MemArgs) : MemExt := a.ext.getD MemExt.none

/-- Rules of a form beyond its row: the operations of a float atomic (R354), the handle of a virtual
contiguous side (R365, R366), a gate number given by SMALL (R369). -/
def MemForm.extra (f : MemForm) (a : MemArgs) : Bool :=
  match f.opc with
  | 0xA8 | 0xA9 | 0xAA =>
    a.e.aop.toNat ≤ 8 && (a.ty.kind ≠ .float || a.e.aop.toNat ≤ 2 || a.e.aop = 6)
  | 0xC1 => a.e.space = 1 || a.sc = .zero
  | 0xC2 => a.e.space = 1 || a.sc = .zero
  | 0xC9 => (match a.sb with | .small k => 16 ≤ k.toNat && k.toNat < 24 | _ => true)
  | _ => true

/-- The fields of a memory or asynchronous word meet its form. -/
def MemForm.ok (f : MemForm) (a : MemArgs) : Bool :=
  a.hd.ok f.long && f.types.contains a.ty && f.subs.contains a.sub.toNat &&
  f.dst.admits a.dst && f.sa.admits a.sa && f.sb.admits a.sb && f.sc.admits a.sc &&
  (a.ext.isSome || f.b64) && f.extOk a.e && f.extra a

/-! ## Matrix, Agate and Welt ranges (R283 to R285, R372, R387, R392) -/

/-- A form of the matrix range. -/
structure MatForm where
  opc : Nat
  long : Bool := true                      -- 128-bit; else 64-bit
  types : List Ty := [.u0]
  subs : List Nat := [0]
  dst : Cls := .no
  sa : Cls := .no
  sb : Cls := .no
  sc : Cls := .no
  prof : Bool := false
  tile : Bool := false
  arr : Bool := false
  ksm1 : Bool := false
  mm1 : Bool := false
  scr : Bool := false
  bt : Bool := false
  deriving Repr

/-- The extension a matrix word reads. -/
def MatArgs.e (a : MatArgs) : MatExt := a.ext.getD MatExt.none

/-- Element types MADMIT takes; `u0` is RAW (R283). -/
def btTypes : List Ty := [.u0, .i8, .e4m3, .e5m2, .e3m2, .e2m3, .e2m1, .i4]

/-- The fields of a matrix word meet its form (R372). -/
def MatForm.ok (f : MatForm) (a : MatArgs) : Bool :=
  a.hd.ok false && f.types.contains a.ty && f.subs.contains a.sub.toNat &&
  f.dst.admits a.dst && f.sa.admits a.sa && f.sb.admits a.sb && f.sc.admits a.sc &&
  (a.ext.isSome = f.long) && (f.prof || a.e.prof = 0) && (f.tile || a.e.tile = 0) &&
  (f.arr || a.e.arr = 0) && (f.ksm1 || a.e.ksm1 = 0) && (f.mm1 || a.e.mm1 = 0) &&
  (f.scr || !a.e.scr) && (if f.bt then btTypes.contains a.e.bt else a.e.bt = .u0 && !a.e.ww) &&
  (match a.sc with | .hnd _ => a.e.scr | _ => true) && (f.opc ≠ 0xD6 || a.e.arr.toNat < 16)

/-- A form of the Agate range. -/
structure AgtForm where
  opc : Nat
  long : Bool := true
  subs : List Nat := [0]
  sa : Cls := .xa
  sb : Cls := .no
  sc : Cls := .no
  hd : Bool := false
  wm1 : Bool := false
  sgn : Bool := false
  mw : Bool := false
  deriving Repr

/-- The extension an Agate word reads. -/
def AgtArgs.e (a : AgtArgs) : AgtExt := a.ext.getD AgtExt.none

/-- The fields each AGOP operation uses (R387): HB, HM, SGN, K, and source B. -/
def agopUses (sub : Nat) : Bool × Bool × Bool × Bool × Bool :=
  match sub with
  | 0 | 1 | 2 | 5 | 6 | 7 => (true, false, false, false, false)
  | 8 => (true, false, true, false, false)
  | 9 => (true, true, false, false, false)
  | 10 => (false, false, false, true, false)
  | 11 => (false, false, true, true, false)
  | 12 => (false, false, false, false, true)
  | _ => (false, false, false, false, false)

/-- The fields of an Agate word meet its form. -/
def AgtForm.ok (f : AgtForm) (a : AgtArgs) : Bool :=
  a.hd.ok false && f.subs.contains a.sub.toNat && f.sa.admits a.sa && f.sc.admits a.sc &&
  (a.ext.isSome = f.long) && (f.hd || a.e.hd = 0) && (f.wm1 || a.e.wm1 = 0) &&
  (if f.mw then a.e.mw.toNat ≤ 4 else a.e.mw = 0) &&
  (if f.opc = 0xE4 then
    let u := agopUses a.sub.toNat
    (u.1 || a.e.hb = 0) && (u.2.1 || a.e.hm = 0) && (u.2.2.1 || !a.e.sgn) && (u.2.2.2.1 || a.e.k = 0) &&
    (if u.2.2.2.2 then Cls.xs.admits a.sb else Cls.no.admits a.sb)
   else a.e.ha = 0 && a.e.hb = 0 && a.e.hm = 0 && a.e.k = 0 && (f.sgn || !a.e.sgn) && f.sb.admits a.sb)

/-- A form of the Welt range. -/
structure WltForm where
  opc : Nat
  subs : List Nat := [0]
  dst : Cls := .no
  sa : Cls := .no
  chan : Bool := true
  deriving Repr

/-- The fields of a Welt word meet its form; a package channel above 15 is ILLOP (R167, R393). -/
def WltForm.ok (f : WltForm) (a : WltArgs) : Bool :=
  a.hd.ok false && f.subs.contains a.sub.toNat && f.dst.admits a.dst && f.sa.admits a.sa &&
  (f.chan || (!a.pk && a.ch = 0)) && (!a.pk || a.ch.toNat ≤ 15)

/-! ## Paired words (R286 to R288) -/

/-- V registers an X operation and a Y operation read, without repeats. -/
def PairArgs.reads (a : PairArgs) : List (BitVec 8) :=
  let x := match a.xop with
    | .ffma => [a.xa, a.xb, a.xc]
    | .itof | .ftoi => [a.xa]
    | _ => [a.xa, a.xb]
  let y := match a.yop with
    | .vmov => [a.ya]
    | _ => if a.ysb then [a.ya] else [a.ya, a.yb]
  (x ++ y).eraseDups

/-- A Y compare: its destination is a P register. -/
def YOp.isCmp : YOp → Bool
  | .eq | .ne | .lt | .le | .gt | .ge => true
  | _ => false

/-- The bank of a V register (R40, R288). -/
def vbank (v : BitVec 8) : Nat := v.toNat % 4

/-- The decode rules of a paired word (R286 to R288). -/
def PairArgs.ok (a : PairArgs) : Bool :=
  (a.pred ≠ 0 || !a.pneg) &&
  (a.xop = .ffma || a.xc = 0) && (!(a.xop = .itof || a.xop = .ftoi) || a.xb = 0) &&
  (a.yop ≠ .vmov || (a.yb = 0 && !a.ysb)) && (!a.ysb || a.yb.toNat < 128) &&
  (!a.yop.isCmp || a.yd.toNat < 16) &&
  (a.yop.isCmp || vbank a.xd ≠ vbank a.yd) &&
  a.reads.length ≤ 4 &&
  [0, 1, 2, 3].all (fun b => (a.reads.filter (fun v => vbank v = b)).length ≤ 2)

/-! ## The form of every program row -/

/-- A program instruction as its range's form and fields. -/
inductive View where
  | fill
  | alu (f : AluForm) (a : AluArgs)
  | ctl (f : CtlForm) (a : CtlArgs)
  | yield (a : YieldArgs)
  | mem (f : MemForm) (a : MemArgs)
  | mat (f : MatForm) (a : MatArgs)
  | agt (f : AgtForm) (a : AgtArgs)
  | wlt (f : WltForm) (a : WltArgs)
  | pair (a : PairArgs)
  | event

namespace Forms

/-- Scalar two-source form (R301). -/
def s2 (opc : Nat) (ts : List Ty) : AluForm := { opc := opc, types := ts, dst := .sd, sa := .ssrc, sb := .ssrc }
/-- Scalar one-source form (R301). -/
def s1 (opc : Nat) (ts : List Ty) : AluForm := { opc := opc, types := ts, dst := .sd, sa := .ssrc }
/-- Vector two-source form (R325). -/
def v2 (opc : Nat) (ts : List Ty) : AluForm :=
  { opc := opc, types := ts, dst := .vd, sa := .vsrc, sb := .vsrc }
/-- Vector two-source form with narrowing. -/
def v2n (opc : Nat) (ts : List Ty) (sat : Bool) : AluForm :=
  { v2 opc ts with msat := sat, nard := true, nars := true }
/-- Vector one-source form with narrowing. -/
def v1n (opc : Nat) (ts : List Ty) (sat : Bool) : AluForm :=
  { opc := opc, types := ts, dst := .vd, sa := .vsrc, msat := sat, nard := true, nars := true }
/-- Float two-source form with R, S and N (R329). -/
def f2 (opc : Nat) : AluForm := { v2n opc tyFlt true with mrnd := true }
/-- Float one-source form with R, S and N. -/
def f1 (opc : Nat) : AluForm := { v1n opc tyFlt true with mrnd := true }
/-- Special functions (R333). -/
def sfu (opc : Nat) : AluForm := { v1n opc [.f16, .bf16, .f32] true with b128 := false, long := true }
/-- LNX (R340): the 96-bit word holds IMM32 and no modifier block; DST may be ZERO (R271). -/
def lnx (sub : Nat) : AluForm :=
  { opc := 0x88, types := Ty.all, subs := [sub], dst := .vd, sa := .vv, sb := .lx, sc := .lc, b128 := false,
    modb := false }
/-- CENSUS (R342). -/
def census (sub : Nat) (d : Cls) : AluForm :=
  { opc := 0x8D, types := tyNone, subs := [sub], dst := d, sa := .vp, b96 := false, b128 := false }
/-- PEERS (R343). -/
def peers (sub : Nat) (d : Cls) : AluForm :=
  { opc := 0x8E, types := [.u0, .n32, .n64], subs := [sub], dst := d, sa := .vv, b96 := false, b128 := false }
/-- All SUB values. -/
def anySub : List Nat := List.range 16
/-- Condition codes (R298). -/
def ccSub : List Nat := [0, 1, 2, 3, 4, 5]

end Forms

open Forms in
/-- The form each row of the opcode table has (R290, R301, R305, R309 to R315, R325, R329, R333 to R346,
R347, R363 to R371, R372, R387, R392). -/
def Instr.view : Instr → View
  | .fill => .fill
  | .sadd a => .alu { s2 0x00 tyIntP with msat := true } a
  | .ssub a => .alu { s2 0x01 tyIntP with msat := true } a
  | .smul a => .alu { s2 0x02 tyIntP with msat := true } a
  | .smulh a => .alu (s2 0x03 tyIntP) a
  | .sdiv a => .alu { s2 0x04 tyIntP with msat := true, long := true } a
  | .srem a => .alu { s2 0x05 tyIntP with long := true } a
  | .sand a => .alu (s2 0x06 tyNone) a
  | .sor a => .alu (s2 0x07 tyNone) a
  | .sxor a => .alu (s2 0x08 tyNone) a
  | .sshl a => .alu (s2 0x09 tyIntP) a
  | .sshr a => .alu (s2 0x0A tyIntP) a
  | .ssra a => .alu (s2 0x0B tyIntP) a
  | .smin a => .alu (s2 0x0C tyIntP) a
  | .smax a => .alu (s2 0x0D tyIntP) a
  | .scmp a => .alu { s2 0x0E tyIntP with dst := .pd, subs := ccSub } a
  | .ssel a => .alu { s2 0x0F tyIntP with subs := anySub } a
  | .smov a => .alu (s1 0x10 tyNone) a
  | .smovi a => .alu { s1 0x11 tyNone with sa := .imm, b64 := false, b128 := false } a
  | .smoviHi a => .alu { s1 0x11 tyNone with sa := .imm, b64 := false, b128 := false, subs := [1] } a
  | .slea a => .alu { s2 0x12 tyNone with subs := anySub } a
  | .sbfe a => .alu (s2 0x13 [.i64, .n64]) a
  | .sbfi a => .alu { s2 0x14 tyNone with sc := .ssrc } a
  | .spopc a => .alu (s1 0x15 tyIntP) a
  | .sclz a => .alu (s1 0x16 tyIntP) a
  | .sbrev a => .alu (s1 0x17 tyIntP) a
  | .bra a => .ctl { opc := 0x20, lens := [.b96], x1 := .any } a
  | .bras a => .ctl { opc := 0x21, lens := [.b96], types := tyCmp, subs := ccSub, sa := .sx, sb := .sx, x1 := .any } a
  | .brv a => .ctl { opc := 0x22, lens := [.b128], types := tyCmp, subs := ccSub, sa := .xs, sb := .xs, x1 := .any, x2 := .any } a
  | .jmp a => .ctl { opc := 0x23, lens := [.b64], sa := .ss } a
  | .jmpv a => .ctl { opc := 0x24, lens := [.b128], sa := .vs, x2 := .any } a
  | .callLabel a => .ctl { opc := 0x25, lens := [.b96], dst := .sd, x1 := .any } a
  | .callReg a => .ctl { opc := 0x25, lens := [.b64], dst := .sd, sa := .ss } a
  | .ret a => .ctl { opc := 0x26, lens := [.b64], sa := .ss } a
  | .land a => .ctl { opc := 0x27, lens := [.b64] } a
  | .yield a => .yield a
  | .exit a => .ctl { opc := 0x29, lens := [.b64] } a
  | .nop a => .ctl { opc := 0x2A, lens := [.b64, .b96, .b128] } a
  | .elect a => .ctl { opc := 0x2B, lens := [.b64], subs := anySub, dst := .sd } a
  | .exmrd a => .ctl { opc := 0x2C, lens := [.b64], dst := .ss } a
  | .exmrdOwn a => .ctl { opc := 0x2C, lens := [.b64], subs := [1], dst := .ss } a
  | .exmwr a => .ctl { opc := 0x2D, lens := [.b64], sa := .sx } a
  | .exmwrAnd a => .ctl { opc := 0x2D, lens := [.b64], subs := [1], sa := .sx } a
  | .exmwrOr a => .ctl { opc := 0x2D, lens := [.b64], subs := [2], sa := .sx } a
  | .regroup a => .ctl { opc := 0x2E, lens := [.b64], subs := anySub, dst := .sd } a
  | .vadd a => .alu (v2n 0x40 tyInt true) a
  | .vsub a => .alu (v2n 0x41 tyInt true) a
  | .vmul a => .alu (v2n 0x42 tyInt true) a
  | .vmulh a => .alu (v2n 0x43 tyIntP false) a
  | .vmad a => .alu { v2n 0x44 tyInt true with sc := .vsrc } a
  | .vdiv a => .alu { v2n 0x45 tyIntP true with long := true } a
  | .vrem a => .alu { v2n 0x46 tyIntP false with long := true } a
  | .vand a => .alu (v2 0x47 tyNone) a
  | .vor a => .alu (v2 0x48 tyNone) a
  | .vxor a => .alu (v2 0x49 tyNone) a
  | .vshl a => .alu (v2n 0x4A tyIntP false) a
  | .vshr a => .alu (v2n 0x4B tyIntP false) a
  | .vsra a => .alu (v2n 0x4C tyIntP false) a
  | .vmin a => .alu (v2n 0x4D tyInt false) a
  | .vmax a => .alu (v2n 0x4E tyInt false) a
  | .vabs a => .alu (v1n 0x4F tyInt true) a
  | .vneg a => .alu (v1n 0x50 tyInt true) a
  | .vcmp a => .alu { v2 0x51 tyInt with dst := .pd, subs := ccSub, nars := true } a
  | .vsel a => .alu { v2 0x52 Ty.all with subs := anySub } a
  | .vmov a => .alu { v1n 0x53 Ty.all true with mrnd := true } a
  | .vmovi a => .alu { opc := 0x54, types := tyNone, dst := .vd, sa := .imm, b64 := false, b128 := false } a
  | .vmoviHi a => .alu { opc := 0x54, types := tyNone, subs := [1], dst := .vd, sa := .imm, b64 := false, b128 := false } a
  | .vbfe a => .alu (v2 0x55 [.i64, .n64]) a
  | .vbfi a => .alu { v2 0x56 tyNone with sc := .vsrc } a
  | .vpopc a => .alu (v1n 0x57 tyInt false) a
  | .vclz a => .alu (v1n 0x58 tyInt false) a
  | .vdot4 a => .alu { opc := 0x59, types := [.i32, .n32], subs := [0, 1, 2, 3], dst := .vd, sa := .vs, sb := .vs, sc := .vsrc, msat := true } a
  | .vlea a => .alu { v2 0x5A tyNone with subs := anySub } a
  | .fadd a => .alu (f2 0x60) a
  | .fsub a => .alu (f2 0x61) a
  | .fmul a => .alu (f2 0x62) a
  | .ffma a => .alu { f2 0x63 with sc := .vsrc } a
  | .fmin a => .alu (f2 0x64) a
  | .fmax a => .alu (f2 0x65) a
  | .fcmp a => .alu { v2 0x66 tyFlt with dst := .pd, subs := [0, 1, 2, 3, 4, 5, 6], nars := true } a
  | .fclass a => .alu { opc := 0x67, types := tyFlt, dst := .vd, sa := .vsrc, nars := true } a
  | .fdiv a => .alu { f2 0x68 with long := true } a
  | .fsqrt a => .alu { f1 0x69 with long := true } a
  | .fscale a => .alu (f2 0x6A) a
  | .fround a => .alu (f1 0x6B) a
  | .ffrac a => .alu (v1n 0x6C tyFlt true) a
  | .fdot2 a => .alu { opc := 0x6D, types := [.f32], subs := [0, 1], dst := .vd, sa := .vs, sb := .vs, sc := .vsrc, mrnd := true, msat := true, nard := true } a
  | .frcp a => .alu (sfu 0x70) a
  | .frsq a => .alu (sfu 0x71) a
  | .fexp2 a => .alu (sfu 0x72) a
  | .flog2 a => .alu (sfu 0x73) a
  | .fsin a => .alu (sfu 0x74) a
  | .fcos a => .alu (sfu 0x75) a
  | .ftanh a => .alu (sfu 0x76) a
  | .pairedWord a => .pair a
  | .cvt a => .alu { opc := 0x80, types := Ty.all, subs := anySub, dst := .vd, sa := .vs, sb := .tc, mrnd := true, msat := true } a
  | .pack a => .alu { opc := 0x81, types := [.i8, .i16, .i32, .n8, .n16, .n32, .i4, .n4], dst := .vd, sa := .vs, sb := .vs, b128 := false, msat := true } a
  | .unpack a => .alu { opc := 0x82, types := [.i8, .i16, .i32, .n8, .n16, .n32, .i4, .n4], dst := .vd, sa := .vs, b128 := false } a
  | .unpackHi a => .alu { opc := 0x82, types := [.i8, .i16, .i32, .n8, .n16, .n32, .i4, .n4], subs := [1], dst := .vd, sa := .vs, b128 := false } a
  | .qmx a => .alu { opc := 0x83, types := tyMx, subs := anySub, dst := .vd, sa := .vv, sb := .tc, sc := .ss, b128 := false, mrnd := true } a
  | .dqmx a => .alu { opc := 0x84, types := [.f16, .bf16, .f32], subs := anySub, dst := .vd, sa := .vv, sb := .ss, sc := .tc, b128 := false, mrnd := true, msat := true } a
  | .lnxIdx a => .alu (lnx 0) a
  | .lnxWin a => .alu (lnx 1) a
  | .lnxRise a => .alu (lnx 2) a
  | .lnxFall a => .alu (lnx 3) a
  | .lnxSprd a => .alu (lnx 4) a
  | .lnxRot a => .alu (lnx 5) a
  | .censusSome a => .alu (census 0 .pd) a
  | .censusEvery a => .alu (census 1 .pd) a
  | .censusMask a => .alu (census 2 .sd) a
  | .censusCount a => .alu (census 3 .sd) a
  | .peersMask a => .alu (peers 0 .vd) a
  | .peersUniform a => .alu (peers 1 .pd) a
  | .peersLead a => .alu (peers 2 .pd) a
  | .reduce a => .alu { opc := 0x90, types := tyMem, subs := List.range 7, dst := .sd, sa := .vv, sb := .pd, b128 := false, mrnd := true, msat := true, noRsx := true } a
  | .scan a => .alu { opc := 0x91, types := tyMem, subs := List.range 7, dst := .vd, sa := .vv, sb := .pd, b128 := false, mrnd := true, msat := true, noRsx := true } a
  | .scanExc a => .alu { opc := 0x91, types := tyMem, subs := [8, 9, 10, 11, 12, 13, 14], dst := .vd, sa := .vv, sb := .pd, b128 := false, mrnd := true, msat := true, noRsx := true } a
  | .xshfl a => .alu { opc := 0x92, types := tyNone, dst := .vv, sa := .vv, b96 := false, b128 := false } a
  | .ld a => .mem { opc := 0xA0, types := tyMem, dst := .vv, sa := .xa, disp := true, acq := true, ro := true, long := true } a
  | .st a => .mem { opc := 0xA1, types := tyMem, sa := .xa, sb := .xs, disp := true, rel := true } a
  | .ldw a => .mem { opc := 0xA2, subs := [0, 1, 2, 3], dst := .vv, sa := .ss, disp := true, acq := true, ro := true, long := true } a
  | .lds a => .mem { opc := 0xA3, types := tyMem, dst := .vv, sa := .xa, disp := true, acq := true, long := true } a
  | .sts a => .mem { opc := 0xA4, types := tyMem, sa := .xa, sb := .xs, disp := true, rel := true } a
  | .ldnr a => .mem { opc := 0xA5, types := tyMem, dst := .vv, sa := .xa, sc := .pd, disp := true, long := true } a
  | .prefL1 a => .mem { opc := 0xA6, sa := .xa, disp := true } a
  | .prefRo a => .mem { opc := 0xA6, subs := [1], sa := .xa, disp := true } a
  | .prefL2 a => .mem { opc := 0xA6, subs := [2], sa := .xa, disp := true } a
  | .atom a => .mem { opc := 0xA8, types := tyCmp ++ [.f32, .f64], dst := .vd, sa := .xa, sb := .xs, disp := true, acq := true, rel := true, atomic := true, long := true } a
  | .atoms a => .mem { opc := 0xA9, types := tyCmp ++ [.f32, .f64], dst := .sd, sa := .ss, sb := .sx, disp := true, acq := true, rel := true, atomic := true, long := true } a
  | .atomr a => .mem { opc := 0xAA, types := tyCmp ++ [.f32, .f64], sa := .xa, sb := .xs, disp := true, rel := true, atomic := true } a
  | .cas a => .mem { opc := 0xAB, types := tyCmp, dst := .vd, sa := .xa, sb := .xs, sc := .xs, disp := true, acq := true, rel := true, long := true } a
  | .cass a => .mem { opc := 0xAC, types := tyCmp, dst := .sd, sa := .ss, sb := .sx, sc := .sx, disp := true, acq := true, rel := true, long := true } a
  | .fence a => .mem { opc := 0xB0, b64 := false, scope := true, sets := true } a
  | .cflush a => .mem { opc := 0xB1, sa := .xa, disp := true } a
  | .cflushInv a => .mem { opc := 0xB1, subs := [1], sa := .xa, disp := true } a
  | .cinv a => .mem { opc := 0xB2, sa := .xa, disp := true } a
  | .cinvRo a => .mem { opc := 0xB2, subs := [1] } a
  | .cinvI a => .mem { opc := 0xB2, subs := [2] } a
  | .copyV2s a => .mem { opc := 0xC0, dst := .sd, sa := .sd, sb := .sm, sc := .zh } a
  | .copyS2v a => .mem { opc := 0xC0, subs := [1], dst := .sd, sa := .sd, sb := .sm, sc := .zh } a
  | .copyV2v a => .mem { opc := 0xC0, subs := [2], dst := .sd, sa := .sd, sb := .sm, sc := .zz } a
  | .copyS2s a => .mem { opc := 0xC0, subs := [3], dst := .sd, sa := .sd, sb := .sm, sc := .zh } a
  | .copygG a => .mem { opc := 0xC1, subs := [0, 1, 2, 3, 4, 5], dst := .sd, sa := .vv, sc := .zh, space := true } a
  | .copygS a => .mem { opc := 0xC1, subs := [8, 9, 10, 11, 12, 13], dst := .sd, sa := .vv, sc := .zh, space := true } a
  | .copypPut a => .mem { opc := 0xC2, subs := [0, 2], sa := .ss, sb := .sx, sc := .zh, space := true } a
  | .copypGet a => .mem { opc := 0xC2, subs := [1, 3], sa := .ss, sb := .sx, sc := .zh, space := true } a
  | .batch a => .mem { opc := 0xC3, dst := .sd, eng := true } a
  | .waitb a => .mem { opc := 0xC4, sa := .sx, disp := true, eng := true } a
  | .waitc a => .mem { opc := 0xC5, sa := .sx, disp := true, eng := true } a
  | .hacqDrain a => .mem { opc := 0xC6, dst := .sd, sa := .hh } a
  | .hacqFill a => .mem { opc := 0xC6, subs := [1], sa := .hh, sb := .sx, sc := .sx } a
  | .hrel a => .mem { opc := 0xC7, sa := .hh } a
  | .hstat a => .mem { opc := 0xC8, dst := .sd, sa := .hh } a
  | .gatePass a => .mem { opc := 0xC9, sb := .sx, scope := true } a
  | .gateMark a => .mem { opc := 0xC9, subs := [1], dst := .sd, sb := .sx, scope := true } a
  | .gateHold a => .mem { opc := 0xC9, subs := [2], sa := .sx, sb := .sx, scope := true } a
  | .ggatePass a => .mem { opc := 0xCA, scope := true } a
  | .ggateMark a => .mem { opc := 0xCA, subs := [1], dst := .sd, scope := true } a
  | .ggateHold a => .mem { opc := 0xCA, subs := [2], sa := .sx, scope := true } a
  | .sigset a => .mem { opc := 0xCB, sa := .sd, sb := .sx, disp := true, scope := true } a
  | .sigadd a => .mem { opc := 0xCC, sa := .sd, sb := .sx, disp := true, scope := true } a
  | .sigwait a => .mem { opc := 0xCD, subs := ccSub, dst := .sd, sa := .sd, sb := .sx, disp := true, scope := true } a
  | .mppt a => .mat { opc := 0xD0, long := false, sa := .ss } a
  | .mcfg a => .mat { opc := 0xD1, long := false, sa := .ss } a
  | .madmit a => .mat { opc := 0xD2, sa := .ss, sb := .ss, sc := .zh, arr := true, scr := true, bt := true } a
  | .mrelease a => .mat { opc := 0xD3, arr := true } a
  | .mloop a => .mat { opc := 0xD4, sa := .ss, sb := .sd, sc := .zh, prof := true, tile := true, arr := true, ksm1 := true, mm1 := true, scr := true } a
  | .maclr a => .mat { opc := 0xD5, tile := true, ksm1 := true } a
  | .mamovCpy a => .mat { opc := 0xD6, tile := true, arr := true, ksm1 := true } a
  | .mamovAdd a => .mat { opc := 0xD6, subs := [1], tile := true, arr := true, ksm1 := true } a
  | .maload a => .mat { opc := 0xD7, types := [.f32], sa := .ss, tile := true, ksm1 := true, scr := true } a
  | .mastore a => .mat { opc := 0xD8, types := [.f16, .bf16, .f32, .e4m3, .e5m2], sa := .ss, prof := true, tile := true, ksm1 := true, scr := true } a
  | .mstest a => .mat { opc := 0xD9, arr := true } a
  | .mprogRd a => .mat { opc := 0xDA, long := false, dst := .ss } a
  | .mprogWr a => .mat { opc := 0xDA, long := false, subs := [1], sa := .ss } a
  | .mstat a => .mat { opc := 0xDB, long := false, dst := .sd, sa := .sx } a
  | .agon a => .agt { opc := 0xE0, long := false } a
  | .agoff a => .agt { opc := 0xE1, long := false } a
  | .agld a => .agt { opc := 0xE2, sb := .xa, sc := .xa, hd := true, wm1 := true, sgn := true, mw := true } a
  | .agst a => .agt { opc := 0xE3, sb := .xa, sc := .xa, hd := true, wm1 := true, sgn := true, mw := true } a
  | .agop a => .agt { opc := 0xE4, subs := List.range 13, hd := true, wm1 := true } a
  | .agred a => .agt { opc := 0xE5, sb := .xa, hd := true, wm1 := true, sgn := true } a
  | .wbar a => .wlt { opc := 0xE8, dst := .sd } a
  | .wwait a => .wlt { opc := 0xE9, sa := .sx } a
  | .wbcast a => .wlt { opc := 0xEA, dst := .sd, sa := .sx } a
  | .wrecvB a => .wlt { opc := 0xEB, dst := .ss, sa := .sx } a
  | .wrecvR a => .wlt { opc := 0xEB, subs := [1], dst := .ss, sa := .sx } a
  | .wred a => .wlt { opc := 0xEC, dst := .sd, sa := .sx } a
  | .wtick a => .wlt { opc := 0xED, dst := .ss, chan := false } a
  | .trap a => .ctl { opc := 0xF0, lens := [.b64], sa := .sx } a
  | .tret a => .ctl { opc := 0xF1, lens := [.b64] } a
  | .sysrd a => .ctl { opc := 0xF2, lens := [.b96], dst := .vs, x1 := .sreg } a
  | .syswr a => .ctl { opc := 0xF3, lens := [.b96], sa := .xs, x1 := .sreg } a
  | .kill a => .ctl { opc := 0xF4, lens := [.b64], sa := .sx } a
  | .brk a => .ctl { opc := 0xF5, lens := [.b64] } a
  | .pmcrd a => .ctl { opc := 0xF6, lens := [.b64], subs := anySub, dst := .sd } a
  | .pmcwr a => .ctl { opc := 0xF7, lens := [.b64], subs := anySub, sa := .sx } a
  | _ => .event

/-- A view's fields meet its form. -/
def View.ok : View → Bool
  | .fill => true
  | .alu f a => f.ok a
  | .ctl f a => f.ok a
  | .yield a => a.ok
  | .mem f a => f.ok a
  | .mat f a => f.ok a
  | .agt f a => f.ok a
  | .wlt f a => f.ok a
  | .pair a => a.ok
  | .event => true

/-- The instruction is one the opcode map admits (R291); a device event has no word to check. -/
def Instr.wf (i : Instr) : Bool := i.view.ok

/-- The row has an instruction word. -/
def Instr.isProgram (i : Instr) : Bool :=
  match i.view with
  | .event => false
  | _ => true

end Sys2Proof
end

