-- ==== Sys2Proof/Decode.lean ====
section
/-! DEFINITION. Instruction words (R265 to R291): a total decoder that refuses by name, and the encoder
written from the same tables. -/

namespace Sys2Proof

/-! ## Bit fields -/

/-- A number laid out from fields given least significant first, each with its width. -/
def packBits : List (Nat × Nat) → Nat
  | [] => 0
  | (n, x) :: r => x % 2 ^ n + 2 ^ n * packBits r

/-- The fields of a number, least significant first. -/
def unpackBits : List Nat → Nat → List Nat
  | [], _ => []
  | n :: r, w => (w % 2 ^ n) :: unpackBits r (w / 2 ^ n)

/-- Reading back packed fields gives the fields, each at its own width. -/
theorem unpackBits_packBits (l : List (Nat × Nat)) :
    unpackBits (l.map Prod.fst) (packBits l) = l.map fun f => f.2 % 2 ^ f.1 := by
  induction l with
  | nil => rfl
  | cons f r ih =>
    obtain ⟨n, x⟩ := f
    have hp : 0 < 2 ^ n := Nat.two_pow_pos n
    simp only [packBits, List.map_cons, unpackBits, Nat.add_mul_mod_self_left, Nat.mod_mod,
      Nat.add_mul_div_left _ _ hp, Nat.div_eq_of_lt (Nat.mod_lt _ hp), Nat.zero_add, ih]

/-- Why a word is refused; each is ILLOP at decode (R265, R291). -/
inductive DecodeError where
  | fill                                   -- LEN 0b11 with a word other than 0xFFFF_FFFF
  | opcode (opc : Nat)                     -- an opcode, SUB or length the map does not assign
  | typeCode (n : Nat)                     -- a type code past 0x14
  | rounding (n : Nat)                     -- rounding code 5 to 7
  | operand (n : Nat)                      -- a specifier the form does not accept
  | reserved (n : Nat)                     -- a nonzero reserved field
  | form (opc : Nat)                       -- fields the form does not accept together
  deriving DecidableEq, Repr

/-- Type of a code (R270). -/
def Ty.ofCode (n : Nat) : Except DecodeError Ty :=
  match Ty.all[n]? with
  | some t => .ok t
  | none => .error (.typeCode n)

/-- Rounding code of R226. -/
def Rnd.code : Rnd → Nat
  | .rne => 0 | .rtz => 1 | .rdn => 2 | .rup => 3 | .rsx => 4

/-- Rounding mode of a code (R226, R278). -/
def Rnd.ofCode (n : Nat) : Except DecodeError Rnd :=
  match n with
  | 0 => .ok .rne | 1 => .ok .rtz | 2 => .ok .rdn | 3 => .ok .rup | 4 => .ok .rsx
  | _ => .error (.rounding n)

/-- Specifier of an operand (R271, R272). -/
def Opnd.code : Opnd → Nat
  | .none => 0
  | .v n => n.toNat
  | .s n => 0x100 + n.toNat
  | .zero => 0x180 | .lane => 0x181 | .sube => 0x182 | .pos => 0x183
  | .imm32 => 0x188 | .imm64 => 0x189
  | .pv k => 0x190 + k.toNat
  | .small k => 0x1C0 + k.toNat
  | .hnd h => 0x1E0 + h.toNat
  | .preg k => k.toNat
  | .tyc t => t.code
  | .lnx k c => k.toNat + 16 * c.toNat

/-- The operand a specifier names (R271, R272). -/
def Opnd.ofCode (n : Nat) : Except DecodeError Opnd :=
  if n < 0x100 then .ok (.v (.ofNat 8 n))
  else if n < 0x180 then .ok (.s (.ofNat 7 (n - 0x100)))
  else if n = 0x180 then .ok .zero
  else if n = 0x181 then .ok .lane
  else if n = 0x182 then .ok .sube
  else if n = 0x183 then .ok .pos
  else if n = 0x188 then .ok .imm32
  else if n = 0x189 then .ok .imm64
  else if 0x190 ≤ n ∧ n < 0x1A0 then .ok (.pv (.ofNat 4 (n - 0x190)))
  else if 0x1C0 ≤ n ∧ n < 0x1E0 then .ok (.small (.ofNat 5 (n - 0x1C0)))
  else if 0x1E0 ≤ n ∧ n < 0x1F0 then .ok (.hnd (.ofNat 4 (n - 0x1E0)))
  else .error (.operand n)

/-- A specifier field read as its class says: an unused field, a P register index, a type code, LNX's
predicate and span, or an operand. -/
def Cls.parse (c : Cls) (n : Nat) : Except DecodeError Opnd :=
  match c with
  | .no => if n = 0 then .ok .none else .error (.reserved n)
  | .pd => if n < 16 then .ok (.preg (.ofNat 4 n)) else .error (.operand n)
  | .tc => (Ty.ofCode n).map .tyc
  | .lc => if n < 128 then .ok (.lnx (.ofNat 4 n) (.ofNat 3 (n / 16))) else .error (.operand n)
  | _ => Opnd.ofCode n

/-- Bool of a bit. -/
def bitB (n : Nat) : Bool := n % 2 = 1
/-- Bit of a Bool. -/
def boolN (b : Bool) : Nat := if b then 1 else 0

/-! ## Common fields (R268, R269) -/

/-- The common layout as numbers. -/
structure Common where
  len : Nat
  opc : Nat
  pred : Nat
  pneg : Nat
  la : Nat
  dst : Nat
  sa : Nat
  sb : Nat
  sc : Nat
  sub : Nat
  ty : Nat
  deriving DecidableEq, Repr

/-- Read the common layout. -/
def Common.read (w : Nat) : Common :=
  match unpackBits [2, 8, 4, 1, 4, 9, 9, 9, 9, 4, 5] w with
  | [a, b, c, d, e, f, g, h, i, j, k] => ⟨a, b, c, d, e, f, g, h, i, j, k⟩
  | _ => ⟨0, 0, 0, 0, 0, 0, 0, 0, 0, 0, 0⟩

/-- Write the common layout. -/
def Common.word (c : Common) : Nat :=
  packBits [(2, c.len), (8, c.opc), (4, c.pred), (1, c.pneg), (4, c.la), (9, c.dst), (9, c.sa), (9, c.sb),
    (9, c.sc), (4, c.sub), (5, c.ty)]

/-- Predicate and lookahead of a word. -/
def Common.hd (c : Common) : Hd := ⟨.ofNat 4 c.pred, bitB c.pneg, .ofNat 4 c.la⟩

/-- LEN of a length (R265). -/
def Len.code : Len → Nat
  | .b64 => 0 | .b96 => 1 | .b128 => 2

/-- Length of LEN. -/
def Len.ofCode (n : Nat) : Len :=
  match n with
  | 0 => .b64 | 1 => .b96 | _ => .b128

/-- Bits of a length. -/
def Len.bits : Len → Nat
  | .b64 => 64 | .b96 => 96 | .b128 => 128

/-! ## Extensions -/

/-- A narrow selector as seven bits (R278). -/
def Sel.code (s : Sel) : Nat := packBits [(4, s.k.toNat), (1, boolN s.alt), (2, s.w.toNat)]
/-- The selector of seven bits. -/
def Sel.ofCode (n : Nat) : Sel :=
  match unpackBits [4, 1, 2] n with
  | [k, a, w] => ⟨.ofNat 2 w, bitB a, .ofNat 4 k⟩
  | _ => Sel.off

/-- The modifier block as 32 bits (R278). -/
def Mods.code (m : Mods) : Nat :=
  packBits [(7, m.an.code), (7, m.bn.code), (7, m.cn.code), (7, m.dn.code), (3, m.rnd.code), (1, boolN m.sat)]

/-- The modifier block of 32 bits. -/
def Mods.ofCode (n : Nat) : Except DecodeError Mods :=
  match unpackBits [7, 7, 7, 7, 3, 1] n with
  | [a, b, c, d, r, s] => do
    let rnd ← Rnd.ofCode r
    .ok ⟨bitB s, rnd, Sel.ofCode d, Sel.ofCode c, Sel.ofCode b, Sel.ofCode a⟩
  | _ => .error (.reserved n)

/-- The memory extension as 64 bits (R281). -/
def MemExt.code (e : MemExt) : Nat :=
  packBits [(4, e.eng.toNat), (4, e.aop.toNat), (8, e.sset.toNat), (8, e.pset.toNat), (2, e.space.toNat),
    (1, boolN e.ro), (2, e.ord.toNat), (3, e.scope.toNat), (32, e.disp.toNat)]

/-- The memory extension of 64 bits. -/
def MemExt.ofCode (n : Nat) : MemExt :=
  match unpackBits [4, 4, 8, 8, 2, 1, 2, 3, 32] n with
  | [eng, aop, ss, ps, sp, ro, od, sc, di] =>
    ⟨.ofNat 32 di, .ofNat 3 sc, .ofNat 2 od, bitB ro, .ofNat 2 sp, .ofNat 8 ps, .ofNat 8 ss, .ofNat 4 aop,
     .ofNat 4 eng⟩
  | _ => MemExt.none

/-- The matrix extension as 64 bits (R283). -/
def MatExt.code (e : MatExt) : Nat :=
  packBits [(33, 0), (1, boolN e.ww), (5, e.bt.code), (1, boolN e.scr), (5, e.mm1.toNat), (5, e.ksm1.toNat),
    (6, e.arr.toNat), (4, e.tile.toNat), (4, e.prof.toNat)]

/-- The matrix extension of 64 bits. -/
def MatExt.ofCode (n : Nat) : Except DecodeError MatExt :=
  match unpackBits [33, 1, 5, 1, 5, 5, 6, 4, 4] n with
  | [z, ww, bt, scr, mm, ks, ar, ti, pr] => do
    let t ← Ty.ofCode bt
    if z = 0 then
      .ok ⟨.ofNat 4 pr, .ofNat 4 ti, .ofNat 6 ar, .ofNat 5 ks, .ofNat 5 mm, bitB scr, t, bitB ww⟩
    else .error (.reserved z)
  | _ => .error (.reserved n)

/-- The Agate extension as 64 bits (R284). -/
def AgtExt.code (e : AgtExt) : Nat :=
  packBits [(12, 0), (3, e.mw.toNat), (6, e.k.toNat), (1, boolN e.sgn), (6, e.wm1.toNat), (9, e.hm.toNat),
    (9, e.hb.toNat), (9, e.ha.toNat), (9, e.hd.toNat)]

/-- The Agate extension of 64 bits. -/
def AgtExt.ofCode (n : Nat) : Except DecodeError AgtExt :=
  match unpackBits [12, 3, 6, 1, 6, 9, 9, 9, 9] n with
  | [z, mw, k, sg, wm, hm, hb, ha, hd] =>
    if z = 0 then
      .ok ⟨.ofNat 9 hd, .ofNat 9 ha, .ofNat 9 hb, .ofNat 9 hm, .ofNat 6 wm, bitB sg, .ofNat 6 k, .ofNat 3 mw⟩
    else .error (.reserved z)
  | _ => .error (.reserved n)

/-! ## Words of each range: parse and write -/

/-- Fields of an ALU word by its form (R268, R280). -/
def AluForm.parse (f : AluForm) (c : Common) (ext : Nat) : Except DecodeError AluArgs := do
  let ty ← Ty.ofCode c.ty
  let dst ← f.dst.parse c.dst
  let sa ← f.sa.parse c.sa
  let sb ← f.sb.parse c.sb
  let sc ← f.sc.parse c.sc
  let base : AluArgs := ⟨c.hd, ty, .ofNat 4 c.sub, dst, sa, sb, sc, .none⟩
  match Len.ofCode c.len with
  | .b64 => .ok base
  | .b96 =>
    if base.names .imm32 then .ok { base with ext := .imm32 (.ofNat 32 ext) }
    else do
      let m ← Mods.ofCode (ext % 2 ^ 32)
      .ok { base with ext := .mods m }
  | .b128 =>
    if base.names .imm64 then .ok { base with ext := .imm64 (.ofNat 64 ext) }
    else do
      let m ← Mods.ofCode (ext % 2 ^ 32)
      .ok { base with ext := .modsImm m (.ofNat 32 (ext / 2 ^ 32)) }

/-- Length of an ALU word. -/
def AluExt.len : AluExt → Len
  | .none => .b64
  | .mods _ | .imm32 _ => .b96
  | .imm64 _ | .modsImm _ _ => .b128

/-- Extension bits of an ALU word. -/
def AluExt.code : AluExt → Nat
  | .none => 0
  | .mods m => m.code
  | .imm32 x => x.toNat
  | .imm64 x => x.toNat
  | .modsImm m x => m.code + 2 ^ 32 * x.toNat

/-- The common fields of a word with predicate and lookahead `h`. -/
def Common.of (l : Len) (opc : Nat) (h : Hd) (dst sa sb sc sub ty : Nat) : Common :=
  ⟨l.code, opc, h.pred.toNat, boolN h.pneg, h.la.toNat, dst, sa, sb, sc, sub, ty⟩

/-- An ALU word. -/
def AluForm.write (f : AluForm) (a : AluArgs) : Nat :=
  (Common.of a.ext.len f.opc a.hd a.dst.code a.sa.code a.sb.code a.sc.code a.sub.toNat a.ty.code).word
    + 2 ^ 64 * a.ext.code

/-- Fields of a control or system word (R282). -/
def CtlForm.parse (f : CtlForm) (c : Common) (ext : Nat) : Except DecodeError CtlArgs := do
  let ty ← Ty.ofCode c.ty
  let dst ← f.dst.parse c.dst
  let sa ← f.sa.parse c.sa
  let sb ← f.sb.parse c.sb
  if c.sc = 0 then
    .ok ⟨Len.ofCode c.len, c.hd, ty, .ofNat 4 c.sub, dst, sa, sb, .ofNat 32 ext, .ofNat 32 (ext / 2 ^ 32)⟩
  else .error (.reserved c.sc)

/-- A control or system word. -/
def CtlForm.write (f : CtlForm) (a : CtlArgs) : Nat :=
  (Common.of a.len f.opc a.hd a.dst.code a.sa.code a.sb.code 0 a.sub.toNat a.ty.code).word
    + 2 ^ 64 * (a.x1.toNat + 2 ^ 32 * a.x2.toNat)

/-- YIELD's fields (R310). -/
def YieldArgs.parse (c : Common) : Except DecodeError YieldArgs :=
  if c.len = 0 ∧ c.ty = 0 ∧ c.sub = 0 ∧ c.sc = 0 ∧ c.dst < 32 ∧ c.sa < 256 ∧ c.sb < 256 then
    .ok ⟨c.hd, .ofNat 5 c.dst, .ofNat 8 c.sa, .ofNat 8 c.sb⟩
  else .error (.form 0x28)

/-- A YIELD word. -/
def YieldArgs.write (a : YieldArgs) : Nat :=
  (Common.of .b64 0x28 a.hd a.d.toNat a.vl.toNat a.sl.toNat 0 0 0).word

/-- Fields of a memory or asynchronous word (R281). -/
def MemForm.parse (f : MemForm) (c : Common) (ext : Nat) : Except DecodeError MemArgs := do
  let ty ← Ty.ofCode c.ty
  let dst ← f.dst.parse c.dst
  let sa ← f.sa.parse c.sa
  let sb ← f.sb.parse c.sb
  let sc ← f.sc.parse c.sc
  let e : Option MemExt := if c.len = 2 then some (MemExt.ofCode ext) else none
  .ok ⟨c.hd, ty, .ofNat 4 c.sub, dst, sa, sb, sc, e⟩

/-- A memory or asynchronous word. -/
def MemForm.write (f : MemForm) (a : MemArgs) : Nat :=
  (Common.of (if a.ext.isSome then .b128 else .b64) f.opc a.hd a.dst.code a.sa.code a.sb.code a.sc.code
    a.sub.toNat a.ty.code).word + 2 ^ 64 * (a.ext.map MemExt.code |>.getD 0)

/-- Fields of a matrix word (R283). -/
def MatForm.parse (f : MatForm) (c : Common) (ext : Nat) : Except DecodeError MatArgs := do
  let ty ← Ty.ofCode c.ty
  let dst ← f.dst.parse c.dst
  let sa ← f.sa.parse c.sa
  let sb ← f.sb.parse c.sb
  let sc ← f.sc.parse c.sc
  if c.len = 2 then do
    let e ← MatExt.ofCode ext
    .ok ⟨c.hd, ty, .ofNat 4 c.sub, dst, sa, sb, sc, some e⟩
  else .ok ⟨c.hd, ty, .ofNat 4 c.sub, dst, sa, sb, sc, none⟩

/-- A matrix word. -/
def MatForm.write (f : MatForm) (a : MatArgs) : Nat :=
  (Common.of (if a.ext.isSome then .b128 else .b64) f.opc a.hd a.dst.code a.sa.code a.sb.code a.sc.code
    a.sub.toNat a.ty.code).word + 2 ^ 64 * (a.ext.map MatExt.code |>.getD 0)

/-- Fields of an Agate word (R284); AGOP's source B is used by MULC alone. -/
def AgtForm.parse (f : AgtForm) (c : Common) (ext : Nat) : Except DecodeError AgtArgs := do
  let sa ← f.sa.parse c.sa
  let sb ← (if f.opc = 0xE4 then (if c.sub = 12 then Cls.xs else Cls.no) else f.sb).parse c.sb
  let sc ← f.sc.parse c.sc
  if c.ty = 0 ∧ c.dst = 0 then
    if c.len = 2 then do
      let e ← AgtExt.ofCode ext
      .ok ⟨c.hd, .ofNat 4 c.sub, sa, sb, sc, some e⟩
    else .ok ⟨c.hd, .ofNat 4 c.sub, sa, sb, sc, none⟩
  else .error (.reserved c.dst)

/-- An Agate word. -/
def AgtForm.write (f : AgtForm) (a : AgtArgs) : Nat :=
  (Common.of (if a.ext.isSome then .b128 else .b64) f.opc a.hd 0 a.sa.code a.sb.code a.sc.code
    a.sub.toNat 0).word + 2 ^ 64 * (a.ext.map AgtExt.code |>.getD 0)

/-- Fields of a Welt word: FN is PK, CH and a three-bit SUB (R285). -/
def WltForm.parse (f : WltForm) (c : Common) : Except DecodeError WltArgs := do
  let dst ← f.dst.parse c.dst
  let sa ← f.sa.parse c.sa
  let fn := c.sub + 16 * c.ty
  if c.sb = 0 ∧ c.sc = 0 then
    .ok ⟨c.hd, bitB (fn / 256), .ofNat 5 (fn / 8), .ofNat 3 fn, dst, sa⟩
  else .error (.reserved c.sb)

/-- A Welt word. -/
def WltForm.write (f : WltForm) (a : WltArgs) : Nat :=
  let fn := a.sub.toNat + 8 * a.ch.toNat + 256 * boolN a.pk
  (Common.of .b64 f.opc a.hd a.dst.code a.sa.code 0 0 (fn % 16) (fn / 16)).word

/-! ## Paired words (R286, R287) -/

/-- X operations in code order. -/
def XOp.all : List XOp := [.fadd, .fsub, .fmul, .ffma, .fmin, .fmax, .fscale, .itof, .ftoi]
/-- Y operations in code order. -/
def YOp.all : List YOp :=
  [.vadd, .vsub, .vand, .vor, .vxor, .vshl, .vshr, .vsra, .vmin, .vmax, .vmov, .eq, .ne, .lt, .le, .gt, .ge]
/-- Code of an X operation. -/
def XOp.code : XOp → Nat
  | .fadd => 0 | .fsub => 1 | .fmul => 2 | .ffma => 3 | .fmin => 4 | .fmax => 5 | .fscale => 6 | .itof => 7
  | .ftoi => 8
/-- Code of a Y operation. -/
def YOp.code : YOp → Nat
  | .vadd => 0 | .vsub => 1 | .vand => 2 | .vor => 3 | .vxor => 4 | .vshl => 5 | .vshr => 6 | .vsra => 7
  | .vmin => 8 | .vmax => 9 | .vmov => 10 | .eq => 11 | .ne => 12 | .lt => 13 | .le => 14 | .gt => 15 | .ge => 16

/-- The fields of a paired word, the length and the five opcode bits apart. -/
def PairArgs.ofWord (w : Nat) : Except DecodeError PairArgs :=
  match unpackBits [2, 2, 1, 5, 4, 1, 4, 5, 1, 3, 4, 8, 8, 8, 8, 8, 8, 8, 3, 5] w with
  | [_, xt, ysb, _, pr, pn, la, z, xs, xr, xo, xd, xa, xb, xc, yd, ya, yb, yt, yo] => do
    let rnd ← Rnd.ofCode xr
    match XOp.all[xo]?, YOp.all[yo]? with
    | some x, some y =>
      if la = 0 ∧ z = 0 then
        .ok { pred := .ofNat 4 pr, pneg := bitB pn, ysb := bitB ysb, xt := .ofNat 2 xt, xop := x, xrnd := rnd,
              xsat := bitB xs, xd := .ofNat 8 xd, xa := .ofNat 8 xa, xb := .ofNat 8 xb, xc := .ofNat 8 xc,
              yop := y, yt := .ofNat 3 yt, yd := .ofNat 8 yd, ya := .ofNat 8 ya, yb := .ofNat 8 yb }
      else .error (.reserved z)
    | _, _ => .error (.opcode 0x78)
  | _ => .error (.opcode 0x78)

/-- A paired word. -/
def PairArgs.write (a : PairArgs) : Nat :=
  packBits [(2, 1), (2, a.xt.toNat), (1, boolN a.ysb), (5, 0x0F), (4, a.pred.toNat), (1, boolN a.pneg), (4, 0),
    (5, 0), (1, boolN a.xsat), (3, a.xrnd.code), (4, a.xop.code), (8, a.xd.toNat), (8, a.xa.toNat),
    (8, a.xb.toNat), (8, a.xc.toNat), (8, a.yd.toNat), (8, a.ya.toNat), (8, a.yb.toNat), (3, a.yt.toNat),
    (5, a.yop.code)]

/-! ## The opcode map (R290) -/

/-- What an opcode, SUB and length name. -/
inductive Row where
  | alu (mk : AluArgs → Instr)
  | ctl (mk : CtlArgs → Instr)
  | yield
  | mem (mk : MemArgs → Instr)
  | mat (mk : MatArgs → Instr)
  | agt (mk : AgtArgs → Instr)
  | wlt (mk : WltArgs → Instr)

/-- The opcode map of 0x00 to 0x3F. -/
def rowLow (opc sub len : Nat) : Option Row :=
  match opc with
  | 0x00 => some (.alu .sadd) | 0x01 => some (.alu .ssub) | 0x02 => some (.alu .smul)
  | 0x03 => some (.alu .smulh) | 0x04 => some (.alu .sdiv) | 0x05 => some (.alu .srem)
  | 0x06 => some (.alu .sand) | 0x07 => some (.alu .sor) | 0x08 => some (.alu .sxor)
  | 0x09 => some (.alu .sshl) | 0x0A => some (.alu .sshr) | 0x0B => some (.alu .ssra)
  | 0x0C => some (.alu .smin) | 0x0D => some (.alu .smax) | 0x0E => some (.alu .scmp)
  | 0x0F => some (.alu .ssel) | 0x10 => some (.alu .smov)
  | 0x11 => some (.alu (if sub = 1 then .smoviHi else .smovi))
  | 0x12 => some (.alu .slea) | 0x13 => some (.alu .sbfe) | 0x14 => some (.alu .sbfi)
  | 0x15 => some (.alu .spopc) | 0x16 => some (.alu .sclz) | 0x17 => some (.alu .sbrev)
  | 0x20 => some (.ctl .bra) | 0x21 => some (.ctl .bras) | 0x22 => some (.ctl .brv)
  | 0x23 => some (.ctl .jmp) | 0x24 => some (.ctl .jmpv)
  | 0x25 => some (.ctl (if len = 1 then .callLabel else .callReg))
  | 0x26 => some (.ctl .ret) | 0x27 => some (.ctl .land) | 0x28 => some .yield
  | 0x29 => some (.ctl .exit) | 0x2A => some (.ctl .nop) | 0x2B => some (.ctl .elect)
  | 0x2C => some (.ctl (if sub = 1 then .exmrdOwn else .exmrd))
  | 0x2D => some (.ctl (if sub = 1 then .exmwrAnd else if sub = 2 then .exmwrOr else .exmwr))
  | 0x2E => some (.ctl .regroup)
  | _ => none

/-- The opcode map of 0x40 to 0x9F, the paired words apart. -/
def rowVec (opc sub : Nat) : Option Row :=
  match opc with
  | 0x40 => some (.alu .vadd) | 0x41 => some (.alu .vsub) | 0x42 => some (.alu .vmul)
  | 0x43 => some (.alu .vmulh) | 0x44 => some (.alu .vmad) | 0x45 => some (.alu .vdiv)
  | 0x46 => some (.alu .vrem) | 0x47 => some (.alu .vand) | 0x48 => some (.alu .vor)
  | 0x49 => some (.alu .vxor) | 0x4A => some (.alu .vshl) | 0x4B => some (.alu .vshr)
  | 0x4C => some (.alu .vsra) | 0x4D => some (.alu .vmin) | 0x4E => some (.alu .vmax)
  | 0x4F => some (.alu .vabs) | 0x50 => some (.alu .vneg) | 0x51 => some (.alu .vcmp)
  | 0x52 => some (.alu .vsel) | 0x53 => some (.alu .vmov)
  | 0x54 => some (.alu (if sub = 1 then .vmoviHi else .vmovi))
  | 0x55 => some (.alu .vbfe) | 0x56 => some (.alu .vbfi) | 0x57 => some (.alu .vpopc)
  | 0x58 => some (.alu .vclz) | 0x59 => some (.alu .vdot4) | 0x5A => some (.alu .vlea)
  | 0x60 => some (.alu .fadd) | 0x61 => some (.alu .fsub) | 0x62 => some (.alu .fmul)
  | 0x63 => some (.alu .ffma) | 0x64 => some (.alu .fmin) | 0x65 => some (.alu .fmax)
  | 0x66 => some (.alu .fcmp) | 0x67 => some (.alu .fclass) | 0x68 => some (.alu .fdiv)
  | 0x69 => some (.alu .fsqrt) | 0x6A => some (.alu .fscale) | 0x6B => some (.alu .fround)
  | 0x6C => some (.alu .ffrac) | 0x6D => some (.alu .fdot2)
  | 0x70 => some (.alu .frcp) | 0x71 => some (.alu .frsq) | 0x72 => some (.alu .fexp2)
  | 0x73 => some (.alu .flog2) | 0x74 => some (.alu .fsin) | 0x75 => some (.alu .fcos)
  | 0x76 => some (.alu .ftanh)
  | 0x80 => some (.alu .cvt) | 0x81 => some (.alu .pack)
  | 0x82 => some (.alu (if sub = 1 then .unpackHi else .unpack))
  | 0x83 => some (.alu .qmx) | 0x84 => some (.alu .dqmx)
  | 0x88 => match sub with
    | 0 => some (.alu .lnxIdx) | 1 => some (.alu .lnxWin) | 2 => some (.alu .lnxRise)
    | 3 => some (.alu .lnxFall) | 4 => some (.alu .lnxSprd) | 5 => some (.alu .lnxRot) | _ => none
  | 0x8D => match sub with
    | 0 => some (.alu .censusSome) | 1 => some (.alu .censusEvery) | 2 => some (.alu .censusMask)
    | 3 => some (.alu .censusCount) | _ => none
  | 0x8E => match sub with
    | 0 => some (.alu .peersMask) | 1 => some (.alu .peersUniform) | 2 => some (.alu .peersLead) | _ => none
  | 0x90 => some (.alu .reduce)
  | 0x91 => some (.alu (if sub < 8 then .scan else .scanExc))
  | 0x92 => some (.alu .xshfl)
  | _ => none

/-- The opcode map of 0xA0 to 0xCF. -/
def rowMem (opc sub : Nat) : Option Row :=
  match opc with
  | 0xA0 => some (.mem .ld) | 0xA1 => some (.mem .st) | 0xA2 => some (.mem .ldw)
  | 0xA3 => some (.mem .lds) | 0xA4 => some (.mem .sts) | 0xA5 => some (.mem .ldnr)
  | 0xA6 => match sub with
    | 0 => some (.mem .prefL1) | 1 => some (.mem .prefRo) | 2 => some (.mem .prefL2) | _ => none
  | 0xA8 => some (.mem .atom) | 0xA9 => some (.mem .atoms) | 0xAA => some (.mem .atomr)
  | 0xAB => some (.mem .cas) | 0xAC => some (.mem .cass)
  | 0xB0 => some (.mem .fence)
  | 0xB1 => some (.mem (if sub = 1 then .cflushInv else .cflush))
  | 0xB2 => match sub with
    | 0 => some (.mem .cinv) | 1 => some (.mem .cinvRo) | 2 => some (.mem .cinvI) | _ => none
  | 0xC0 => match sub with
    | 0 => some (.mem .copyV2s) | 1 => some (.mem .copyS2v) | 2 => some (.mem .copyV2v)
    | 3 => some (.mem .copyS2s) | _ => none
  | 0xC1 => some (.mem (if sub < 8 then .copygG else .copygS))
  | 0xC2 => some (.mem (if sub % 2 = 0 then .copypPut else .copypGet))
  | 0xC3 => some (.mem .batch) | 0xC4 => some (.mem .waitb) | 0xC5 => some (.mem .waitc)
  | 0xC6 => some (.mem (if sub = 1 then .hacqFill else .hacqDrain))
  | 0xC7 => some (.mem .hrel) | 0xC8 => some (.mem .hstat)
  | 0xC9 => match sub with
    | 0 => some (.mem .gatePass) | 1 => some (.mem .gateMark) | 2 => some (.mem .gateHold) | _ => none
  | 0xCA => match sub with
    | 0 => some (.mem .ggatePass) | 1 => some (.mem .ggateMark) | 2 => some (.mem .ggateHold) | _ => none
  | 0xCB => some (.mem .sigset) | 0xCC => some (.mem .sigadd) | 0xCD => some (.mem .sigwait)
  | _ => none

/-- The opcode map of 0xD0 to 0xFF; a Welt word's SUB is its three low bits. -/
def rowHigh (opc sub : Nat) : Option Row :=
  match opc with
  | 0xD0 => some (.mat .mppt) | 0xD1 => some (.mat .mcfg) | 0xD2 => some (.mat .madmit)
  | 0xD3 => some (.mat .mrelease) | 0xD4 => some (.mat .mloop) | 0xD5 => some (.mat .maclr)
  | 0xD6 => some (.mat (if sub = 1 then .mamovAdd else .mamovCpy))
  | 0xD7 => some (.mat .maload) | 0xD8 => some (.mat .mastore) | 0xD9 => some (.mat .mstest)
  | 0xDA => some (.mat (if sub = 1 then .mprogWr else .mprogRd))
  | 0xDB => some (.mat .mstat)
  | 0xE0 => some (.agt .agon) | 0xE1 => some (.agt .agoff) | 0xE2 => some (.agt .agld)
  | 0xE3 => some (.agt .agst) | 0xE4 => some (.agt .agop) | 0xE5 => some (.agt .agred)
  | 0xE8 => some (.wlt .wbar) | 0xE9 => some (.wlt .wwait) | 0xEA => some (.wlt .wbcast)
  | 0xEB => some (.wlt (if sub % 8 = 1 then .wrecvR else .wrecvB))
  | 0xEC => some (.wlt .wred) | 0xED => some (.wlt .wtick)
  | 0xF0 => some (.ctl .trap) | 0xF1 => some (.ctl .tret) | 0xF2 => some (.ctl .sysrd)
  | 0xF3 => some (.ctl .syswr) | 0xF4 => some (.ctl .kill) | 0xF5 => some (.ctl .brk)
  | 0xF6 => some (.ctl .pmcrd) | 0xF7 => some (.ctl .pmcwr)
  | _ => none

/-- The opcode map. -/
def rowOf (opc sub len : Nat) : Option Row :=
  if opc < 0x40 then rowLow opc sub len
  else if opc < 0xA0 then rowVec opc sub
  else if opc < 0xD0 then rowMem opc sub
  else rowHigh opc sub

/-- Fields no word needs: only a row's form is read from the instruction built on them. -/
def AluArgs.nil : AluArgs := ⟨⟨0, false, 0⟩, .u0, 0, .none, .none, .none, .none, .none⟩
def CtlArgs.nil : CtlArgs := ⟨.b64, ⟨0, false, 0⟩, .u0, 0, .none, .none, .none, 0, 0⟩
def MemArgs.nil : MemArgs := ⟨⟨0, false, 0⟩, .u0, 0, .none, .none, .none, .none, none⟩
def MatArgs.nil : MatArgs := ⟨⟨0, false, 0⟩, .u0, 0, .none, .none, .none, .none, none⟩
def AgtArgs.nil : AgtArgs := ⟨⟨0, false, 0⟩, 0, .none, .none, .none, none⟩
def WltArgs.nil : WltArgs := ⟨⟨0, false, 0⟩, false, 0, 0, .none, .none⟩

/-- The instruction a row reads from a word's fields, before its checks. -/
def Row.parse (r : Row) (c : Common) (ext : Nat) : Except DecodeError Instr :=
  match r with
  | .alu mk =>
    match (mk AluArgs.nil).view with
    | .alu f _ => (f.parse c ext).map mk
    | _ => .error (.opcode c.opc)
  | .ctl mk =>
    match (mk CtlArgs.nil).view with
    | .ctl f _ => (f.parse c ext).map mk
    | _ => .error (.opcode c.opc)
  | .yield => (YieldArgs.parse c).map .yield
  | .mem mk =>
    match (mk MemArgs.nil).view with
    | .mem f _ => if c.len = 1 then .error (.form c.opc) else (f.parse c ext).map mk
    | _ => .error (.opcode c.opc)
  | .mat mk =>
    match (mk MatArgs.nil).view with
    | .mat f _ => if c.len = 1 then .error (.form c.opc) else (f.parse c ext).map mk
    | _ => .error (.opcode c.opc)
  | .agt mk =>
    match (mk AgtArgs.nil).view with
    | .agt f _ => if c.len = 1 then .error (.form c.opc) else (f.parse c ext).map mk
    | _ => .error (.opcode c.opc)
  | .wlt mk =>
    match (mk WltArgs.nil).view with
    | .wlt f _ => if c.len = 0 then (f.parse c).map mk else .error (.form c.opc)
    | _ => .error (.opcode c.opc)

/-- Bits of the word that starts with `w`: 32 for LEN 0b11 (R265). -/
def wordBits (w : Nat) : Nat :=
  match w % 4 with
  | 0 => 64 | 1 => 96 | 2 => 128 | _ => 32

/-- The decoder: a word of up to 128 bits, its first byte least significant; bits past the word's own
length are not read. Every refusal is ILLOP at decode (R291). -/
def decode (w : Nat) : Except DecodeError Instr :=
  if w % 4 = 3 then
    if w % 2 ^ 32 = 0xFFFF_FFFF then .ok .fill else .error .fill
  else
    let c := Common.read w
    let ext := w / 2 ^ 64 % 2 ^ (wordBits w - 64)
    let r : Except DecodeError Instr :=
      if 0x78 ≤ c.opc ∧ c.opc < 0x80 then
        if c.len = 1 then (PairArgs.ofWord w).map .pairedWord else .error (.opcode c.opc)
      else
        match rowOf c.opc c.sub c.len with
        | some row => row.parse c ext
        | none => .error (.opcode c.opc)
    match r with
    | .error e => .error e
    | .ok i => if i.wf then .ok i else .error (.form c.opc)

/-- The word of an instruction; 0 for a device event, which has none. -/
def encode (i : Instr) : Nat :=
  match i.view with
  | .fill => 0xFFFF_FFFF
  | .alu f a => f.write a
  | .ctl f a => f.write a
  | .yield a => a.write
  | .mem f a => f.write a
  | .mat f a => f.write a
  | .agt f a => f.write a
  | .wlt f a => f.write a
  | .pair a => a.write
  | .event => 0

/-- Little-endian bytes of a number. -/
def bytesOf : Nat → Nat → List Byte
  | 0, _ => []
  | n + 1, w => .ofNat 8 w :: bytesOf n (w / 256)

/-- The number of little-endian bytes. -/
def natOfBytes : List Byte → Nat
  | [] => 0
  | b :: r => b.toNat + 256 * natOfBytes r

/-- Bytes of an instruction in memory (R265): its words little-endian. -/
def encodeBytes (i : Instr) : List Byte := bytesOf (wordBits (encode i) / 8) (encode i)

/-- The host's question: the instruction whose bits are `w`, numbered as the opcode table numbers them,
as the decoder reads its bytes; bits above `nbits` are zero. -/
def decodeTableWord (nbits w : Nat) : Option Instr :=
  match decode (natOfBytes (bytesOf 16 (w % 2 ^ nbits))) with
  | .ok i => some i
  | .error _ => none

end Sys2Proof
end

