-- ==== Sys2Proof/Machine/State.lean ====
section
/-! DEFINITION. The state of the package, as plain data: groups, blocks, contexts, caches, engines, dies,
memory, and the agenda of events under way; the reasons a step stops; the state at package cold reset. -/

namespace Sys2Proof.Machine

/-! ## Tables -/

/-- A finite table by number, keys strictly rising; an unlisted key has the table's default. -/
abbrev Tab (α : Type) := List (Nat × α)

/-! ## Groups (R40 to R43, R62, R186 to R199) -/

/-- What a slot's issued instruction waits for; it has not completed. -/
inductive Wait where
  | none
  | fetch                                  -- a transfer's target block (R308)
  | acks                                   -- earlier accesses of the group (R141, R207, R368)
  | queue                                  -- room in a unit or queue (R219 reason 10 or 11)
  | batch (c : Nat) (n : Nat)              -- WAITB or WAITC (R363)
  | batchNew (c : Nat)                     -- BATCH waiting for a batch of its class (R362)
  | gate (b : Nat) (ph : BitVec 16) (pass : Bool)    -- R369
  | ggate (ph : BitVec 16) (pass : Bool)   -- R370
  | sig (line : Nat)                       -- SIGWAIT on an object of this line (R371)
  | welt (ch : Nat) (ph : BitVec 16) (rx : Option (Opnd × Bool))   -- WWAIT, or WRECV's destination and .R (R175)
  | rendezvous (r : Nat) (d : Opnd)        -- R201: point and destination
  | fusing (h r : Nat) (d : Opnd)          -- a fusion with group `h` that has begun (R201)
  | xshfl (issue : Nat)                    -- R203
  | rank                                   -- pooled target not ready (R409)
  | gateBusy (n : Nat)                     -- a second arrival at gate n, or 8 for the gang's (R369)
  | handle (h : Nat) (cons : Bool)         -- a handle, for a consumer or a producer (R367)
  | xmap                                   -- R108
  | loop                                   -- a running loop (R256, R259)
  | stall                                  -- a SYSRD of MPROG behind a running loop: the whole group (R259, R448)
  | lost                                   -- a Welt wait whose channel was reset (R166)
  | parkFull                               -- saved list full (R407)
  | park (img : W64)                       -- SWPARK behind one of a lower GID of this ACLK (R407)
  | preempt                                -- YIELD waiting for results before PREEMPT (R217)
  deriving DecidableEq, Repr

/-- A PC slot (R191). -/
structure Slot where
  pc : W64
  own : Mask
  exm : Mask
  parked : Bool
  re : Option (W64 × Mask)                 -- instruction to re-issue first, and its lanes (R277, R317)
  wph : Option (BitVec 16)                 -- a PASS form resumes as HOLD on this phase (R400)
  wait : Wait
  held : Bool                              -- its instruction has begun and waits
  wlen : Nat                               -- bytes of the waiting instruction
  readyAt : Nat                            -- no issue of the slot before this ACLK
  why : Nat := 9                           -- the stall reason until then (R219)
  counted : Bool := false                  -- its instruction has issued and is counted (R216, R218)
  inved : Bool := false                    -- the fence before its arrival or access has invalidated (R51, R143)
  free : List Nat := []                    -- outstanding accesses that do not precede it in program order (R136)
  deriving DecidableEq, Repr

/-- A slot with no lanes. -/
def Slot.empty : Slot := ⟨0, 0, 0, false, none, none, .none, false, 0, 0, 9, false, false, []⟩

/-- A register destination (R276). -/
inductive Dst where
  | v (n : Nat) | s (n : Nat) | p (n : Nat)
  deriving DecidableEq, Repr

/-- A register write to be made when a result arrives. -/
inductive RegWr where
  | v (n lane : Nat) (x : W64)
  | s (n : Nat) (x : W64)
  | p (n lane : Nat) (x : BitVec 16)
  deriving DecidableEq, Repr

/-- A trap raised but not yet entered (R395, R396, R398). -/
structure Trap where
  cause : BitVec 8
  subc : BitVec 4
  defer : Bool
  val : W64
  mask : Mask
  slotB : Bool                             -- slot of the instruction
  pc : W64                                 -- the slot's continuation PC (R398)
  ipc : W64                                -- address of the instruction
  re : Option (W64 × Mask)                 -- resume record: instruction and lanes (R398)
  wph : Option (BitVec 16)                 -- R400
  seq : Nat                                -- program order of the instruction
  lvl : Nat                                -- level the instruction issued at
  deriving DecidableEq, Repr

/-- A lane of an access that its slice refused (R102). -/
structure BadLane where
  lane : Nat
  subc : BitVec 4
  addr : W64
  deriving DecidableEq, Repr

/-- What an outstanding access returns. -/
inductive AccKind where
  | alu                                    -- a computed result (R324)
  | load                                   -- LD, LDW, LDS, LDNR (R350)
  | store                                  -- ST (R349)
  | atomic                                 -- ATOM, ATOMS, CAS, CASS (R354)
  | atomicNr                               -- ATOMR, SIGSET, SIGADD
  | sigread                                -- SIGWAIT's read (R371)
  | exch                                   -- XSHFL (R203)
  | warr                                   -- WBAR's arrival, which its fence holds back (R143, R394)
  deriving DecidableEq, Repr

/-- A lane's part of an access: its lane, its address, and how many bytes. -/
structure LaneAcc where
  lane : Nat
  addr : W64
  size : Nat
  deriving DecidableEq, Repr

/-- An outstanding result or access of a group (R275 to R277, R350). -/
structure Pend where
  tag : Nat
  kind : AccKind
  slotB : Bool
  pc : W64
  next : W64                               -- PC of the instruction after it
  issue : Nat                              -- ACLK of issue
  long : Bool                              -- of a long-latency form (R275)
  win : Option Nat                         -- window instructions still allowed; none: closed (R275)
  taken : Nat                              -- window instructions that issued (R398)
  dsts : List Dst
  wr : List RegWr                          -- writes known so far
  lanes : List LaneAcc
  got : Tab (List Byte)                    -- 128-byte lines or granules returned, by address / 128
  old : Tab W64                            -- values atomics returned, by lane
  left : Nat                               -- responses still to come
  bad : List BadLane
  ldst : Option (Opnd × Ty × Opnd)         -- destination, type and LDNR's predicate of a load
  missed : Bool                            -- some line missed L1 (R214)
  acq : Option (BitVec 3)                  -- .ACQ and its scope
  noInst : Bool                            -- its fills are not installed (R51, R110)
  ro : Bool                                -- its fills go to the read-only partition (R49)
  lvl : Nat                                -- level at issue
  seq : Nat                                -- program order
  exm : Mask                               -- lanes of the slot at issue
  re : Bool                                -- a re-issue (R277)
  bars : Bool                              -- its owner refuses part of it: its slot waits (R102)
  after : List (Nat × Nat) := []           -- accesses a Welt arrival's fence waits for, by slot and tag (R143)
  arrive : Option (Nat × Opnd × WKind) := none   -- the arrival that leaves with its result: channel and destination (R394)
  deriving DecidableEq, Repr

/-- One level's bank of trap registers (R397). -/
structure TrapBank where
  tcause : W64
  tval : W64
  tmask : W64
  tsave : W64
  tpca : W64
  tpcb : W64
  tmska : W64
  tmskb : W64
  tjoin : W64
  tresa : W64
  tresb : W64
  trmsk : W64
  deriving DecidableEq, Repr

/-- The bank at group creation (R397). -/
def TrapBank.reset : TrapBank := ⟨0, 0, 0, 0, 0, 0, 0, 0, 0, 0, 0, 0⟩

/-- What a batch reports at its first observing wait (R127, R252, R361, R389). -/
structure Deferred where
  cause : BitVec 8
  subc : BitVec 4
  val : W64
  mask : Option Mask                       -- none: the slot's EXM at the wait
  deriving DecidableEq, Repr

/-- Batch numbering of an engine class (R362, R363): the operations issued since the last BATCH, and
those each open batch still waits for. -/
structure BatchCls where
  closed : BitVec 16
  done : BitVec 16
  cur : List Nat                           -- operations not yet closed into a batch
  wait : Tab (List Nat)                    -- closed batches not done: number to incomplete operations
  faults : List (Option (BitVec 16) × Deferred)   -- not yet reported, with their batch once closed (R361)
  deriving DecidableEq, Repr

/-- A class with no batch. -/
def BatchCls.reset : BatchCls := ⟨0, 0, [], [], []⟩

/-- A resident group. Registers are read through Machine/Ops.lean. -/
structure Group where
  ctx : Nat                                -- context key: partition × 512 + entry
  blk : Nat                                -- block id
  gid : Nat                                -- R186
  thr : Tab Nat                            -- thread of each lane that holds one (R186)
  age : Nat                                -- ACLK of creation (R216)
  ord : Nat                                -- placement order of its block (R216)
  vdecl : Nat                              -- declared V registers (R40)
  sdecl : Nat                              -- declared S registers (R40)
  level : Nat                              -- R395
  a : Slot
  b : Slot
  bLive : Bool
  join : W64
  lastB : Bool                             -- slot that issued last (R197)
  switch : Bool                            -- the last instruction was a switch point (R197)
  split : Tab W64                          -- split-stack words (R62, R63)
  splitSp : BitVec 7
  splitIx : BitVec 8
  v : Tab W64                              -- register × 32 + lane
  s : Tab W64
  p : Tab (BitVec 16)                      -- register × 32 + lane
  rsx : Tab W32                            -- RSXST by lane (R230)
  fpst : W64                               -- R224
  gctl : W64                               -- R304
  ystate : W64                             -- R217
  wsel : BitVec 6                          -- R168
  gategrp : BitVec 9                       -- R370: G[8] ARR[7:0]
  mstat : W64                              -- R260
  msAt : Option Nat := none                -- ACLK of its last events, what it read before them, and they (R260, R385)
  msOld : W64 := 0
  msNew : W64 := 0
  mxsel : BitVec 11                        -- R264
  xmapst : W64                             -- R108
  mprog0 : W64                             -- R259
  mprog1 : W64
  mprog2 : W64
  mprog3 : W64
  bank1 : TrapBank
  bank2 : TrapBank
  tbase0 : W64                             -- R64
  tbase1 : W64
  tbase2 : W64
  bat0 : BatchCls                          -- COPY (R360, R363)
  bat1 : BatchCls                          -- MATRIX
  bat2 : BatchCls                          -- AGATE
  bat3 : BatchCls                          -- PEER
  preempt : Bool                           -- R180
  pend : List Pend
  faults : List Trap                       -- faulted results, not yet taken (R277)
  trap : Option Trap                       -- trap raised, entry waits for results (R395)
  nextTag : Nat
  seq : Nat                                -- instructions issued, for program order
  readyAt : Nat                            -- no issue before this ACLK
  why : Nat := 15                          -- the stall reason until then (R219)
  stackFree : Tab (List Nat) := []         -- what `Slot.free` holds of each split-stack entry (R136)
  poBase : Nat := 0                        -- split-stack entries below the level's own (R136)
  poSaved : List (List Nat × List Nat × Nat) := []   -- slots' `free` and `poBase` of the levels below (R136)
  active : Bool                            -- active set (R214)
  lastAt : Nat                             -- ACLK of its last issue
  longSince : Option Nat                   -- long-waiting since (R215)
  eligSince : Option Nat                   -- eligible since (R216)
  frozen : Bool                            -- R404
  dead : Bool                              -- ended or retired; its slot returns when no result is outstanding (R187)
  deriving DecidableEq, Repr

/-! ## Caches, slices and fabric (R48 to R60, R65 to R111) -/

/-- An L1 line (R48). -/
structure L1Line where
  asid : BitVec 16
  line : Nat                               -- virtual address / 128
  ro : Bool                                -- read-only partition
  data : List Byte                         -- 128 bytes
  used : Nat
  deriving DecidableEq, Repr

/-- An instruction-cache line (R55). -/
structure IcLine where
  asid : BitVec 16
  line : Nat                               -- virtual address / 128
  data : List Byte                         -- 128 bytes
  used : Nat
  deriving DecidableEq, Repr

/-- An MTLB entry (R99); `size` is 0 for 64 KiB, 1 for 2 MiB, 2 for 1 GiB; `page` is the die-physical
address / 65536. -/
structure MtlbEntry where
  slice : Nat
  set : Nat
  asid : BitVec 16
  size : Nat
  vpn : Nat
  page : Nat
  r : Bool
  w : Bool
  x : Bool
  p : Bool
  pe : Bool
  nr : Bool
  pinned : Bool
  used : Nat
  deriving DecidableEq, Repr

/-- An L2 line's tag (R76, R83): the data is memory's. -/
structure L2Line where
  bank : Nat                               -- slice × 4 + bank that holds it
  line : Nat                               -- die-physical address / 512
  valid : BitVec 4
  dirty : BitVec 4
  sharers : BitVec 3
  redir : Bool                             -- held for a bank in Agate mode (R80)
  used : Nat
  deriving DecidableEq, Repr

/-- An RDC store line (R81). -/
structure RdcLine where
  owner : Nat
  line : Nat
  asid : BitVec 16
  vline : Nat
  valid : BitVec 4
  deriving DecidableEq, Repr

/-- An RDC directory entry (R81). -/
structure RdcDir where
  asid : BitVec 16
  vline : Nat
  owner : Nat
  line : Nat
  deriving DecidableEq, Repr

/-- A line lock held at a home bank while a request waits (R78, R83): `left` invalidations are still out. -/
structure LineLock where
  id : Nat
  bank : Nat
  line : Nat
  pkt : Pkt
  left : Nat
  ready : Bool := false                    -- it waits for the lock's earlier requests of its transfer to be performed
  deriving DecidableEq, Repr

/-- What leaves an endpoint for the fabric (R67, R91). -/
inductive Job where
  | req (p : Pkt)
  | sig (p : Pkt) (set : Bool)             -- a SIG behind its data (R85)
  | pool (p : ScPkt) (wr : Bool) (core : Nat)
  | fetch (core : Nat) (asid : BitVec 16) (blk : Nat) (cls : BitVec 2)
  deriving DecidableEq, Repr

/-- A walk in flight (R100, R110). -/
structure Walk where
  slice : Nat
  asid : BitVec 16
  page : Nat                               -- virtual address / 65536
  due : Nat                                -- ACLK at which it ends
  dead : Bool
  pin : Bool := false                      -- the entry it installs is pinned (R99)
  deriving DecidableEq, Repr

/-- A queued XMAP request (R108). -/
structure XmapReq where
  g : Nat
  va : W64
  asid : BitVec 16                         -- as the request carries it (R93)
  at_ : Nat                                -- ACLK at which it reaches the owner die
  deriving DecidableEq, Repr

/-- A shootdown in progress (R110): pages `lo` to below `hi` of the ASID, and the requests translated under an
invalidated entry that it waits for. -/
structure Shoot where
  asid : BitVec 16
  lo : Nat
  hi : Nat
  left : List Pkt
  deriving DecidableEq, Repr

/-- A die link or scale-up port (R75). -/
structure Link where
  fails : Nat                              -- consecutive failed replays
  trains : Nat                             -- failed retrainings
  down : Bool
  deriving DecidableEq, Repr

/-- A good link. -/
def Link.reset : Link := ⟨0, 0, false⟩

/-- State of a Spinel array (R59). -/
inductive ArrSt where
  | storage | switching | compute | fenced
  deriving DecidableEq, Repr

/-! ## Spinel, Agate and Welt (R112 to R182, R241 to R264) -/

/-- A Spinel array (R56, R59, R242). The sums U and U(n) are functions of the cells. -/
structure Arr where
  st : ArrSt
  blk : Option Nat                         -- block that holds it
  cells : Tab Byte                         -- 32 KiB, unlisted bytes zero
  ww8 : Bool                               -- weight width 8 (R241)
  ec : Tab Byte                            -- Ec(n), unlisted zero
  g : Int                                  -- alignment offset (R244)
  steps : Nat                              -- analog steps since the last self-test (R261)
  busy : Option Nat                        -- operation in progress
  test : Option (Nat × Option Nat)         -- self-test in progress: ACLK it ends, and the MSTEST it serves (R261)
  calib : Nat := 0                         -- converter calibration table, by how often it was rewritten (R263)
  deriving DecidableEq, Repr

/-- A free array in STORAGE (R56). -/
def Arr.reset : Arr := ⟨.storage, none, [], false, [], 0, 0, none, none, 0⟩

/-- One end of a transfer (R364 to R366, R381). -/
inductive ELoc where
  | va (a : W64)
  | sc (a : W64)
  | tile (t off : Nat) (ty : Ty) (rnd : Rnd) (sat : Bool)   -- byte `off` of the images of type `ty` from tile `t` on
  | rows (bank off : Nat)                  -- byte `off` of what the AGST under way at a bank stores
  | remote (a : W64)
  deriving DecidableEq, Repr

/-- A matrix loop (R254 to R259). -/
structure Loop where
  base : ELoc
  stride : Nat
  kinc : Nat
  prof : Nat
  t0 : Nat
  j0 : Nat
  ks : Nat
  m : Nat
  row : Nat                                -- next row, array offset and slice
  step : Nat
  low : Bool                               -- the high slice of the next step has been added
  ppt : W64                                -- profile entry checked at acceptance
  cfg0 : W64
  cfg1 : W64
  cfg2 : W64
  exactv : Bool
  busy : Bool                              -- a row is in progress
  since : Nat                              -- ACLK from which the next row can start
  ask : Nat                                -- ACLK from which the next row is asked for
  ran : Bool                               -- a row has begun since acceptance
  deriving DecidableEq, Repr

/-- An Agate command at a bank (R113, R114, R122 to R125). -/
inductive AgCmd where
  | on
  | off
  | ld (hd w : Nat) (sgn : Bool) (m : Nat) (base : W64) (l0 count : Nat)
  | st (hd w : Nat) (sgn : Bool) (m : Nat) (base : W64) (l0 count : Nat)
  | op (sub hd ha hb hm w : Nat) (sgn : Bool) (k : Nat) (c : W64)
  | red (hd w : Nat) (sgn : Bool) (addr : W64)
  deriving DecidableEq, Repr

/-- A command at a bank for operation `op` of context `ctx`; `mask` holds the lanes that named the bank, `ix` its
bank-set index (R119). -/
structure AgEntry where
  op : Nat
  ctx : Nat
  cmd : AgCmd
  mask : Mask
  ix : Nat
  deriving DecidableEq, Repr

/-- Mode of a bank (R112). -/
inductive AgMode where
  | cache | entering | agate | leaving
  deriving DecidableEq, Repr

/-- An Agate bank (R112 to R121). A row is the number whose bit `l` is lane `l`. -/
structure Bank where
  mode : AgMode
  ctx : Option Nat                         -- context that switched it
  rows : Tab Nat
  coming : List (Nat × AgEntry)            -- commands on the way, with the ACLK each arrives (R449)
  queue : List AgEntry                     -- commands at the bank, the first in progress when `busy`
  busy : Bool
  switch : Option AgEntry                  -- the AGON or AGOFF in progress; none: one without a command (R117)
  hold : List AgEntry                      -- AGON and AGOFF that wait for it (R113, R114)
  drained : Bool                           -- while leaving: the rows are discarded (R116)
  redir : Bool                             -- while entering: the redirect is in force (R80, R116)
  late : List Pkt                          -- requests that wait for the redirect (R80)
  was : Option (AgMode × Option Nat × Nat) -- mode and context before the last change, and its ACLK (R112)
  deriving DecidableEq, Repr

/-- A bank in cache mode. -/
def Bank.reset : Bank := ⟨.cache, none, [], [], [], false, none, [], false, false, [], none⟩

/-- A prefetch-filter entry (R128): the 512-byte lines `lo` to below `hi`. -/
structure PfEntry where
  asid : BitVec 16
  bank : Nat
  lo : Nat
  hi : Nat
  deriving DecidableEq, Repr

/-- A Welt channel: its hub and the copies every core of the scope holds (R169 to R174). -/
structure Chan where
  expect : Nat
  op : BitVec 4
  phase : BitVec 16
  arrived : Nat
  bslot : Option W64                       -- broadcast of the collecting phase
  many : Bool
  red : Option W32                         -- reduction so far
  hist : List (Nat × Nat)                  -- counts by ACLK, newest first (R170)
  cPhase : BitVec 16                       -- the cores' copies
  cB : W64
  cR : W32
  cMulti : Bool
  cNob : Bool
  cNor : Bool
  cfgerr : Bool
  rel : List (BitVec 16 × W64 × W32 × Bool × Bool × Bool)   -- releases sent, oldest first (R174)
  deriving DecidableEq, Repr

/-- A channel as reset and R178 leave it. -/
def Chan.reset : Chan := ⟨0, 0, 0, 0, none, false, none, [], 0, 0, 0, false, false, false, false, []⟩

/-- What an asynchronous operation does (R360 to R366, R372 to R381, R387). -/
inductive OpKind where
  | move (dst src : ELoc) (count : Nat)
  | list (els : List (ELoc × ELoc × Nat))  -- elements: destination, source, bytes
  | peer (put set rscr : Bool) (dst src : ELoc) (count dev : Nat) (sig val : W64)
  | mppt (addr : W64)
  | mcfg (c0 c1 c2 : W64)
  | madmit (j : Nat) (src scales : ELoc) (bt : Ty) (ww8 : Bool)
  | mrelease (j : Nat)
  | mloop (l : Loop)
  | maclr (t c : Nat)
  | mamov (add : Bool) (t u c : Nat)
  | mastore (ty : Ty) (dst : ELoc) (t c prof : Nat)   -- becomes a move when accepted
  | mstest (j : Nat)
  | agate (todo : List (Nat × AgEntry)) (banks : List Nat)   -- commands not sent, and banks not complete
  | agchild (op : Nat) (mask : Mask) (bank : Nat) (ld : Bool) (base : W64) (count : Nat)   -- an AGLD's or AGST's transfer
  | agsum (op : Nat) (mask : Mask) (bank : Nat) (addr : W64) (x : W64)   -- an AGRED's store
  deriving DecidableEq, Repr

/-- An asynchronous operation (R144, R360, R450). -/
structure AOp where
  id : Nat
  cls : Nat                                -- engine class (R281)
  g : Nat                                  -- slot key of the issuing group
  slotB : Bool                             -- slot it issued from
  gone : Bool                              -- the group ended or was retired
  gid : Nat
  blk : Nat
  ctx : Nat
  core : Nat                               -- core of its engine
  die : Nat                                -- die of its engine
  asid : BitVec 16
  tc : BitVec 2                            -- traffic class (R71)
  batch : Option (BitVec 16)               -- the batch that closed over it
  kind : OpKind
  hnd : Option Nat                         -- handle it holds (R367)
  started : Bool                           -- accepted by its engine
  fin : Bool                               -- its completion is under way
  susp : Bool                              -- a suspended loop (R258, R259)
  stopReq : Bool                           -- a loop that suspends at its next step boundary (R259)
  after : List (Nat × Nat)                 -- accesses it starts after: slot key and tag (R144)
  rpos : Nat                               -- granules whose reads are sent
  wpos : Nat                               -- granules whose writes are sent
  left : Nat                               -- writes not yet answered
  lim : Nat                                -- granules it performs
  got : Tab (List Byte)                    -- data read and not yet used: granule × 2048 + part
  wpage : Option Nat                       -- 64 KiB page of its last write (R450)
  refused : List Nat                       -- slices that refused it: subcause × 128 + die × 32 + slice (R450)
  dfr : Option Deferred
  exm : Mask                               -- EXM at issue
  deriving DecidableEq, Repr

/-- A request sent over the scale-up fabric for part `k` of operation `op`, and not yet answered (R366). -/
structure PeerOut where
  op : Nat
  k : Nat
  dev : Nat                                -- target device
  req : PeerReq
  deriving DecidableEq, Repr

/-! ## Blocks, gangs, contexts, queues (R183 to R219, R395 to R411) -/

/-- Where a group of a block is. -/
inductive Place where
  | slot (key : Nat)
  | ended
  | retired
  | parked (img : W64)                     -- saved, with its image address (R407)
  deriving DecidableEq, Repr

/-- A request that waits on a handle: slot key (doubled, plus 1 for slot B), ACLK it began, the instruction's
address, and whether it is a consumer (R367). -/
structure HndReq where
  key : Nat
  at_ : Nat
  pc : W64
  cons : Bool
  deriving DecidableEq, Repr

/-- A buffer handle (R367, R368). -/
structure Hnd where
  state : BitVec 2
  isOp : Bool
  holder : Nat                             -- GID
  op : Nat                                 -- holding operation while `isOp`
  size : BitVec 22
  base : W32
  wait : List HndReq
  deriving DecidableEq, Repr

/-- A free handle. -/
def Hnd.reset : Hnd := ⟨0, false, 0, 0, 0, 0, []⟩

/-- A gate (R369, R370). -/
structure Gate where
  phase : BitVec 16
  arrived : Nat
  deriving DecidableEq, Repr

/-- A block (R187, R190, R191, R367 to R370, R407). -/
structure Block where
  id : Nat
  ctx : Nat
  launch : Nat
  gang : Nat
  lin : Nat
  rank : Nat
  core : Nat                               -- its core, or core-in-pair 0
  pair : Bool
  ntile : Nat
  narr : Nat
  nthr : Nat
  vregs : Nat
  sregs : Nat
  seqLq : W64                              -- LAUNCHID (R186)
  cls : BitVec 2                           -- priority class
  age : Nat
  ord : Nat
  live : Nat                               -- BLKLIVE.LIVE
  places : Tab Place                       -- by GID
  arrs : Tab Nat                           -- block-relative array to array key
  tiles0 : Tab Nat                         -- tile name to physical tile, core-in-pair 0
  tiles1 : Tab Nat
  hnds : Tab Hnd
  gates : Tab Gate
  rend : Tab Nat                           -- core-in-pair × 16 + point to the waiting slot key (R201)
  spstat : W64
  spAt : Option (Nat × Nat) := none        -- ACLK of the last drop, and the array of that ACLK's first (R61)
  mxcfg0 : W64
  mxcfg1 : W64
  mxcfg2 : W64
  swBase : W64
  swArm : Bool
  swLead : Option Nat                      -- leader's GID
  frozen : Bool                            -- its copy agent (R404)
  saved : Bool
  ready : Bool                             -- pooled accesses may reach it (R409)
  going : Bool                             -- between restore and GO
  asked : Option (List Nat) := none        -- blocks asked to leave for its restore (R212)
  deriving DecidableEq, Repr

/-- A gang (R188, R370, R409). -/
structure Gang where
  id : Nat
  launch : Nat
  num : Nat
  size : Nat
  base : Nat                               -- base die
  blks : Tab Nat                           -- rank to block id, blocks not ended
  phase : BitVec 16
  arr0 : Nat                               -- arrivals of the half on the base die
  arr1 : Nat
  crossed : Bool                           -- the cross-die message is out (R370)
  deriving DecidableEq, Repr

/-- A bank of performance counters bound to a context on a core (R410). -/
structure PmBank where
  core : Nat
  ctx : Nat
  ctr : Tab W64
  wrAt : Tab Nat := []                     -- ACLK of the last PMCWR of a counter (R320)
  deriving DecidableEq, Repr

/-- A context (R35, R64, R93, R112, R166, R231, R249, R251, R395, R410, R411, R437). -/
structure Ctx where
  pid : Nat
  entry : Nat                              -- context-table entry
  asid : BitVec 16
  asidWas : Option (BitVec 16 × Nat × Nat) -- ASID before the last write, the writing core and the ACLK (R93)
  pdmask : BitVec 4
  tvec1 : W64
  tvec2 : W64
  ctxsave : W64
  rsxseed : W64
  mxctl : W64
  pmsave : W64
  pmcfg : Tab W64
  ppt : Tab W64
  agset : Tab W64
  wgrant : W64
  stop : Bool                              -- quiesced or stopping (R412)
  ending : Option (Nat × W64 × Nat × Nat × W64 × W64)   -- CEC, tick, SRC, TC, VAL, PC (R403)
  deriving DecidableEq, Repr

/-- A launch queue (R205 to R208). -/
structure LQueue where
  base : W64
  asid : BitVec 16
  log2n : BitVec 4
  cls : BitVec 2
  en : Bool
  head : Nat
  err : BitVec 4
  limit : Nat
  tail : Nat
  launch : Option Nat                      -- record being checked, held or placed
  prev : Option Nat                        -- last record taken, until it completes
  deriving DecidableEq, Repr

/-- A queue at reset. -/
def LQueue.reset : LQueue := ⟨0, 0, 0, 0, false, 0, 0, 0, 0, none, none⟩

/-- Where a launch stands (R210). -/
inductive LStep where
  | order | deps | wset | place | run
  deriving DecidableEq, Repr

/-- A launch record taken from a queue (R209, R210). -/
structure Launch where
  id : Nat
  ctx : Nat
  pid : Nat
  q : Nat
  seq : Nat
  words : List W64                         -- the record's sixteen words
  at_ : W64                                -- the record's address
  cls : BitVec 2
  step : LStep
  placed : Nat                             -- blocks placed
  ended : Nat                              -- blocks ended
  total : Nat
  prev : Option Nat
  readyAt : Nat                            -- no block before this ACLK (R210)
  seen : List Nat                          -- cores that have started a block of it (R52, R55)
  met : BitVec 2                           -- dependences found satisfied (R210)
  asked : Option (Nat × List Nat) := none  -- its block for which room was asked, and the blocks asked to leave (R212)
  late : List Nat := []                    -- ended blocks with accesses not yet answered (R149, R151)
  deriving DecidableEq, Repr

/-- A partition: its lead-die registers (R165, R403, R412 to R417, R436 to R438). -/
structure Part where
  mask : BitVec 4                          -- dies; zero: no such partition
  pistat : W64
  pimask : W64
  irq : Bool                               -- vector 0 message sent (R438)
  cehead : W32
  cerec : Tab W64                          -- slot × 4 + word
  wpdie : Tab W32
  wppkg : BitVec 16
  qstop : List (List Nat)                  -- stops that have not completed: the contexts of each
  qstopst : Bool
  dbgst : BitVec 8
  dbgdata : W64
  wp : Tab W64                             -- 3n CTL, 3n + 1 ADDR, 3n + 2 VAL
  ctab : Tab W64                           -- entry × 8 + word (R437)
  saved : List Nat                         -- saved blocks, oldest first (R407)
  rr : Tab Nat                             -- next queue in turn, by class (R211)
  deriving DecidableEq, Repr

/-- A partition that holds no die. -/
def Part.reset : Part :=
  ⟨0, 0, 0, false, 0, [], [], 0, [], false, 0, 0, [], [], [], []⟩

/-! ## Accesses of groups that are gone, and errors found -/

/-- Accesses not yet answered of a group that has left its slot: the slot key they answer to, and the slot of the
survivor whose program order they joined (R136, R142, R187, R201). -/
structure Ghost where
  key : Nat
  heir : Option Nat
  ctx : Nat
  blk : Nat
  pend : List Pend
  deriving DecidableEq, Repr

/-- A protected word or message that a read may find in error. -/
inductive Spot where
  | v (g n lane : Nat)                     -- a lane word of a group's vector register (R44)
  | s (g n : Nat)                          -- a scalar register (R44)
  | p (g n lane : Nat)                     -- a predicate register (R44)
  | split (g w : Nat)                      -- a split-stack word (R62)
  | cell (a w : Nat)                       -- a 4-byte word of an array (R58)
  | l1 (core line : Nat)                   -- an L1 line (R54)
  | mtlb (die : Nat) (asid : BitVec 16) (vpn : Nat)   -- an MTLB entry (R99)
  | tag (die bank set : Nat)               -- an L2 tag of a set (R87)
  | l2 (die sec : Nat)                     -- an L2 sector, by die-physical address / 128 (R87)
  | rdc (die owner sec : Nat)              -- an RDC sector (R87)
  | hbm (die stack pchan sec : Nat)        -- an HBM4E sector, by its pseudo-channel (R26, R87)
  | row (b r seg : Nat)                    -- a segment of an Agate bank's row (R120)
  | release (c : Nat)                      -- a Welt release at a channel's cores (R164)
  | preempt (c : Nat)                      -- a pre-emption message at a core's die (R164)
  | tick                                   -- a tick message (R164)
  deriving DecidableEq, Repr

/-- What reads of a word find from ACLK `lo` to before `hi`: an error of `bits` bits; 2 is uncorrectable. -/
structure Upset where
  spot : Spot
  lo : Nat
  hi : Nat
  bits : Nat
  deriving DecidableEq, Repr

/-! ## Cores, dies and the package -/

/-- Registers and stores of a core. -/
structure Core where
  l1 : List L1Line
  ic : List IcLine
  icPend : List (BitVec 16 × Nat × Option (BitVec 4))   -- lines on the way, and those refused (R55, R102)
  pred : Tab Nat                           -- scheduler × 64 + index (R214)
  cnt : Tab W64                            -- scheduler × 25 + counter (R219)
  schsel : BitVec 7
  mstiv : W32
  mcap : BitVec 24                         -- admittable arrays (R262)
  mxq : List Nat                           -- matrix operations waiting for acceptance (R256)
  macTill : Nat := 0                       -- until when the digital matrix path is taken (R250)
  mxHold : Option Nat                      -- an MPPT that holds acceptance back (R374)
  swapTill : Tab Nat                       -- scheduler to the ACLK its swap ends (R215)
  unit : Tab Nat                           -- scheduler × 8 + unit to the ACLK it is free (R324)
  epoch : Nat                              -- prefetches sent before the last bump are not installed (R51, R110)
  deriving DecidableEq, Repr

/-- A core at cold reset. -/
def Core.reset : Core := ⟨[], [], [], [], [], 0, 4096, 0xFFFFFF, [], 0, none, [], [], 0⟩

/-- The Awl port of a die (R415): the instruction register and what the data register holds. -/
structure Tap where
  ir : BitVec 8
  chain : BitVec 16
  dr : List Bool
  deriving DecidableEq, Repr

/-- Registers and units of a die (R23, R72 to R110, R405, R415, R418, R434 to R447). -/
structure Die where
  absdie : BitVec 4                        -- ABSDIE (R111)
  stage : BitVec 3                         -- BOOTSTAT (R442)
  leaves : Nat
  fwver : BitVec 16
  held : Bool                              -- held in reset
  authed : Bool                            -- passed stage 3
  staging : Tab Byte                       -- image staging window (R442)
  partset : W64                            -- PARTSET as last written, with ERR
  hostFrozen : Bool                        -- its logical device (R404)
  portFrozen : BitVec 4
  pdev : BitVec 10
  pgrant : Tab W64                         -- 2p word 0, 2p + 1 word 1
  hdmx : Tab W64
  hdm : Tab (Nat × Nat)                    -- committed decoders: base and size (R435)
  hdmErr : BitVec 4                        -- Commit Error by decoder
  xbtcw : W64
  xbdisc : W32
  clrst : W32                              -- clusters in reset
  cldone : W32
  sdva : W64
  sdst : W64                               -- SDSTAT
  shoot : Option Shoot
  xroot : Tab W64
  xold : List W64                          -- valid roots written over without a shootdown of their ASID (R94)
  xshot : List (BitVec 16)                 -- ASIDs shot down whole since a valid root of theirs was written (R94)
  xpool : Tab W64
  xmapq : List XmapReq
  frz : Tab W64                            -- slot × 2 + word
  frzhead : W32
  trbase : W64
  trctl : W64
  trhead : W64
  trnext : Nat                             -- group whose turn a SAMPLE record is (R418)
  cecnt : Tab W64
  cecthr : W64
  mtlb : List MtlbEntry
  l2 : List L2Line
  locks : List LineLock
  confl : List Pkt                         -- conflict queues (R78), oldest first
  rdc : List RdcLine
  rdir : List RdcDir
  walks : List Walk
  budget : Tab Nat                         -- class-0 budget by cluster (R72)
  c0q : List (Nat × Job)                   -- class-0 requests waiting at a cluster (R72)
  pf : List PfEntry
  pfOver : List (BitVec 16)                -- ASIDs in overflow (R128)
  tap : Tap
  deriving DecidableEq, Repr

/-- A die at package cold reset. -/
def Die.reset : Die :=
  { absdie := 0, stage := 0, leaves := 2 ^ 20, fwver := 0, held := false, authed := false, staging := [],
    partset := 0, hostFrozen := false, portFrozen := 0, pdev := 0, pgrant := [], hdmx := [], hdm := [],
    hdmErr := 0, xbtcw := 0x248, xbdisc := 0, clrst := 0, cldone := 0, sdva := 0, sdst := 0, shoot := none,
    xroot := [], xold := [], xshot := [], xpool := [], xmapq := [], frz := [], frzhead := 0, trbase := 0, trctl := 0, trhead := 0,
    trnext := 0, cecnt := [], cecthr := 1024, mtlb := [], l2 := [], locks := [], confl := [], rdc := [],
    rdir := [], walks := [], budget := [], c0q := [], pf := [], pfOver := [],
    tap := ⟨0xFE, 0, []⟩ }

/-- An event of the agenda and the ACLK it is due. -/
structure Timed where
  due : Nat
  ev : Instr
  deriving DecidableEq, Repr

/-- The answer of the last host, debug, peer or I3C request. -/
inductive Resp where
  | none
  | bytes (l : List Byte)
  | word (x : W64)
  | ok
  | ur                                     -- Unsupported Request
  | nack (subc : BitVec 4)
  | error                                  -- Commit Error, SPDM Unspecified, I3C NACK
  deriving DecidableEq, Repr

/-- The group and slot whose instruction is being executed. -/
structure Cur where
  g : Nat
  slotB : Bool
  deriving DecidableEq, Repr

/-- Device memory: package-wide die-physical address (die × 2^37 + DPA) and byte, in canonical form. -/
abbrev Memory := List Host.Cell

/-- The whole package. -/
structure State where
  aclk : Nat
  tick : W64                               -- global tick (R181)
  tickOn : Bool                            -- the tick is loaded
  stopped : Bool                           -- tick stop in force (R413)
  held : Bool                              -- package held in reset (R445)
  tstop : W64                              -- TSTOP as last written (R413)
  tstopAt : W64                            -- tick of the armed stop
  tstopArm : Bool
  tstopErr : Bool
  pwrlim : BitVec 16
  pwrstat : W64
  hotPwr : Nat                             -- consecutive windows over the limit at full spacing (R445)
  i3cDyn : Option (BitVec 7)
  i3cSel : Option (BitVec 24)              -- selector of the next read; none: NACKed (R447)
  agenda : List Timed
  turn : Nat                               -- next scheduler of this ACLK: core × 4 + scheduler
  cur : Option Cur
  fresh : Nat                              -- counter of the free values
  nextId : Nat
  groups : Tab Group
  blocks : Tab Block
  gangs : Tab Gang
  launches : Tab Launch
  queues : Tab LQueue
  ctxs : Tab Ctx
  parts : Tab Part
  ops : Tab AOp
  cores : Tab Core
  dies : Tab Die
  links : Tab Link
  vcs : Tab Nat                            -- last arrival on a virtual channel (R73)
  chans : Tab Chan
  banks : Tab Bank
  arrs : Tab Arr
  tiles : Tab W32                          -- (core × 64 + tile) × 1024 + element
  tileOwn : Tab Nat                        -- core × 64 + tile to its block
  pms : List PmBank
  peerOut : List PeerOut                   -- requests out on the scale-up fabric (R366, R439)
  outbox : List (Nat × Job) := []          -- requests issued, and the ACLK at which each is injected (R91)
  ghosts : List Ghost := []                -- accesses of groups that are gone
  upsets : List Upset := []                -- errors to be found: an input from outside (R44, R54, R58, R87, R99, R120, R164)
  coldAt : Nat := 0                        -- ACLK of the last cold reset (R219)
  mem : Memory
  resp : Resp
  deriving DecidableEq, Repr

/-- Why a step stops. -/
inductive Fault where
  /-- Raised by `exec` of a program instruction when no group is current: no step reaches it, since `step`
  makes a group current before it executes one. Safe: the model stops where no hardware event exists. -/
  | noGroup
  deriving DecidableEq, Repr

/-- Why an instruction has no meaning. -/
inductive Refusal where
  /-- Raised by an arm of `exec` whose instruction has no meaning yet. Safe: the model stops. -/
  | notModelled (mnemonic : String)
  deriving DecidableEq, Repr

/-- The outcome of a step. -/
abbrev Out := Host.Outcome State Fault Refusal

/-- Package cold reset (R7, R442): nothing runs until the cold-reset event, which is due at once. -/
def State.reset : State :=
  { aclk := 0, tick := 0, tickOn := false, stopped := false, held := false,
    tstop := 0, tstopAt := 0, tstopArm := false, tstopErr := false, pwrlim := 2400, pwrstat := 0, hotPwr := 0, i3cDyn := none,
    i3cSel := none, agenda := [⟨0, .coldReset⟩], turn := 0, cur := none, fresh := 0, nextId := 0,
    groups := [], blocks := [], gangs := [], launches := [], queues := [], ctxs := [], parts := [],
    ops := [], cores := [], dies := [], links := [], vcs := [], chans := [], banks := [], arrs := [],
    tiles := [], tileOwn := [], pms := [], peerOut := [], outbox := [], ghosts := [], upsets := [], coldAt := 0, mem := [], resp := .none }

end Sys2Proof.Machine
end

