-- ==== Sys2Proof/Machine/Bits.lean ====
section
/-! DEFINITION. Tables, bit fields, elements of a lane word and byte order (R4, R41). -/

namespace Sys2Proof.Machine

/-! ## Tables -/

/-- Entry of a key. -/
def Tab.get? {α : Type} : Tab α → Nat → Option α
  | [], _ => none
  | (i, x) :: r, k => if i = k then some x else Tab.get? r k

/-- Entry of a key, or a default. -/
def Tab.getD {α : Type} (t : Tab α) (d : α) (k : Nat) : α := (Tab.get? t k).getD d

/-- Set the entry of a key. -/
def Tab.put {α : Type} : Tab α → Nat → α → Tab α
  | [], k, x => [(k, x)]
  | (i, y) :: r, k, x =>
    if i = k then (k, x) :: r else if k < i then (k, x) :: (i, y) :: r else (i, y) :: Tab.put r k x

/-- Remove the entry of a key. -/
def Tab.del {α : Type} (t : Tab α) (k : Nat) : Tab α := t.filter fun e => e.1 ≠ k

/-- Set a key of a table whose unlisted keys read `d`: a default is not listed. -/
def Tab.set {α : Type} [DecidableEq α] (t : Tab α) (d : α) (k : Nat) (x : α) : Tab α :=
  if x = d then Tab.del t k else Tab.put t k x

/-- Change the entry of a key, if it is listed. -/
def Tab.mod {α : Type} (t : Tab α) (k : Nat) (f : α → α) : Tab α :=
  match Tab.get? t k with
  | some x => Tab.put t k (f x)
  | none => t

/-- Keys strictly rising. -/
def Tab.sorted {α : Type} : Tab α → Bool
  | [] => true
  | [_] => true
  | (i, _) :: (j, y) :: r => decide (i < j) && Tab.sorted ((j, y) :: r)

/-- Set several keys. -/
def Tab.putAll {α : Type} (t : Tab α) (l : List (Nat × α)) : Tab α :=
  l.foldl (fun t e => Tab.put t e.1 e.2) t

/-! ## Bit fields -/

/-- Bits `[lo + n - 1 : lo]` of a number. -/
def bitsN (x lo n : Nat) : Nat := x / 2 ^ lo % 2 ^ n

/-- Bits `[lo + n - 1 : lo]` of a word. -/
def fld (x : W64) (lo n : Nat) : Nat := bitsN x.toNat lo n

/-- Bit `i` of a word. -/
def bit64 (x : W64) (i : Nat) : Bool := x.toNat / 2 ^ i % 2 = 1

/-- A word with bits `[lo + n - 1 : lo]` replaced. -/
def setFld (x : W64) (lo n v : Nat) : W64 :=
  .ofNat 64 (x.toNat - bitsN x.toNat lo n * 2 ^ lo + v % 2 ^ n * 2 ^ lo)

/-- A word with the bits of a mask kept. -/
def keep (x : W64) (m : Nat) : W64 := x &&& .ofNat 64 m

/-- A word from a number. -/
def w64 (n : Nat) : W64 := .ofNat 64 n

/-- A word with its W1C bits `m` cleared where `v` has ones (R6). -/
def w1c (old v : W64) (m : Nat) : W64 := old &&& ~~~ keep v m

/-- A word with the bits of a mask taken from `v`. -/
def rw (old v : W64) (m : Nat) : W64 := (old &&& ~~~ w64 m) ||| keep v m

/-- Bool as a bit. -/
def b2n (b : Bool) : Nat := if b then 1 else 0

/-- A `w`-bit number read as two's complement. -/
def sgn (w x : Nat) : Int :=
  if 2 * (x % 2 ^ w) < 2 ^ w then (x % 2 ^ w : Nat) else (x % 2 ^ w : Nat) - (2 ^ w : Nat)

/-- An integer modulo 2^w. -/
def wrap (w : Nat) (x : Int) : Nat := (x % (2 ^ w : Nat)).toNat

/-- Sign extension of 32 bits to 64. -/
def sext32 (x : W32) : W64 := x.signExtend 64

/-- Lane `l` of a mask. -/
def Mask.has (m : Mask) (l : Nat) : Bool := m.toNat / 2 ^ l % 2 = 1

/-- The lanes 0 to 31. -/
def lanes32 : List Nat := List.range 32

/-- The lanes of a mask, ascending. -/
def Mask.lanes (m : Mask) : List Nat := lanes32.filter (Mask.has m)

/-- The mask of the lanes a test holds for. -/
def Mask.of (f : Nat → Bool) : Mask :=
  .ofNat 32 ((lanes32.filter f).foldl (fun a l => a + 2 ^ l) 0)

/-- Lanes of a mask. -/
def Mask.count (m : Mask) : Nat := (Mask.lanes m).length

/-- All 32 lanes. -/
def Mask.all : Mask := 0xFFFFFFFF

/-- One bits of the low `w` bits of a number. -/
def popN (w x : Nat) : Nat := ((List.range w).filter fun i => x / 2 ^ i % 2 = 1).length

/-- Leading zeros of a `w`-bit number. -/
def clzN : Nat → Nat → Nat
  | 0, _ => 0
  | w + 1, x => if x / 2 ^ w % 2 = 1 then 0 else 1 + clzN w x

/-- Bit reversal of a `w`-bit number. -/
def revN : Nat → Nat → Nat
  | 0, _ => 0
  | w + 1, x => 2 ^ w * (x % 2) + revN w (x / 2)

/-- Number of bits of a positive number: the position of its highest one bit, plus one. -/
def bitLen (x : Nat) : Nat := if x = 0 then 0 else Nat.log2 x + 1

/-! ## Elements (R41) -/

/-- Sub-element `e` of width `w`. -/
def elem (w : Nat) (x : W64) (e : Nat) : Nat := bitsN x.toNat (w * e) w

/-- A word with sub-element `e` of width `w` replaced. -/
def setElem (w : Nat) (x : W64) (e v : Nat) : W64 := setFld x (w * e) w v

/-- A word built from its sub-elements, unused bits zero. -/
def packElems (w : Nat) (l : List Nat) : W64 :=
  w64 (l.foldr (fun v a => v % 2 ^ w + 2 ^ w * a) 0)

/-! ## Bytes -/

/-- The `n` little-endian bytes of a word. -/
def bytesLE (n : Nat) (x : Nat) : List Byte := bytesOf n x

/-- Bytes paired with consecutive numbers from `a`. -/
def numbered {α : Type} : Nat → List α → List (Nat × α)
  | _, [] => []
  | a, x :: r => (a, x) :: numbered (a + 1) r

/-- Bytes of a table at `a` and the `n - 1` following numbers; unlisted ones zero. -/
def Tab.bytes (t : Tab Byte) (a n : Nat) : List Byte := (List.range n).map fun i => Tab.getD t 0 (a + i)

/-- The little-endian number of a table's bytes. -/
def Tab.num (t : Tab Byte) (a n : Nat) : Nat := natOfBytes (Tab.bytes t a n)

/-- Distinct elements in order of first occurrence. -/
def uniq (l : List Nat) : List Nat := l.foldl (fun a x => if a.contains x then a else a ++ [x]) []

/-- Insert into a list by a rank, after equal ranks. -/
def insBy {α : Type} (rank : α → Nat) (x : α) : List α → List α
  | [] => [x]
  | y :: r => if rank x < rank y then x :: y :: r else y :: insBy rank x r

end Sys2Proof.Machine
end

