-- ==== Sys2Proof/Machine/Ops.lean ====
section
/-! DEFINITION. The named operations over the state: tables of groups, blocks and contexts, registers,
memory bytes, PC slots, the agenda, host reports, freezing, taking a trap and returning from one. -/

namespace Sys2Proof.Machine

/-! ## Topology (R2, R21, R22, R46) -/

/-- Core of a slot key. -/
def coreOf (g : Nat) : Nat := g / 48
/-- Slot number of a slot key. -/
def slotOf (g : Nat) : Nat := g % 48
/-- Scheduler of a slot key (R46). -/
def schedOf (g : Nat) : Nat := g % 48 / 12
/-- Die of a core (R2). -/
def dieOfCore (c : Nat) : Nat := c / 64
/-- Die of a slot key. -/
def dieOf (g : Nat) : Nat := dieOfCore (coreOf g)
/-- Local crossbar of a core (R2). -/
def xbarOf (c : Nat) : Nat := c % 64 / 16
/-- Cluster of a core on its die: crossbar × 8 + cluster (R2, R65). -/
def clusterOf (c : Nat) : Nat := c % 64 / 2
/-- Die-link hops between two dies (R21, R22). -/
def hops (a b : Nat) : Nat := match (b + 4 - a) % 4 with | 0 => 0 | 2 => 2 | _ => 1
/-- The lanes all of a die mask's dies. -/
def diesOf (m : BitVec 4) : List Nat := [0, 1, 2, 3].filter fun d => m.toNat / 2 ^ d % 2 = 1

/-! ## Tables of the state -/

/-- A context no table lists. -/
def Ctx.nil : Ctx :=
  { pid := 0, entry := 0, asid := 0, asidWas := none, pdmask := 0, tvec1 := 0, tvec2 := 0, ctxsave := 0, rsxseed := 0,
    mxctl := 0, pmsave := 0, pmcfg := [], ppt := [], agset := [], wgrant := 0, stop := false, ending := none }

/-- A block no table lists. -/
def Block.nil : Block :=
  { id := 0, ctx := 0, launch := 0, gang := 0, lin := 0, rank := 0, core := 0, pair := false, ntile := 1,
    narr := 1, nthr := 1, vregs := 16, sregs := 8, seqLq := 0, cls := 0, age := 0, ord := 0, live := 0,
    places := [], arrs := [], tiles0 := [], tiles1 := [], hnds := [], gates := [], rend := [], spstat := 0,
    mxcfg0 := 0, mxcfg1 := 0, mxcfg2 := 0, swBase := 0, swArm := false, swLead := none, frozen := false,
    saved := false, ready := true, going := false }

/-- A context. -/
def State.ctx (s : State) (k : Nat) : Ctx := Tab.getD s.ctxs Ctx.nil k
/-- The ASID that requests of a context carry on a core (R93): a change reaches the cores other than its writer within
64 ACLK. -/
def State.asidAt (s : State) (k core : Nat) : BitVec 16 :=
  let c := s.ctx k
  match c.asidWas with
  | none => c.asid
  | some (old, by', at') =>
    if core = by' ∨ at' + min 64 (Config.asidReach at' k core).toNat ≤ s.aclk then c.asid else old
/-- A block. -/
def State.blk (s : State) (k : Nat) : Block := Tab.getD s.blocks Block.nil k
/-- A core. -/
def State.core (s : State) (c : Nat) : Core := Tab.getD s.cores Core.reset c
/-- A die. -/
def State.die (s : State) (d : Nat) : Die := Tab.getD s.dies Die.reset d
/-- A partition. -/
def State.part (s : State) (p : Nat) : Part := Tab.getD s.parts Part.reset p
/-- A Welt channel: die × 32 + number, or 128 + number for a package channel. -/
def State.chan (s : State) (c : Nat) : Chan := Tab.getD s.chans Chan.reset c
/-- An Agate bank: die × 128 + slice × 4 + bank. -/
def State.bank (s : State) (b : Nat) : Bank := Tab.getD s.banks Bank.reset b
/-- A Spinel array: core × 24 + number. -/
def State.arr (s : State) (a : Nat) : Arr := Tab.getD s.arrs Arr.reset a

/-- Change a resident group. -/
def State.modGrp (s : State) (g : Nat) (f : Group → Group) : State :=
  { s with groups := Tab.mod s.groups g f }
/-- Put a group in a slot. -/
def State.setGrp (s : State) (g : Nat) (x : Group) : State := { s with groups := Tab.put s.groups g x }
/-- Change a context. -/
def State.modCtx (s : State) (k : Nat) (f : Ctx → Ctx) : State := { s with ctxs := Tab.mod s.ctxs k f }
/-- Change a block. -/
def State.modBlk (s : State) (k : Nat) (f : Block → Block) : State := { s with blocks := Tab.mod s.blocks k f }
/-- Change a core. -/
def State.modCore (s : State) (c : Nat) (f : Core → Core) : State :=
  { s with cores := Tab.put s.cores c (f (s.core c)) }
/-- Change a die. -/
def State.modDie (s : State) (d : Nat) (f : Die → Die) : State :=
  { s with dies := Tab.put s.dies d (f (s.die d)) }
/-- Change a partition. -/
def State.modPart (s : State) (p : Nat) (f : Part → Part) : State :=
  { s with parts := Tab.put s.parts p (f (s.part p)) }
/-- Change a Welt channel. -/
def State.modChan (s : State) (c : Nat) (f : Chan → Chan) : State :=
  { s with chans := Tab.put s.chans c (f (s.chan c)) }
/-- Change an Agate bank. -/
def State.modBank (s : State) (b : Nat) (f : Bank → Bank) : State :=
  { s with banks := Tab.put s.banks b (f (s.bank b)) }
/-- Change a Spinel array. -/
def State.modArr (s : State) (a : Nat) (f : Arr → Arr) : State :=
  { s with arrs := Tab.put s.arrs a (f (s.arr a)) }
/-- Change an asynchronous operation. -/
def State.modOp (s : State) (k : Nat) (f : AOp → AOp) : State := { s with ops := Tab.mod s.ops k f }

/-- Put an event on the agenda `dt` ACLK from now, after events due at the same ACLK. -/
def State.post (s : State) (dt : Nat) (ev : Instr) : State :=
  { s with agenda := insBy Timed.due ⟨s.aclk + dt, ev⟩ s.agenda }

/-! ## Memory bytes -/

/-- What an unlisted byte of device memory reads as. DESIGN CHOICE (assumption 3): the spec gives memory
no reset contents. -/
def memDefault : Byte := 0

/-- Package-wide physical address of a die-physical address. -/
def paddr (die a : Nat) : Nat := die * 2 ^ 37 + a

/-- First die-physical address that does not exist (R25). -/
def dpaLimit : Nat := 0x1DCD650000

/-- One byte of device memory. -/
def State.readByte (s : State) (a : Nat) : Byte := Tab.getD s.mem memDefault a

/-- Write one byte of device memory. -/
def State.writeByte (s : State) (a : Nat) (b : Byte) : State := { s with mem := Tab.set s.mem memDefault a b }

/-- `n` bytes of device memory. -/
def State.readBytes (s : State) (a n : Nat) : List Byte := (List.range n).map fun i => s.readByte (a + i)

/-- Little-endian number in device memory. -/
def State.readNum (s : State) (a n : Nat) : Nat := natOfBytes (s.readBytes a n)

/-- Write bytes at consecutive addresses. -/
def State.writeBytes (s : State) : Nat → List Byte → State
  | _, [] => s
  | a, b :: r => State.writeBytes (s.writeByte a b) (a + 1) r

/-- The canonical form: addresses strictly rising and no entry equal to what an unlisted address reads. -/
def Memory.wf (m : Memory) : Bool := Tab.sorted m && m.all fun c => c.2 ≠ memDefault

/-! ## Reports to the host (R403, R405, R418, R438) -/

/-- Raise PISTAT bit `b` of a partition; the interrupt message is sent when PISTAT AND PIMASK turns
nonzero (R438). -/
def State.raisePi (s : State) (pid b : Nat) : State :=
  s.modPart pid fun p =>
    let st := p.pistat ||| w64 (2 ^ b)
    { p with pistat := st, irq := p.irq || (p.pistat &&& p.pimask = 0 && st &&& p.pimask ≠ 0) }

/-- The partition that holds a die. -/
def State.pidOfDie (s : State) (d : Nat) : Option Nat :=
  [0, 1, 2, 3].find? fun p => (s.part p).mask.toNat / 2 ^ d % 2 = 1

/-- Lead die of a partition: its lowest-numbered die (R37). -/
def State.leadDie (s : State) (p : Nat) : Nat := ((diesOf (s.part p).mask).head?).getD 0

/-- Deliver a die's event to the partition that holds it (R438). -/
def State.raiseDie (s : State) (d b : Nat) : State :=
  match s.pidOfDie d with
  | some p => s.raisePi p b
  | none => s

/-- Write a trace record of a die's event, when the die traces its type (R418). The ring is full once it
holds 2^LOG2 records. -/
def State.trace (s : State) (die ty : Nat) (asid : BitVec 16) (src : Nat) (d0 d1 : W64) : State :=
  let d := s.die die
  let lg := fld d.trbase 0 8
  let n := fld d.trhead 0 32
  if lg < 4 ∨ 24 < lg ∨ ¬ bit64 d.trctl ty then s
  else if 2 ^ lg ≤ n ∧ ¬ bit64 d.trctl 0 then
    s.modDie die fun d => { d with trhead := setFld d.trhead 32 32 (fld d.trhead 32 32 + 1) }
  else
    let a := fld d.trbase 16 21 * 2 ^ 16 + 32 * (n % 2 ^ lg)
    let w1 := ty * 2 ^ 56 + asid.toNat * 2 ^ 32 + src % 2 ^ 32
    let s := if a + 32 ≤ dpaLimit then
        s.writeBytes (paddr die a)
          (bytesLE 8 s.tick.toNat ++ bytesLE 8 w1 ++ bytesLE 8 d0.toNat ++ bytesLE 8 d1.toNat)
      else s
    s.modDie die fun d => { d with trhead := setFld d.trhead 0 32 (n + 1) }

/-- GRPID of a slot key (R186). -/
def grpid (g gid : Nat) : Nat :=
  coreOf g * 2 ^ 16 + schedOf g * 2 ^ 14 + slotOf g * 2 ^ 8 + gid

/-- A slot. -/
def Group.slot (x : Group) (b : Bool) : Slot := if b then x.b else x.a
/-- Address of the slot's next instruction. -/
def Slot.ipc (t : Slot) : W64 :=
  match t.re with
  | some (a, _) => a
  | none => t.pc

/-- Write a freeze record on a die, and trace it with a PC or an address (R405, R418). -/
def State.logFreeze (s : State) (die kind why : Nat) (asid : BitVec 16) (id : Nat) (d1 : W64) : State :=
  let n := (s.die die).frzhead
  let i := n.toNat % 16
  let s := s.modDie die fun d =>
    { d with frz := Tab.put (Tab.put d.frz (2 * i) s.tick) (2 * i + 1)
               (w64 (kind * 2 ^ 60 + why * 2 ^ 52 + asid.toNat * 2 ^ 32 + id)),
             frzhead := n + 1 }
  (s.raiseDie die 3).trace die 3 asid id 0 d1

/-- Freeze a group (R404): rule class 1 partition, 2 privilege, 3 Welt grant, 4 queue, 5 data error; `d1` is what the
trace names. -/
def State.freezeAt (s : State) (g why : Nat) (d1 : W64) : State :=
  match Tab.get? s.groups g with
  | some x =>
    (s.modGrp g fun x => { x with frozen := true }).logFreeze (dieOf g) 1 why (s.ctx x.ctx).asid (grpid g x.gid) d1
  | none => s

/-- Freeze a group at its instruction. -/
def State.freeze (s : State) (g why : Nat) : State :=
  s.freezeAt g why (match Tab.get? s.groups g with | some x => (x.slot x.lastB).ipc | none => 0)

/-! ## Errors found by reads (R44, R54, R58, R62, R87, R99, R120, R446) -/

/-- A corrected error of core `c` of a die, or with `c` 64 of its slices, RDC or HBM4E: the count saturates, and one that
reaches CECTHR is reported. -/
def State.corrected (s : State) (die c : Nat) : State :=
  let d := s.die die
  let n := Tab.getD d.cecnt 0 c
  let m := if n = w64 (2 ^ 64 - 1) then n else n + 1
  let t := s.modDie die fun d => { d with cecnt := Tab.put d.cecnt c m }
  if d.cecthr ≠ 0 ∧ m = d.cecthr ∧ n ≠ m then t.raiseDie die 7 else t

/-- Error bits a read of a word finds now: 0 none, 1 corrected, 2 uncorrectable. Which reads find one is an input
(assumption 98). -/
def State.upset (s : State) (p : Spot) : Nat :=
  match s.upsets.find? fun u => u.spot = p && u.lo ≤ s.aclk && s.aclk < u.hi with
  | some u => u.bits
  | none => 0

/-- Count the corrected errors among some words that a core reads (R446). -/
def State.countUpsets (s : State) (core : Nat) (ps : List Spot) : State :=
  (ps.filter fun p => s.upset p = 1).foldl (fun s _ => s.corrected (dieOfCore core) (core % 64)) s

/-- A read of some words finds an uncorrectable error. -/
def State.spoiled (s : State) (ps : List Spot) : Bool := ps.any fun p => s.upset p = 2

/-- A group reads some protected words: single errors are counted, and with a double one there is no state to go on in
(R44, R58, R62). -/
def State.checked (s : State) (g : Nat) (ps : Group → List Spot) : Option State :=
  if s.upsets.isEmpty then some s
  else match Tab.get? s.groups g with
    | some x => if s.spoiled (ps x) then none else some (s.countUpsets (coreOf g) (ps x))
    | none => some s

/-- A group goes on after reading some protected words; a double error freezes it. -/
def State.checkRead (s : State) (g : Nat) (ps : List Spot) (f : State → State) : State :=
  match s.checked g fun _ => ps with
  | some s => f s
  | none => s.freeze g 5

/-- Free value at the state's counter. -/
def State.tickFree (s : State) : State := { s with fresh := s.fresh + 1 }

/-- Start ending a context with code `cec` (R402): its groups stop at once, the rest of the kill is done by
the end-record event. A context already ending keeps its first cause. -/
def State.endCtx (s : State) (k cec src tc : Nat) (val pc : W64) : State :=
  match Tab.get? s.ctxs k with
  | none => s
  | some c =>
    match c.ending with
    | some _ => s
    | none =>
      (s.modCtx k fun c => { c with ending := some (cec, s.tick, src, tc, val, pc) }).post 1024
        (.contextEndRecord k)

/-! ## Registers (R40 to R43, R272) -/

/-- Lane `l` of vector register `n`. -/
def Group.getV (x : Group) (n l : Nat) : W64 := Tab.getD x.v 0 (n * 32 + l)
/-- Write lane `l` of vector register `n`. -/
def Group.setV (x : Group) (n l : Nat) (w : W64) : Group := { x with v := Tab.set x.v 0 (n * 32 + l) w }
/-- Scalar register. -/
def Group.getS (x : Group) (n : Nat) : W64 := Tab.getD x.s 0 n
/-- Write a scalar register. -/
def Group.setS (x : Group) (n : Nat) (w : W64) : Group := { x with s := Tab.set x.s 0 n w }
/-- Lane `l` of a predicate register; P0 reads all-true (R40). -/
def Group.getP (x : Group) (n l : Nat) : BitVec 16 := if n = 0 then 0xFFFF else Tab.getD x.p 0 (n * 32 + l)
/-- Write lane `l` of a predicate register; writes to P0 are ignored (R40). -/
def Group.setP (x : Group) (n l : Nat) (w : BitVec 16) : Group :=
  if n = 0 then x else { x with p := Tab.set x.p 0 (n * 32 + l) w }
/-- Write a predicate register in all 32 lanes (R297). -/
def Group.setPall (x : Group) (n : Nat) (w : BitVec 16) : Group := lanes32.foldl (fun x l => x.setP n l w) x
/-- Write a scalar destination; ZERO discards the result (R272). -/
def Group.dstS (x : Group) (o : Opnd) (w : W64) : Group :=
  match o with
  | .s n => x.setS n.toNat w
  | _ => x
/-- Write one lane of a vector destination; ZERO discards the result (R272). -/
def Group.dstV (x : Group) (o : Opnd) (l : Nat) (w : W64) : Group :=
  match o with
  | .v n => x.setV n.toNat l w
  | _ => x
/-- A whole-register scalar source: S, ZERO or SMALL sign-extended to 64 bits (R273, R316). -/
def Group.srcS (x : Group) (o : Opnd) : W64 :=
  match o with
  | .s n => x.getS n.toNat
  | .small k => w64 (k.toNat + 2 ^ 64 - 16)
  | _ => 0
/-- Lane `l`'s word of an address or index source: V, S, ZERO or SMALL (R273). -/
def Group.srcX (x : Group) (o : Opnd) (l : Nat) : W64 :=
  match o with
  | .v n => x.getV n.toNat l
  | o => x.srcS o
/-- Make one register write of a result. -/
def Group.regWr (x : Group) (w : RegWr) : Group :=
  match w with
  | .v n l y => x.setV n l y
  | .s n y => x.setS n y
  | .p n l y => x.setP n l y

/-! ## Predication (R274) -/

/-- Bit `e` of the predicate in lane `l`, XOR PNEG. -/
def Group.predBit (x : Group) (h : Hd) (l e : Nat) : Bool :=
  (decide ((x.getP h.pred.toNat l).toNat / 2 ^ e % 2 = 1)) != h.pneg

/-- The uniform predicate: bit 0 in lane 0. -/
def Group.uniPred (x : Group) (h : Hd) : Bool := x.predBit h 0 0

/-! ## PC slots (R191 to R196) -/

/-- The current instruction is a switch point (R197). -/
def Group.switchPoint (x : Group) : Group := { x with switch := true }
/-- Replace a slot. -/
def Group.setSlot (x : Group) (b : Bool) (t : Slot) : Group := if b then { x with b := t } else { x with a := t }
/-- The lanes an instruction of the slot acts in: its EXM, or the lanes of a re-issue (R317). -/
def Slot.lanes (t : Slot) : Mask :=
  match t.re with
  | some (_, m) => m
  | none => t.exm
/-- A parked slot, or one with no lanes (R192). -/
def Slot.isParked (t : Slot) : Bool := t.parked || t.own = 0

/-- Lane `l` is active for a lane-predicated instruction of slot `b` (R274). -/
def Group.active1 (x : Group) (b : Bool) (h : Hd) (l : Nat) : Bool :=
  Mask.has (x.slot b).lanes l && x.predBit h l 0
/-- The active lanes of a lane-predicated instruction. -/
def Group.actives (x : Group) (b : Bool) (h : Hd) : Mask := Mask.of (x.active1 b h)
/-- Element `e` of lane `l` is enabled for an element-predicated instruction (R274). -/
def Group.enabled (x : Group) (b : Bool) (h : Hd) (l e : Nat) : Bool :=
  Mask.has (x.slot b).lanes l && x.predBit h l e

/-- Park a slot whose PC equals JOIN while slot B is live (R193). -/
def Group.parkAt (x : Group) (b : Bool) : Group :=
  let t := x.slot b
  if x.bLive ∧ t.pc = x.join then x.setSlot b { t with parked := true } else x

/-- Both slots are parked: the group reconverges (R193). -/
def Group.bothParked (x : Group) : Bool := x.bLive && x.a.isParked && x.b.isParked

/-- Lanes that hold a thread: a vacant lane is in no slot's OWN (R185). -/
def Group.holding (x : Group) : Mask := Mask.of fun l => (Tab.get? x.thr l).isSome

/-- Word of the split stack (R62, R194). -/
def Group.splitWord (x : Group) (i : Nat) : W64 := Tab.getD x.split 0 i

/-- The group after its parked slots merge into slot A and the top entry, if any, is popped into slot B
(R193, R194). The entry is the one DEPTH names then, also where it was changed while slot B was live (R63, assumption
99). An access precedes the merged slot when it preceded either (R136). -/
def Group.reconverged (x : Group) : Group :=
  let a : Slot := { Slot.empty with
    pc := x.join, own := x.a.own ||| x.b.own, exm := x.a.exm ||| x.b.exm,
    free := x.a.free.filter fun t => x.b.free.contains t }
  if x.splitSp = 0 then { x with a := a, b := Slot.empty, bLive := false, lastB := false }
  else
    let e := 4 * (x.splitSp.toNat - 1)
    let w0 := x.splitWord e
    let w1 := x.splitWord (e + 1)
    let own : Mask := .ofNat 32 (fld w1 32 32) &&& x.holding
    let pc := keep w0 0xFFFFFFFFFFFFFC
    let exm := own &&& .ofNat 32 (fld w1 0 32)
    let join := keep (x.splitWord (e + 2)) 0xFFFFFFFFFFFFFC
    let b : Slot := { Slot.empty with
      pc := pc, own := own, exm := exm, parked := bit64 w0 0, free := Tab.getD x.stackFree [] (x.splitSp.toNat - 1) }
    let y := { x with a := a, b := b, join := join, splitSp := x.splitSp - 1, lastB := false }
    y.parkAt false

/-- Reconverge while both slots are parked (R193): at most one merge per entry, and one more. -/
def Group.reconverge : Nat → Group → Group
  | 0, x => x
  | n + 1, x => if x.bothParked then Group.reconverge n x.reconverged else x

/-- Split-stack words that a group's reconvergence pops (R62, R193). -/
def Group.pops (x : Group) (g : Nat) : List Spot :=
  let n := (Group.reconverge 65 x).splitSp.toNat
  (List.range (4 * (x.splitSp.toNat - n))).map fun i => .split g (4 * n + i)

/-- Reconverge a group whose slots are both parked (R193); the words it pops are checked (R62). -/
def State.checkJoin (s : State) (g : Nat) : State :=
  match s.checked g fun x => x.pops g with
  | some s => s.modGrp g fun x => Group.reconverge 65 x
  | none => s.freeze g 5

/-- The slot's instruction has issued: the slot goes on at `pc`, or past a re-issue at its own PC. -/
def Slot.goTo (t : Slot) (pc : W64) : Slot :=
  let t := { t with wait := .none, held := false, counted := false, inved := false, wph := none }
  match t.re with
  | some _ => { t with re := none }
  | none => { t with pc := pc }

/-- Move slot `b` to `pc` and park it where that is JOIN (R193). -/
def Group.moveTo (x : Group) (b : Bool) (pc : W64) : Group := (x.setSlot b ((x.slot b).goTo pc)).parkAt b

/-- Address of the word `len` bytes after the slot's instruction. -/
def Group.nextPc (x : Group) (b : Bool) (len : Nat) : W64 := (x.slot b).ipc + w64 len

/-- Store a group and move its slot past an instruction of `len` bytes. -/
def State.retire (s : State) (c : Cur) (x : Group) (len : Nat) : State :=
  (s.setGrp c.g (x.moveTo c.slotB (x.nextPc c.slotB len))).checkJoin c.g

/-- The slot's instruction of `len` bytes waits: it has issued and been counted, and is held. -/
def State.block (s : State) (c : Cur) (x : Group) (w : Wait) (len : Nat) : State :=
  s.setGrp c.g (x.setSlot c.slotB { x.slot c.slotB with wait := w, held := true, wlen := len })

/-- Clear the waits of a group that `p` names: the held instruction issues again. -/
def State.wake (s : State) (g : Nat) (p : Wait → Bool) : State :=
  let clr (t : Slot) : Slot := if p t.wait then { t with wait := .none } else t
  s.modGrp g fun x => { x with a := clr x.a, b := clr x.b }

/-- Clear such waits in every group. -/
def State.wakeAll (s : State) (p : Wait → Bool) : State := s.groups.foldl (fun s e => s.wake e.1 p) s

/-- Complete the held instruction of a slot: it goes on past it, after `delay` ACLK of its fence's invalidation (R51,
R219). -/
def State.release (s : State) (g : Nat) (b : Bool) (delay : Nat) : State :=
  match Tab.get? s.groups g with
  | none => s
  | some x =>
    let y := x.moveTo b (x.nextPc b (x.slot b).wlen)
    let t := y.slot b
    (s.setGrp g (y.setSlot b { t with
      readyAt := max t.readyAt (s.aclk + delay)
      why := if delay = 0 then t.why else 11 })).checkJoin g

/-- Bytes of a length. -/
def lenBytes (l : Len) : Nat := l.bits / 8

/-! ## Taking a trap (R395 to R398) -/

/-- Bits of a slot's PC word (R397). -/
def tpcWord (park live : Bool) (pc : W64) : W64 :=
  w64 (b2n park * 2 ^ 63 + b2n live * 2 ^ 62) ||| keep pc 0xFFFFFFFFFFFFFC

/-- OWN and EXM as one word (R397). -/
def ownExm (own exm : Mask) : W64 := w64 (own.toNat * 2 ^ 32 + exm.toNat)

/-- A resume record (R397, R398, R400): `ipc` is the slot's instruction, which WPH re-issues as a wait. -/
def tresWord (re : Option (W64 × Mask)) (wph : Bool) (ipc : W64) : W64 :=
  match re with
  | some (pc, _) => w64 (2 ^ 63 + b2n wph * 2 ^ 62) ||| keep pc 0xFFFFFFFFFFFFFC
  | none => if wph then w64 (2 ^ 62) ||| keep ipc 0xFFFFFFFFFFFFFC else 0

/-- Lanes of a resume record. -/
def reMask (re : Option (W64 × Mask)) : Nat :=
  match re with
  | some (_, m) => m.toNat
  | none => 0

/-- The trap with no slot's effect: the instruction of slot `b` had none (R398). -/
def Group.trapOf (x : Group) (b : Bool) (cause subc : Nat) (val : W64) (mask : Mask) : Trap :=
  { cause := .ofNat 8 cause, subc := .ofNat 4 subc, defer := false, val := val, mask := mask, slotB := b,
    pc := (x.slot b).pc, ipc := (x.slot b).ipc, re := (x.slot b).re, wph := (x.slot b).wph, seq := x.seq, lvl := x.level }

/-- TCAUSE of a trap (R397). -/
def Trap.word (t : Trap) : W64 := w64 (t.subc.toNat * 2 ^ 20 + b2n t.defer * 2 ^ 16 + t.cause.toNat)

/-- Causes whose trap is not that of a faulting instruction (R398): PREEMPT, BRK and SWTRAP. -/
def Trap.notFault (t : Trap) : Bool := t.cause = 0x09 || t.cause = 0x0A || t.cause = 0x0B

/-- The reported slot's half of TRMSK (R398): TMASK, or zero for a faulting instruction that had no effect; a record of
what to re-issue has its own lanes. -/
def Trap.reHalf (t : Trap) : Nat :=
  match t.re with
  | some _ => reMask t.re
  | none => if t.defer || t.notFault then t.mask.toNat else 0

/-- The continuation PC a trap records for its slot (R398): where the slot stands now when an instruction is to be
re-issued first. -/
def Group.resumePc (x : Group) (t : Trap) (b : Bool) : W64 := if t.re.isSome then (x.slot b).pc else t.pc

/-- The bank trap `t` leaves, the other slot's fault being `o` (R397, R398): the phase stands in TVAL for PREEMPT alone
(R396, R400), and the reported slot's half of TRMSK is TMASK where nothing is re-issued first. -/
def Group.bankOf (x : Group) (t : Trap) (o : Option Trap) (tsave : W64) : TrapBank :=
  let pcOf (b : Bool) : W64 :=
    if t.slotB = b then x.resumePc t b else match o with | some f => x.resumePc f b | none => (x.slot b).pc
  let reOf (b : Bool) : Option (W64 × Mask) :=
    if t.slotB = b then t.re else match o with | some f => f.re | none => (x.slot b).re
  let wphOf (b : Bool) : Bool := if t.slotB = b then t.wph.isSome else (x.slot b).wph.isSome
  let half (b : Bool) : Nat := if t.slotB = b then t.reHalf else reMask (reOf b)
  let ipcOf (b : Bool) : W64 := if t.slotB = b then t.ipc else (x.slot b).ipc
  { tcause := t.word
    tval := match t.wph with | some p => if t.cause = 0x09 then w64 p.toNat else t.val | none => t.val
    tmask := w64 t.mask.toNat
    tsave := tsave
    tpca := tpcWord x.a.parked false (pcOf false)
    tpcb := tpcWord x.b.parked x.bLive (pcOf true)
    tmska := ownExm x.a.own x.a.exm
    tmskb := ownExm x.b.own x.b.exm
    tjoin := keep x.join 0xFFFFFFFFFFFFFC
    tresa := tresWord (reOf false) (wphOf false) (ipcOf false)
    tresb := tresWord (reOf true) (wphOf true) (ipcOf true)
    trmsk := w64 (half true * 2 ^ 32 + half false) }

/-- A level's bank; level 0 has none. -/
def Group.bank (x : Group) (l : Nat) : TrapBank :=
  match l with
  | 1 => x.bank1 | 2 => x.bank2 | _ => TrapBank.reset

/-- Replace a level's bank. -/
def Group.setBank (x : Group) (l : Nat) (b : TrapBank) : Group :=
  match l with
  | 1 => { x with bank1 := b } | 2 => { x with bank2 := b } | _ => x

/-- Lanes of both slots. -/
def Group.allOwn (x : Group) : Mask := if x.bLive then x.a.own ||| x.b.own else x.a.own

/-- An XSHFL that waits for its partner's (R203). -/
def Pend.openExch (p : Pend) : Bool := p.kind = .exch && p.left = 0

/-- An outstanding access, as opposed to a computed result. -/
def Pend.isAcc (p : Pend) : Bool := p.kind ≠ .alu && p.kind ≠ .exch

/-- What a waiting XSHFL or SIGWAIT leaves behind when it is abandoned, to be issued again: nothing. -/
def Pend.lapses (p : Pend) : Bool := p.openExch || p.kind = .sigread

/-- An access that can still fault is outstanding. -/
def Group.accOut (x : Group) : Bool := x.pend.any fun p => p.isAcc && p.kind ≠ .sigread

/-- A fault that must wait for an earlier one's handler: its instruction is to be re-issued (R277). -/
def Trap.later (f : Trap) : Trap := { f with re := some (f.re.getD (f.ipc, f.mask)) }

/-- The group as the handler of the next level finds it (R395): the bank filled, slot A at the handler with
every lane, slot B not live, lookahead windows closed. -/
def Group.entered (x : Group) (t : Trap) (o : Option Trap) (tvec : W64) (now : Nat) : Group :=
  let l := x.level + 1
  let y := x.setBank l (x.bankOf t o (x.bank l).tsave)
  { y with
    level := l
    a := { pc := keep tvec 0xFFFFFFFFFFFFFC, own := x.allOwn, exm := x.allOwn, parked := false, re := none,
           wph := none, wait := .none, held := false, wlen := 0, readyAt := 0 }
    poSaved := (x.a.free, x.b.free, x.poBase) :: x.poSaved
    poBase := x.splitSp.toNat
    b := Slot.empty
    bLive := false
    lastB := false
    switch := false
    pend := (x.pend.filter fun p => !p.lapses).map fun p => { p with win := none }
    faults := (x.faults.filter fun f => f ≠ t ∧ some f ≠ o).map Trap.later
    trap := none
    longSince := none
    readyAt := now + 12
    why := 15 }

/-- Counter `k` of a bank with `n` events more: those of the ACLK of a PMCWR are lost (R320). -/
def PmBank.plus (b : PmBank) (now n : Nat) (t : Tab W64) (k : Nat) : Tab W64 :=
  if Tab.get? b.wrAt k = some now then t else Tab.set t 0 k (Tab.getD t 0 k + w64 n)

/-- Performance events of traps taken are counted by the core's bank of the context (R411). -/
def State.countEvent (s : State) (g ev n : Nat) : State :=
  match Tab.get? s.groups g with
  | none => s
  | some x =>
    let hit (k : Nat) : Bool :=
      let c := Tab.getD (s.ctx x.ctx).pmcfg 0 k
      bit64 c 31 && fld c 0 8 = ev && (x.level = 0 || bit64 c 30) &&
      (4 ≤ fld c 8 4 || fld c 8 4 = schedOf g)
    let bump (b : PmBank) : PmBank :=
      if b.core = coreOf g ∧ b.ctx = x.ctx then
        { b with ctr := (List.range 16).foldl (fun t k => if hit k then b.plus s.aclk n t k else t) b.ctr }
      else b
    { s with pms := s.pms.map bump }

/-- A PREEMPT trap has the group's running loop suspend at its next step boundary (R259). -/
def State.stopLoops (s : State) (g : Nat) : State :=
  let stop (e : Nat × AOp) : Nat × AOp :=
    match e.2.kind with
    | .mloop _ => if e.2.g = g ∧ ¬ e.2.gone ∧ ¬ e.2.susp then (e.1, { e.2 with stopReq := true }) else e
    | _ => e
  { s with ops := s.ops.map stop }

/-- Empty the rendezvous point at which a group waits (R201, R202). -/
def State.leaveRend (s : State) (g : Nat) : State :=
  match Tab.get? s.groups g with
  | none => s
  | some x => s.modBlk x.blk fun b => { b with rend := b.rend.filter fun e => e.2 ≠ g }

/-- Trap entry (R395): level 2 ends the context with ESCALATE; otherwise the group enters the next level. -/
def State.enterTrap (s : State) (g : Nat) (t : Trap) (o : Option Trap) : State :=
  match Tab.get? s.groups g with
  | none => s
  | some x =>
    let c := s.ctx x.ctx
    if 2 ≤ x.level then
      s.endCtx x.ctx 1 (grpid g x.gid) t.cause.toNat t.val t.ipc
    else
      let s := s.countEvent g 0x44 1
      let s := if t.cause = 0x09 then s.countEvent g 0x45 1 else s
      let s := s.trace (dieOf g) 1 c.asid (grpid g x.gid) t.word t.ipc
      let s := if t.cause = 0x09 then s.stopLoops g else s
      (s.leaveRend g).modGrp g fun x => x.entered t o (if x.level = 0 then c.tvec1 else c.tvec2) s.aclk

/-- A register or predicate result of the group is outstanding (R277); an XSHFL that has not met its partner and a
waiting SIGWAIT have not completed, and leave nothing behind (R204, R400). -/
def Group.resultsOut (x : Group) : Bool := x.pend.any fun p => !p.dsts.isEmpty && !p.lapses

/-- A fault that is due: its instruction issued at this level, and its slot has no other instruction to
re-issue first. -/
def Group.faultDue (x : Group) (f : Trap) : Bool := f.lvl = x.level && (x.slot f.slotB).re.isNone

/-- The trap the group takes: its earliest faulted result, or else the trap raised (R277), and the other
slot's fault. -/
def Group.trapDue (x : Group) : Option (Trap × Option Trap) :=
  match x.faults.filter x.faultDue with
  | [] => x.trap.map fun t => (t, none)
  | f :: r =>
    let first := r.foldl (fun a b => if b.seq < a.seq then b else a) f
    some (first, (f :: r).find? fun f => f.slotB ≠ first.slotB)

/-- Enter the trap that is due once no result is outstanding; otherwise wait for the results (R277). -/
def State.settle (s : State) (g : Nat) : State :=
  match Tab.get? s.groups g with
  | none => s
  | some x =>
    if x.resultsOut then s
    else match x.trapDue with
      | some (t, o) => s.enterTrap g t o
      | none => s

/-- Raise a trap in a group: it is entered at once when no result is outstanding (R277, R395). -/
def State.raise (s : State) (g : Nat) (t : Trap) : State :=
  (s.modGrp g fun x => { x with trap := some t }).settle g

/-- Raise a trap at the current instruction, which has had no effect. TMASK is the slot's EXM. -/
def State.trapHere (s : State) (c : Cur) (cause subc : Nat) (val : W64) : State :=
  match Tab.get? s.groups c.g with
  | some x => s.raise c.g (x.trapOf c.slotB cause subc val (x.slot c.slotB).exm)
  | none => s

/-- Raise a trap at the current instruction with its own TMASK. -/
def State.trapMask (s : State) (c : Cur) (cause subc : Nat) (val : W64) (m : Mask) : State :=
  match Tab.get? s.groups c.g with
  | some x => s.raise c.g (x.trapOf c.slotB cause subc val m)
  | none => s

/-- Raise a trap that is taken after its instruction of `len` bytes (R398). -/
def State.trapAfter (s : State) (c : Cur) (cause : Nat) (val : W64) (len : Nat) : State :=
  match Tab.get? s.groups c.g with
  | some x =>
    let t := x.trapOf c.slotB cause 0 val (x.slot c.slotB).exm
    s.raise c.g { t with pc := x.nextPc c.slotB len, re := none }
  | none => s

/-- ILLOP at the current instruction, whose first 64 bits are `w` (R396). -/
def State.illop (s : State) (c : Cur) (w : Nat) : State := s.trapHere c 0x01 0 (w64 w)

/-! ## Returning from a trap (R317) -/

/-- A slot as a bank restores it, of the lanes that hold threads (R185). -/
def slotOfBank (hold : Mask) (tpc tmsk tres : W64) (m : Nat) (tval : W64) (free : List Nat) : Slot :=
  { pc := keep tpc 0xFFFFFFFFFFFFFC
    own := .ofNat 32 (fld tmsk 32 32) &&& hold
    exm := .ofNat 32 (fld tmsk 32 32) &&& hold &&& .ofNat 32 (fld tmsk 0 32)
    parked := bit64 tpc 63
    re := if bit64 tres 63 then some (keep tres 0xFFFFFFFFFFFFFC, .ofNat 32 m) else none
    wph := if bit64 tres 62 then some (.ofNat 16 (fld tval 0 16)) else none
    wait := .none
    held := false
    wlen := 0
    readyAt := 0
    free := free }

/-- The group after TRET from level `l`: slots, masks, flags and JOIN from TPC[l], one level down; a slot whose PC is
JOIN parks (R193). What the handler did precedes both slots in program order (R136). -/
def Group.returned (x : Group) (l : Nat) : Group :=
  let b := x.bank l
  let (fa, fb, base) := x.poSaved.headD ([], [], 0)
  let y := { x with
    level := l - 1
    a := slotOfBank x.holding b.tpca b.tmska b.tresa (fld b.trmsk 0 32) b.tval fa
    b := slotOfBank x.holding b.tpcb b.tmskb b.tresb (fld b.trmsk 32 32) b.tval fb
    bLive := bit64 b.tpcb 62
    join := keep b.tjoin 0xFFFFFFFFFFFFFC
    lastB := false
    switch := false
    poSaved := x.poSaved.drop 1
    poBase := base }
  (y.parkAt false).parkAt true

/-! ## The current group -/

/-- Run `f` on the current group; without one the program instruction faults. -/
def withCur (s : State) (f : Cur → Group → State) : Out :=
  match s.cur with
  | none => .fault .noGroup
  | some c =>
    match Tab.get? s.groups c.g with
    | none => .fault .noGroup
    | some x => .next (f c x)

/-- A uniform form (R274): with a false predicate it only moves past itself. -/
def uniform (h : Hd) (len : Nat) (s : State) (f : Cur → Group → State) : Out :=
  withCur s fun c x => if x.uniPred h then f c x else s.retire c x len

/-! ## Results to come (R275, R276, R324) -/

/-- A result outstanding for slot `b`'s current instruction of `len` bytes. `la` is the window of a
long-latency form, zero for a re-issue (R277); a short form has none. -/
def Group.newPend (x : Group) (b : Bool) (kind : AccKind) (len : Nat) (la : Option Nat) (now : Nat)
    (dsts : List Dst) : Pend :=
  { tag := x.nextTag, kind := kind, slotB := b, pc := (x.slot b).ipc, next := x.nextPc b len, issue := now,
    long := la.isSome, win := la.map fun k => if (x.slot b).re.isSome then 0 else k, taken := 0, dsts := dsts,
    wr := [], lanes := [], got := [], old := [], left := 0, bad := [], ldst := none, missed := false,
    acq := none, noInst := false, ro := false, lvl := x.level, seq := x.seq, exm := (x.slot b).lanes,
    re := (x.slot b).re.isSome, bars := false }

/-- An access of slot `b` does not precede the other slot, nor the split-stack entries of the level (R136); tags no
longer outstanding are dropped. -/
def Group.apart (x : Group) (b : Bool) (tag : Nat) : Group :=
  let add (l : List Nat) : List Nat := tag :: l.filter fun t => x.pend.any fun q => q.tag = t
  let y := if x.bLive then x.setSlot (!b) { x.slot !b with free := add (x.slot !b).free } else x
  { y with stackFree := (List.range x.splitSp.toNat).filterMap fun i =>
      if x.poBase ≤ i then some (i, add (Tab.getD x.stackFree [] i)) else (Tab.get? x.stackFree i).map fun l => (i, l) }

/-- Add an outstanding result. -/
def Group.addPend (x : Group) (p : Pend) : Group :=
  let y := { x with pend := x.pend ++ [p], nextTag := p.tag + 1 }
  if p.isAcc ∧ (x.bLive ∨ x.splitSp ≠ 0) then y.apart p.slotB p.tag else y

/-- Accesses that joined a group's program order from groups fused into it (R136, R201). -/
def State.joined (s : State) (g : Nat) : List Pend :=
  (s.ghosts.filter fun e => e.heir = some g).flatMap fun e => e.pend.filter Pend.isAcc

/-- The accesses not yet answered that precede the slot's instruction in program order (R136). -/
def State.before (s : State) (c : Cur) (x : Group) : List Pend :=
  (x.pend.filter fun p => p.isAcc && !((x.slot c.slotB).free.contains p.tag)) ++ s.joined c.g

/-- The register a destination names; ZERO and P0 name none (R40, R272). -/
def dstsOf : Opnd → List Dst
  | .v n => [.v n.toNat]
  | .s n => [.s n.toNat]
  | .preg k => if k = 0 then [] else [.p k.toNat]
  | _ => []

/-- The destination is pending until the writes `wr` are made `dt` ACLK from now; with none nothing is. -/
def State.pendFor (s : State) (c : Cur) (x : Group) (ds : List Dst) (wr : List RegWr) (dt : Nat)
    (la : Option Nat) (len : Nat) : State × Group :=
  match ds with
  | [] => (s, x)
  | _ =>
    let p := { x.newPend c.slotB .alu len la s.aclk ds with wr := wr }
    (s.post dt (.resultWriteback c.g p.tag), x.addPend p)

/-- Issue a form whose writes arrive `dt` ACLK from now (R324). -/
def State.result (s : State) (c : Cur) (x : Group) (ds : List Dst) (wr : List RegWr) (dt : Nat)
    (la : Option Nat) (len : Nat) : State :=
  let (s, x) := s.pendFor c x ds wr dt la len
  s.retire c x len

end Sys2Proof.Machine
end

