-- ==== Sys2Proof/Machine/Xlate.lean ====
section
/-! DEFINITION. Virtual addresses at the core, the line hash, page-table walks and the MTLB
(R17, R18, R21, R22, R26, R74, R75, R92 to R101). -/

namespace Sys2Proof.Machine

/-! ## At the core (R17, R18) -/

/-- Owner die of a virtual address. -/
def vaDie (va : W64) : Nat := fld va 54 2

/-- Outcome of the core's checks of an address. -/
inductive VaSt where
  | ok | unmapped | absent | frozen
  deriving DecidableEq, Repr

/-- The checks of R17 and R18 for an agent on die `d` of context `c`. -/
def vaCheck (s : State) (c : Ctx) (d : Nat) (va : W64) : VaSt :=
  if fld va 56 8 ≠ 0 then .unmapped
  else if (s.die d).absdie.toNat / 2 ^ vaDie va % 2 = 1 then .absent
  else if c.pdmask.toNat / 2 ^ vaDie va % 2 = 0 then .frozen
  else .ok

/-- A range of `n` bytes lies within one owner die's offset space (R17). -/
def oneDie (va : W64) (n : Nat) : Bool :=
  fld va 56 8 = 0 && (n = 0 || va.toNat % 2 ^ 54 + n ≤ 2 ^ 54)

/-- XLATE subcause codes (R101). -/
def scUnmapped : Nat := 1
def scPerm : Nat := 2
def scAbsent : Nat := 3
def scAlign : Nat := 4

/-! ## Links (R21, R22, R75) -/

/-- Links a packet crosses from one die to another; link k joins dies k and k + 1. -/
def linksOf (a b : Nat) : List Nat :=
  match (b + 4 - a) % 4 with
  | 0 => []
  | 1 => [a % 4]
  | 3 => [b % 4]
  | _ => [a % 4, (a + 1) % 4]

/-- A link of the path is down (R75). -/
def State.pathDown (s : State) (a b : Nat) : Bool :=
  (linksOf a b).any fun k => (Tab.getD s.links Link.reset k).down

/-! ## The line hash (R26) -/

/-- XOR of numbers. -/
def xorAll (l : List Nat) : Nat := l.foldl (fun a b => a ^^^ b) 0

/-- Home slice of a die-physical address. -/
def homeSlice (a : Nat) : Nat :=
  xorAll [bitsN a 9 5, bitsN a 14 5, bitsN a 19 5, bitsN a 24 5, bitsN a 29 5, bitsN a 34 3]

/-- Home bank within the slice. -/
def homeBank (a : Nat) : Nat := xorAll [bitsN a 14 2, bitsN a 21 2, bitsN a 28 2, bitsN a 35 2]

/-- Die-local pseudo-channel (R26). -/
def pseudoChannel (a : Nat) : Nat :=
  3 * xorAll [bitsN a 9 6, bitsN a 15 6, bitsN a 21 6, bitsN a 27 6, bitsN a 33 4] + bitsN a 9 28 % 3

/-- Local stack of a pseudo-channel, and its number within the stack (R26). -/
def stackOf (c : Nat) : Nat := c / 96
def pchanOf (c : Nat) : Nat := c % 96

/-- Where HBM4E holds a die-physical address (R26, R86): the local stack, and the pseudo-channel in it. -/
def hbmPlace (a : Nat) : Nat × Nat := (stackOf (pseudoChannel a), pchanOf (pseudoChannel a))

/-- Translating slice of a virtual address (R74). -/
def xslice (va : Nat) : Nat :=
  xorAll [bitsN va 16 5, bitsN va 21 5, bitsN va 26 5, bitsN va 31 5, bitsN va 36 5, bitsN va 41 5,
    bitsN va 46 5, bitsN va 51 3]

/-! ## Walks (R94 to R98) -/

/-- Level of the tables: shift of its index, entries, bits of a page a leaf maps. -/
structure PtLevel where
  shift : Nat
  entries : Nat
  deriving DecidableEq, Repr

/-- The four levels (R95). -/
def ptLevels : List PtLevel := [⟨42, 4096⟩, ⟨30, 4096⟩, ⟨21, 512⟩, ⟨16, 32⟩]

/-- A translation: the leaf, its page size (0 64 KiB, 1 2 MiB, 2 1 GiB) and the levels read. -/
structure Leaf where
  bits : W64
  size : Nat
  levels : Nat
  deriving DecidableEq, Repr

/-- Bits of a page size. -/
def pageBits (size : Nat) : Nat := match size with | 0 => 16 | 1 => 21 | _ => 30

/-- A leaf entry at level `lv` passes the form checks of R97. -/
def leafOk (e lv : Nat) : Bool :=
  let pb := match lv with | 1 => 30 | 2 => 21 | _ => 16
  lv ≠ 0 && bitsN e 37 27 = 0 && bitsN e 8 8 = 0 && bitsN e 16 (pb - 16) = 0 &&
  bitsN e 16 21 * 2 ^ 16 + 2 ^ pb ≤ dpaLimit

/-- A pointer entry at level `lv` passes the form checks of R97. -/
def ptrOk (e lv : Nat) : Bool :=
  lv ≠ 3 && bitsN e 37 27 = 0 && bitsN e 2 6 = 0 &&
  (match lv with
    | 0 => bitsN e 8 7 = 0 && bitsN e 8 29 * 2 ^ 8 + 2 ^ 15 ≤ dpaLimit
    | 1 => bitsN e 8 4 = 0 && bitsN e 8 29 * 2 ^ 8 + 2 ^ 12 ≤ dpaLimit
    | _ => bitsN e 8 29 * 2 ^ 8 + 2 ^ 8 ≤ dpaLimit)

/-- Why a walk stops without a leaf: the address of a well-placed level-3 entry with V = 0, or a check
failed elsewhere. -/
inductive WalkEnd where
  | leaf (l : Leaf)
  | empty3 (entry : Nat)
  | bad
  deriving DecidableEq, Repr

/-- Walk the levels from table `t` of a die; `lv` is the level read next. -/
def walkFrom (s : State) (die va : Nat) : List PtLevel → Nat → Nat → WalkEnd
  | [], _, _ => .bad
  | p :: r, lv, t =>
    let at' := t + 8 * (va / 2 ^ p.shift % p.entries)
    let e := s.readNum (paddr die at') 8
    if e % 2 = 0 then (if lv = 3 then .empty3 at' else .bad)
    else if e / 2 % 2 = 1 then
      if leafOk e lv then .leaf ⟨w64 e, 3 - lv, lv + 1⟩ else .bad
    else if ptrOk e lv then walkFrom s die va r (lv + 1) (bitsN e 8 29 * 2 ^ 8)
    else .bad

/-- XROOTn takes a value: a valid root written over before a shootdown of its whole ASID stays in use beside the new
one until the next (R94). DEDUCED (assumption 58). -/
def Die.rootWrite (d : Die) (n : Nat) (x : W64) : Die :=
  let old := Tab.getD d.xroot 0 n
  let asid (w : W64) : BitVec 16 := .ofNat 16 (fld w 48 16)
  let late := bit64 old 0 && old != x && !d.xshot.contains (asid old)
  { d with
    xroot := Tab.put d.xroot n x
    xold := if late then old :: d.xold else d.xold
    xshot := if bit64 x 0 then d.xshot.filter fun a => a ≠ asid x else d.xshot }

/-- The lowest-numbered valid root of an ASID on a die, with its number (R94). -/
def State.rootOf (s : State) (die : Nat) (asid : BitVec 16) : Option (Nat × W64) :=
  (s.die die).xroot.find? fun r => bit64 r.2 0 && fld r.2 48 16 = asid.toNat

/-- The root a walk uses: the present one, or an old one still in use (R94). -/
def State.rootFor (s : State) (die : Nat) (asid : BitVec 16) : Option W64 :=
  let now := (s.rootOf die asid).map fun r => r.2
  match (s.die die).xold.filter fun r => fld r 48 16 = asid.toNat with
  | [] => now
  | l => ((now :: l.map some)[(Config.oldRoot s.aclk die asid.toNat).toNat % (l.length + 1)]?).getD now

/-- The walk of an address from its root (R94, R95); a level-0 table past the populated range is refused. -/
def walk (s : State) (die : Nat) (asid : BitVec 16) (va : Nat) : Option WalkEnd :=
  match s.rootFor die asid with
  | none => none
  | some r =>
    let t := fld r 15 22 * 2 ^ 15
    if t + 2 ^ 15 ≤ dpaLimit then some (walkFrom s die va ptLevels 0 t) else some .bad

/-- The table entries a walk reads, level by level, as die-physical addresses. -/
def walkReads (s : State) (die va : Nat) : List PtLevel → Nat → Nat → List Nat
  | [], _, _ => []
  | p :: r, lv, t =>
    let at' := t + 8 * (va / 2 ^ p.shift % p.entries)
    let e := s.readNum (paddr die at') 8
    at' :: (if e % 2 = 1 ∧ e / 2 % 2 = 0 ∧ ptrOk e lv then walkReads s die va r (lv + 1) (bitsN e 8 29 * 2 ^ 8) else [])

/-- The entries the walk of an address reads. -/
def State.walkLines (s : State) (die : Nat) (asid : BitVec 16) (va : Nat) : List Nat :=
  match s.rootFor die asid with
  | none => []
  | some r =>
    let t := fld r 15 22 * 2 ^ 15
    if t + 2 ^ 15 ≤ dpaLimit then walkReads s die va ptLevels 0 t else []

/-- Permissions a leaf gives an access (R96, R97). -/
def leafPermits (bits : W64) (n : Need) (peer : Bool) : Bool :=
  (!peer || bit64 bits 6) &&
  (match n with
    | .r => bit64 bits 2
    | .w => bit64 bits 3
    | .rw => bit64 bits 2 && bit64 bits 3
    | .x => bit64 bits 4)

/-! ## The MTLB (R99, R106) -/

/-- The MTLB entry of a leaf for an address. -/
def mtlbEntry (asid : BitVec 16) (va : Nat) (l : Leaf) (pinned : Bool) (now : Nat) : MtlbEntry :=
  { slice := xslice va, set := bitsN va 21 8 ^^^ asid.toNat % 256, asid := asid, size := l.size,
    vpn := va % 2 ^ 54 / 2 ^ pageBits l.size, page := fld l.bits 16 21, r := bit64 l.bits 2,
    w := bit64 l.bits 3, x := bit64 l.bits 4, p := bit64 l.bits 5, pe := bit64 l.bits 6, nr := bit64 l.bits 7,
    pinned := pinned, used := now }

/-- The entry serves the address. -/
def MtlbEntry.hits (e : MtlbEntry) (asid : BitVec 16) (va : Nat) : Bool :=
  e.asid = asid && e.slice = xslice va && e.set = (bitsN va 21 8 ^^^ asid.toNat % 256) &&
  e.vpn = va % 2 ^ 54 / 2 ^ pageBits e.size

/-- The entry's leaf word. -/
def MtlbEntry.leaf (e : MtlbEntry) : W64 :=
  w64 (e.page * 2 ^ 16 + b2n e.nr * 128 + b2n e.pe * 64 + b2n e.p * 32 + b2n e.x * 16 + b2n e.w * 8 +
    b2n e.r * 4 + 3)

/-- An element of a list by a free choice. -/
def pickOf {α : Type} (l : List α) (n : Nat) : Option α := l[(Config.victim n).toNat % max 1 l.length]?

/-- Install an entry: at most 16 ways of a set, at most 4 of them pinned. Which ordinary entry leaves a full set is
open (R99). -/
def mtlbInstall (l : List MtlbEntry) (e : MtlbEntry) (n : Nat) : List MtlbEntry :=
  let l := l.filter fun x => ¬ (x.slice = e.slice ∧ x.set = e.set ∧ x.asid = e.asid ∧ x.size = e.size ∧ x.vpn = e.vpn)
  let same := l.filter fun x => x.slice = e.slice ∧ x.set = e.set
  let e := if e.pinned ∧ 4 ≤ (same.filter fun x => x.pinned).length then { e with pinned := false } else e
  if same.length < 16 then e :: l
  else match pickOf (same.filter fun x => !x.pinned) n with
    | some v => e :: l.erase v
    | none => l

/-- A translated address. -/
structure Xl where
  pa : Nat                                 -- die-physical address
  nr : Bool
  leaf : W64
  deriving DecidableEq, Repr

/-- The physical address a leaf gives. -/
def leafPa (bits : W64) (size va : Nat) : Nat := fld bits 16 21 * 2 ^ 16 + va % 2 ^ pageBits size

/-- What the MTLB gives without a walk: an entry whose permissions suffice. DESIGN CHOICE (assumption 115): of several
entries that match, R99 lets any be used; the first of the list is. -/
def State.mtlbHit (s : State) (die : Nat) (asid : BitVec 16) (va : Nat) (n : Need) (peer : Bool) : Option Xl :=
  match (s.die die).mtlb.find? fun e => e.hits asid va with
  | some e =>
    if leafPermits e.leaf n peer then some ⟨leafPa e.leaf e.size va, e.nr, e.leaf⟩ else none
  | none => none

/-- Walk after a miss or a refusing hit (R99): the refusing entry is invalidated; a walk that succeeds
installs its entry, pinned if the invalidated one was or `pin` asks it. -/
def State.walkXlate (s : State) (die : Nat) (asid : BitVec 16) (va : Nat) (n : Need) (peer pin install : Bool) :
    State × Except Nat Xl :=
  let was := (s.die die).mtlb.any fun e => e.hits asid va && e.pinned
  let s := s.modDie die fun d => { d with mtlb := d.mtlb.filter fun e => !e.hits asid va }
  match walk s die asid va with
  | some (.leaf l) =>
    if leafPermits l.bits n peer then
      let s := if install then
          (s.modDie die fun d =>
            { d with mtlb := mtlbInstall d.mtlb (mtlbEntry asid va l (was || pin) s.aclk) s.fresh }).tickFree
        else s
      (s, .ok ⟨leafPa l.bits l.size va, bit64 l.bits 7, l.bits⟩)
    else (s, .error scPerm)
  | _ => (s, .error scUnmapped)

/-- Translate at the owner die, walking on a miss (R92, R99). -/
def State.xlate (s : State) (die : Nat) (asid : BitVec 16) (va : Nat) (n : Need) (peer pin : Bool) :
    State × Except Nat Xl :=
  match s.mtlbHit die asid va n peer with
  | some x => (s, .ok x)
  | none => s.walkXlate die asid va n peer pin true

/-- Entries of an address whose parity is bad when it is looked up leave the MTLB (R99). -/
def State.mtlbChecked (s : State) (die : Nat) (asid : BitVec 16) (va : Nat) : State :=
  if s.upsets.isEmpty then s
  else s.modDie die fun d =>
    { d with mtlb := d.mtlb.filter fun e => !(e.hits asid va && s.upset (.mtlb die asid e.vpn) ≠ 0) }

/-- A lookup that hits nothing it may use: an entry that refuses the access leaves the MTLB; whether it was pinned
(R99). -/
def State.mtlbRefused (s : State) (die : Nat) (asid : BitVec 16) (va : Nat) : State × Bool :=
  (s.modDie die fun d => { d with mtlb := d.mtlb.filter fun e => !e.hits asid va },
   (s.die die).mtlb.any fun e => e.hits asid va && e.pinned)

/-- ACLK at which a new walk of a slice can start: at once, or when one of the four under way ends (R100). -/
def Die.walkStart (d : Die) (slice now : Nat) : Nat :=
  let dues := (d.walks.filter fun w => w.slice = slice ∧ now < w.due).foldl (fun l w => insBy id w.due l) []
  if dues.length < 4 then now else (dues[dues.length - 4]?).getD now

/-- A walk for an address from ACLK `t0` on that takes `n` ACLK, or the one of its page under way; when it ends (R100). -/
def State.walkFor (s : State) (die : Nat) (asid : BitVec 16) (va t0 n : Nat) (pin : Bool) : State × Nat :=
  let d := s.die die
  let page := va % 2 ^ 56 / 2 ^ 16
  match d.walks.find? fun w => w.asid = asid ∧ w.page = page ∧ t0 ≤ w.due with
  | some w =>
    let join (u : Walk) : Walk := if u = w then { u with pin := u.pin || pin } else u
    (if pin then s.modDie die fun d => { d with walks := d.walks.map join } else s, w.due)
  | none =>
    let due := d.walkStart (xslice va) t0 + n
    (s.modDie die fun d => { d with walks := d.walks ++ [⟨xslice va, asid, page, due, false, pin⟩] }, due)

/-- The L2 of a die holds the sector of a die-physical address (R76). -/
def State.l2Has (s : State) (die a : Nat) : Bool :=
  (s.die die).l2.any fun l => l.line = a / 512 ∧ l.valid.toNat / 2 ^ (a / 128 % 4) % 2 = 1

/-- ACLK a walk takes (R100): 48 for each level it reads, 288 for each table line that misses L2, and 16 to install
the leaf where it finds one. -/
def State.walkTime (s : State) (die : Nat) (asid : BitVec 16) (va : Nat) (n : Need) (peer : Bool) : Nat :=
  let reads := s.walkLines die asid va
  let miss := (reads.filter fun a => !s.l2Has die a).length
  let ok := match walk s die asid va with
    | some (.leaf l) => leafPermits l.bits n peer
    | _ => false
  48 * reads.length + 288 * miss + (if ok then 16 else 0)

end Sys2Proof.Machine
end

