-- ==== Sys2Proof/Machine/L2.lean ====
section
/-! DEFINITION. The L2: which bank holds a line, and the sectors it holds (R76, R77, R80, R83). -/

namespace Sys2Proof.Machine

/-- A bank's lines are held by another (R80). -/
def Bank.away (b : Bank) : Bool :=
  match b.mode with
  | .cache => false
  | .entering => b.redir
  | .agate | .leaving => true

/-- The bank of a slice that holds the lines that hash to bank `b`: the first in cache mode in R80's order, or none
when the slice serves them uncached; a bank serves until its AGON's write-back is done. -/
def State.holder (s : State) (die slice b : Nat) : Option Nat :=
  let key (i : Nat) : Nat := die * 128 + slice * 4 + i
  if !(s.bank (key b)).away then some (slice * 4 + b)
  else (([b ^^^ 1, b ^^^ 2, b ^^^ 3].filter fun i => !(s.bank (key i)).away).head?).map fun i => slice * 4 + i

/-- Sectors of a line an L2 lacks. -/
def State.l2Lacks (s : State) (die line : Nat) (m : BitVec 4) : Bool :=
  match (s.die die).l2.find? fun l => l.line = line with
  | some l => m &&& ~~~l.valid ≠ 0
  | none => m ≠ 0

/-- Touch sectors of a line in the bank that holds it: they become valid, and dirty where written. A full set
loses one of its 16 lines, which one is open; the sharers of a lost line stay known (R76, R83). -/
def State.l2Touch (s : State) (die line : Nat) (m : BitVec 4) (dirty : Bool) : State :=
  let slice := homeSlice (line * 512)
  let b := homeBank (line * 512)
  let dm : BitVec 4 := if dirty then m else 0
  match s.holder die slice b with
  | none => s
  | some k =>
    let redir := k ≠ slice * 4 + b
    let upd (d : Die) : Die :=
      let old := (d.l2.find? fun l => l.line = line).getD ⟨k, line, 0, 0, 0, redir, s.aclk⟩
      let rest := d.l2.filter fun l => l.line ≠ line
      let same := rest.filter fun l => l.bank = k ∧ l.line / 128 % 128 = line / 128 % 128 ∧ l.valid ≠ 0
      let rest := if same.length < 16 then rest else
        match pickOf same s.fresh with
        | some v => (if v.sharers = 0 then [] else [{ v with valid := 0, dirty := 0 }]) ++ rest.erase v
        | none => rest
      { d with l2 := { old with bank := k, valid := old.valid ||| m, dirty := old.dirty ||| dm, redir := redir,
                                used := s.aclk } :: rest }
    (s.modDie die upd).tickFree

end Sys2Proof.Machine
end

