-- ==== Sys2Proof/Machine/Fetch.lean ====
section
/-! DEFINITION. Instruction fetch: the instruction cache, its fills, and the checks of a transfer's target
(R55, R101, R102, R265 to R267, R306, R308). -/

namespace Sys2Proof.Machine

/-! ## Latencies (R91) -/

/-- Load latency from the number of hops, L2 hit (R91). -/
def hopLat (h : Nat) : Nat := match h with | 0 => 112 | 1 => 272 | _ => 384

/-- Unloaded latency of a load that misses L1, from die `d` to address `va` (R91, R100). -/
def State.missLat (s : State) (d : Nat) (asid : BitVec 16) (va : Nat) (n : Need) : Nat :=
  let o := bitsN va 54 2
  let base := hopLat (hops d o)
  let home (pa : Nat) : Nat := if s.l2Has o pa then 0 else 288
  match s.mtlbHit o asid va n false with
  | some x => base + home x.pa
  | none =>
    base + s.walkTime o asid va n false +
      match walk s o asid va with
      | some (.leaf l) => home (leafPa l.bits l.size va)
      | _ => 0

/-- The latency of a request that is injected now and misses the caches of its die, from its issue: its walk takes a place
among those of its translating slice (R91, R100). -/
def State.missGo (s : State) (d : Nat) (asid : BitVec 16) (va : Nat) (n : Need) : State × Nat :=
  let o := bitsN va 54 2
  let base := hopLat (hops d o)
  let home (pa : Nat) : Nat := if s.l2Has o pa then 0 else 288
  let s := s.mtlbChecked o asid va
  match s.mtlbHit o asid va n false with
  | some x => (s, base + home x.pa)
  | none =>
    let (s, pin) := s.mtlbRefused o asid va
    let t0 := s.aclk + 16 + (if d = o then 0 else 48) + 56 * hops d o
    let (s, due) := s.walkFor o asid va t0 (s.walkTime o asid va n false) pin
    (s, base + (due - t0) +
      match walk s o asid va with
      | some (.leaf l) => home (leafPa l.bits l.size va)
      | _ => 0)

/-! ## The instruction cache (R55) -/

/-- The 32-byte block of an address. -/
def blkOf (va : W64) : Nat := va.toNat % 2 ^ 56 / 32

/-- A block the cache holds: it is taken from the one copy of its 128-byte line. -/
def Core.icBlock (c : Core) (asid : BitVec 16) (b : Nat) : Option (List Byte) :=
  (c.ic.find? fun l => l.asid = asid ∧ l.line = b / 4).map fun l => (l.data.drop (b % 4 * 32)).take 32

/-- Install a line: 128 sets of 8 ways (R55). DESIGN CHOICE (assumption 105): R55 names no replacement policy; the line
filled longest ago leaves. -/
def Core.icInstall (c : Core) (asid : BitVec 16) (line : Nat) (bytes : List Byte) (now : Nat) : Core :=
  let rest := c.ic.filter fun l => ¬ (l.asid = asid ∧ l.line = line)
  let same := rest.filter fun l => l.line % 128 = line % 128
  let old := same.foldl (fun a l => min a l.used) now
  let rest := if same.length < 8 then rest else
    match same.find? fun l => l.used = old with
    | some v => rest.erase v
    | none => rest
  { c with ic := ⟨asid, line, bytes, now⟩ :: rest }

/-- What a fetch of a block finds. -/
inductive FetchSt where
  | hit (bytes : List Byte)
  | refused (subc : Nat)
  | pending
  | miss
  deriving DecidableEq, Repr

/-- State of a block's fetch on a core. -/
def State.fetchSt (s : State) (core : Nat) (asid : BitVec 16) (b : Nat) : FetchSt :=
  let c := s.core core
  match c.icBlock asid b with
  | some l => .hit l
  | none =>
    match c.icPend.find? fun p => p.1 = asid ∧ p.2.1 = b / 4 with
    | some (_, _, some sc) => .refused sc.toNat
    | some (_, _, none) => .pending
    | none => .miss

/-- Ask for a block that misses: its line comes (R55). DEDUCED (assumption 20): the cache holds whole lines. -/
def State.fetchAsk (s : State) (core : Nat) (asid : BitVec 16) (b : Nat) (cls : BitVec 2) : State :=
  let s := s.modCore core fun c => { c with icPend := (asid, b / 4, none) :: c.icPend }
  { s with outbox := s.outbox ++ [(s.aclk + 16, .fetch core asid b cls)] }

/-- A fetch's request is injected (R91). -/
def State.fetchGo (s : State) (core : Nat) (asid : BitVec 16) (b : Nat) : State :=
  let (s, n) := s.missGo (dieOfCore core) asid (b * 32) .x
  s.post (n - 16) (.ifetchFill core asid b)

/-- Forget a refused fetch, so that the next attempt asks again (R99). -/
def State.fetchForget (s : State) (core : Nat) (asid : BitVec 16) (b : Nat) : State :=
  s.modCore core fun c => { c with icPend := c.icPend.filter fun p => ¬ (p.1 = asid ∧ p.2.1 = b / 4) }

/-- A missed block arrives: it is translated for execution and installed, or its refusal is kept for the
instruction that needs it (R55, R97, R102). -/
def State.fetchFill (s : State) (core : Nat) (asid : BitVec 16) (b : Nat) : State :=
  let die := bitsN (b * 32) 54 2
  let s := s.fetchForget core asid b
  let refuse (s : State) (sc : Nat) : State :=
    s.modCore core fun c => { c with icPend := (asid, b / 4, some (.ofNat 4 sc)) :: c.icPend }
  if s.pathDown (dieOfCore core) die then refuse s scAbsent
  else
    match s.xlate die asid (b * 32) .x false false with
    | (s, .error sc) => refuse s sc
    | (s, .ok x) =>
      let pa := x.pa / 128 * 128
      let s := s.l2Touch die (pa / 512) (.ofNat 4 (2 ^ (pa / 128 % 4))) false
      s.modCore core fun c => c.icInstall asid (b / 4) (s.readBytes (paddr die pa) 128) s.aclk

/-- The instruction whose first byte is at `pc` in a fetched block: a word that crosses the block is refused
(R267). -/
def wordAt (blk : List Byte) (pc : W64) : Except DecodeError (Instr × Nat) :=
  let r := blk.drop (pc.toNat % 32)
  let w := natOfBytes r
  let n := wordBits w / 8
  if r.length < n then .error (.reserved 0)
  else match decode (w % 2 ^ (8 * n)) with
    | .ok i => .ok (i, n)
    | .error e => .error e

/-- The instruction word at `pc` crosses its 32-byte block (R267). -/
def crosses (blk : List Byte) (pc : W64) : Bool :=
  let r := blk.drop (pc.toNat % 32)
  r.length < wordBits (natOfBytes r) / 8

/-! ## Transfer targets (R306, R308) -/

/-- Outcome of a target's checks; `wait` while its block is on the way. -/
inductive TgtSt where
  | ok | align | unmapped | absent | frozen | perm | landv | wait
  deriving DecidableEq, Repr

/-- Check a target; `land`: the landing check applies. A freeze goes before every trap (R18). -/
def State.target (s : State) (g : Nat) (x : Group) (land : Bool) (t : W64) : TgtSt :=
  let va := vaCheck s (s.ctx x.ctx) (dieOf g) t
  if fld t 0 2 ≠ 0 then (if va = .frozen then .frozen else .align)
  else match va with
    | .unmapped => .unmapped
    | .absent => .absent
    | .frozen => .frozen
    | .ok =>
      match s.fetchSt (coreOf g) (s.asidAt x.ctx (coreOf g)) (blkOf t) with
      | .miss | .pending => .wait
      | .refused sc => if sc = 2 then .perm else if sc = 3 then .absent else .unmapped
      | .hit b =>
        if land then
          match wordAt b t with
          | .ok (.land _, _) => .ok
          | _ => .landv
        else .ok

/-- Rank of a failure among the causes of R308. -/
def tgtRank : TgtSt → Nat
  | .align => 0 | .unmapped => 1 | .absent => 2 | .perm => 3 | .landv => 4 | _ => 5

/-- Cause and subcause of a failure. -/
def tgtCause : TgtSt → Nat × Nat
  | .align => (0x05, 0) | .unmapped => (0x04, 1) | .absent => (0x04, 3) | .perm => (0x04, 2) | _ => (0x06, 0)

/-- What the targets of a transfer decide together, lane by lane (R308). -/
inductive TgtAll where
  | go
  | wait (s : State)
  | freeze
  | trap (cause subc : Nat) (val : W64) (bad : Mask) (s : State)

/-- Check every lane's target: a freeze first, then a wait for the blocks still to be fetched, then the first
cause any lane meets; refused fetches are forgotten, so that a re-issue fetches again. -/
def State.targets (s : State) (g : Nat) (x : Group) (land : Bool) (ts : List (Nat × W64)) : TgtAll :=
  let st := ts.map fun t => (t.1, t.2, s.target g x land t.2)
  let asid := s.asidAt x.ctx (coreOf g)
  let core := coreOf g
  if st.any fun t => t.2.2 = .frozen then .freeze
  else if st.any fun t => t.2.2 = .wait then
    .wait (st.foldl (fun s t =>
      if t.2.2 = .wait ∧ s.fetchSt core asid (blkOf t.2.1) = .miss then s.fetchAsk core asid (blkOf t.2.1) (s.blk x.blk).cls
      else s) s)
  else
    let bad := st.filter fun t => t.2.2 ≠ .ok
    match bad with
    | [] => .go
    | b :: r =>
      let best := r.foldl (fun a t => min a (tgtRank t.2.2)) (tgtRank b.2.2)
      match bad.find? fun t => tgtRank t.2.2 = best with
      | none => .go
      | some t =>
        let s := bad.foldl (fun s t => s.fetchForget core asid (blkOf t.2.1)) s
        .trap (tgtCause t.2.2).1 (tgtCause t.2.2).2 t.2.1 (Mask.of fun l => bad.any fun b => b.1 = l) s

end Sys2Proof.Machine
end

