-- ==== Sys2Proof/Machine/Float.lean ====
section
/-! DEFINITION. Floating-point formats, exact arithmetic and the one rounding (R221 to R232). -/

namespace Sys2Proof.Machine

/-! ## Formats (R221) -/

/-- What a format does with infinities and NaNs. -/
inductive FKind where
  | ieee                                   -- infinity and NaN
  | nanOnly                                -- E4M3: one NaN, no infinity
  | finite                                 -- no infinity, no NaN
  | scale                                  -- E8M0
  deriving DecidableEq, Repr

/-- A floating-point format: width, exponent bits, bias and mantissa bits. -/
structure FFmt where
  w : Nat
  eb : Nat
  bias : Nat
  mb : Nat
  kind : FKind
  deriving DecidableEq, Repr

/-- The format of a type; an integer type has none and reads as F64. -/
def fmtOf : Ty → FFmt
  | .f32 => ⟨32, 8, 127, 23, .ieee⟩
  | .f16 => ⟨16, 5, 15, 10, .ieee⟩
  | .bf16 => ⟨16, 8, 127, 7, .ieee⟩
  | .e5m2 => ⟨8, 5, 15, 2, .ieee⟩
  | .e4m3 => ⟨8, 4, 7, 3, .nanOnly⟩
  | .e3m2 => ⟨6, 3, 3, 2, .finite⟩
  | .e2m3 => ⟨6, 2, 1, 3, .finite⟩
  | .e2m1 => ⟨4, 2, 1, 1, .finite⟩
  | .e8m0 => ⟨8, 8, 127, 0, .scale⟩
  | _ => ⟨64, 11, 1023, 52, .ieee⟩

/-- A number class: NaN (signalling or not), infinity, or (−1)^neg × m × 2^e exactly. -/
inductive FVal where
  | nan (sig : Bool)
  | inf (neg : Bool)
  | fin (neg : Bool) (m : Nat) (e : Int)
  deriving DecidableEq, Repr

/-- Largest finite magnitude as mantissa and exponent (R221). -/
def FFmt.maxMant (f : FFmt) : Nat × Int :=
  let emax : Int := (match f.kind with
    | .ieee => 2 ^ f.eb - 2 | _ => 2 ^ f.eb - 1 : Nat)
  let m := match f.kind with
    | .nanOnly => 2 ^ (f.mb + 1) - 2
    | _ => 2 ^ (f.mb + 1) - 1
  (m, emax - f.bias - f.mb)

/-- Smallest normal exponent. -/
def FFmt.emin (f : FFmt) : Int := 1 - (f.bias : Int)

/-- The value of an encoding (R221, R222). -/
def FFmt.decode (f : FFmt) (x : Nat) : FVal :=
  let m := x % 2 ^ f.mb
  let e := x / 2 ^ f.mb % 2 ^ f.eb
  let neg : Bool := x / 2 ^ (f.mb + f.eb) % 2 = 1
  let num : FVal :=
    if e = 0 then .fin neg m (f.emin - f.mb)
    else .fin neg (2 ^ f.mb + m) ((e : Int) - f.bias - f.mb)
  match f.kind with
  | .scale => if x % 256 = 255 then .nan false else .fin false 1 (((x % 256 : Nat) : Int) - 127)
  | .finite => num
  | .nanOnly => if e = 2 ^ f.eb - 1 ∧ m = 2 ^ f.mb - 1 then .nan false else num
  | .ieee =>
    if e = 2 ^ f.eb - 1 then
      if m = 0 then .inf neg else .nan (decide (m < 2 ^ (f.mb - 1)))
    else num

/-- The canonical NaN (R223); a format without NaN gives +0. -/
def FFmt.canonNan (f : FFmt) : Nat :=
  match f.kind with
  | .ieee => (2 ^ f.eb - 1) * 2 ^ f.mb + 2 ^ (f.mb - 1)
  | .nanOnly => 0x7F
  | .finite => 0
  | .scale => 0xFF

/-- Sign bit in place. -/
def FFmt.signBit (f : FFmt) (neg : Bool) : Nat := b2n neg * 2 ^ (f.w - 1)

/-- The largest finite encoding with a sign. -/
def FFmt.maxBits (f : FFmt) (neg : Bool) : Nat :=
  f.signBit neg + (match f.kind with
    | .ieee => (2 ^ f.eb - 1) * 2 ^ f.mb - 1
    | .nanOnly => 0x7E
    | _ => 2 ^ (f.eb + f.mb) - 1)

/-- Infinity with a sign, in a format that has one. -/
def FFmt.infBits (f : FFmt) (neg : Bool) : Nat := f.signBit neg + (2 ^ f.eb - 1) * 2 ^ f.mb

/-! ## Flags (R224) -/

/-- FPST flag bits. -/
def flNX : Nat := 1
def flUF : Nat := 2
def flOF : Nat := 4
def flDZ : Nat := 8
def flNV : Nat := 16

/-- Union of flags. -/
def flOr (a b : Nat) : Nat := a ||| b

/-! ## Rounding (R226, R227, R232) -/

/-- An exact magnitude: m × 2^e, or strictly between that and (m + 1) × 2^e when `st`; a value with `st`
carries at least 32 bits below any rounding position. -/
structure FX where
  neg : Bool
  m : Nat
  e : Int
  st : Bool
  deriving DecidableEq, Repr

/-- m × 2^e, floored to the quantum 2^q: the multiple, the remainder and its scale 2^sh. -/
def FX.split (x : FX) (q : Int) : Nat × Nat × Nat :=
  if q ≤ x.e then (x.m * 2 ^ (x.e - q).toNat, 0, 0)
  else
    let sh := (q - x.e).toNat
    (x.m / 2 ^ sh, x.m % 2 ^ sh, sh)

/-- The magnitude rounds up from multiple `k` (R226, R232). -/
def roundUp (mode : Rnd) (draw : Nat) (neg : Bool) (k r sh : Nat) (st : Bool) : Bool :=
  let inexact := r ≠ 0 || st
  match mode with
  | .rne => 2 ^ sh < 2 * r || (2 * r = 2 ^ sh && (st || k % 2 = 1))
  | .rtz => false
  | .rdn => neg && inexact
  | .rup => !neg && inexact
  | .rsx => 2 ^ 32 ≤ r * 2 ^ 32 / 2 ^ sh + draw

/-- Round to the quantum 2^q: the multiple, and whether it is inexact. -/
def FX.roundAt (x : FX) (mode : Rnd) (draw : Nat) (q : Int) : Nat × Bool :=
  let (k, r, sh) := x.split q
  (k + b2n (roundUp mode draw x.neg k r sh x.st), r ≠ 0 || x.st)

/-- Exponent of the leading bit. -/
def FX.top (x : FX) : Int := (bitLen x.m : Int) - 1 + x.e

/-- a × 2^d compared with b × 2^e. -/
def scaledLt (a : Nat) (d : Int) (b : Nat) (e : Int) : Bool :=
  if d ≤ e then a < b * 2 ^ (e - d).toNat else a * 2 ^ (d - e).toNat < b

/-- An overflowed result (R227). -/
def FFmt.overflow (f : FFmt) (mode : Rnd) (sat neg : Bool) : Nat :=
  match f.kind with
  | .ieee =>
    let toInf := match mode with
      | .rne | .rsx => true
      | .rtz => false
      | .rdn => neg
      | .rup => !neg
    if toInf && !sat then f.infBits neg else f.maxBits neg
  | .nanOnly => if sat then f.maxBits neg else 0x7F
  | _ => f.maxBits neg

/-- Encode k × 2^q, at most the max finite magnitude, k below 2^(mb + 1) or equal to it. -/
def FFmt.encode (f : FFmt) (neg : Bool) (k : Nat) (q : Int) : Nat :=
  if k < 2 ^ f.mb then f.signBit neg + k
  else
    let (k, q) := if k = 2 ^ (f.mb + 1) then (2 ^ f.mb, q + 1) else (k, q)
    f.signBit neg + (q + f.mb + f.bias).toNat * 2 ^ f.mb + (k - 2 ^ f.mb)

/-- Round an exact value to a format: the encoding and its flags (R223, R226, R227). -/
def FFmt.round (f : FFmt) (mode : Rnd) (sat : Bool) (draw : Nat) (x : FX) : Nat × Nat :=
  if x.m = 0 then (f.signBit x.neg, 0)
  else
    let q : Int := max x.top f.emin - f.mb
    let (k, inexact) := x.roundAt mode draw q
    let (mm, me) := f.maxMant
    if scaledLt mm me k q then (f.overflow mode sat x.neg, flOF + flNX)
    else
      let tiny : Bool :=
        if x.top < f.emin then
          let q' : Int := x.top - f.mb
          scaledLt (x.roundAt mode draw q').1 q' 1 f.emin
        else false
      (f.encode x.neg k q, (if inexact then flNX else 0) + (if tiny && inexact then flUF else 0))

/-! ## Results before rounding -/

/-- The result of an operation before it is delivered to a type, with the flags the operation raised. -/
inductive FRes where
  | nan (fl : Nat)
  | inf (neg : Bool) (fl : Nat)
  | ex (x : FX) (fl : Nat)
  deriving DecidableEq, Repr

/-- Deliver a result to a format, rounding once (R227, R234). -/
def FFmt.deliver (f : FFmt) (mode : Rnd) (sat : Bool) (draw : Nat) (r : FRes) : Nat × Nat :=
  match r with
  | .nan fl => (f.canonNan, match f.kind with | .finite => flOr fl flNV | _ => fl)
  | .inf neg fl =>
    match f.kind with
    | .ieee => (f.infBits neg, fl)
    | .nanOnly => (if sat then f.maxBits neg else 0x7F, flOr fl flNV)
    | _ => (f.maxBits neg, flOr fl flNV)
  | .ex x fl =>
    let (b, g) := f.round mode sat draw x
    (b, flOr fl g)

/-- A finite value as a result. -/
def FVal.res : FVal → FRes
  | .nan sig => .nan (if sig then flNV else 0)
  | .inf neg => .inf neg 0
  | .fin neg m e => .ex ⟨neg, m, e, false⟩ 0

/-- A signalling NaN is among the operands (R223). -/
def FVal.sigFl : FVal → Nat
  | .nan true => flNV
  | _ => 0

/-- The value is a NaN. -/
def FVal.isNan : FVal → Bool
  | .nan _ => true
  | _ => false

/-- Sign of a value. -/
def FVal.neg : FVal → Bool
  | .nan _ => false
  | .inf n => n
  | .fin n _ _ => n

/-- The opposite value. -/
def FVal.opp : FVal → FVal
  | .nan s => .nan s
  | .inf n => .inf (!n)
  | .fin n m e => .fin (!n) m e

/-- Signed integer at exponent `e`, of a finite value whose own exponent is at least `e`. -/
def finAt (neg : Bool) (m : Nat) (e' e : Int) : Int :=
  let a : Int := (m * 2 ^ (e' - e).toNat : Nat)
  if neg then -a else a

/-- An exact integer × 2^e, with the sign a zero takes. -/
def exOf (z : Int) (e : Int) (zneg : Bool) : FX :=
  if z = 0 then ⟨zneg, 0, 0, false⟩ else ⟨decide (z < 0), z.natAbs, e, false⟩

/-- The sum of two results' values under a mode (IEEE 754-2019). -/
def fAdd (mode : Rnd) (a b : FVal) : FRes :=
  match a, b with
  | .nan _, _ | _, .nan _ => .nan (flOr a.sigFl b.sigFl)
  | .inf x, .inf y => if x = y then .inf x 0 else .nan flNV
  | .inf x, _ => .inf x 0
  | _, .inf y => .inf y 0
  | .fin n1 m1 e1, .fin n2 m2 e2 =>
    let e := min e1 e2
    let zneg := if n1 = n2 then n1 else mode = .rdn
    .ex (exOf (finAt n1 m1 e1 e + finAt n2 m2 e2 e) e zneg) 0

/-- The product of two values. -/
def fMul (a b : FVal) : FRes :=
  match a, b with
  | .nan _, _ | _, .nan _ => .nan (flOr a.sigFl b.sigFl)
  | .inf x, .inf y => .inf (x != y) 0
  | .inf x, .fin y m _ | .fin y m _, .inf x => if m = 0 then .nan flNV else .inf (x != y) 0
  | .fin n1 m1 e1, .fin n2 m2 e2 => .ex ⟨n1 != n2, m1 * m2, e1 + e2, false⟩ 0

/-- a × b + c, exact. A product of infinity and zero is invalid even beside a NaN addend. -/
def fFma (mode : Rnd) (a b c : FVal) : FRes :=
  match fMul a b with
  | .nan fl => .nan (flOr fl c.sigFl)
  | .inf n _ => fAdd mode (.inf n) c
  | .ex x _ => fAdd mode (.fin x.neg x.m x.e) c

/-- The quotient, truncated with a sticky bit far below any rounding position. -/
def fDiv (a b : FVal) : FRes :=
  match a, b with
  | .nan _, _ | _, .nan _ => .nan (flOr a.sigFl b.sigFl)
  | .inf _, .inf _ => .nan flNV
  | .inf x, .fin y _ _ => .inf (x != y) 0
  | .fin x _ _, .inf y => .ex ⟨x != y, 0, 0, false⟩ 0
  | .fin x m1 e1, .fin y m2 e2 =>
    if m2 = 0 then (if m1 = 0 then .nan flNV else .inf (x != y) flDZ)
    else
      let n := m1 * 2 ^ 200
      .ex ⟨x != y, n / m2, e1 - e2 - 200, n % m2 ≠ 0⟩ 0

/-- Integer square root of a number below 4^n, by bits. -/
def isqrtGo : Nat → Nat → Nat → Nat
  | 0, _, r => r
  | n + 1, x, r =>
    let r' := r + 2 ^ n
    if r' * r' ≤ x then isqrtGo n x r' else isqrtGo n x r

/-- The square root, truncated with a sticky bit. -/
def fSqrt (a : FVal) : FRes :=
  match a with
  | .nan s => .nan (if s then flNV else 0)
  | .inf neg => if neg then .nan flNV else .inf false 0
  | .fin neg m e =>
    if m = 0 then .ex ⟨neg, 0, 0, false⟩ 0
    else if neg then .nan flNV
    else
      let odd := e % 2 = 1
      let x := m * 2 ^ (200 + b2n odd)
      let r := isqrtGo 140 x 0
      .ex ⟨false, r, (e - b2n odd - 200) / 2, r * r ≠ x⟩ 0

/-- Order of two values that are not NaN: less, equal. -/
def fLt (a b : FVal) : Bool :=
  match a, b with
  | .inf x, .inf y => x && !y
  | .inf x, .fin _ _ _ => x
  | .fin _ _ _, .inf y => !y
  | .fin n1 m1 e1, .fin n2 m2 e2 =>
    let e := min e1 e2
    finAt n1 m1 e1 e < finAt n2 m2 e2 e
  | _, _ => false

/-- Numerical equality of two values that are not NaN; the zeros are equal. -/
def fEq (a b : FVal) : Bool :=
  match a, b with
  | .nan _, _ | _, .nan _ => false
  | a, b => !fLt a b && !fLt b a

/-- An integer exactly, as a value. -/
def fOfInt (z : Int) : FVal := .fin (decide (z < 0)) z.natAbs 0

/-- Round a value to an integer in a mode: the integer and whether it is inexact. -/
def roundInt (mode : Rnd) (draw : Nat) (neg : Bool) (m : Nat) (e : Int) : Int × Bool :=
  let (k, inx) := (FX.mk neg m e false).roundAt mode draw 0
  (if neg then -(k : Int) else k, inx)

/-- Conversion to an integer type (R228): the bits and the flags. -/
def fToInt (mode : Rnd) (draw : Nat) (signed : Bool) (w : Nat) (a : FVal) : Nat × Nat :=
  let lo : Int := if signed then -(2 ^ (w - 1) : Nat) else 0
  let hi : Int := if signed then (2 ^ (w - 1) : Nat) - 1 else (2 ^ w : Nat) - 1
  match a with
  | .nan _ => (0, flNV)
  | .inf neg => (wrap w (if neg then lo else hi), flNV)
  | .fin neg m e =>
    let (z, inx) := roundInt mode draw neg m e
    if z < lo then (wrap w lo, flNV)
    else if hi < z then (wrap w hi, flNV)
    else (wrap w z, if inx then flNX else 0)

/-! ## Stochastic rounding state (R229, R231) -/

/-- One xorshift draw. -/
def xorshift (x : W32) : W32 :=
  let x := x ^^^ (x <<< 13)
  let x := x ^^^ (x >>> 17)
  x ^^^ (x <<< 5)

/-- The state of a lane at group creation (R231). -/
def rsxInit (seed : W32) (lin t : Nat) : W32 :=
  let s : W32 := seed ^^^ (.ofNat 32 lin * 0x9E3779B9) ^^^ (.ofNat 32 (t + 1) * 0x85EBCA6B)
  let s := s ^^^ (s >>> 16)
  let s := s * 0x7FEB352D
  let s := s ^^^ (s >>> 15)
  if s = 0 then 1 else s

/-- Round to F32, RNE, no flag (R237, R238, R248). -/
def roundF32 (r : FRes) : Nat := ((fmtOf .f32).deliver .rne false 0 r).1

end Sys2Proof.Machine
end

