-- ==== Sys2Proof/Machine/Operands.lean ====
section
/-! DEFINITION. Every operand form of an ALU word (R271 to R273, R279, R233, R234): source elements and
destination elements. -/

namespace Sys2Proof.Machine

/-- The word's IMM32 (R280). -/
def aluI32 (a : AluArgs) : W32 :=
  match a.ext with
  | .imm32 x | .modsImm _ x => x
  | _ => 0

/-- The word's IMM64 (R280). -/
def aluI64 (a : AluArgs) : W64 :=
  match a.ext with
  | .imm64 x => x
  | _ => 0

/-- An integer exactly in a type: modulo 2^w, or the float of that value (R272, R273). -/
def intIn (t : Ty) (z : Int) : Nat :=
  match t.kind with
  | .float => ((fmtOf t).deliver .rne false 0 (fOfInt z).res).1
  | _ => wrap t.width z

/-- Element value of IMM32 (R273). -/
def immElem32 (t : Ty) (x : W32) : Nat :=
  match t with
  | .i64 => (sext32 x).toNat
  | .f64 => ((fmtOf .f64).deliver .rne false 0 ((fmtOf .f32).decode x.toNat).res).1
  | t => x.toNat % 2 ^ t.width

/-- Element value of IMM64 (R273). -/
def immElem64 (t : Ty) (x : W64) : Nat := x.toNat % 2 ^ t.width

/-- The type by which source operands of an instruction type are read: the untyped forms are .N64. -/
def tyEff (t : Ty) : Ty := if t = .u0 then .n64 else t

/-- Slot `e` of a narrow selector on a lane word (R233). -/
def selElem (s : Sel) (nt : Ty) (x : W64) (e : Nat) : Nat := Machine.elem nt.width x (s.slot + e)

/-- A narrow integer element widened to width `w` (R233, R279). -/
def widenInt (nt : Ty) (w x : Nat) : Nat :=
  match nt.kind with
  | .int => wrap w (sgn nt.width x)
  | _ => x

/-- A NaN of a narrow float type widened to a NaN of the same class: the spec gives its class alone, so its sign
and payload are free values (R233). E8M0's is the canonical NaN. -/
def widenNan (f : FFmt) (nt t : Ty) (b : Nat) (sig : Bool) : Nat :=
  if nt = .e8m0 then f.canonNan
  else
    let r := (Config.nanPattern nt.code b t.code).toNat
    let h := 2 ^ (f.mb - 1)
    f.signBit (r % 2 = 1) + (2 ^ f.eb - 1) * 2 ^ f.mb + (if sig then 1 + r / 2 % (h - 1) else h + r / 2 % h)

/-- A narrow float element widened to the bits of a type (R233). -/
def widenFloat (nt t : Ty) (b : Nat) : Nat :=
  match (fmtOf nt).decode b with
  | .nan sig => widenNan (fmtOf t) nt t b sig
  | v => ((fmtOf t).deliver .rne false 0 v.res).1

/-- Source element bits: element `e` of lane `l` of operand `o`, in type `t`, narrowed by `sel`. A narrow
float widens to the bits of its value. -/
def srcBits (x : Group) (a : AluArgs) (t : Ty) (sel : Sel) (o : Opnd) (l e : Nat) : Nat :=
  let w := t.width
  match o with
  | .v n =>
    let y := x.getV n.toNat l
    if sel.w = 0 then elem w y e
    else match sel.ty t with
      | none => 0
      | some nt =>
        let b := selElem sel nt y e
        if t.kind = .float then widenFloat nt t b else widenInt nt w b
  | .s n => elem w (x.getS n.toNat) e
  | .lane => l % 2 ^ w
  | .sube => e % 2 ^ w
  | .pos => (t.count * l + e) % 2 ^ w
  | .imm32 => immElem32 t (aluI32 a)
  | .imm64 => immElem64 t (aluI64 a)
  | .pv k => intIn t (b2n (decide ((x.getP k.toNat l).toNat / 2 ^ e % 2 = 1)))
  | .small k => intIn t ((k.toNat : Int) - 16)
  | _ => 0

/-- Source element as a floating-point value; a narrow element keeps its own class (R233). -/
def srcF (x : Group) (a : AluArgs) (t : Ty) (sel : Sel) (o : Opnd) (l e : Nat) : FVal :=
  match o with
  | .v n =>
    if sel.w = 0 then (fmtOf t).decode (elem t.width (x.getV n.toNat l) e)
    else match sel.ty t with
      | some nt => (fmtOf nt).decode (selElem sel nt (x.getV n.toNat l) e)
      | none => .nan false
  | o => (fmtOf t).decode (srcBits x a t Sel.off o l e)

/-- Raw bits read as the type's integer: signed for .Iw, unsigned otherwise. -/
def asInt (t : Ty) (b : Nat) : Int :=
  match t.kind with
  | .int => sgn t.width b
  | _ => (b : Int)

/-- Source element as an integer. -/
def srcI (x : Group) (a : AluArgs) (t : Ty) (sel : Sel) (o : Opnd) (l e : Nat) : Int :=
  asInt t (srcBits x a t sel o l e)

/-- An exact integer result in a type: wrapped, or clamped under SAT (R220). -/
def fitInt (t : Ty) (sat : Bool) (z : Int) : Nat :=
  let w := t.width
  if sat then
    let lo : Int := if t.kind = .int then -(2 ^ (w - 1) : Nat) else 0
    let hi : Int := if t.kind = .int then (2 ^ (w - 1) : Nat) - 1 else (2 ^ w : Nat) - 1
    wrap w (max lo (min hi z))
  else wrap w z

/-- The type a destination element is written in: the narrow type of DNAR, or the instruction's (R234). -/
def dstTy (t : Ty) (sel : Sel) : Ty := if sel.w = 0 then t else (sel.ty t).getD t

/-- A lane word with destination element `e` written (R41, R234). -/
def putElem (t : Ty) (sel : Sel) (y : W64) (e v : Nat) : W64 :=
  let nt := dstTy t sel
  let k := if sel.w = 0 then e else sel.slot + e
  let y := setElem nt.width y k v
  if nt.width = 6 then setFld y 60 4 0 else y

/-- Write the enabled elements `f` of every lane into a vector destination; an absent element keeps its
old value (R274). -/
def Group.putLanes (x : Group) (o : Opnd) (t : Ty) (sel : Sel) (f : Nat → Nat → Option Nat) : Group :=
  match o with
  | .v n =>
    lanes32.foldl (fun g l =>
      let old := x.getV n.toNat l
      let new := (List.range t.count).foldl
        (fun y e => match f l e with | some v => putElem t sel y e v | none => y) old
      if new = old then g else g.setV n.toNat l new) x
  | _ => x

/-- The same writes as results to come. -/
def Group.laneWrites (x : Group) (o : Opnd) (t : Ty) (sel : Sel) (f : Nat → Nat → Option Nat) : List RegWr :=
  match o with
  | .v n =>
    lanes32.filterMap fun l =>
      let old := x.getV n.toNat l
      let new := (List.range t.count).foldl
        (fun y e => match f l e with | some v => putElem t sel y e v | none => y) old
      if new = old then none else some (.v n.toNat l new)
  | _ => []

/-- Element positions of a typed word: sub-elements of every lane (R184). -/
def elemsOf (t : Ty) : List Nat := List.range t.count

end Sys2Proof.Machine
end

