-- ==== Sys2Proof/Machine/Flags.lean ====
section
/-! DEFINITION. Condition codes (R298), predicate results, FPST and the FPX trap (R224, R225). -/

namespace Sys2Proof.Machine

/-- Condition code of R298 on integers. -/
def ccInt (cc : Nat) (a b : Int) : Bool :=
  match cc with
  | 0 => a = b | 1 => a ≠ b | 2 => a < b | 3 => a ≤ b | 4 => b < a | _ => b ≤ a

/-- A predicate word with bit `e` replaced. -/
def setPBit (p : BitVec 16) (e : Nat) (b : Bool) : BitVec 16 :=
  .ofNat 16 (p.toNat - bitsN p.toNat e 1 * 2 ^ e + b2n b * 2 ^ e)

/-- A predicate word from its bits. -/
def pOf (n : Nat) (f : Nat → Bool) : BitVec 16 :=
  (List.range n).foldl (fun p e => setPBit p e (f e)) 0

/-- The slot of a specifier that holds a P register index. -/
def pIdx : Opnd → Nat
  | .preg k => k.toNat
  | _ => 0

/-- OR flags into FPST (R224). -/
def Group.orFlags (x : Group) (fl : Nat) : Group := { x with fpst := x.fpst ||| w64 (fl % 32) }

/-- The flags whose trap enable is set (R224): enables are FPST bits [12:8]. -/
def Group.trapFlags (x : Group) (fl : Nat) : Nat := fl &&& fld x.fpst 8 5

/-- Flags raised by lane. -/
abbrev LaneFlags := List (Nat × Nat)

/-- Union of flags. -/
def flagsAll (l : LaneFlags) : Nat := l.foldl (fun a f => flOr a f.2) 0

/-- The FPX trap of R225, when a lane raised an enabled flag: TMASK and TVAL. -/
def fpxOf (x : Group) (l : LaneFlags) : Option (Mask × W64) :=
  let bad := l.filter fun f => x.trapFlags f.2 ≠ 0
  match bad with
  | [] => none
  | _ => some (Mask.of fun i => bad.any fun f => f.1 = i, w64 (flagsAll bad))

end Sys2Proof.Machine
end

