-- ==== Sys2Proof/Machine/Watch.lean ====
section
/-! DEFINITION. Watchpoints and stops (R412, R413, R417). -/

namespace Sys2Proof.Machine

/-- Stop every group of a context quiescently (R412): each stops at its next instruction boundary. -/
def State.quiesce (s : State) (k : Nat) : State := s.modCtx k fun c => { c with stop := true }

/-- Stops that wait for a context no longer. -/
def unstop (k : Nat) (l : List (List Nat)) : List (List Nat) := (l.map fun ks => ks.filter (· ≠ k)).filter fun ks => !ks.isEmpty

/-- Stop a whole partition quiescently (R417), and report when all of it has stopped (R412). -/
def State.quiesceAll (s : State) (pid : Nat) : State :=
  let ks := (s.ctxs.filter fun c => c.2.pid = pid).map fun c => c.1
  (ks.foldl State.quiesce s).modPart pid fun p => { p with qstop := p.qstop ++ [ks] }

/-- Arm a tick stop at tick `t`, or refuse one closer than 128 ticks (R413). -/
def State.armStop (s : State) (t : W64) : State :=
  if t.toNat < s.tick.toNat + 128 then { s with tstopErr := true }
  else { s with tstopAt := t, tstopArm := true }

/-- Where a watched object is (R417): the value ADDR must hold. -/
structure Watched where
  asid : BitVec 16
  kind : Nat                               -- 1 signal, 2 block barrier, 3 gang barrier, 4 and 5 Welt
  place : W64
  deriving DecidableEq, Repr

/-- A transition of a watched object: 0 arrival, 1 last arrival, 2 phase flip; `src` names the group, `d1`
the queue and LIN or the address; `exited` the writer's group has ended. -/
structure WatchEv where
  tr : Nat
  gid : Nat
  batch : Nat
  async : Bool
  exited : Bool
  src : Nat
  d1 : W64
  deriving DecidableEq, Repr

/-- Watchpoint `n` names the object and the transition (R417). -/
def wpHits (p : Part) (w : Watched) (tr n : Nat) : Bool :=
  let ctl := Tab.getD p.wp 0 (3 * n)
  fld ctl 48 16 = w.asid.toNat && fld ctl 1 3 = w.kind && w.kind ≠ 0 && fld ctl 4 2 = tr &&
  Tab.getD p.wp 0 (3 * n + 1) = w.place

/-- What a firing watchpoint does: a record, then its action (R417). An ended writer's stop covers the whole
partition. -/
def State.fire (s : State) (pid die : Nat) (w : Watched) (e : WatchEv) (n : Nat) : State :=
  let p := s.part pid
  if wpHits p w e.tr n then
    let d0 := w64 (b2n e.exited * 2 ^ 63 + b2n e.async * 2 ^ 62 + n * 2 ^ 48 + e.tr * 2 ^ 40 +
      e.gid % 128 * 2 ^ 16 + e.batch % 2 ^ 16)
    let s := s.trace die 4 w.asid e.src d0 e.d1
    match fld (Tab.getD p.wp 0 (3 * n)) 6 2 with
    | 1 => s.quiesceAll pid
    | 2 => { s with tstopAt := s.tick + 16, tstopArm := true }
    | _ => s
  else s

/-- A transition happened: every watchpoint of the partition that names it fires, ascending. -/
def State.watch (s : State) (pid die : Nat) (w : Watched) (e : WatchEv) : State :=
  (List.range 8).foldl (fun s n => s.fire pid die w e n) s

end Sys2Proof.Machine
end

