-- ==== Sys2Proof/Machine/Barrier.lean ====
section
/-! DEFINITION. Gates and gang barriers: arrivals, closing and release (R200, R369, R370), and the L1
invalidation of their fences (R51). -/

namespace Sys2Proof.Machine

/-! ## The acquire invalidation (R51) -/

/-- A core's normal partition is invalidated whole; fills in flight are not installed (R51). -/
def State.invNormal (s : State) (core : Nat) : State :=
  let s := s.modCore core fun c => { c with l1 := c.l1.filter fun l => l.ro, epoch := c.epoch + 1 }
  let mark (e : Nat × Group) : Nat × Group :=
    if coreOf e.1 = core then (e.1, { e.2 with pend := e.2.pend.map fun p => { p with noInst := true } }) else e
  { s with groups := s.groups.map mark }

/-- An acquire at a scope invalidates: scope PAIR or wider, or BLOCK in a pair-spanning block (R51, R133). -/
def acqInvalidates (scope : Nat) (pair : Bool) : Bool := 2 ≤ scope || (scope = 1 && pair)

/-- The fence before an arrival or a releasing access (R141, R143): the accesses before it are answered; then, where
`inv` holds, the L1 is invalidated, which takes the group 4 ACLK (R51). -/
def State.fenceFirst (s : State) (c : Cur) (x : Group) (inv : Bool) (len : Nat) (f : State) : State :=
  if ¬ (s.before c x).isEmpty then s.block c x .acks len
  else if inv ∧ ¬ (x.slot c.slotB).inved then
    (s.invNormal (coreOf c.g)).modGrp c.g fun x =>
      { x.setSlot c.slotB { x.slot c.slotB with held := true, inved := true, wlen := len } with
        readyAt := max x.readyAt (s.aclk + 4)
        why := 11 }
  else f

/-! ## Gates (R369) -/

/-- State of a gate; unlisted gates are at phase 0 with no arrival. -/
def Block.gate (b : Block) (n : Nat) : Gate := Tab.getD b.gates ⟨0, 0⟩ n

/-- Slot keys of a block's resident groups. -/
def Block.resident (b : Block) : List Nat :=
  b.places.filterMap fun p => match p.2 with | .slot k => some k | _ => none

/-- Change every resident group of a block. -/
def State.modResident (s : State) (b : Block) (f : Group → Group) : State :=
  b.resident.foldl (fun s k => s.modGrp k f) s

/-- Bit `n` of GATEGRP. -/
def Group.arrived (x : Group) (n : Nat) : Bool := x.gategrp.toNat / 2 ^ n % 2 = 1

/-- Set or clear bit `n` of GATEGRP. -/
def Group.setArrived (x : Group) (n : Nat) (v : Bool) : Group :=
  { x with gategrp := if v then x.gategrp ||| .ofNat 9 (2 ^ n) else x.gategrp &&& ~~~ .ofNat 9 (2 ^ n) }

/-- The watched object of a block's gate (R417). -/
def gateWatch (s : State) (b : Block) (n : Nat) : Watched :=
  { asid := (s.ctx b.ctx).asid, kind := 2, place := w64 (fld b.seqLq 0 6 * 2 ^ 40 + n * 2 ^ 36 + b.lin) }

/-- ACLK from a closing arrival to the release of a block's gate (R369). -/
def gateDelay (b : Block) : Nat := if b.pair then 16 else 4

/-- Close a gate's phase: PHASE advances, the count returns to 0, and the release follows `dt` later. -/
def State.closeGate (s : State) (k n dt : Nat) : State :=
  let b := s.blk k
  let g := b.gate n
  let s := s.modBlk k fun b => { b with gates := Tab.put b.gates n ⟨g.phase + 1, 0⟩ }
  let s := s.modResident b fun x => x.setArrived n false
  s.post dt (.gateRelease k n)

/-- Close the gate if every live group has arrived (R200, R369). -/
def State.tryGate (s : State) (k n dt : Nat) : State :=
  let b := s.blk k
  if 0 < (b.gate n).arrived ∧ b.live ≤ (b.gate n).arrived then s.closeGate k n dt else s

/-- A group arrives at a gate: the phase it is counted in, and the state (R369). -/
def State.arriveGate (s : State) (g k n : Nat) : State :=
  let b := s.blk k
  let t := b.gate n
  let s := s.modBlk k fun b => { b with gates := Tab.put b.gates n ⟨t.phase, t.arrived + 1⟩ }
  let s := s.modGrp g fun x => x.setArrived n true
  let gid := match Tab.get? s.groups g with | some x => x.gid | none => 0
  let ev (tr : Nat) : WatchEv :=
    { tr := tr, gid := gid, batch := 0, async := false, exited := false, src := grpid g gid,
      d1 := w64 (fld b.seqLq 0 6 * 2 ^ 32 + b.lin) }
  let w := gateWatch s b n
  let pid := (s.ctx b.ctx).pid
  let s := s.watch pid (dieOf g) w (ev 0)
  let s := if b.live ≤ t.arrived + 1 then s.watch pid (dieOf g) w (ev 1) else s
  s.tryGate k n (gateDelay b)

/-- The release fence of a gate at a group (R51, R369): 4 ACLK when it invalidates. -/
def State.releaseFence (s : State) (g scope : Nat) (pair : Bool) : State × Nat :=
  if acqInvalidates scope pair then (s.invNormal (coreOf g), 4) else (s, 0)

/-- Release the groups that wait on a closed phase of gate `n` (R369). -/
def State.releaseGate (s : State) (k n : Nat) : State :=
  let b := s.blk k
  let ph := (b.gate n).phase
  let w : Watched := gateWatch s b n
  let s := s.watch (s.ctx b.ctx).pid (dieOfCore b.core) w
    ⟨2, 0, 0, false, false, 0, w64 (fld b.seqLq 0 6 * 2 ^ 32 + b.lin)⟩
  let one (s : State) (g : Nat) (sb : Bool) : State :=
    match Tab.get? s.groups g with
    | none => s
    | some x =>
      match (x.slot sb).wait with
      | .gate n' p _ =>
        if n' = n ∧ p ≠ ph then
          let (s, d) := s.releaseFence g 1 b.pair
          s.release g sb d
        else s
      | _ => s
  b.resident.foldl (fun s g => (one (one s g false) g true).wake g fun w => w = .gateBusy n) s

/-! ## Gang barriers (R370) -/

/-- A gang. -/
def State.gang (s : State) (k : Nat) : Gang :=
  Tab.getD s.gangs ⟨k, 0, 0, 1, 0, [], 0, 0, 0, false⟩ k

/-- Blocks of a gang on its half `h`: ranks 0 to 7 or 8 to 15. -/
def Gang.half (g : Gang) (h : Nat) : List Nat :=
  g.blks.filterMap fun e => if e.1 / 8 = h then some e.2 else none

/-- Expected arrivals of a half (R370). -/
def State.gangLive (s : State) (g : Gang) (h : Nat) : Nat :=
  (g.half h).foldl (fun n b => n + (s.blk b).live) 0

/-- The watched object of a gang barrier (R417). -/
def gangWatch (s : State) (b : Block) (num : Nat) : Watched :=
  { asid := (s.ctx b.ctx).asid, kind := 3, place := w64 (fld b.seqLq 0 6 * 2 ^ 40 + num) }

/-- Release time of a gang's barrier from its closing arrival (R370). -/
def gangDelay (s : State) (g : Gang) : Nat :=
  if g.size ≤ 1 then
    match g.blks with
    | (_, b) :: _ => gateDelay (s.blk b)
    | [] => 4
  else if g.size ≤ 8 then 40
  else 152

/-- Close the gang's phase. -/
def State.closeGang (s : State) (k dt : Nat) : State :=
  let g := s.gang k
  let g' := { g with phase := g.phase + 1, arr0 := 0, arr1 := 0, crossed := false }
  let s := { s with gangs := Tab.put s.gangs k g' }
  let s := g.blks.foldl (fun s e => s.modResident (s.blk e.2) fun x => x.setArrived 8 false) s
  s.post dt (.ggateRelease k)

/-- Both halves are complete: a gang on one die closes; a straddling gang exchanges its message, which takes
112 of the 152 ACLK (R370). -/
def State.tryGang (s : State) (k dt : Nat) : State :=
  let g := s.gang k
  let l0 := s.gangLive g 0
  let l1 := s.gangLive g 1
  if 0 < g.arr0 + g.arr1 ∧ l0 ≤ g.arr0 ∧ l1 ≤ g.arr1 ∧ ¬ g.crossed then
    if g.size ≤ 8 then s.closeGang k dt
    else
      ({ s with gangs := Tab.put s.gangs k { g with crossed := true } } : State).post (min dt 40) (.ggateCrossDie k)
  else s

/-- A group arrives at its gang's barrier. -/
def State.arriveGang (s : State) (g : Nat) (b : Block) : State :=
  let t := s.gang b.gang
  let t' := if b.rank < 8 then { t with arr0 := t.arr0 + 1 } else { t with arr1 := t.arr1 + 1 }
  let s := { s with gangs := Tab.put s.gangs b.gang t' }
  let s := s.modGrp g fun x => x.setArrived 8 true
  let gid := match Tab.get? s.groups g with | some x => x.gid | none => 0
  let ev (tr : Nat) : WatchEv :=
    ⟨tr, gid, 0, false, false, grpid g gid, w64 (fld b.seqLq 0 6 * 2 ^ 32 + b.lin)⟩
  let w := gangWatch s b t.num
  let pid := (s.ctx b.ctx).pid
  let s := s.watch pid (dieOf g) w (ev 0)
  let s :=
    if s.gangLive t' 0 ≤ t'.arr0 ∧ s.gangLive t' 1 ≤ t'.arr1 then s.watch pid (dieOf g) w (ev 1) else s
  s.tryGang b.gang (gangDelay s t)

/-- Release the groups that wait on a closed phase of the gang's barrier; the fence has DIE or PACKAGE
scope, so it invalidates (R370). -/
def State.releaseGang (s : State) (k : Nat) : State :=
  let t := s.gang k
  let one (s : State) (g : Nat) (sb : Bool) : State :=
    match Tab.get? s.groups g with
    | none => s
    | some x =>
      match (x.slot sb).wait with
      | .ggate p _ => if p ≠ t.phase then (s.invNormal (coreOf g)).release g sb 4 else s
      | _ => s
  t.blks.foldl (fun s e =>
    let b := s.blk e.2
    let s := s.watch (s.ctx b.ctx).pid (dieOfCore b.core) (gangWatch s b t.num)
      ⟨2, 0, 0, false, false, 0, w64 (fld b.seqLq 0 6 * 2 ^ 32 + b.lin)⟩
    b.resident.foldl (fun s g => (one (one s g false) g true).wake g fun w => w = .gateBusy 8) s) s

end Sys2Proof.Machine
end

