-- ==== Sys2Proof/Machine/Home.lean ====
section
/-! DEFINITION. A write performed at its home, with what it wakes and what watches it (R371, R417), and the
whole-range transfers that hardware makes for itself (R64, R206, R213, R407, R410). -/

namespace Sys2Proof.Machine

/-- The object a signal watchpoint names, as a package-wide physical address (R417). -/
def State.watchedWord (s : State) (ctl addr : W64) : Option Nat :=
  if fld ctl 1 3 ≠ 1 ∨ fld addr 56 8 ≠ 0 then none
  else match walk s (vaDie addr) (.ofNat 16 (fld ctl 48 16)) addr.toNat with
    | some (.leaf l) => some (paddr (vaDie addr) (leafPa l.bits l.size addr.toNat))
    | _ => none

/-- The transitions of a watched word (R417): any write, a write that reaches the target, a change. -/
def sigTransitions (old new tgt : Nat) : List Nat :=
  [0] ++ (if tgt ≤ new ∧ old < tgt then [1] else []) ++ (if old ≠ new then [2] else [])

/-- Fire the signal watchpoints of one partition that a write of `n` bytes at `a` meets; `s` is the state
before the write. -/
def State.fireSig (s t : State) (pid a n : Nat) (e : WatchEv) : State :=
  let p := s.part pid
  (List.range 8).foldl (fun t k =>
    let ctl := Tab.getD p.wp 0 (3 * k)
    let addr := Tab.getD p.wp 0 (3 * k + 1)
    match s.watchedWord ctl addr with
    | none => t
    | some w =>
      if a < w + 8 ∧ w < a + n then
        (sigTransitions (s.readNum w 8) (t.readNum w 8) (Tab.getD p.wp 0 (3 * k + 2)).toNat).foldl
          (fun t tr => t.fire pid (w / 2 ^ 37) ⟨.ofNat 16 (fld ctl 48 16), 1, addr⟩ { e with tr := tr } k) t
      else t) t

/-- Groups that wait in SIGWAIT on a physical line read it again (R371). -/
def State.wakeSig (s : State) (line : Nat) : State :=
  let hit (e : Nat × Group) : Bool := e.2.a.wait = .sig line || e.2.b.wait = .sig line
  (s.groups.filter hit).foldl (fun s e => s.post 0 (.sigwaitReread e.1)) s

/-- Word `i` of a launch record. -/
def Launch.word (l : Launch) (i : Nat) : W64 := (l.words[i]?).getD 0

/-- Addresses of the dependences of a launch (R209). -/
def Launch.deps (l : Launch) : List (W64 × W64) :=
  [(l.word 5, l.word 6), (l.word 7, l.word 8)].take (fld (l.word 3) 2 2)

/-- Put an event on the agenda unless it is there for that ACLK or an earlier one. -/
def State.postOnce (s : State) (dt : Nat) (ev : Instr) : State :=
  if s.agenda.any fun e => e.ev = ev && e.due ≤ s.aclk + dt then s else s.post dt ev

/-- Launches held on dependences read them again when the line of one may have been written (R210). -/
def State.wakeDeps (s : State) (line : Nat) : State :=
  s.launches.foldl (fun s e =>
    let l := e.2
    if l.step = .deps ∧ l.deps.any fun d => d.1.toNat / 512 % 128 = line % 128 then
      s.postOnce 0 (.dependenceReread l.pid l.q)
    else s) s

/-- A write is performed at its home: bytes at offsets from the package-wide physical address `a`. -/
def State.homeWrite (s : State) (a : Nat) (bytes : List (Nat × Byte)) (e : WatchEv) : State :=
  match bytes with
  | [] => s
  | b :: r =>
    let t := bytes.foldl (fun s x => s.writeByte (a + x.1) x.2) s
    let lo := r.foldl (fun m x => min m x.1) b.1
    let hi := r.foldl (fun m x => max m x.1) b.1
    let t := [0, 1, 2, 3].foldl (fun t p => s.fireSig t p (a + lo) (hi + 1 - lo) e) t
    (t.wakeSig ((a + lo) / 512)).wakeDeps ((a + lo) / 512)

/-- A write with no group behind it. -/
def WatchEv.anon : WatchEv := ⟨0, 0, 0, false, false, 0, 0⟩

/-- What R17, R18 and R75 refuse of a hardware transfer from die `d` of context `c`. -/
def State.vaRefuse (s : State) (d : Nat) (c : Ctx) (va : W64) (n : Nat) : Option Nat :=
  if oneDie va n then
    match vaCheck s c d va with
    | .ok => if s.pathDown d (vaDie va) then some scAbsent else none
    | .absent => some scAbsent
    | .frozen => some scPerm
    | .unmapped => some scUnmapped
  else some scUnmapped

/-- Read `n` bytes of virtual memory within one 64 KiB page. -/
def State.vread (s : State) (d : Nat) (c : Ctx) (va : W64) (n : Nat) : State × Except Nat (List Byte) :=
  match s.vaRefuse d c va n with
  | some sc => (s, .error sc)
  | none =>
    match s.xlate (vaDie va) c.asid va.toNat .r false false with
    | (s, .ok x) => (s, .ok (s.readBytes (paddr (vaDie va) x.pa) n))
    | (s, .error sc) => (s, .error sc)

/-- Write bytes of virtual memory within one 64 KiB page. -/
def State.vwrite (s : State) (d : Nat) (c : Ctx) (va : W64) (bytes : List Byte) : State × Option Nat :=
  match s.vaRefuse d c va bytes.length with
  | some sc => (s, some sc)
  | none =>
    match s.xlate (vaDie va) c.asid va.toNat .w false false with
    | (s, .ok x) => (s.homeWrite (paddr (vaDie va) x.pa) (numbered 0 bytes) WatchEv.anon, none)
    | (s, .error sc) => (s, some sc)

/-- Add to an .N64 word of virtual memory as one atomic (R213). -/
def State.vadd (s : State) (d : Nat) (c : Ctx) (va v : W64) : State × Option Nat :=
  match s.vaRefuse d c va 8 with
  | some sc => (s, some sc)
  | none =>
    match s.xlate (vaDie va) c.asid va.toNat .rw false false with
    | (s, .ok x) =>
      let a := paddr (vaDie va) x.pa
      (s.homeWrite a (numbered 0 (bytesLE 8 ((s.readNum a 8 + v.toNat) % 2 ^ 64))) WatchEv.anon, none)
    | (s, .error sc) => (s, some sc)

/-! ## Uncorrectable errors (R44, R58, R87, R120, R404, R405) -/

/-- An engine is frozen: a block's copy agent or scale-up agent; for a bank's or a sequencer's operation the group that
issued it, or its context ends when that group has exited. -/
def State.freezeEngine (s : State) (op : Nat) (d1 : W64) : State :=
  match Tab.get? s.ops op with
  | some o =>
    if o.cls = 0 ∨ o.cls = 3 then
      (s.modBlk o.blk fun b => { b with frozen := true }).logFreeze o.die 2 5 o.asid (o.core * 64 + o.blk % 64) d1
    else if o.gone then s.endCtx o.ctx 5 0 0 0 0
    else s.freezeAt o.g 5 d1
  | none => s

/-- The master of a request is frozen: a group, an engine, the host's logical device or a peer port. A prefetch's group
is, while it lives. -/
def State.freezeMaster (s : State) (p : Pkt) (d1 : W64) : State :=
  match p.src with
  | .grp g _ => s.freezeAt g 5 d1
  | .eng k _ => s.freezeEngine k d1
  | .pref g gid _ _ =>
    match Tab.get? s.groups g with
    | some x => if x.gid = gid ∧ ¬ x.dead then s.freezeAt g 5 d1 else s
    | none => s
  | .host d => (s.modDie d fun k => { k with hostFrozen := true }).logFreeze d 3 5 0 d d1
  | .peer d q =>
    (s.modDie d fun k => { k with portFrozen := k.portFrozen ||| .ofNat 4 (2 ^ q) }).logFreeze d 4 5 0 (4 * d + q) d1

end Sys2Proof.Machine
end

