-- ==== Sys2Proof/Machine/Life.lean ====
section
/-! DEFINITION. The end of a group and of a block, rendezvous points and fusion, and what follows the
delivery of a group's results (R187, R190, R199 to R204, R362, R367, R410). -/

namespace Sys2Proof.Machine

/-! ## Counter banks (R410) -/

/-- A live group of a context is in a slot of a core. -/
def State.onCore (s : State) (core ctx : Nat) : Bool :=
  s.groups.any fun e => coreOf e.1 = core && e.2.ctx = ctx && !e.2.dead

/-- Where a context's bank of a core is kept. -/
def pmAddr (c : Ctx) (core : Nat) : W64 := w64 (fld c.pmsave 15 41 * 2 ^ 15 + 128 * core)

/-- Store a bank back and unbind it (R410). -/
def State.pmSpill (s : State) (core ctx : Nat) : State :=
  match s.pms.find? fun b => b.core = core ∧ b.ctx = ctx with
  | none => s
  | some b =>
    let s := { s with pms := s.pms.erase b }
    let c := s.ctx ctx
    if bit64 c.pmsave 63 then
      let bytes := (List.range 16).flatMap fun k => bytesLE 8 (Tab.getD b.ctr 0 k).toNat
      match s.vwrite (dieOfCore core) c (pmAddr c core) bytes with
      | (s, none) => s
      | (s, some _) => s.modCtx ctx fun c => { c with pmsave := setFld c.pmsave 62 1 1 }
    else s

/-- Store the bank if no group of the context is left on the core. -/
def State.pmLeave (s : State) (core ctx : Nat) : State :=
  if s.onCore core ctx then s else s.pmSpill core ctx

/-! ## Batches of a group -/

/-- Batch numbering of a class (R281: 0 COPY, 1 MATRIX, 2 AGATE, 3 PEER). -/
def Group.bat (x : Group) (c : Nat) : BatchCls :=
  match c with | 0 => x.bat0 | 1 => x.bat1 | 2 => x.bat2 | _ => x.bat3

/-- Replace a class's numbering. -/
def Group.setBat (x : Group) (c : Nat) (b : BatchCls) : Group :=
  match c with
  | 0 => { x with bat0 := b } | 1 => { x with bat1 := b } | 2 => { x with bat2 := b } | _ => { x with bat3 := b }

/-- Advance DONE over closed batches with no operation left, in order (R144, R362). -/
def BatchCls.advance : Nat → BatchCls → BatchCls
  | 0, b => b
  | n + 1, b =>
    let k := b.done + 1
    if b.done = b.closed then b
    else match Tab.get? b.wait k.toNat with
      | some [] => BatchCls.advance n { b with done := k, wait := Tab.del b.wait k.toNat }
      | some _ => b
      | none => BatchCls.advance n { b with done := k }

/-- Close the unclosed operations into the next batch (R362). -/
def BatchCls.close (b : BatchCls) : BatchCls :=
  let n := b.closed + 1
  BatchCls.advance 1
    { b with closed := n, cur := [], wait := Tab.put b.wait n.toNat b.cur,
             faults := b.faults.map fun f => (some (f.1.getD n), f.2) }

/-- Close a class of a group, naming the batch in its operations. -/
def State.closeBatch (s : State) (g c : Nat) : State :=
  match Tab.get? s.groups g with
  | none => s
  | some x =>
    let b := x.bat c
    let n := b.closed + 1
    let s := b.cur.foldl (fun s k => s.modOp k fun o => { o with batch := some n }) s
    s.modGrp g fun x => x.setBat c b.close

/-! ## The end of a block (R190) -/

/-- Every group of the block has ended or been retired and none of its operations is left. -/
def State.blockDone (s : State) (k : Nat) : Bool :=
  match Tab.get? s.blocks k with
  | none => false
  | some b =>
    (b.places.all fun p => p.2 = .ended || p.2 = .retired) && !(s.ops.any fun o => o.2.blk = k)

/-- A released array: free, its contents discarded; a fenced one stays fenced (R56, R262). -/
def Arr.freed (a : Arr) : Arr :=
  let r := { Arr.reset with steps := a.steps, calib := a.calib }
  if a.st = .fenced then { r with st := .fenced } else r

/-- Release a block's arrays, tiles and handles (R56, R190). -/
def State.freeBlock (s : State) (b : Block) : State :=
  let s := b.arrs.foldl (fun s e => s.modArr e.2 Arr.freed) s
  let drop (core : Nat) (own : Tab Nat) (t : Nat × Nat) : Tab Nat := Tab.del own (core * 64 + t.2)
  let own := b.tiles0.foldl (drop b.core) s.tileOwn
  let own := if b.pair then b.tiles1.foldl (drop (b.core + 1)) own else own
  { s with tileOwn := own }

/-- LAUNCHID (R186). -/
def launchId (seq q : Nat) : W64 := w64 (seq % 2 ^ 48 * 2 ^ 16 + q)

/-- Pinned entries of an ASID become ordinary on a partition's dies (R106). -/
def State.unpin (s : State) (pid : Nat) (asid : BitVec 16) : State :=
  let ord (e : MtlbEntry) : MtlbEntry := if e.asid = asid then { e with pinned := false } else e
  let walk (w : Walk) : Walk := if w.asid = asid then { w with pin := false } else w
  (diesOf (s.part pid).mask).foldl (fun s d =>
    s.modDie d fun e => { e with mtlb := e.mtlb.map ord, walks := e.walks.map walk }) s

/-- A launch of a context past its dependences. -/
def State.running (s : State) (ctx : Nat) : Bool :=
  s.launches.any fun l => l.2.ctx = ctx && (l.2.step = .wset || l.2.step = .place || l.2.step = .run)

/-- An access of a group of block `k` that has ended is not yet answered (R149, R151). -/
def State.accessesOf (s : State) (k : Nat) : Bool :=
  (s.groups.any fun e => e.2.blk = k && e.2.pend.any fun p => p.isAcc && p.kind ≠ .sigread) ||
  s.ghosts.any fun e => e.blk = k

/-- A record completes with a code (R213): STATUS, then the completion signal, then the interrupt; a refused
write is dropped. Its queue looks again for a record to go on with. -/
def State.completeRecord (s : State) (k code : Nat) : State :=
  match Tab.get? s.launches k with
  | none => s
  | some l =>
    let c := s.ctx l.ctx
    let d := s.leadDie l.pid
    let w3 := l.word 3
    let (s, _) := s.vwrite d c (l.at_ + 0x78) (bytesLE 8 code)
    let s := if bit64 w3 5 then (s.vadd d c (l.word 9) (l.word 10)).1 else s
    let s := if bit64 w3 4 then s.raisePi l.pid 1 else s
    let s := s.trace d 7 c.asid 0 (launchId l.seq l.q) l.at_
    let s := { s with launches := Tab.del s.launches k }
    let s := if s.running l.ctx then s else s.unpin l.pid c.asid
    s.post 0 (.recordTake l.pid l.q)

/-- A launch completes once its blocks have ended and every access of theirs has been answered (R149, R151, R190). -/
def State.checkLaunch (s : State) (k : Nat) : State :=
  match Tab.get? s.launches k with
  | none => s
  | some l => if l.ended = l.total ∧ ¬ l.late.any s.accessesOf then s.completeRecord k 1 else s

/-- Launches that waited for the last access of an ended block. -/
def State.checkLate (s : State) : State :=
  (s.launches.filter fun e => !e.2.late.isEmpty).foldl (fun s e => s.checkLaunch e.1) s

/-- BLOCK_END (R190): the block's resources return, the gang's count adjusts, its launch counts it. -/
def State.endBlock (s : State) (k : Nat) : State :=
  match Tab.get? s.blocks k with
  | none => s
  | some b =>
    let s := s.freeBlock b
    let s := { s with blocks := Tab.del s.blocks k }
    let g := s.gang b.gang
    let left := g.blks.filter fun e => e.2 ≠ k
    let s :=
      if left.isEmpty then { s with gangs := Tab.del s.gangs b.gang }
      else ({ s with gangs := Tab.put s.gangs b.gang { g with blks := left } } : State).tryGang b.gang 0
    match Tab.get? s.launches b.launch with
    | none => s
    | some l =>
      let l := { l with
        ended := l.ended + 1
        late := if s.accessesOf k then k :: l.late else l.late }
      ({ s with launches := Tab.put s.launches b.launch l } : State).checkLaunch b.launch

/-- End the block when its conditions hold. -/
def State.checkBlock (s : State) (k : Nat) : State := if s.blockDone k then s.endBlock k else s

/-! ## Rendezvous (R201, R202) -/

/-- A waiting REGROUP completes with a result (R201, R202). -/
def State.regroupDone (s : State) (g r : Nat) : State :=
  match Tab.get? s.groups g with
  | none => s
  | some x =>
    let d := match x.a.wait with | .rendezvous _ d | .fusing _ _ d => d | _ => .zero
    ((s.leaveRend g).setGrp g (x.dstS d (w64 r))).release g false 0

/-- Every slot of the group that has lanes and is not parked waits for what `p` names. -/
def Group.allWait (x : Group) (p : Wait → Bool) : Bool :=
  (x.a.isParked || p x.a.wait) && (!x.bLive || x.b.isParked || p x.b.wait) &&
  !(x.a.isParked && (!x.bLive || x.b.isParked))

/-- A group waits at a rendezvous point. -/
def Group.atRend (x : Group) : Bool := match x.a.wait with | .rendezvous _ _ => true | _ => false

/-- A group waits at a rendezvous point or a block barrier (R202). -/
def Group.atRendOrGate (x : Group) : Bool :=
  x.allWait fun w => match w with | .rendezvous _ _ | .gate _ _ _ => true | .gateBusy n => n < 8 | _ => false

/-- Groups of a block on a core that wait at a rendezvous point while every other live one waits too leave
their points (R202). -/
def State.checkRend (s : State) (k core : Nat) : State :=
  let here := (s.blk k).resident.filter fun g => coreOf g = core
  let ok (g : Nat) : Bool := match Tab.get? s.groups g with | some x => x.atRendOrGate | none => true
  let rend (g : Nat) : Bool := match Tab.get? s.groups g with | some x => x.atRend | none => false
  if here.all ok then (here.filter rend).foldl (fun s g => s.regroupDone g 0) s else s

/-- Key of a rendezvous point of a block (R201): one set on each core of a pair. -/
def rendKey (b : Block) (core r : Nat) : Nat := (core - b.core) * 16 + r

/-- Post the fusion of two groups once neither has a result outstanding (R201). -/
def State.tryFuse (s : State) (g : Nat) : State :=
  match Tab.get? s.groups g with
  | none => s
  | some x =>
    match x.a.wait with
    | .fusing h _ _ =>
      match Tab.get? s.groups h with
      | none => s
      | some y =>
        if x.resultsOut ∨ y.resultsOut then s
        else
          let a := if x.gid < y.gid then (g, h) else (h, g)
          s.post (8 + x.vdecl) (.regroupFuse a.1 a.2)
    | _ => s

/-- A group whose REGROUP waits arrives at point `r` (R201): it waits there, or meets its partner. -/
def State.rendArrive (s : State) (g r : Nat) (d : Opnd) : State :=
  match Tab.get? s.groups g with
  | none => s
  | some x =>
    let b := s.blk x.blk
    let key := rendKey b (coreOf g) r
    let setW (s : State) (g : Nat) (w : Wait) : State :=
      s.modGrp g fun x => { x with a := { x.a with wait := w } }
    match Tab.get? b.rend key with
    | none =>
      let s := s.modBlk x.blk fun b => { b with rend := Tab.put b.rend key g }
      (setW s g (.rendezvous r d)).checkRend x.blk (coreOf g)
    | some h =>
      let s := s.modBlk x.blk fun b => { b with rend := Tab.del b.rend key }
      match Tab.get? s.groups h with
      | none => s
      | some y =>
        let dh := match y.a.wait with | .rendezvous _ d => d | _ => .zero
        if Mask.count x.a.own + Mask.count y.a.own ≤ 32 then
          (setW (setW s g (.fusing h r d)) h (.fusing g r dh)).tryFuse g
        else ((setW s g (.rendezvous r d)).regroupDone h 0).regroupDone g 0

/-- Fusion numbering (R201): new lane to source group and old lane, by source GID and then old lane. -/
def fuseMap (x y : Group) : List (Bool × Nat) :=
  (Mask.lanes x.a.own).map (fun l => (false, l)) ++ (Mask.lanes y.a.own).map (fun l => (true, l))

/-- The survivor `x` with the lanes of `y` (R201). -/
def fusedGroup (x y : Group) : Group :=
  let m := fuseMap x y
  let n := m.length
  let src (e : Bool × Nat) : Group := if e.1 then y else x
  let mv {α : Type} (regs : Nat) (t : Group → Tab α) : Tab α :=
    (List.range regs).flatMap fun r =>
      (numbered 0 m).filterMap fun e => (Tab.get? (t (src e.2)) (r * 32 + e.2.2)).map fun v => (r * 32 + e.1, v)
  let own := Mask.of fun l => l < n
  let exm := Mask.of fun l =>
    match m[l]? with | some e => Mask.has (src e).a.exm e.2 | none => false
  let thr := (numbered 0 m).filterMap fun e => (Tab.get? (src e.2).thr e.2.2).map fun t => (e.1, t)
  let rsx := (numbered 0 m).filterMap fun e => (Tab.get? (src e.2).rsx e.2.2).map fun t => (e.1, t)
  { x with v := mv x.vdecl Group.v, p := mv 16 Group.p, thr := thr, rsx := rsx, splitSp := 0,
           a := { x.a with own := own, exm := exm, parked := false }, bLive := false, b := Slot.empty,
           gategrp := x.gategrp ||| y.gategrp, fpst := x.fpst ||| w64 (fld y.fpst 0 5) }

/-- Take a group's arrivals out of the phases it has arrived in. -/
def State.dropArrivals (s : State) (x : Group) : State :=
  let s := (List.range 8).foldl (fun s n =>
    if x.arrived n then
      s.modBlk x.blk fun b => { b with gates := Tab.put b.gates n { b.gate n with arrived := (b.gate n).arrived - 1 } }
    else s) s
  if x.arrived 8 then
    let b := s.blk x.blk
    let t := s.gang b.gang
    let t := if b.rank < 8 then { t with arr0 := t.arr0 - 1 } else { t with arr1 := t.arr1 - 1 }
    { s with gangs := Tab.put s.gangs b.gang t }
  else s

/-- A release at once of each barrier whose remaining live groups have all arrived (R200, R370). -/
def State.tryGates (s : State) (k : Nat) : State :=
  ((List.range 8).foldl (fun s n => s.tryGate k n 0) s).tryGang (s.blk k).gang 0

/-! ## The end of a group (R187, R199) -/

/-- The group's slot returns once no result with a register destination is outstanding (R187). Accesses still to be
answered go on without it (R142), and so do Welt arrivals that have not left (R394): those of a retired group follow its
survivor `heir` (R201), and those that had joined the group's own order no longer follow any. -/
def State.reap (s : State) (g : Nat) (heir : Option Nat) : State :=
  match Tab.get? s.groups g with
  | some x =>
    if x.dead ∧ ¬ x.resultsOut then
      let left := x.pend.filter fun p => (p.isAcc && p.kind ≠ .sigread) || p.arrive.isSome
      let old := s.ghosts.map fun e => if e.heir = some g then { e with heir := heir } else e
      { s with
        groups := Tab.del s.groups g
        ghosts := if left.isEmpty then old else old ++ [⟨g, heir, x.ctx, x.blk, left⟩] }
    else s
  | none => s

/-- Change what a group that is gone has outstanding under a tag: none ends it, and what waited for it looks again. -/
def State.ghostCut (s : State) (g tag : Nat) (f : Pend → Option Pend) : State :=
  let hit (e : Ghost) : Bool := e.key = g && e.pend.any fun p => p.tag = tag
  if s.ghosts.any hit then
    let less (p : Pend) : Option Pend := if p.tag = tag then f p else some p
    let cut (e : Ghost) : Ghost := if hit e then { e with pend := e.pend.filterMap less } else e
    let s := { s with ghosts := (s.ghosts.map cut).filter fun e => !e.pend.isEmpty }
    (s.wakeAll fun w => w = .acks).checkLate
  else s

/-- An answer to an access of a group that is gone. -/
def State.ghostAnswer (s : State) (g tag : Nat) : State :=
  s.ghostCut g tag fun p => if p.left ≤ 1 then none else some { p with left := p.left - 1 }

/-- What a group that is gone has outstanding under a tag. -/
def State.ghostPend (s : State) (g tag : Nat) : Option Pend :=
  ((s.ghosts.filter fun e => e.key = g).flatMap fun e => e.pend).find? fun p => p.tag = tag

/-- The group's operations run on without it, its unclosed ones closed into a last batch (R362); a suspended
loop ends (R258). -/
def State.orphanOps (s : State) (g : Nat) : State :=
  let s := [0, 1, 2, 3].foldl (fun s c => s.closeBatch g c) s
  let s := s.ops.foldl (fun s e =>
    if e.2.g = g ∧ ¬ e.2.gone ∧ e.2.susp then s.post 0 (.asyncOpComplete e.1) else s) s
  { s with ops := s.ops.map fun e => if e.2.g = g ∧ ¬ e.2.gone then (e.1, { e.2 with gone := true }) else e }

/-- Handles a group holds: freed or filled (R367), or passed to a survivor. -/
def Hnd.orphan (gid : Nat) (heir : Option Nat) (h : Hnd) : Hnd :=
  if h.state ≠ 0 ∧ h.state ≠ 2 ∧ ¬ h.isOp ∧ h.holder = gid then
    match heir with
    | some y => { h with holder := y }
    | none => { h with state := if h.state = 1 then 2 else 0 }
  else h

/-- Requests wait on a handle whose state has changed: it admits one (R367). -/
def State.pokeHandles (s : State) (k : Nat) : State :=
  (s.blk k).hnds.foldl (fun s e => if e.2.wait.isEmpty then s else s.post 0 (.handleAdmit k e.1)) s

/-- An exchange is under way for the XSHFL `tag` (R203). -/
def Group.pairExch (x : Group) (tag : Nat) : Group :=
  { x with pend := x.pend.map fun p => if p.tag = tag then { p with left := 1 } else p }

/-- A partner's waits in XSHFL end 12 ACLK after the group is gone (R204). -/
def State.endXshfl (s : State) (x : Group) : State :=
  match Tab.get? (s.blk x.blk).places (x.gid ^^^ 1) with
  | some (.slot h) =>
    match Tab.get? s.groups h with
    | some y =>
      (y.pend.filter Pend.openExch).foldl (fun s p =>
        (s.modGrp h fun y => y.pairExch p.tag).post 12 (.xshflExchange h h)) s
    | none => s
  | _ => s

/-- A group ends, or is retired into the survivor `heir`, its GID and its slot (R190, R199, R201, R362, R367). -/
def State.endGroup (s : State) (g : Nat) (heir : Option (Nat × Nat)) : State :=
  match Tab.get? s.groups g with
  | none => s
  | some x =>
    let s := s.orphanOps g
    let s := if heir.isNone then s.dropArrivals x else s
    let pl : Place := if heir.isNone then .ended else .retired
    let s := s.modBlk x.blk fun b =>
      { b with places := Tab.put b.places x.gid pl, live := b.live - 1,
               hnds := b.hnds.map fun e => (e.1, e.2.orphan x.gid (heir.map fun e => e.1)),
               rend := b.rend.filter fun e => e.2 ≠ g }
    let s := s.modGrp g fun x => { x with dead := true, active := false, faults := [], trap := none }
    let s := if (s.blk x.blk).pair then s.endXshfl x else s
    let s := (s.reap g (heir.map fun e => e.2)).pmLeave (coreOf g) x.ctx
    let s := (s.tryGates x.blk).pokeHandles x.blk
    (s.checkRend x.blk (coreOf g)).checkBlock x.blk

/-- REGROUP_FUSE (R201): the survivor takes the lanes, the other group is retired. -/
def State.fuse (s : State) (g h : Nat) : State :=
  match Tab.get? s.groups g, Tab.get? s.groups h with
  | some x, some y =>
    let both := x.gategrp &&& y.gategrp
    let s := s.dropArrivals { y with gategrp := both }
    let s := s.setGrp g (fusedGroup x y)
    (s.endGroup h (some (x.gid, g))).regroupDone g 1
  | _, _ => s

/-! ## Waits that PREEMPT ends (R202, R204, R400) -/

/-- The slot waits in what the pre-emption flag ends. -/
def Group.canLeave (x : Group) (b : Bool) : Bool :=
  match (x.slot b).wait with
  | .gate _ _ _ | .ggate _ _ | .sig _ | .welt _ _ _ | .batch _ _ | .rank | .rendezvous _ _ => true
  | .xshfl t => x.pend.any fun p => p.tag = t && p.openExch
  | _ => false

/-- The phase a PASS form waits on, with which it resumes as HOLD (R400). -/
def Wait.passPhase : Wait → Option (BitVec 16)
  | .gate _ ph true | .ggate ph true => Option.some ph
  | _ => Option.none

/-- PREEMPT_WAIT_EXIT (R202, R204, R400): a level-0 group that waits with its pre-emption flag set leaves the wait
and traps PREEMPT at the waiting instruction. A second arrival that has not been counted is not left (R369). -/
def State.preemptWait (s : State) (g : Nat) : State :=
  match Tab.get? s.groups g with
  | none => s
  | some x =>
    if x.preempt ∧ x.level = 0 ∧ ¬ x.dead ∧ ¬ x.frozen ∧ x.trap.isNone ∧ x.allWait (fun w => w ≠ .none) then
      let go (b : Bool) : State :=
        let s := (s.leaveRend g).modGrp g fun x =>
          { x with preempt := false, pend := x.pend.filter fun p => !p.lapses }
        let t := x.trapOf b 0x09 0 0 (x.slot b).exm
        s.raise g { t with wph := ((x.slot b).wait.passPhase).orElse fun _ => t.wph }
      if x.canLeave false then go false
      else if x.bLive ∧ x.canLeave true then go true
      else s
    else s

/-! ## After a result is delivered -/

/-- A group whose results changed takes the trap that is due; a fault sends its fusion partner back to the
point (R201), and a delivered last result lets YIELD's PREEMPT and a fusion go on. -/
def State.afterResult (s : State) (g : Nat) : State :=
  match Tab.get? s.groups g with
  | none => s
  | some x =>
    if x.dead then (s.reap g none).checkLate
    else
      let t := s.settle g
      match Tab.get? t.groups g with
      | none => t
      | some y =>
        if y.level ≠ x.level then
          match x.a.wait with
          | .fusing h r _ =>
            match Tab.get? t.groups h with
            | some z => match z.a.wait with | .fusing _ _ d => t.rendArrive h r d | _ => t
            | none => t
          | _ => t
        else if y.resultsOut then t
        else (t.wake g fun w => w = .preempt).tryFuse g

end Sys2Proof.Machine
end

