-- ==== Sys2Proof/Machine/Control.lean ====
section
/-! DEFINITION. The control range: transfers, divergence, YIELD, EXIT and the masks (R191 to R202, R217,
R305 to R314). -/

namespace Sys2Proof.Machine

/-- Bytes of a control or system word. -/
def ctlLen (a : CtlArgs) : Nat := lenBytes a.len

/-- A word count of R282 from an instruction's own address. -/
def relTarget (pc : W64) (w : W32) : W64 := pc + sext32 w * 4

/-- The slot transfers to `t` (R305): parked at JOIN, a switch point when backward, its next instruction 4
ACLK later (R55). -/
def State.transfer (s : State) (c : Cur) (x : Group) (t : W64) : State :=
  let own := (x.slot c.slotB).ipc
  let y := x.moveTo c.slotB t
  let y := y.setSlot c.slotB { y.slot c.slotB with readyAt := s.aclk + 4, why := 9 }
  let y := if t.toNat ≤ own.toNat then y.switchPoint else y
  (s.setGrp c.g y).checkJoin c.g

/-- Go on to a checked target, after `upd`; or wait for its block, freeze or trap (R308). -/
def State.goChecked (s : State) (c : Cur) (x : Group) (land : Bool) (t : W64) (len : Nat) (upd : Group → Group) :
    State :=
  match s.targets c.g x land [(0, t)] with
  | .go => s.transfer c (upd x) t
  | .wait s => s.block c x .fetch len
  | .freeze => s.freeze c.g 1
  | .trap cause sub v _ s => s.trapHere c cause sub v

/-- BRA (R305). -/
def execBra (a : CtlArgs) (s : State) : Out :=
  uniform a.hd (ctlLen a) s fun c x => s.transfer c x (relTarget (x.slot c.slotB).ipc a.x1)

/-- Element 0 of a control source in lane `l` as an integer of the type. -/
def ctlInt (x : Group) (t : Ty) (o : Opnd) (l : Nat) : Int := asInt t (elem t.width (x.srcX o l) 0)

/-- BRAS (R305): a false condition falls through. -/
def execBras (a : CtlArgs) (s : State) : Out :=
  uniform a.hd (ctlLen a) s fun c x =>
    if ccInt a.sub.toNat (ctlInt x a.ty a.sa 0) (ctlInt x a.ty a.sb 0) then
      s.transfer c x (relTarget (x.slot c.slotB).ipc a.x1)
    else s.retire c x (ctlLen a)

/-- JMP (R305). -/
def execJmp (a : CtlArgs) (s : State) : Out :=
  uniform a.hd (ctlLen a) s fun c x => s.goChecked c x true (x.srcS a.sa) (ctlLen a) id

/-- CALL Sd, label (R305): the return address is the call's own address plus its length. -/
def execCallLabel (a : CtlArgs) (s : State) : Out :=
  uniform a.hd (ctlLen a) s fun c x =>
    s.goChecked c x false (relTarget (x.slot c.slotB).ipc a.x1) (ctlLen a) fun x =>
      x.dstS a.dst (x.nextPc c.slotB (ctlLen a))

/-- CALL Sd, Sa (R305): the target is Sa's old value. -/
def execCallReg (a : CtlArgs) (s : State) : Out :=
  uniform a.hd (ctlLen a) s fun c x =>
    s.goChecked c x true (x.srcS a.sa) (ctlLen a) fun x => x.dstS a.dst (x.nextPc c.slotB (ctlLen a))

/-- RET (R305): no landing check. -/
def execRet (a : CtlArgs) (s : State) : Out :=
  uniform a.hd (ctlLen a) s fun c x => s.goChecked c x false (x.srcS a.sa) (ctlLen a) id

/-- LAND (R305, R306) has no effect. -/
def execLand (a : CtlArgs) (s : State) : Out := uniform a.hd (ctlLen a) s fun c x => s.retire c x (ctlLen a)

/-- NOP (R311). -/
def execNop (a : CtlArgs) (s : State) : Out := uniform a.hd (ctlLen a) s fun c x => s.retire c x (ctlLen a)

/-- FILL (R266) is stepped over; it has no header and takes no issue slot. -/
def execFill (s : State) : Out := withCur s fun c x => s.retire c x 4

/-! ## Divergent transfers (R192, R309) -/

/-- A suspended slot as a split-stack entry of four words (R194). -/
def splitEntry (t : Slot) (join : W64) : List W64 :=
  [keep t.pc 0xFFFFFFFFFFFFFC ||| w64 (b2n t.parked), w64 (t.own.toNat * 2 ^ 32 + t.exm.toNat),
   keep join 0xFFFFFFFFFFFFFC, 0]

/-- Push the partner of the issuing slot (R192). -/
def Group.push (x : Group) (t : Slot) : Group :=
  let e := 4 * x.splitSp.toNat
  let w := (numbered e (splitEntry t x.join)).foldl (fun w p => Tab.set w 0 p.1 p.2) x.split
  { x with split := w, splitSp := x.splitSp + 1, stackFree := Tab.put x.stackFree x.splitSp.toNat t.free }

/-- The group after a split of slot `b` (R192): lanes `d` to `target`, the others at `fall`. -/
def Group.splitTo (x : Group) (b : Bool) (d : Mask) (fall target join : W64) (now : Nat) : Group :=
  let t := x.slot b
  let y := if x.bLive then x.push (x.slot !b) else x
  let a' : Slot := { Slot.empty with pc := fall, own := t.own &&& ~~~d, exm := t.exm &&& ~~~d, free := t.free }
  let b' : Slot := { Slot.empty with pc := target, own := d, exm := d, readyAt := now + 4, free := t.free }
  let y := { y with a := a', b := b', bLive := true, join := join }
  (y.parkAt false).parkAt true

/-- Split the issuing slot, or trap SPLITOVF at a full stack (R192, R195). -/
def State.split (s : State) (c : Cur) (x : Group) (d : Mask) (fall target join : W64) : State :=
  if x.bLive ∧ x.splitSp.toNat = 64 then s.trapHere c 0x08 0 0
  else
    let y := x.splitTo c.slotB d fall target join s.aclk
    let y := if target.toNat ≤ (x.slot c.slotB).ipc.toNat then y.switchPoint else y
    (s.setGrp c.g y).checkJoin c.g

/-- BRV (R309): lanes of EXM whose predicate and condition hold go to the target. -/
def execBrv (a : CtlArgs) (s : State) : Out :=
  withCur s fun c x =>
    let pc := (x.slot c.slotB).ipc
    let exm := (x.slot c.slotB).lanes
    let d := Mask.of fun l =>
      x.active1 c.slotB a.hd l && ccInt a.sub.toNat (ctlInt x a.ty a.sa l) (ctlInt x a.ty a.sb l)
    let target := relTarget pc a.x1
    if d = 0 then s.retire c x (ctlLen a)
    else if d = exm then s.transfer c x target
    else s.split c x d (x.nextPc c.slotB (ctlLen a)) target (relTarget pc a.x2)

/-- JMPV (R309): the lanes that share the lowest lane's target go; the others issue it again. -/
def execJmpv (a : CtlArgs) (s : State) : Out :=
  withCur s fun c x =>
    let pc := (x.slot c.slotB).ipc
    let exm := (x.slot c.slotB).lanes
    let part := (Mask.lanes (x.actives c.slotB a.hd)).map fun l => (l, x.srcX a.sa l)
    match part with
    | [] => s.retire c x (ctlLen a)
    | (_, t) :: _ =>
      match s.targets c.g x true part with
      | .wait s => s.block c x .fetch (ctlLen a)
      | .freeze => s.freeze c.g 1
      | .trap cause sub v m s => s.trapMask c cause sub v m
      | .go =>
        let d := Mask.of fun l => part.any fun p => p.1 = l && p.2 = t
        if d = exm then s.transfer c x t else s.split c x d pc t (relTarget pc a.x2)

/-! ## Group control (R310 to R314) -/

/-- YSTATE after a YIELD (R217). -/
def yieldWord (a : YieldArgs) : W64 := w64 (256 * a.d.toNat * 2 ^ 16 + a.sl.toNat * 2 ^ 8 + a.vl.toNat)

/-- What a pre-emption at a YIELD leaves: each register at or above its watermark keeps its value or reads zero (R217). -/
def Group.belowMarks (x : Group) (a : YieldArgs) (n : Nat) : Group :=
  { x with
    v := x.v.filter fun e => e.1 / 32 < a.vl.toNat || Config.deadReg n 0 (e.1 / 32) = 0
    s := x.s.filter fun e => e.1 < a.sl.toNat || Config.deadReg n 1 e.1 = 0 }

/-- A watermark above the declared count: ILLOP, whatever the predicate is (R217, R291, R310). -/
def yieldBad (x : Group) (a : YieldArgs) : Bool := x.vdecl < a.vl.toNat || x.sdecl < a.sl.toNat

/-- YIELD (R217, R310): at a trap level only a switch point. With the pre-emption flag set it waits for the
group's register results, then traps PREEMPT after itself. -/
def execYield (a : YieldArgs) (s : State) : Out :=
  withCur s fun c x =>
    if yieldBad x a then s.illop c (encode (.yield a) % 2 ^ 64)
    else if ¬ x.uniPred a.hd then s.retire c x 8
    else
      let x := x.switchPoint
      if x.level ≠ 0 then s.retire c x 8
      else
        let x := if (x.slot c.slotB).held then x else { x with ystate := yieldWord a }
        if ¬ x.preempt then s.retire c x 8
        else if x.resultsOut then s.block c x .preempt 8
        else
          (s.tickFree.setGrp c.g { x.belowMarks a s.fresh with preempt := false }).trapAfter c 0x09 0 8

/-- Lane sets of the split-stack entries in use (R194). -/
def Group.stackOwn (x : Group) : Mask :=
  (List.range x.splitSp.toNat).foldl (fun m e => m ||| .ofNat 32 (fld (x.splitWord (4 * e + 1)) 32 32)) 0

/-- EXIT (R199, R311): at a trap level, or with EXM zero, the group ends; otherwise the active lanes leave,
and the group ends when no lane is left. -/
def execExit (a : CtlArgs) (s : State) : Out :=
  uniform a.hd (ctlLen a) s fun c x =>
    let t := x.slot c.slotB
    let m := t.lanes
    if x.level ≠ 0 ∨ m = 0 then s.endGroup c.g none
    else
      let y := x.setSlot c.slotB { t with own := t.own &&& ~~~m, exm := t.exm &&& ~~~m }
      if y.allOwn ||| y.stackOwn = 0 then (s.setGrp c.g y).endGroup c.g none
      else s.retire c y (ctlLen a)

/-- Lowest set bit of a mask, or 32. -/
def lowLane (m : Mask) : Nat := ((Mask.lanes m).head?).getD 32

/-- ELECT (R312). -/
def execElect (a : CtlArgs) (s : State) : Out :=
  uniform a.hd (ctlLen a) s fun c x =>
    let lo := lowLane (x.slot c.slotB).lanes
    let y := lanes32.foldl (fun x l => x.setP a.sub.toNat l (if l = lo then 1 else 0)) (x.dstS a.dst (w64 lo))
    s.retire c y (ctlLen a)

/-- EXMRD (R313). -/
def execExmrd (a : CtlArgs) (s : State) : Out :=
  uniform a.hd (ctlLen a) s fun c x =>
    s.retire c (x.dstS a.dst (w64 (x.slot c.slotB).exm.toNat)) (ctlLen a)

/-- EXMRD.OWN (R313). -/
def execExmrdOwn (a : CtlArgs) (s : State) : Out :=
  uniform a.hd (ctlLen a) s fun c x =>
    s.retire c (x.dstS a.dst (w64 (x.slot c.slotB).own.toNat)) (ctlLen a)

/-- Write EXM from the low 32 bits of SA, within OWN (R191, R313). -/
def exmWrite (a : CtlArgs) (s : State) (f : Mask → Mask → Mask) : Out :=
  uniform a.hd (ctlLen a) s fun c x =>
    let t := x.slot c.slotB
    let v := f t.exm ((x.srcS a.sa).setWidth 32)
    s.retire c (x.setSlot c.slotB { t with exm := v &&& t.own }) (ctlLen a)

/-- EXMWR (R313). -/
def execExmwr (a : CtlArgs) (s : State) : Out := exmWrite a s fun _ v => v
/-- EXMWR.AND (R313). -/
def execExmwrAnd (a : CtlArgs) (s : State) : Out := exmWrite a s fun m v => m &&& v
/-- EXMWR.OR (R313). -/
def execExmwrOr (a : CtlArgs) (s : State) : Out := exmWrite a s fun m v => m ||| v

/-- REGROUP (R201, R202, R314). -/
def execRegroup (a : CtlArgs) (s : State) : Out :=
  uniform a.hd (ctlLen a) s fun c x =>
    if x.level ≠ 0 ∨ x.bLive ∨ x.splitSp ≠ 0 then s.illop c (encode (.regroup a) % 2 ^ 64)
    else
      ((s.block c x .none (ctlLen a)).rendArrive c.g a.sub.toNat a.dst).preemptWait c.g

end Sys2Proof.Machine
end

