-- ==== Sys2Proof/Machine/Regs.lean ====
section
/-! DEFINITION. The special registers: numbers, read and write levels, operand class (R34, R318), and the checks of
the system forms that the word and the level alone decide (R292, R315, R318). -/

namespace Sys2Proof.Machine

/-- Levels at which a special register may be read and written, `none` where it never may, and whether it is
per lane (R34). -/
structure SrInfo where
  rd : Option Nat
  wr : Option Nat
  lane : Bool
  deriving DecidableEq, Repr

/-- A register read at level `r` and written at level `w`. -/
def srRw (r w : Nat) : Option SrInfo := some ⟨some r, some w, false⟩
/-- A register read at level `r` and never written. -/
def srRo (r : Nat) : Option SrInfo := some ⟨some r, none, false⟩
/-- A register written at level `w` and never read. -/
def srWo (w : Nat) : Option SrInfo := some ⟨none, some w, false⟩

/-- The register with a number lies in a range of numbers. -/
def srIn (n lo hi : Nat) : Bool := lo ≤ n && n ≤ hi

/-- Per-group registers, 0x000 to 0x0FF (R34). -/
def srGroup (n : Nat) : Option SrInfo :=
  if srIn n 0x000 0x001 then some ⟨some 0, none, true⟩              -- LANEID, THRID (R186)
  else if srIn n 0x002 0x008 then srRo 0                            -- GRPID to BLKLIVE (R186)
  else if srIn n 0x040 0x042 then srRw 1 1                          -- SPLITSP, SPLITIX, SPLITDW (R63)
  else if n = 0x048 then srRw 1 1                                   -- XMAP (R108)
  else if n = 0x049 then srRo 1                                     -- XMAPST (R108)
  else if n = 0x050 then srRw 0 0                                   -- WSEL (R168)
  else if n = 0x058 then srRw 0 1                                   -- YSTATE (R217)
  else if n = 0x05A ∨ n = 0x05C then srRw 0 0                       -- FPST (R224), GCTL (R304)
  else if n = 0x060 then some ⟨some 0, some 0, true⟩                -- RSXST (R230)
  else if n = 0x068 then srRw 0 0                                   -- MSTAT (R260)
  else if n = 0x069 ∨ n = 0x06F then srRo 0                         -- MXGOFF, MXCEXP (R264)
  else if srIn n 0x06A 0x06D then srRw 1 1                          -- MPROG0 to MPROG3 (R259)
  else if n = 0x06E then srRw 0 0                                   -- MXSEL (R264)
  else if srIn n 0x070 0x073 then srRw 0 1                          -- BATCH0 to BATCH3 (R363)
  else if n = 0x074 then srRw 0 1                                   -- GATEGRP (R370)
  else if n = 0x07C then srWo 1                                     -- SWPARK (R407)
  else none

/-- Trap registers, 0x100 to 0x1FF (R397). -/
def srTrap (n : Nat) : Option SrInfo :=
  if n = 0x104 ∨ n = 0x114 ∨ n = 0x124 then srRw 0 1                -- TBASE (R64)
  else if srIn n 0x110 0x113 ∨ srIn n 0x115 0x11C then srRw 1 1
  else if srIn n 0x120 0x123 ∨ srIn n 0x125 0x12C then srRw 2 2
  else none

/-- Core and block registers, 0x200 to 0x2FF. -/
def srBlock (n : Nat) : Option SrInfo :=
  if n = 0x200 then srRw 0 0                                        -- SPSTAT (R61)
  else if srIn n 0x201 0x204 then srRo 0                            -- SPARRST0, SPARRST1, TMAP0, TMAP1
  else if srIn n 0x210 0x211 then srRw 2 2                          -- SCHSEL, SCHCNT (R219)
  else if n = 0x220 then srRw 0 2                                   -- MSTIV (R262)
  else if n = 0x221 then srRo 0                                     -- MCAP (R262)
  else if srIn n 0x230 0x23F then srRw 0 1                          -- HND0 to HND15 (R368)
  else if srIn n 0x240 0x247 then srRw 0 1                          -- GATEST0 to GATEST7 (R370)
  else if srIn n 0x250 0x252 then srRo 0                            -- MXCFG0 to MXCFG2 (R375)
  else if n = 0x254 then srRw 1 1                                   -- SWBLK (R407)
  else none

/-- Context registers, 0x300 to 0x3FF. -/
def srCtx (n : Nat) : Option SrInfo :=
  if n = 0x300 then srRo 0                                          -- PDMASK (R19)
  else if n = 0x301 then srRw 0 2                                   -- ASID (R93)
  else if n = 0x308 then srRw 1 2                                   -- CTXSAVE (R64)
  else if n = 0x309 then srRw 0 0                                   -- RSXSEED (R230)
  else if n = 0x30A then srRw 0 1                                   -- MXCTL (R251)
  else if srIn n 0x30B 0x30C then srRw 1 2                          -- TVEC1, TVEC2 (R395)
  else if n = 0x30D then srRw 0 2                                   -- PMSAVE (R410)
  else if srIn n 0x320 0x33F then srRw 0 1                          -- AGSET0 to AGSET31 (R35)
  else if n = 0x340 then srRo 0                                     -- AGMODE (R112)
  else if n = 0x350 then srRw 0 2                                   -- WGRANT (R166)
  else if srIn n 0x351 0x352 then srRw 0 0                          -- WCFG (R169), WCHST (R170)
  else if srIn n 0x353 0x354 then srRo 0                            -- WCHB, WCHR (R170)
  else if n = 0x355 then srWo 2                                     -- PREQ (R179)
  else if n = 0x360 then srWo 0                                     -- LQDOOR (R207)
  else if srIn n 0x370 0x37F then srRo 0                            -- PPT0 to PPT15 (R249)
  else if srIn n 0x380 0x38F then srRw 0 0                          -- PMCFG0 to PMCFG15 (R411)
  else none

/-- The special register with a number; unassigned numbers have none (R34). -/
def srInfo (n : Nat) : Option SrInfo :=
  if n < 0x100 then srGroup n
  else if n < 0x200 then srTrap n
  else if n < 0x300 then srBlock n
  else if n < 0x400 then srCtx n
  else if srIn n 0x400 0x402 then srRo 0                            -- ORIENT, ABSDIE, TICK
  else none

/-- What the word and the level decide of an access to a special register, in R318's order. -/
inductive SrSt where
  | ok | illop | priv | freeze
  deriving DecidableEq, Repr

/-- An operand is a vector register. -/
def isV : Opnd → Bool
  | .v _ => true
  | _ => false

/-- A read into a destination at a level (R34, R318). -/
def srRead (n level : Nat) (dst : Opnd) : SrSt :=
  match srInfo n with
  | none => .illop
  | some r =>
    if isV dst ≠ r.lane then .illop
    else match r.rd with
      | none => .illop
      | some l => if level < l then .priv else .ok

/-- A write from a source at a level (R34, R318). -/
def srWrite (n level : Nat) (src : Opnd) : SrSt :=
  match srInfo n with
  | none => .illop
  | some r =>
    match r.wr with
    | none => .illop
    | some l => if isV src ≠ r.lane then .illop else if level < l then .freeze else .ok

/-- Register number of a SYSRD or SYSWR. -/
def srNum (a : CtlArgs) : Nat := a.x1.toNat % 4096

/-- ILLOP of a word by its register alone (R318). -/
def srIllop : Instr → Bool
  | .sysrd a => srRead (srNum a) 2 a.dst = .illop
  | .syswr a => srWrite (srNum a) 2 a.sa = .illop
  | _ => false

/-- PRIV by the level rules (R292, R315, R372): TRET or MPROG at level 0, or a read below the read level. -/
def privAt (level : Nat) : Instr → Bool
  | .tret _ | .mprogRd _ | .mprogWr _ => level = 0
  | .sysrd a => srRead (srNum a) level a.dst = .priv
  | _ => false

/-- TVAL of such a PRIV (R396): the register number, or 0 for TRET; for MPROG the spec gives none, and it is free. -/
def privVal (n : Nat) : Instr → W64
  | .sysrd a => w64 (srNum a)
  | .mprogRd _ | .mprogWr _ => Config.privTval n
  | _ => 0

/-- Trap PRIV at the current instruction by the level rules. -/
def State.privTrap (s : State) (c : Cur) (i : Instr) : State := s.tickFree.trapHere c 0x02 0 (privVal s.fresh i)

end Sys2Proof.Machine
end

