-- ==== Sys2Proof/Machine/Issue.lean ====
section
/-! DEFINITION. What a slot can issue, the scoreboard and lookahead windows, eligibility, selection, the
active and pending sets, the watchdog and the issue counters (R197, R198, R214 to R219, R266, R267, R275 to
R277, R292). -/

namespace Sys2Proof.Machine

/-! ## Registers an instruction names -/

/-- Registers of an operand. -/
def opRegs : Opnd → List Dst
  | .v n => [.v n.toNat]
  | .s n => [.s n.toNat]
  | .pv k | .preg k | .lnx k _ => [.p k.toNat]
  | _ => []

/-- `n` consecutive registers from an operand's. -/
def runRegs (o : Opnd) (n : Nat) : List Dst :=
  match o with
  | .v k => (List.range n).map fun i => .v (k.toNat + i)
  | .s k => (List.range n).map fun i => .s (k.toNat + i)
  | _ => []

/-- Registers a form names beside its specifiers: a selecting predicate, and register runs. -/
def moreRegs : Instr → List Dst
  | .ssel a | .vsel a => [.p a.sub.toNat]
  | .elect a => [.p a.sub.toNat]
  | .ldw a => runRegs a.dst (2 ^ a.sub.toNat)
  | .copypPut a | .copypGet a => runRegs a.sa 4
  | .mcfg a => runRegs a.sa 3
  | .mprogRd a => runRegs a.dst 4
  | .mprogWr a => runRegs a.sa 4
  | _ => []

/-- Registers a paired word names (R286). -/
def pairRegs (a : PairArgs) : List Dst :=
  [.p a.pred.toNat, .v a.xd.toNat, if a.yop.isCmp then .p a.yd.toNat else .v a.yd.toNat] ++
  (a.reads.map fun v => .v v.toNat) ++ (if a.ysb then [.s a.yb.toNat] else [])

/-- Every register an instruction names, as a source, a destination or PRED (R276). -/
def named (i : Instr) : List Dst :=
  let ops (h : Hd) (l : List Opnd) : List Dst := .p h.pred.toNat :: l.flatMap opRegs ++ moreRegs i
  match i.view with
  | .alu _ a => ops a.hd [a.dst, a.sa, a.sb, a.sc]
  | .ctl _ a => ops a.hd [a.dst, a.sa, a.sb]
  | .yield a => ops a.hd []
  | .mem _ a => ops a.hd [a.dst, a.sa, a.sb, a.sc]
  | .mat _ a => ops a.hd [a.dst, a.sa, a.sb, a.sc]
  | .agt _ a => ops a.hd [a.sa, a.sb, a.sc]
  | .wlt _ a => ops a.hd [a.dst, a.sa]
  | .pair a => pairRegs a
  | .fill | .event => []

/-- Registers an instruction reads (R44): its sources, its predicates, and the runs it reads. A destination that keeps a
part of its old value is not read (assumption 98). -/
def readsOf (i : Instr) : List Dst :=
  let more : List Dst := match i with
    | .ldw _ | .mprogRd _ => []
    | i => moreRegs i
  let ops (h : Hd) (l : List Opnd) : List Dst := .p h.pred.toNat :: l.flatMap opRegs ++ more
  match i with
  | .ldnr a => ops a.hd [a.sa, a.sb]
  | i => match i.view with
    | .alu _ a => ops a.hd [a.sa, a.sb, a.sc]
    | .ctl _ a => ops a.hd [a.sa, a.sb]
    | .yield a => ops a.hd []
    | .mem _ a => ops a.hd [a.sa, a.sb, a.sc]
    | .mat _ a => ops a.hd [a.sa, a.sb, a.sc]
    | .agt _ a => ops a.hd [a.sa, a.sb, a.sc]
    | .wlt _ a => ops a.hd [a.sa]
    | .pair a => .p a.pred.toNat :: (a.reads.map fun v => .v v.toNat) ++ (if a.ysb then [.s a.yb.toNat] else [])
    | .fill | .event => []

/-- Protected words of the registers a slot's instruction reads: a vector or predicate register is read in the lanes of
EXM (R44, assumption 98). -/
def readSpots (g : Nat) (x : Group) (b : Bool) (i : Instr) : List Spot :=
  let ls := Mask.lanes (x.slot b).lanes
  (readsOf i).eraseDups.flatMap fun d =>
    match d with
    | .v n => ls.map fun l => .v g n l
    | .s n => [.s g n]
    | .p n => if n = 0 then [] else ls.map fun l => .p g n l

/-- The register is declared (R40). -/
def Group.declares (x : Group) : Dst → Bool
  | .v n => n < x.vdecl
  | .s n => n < x.sdecl
  | .p _ => true

/-- The instruction ends every lookahead window before it (R275). -/
def endsWindow (i : Instr) : Bool :=
  match i.view with
  | .ctl _ _ | .yield _ => true
  | .mem f _ => 0xA8 ≤ f.opc && f.opc ≤ 0xAC
  | _ => false

/-- Specifier code a LOOKV trap reports (R396). -/
def specOf : Dst → Nat
  | .v n => n
  | .s n => 0x100 + n
  | .p k => 0x1F0 + k

/-! ## What a slot can issue -/

/-- Why a slot does not issue, or what it issues. -/
inductive SlotSt where
  | idle                                   -- no lanes, parked, stopped
  | waits (w : Wait)                       -- its instruction waits
  | later (why : Nat)                      -- redirect, trap entry or a stall of known length, with its reason (R219)
  | fetch                                  -- instruction-fetch miss
  | busy                                   -- its unit is busy (R324)
  | result (short long : Bool)             -- pending results: one of a predicted-long load that missed, and another
  | fill
  | fetchTrap (subc : Nat)                 -- the block's fetch was refused (R102)
  | frozen                                 -- outside PDMASK (R18)
  | badWord (w : Nat)                      -- ILLOP at decode (R291)
  | priv (i : Instr)                       -- PRIV by the level rules (R292)
  | look (r : Dst)                         -- LOOKV (R276)
  | go (i : Instr) (len : Nat)
  deriving DecidableEq, Repr

/-- A pending result holds slot `b` at its next instruction (R275), and so does an access that is to be refused
(R102). -/
def Pend.holds (p : Pend) (b ender : Bool) : Bool :=
  p.slotB = b && (p.bars || (p.long && !p.dsts.isEmpty && (ender || p.win = none || p.win = some 0)))

/-- The predictor marks a load long (R214). -/
def State.predLong (s : State) (g : Nat) (pc : W64) : Bool :=
  2 ≤ Tab.getD (s.core (coreOf g)).pred 0 (schedOf g * 64 + fld pc 4 6)

/-- The result of a load predicted long that missed L1 (R214). -/
def State.longPend (s : State) (g : Nat) (p : Pend) : Bool :=
  p.kind = .load && p.missed && s.predLong g p.pc

/-- The destination of a WRECV that waits in a slot (R175, R276). -/
def Slot.rxDst (t : Slot) : List Dst :=
  match t.wait with
  | .welt _ _ (some (d, _)) => opRegs d
  | _ => []

/-- What the scoreboard says of an instruction (R198, R275, R276): a window's end first, then LOOKV, then pending
registers. -/
def State.scoreboard (s : State) (g : Nat) (x : Group) (b : Bool) (i : Instr) (len : Nat) : SlotSt :=
  let regs := named i
  let hit (p : Pend) : Bool := p.dsts.any fun d => regs.contains d
  let ends (p : Pend) : Bool := p.holds b (endsWindow i)
  let look := if x.pend.any ends then none
    else (x.pend.find? fun p => p.long && p.slotB = b && hit p).bind fun p => p.dsts.find? fun d => regs.contains d
  match look with
  | some d => .look d
  | none =>
    let all := x.pend.filter fun p => ends p || hit p
    let rx := x.bLive && ((x.slot (!b)).rxDst.any fun d => regs.contains d)
    if all.isEmpty && !rx then .go i len
    else .result (rx || all.any fun p => !s.longPend g p) (all.any fun p => s.longPend g p)

/-- Unit of an instruction and how long it keeps it, where that is more than 1 ACLK (R324): 0 integer divide,
1 float divide and root, 2 special functions, 3 MX conversion, 4 reductions. -/
def unitOf (i : Instr) : Option (Nat × Nat) :=
  match i.view with
  | .alu f a =>
    if f.opc = 0x45 ∨ f.opc = 0x46 then some (0, if a.ty.width = 64 then 8 else 4)
    else if f.opc = 0x68 ∨ f.opc = 0x69 then some (1, if a.ty.width = 64 then 8 else 4)
    else if 0x70 ≤ f.opc ∧ f.opc ≤ 0x76 then some (2, 4)
    else if f.opc = 0x83 ∨ f.opc = 0x84 then some (3, 2)
    else if f.opc = 0x90 ∨ f.opc = 0x91 then some (4, 2)
    else none
  | _ => none

/-- The instruction's unit is busy (R324). -/
def State.unitBusy (s : State) (g : Nat) (i : Instr) : Bool :=
  match unitOf i with
  | some (u, _) => s.aclk < Tab.getD (s.core (coreOf g)).unit 0 (schedOf g * 8 + u)
  | none => false

/-- Occupy the instruction's unit. -/
def State.useUnit (s : State) (g : Nat) (i : Instr) : State :=
  match unitOf i with
  | some (u, n) =>
    s.modCore (coreOf g) fun c => { c with unit := Tab.put c.unit (schedOf g * 8 + u) (s.aclk + n) }
  | none => s

/-- First 64 bits of the word at an address of a fetched block. -/
def rawWord (blk : List Byte) (pc : W64) : Nat :=
  let w := natOfBytes (blk.drop (pc.toNat % 32))
  w % 2 ^ min 64 (wordBits w)

/-- ILLOP of a YIELD by a watermark above the declared counts, whatever its predicate (R291, R310). -/
def markIllop (x : Group) (i : Instr) : Bool :=
  match i with
  | .yield a => yieldBad x a
  | _ => false

/-- The reason of a slot that issues nothing for a known time: the lowest of those it meets (R219). -/
def laterWhy (x : Group) (t : Slot) (now : Nat) : Nat :=
  min (if now < t.readyAt then t.why else 15) (if now < x.readyAt then x.why else 15)

/-- What a slot of a group would issue now. -/
def State.slotSt (s : State) (g : Nat) (x : Group) (b : Bool) : SlotSt :=
  let t := x.slot b
  let c := s.ctx x.ctx
  let pc := t.ipc
  if t.isParked ∨ (b ∧ ¬ x.bLive) then .idle
  else if t.wait ≠ .none then .waits t.wait
  else if x.bLive ∧ (x.slot (!b)).wait = .stall then .waits .stall
  else if s.aclk < max t.readyAt x.readyAt then .later (laterWhy x t s.aclk)
  else match vaCheck s c (dieOf g) pc with
    | .unmapped => .fetchTrap scUnmapped
    | .absent => .fetchTrap scAbsent
    | .frozen => .frozen
    | .ok =>
      match s.fetchSt (coreOf g) (s.asidAt x.ctx (coreOf g)) (blkOf pc) with
      | .pending | .miss => .fetch
      | .refused sc => .fetchTrap sc
      | .hit blk =>
        if crosses blk pc then .badWord 0
        else match wordAt blk pc with
          | .error _ => .badWord (rawWord blk pc)
          | .ok (.fill, _) => .fill
          | .ok (i, len) =>
            if (named i).all x.declares then
              if t.held ∧ t.counted then .go i len
              else if srIllop i ∨ markIllop x i then .badWord (rawWord blk pc)
              else if privAt x.level i then .priv i
              else if s.unitBusy g i then .busy
              else s.scoreboard g x b i len
            else .badWord (rawWord blk pc)

/-- A slot that can take its next step. -/
def SlotSt.able : SlotSt → Bool
  | .fill | .fetchTrap _ | .frozen | .badWord _ | .priv _ | .look _ | .go _ _ => true
  | _ => false

/-- It takes a trap or a freeze before it has an instruction to issue (R18, R102). -/
def SlotSt.unfetched : SlotSt → Bool
  | .fetchTrap _ | .frozen => true
  | _ => false

/-- The group takes part in issue: it is active and nothing stops it (R187, R395, R402, R404, R408, R412). -/
def State.runs (s : State) (x : Group) : Bool :=
  let c := s.ctx x.ctx
  !x.dead && x.active && !x.frozen && !c.stop && c.ending.isNone && x.trap.isNone &&
  !(x.faults.any x.faultDue) && (!(s.blk x.blk).going || (s.blk x.blk).swLead = some x.gid)

/-- The slot the group issues from, if one can (R197). After a switch point the other slot goes first; at a
stall of more than 1 ACLK the scheduler may take the other one. DESIGN CHOICE (assumption 106): after a forward split,
a reconvergence or TRET, where the spec leaves the order of the slots to the scheduler, it goes on with the slot that
issued last, slot A when that slot is new. -/
def State.pickSlot (s : State) (g : Nat) (x : Group) : Option Bool :=
  let ok (b : Bool) : Bool := (s.slotSt g x b).able
  let both := x.bLive && !x.a.isParked && !x.b.isParked
  if both then
    let first := if x.switch then !x.lastB else x.lastB
    if ok first then some first
    else if ok (!first) ∧ (x.switch ∨ (x.lastAt + 2 ≤ s.aclk ∧ Config.slotSwitch s.fresh = 0)) then some (!first)
    else none
  else if ok false then some false
  else if ok true then some true
  else none

/-- The group is eligible (R216): it can issue, and what it issues is fetched. -/
def State.eligible (s : State) (g : Nat) (x : Group) : Bool :=
  s.runs x && match s.pickSlot g x with
    | some b => !(s.slotSt g x b).unfetched
    | none => false

/-! ## Selection (R216) -/

/-- `x` is older than `y`. -/
def Group.older (x y : Group) : Bool :=
  x.age < y.age || (x.age = y.age && (x.ord < y.ord || (x.ord = y.ord && x.gid < y.gid)))

/-- The oldest of some groups. -/
def oldest (l : List (Nat × Group)) : Option (Nat × Group) :=
  l.foldl (fun a e => match a with
    | none => some e
    | some o => if e.2.older o.2 then some e else some o) none

/-- Groups of a scheduler (core × 4 + scheduler), ended ones and those not yet restored apart (R408). -/
def State.onSched (s : State) (k : Nat) : List (Nat × Group) :=
  s.groups.filter fun e => e.1 / 12 = k && !e.2.dead && !e.2.thr.isEmpty

/-- The scheduler's choice: the oldest group eligible for 64 ACLK, else the oldest eligible group (R216); none
while it swaps (R215). -/
def State.pickGroup (s : State) (k : Nat) : Option (Nat × Group) :=
  if s.aclk < Tab.getD (s.core (k / 4)).swapTill 0 (k % 4) then none
  else
    let el := (s.onSched k).filter fun e => s.eligible e.1 e.2
    let old := el.filter fun e => match e.2.eligSince with | some t => t + 64 ≤ s.aclk | none => false
    match oldest old with
    | some e => some e
    | none => oldest el

/-- The next scheduler from number `k` on with a group to issue. -/
def State.nextIssue (s : State) (k : Nat) : Option (Nat × Nat × Group) :=
  let ks := uniq ((s.groups.map fun e => e.1 / 12).filter fun i => k ≤ i)
  ks.findSome? fun i => (s.pickGroup i).map fun e => (i, e.1, e.2)

/-! ## The watchdog and issue (R218, R275) -/

/-- YSTATE.ICOUNT and DEADLINE. -/
def icountOf (y : W64) : Nat := fld y 32 13
def deadlineOf (y : W64) : Nat := fld y 16 13

/-- WATCHDOG_EXPIRY (R218): the group's context ends with YIELDOVR. -/
def State.watchdog (s : State) (g : Nat) : State :=
  match Tab.get? s.groups g with
  | some x => s.endCtx x.ctx 2 (grpid g x.gid) 0 0 (x.slot x.lastB).ipc
  | none => s

/-- An instruction of slot `b` is counted and its slot's windows advance (R218, R275). -/
def Group.counted (x : Group) (b : Bool) (ender : Bool) (now : Nat) : Group :=
  let adv (p : Pend) : Pend :=
    if p.slotB = b then
      { p with win := if ender then none else p.win.map fun k => k - 1, taken := p.taken + 1 }
    else p
  let y := if x.level = 0 then setFld x.ystate 32 13 (icountOf x.ystate + 1) else x.ystate
  let x := x.setSlot b { x.slot b with counted := true }
  { x with ystate := y, pend := x.pend.map adv, seq := x.seq + 1, switch := false, lastB := b, lastAt := now,
           eligSince := none }

/-- Instructions issued are counted for the context (R411). -/
def State.countIssue (s : State) (g : Nat) : State := s.countEvent g 0x01 1

/-- A step of the group's slot short of executing its instruction: `none` when the instruction `i` is to be
executed next, in the state given (R292). -/
def State.preIssue (s : State) (g : Nat) (b : Bool) : State × Option Instr :=
  match Tab.get? s.groups g with
  | none => (s, none)
  | some x =>
    let c : Cur := ⟨g, b⟩
    let s := { s with cur := some c }
    let blk := blkOf (x.slot b).ipc
    match s.slotSt g x b with
    | .fill => (s, some .fill)
    | .frozen => (s.freeze g 1, none)
    | .fetchTrap sc =>
      ((s.fetchForget (coreOf g) (s.asidAt x.ctx (coreOf g)) blk).trapHere c 0x04 sc (w64 (blk * 32)), none)
    | .badWord w => (s.illop c w, none)
    | .priv i => (s.privTrap c i, none)
    | .look r => (s.trapHere c 0x07 0 (w64 (specOf r)), none)
    | .go i _ =>
      if (x.slot b).held ∧ (x.slot b).counted then (s, some i)
      else if x.level = 0 ∧ deadlineOf x.ystate < icountOf x.ystate + 1 then
        ((s.modGrp g fun x => { x with lastB := b }).watchdog g, none)
      else match s.checked g fun x => readSpots g x b i with
        | some s => (((s.modGrp g fun x => x.counted b (endsWindow i) s.aclk).countIssue g).useUnit g i, some i)
        | none => (s.freeze g 5, none)
    | _ => (s, none)

/-! ## The active and pending sets (R214, R215) -/

/-- Waits that are long (R214). -/
def Wait.long : Wait → Bool
  | .batch _ _ | .gate _ _ _ | .ggate _ _ | .gateBusy _ | .sig _ | .welt _ _ _ | .rendezvous _ _ | .xshfl _ | .rank | .lost => true
  | _ => false

/-- An active group is long-waiting (R214). -/
def State.longWaits (s : State) (g : Nat) (x : Group) : Bool :=
  let slotLong (b : Bool) : Bool :=
    match s.slotSt g x b with
    | .waits w => w.long
    | .result _ l => l
    | _ => false
  let idle (b : Bool) : Bool := s.slotSt g x b = .idle
  (slotLong false || slotLong true) && (slotLong false || idle false) && (slotLong true || idle true)

/-- A pending group is ready: it waits on nothing (R214). -/
def State.readyNow (s : State) (g : Nat) (x : Group) : Bool :=
  !x.dead && !x.active && !x.frozen && ((s.slotSt g x false).able || (s.slotSt g x true).able)

/-- The oldest ready pending group of a scheduler. -/
def State.readyOf (s : State) (k : Nat) : Option (Nat × Group) :=
  oldest ((s.onSched k).filter fun e => s.readyNow e.1 e.2)

/-- ACTIVE_POSITION_FILL (R215): a free active position takes the oldest ready pending group. -/
def State.fillOne (s : State) (k : Nat) : State :=
  if 8 ≤ ((s.onSched k).filter fun e => e.2.active).length then s
  else match s.readyOf k with
    | some (g, _) => s.modGrp g fun x => { x with active := true }
    | none => s

/-- At the end of an ACLK every free position is filled: the groups take part from the next ACLK on (R215). -/
def State.fillActive (s : State) (k : Nat) : State := (List.range 8).foldl (fun s _ => s.fillOne k) s

/-- The active group that became long-waiting earliest. DESIGN CHOICE (assumption 107): of two since the same ACLK, the
older. -/
def State.firstLong (s : State) (k : Nat) : Option (Nat × Group) :=
  ((s.onSched k).filter fun e => e.2.active && e.2.longSince.isSome).foldl (fun a e =>
    match a with
    | none => some e
    | some o =>
      let te := e.2.longSince.getD 0
      let t := o.2.longSince.getD 0
      if te < t ∨ (te = t ∧ e.2.older o.2) then some e else some o) none

/-- SCHEDULER_SWAP (R215): the oldest ready pending group and the active group that became long-waiting
earliest change places; the scheduler issues nothing for 2 ACLK. -/
def State.swapSched (s : State) (k : Nat) : State :=
  if s.aclk < Tab.getD (s.core (k / 4)).swapTill 0 (k % 4) then s
  else match s.readyOf k, s.firstLong k with
  | some (g, _), some (h, _) =>
    let s := s.modGrp g fun x => { x with active := true }
    let s := s.modGrp h fun x => { x with active := false, longSince := none }
    s.modCore (k / 4) fun c => { c with swapTill := Tab.put c.swapTill (k % 4) (s.aclk + 2) }
  | _, _ => s

/-! ## The issue counters (R219) -/

/-- Stall reason of a slot (R219). -/
def SlotSt.reason : SlotSt → Option Nat
  | .idle => none
  | .result short _ => some (if short then 1 else 2)
  | .fetch => some 8
  | .busy => some 10
  | .later w => some w
  | .waits w =>
    match w with
    | .batch _ _ | .batchNew _ => some 3
    | .gate _ _ _ | .ggate _ _ | .gateBusy _ => some 4
    | .welt _ _ _ | .lost => some 5
    | .rendezvous _ _ | .fusing _ _ _ | .xshfl _ => some 6
    | .queue | .loop | .stall => some 10
    | .acks | .xmap | .parkFull | .park _ => some 11
    | .handle _ _ => some 12
    | .sig _ => some 13
    | .rank => some 2
    | .fetch => some 8
    | .preempt => some 1
    | .none => none
  | _ => none

/-- The reason that holds a group: the lowest code from 1 up among those it meets (R219). -/
def State.stallOf (s : State) (g : Nat) (x : Group) : Nat :=
  let sw := s.aclk < Tab.getD (s.core (coreOf g)).swapTill 0 (schedOf g)
  let own := [(s.slotSt g x false).reason, (s.slotSt g x true).reason].filterMap id
  let more := (if x.a.isParked ∧ (¬ x.bLive ∨ x.b.isParked) then [7] else []) ++
    (if sw ∨ ¬ x.active then [14] else []) ++ [15]
  (own ++ more).foldl min 15

/-- A counter of a scheduler (R219): entries 0 to 8 the bins, 9 to 24 the stall counters; bin 0 and reason 0
are kept relative to the ACLK count since cold reset. -/
def State.cntRead (s : State) (core sched i : Nat) : W64 :=
  let v := Tab.getD (s.core core).cnt 0 (sched * 25 + i)
  if i = 0 ∨ i = 9 then v + w64 (s.aclk - s.coldAt) else v

/-- Add to a counter. -/
def State.cntAdd (s : State) (core sched i : Nat) (d : W64) : State :=
  s.modCore core fun c =>
    { c with cnt := Tab.set c.cnt 0 (sched * 25 + i) (Tab.getD c.cnt 0 (sched * 25 + i) + d) }

/-- Per-ACLK performance events of a context on a core (R411): residence, the scheduler's bin, and its stall
reason when it is charged to a group of the context. -/
def State.pmTick (s : State) (k elig : Nat) (stall : Option (Nat × Nat)) (b : PmBank) : PmBank :=
  let cfgOf (i : Nat) : W64 := Tab.getD (s.ctx b.ctx).pmcfg 0 i
  let here := (s.onSched k).filter fun e => e.2.ctx = b.ctx
  let hitI (i : Nat) : Bool :=
    let c := cfgOf i
    let seen := here.filter fun e => e.2.level = 0 || bit64 c 30
    let ev := fld c 0 8
    let first := (s.groups.find? fun e => coreOf e.1 = k / 4 && !e.2.dead && e.2.ctx = b.ctx)
    bit64 c 31 && (4 ≤ fld c 8 4 || fld c 8 4 = k % 4) && !seen.isEmpty &&
    ((ev = 0 && (fld c 8 4 < 4 || (match first with | some e => e.1 / 12 = k | none => false))) ||
     ev = 0x10 + elig ||
     (match stall with | some (r, ctx) => ev = 0x20 + r && ctx = b.ctx | none => false))
  if b.core = k / 4 ∧ ¬ here.isEmpty then
    let up (t : Tab W64) (i : Nat) : Tab W64 := if hitI i then b.plus s.aclk 1 t i else t
    { b with ctr := (List.range 16).foldl up b.ctr }
  else b

/-- ISSUE_COUNTERS for one scheduler with resident groups (R219, R411). -/
def State.countSched (s : State) (k : Nat) : State :=
  let all := s.onSched k
  match oldest all with
  | none => s
  | some (g, x) =>
    let core := k / 4
    let sched := k % 4
    let elig := (all.filter fun e => s.eligible e.1 e.2).length
    let t :=
      if elig = 0 then
        let r := s.stallOf g x
        (s.cntAdd core sched 9 (-1)).cntAdd core sched (9 + r) 1
      else ((s.cntAdd core sched 0 (-1)).cntAdd core sched elig 1).cntAdd core sched 9 (-1)
    let stall := if elig = 0 then some (s.stallOf g x, x.ctx) else none
    { t with pms := s.pms.map (s.pmTick k elig stall) }

/-- Schedulers with resident groups. -/
def State.scheds (s : State) : List Nat := uniq (s.groups.map fun e => e.1 / 12)

/-- ISSUE_COUNTERS (R219): every scheduler counts the ACLK. -/
def State.countAll (s : State) : State := s.scheds.foldl (fun s k => s.countSched k) s

/-- Since when each group is eligible and long-waiting (R215, R216). -/
def State.markSince (s : State) : State :=
  let mark (e : Nat × Group) : Nat × Group :=
    let x := e.2
    let el := if s.eligible e.1 x then some (x.eligSince.getD s.aclk) else none
    let lg := if x.active ∧ s.longWaits e.1 x then some (x.longSince.getD s.aclk) else none
    (e.1, { x with eligSince := el, longSince := lg })
  { s with groups := s.groups.map mark }

/-- Ask for the block each waiting slot needs next (R55). -/
def State.fetchAll (s : State) : State :=
  s.groups.foldl (fun s e =>
    let ask (s : State) (b : Bool) : State :=
      let t := e.2.slot b
      let asid := s.asidAt e.2.ctx (coreOf e.1)
      if s.slotSt e.1 e.2 b = .fetch ∧ s.fetchSt (coreOf e.1) asid (blkOf t.ipc) = .miss ∧ ¬ e.2.dead ∧
          ¬ e.2.frozen then
        s.fetchAsk (coreOf e.1) asid (blkOf t.ipc) (s.blk e.2.blk).cls
      else s
    ask (ask s false) true) s

/-- A group whose next instruction was refused or lies outside the partition traps or freezes before it issues. -/
def State.unfetched (s : State) (g : Nat) : State :=
  match Tab.get? s.groups g with
  | none => s
  | some x =>
    match s.pickSlot g x with
    | some b => if s.runs x && (s.slotSt g x b).unfetched then { (s.preIssue g b).1 with cur := none } else s
    | none => s

/-- The start of an ACLK: fetches, traps that are due, and waits a pre-emption flag ends. -/
def State.openAclk (s : State) : State :=
  let s := s.groups.foldl (fun s e => s.settle e.1) s.fetchAll
  let s := s.groups.foldl (fun s e => s.preemptWait e.1) s
  s.groups.foldl (fun s e => s.unfetched e.1) s

/-- Then what the schedulers find: eligibility, swaps, and the counters. -/
def State.survey (s : State) : State :=
  let s := s.markSince
  (s.scheds.foldl (fun s k => s.swapSched k) s).countAll

/-- The end of an ACLK at the schedulers: their free positions are filled. -/
def State.fillAll (s : State) : State := s.scheds.foldl (fun s k => s.fillActive k) s

end Sys2Proof.Machine
end

