-- ==== Sys2Proof/Machine/Create.lean ====
section
/-! DEFINITION. The creation of a group (R43, R64, R185, R186, R191, R217, R231, R397), and the placement of a
word to run at once. -/

namespace Sys2Proof.Machine

/-- Threads of group `gid` of a block of `nthr` threads: lane to thread (R183, R185). -/
def threadsOf (gid nthr : Nat) : Tab Nat :=
  (lanes32.filter fun l => 32 * gid + l < nthr).map fun l => (l, 32 * gid + l)

/-- TBASE of a group in a slot (R64). -/
def tbaseOf (ctxsave : W64) (g : Nat) : W64 := w64 (fld ctxsave 16 40 * 2 ^ 16 + g * 1536)

/-- A group as it is created (R43, R191): registers zero, slot A with every thread's lane, level 0. Tags of its
results start above those of any earlier group of the slot. -/
def newGroup (b : Block) (c : Ctx) (g gid : Nat) (thr : Tab Nat) (age yl now : Nat) (pc : W64) : Group :=
  let own := Mask.of fun l => (Tab.get? thr l).isSome
  let tb := tbaseOf c.ctxsave g
  let rsx := lanes32.map fun l => (l, rsxInit (.ofNat 32 (fld c.rsxseed 0 32)) b.lin ((Tab.get? thr l).getD (32 * gid + l)))
  let ys := w64 (256 * (yl + 1) * 2 ^ 16 + b.sregs * 2 ^ 8 + b.vregs)
  { ctx := b.ctx, blk := b.id, gid := gid, thr := thr, age := age, ord := b.ord, vdecl := b.vregs,
    sdecl := b.sregs, level := 0, a := { Slot.empty with pc := pc, own := own, exm := own }, b := Slot.empty,
    bLive := false, join := 0, lastB := false, switch := false, split := [], splitSp := 0, splitIx := 0,
    v := [], s := [], p := [], rsx := rsx, fpst := 0, gctl := 0, ystate := ys, wsel := 0, gategrp := 0,
    mstat := 0, mxsel := 0, xmapst := 0, mprog0 := 0, mprog1 := 0, mprog2 := 0, mprog3 := 0,
    bank1 := TrapBank.reset, bank2 := TrapBank.reset, tbase0 := tb, tbase1 := tb, tbase2 := tb,
    bat0 := BatchCls.reset, bat1 := BatchCls.reset, bat2 := BatchCls.reset, bat3 := BatchCls.reset,
    preempt := false, pend := [], faults := [], trap := none, nextTag := 64 * now, seq := 0, readyAt := 0,
    active := false, lastAt := now, longSince := none, eligSince := none, frozen := false,
    dead := false }

/-! ## Placing a word to run at once -/

/-- Context 0 of partition 0, on die 0. -/
def loadCtx : Ctx := { Ctx.nil with pdmask := 1 }

/-- A block of one group that declares every register. -/
def loadBlock : Block :=
  { Block.nil with nthr := 32, vregs := 255, sregs := 128, live := 1, places := [(0, .slot 0)] }

/-- The group, in slot 0 of core 0, with every lane, at address 0. -/
def loadGroup : Group := { newGroup loadBlock loadCtx 0 0 (threadsOf 0 32) 0 15 0 0 with active := true }

/-- An instruction-cache line that holds a word at address 0, zeros after it. -/
def loadLine (nbits w : Nat) : IcLine := ⟨0, 0, bytesOf 128 (w % 2 ^ nbits), 0⟩

end Sys2Proof.Machine
end

