-- ==== Sys2Proof/Machine/Scalar.lean ====
section
/-! DEFINITION. The scalar ALU (R300 to R304). -/

namespace Sys2Proof.Machine

/-- Element `e` of a scalar source. -/
def sBits (x : Group) (a : AluArgs) (o : Opnd) (e : Nat) : Nat := srcBits x a a.ty Sel.off o 0 e
/-- Element `e` of a scalar source as the type's integer. -/
def sInt (x : Group) (a : AluArgs) (o : Opnd) (e : Nat) : Int := asInt a.ty (sBits x a o e)

/-- The packed result of an element function (R300). -/
def sPack (a : AluArgs) (f : Nat → Nat) : W64 := packElems a.ty.width ((elemsOf a.ty).map f)

/-- A scalar form that writes its destination at issue (R448): element `e` of the result is `f`. -/
def scalarOp (a : AluArgs) (s : State) (f : Group → Nat → Nat) : Out :=
  uniform a.hd (lenBytes a.ext.len) s fun c x =>
    s.retire c (x.dstS a.dst (sPack a (f x))) (lenBytes a.ext.len)

/-- A two-source form on exact integers, wrapped or clamped (R300, R301). -/
def scalarInt (a : AluArgs) (s : State) (f : Int → Int → Int) : Out :=
  scalarOp a s fun x e => fitInt a.ty a.mods.sat (f (sInt x a a.sa e) (sInt x a a.sb e))

/-- A form on element bits. -/
def scalarBits (a : AluArgs) (s : State) (f : Nat → Nat → Nat) : Out :=
  scalarOp a s fun x e => f (sBits x a a.sa e) (sBits x a a.sb e)

/-- SADD (R301). -/
def execSadd (a : AluArgs) (s : State) : Out := scalarInt a s (· + ·)
/-- SSUB (R301). -/
def execSsub (a : AluArgs) (s : State) : Out := scalarInt a s (· - ·)
/-- SMUL (R301). -/
def execSmul (a : AluArgs) (s : State) : Out := scalarInt a s (· * ·)
/-- SMULH (R301): the upper half of the exact product. -/
def execSmulh (a : AluArgs) (s : State) : Out := scalarInt a s fun x y => x * y / (2 ^ a.ty.width : Nat)
/-- SAND (R301). -/
def execSand (a : AluArgs) (s : State) : Out := scalarBits a s fun x y => x &&& y
/-- SOR (R301). -/
def execSor (a : AluArgs) (s : State) : Out := scalarBits a s fun x y => x ||| y
/-- SXOR (R301). -/
def execSxor (a : AluArgs) (s : State) : Out := scalarBits a s fun x y => x ^^^ y

/-- Shift left of a `w`-bit element: 0 for a count of `w` or more. -/
def shlBits (w x k : Nat) : Nat := if w ≤ k then 0 else x * 2 ^ k % 2 ^ w
/-- Logical shift right. -/
def shrBits (w x k : Nat) : Nat := if w ≤ k then 0 else x / 2 ^ k
/-- Arithmetic shift right by min(k, w). -/
def sraBits (w x k : Nat) : Nat := wrap w (sgn w x / (2 ^ min k w : Nat))

/-- SSHL (R301). -/
def execSshl (a : AluArgs) (s : State) : Out := scalarBits a s (shlBits a.ty.width)
/-- SSHR (R301). -/
def execSshr (a : AluArgs) (s : State) : Out := scalarBits a s (shrBits a.ty.width)
/-- SSRA (R301). -/
def execSsra (a : AluArgs) (s : State) : Out := scalarBits a s (sraBits a.ty.width)
/-- SMIN (R301). -/
def execSmin (a : AluArgs) (s : State) : Out := scalarInt a s min
/-- SMAX (R301). -/
def execSmax (a : AluArgs) (s : State) : Out := scalarInt a s max

/-- SCMP (R301): bits 0 to N − 1 of Pd, the others cleared, in every lane. -/
def execScmp (a : AluArgs) (s : State) : Out :=
  uniform a.hd (lenBytes a.ext.len) s fun c x =>
    let p := pOf a.ty.count fun e => ccInt a.sub.toNat (sInt x a a.sa e) (sInt x a a.sb e)
    s.retire c (x.setPall (pIdx a.dst) p) (lenBytes a.ext.len)

/-- SSEL (R301): bit e of Pk in lane 0 selects. -/
def execSsel (a : AluArgs) (s : State) : Out :=
  scalarOp a s fun x e =>
    if (x.getP a.sub.toNat 0).toNat / 2 ^ e % 2 = 1 then sBits x a a.sa e else sBits x a a.sb e

/-- SMOV (R301). -/
def execSmov (a : AluArgs) (s : State) : Out := scalarBits a s fun x _ => x

/-- Write IMM32 into half `h` of a scalar destination, the other bits kept (R301). -/
def scalarMovi (a : AluArgs) (s : State) (h : Nat) : Out :=
  uniform a.hd (lenBytes a.ext.len) s fun c x =>
    let old := match a.dst with | .s n => x.getS n.toNat | _ => 0
    s.retire c (x.dstS a.dst (setFld old (32 * h) 32 (aluI32 a).toNat)) (lenBytes a.ext.len)

/-- SMOVI (R301). -/
def execSmovi (a : AluArgs) (s : State) : Out := scalarMovi a s 0
/-- SMOVI.HI (R301). -/
def execSmoviHi (a : AluArgs) (s : State) : Out := scalarMovi a s 1

/-- SLEA (R301). -/
def execSlea (a : AluArgs) (s : State) : Out :=
  scalarBits a s fun x y => (x + y * 2 ^ a.sub.toNat) % 2 ^ 64

/-- Field width of a control word (R303): min(len, 64 − pos). -/
def bfWidth (ctl : Nat) : Nat := min (bitsN ctl 8 7) (64 - bitsN ctl 0 6)

/-- Field extract (R303). -/
def bfExtract (signed : Bool) (x ctl : Nat) : Nat :=
  let f := bfWidth ctl
  let v := bitsN x (bitsN ctl 0 6) f
  if f = 0 then 0 else if signed then wrap 64 (sgn f v) else v

/-- Field insert (R303). -/
def bfInsert (x y ctl : Nat) : Nat :=
  let f := bfWidth ctl
  if f = 0 then x else (setFld (w64 x) (bitsN ctl 0 6) f y).toNat

/-- SBFE (R303). -/
def execSbfe (a : AluArgs) (s : State) : Out := scalarBits a s (bfExtract (a.ty = .i64))
/-- SBFI (R303). -/
def execSbfi (a : AluArgs) (s : State) : Out :=
  scalarOp a s fun x e => bfInsert (sBits x a a.sa e) (sBits x a a.sb e) (sBits x a a.sc e)
/-- SPOPC (R301). -/
def execSpopc (a : AluArgs) (s : State) : Out := scalarBits a s fun x _ => popN a.ty.width x
/-- SCLZ (R301). -/
def execSclz (a : AluArgs) (s : State) : Out := scalarBits a s fun x _ => clzN a.ty.width x
/-- SBREV (R301). -/
def execSbrev (a : AluArgs) (s : State) : Out := scalarBits a s fun x _ => revN a.ty.width x

/-! ## Division (R302) -/

/-- Quotient of R302, DIVZEN = 0, before it wraps or clamps. -/
def divInt (t : Ty) (sat : Bool) (x y : Int) : Int :=
  if y = 0 then
    match t.kind with
    | .int => if sat then (if x < 0 then -(2 ^ (t.width - 1) : Nat) else (2 ^ (t.width - 1) : Nat) - 1) else -1
    | _ => (2 ^ t.width : Nat) - 1
  else Int.tdiv x y

/-- Remainder of R302, DIVZEN = 0. -/
def remInt (x y : Int) : Int := if y = 0 then x else Int.tmod x y

/-- Integer divides trap on zero (R304). -/
def Group.divzEn (x : Group) : Bool := bit64 x.gctl 0

/-- Latency of a scalar divide (R302). -/
def sdivLat (t : Ty) : Nat := if t.width = 64 then 36 else 20

/-- A scalar divide: DIVZ at issue, or a long-latency result (R302). -/
def scalarDiv (a : AluArgs) (s : State) (f : Int → Int → Int) : Out :=
  uniform a.hd (lenBytes a.ext.len) s fun c x =>
    let zeros := (elemsOf a.ty).filter fun e => sBits x a a.sb e = 0
    if x.divzEn ∧ zeros ≠ [] then
      s.trapHere c 0x03 0 (w64 (zeros.foldl (fun n e => n + 2 ^ e) 0))
    else
      let r := sPack a fun e => fitInt a.ty a.mods.sat (f (sInt x a a.sa e) (sInt x a a.sb e))
      let wr := match a.dst with | .s n => [RegWr.s n.toNat r] | _ => []
      s.result c x (dstsOf a.dst) wr (sdivLat a.ty) (some a.hd.la.toNat) (lenBytes a.ext.len)

/-- SDIV (R302). -/
def execSdiv (a : AluArgs) (s : State) : Out := scalarDiv a s (divInt a.ty a.mods.sat)
/-- SREM (R302). -/
def execSrem (a : AluArgs) (s : State) : Out := scalarDiv a s remInt

end Sys2Proof.Machine
end

