-- ==== Sys2Proof/Machine/VectorInt.lean ====
section
/-! DEFINITION. Vector integer forms (R321 to R328). -/

namespace Sys2Proof.Machine

/-- Bytes of an ALU word. -/
def aluLen (a : AluArgs) : Nat := lenBytes a.ext.len

/-- The destination's element type. -/
def aluDstTy (a : AluArgs) : Ty := dstTy a.ty a.mods.dn

/-- An element-wise form (R322): element `e` of lane `l` of the destination becomes `f` where it is enabled,
`lat` ACLK after issue. -/
def vecOp (a : AluArgs) (s : State) (lat : Nat) (la : Option Nat) (f : Group → Nat → Nat → Nat) : Out :=
  withCur s fun c x =>
    let wr := x.laneWrites a.dst a.ty a.mods.dn fun l e =>
      if x.enabled c.slotB a.hd l e then some (f x l e) else none
    s.result c x (dstsOf a.dst) wr lat la (aluLen a)

/-- Sources A, B and C of a lane's element as integers (R325). -/
def vA (x : Group) (a : AluArgs) (l e : Nat) : Int := srcI x a a.ty a.mods.an a.sa l e
def vB (x : Group) (a : AluArgs) (l e : Nat) : Int := srcI x a a.ty a.mods.bn a.sb l e
def vC (x : Group) (a : AluArgs) (l e : Nat) : Int := srcI x a a.ty a.mods.cn a.sc l e

/-- Sources A, B and C as bit patterns. -/
def bA (x : Group) (a : AluArgs) (l e : Nat) : Nat := srcBits x a a.ty a.mods.an a.sa l e
def bB (x : Group) (a : AluArgs) (l e : Nat) : Nat := srcBits x a a.ty a.mods.bn a.sb l e
def bC (x : Group) (a : AluArgs) (l e : Nat) : Nat := srcBits x a a.ty a.mods.cn a.sc l e

/-- A form on exact integers, wrapped or clamped to the destination's type (R220, R234). -/
def vecInt (a : AluArgs) (s : State) (lat : Nat) (f : Group → Nat → Nat → Int) : Out :=
  vecOp a s lat none fun x l e => fitInt (aluDstTy a) a.mods.sat (f x l e)

/-- A form on element bits of the type's width; a narrowed destination wraps. -/
def vecBits (a : AluArgs) (s : State) (f : Nat → Nat → Nat) : Out :=
  vecOp a s 4 none fun x l e => fitInt (aluDstTy a) false (asInt a.ty (f (bA x a l e) (bB x a l e)))

/-- VADD (R325). -/
def execVadd (a : AluArgs) (s : State) : Out := vecInt a s 4 fun x l e => vA x a l e + vB x a l e
/-- VSUB (R325). -/
def execVsub (a : AluArgs) (s : State) : Out := vecInt a s 4 fun x l e => vA x a l e - vB x a l e
/-- VMUL (R325). -/
def execVmul (a : AluArgs) (s : State) : Out := vecInt a s 6 fun x l e => vA x a l e * vB x a l e
/-- VMULH (R325). -/
def execVmulh (a : AluArgs) (s : State) : Out :=
  vecInt a s 6 fun x l e => vA x a l e * vB x a l e / (2 ^ a.ty.width : Nat)
/-- VMAD (R325): exact before it is fitted. -/
def execVmad (a : AluArgs) (s : State) : Out := vecInt a s 6 fun x l e => vA x a l e * vB x a l e + vC x a l e
/-- VAND (R325). -/
def execVand (a : AluArgs) (s : State) : Out := vecBits a s fun p q => p &&& q
/-- VOR (R325). -/
def execVor (a : AluArgs) (s : State) : Out := vecBits a s fun p q => p ||| q
/-- VXOR (R325). -/
def execVxor (a : AluArgs) (s : State) : Out := vecBits a s fun p q => p ^^^ q
/-- VSHL (R325). -/
def execVshl (a : AluArgs) (s : State) : Out := vecBits a s (shlBits a.ty.width)
/-- VSHR (R325). -/
def execVshr (a : AluArgs) (s : State) : Out := vecBits a s (shrBits a.ty.width)
/-- VSRA (R325). -/
def execVsra (a : AluArgs) (s : State) : Out := vecBits a s (sraBits a.ty.width)
/-- VMIN (R325). -/
def execVmin (a : AluArgs) (s : State) : Out := vecInt a s 4 fun x l e => min (vA x a l e) (vB x a l e)
/-- VMAX (R325). -/
def execVmax (a : AluArgs) (s : State) : Out := vecInt a s 4 fun x l e => max (vA x a l e) (vB x a l e)
/-- VABS (R325). -/
def execVabs (a : AluArgs) (s : State) : Out := vecInt a s 4 fun x l e => ((vA x a l e).natAbs : Int)
/-- VNEG (R325). -/
def execVneg (a : AluArgs) (s : State) : Out := vecInt a s 4 fun x l e => -vA x a l e
/-- VPOPC (R325). -/
def execVpopc (a : AluArgs) (s : State) : Out := vecBits a s fun p _ => popN a.ty.width p
/-- VCLZ (R325). -/
def execVclz (a : AluArgs) (s : State) : Out := vecBits a s fun p _ => clzN a.ty.width p
/-- VBFE (R325). -/
def execVbfe (a : AluArgs) (s : State) : Out := vecBits a s (bfExtract (a.ty = .i64))
/-- VBFI (R325). -/
def execVbfi (a : AluArgs) (s : State) : Out :=
  vecOp a s 4 none fun x l e => bfInsert (bA x a l e) (bB x a l e) (bC x a l e)
/-- VLEA (R325). -/
def execVlea (a : AluArgs) (s : State) : Out :=
  vecBits a s fun p q => (p + q * 2 ^ a.sub.toNat) % 2 ^ 64

/-- Write IMM32 into half `h` of each enabled lane word (R325). -/
def vecMovi (a : AluArgs) (s : State) (h : Nat) : Out :=
  vecOp a s 4 none fun x l _ =>
    let old := match a.dst with | .v n => x.getV n.toNat l | _ => 0
    (setFld old (32 * h) 32 (aluI32 a).toNat).toNat

/-- VMOVI (R325). -/
def execVmovi (a : AluArgs) (s : State) : Out := vecMovi a s 0
/-- VMOVI.HI (R325). -/
def execVmoviHi (a : AluArgs) (s : State) : Out := vecMovi a s 1

/-- VSEL (R327): bit patterns, by bit e of Pk in each lane. -/
def execVsel (a : AluArgs) (s : State) : Out :=
  vecOp a s 4 none fun x l e =>
    if (x.getP a.sub.toNat l).toNat / 2 ^ e % 2 = 1 then bA x a l e else bB x a l e

/-! ## Compares (R327) -/

/-- Predicate writes of a compare: bit `e` of each enabled element; bits N to 15 of every active lane are
cleared. -/
def cmpWrites (x : Group) (b : Bool) (h : Hd) (t : Ty) (k : Nat) (f : Nat → Nat → Bool) : List RegWr :=
  let ls := Mask.lanes (x.slot b).lanes
  if ls.any fun l => (elemsOf t).any fun e => x.enabled b h l e then
    ls.map fun l =>
      let old := x.getP k l
      .p k l (pOf t.count fun e => if x.enabled b h l e then f l e else decide (old.toNat / 2 ^ e % 2 = 1))
  else []

/-- VCMP (R327). -/
def execVcmp (a : AluArgs) (s : State) : Out :=
  withCur s fun c x =>
    let wr := cmpWrites x c.slotB a.hd a.ty (pIdx a.dst) fun l e =>
      ccInt a.sub.toNat (vA x a l e) (vB x a l e)
    s.result c x (dstsOf a.dst) wr 4 none (aluLen a)

/-! ## Division and dot products (R326, R328) -/

/-- Lanes and elements an enabled divisor of zero stands in (R326). -/
def zeroDivs (x : Group) (b : Bool) (a : AluArgs) : List (Nat × Nat) :=
  lanes32.flatMap fun l =>
    ((elemsOf a.ty).filter fun e => x.enabled b a.hd l e && vB x a l e = 0).map fun e => (l, e)

/-- A vector divide: DIVZ at issue, or a long-latency result (R326). -/
def vecDiv (a : AluArgs) (s : State) (f : Int → Int → Int) : Out :=
  withCur s fun c x =>
    let z := zeroDivs x c.slotB a
    if x.divzEn ∧ z ≠ [] then
      let val := (elemsOf a.ty).foldl (fun n e => if z.any fun p => p.2 = e then n + 2 ^ e else n) 0
      s.trapMask c 0x03 0 (w64 val) (Mask.of fun l => z.any fun p => p.1 = l)
    else
      let wr := x.laneWrites a.dst a.ty a.mods.dn fun l e =>
        if x.enabled c.slotB a.hd l e then
          some (fitInt (aluDstTy a) a.mods.sat (f (vA x a l e) (vB x a l e)))
        else none
      s.result c x (dstsOf a.dst) wr (sdivLat a.ty) (some a.hd.la.toNat) (aluLen a)

/-- VDIV (R326). -/
def execVdiv (a : AluArgs) (s : State) : Out := vecDiv a s (divInt a.ty a.mods.sat)
/-- VREM (R326). -/
def execVrem (a : AluArgs) (s : State) : Out := vecDiv a s remInt

/-- Byte `j` of a lane's word of a V or S source, signed or not (R328). -/
def dotByte (x : Group) (o : Opnd) (l j : Nat) (signed : Bool) : Int :=
  let v := elem 8 (x.srcX o l) j
  if signed then sgn 8 v else (v : Int)

/-- VDOT4 (R328). -/
def execVdot4 (a : AluArgs) (s : State) : Out :=
  vecInt a s 6 fun x l e =>
    let sa := a.sub.toNat % 2 = 1
    let sb := a.sub.toNat / 2 % 2 = 1
    vC x a l e + ((List.range 4).map fun j =>
      dotByte x a.sa l (4 * e + j) sa * dotByte x a.sb l (4 * e + j) sb).sum

end Sys2Proof.Machine
end

