-- ==== Sys2Proof/Machine/VectorFloat.lean ====
section
/-! DEFINITION. Vector floating-point forms, VMOV and the paired word (R224 to R232, R286 to R289, R322 to
R332). -/

namespace Sys2Proof.Machine

/-! ## Running a float form -/

/-- What one element of a float form gives: its bits and its flags. -/
abbrev FElem := Nat × Nat

/-- An element function: lane, element and the lane's next two draws. -/
abbrev FElemFn := Nat → Nat → Nat → Nat → FElem

/-- What a float form does in all its enabled elements (R322): element bits by lane × 64 + element, flags by
lane, and the lanes' rounding states after it. -/
structure FRun where
  vals : Tab Nat
  flags : LaneFlags
  rsx : Tab W32
  deriving DecidableEq, Repr

/-- Value of an enabled element. -/
def FRun.val (r : FRun) (l e : Nat) : Option Nat := Tab.get? r.vals (l * 64 + e)

/-- One lane's elements in ascending order; `n` draws are made for an enabled element (R229). -/
def runLane (en : Nat → Bool) (f : Nat → Nat → Nat → FElem) (n : Nat → Nat) :
    List Nat → W32 → List (Nat × FElem) → List (Nat × FElem) × W32
  | [], st, acc => (acc.reverse, st)
  | e :: r, st, acc =>
    if en e then
      let d1 := xorshift st
      let d2 := xorshift d1
      let st' := match n e with | 0 => st | 1 => d1 | _ => d2
      runLane en f n r st' ((e, f e d1.toNat d2.toNat) :: acc)
    else runLane en f n r st acc

/-- Run an element function over the enabled elements of a type. -/
def floatRun (x : Group) (en : Nat → Nat → Bool) (t : Ty) (n : Nat → Nat → Nat) (f : FElemFn) : FRun :=
  lanes32.foldl (fun r l =>
    let (es, st) := runLane (en l) (f l) (n l) (elemsOf t) (Tab.getD x.rsx 1 l) []
    { vals := r.vals ++ es.map fun p => (l * 64 + p.1, p.2.1)
      flags := r.flags ++ es.map fun p => (l, p.2.2)
      rsx := if es.isEmpty then r.rsx else Tab.put r.rsx l st }) ⟨[], [], x.rsx⟩

/-- The group after a run's flags and draws take effect (R224, R229). -/
def Group.afterRun (x : Group) (r : FRun) : Group := { x.orFlags (flagsAll r.flags) with rsx := r.rsx }

/-- Draws per element of a form that rounds once (R229). -/
def draws1 (m : Rnd) : Nat := if m = .rsx then 1 else 0

/-- A float form: FPX with no effect when an enabled flag was raised, else flags, draws and writes (R225,
R322). -/
def floatForm (s : State) (h : Hd) (t : Ty) (n : Nat) (len lat : Nat) (la : Option Nat) (dst : Opnd)
    (f : Group → FElemFn) (wr : Group → Cur → FRun → List RegWr) : Out :=
  withCur s fun c x =>
    let r := floatRun x (x.enabled c.slotB h) t (fun _ _ => n) (f x)
    match fpxOf x r.flags with
    | some (m, v) => s.trapMask c 0x0D 0 v m
    | none => s.result c (x.afterRun r) (dstsOf dst) (wr x c r) lat la len

/-- Latency of the 4-ACLK float forms, 8 in F64 (R324). -/
def fLat (t : Ty) : Nat := if t = .f64 then 8 else 4

/-- Latency of FDIV and FSQRT (R324). -/
def fdivLat (t : Ty) : Nat := if t = .f64 then 40 else 24

/-- A float form of an ALU word with a vector destination. -/
def vecFloat (a : AluArgs) (s : State) (n lat : Nat) (la : Option Nat) (f : Group → FElemFn) : Out :=
  floatForm s a.hd a.ty n (aluLen a) lat la a.dst f fun x _ r => x.laneWrites a.dst a.ty a.mods.dn r.val

/-- Sources A, B and C as floating-point values. -/
def fA (x : Group) (a : AluArgs) (l e : Nat) : FVal := srcF x a a.ty a.mods.an a.sa l e
def fB (x : Group) (a : AluArgs) (l e : Nat) : FVal := srcF x a a.ty a.mods.bn a.sb l e
def fC (x : Group) (a : AluArgs) (l e : Nat) : FVal := srcF x a a.ty a.mods.cn a.sc l e

/-- Deliver a result to the word's destination type (R227, R234). -/
def fPut (a : AluArgs) (draw : Nat) (r : FRes) : FElem :=
  (fmtOf (aluDstTy a)).deliver a.mods.rnd a.mods.sat draw r

/-- A form that rounds an exact result once. -/
def fOnce (a : AluArgs) (s : State) (lat : Nat) (la : Option Nat) (f : Group → Nat → Nat → FRes) : Out :=
  vecFloat a s (draws1 a.mods.rnd) lat la fun x l e d _ => fPut a d (f x l e)

/-! ## Arithmetic (R329) -/

/-- FADD (R329). -/
def execFadd (a : AluArgs) (s : State) : Out :=
  fOnce a s (fLat a.ty) none fun x l e => fAdd a.mods.rnd (fA x a l e) (fB x a l e)
/-- FSUB (R329). -/
def execFsub (a : AluArgs) (s : State) : Out :=
  fOnce a s (fLat a.ty) none fun x l e => fAdd a.mods.rnd (fA x a l e) (fB x a l e).opp
/-- FMUL (R329). -/
def execFmul (a : AluArgs) (s : State) : Out :=
  fOnce a s (fLat a.ty) none fun x l e => fMul (fA x a l e) (fB x a l e)
/-- FFMA (R329). -/
def execFfma (a : AluArgs) (s : State) : Out :=
  fOnce a s (fLat a.ty) none fun x l e => fFma a.mods.rnd (fA x a l e) (fB x a l e) (fC x a l e)
/-- FDIV (R329). -/
def execFdiv (a : AluArgs) (s : State) : Out :=
  fOnce a s (fdivLat a.ty) (some a.hd.la.toNat) fun x l e => fDiv (fA x a l e) (fB x a l e)
/-- FSQRT (R329). -/
def execFsqrt (a : AluArgs) (s : State) : Out :=
  fOnce a s (fdivLat a.ty) (some a.hd.la.toNat) fun x l e => fSqrt (fA x a l e)

/-! ## FMIN, FMAX, FCMP, FCLASS (R330) -/

/-- `b` is the value below `a`, −0 below +0. -/
def fBelow (b a : FVal) : Bool := fLt b a || (fEq a b && b.neg && !a.neg)

/-- FMIN's or FMAX's result (R330). -/
def fPick (mx : Bool) (a b : FVal) : FRes :=
  let fl := flOr a.sigFl b.sigFl
  let r : FVal :=
    match a, b with
    | .nan _, .nan _ => .nan false
    | .nan _, b => b
    | a, .nan _ => a
    | a, b => if fBelow b a != mx then b else a
  match r.res with
  | .nan _ => .nan fl
  | .inf n _ => .inf n fl
  | .ex v _ => .ex v fl

/-- FMIN and FMAX: exact, so only a narrowed destination rounds, and draws (R330). -/
def fPickForm (a : AluArgs) (s : State) (mx : Bool) : Out :=
  vecFloat a s (if a.mods.dn.w = 0 then 0 else draws1 a.mods.rnd) (fLat a.ty) none fun x l e d _ =>
    fPut a d (fPick mx (fA x a l e) (fB x a l e))

/-- FMIN (R330). -/
def execFmin (a : AluArgs) (s : State) : Out := fPickForm a s false
/-- FMAX (R330). -/
def execFmax (a : AluArgs) (s : State) : Out := fPickForm a s true

/-- FCMP's condition and flags (R330). -/
def fCond (cc : Nat) (a b : FVal) : Bool × Nat :=
  let nan := a.isNan || b.isNan
  let fl := flOr (flOr a.sigFl b.sigFl) (if nan && 2 ≤ cc && cc ≤ 5 then flNV else 0)
  let r := match cc with
    | 0 => fEq a b
    | 1 => !fEq a b
    | 2 => fLt a b
    | 3 => fLt a b || fEq a b
    | 4 => fLt b a
    | 5 => fLt b a || fEq a b
    | _ => nan
  (r, fl)

/-- FCMP (R330). -/
def execFcmp (a : AluArgs) (s : State) : Out :=
  floatForm s a.hd a.ty 0 (aluLen a) (fLat a.ty) none a.dst
    (fun x l e _ _ => let r := fCond a.sub.toNat (fA x a l e) (fB x a l e); (b2n r.1, r.2))
    fun x c r => cmpWrites x c.slotB a.hd a.ty (pIdx a.dst) fun l e => r.val l e = some 1

/-- FCLASS's bit number, of a value in a type (R330). -/
def fClass (t : Ty) (v : FVal) : Nat :=
  match v with
  | .nan sig => if sig then 8 else 9
  | .inf neg => if neg then 0 else 7
  | .fin neg m e =>
    if m = 0 then (if neg then 3 else 4)
    else if scaledLt m e 1 (fmtOf t).emin then (if neg then 2 else 5)
    else (if neg then 1 else 6)

/-- FCLASS (R330). -/
def execFclass (a : AluArgs) (s : State) : Out :=
  vecFloat a s 0 (fLat a.ty) none fun x l e _ _ => (2 ^ fClass a.ty (fA x a l e), 0)

/-! ## FSCALE, FROUND, FFRAC (R331) -/

/-- a × 2^n. Beyond ±8,192 every n overflows or underflows every format alike. -/
def fScale (a : FVal) (n : Int) : FRes :=
  match a with
  | .fin neg m e => .ex ⟨neg, m, e + max (-8192) (min 8192 n), false⟩ 0
  | v => v.res

/-- FSCALE's source B as an integer (R331). -/
def fScaleN (x : Group) (a : AluArgs) (l e : Nat) : Int :=
  let t := Ty.asInt a.ty
  sgn t.width (srcBits x a t a.mods.bn a.sb l e)

/-- FSCALE (R331). -/
def execFscale (a : AluArgs) (s : State) : Out :=
  fOnce a s (fLat a.ty) none fun x l e => fScale (fA x a l e) (fScaleN x a l e)

/-- The integral value of FROUND (R331). -/
def fRound (mode : Rnd) (draw : Nat) (a : FVal) : FRes :=
  match a with
  | .fin neg m e => .ex ⟨neg, (roundInt mode draw neg m e).1.natAbs, 0, false⟩ 0
  | v => v.res

/-- FROUND (R331): one rounding, or two to a narrowed destination. -/
def execFround (a : AluArgs) (s : State) : Out :=
  vecFloat a s (draws1 a.mods.rnd * (if a.mods.dn.w = 0 then 1 else 2)) (fLat a.ty) none fun x l e d1 d2 =>
    fPut a d2 (fRound a.mods.rnd d1 (fA x a l e))

/-- FFRAC's result (R331). -/
def fFrac (a : FVal) : FRes :=
  match a with
  | .fin neg m e =>
    if 0 ≤ e then .ex ⟨neg, 0, 0, false⟩ 0 else .ex ⟨neg, m % 2 ^ (-e).toNat, e, false⟩ 0
  | _ => .nan flNV

/-- FFRAC (R331). -/
def execFfrac (a : AluArgs) (s : State) : Out := fOnce a s (fLat a.ty) none fun x l e => fFrac (fA x a l e)

/-! ## FDOT2 (R332) -/

/-- The value of an exact result. -/
def FRes.val : FRes → FVal
  | .nan _ => .nan false
  | .inf n _ => .inf n
  | .ex x _ => .fin x.neg x.m x.e

/-- Flags a result raised before it is delivered. -/
def FRes.fl : FRes → Nat
  | .nan fl => fl
  | .inf _ fl => fl
  | .ex _ fl => fl

/-- c + p + q, exact; an invalid product or sum raises NV. -/
def fDot (mode : Rnd) (c : FVal) (p q : FRes) : FRes :=
  let u := fAdd mode c p.val
  let r := fAdd mode u.val q.val
  let fl := flOr (flOr p.fl q.fl) (flOr u.fl r.fl)
  match r with
  | .nan _ => .nan fl
  | .inf n _ => .inf n fl
  | .ex v _ => .ex v fl

/-- FDOT2 (R332). -/
def execFdot2 (a : AluArgs) (s : State) : Out :=
  let t : Ty := if a.sub = 0 then .f16 else .bf16
  fOnce a s 4 none fun x l e =>
    let el (o : Opnd) (j : Nat) : FVal := (fmtOf t).decode (elem 16 (x.srcX o l) j)
    let p (j : Nat) : FRes := fMul (el a.sa j) (el a.sb j)
    fDot a.mods.rnd (fC x a l e) (p (2 * e)) (p (2 * e + 1))

/-! ## VMOV (R325) -/

/-- VMOV (R325): bit patterns, or a conversion to the narrow type. -/
def execVmov (a : AluArgs) (s : State) : Out :=
  if a.mods.dn.w ≠ 0 ∧ a.ty.kind = .float then
    fOnce a s 4 none fun x l e => (fA x a l e).res
  else
    vecOp a s 4 none fun x l e =>
      if a.mods.dn.w = 0 then bA x a l e else fitInt (aluDstTy a) a.mods.sat (vA x a l e)

/-! ## The paired word (R286 to R289) -/

/-- X types by XT (R286). -/
def xTy (n : BitVec 2) : Ty := match n.toNat with | 0 => .f16 | 1 => .bf16 | 2 => .f32 | _ => .f64

/-- Y types by YT (R286). -/
def yTy (n : BitVec 3) : Ty :=
  match n.toNat with
  | 0 => .i8 | 1 => .i16 | 2 => .i32 | 3 => .i64 | 4 => .n8 | 5 => .n16 | 6 => .n32 | _ => .n64

/-- Predicate fields of a paired word. -/
def pairHd (a : PairArgs) : Hd := ⟨a.pred, a.pneg, 0⟩

/-- The full form of the X slot. -/
def pairX (a : PairArgs) : AluArgs :=
  { hd := pairHd a, ty := xTy a.xt, sub := 0, dst := .v a.xd, sa := .v a.xa, sb := .v a.xb, sc := .v a.xc,
    ext := .mods { Mods.plain with sat := a.xsat, rnd := a.xrnd } }

/-- The full form of the Y slot. -/
def pairY (a : PairArgs) : AluArgs :=
  { hd := pairHd a, ty := yTy a.yt, sub := 0, dst := .v a.yd, sa := .v a.ya,
    sb := if a.ysb then .s (a.yb.truncate 7) else .v a.yb, sc := .none, ext := .none }

/-- Draws per element of an X operation. -/
def xDraws (op : XOp) (m : Rnd) : Nat :=
  match op with
  | .fmin | .fmax => 0
  | _ => draws1 m

/-- Element of an X operation (R287). -/
def xElem (op : XOp) (x : Group) (a : AluArgs) (l e d : Nat) : FElem :=
  let va := fA x a l e
  let vb := fB x a l e
  match op with
  | .fadd => fPut a d (fAdd a.mods.rnd va vb)
  | .fsub => fPut a d (fAdd a.mods.rnd va vb.opp)
  | .fmul => fPut a d (fMul va vb)
  | .ffma => fPut a d (fFma a.mods.rnd va vb (fC x a l e))
  | .fmin => fPut a d (fPick false va vb)
  | .fmax => fPut a d (fPick true va vb)
  | .fscale => fPut a d (fScale va (fScaleN x a l e))
  | .itof => fPut a d (fOfInt (sgn a.ty.width (bA x a l e))).res
  | .ftoi => fToInt a.mods.rnd d true a.ty.width va

/-- Latency of an X operation (R324). -/
def xLat (op : XOp) (t : Ty) : Nat :=
  match op with
  | .itof | .ftoi => 4
  | _ => fLat t

/-- Element of a Y operation that writes a vector register, or the condition of a compare (R287). -/
def yElem (op : YOp) (x : Group) (a : AluArgs) (l e : Nat) : Nat :=
  let w := a.ty.width
  let p := bA x a l e
  let q := bB x a l e
  let i := vA x a l e
  let j := vB x a l e
  match op with
  | .vadd => wrap w (i + j)
  | .vsub => wrap w (i - j)
  | .vand => p &&& q
  | .vor => p ||| q
  | .vxor => p ^^^ q
  | .vshl => shlBits w p q
  | .vshr => shrBits w p q
  | .vsra => sraBits w p q
  | .vmin => wrap w (min i j)
  | .vmax => wrap w (max i j)
  | .vmov => p
  | .eq => b2n (ccInt 0 i j)
  | .ne => b2n (ccInt 1 i j)
  | .lt => b2n (ccInt 2 i j)
  | .le => b2n (ccInt 3 i j)
  | .gt => b2n (ccInt 4 i j)
  | .ge => b2n (ccInt 5 i j)

/-- Y operations that compare. -/
def YOp.isCmp : YOp → Bool
  | .eq | .ne | .lt | .le | .gt | .ge => true
  | _ => false

/-- The Y slot's destination and writes. -/
def yWrites (a : PairArgs) (x : Group) (b : Bool) : Opnd × List RegWr :=
  let y := pairY a
  if YOp.isCmp a.yop then
    (.preg (a.yd.truncate 4), cmpWrites x b y.hd y.ty (a.yd.toNat % 16) fun l e => yElem a.yop x y l e = 1)
  else
    (.v a.yd, x.laneWrites y.dst y.ty Sel.off fun l e =>
      if x.enabled b y.hd l e then some (yElem a.yop x y l e) else none)

/-- A paired word (R289): both slots read before either writes, each on its own latency. -/
def execPairedWord (a : PairArgs) (s : State) : Out :=
  withCur s fun c x =>
    let ax := pairX a
    let r := floatRun x (x.enabled c.slotB ax.hd) ax.ty (fun _ _ => xDraws a.xop a.xrnd) fun l e d _ => xElem a.xop x ax l e d
    match fpxOf x r.flags with
    | some (m, v) => s.trapMask c 0x0D 0 v m
    | none =>
      let (yd, yw) := yWrites a x c.slotB
      let xw := x.laneWrites ax.dst ax.ty Sel.off r.val
      let (s, x) := s.pendFor c (x.afterRun r) (dstsOf ax.dst) xw (xLat a.xop ax.ty) none 12
      let (s, x) := s.pendFor c x (dstsOf yd) yw 4 none 12
      s.retire c x 12

end Sys2Proof.Machine
end

