-- ==== Sys2Proof/Machine/Fabric.lean ====
section
/-! DEFINITION. The fabric, the L2 slices and the remote-data cache: how a request travels, is translated, takes
its line lock, is performed and answered (R65 to R92, R97 to R100). Delays that only other traffic causes are
left out. -/

namespace Sys2Proof.Machine

/-! ## Packets -/

/-- The event by which a request packet arrives (R68). PRESUMED (assumption 103): a CFLUSH goes as a WR. -/
def reqEv (p : Pkt) : Instr :=
  match p.req with
  | .read _ => .rd p
  | .write _ => .wr p
  | .flush _ => .wr p
  | .atomic a => if a.ret then .atq p else .atr p

/-- Sectors of a 512-byte line that a request touches (R67). -/
def Req.sectors : Req → BitVec 4
  | .read m => m
  | .write bs => bs.foldl (fun m b => m ||| .ofNat 4 (2 ^ (b.1 / 128 % 4))) 0
  | .atomic a => .ofNat 4 (2 ^ (a.addr.toNat / 128 % 4))
  | .flush _ => 0

/-- Sectors a mask names, ascending. -/
def sectorsOf (m : BitVec 4) : List Nat := (List.range 4).filter fun i => m.toNat / 2 ^ i % 2 = 1

/-- Flits of a request and of its expected response (R67, R72). -/
def reqFlits (r : Req) : Nat :=
  let n := (sectorsOf (Req.sectors r)).length
  match r with
  | .read _ => 2 + 2 * n
  | .write bs => 2 + 2 * n + (if bs.length = 128 * n then 0 else 1)
  | _ => 2

/-- Flits of a request packet (R67, R68): a header, what enables its bytes, and its data. A CFLUSH goes as a WR that
writes nothing. PRESUMED (assumption 103). -/
def ownFlits (r : Req) : Nat :=
  let n := (sectorsOf (Req.sectors r)).length
  match r with
  | .write bs => 1 + (if bs.length = 128 * n then 0 else 1) + 2 * n
  | _ => 1

/-- Endpoint of the source of a request (R65): a cluster, the slice of an Agate bank, or I/O. -/
def srcEndpoint (p : Pkt) : Nat :=
  if p.core < 256 then clusterOf p.core
  else match p.src with
    | .eng _ _ => 32 + (p.core - 256) % 128 / 4
    | _ => 98

/-- Number of a virtual channel between two endpoints (R70, R73). -/
def vcKey (resp : Bool) (tc : BitVec 2) (sdie sep ddie dep : Nat) : Nat :=
  ((((b2n resp * 4 + tc.toNat) * 4 + sdie) * 128 + sep) * 4 + ddie) * 128 + dep

/-- A packet sent on a virtual channel arrives no earlier than those sent before it (R73). -/
def State.onVc (s : State) (key dt : Nat) (ev : Instr) : State :=
  let t := max (s.aclk + dt) (Tab.getD s.vcs 0 key)
  { s with vcs := Tab.put s.vcs key t }.post (t - s.aclk) ev

/-! ## Headers (R67 to R69) -/

/-- Where a packet goes and what it is: type, flits, network and the two endpoints. -/
structure Route where
  typ : Nat
  flits : Nat
  resp : Bool
  sdie : Nat
  sep : Nat
  ddie : Nat
  dep : Nat
  deriving DecidableEq, Repr

/-- TYPE of a request (R68). -/
def reqType (r : Req) : Nat :=
  match r with
  | .read _ => 0
  | .write _ | .flush _ => 1
  | .atomic a => if a.ret then 2 else 3

/-- TAG of a request (R67). -/
def srcTag : Src → Nat
  | .grp _ t => t
  | .eng _ k => k
  | _ => 0

/-- OPX of a request: operation and size of an atomic (R67). -/
def reqOpx (r : Req) : Nat :=
  match r with
  | .atomic a => a.aop.toNat % 8 * 2 + b2n (a.ty.width = 64)
  | _ => 0

/-- The header of bytes 15 to 0 of a header flit (R67). -/
def headBits (opx smask addr asid tag : Nat) (phys full : Bool) (tc : BitVec 2) (r : Route) : BitVec 128 :=
  .ofNat 128 (opx % 16 * 2 ^ 124 + smask * 2 ^ 120 + addr % 2 ^ 56 * 2 ^ 64 + asid * 2 ^ 48 + tag % 2 ^ 16 * 2 ^ 32 +
    b2n phys * 2 ^ 31 + b2n full * 2 ^ 30 + r.dep * 2 ^ 23 + r.ddie * 2 ^ 21 + r.sep * 2 ^ 14 + r.sdie * 2 ^ 12 +
    b2n r.resp * 2 ^ 10 + tc.toNat * 2 ^ 8 + r.typ * 2 ^ 4 + r.flits % 16)

/-- A receiving endpoint discards the packet (R69): FLITS or TYPE is none that exists, other flits came than FLITS says,
or TRUNC is set. -/
def wireBad (w : Wire) : Bool :=
  let h := w.head.toNat
  h % 16 = 0 || 10 < h % 16 || 12 ≤ h / 16 % 16 || w.sent ≠ h % 16 || h / 2 ^ 11 % 2 = 1

/-- A packet put on its route at ACLK `now`. -/
def pktRoute (p : Pkt) (opx : Nat) (r : Route) (now : Nat) : Pkt :=
  let addr := match p.phys with | some a => a % 2 ^ 37 | none => p.line
  let m := Req.sectors p.req
  let full := match p.req with | .write bs => bs.length = 128 * (sectorsOf m).length | _ => false
  { p with wire := some ⟨headBits opx m.toNat addr p.asid.toNat (srcTag p.src) p.phys.isSome full p.cls r, r.flits, now⟩ }

/-- The packet is one its receiver discards. -/
def pktBad (p : Pkt) : Bool := p.trunc || (match p.wire with | some w => wireBad w | none => false)

/-- A scratch packet put on its route. -/
def scRoute (p : ScPkt) (r : Route) (now : Nat) : ScPkt :=
  { p with wire := some ⟨headBits 0 0 p.va 0 (srcTag p.src) false p.full p.cls r, r.flits, now⟩ }

/-- The scratch packet is one its receiver discards. -/
def scpBad (p : ScPkt) : Bool := p.trunc || (match p.wire with | some w => wireBad w | none => false)

/-- A malformed packet is discarded and counted (R69). -/
def State.discard (s : State) (die : Nat) : State := s.modDie die fun d => { d with xbdisc := d.xbdisc + 1 }

/-- Send a response of packet `p`, of a type, OPX and flits, from a slice of its owner die, to arrive `dt` ACLK from now. -/
def State.respond (s : State) (p : Pkt) (slice dt typ opx flits : Nat) (mk : Pkt → Instr) : State :=
  let r : Route := ⟨typ, flits, true, p.ddie, 32 + slice, p.sdie, srcEndpoint p⟩
  s.onVc (vcKey true p.cls p.ddie (32 + slice) p.sdie (srcEndpoint p)) dt (mk (pktRoute p opx r s.aclk))

/-- DATA of a request's sectors, ACK, NACK (R68). -/
def State.respData (s : State) (p : Pkt) (slice dt : Nat) (bytes : List Byte) : State :=
  s.respond p slice dt 8 0 (1 + bytes.length / 64) fun q => .dataRsp q bytes
def State.respAck (s : State) (p : Pkt) (slice dt : Nat) (old : W64) : State :=
  s.respond p slice dt 9 0 1 fun q => .ack q old
def State.respNack (s : State) (p : Pkt) (slice dt sc : Nat) : State :=
  s.respond p slice dt 10 sc 1 fun q => .nack q (.ofNat 4 sc)

/-! ## The remote-data cache (R81 to R84) -/

/-- Directory entry of a virtual line on a die. -/
def Die.rdcDir (d : Die) (asid : BitVec 16) (vline : Nat) : Option RdcDir :=
  d.rdir.find? fun e => e.asid = asid ∧ e.vline = vline

/-- The store line of a directory entry. -/
def Die.rdcLine (d : Die) (e : RdcDir) : Option RdcLine :=
  d.rdc.find? fun l => l.owner = e.owner ∧ l.line = e.line

/-- A read finds every sector it needs in the RDC of its die: the package-wide physical line (R82). -/
def State.rdcHit (s : State) (p : Pkt) : Option Nat :=
  match p.req with
  | .read m =>
    let d := s.die p.sdie
    match d.rdcDir p.asid (p.line / 512) with
    | some e =>
      match d.rdcLine e with
      | some l => if m &&& ~~~l.valid = 0 then some (paddr e.owner (e.line * 512)) else none
      | none => none
    | none => none
  | _ => none

/-- Remove a store line and every directory entry that points to it. -/
def Die.rdcDrop (d : Die) (owner line : Nat) : Die :=
  { d with rdc := d.rdc.filter fun l => ¬ (l.owner = owner ∧ l.line = line)
           rdir := d.rdir.filter fun e => ¬ (e.owner = owner ∧ e.line = line) }

/-- RDC sectors a read looks up may be in error (R87): a bad one is invalidated and read again from its owner; every
error is counted as corrected. -/
def State.rdcChecked (s : State) (p : Pkt) : State :=
  if s.upsets.isEmpty then s
  else match (s.die p.sdie).rdcDir p.asid (p.line / 512) with
  | none => s
  | some e =>
    (sectorsOf (Req.sectors p.req)).foldl (fun s i =>
      let n := s.upset (.rdc p.sdie e.owner (4 * e.line + i))
      if n = 0 then s
      else
        let drop (l : RdcLine) : RdcLine :=
          if l.owner = e.owner ∧ l.line = e.line then { l with valid := l.valid &&& ~~~ .ofNat 4 (2 ^ i) } else l
        (if n = 1 then s else s.modDie p.sdie fun d => { d with rdc := d.rdc.map drop }).corrected p.sdie 64) s

/-- Requests of a die that its directory serves: its own cores' and engines', not the host's or a peer's (R82). -/
def ownDie (p : Pkt) : Bool :=
  match p.src with
  | .host _ | .peer _ _ => false
  | _ => true

/-- A write or atomic of the die drops the line its directory holds for its address (R82). -/
def State.rdcWrite (s : State) (p : Pkt) : State :=
  let wr := match p.req with | .read _ | .flush _ => false | _ => true
  if wr && ownDie p then
    match (s.die p.sdie).rdcDir p.asid (p.line / 512) with
    | some e => s.modDie p.sdie fun d => d.rdcDrop e.owner e.line
    | none => s
  else s

/-- Section and set of an RDC store line (R81). -/
def rdcSet (line : Nat) : Nat := homeSlice (line * 512) * 128 + line / 128 % 128

/-- Directory set (R81). -/
def rdirSet (asid : BitVec 16) (vline : Nat) : Nat := vline % 4096 ^^^ asid.toNat % 4096

/-- Install a line in an RDC: sectors join a line already held; otherwise 16 ways of its set, and 16 of the
directory's. Which entry of a full set leaves is open (R81, R82). -/
def Die.rdcInstall (d : Die) (owner line : Nat) (asid : BitVec 16) (vline : Nat) (m : BitVec 4) (n : Nat) : Die :=
  let d : Die :=
    match d.rdc.find? fun l => l.owner = owner ∧ l.line = line with
    | some l => { d with rdc := { l with valid := l.valid ||| m } :: d.rdc.erase l }
    | none =>
      let same := d.rdc.filter fun l => rdcSet l.line = rdcSet line
      let d : Die := if same.length < 16 then d else
        match pickOf same n with
        | some v => d.rdcDrop v.owner v.line
        | none => d
      { d with rdc := ⟨owner, line, asid, vline, m⟩ :: d.rdc }
  let rest := d.rdir.filter fun (e : RdcDir) => ¬ (e.asid = asid ∧ e.vline = vline)
  let same := rest.filter fun (e : RdcDir) => rdirSet e.asid e.vline = rdirSet asid vline
  let rest := if same.length < 16 then rest else
    match pickOf same (n + 1) with
    | some v => rest.erase v
    | none => rest
  { d with rdir := ⟨asid, vline, owner, line⟩ :: rest }

/-- Fills in flight that a test names are not installed (R84). -/
def State.markFills (s : State) (f : Pkt → Bool) : State :=
  let mark (e : Timed) : Timed :=
    match e.ev with
    | .dataRsp p b => if f p then { e with ev := .dataRsp { p with rdc := false } b } else e
    | _ => e
  { s with agenda := s.agenda.map mark }

/-- Reads already translated that a test names, performed or not, are not installed when they return (R110). -/
def State.markReads (s : State) (f : Pkt → Bool) : State :=
  let one (p : Pkt) : Pkt := if p.phys.isSome ∧ f p then { p with rdc := false } else p
  let ev (i : Instr) : Instr :=
    match i with
    | .rd p => .rd (one p)
    | .hbmFill p b => .hbmFill (one p) b
    | .dataRsp p b => .dataRsp (one p) b
    | _ => i
  let die (e : Nat × Die) : Nat × Die :=
    (e.1, { e.2 with confl := e.2.confl.map one, locks := e.2.locks.map fun l => { l with pkt := one l.pkt } })
  { s with
    agenda := s.agenda.map fun e => { e with ev := ev e.ev }
    dies := s.dies.map die
    banks := s.banks.map fun e => (e.1, { e.2 with late := e.2.late.map one }) }

/-! ## Sharers (R83) -/

/-- Sharers of a line (R83): bit i stands for die (home + 1 + i) mod 4. -/
def State.sharersOf (s : State) (die line : Nat) : BitVec 3 :=
  match (s.die die).l2.find? fun l => l.line = line with
  | some l => l.sharers
  | none => 0

/-- Set a line's sharers. -/
def State.setSharers (s : State) (die line : Nat) (v : BitVec 3) : State :=
  s.modDie die fun d =>
    match d.l2.find? fun l => l.line = line with
    | some l => { d with l2 := { l with sharers := v } :: d.l2.erase l }
    | none =>
      if v = 0 then d
      else { d with l2 := ⟨homeSlice (line * 512) * 4 + homeBank (line * 512), line, 0, 0, v, false, 0⟩ :: d.l2 }

/-- The dies of a sharer vector. -/
def sharerDies (home : Nat) (v : BitVec 3) : List Nat :=
  ([0, 1, 2].filter fun i => v.toNat / 2 ^ i % 2 = 1).map fun i => (home + 1 + i) % 4

/-! ## Sending a request (R72 to R74, R91) -/

/-- ACLK from issue to the translating slice (R91): a request for another die looks up its own RDC first. -/
def reqTime (p : Pkt) : Nat := 32 + (if p.sdie = p.ddie then 0 else 48) + 56 * hops p.sdie p.ddie

/-- Destination endpoint of a request: its translating slice, or when it names a physical line its home slice. -/
def reqDep (p : Pkt) : Nat :=
  match p.phys with
  | none => 32 + xslice p.line
  | some a => 32 + homeSlice (a % 2 ^ 37)

/-- Inject a request (R91: 16 ACLK after its issue). -/
def State.inject (s : State) (p : Pkt) : State :=
  let r : Route := ⟨reqType p.req, ownFlits p.req, false, p.sdie, srcEndpoint p, p.ddie, reqDep p⟩
  s.onVc (vcKey false p.cls p.sdie (srcEndpoint p) p.ddie (reqDep p)) (reqTime p - 16) (reqEv (pktRoute p (reqOpx p.req) r s.aclk))

/-- A prefetch whose line lies in a range armed for its ASID is dropped (R128, R359). -/
def State.prefArmed (s : State) (p : Pkt) : Bool :=
  let d := s.die p.ddie
  match p.src with
  | .pref _ _ _ _ =>
    d.pfOver.contains p.asid || d.pf.any fun e => e.asid = p.asid && e.lo ≤ p.line / 512 && p.line / 512 < e.hi
  | _ => false

/-- Send a request: refused over a down link, served by its own die's RDC, or injected (R75, R82). -/
def State.sendReq (s : State) (p : Pkt) : State :=
  if s.pathDown p.sdie p.ddie then s.post 16 (.nack p 3)
  else
    let s := s.rdcWrite p
    let look := p.rdc && p.sdie ≠ p.ddie
    let s := if look then s.rdcChecked p else s
    match (if look then s.rdcHit p else none) with
    | some a =>
      if s.prefArmed p then s
      else
        let bytes := (sectorsOf (Req.sectors p.req)).flatMap fun i => s.readBytes (a + 128 * i) 128
        let s := match p.src with | .grp g _ => s.countEvent g 0x34 1 | _ => s
        s.post 80 (.dataRsp { p with phys := some a, rdc := false } bytes)
    | none => s.inject p

/-- Send a SIG behind its data, on its virtual channel (R85). -/
def State.emitSig (s : State) (p : Pkt) (set : Bool) : State :=
  let r : Route := ⟨11, 1, false, p.sdie, srcEndpoint p, p.ddie, reqDep p⟩
  if s.pathDown p.sdie p.ddie then s.post 16 (.nack p 3)
  else s.onVc (vcKey false p.cls p.sdie (srcEndpoint p) p.ddie (reqDep p)) (reqTime p - 16) (.sigUpd (pktRoute p 0 r s.aclk) set)

/-! ## Pooled scratch (R28, R30, R68, R91) -/

/-- Array and byte of an interleaved offset in a block of `n` arrays (R28). -/
def interleaved (n o : Nat) : Nat × Nat := (o / 128 % n, o / 128 / n * 128 + o % 128)

/-- Key of a block's array. -/
def Block.arrKey (b : Block) (j : Nat) : Nat := (Tab.get? b.arrs j).getD 0

/-- Core of a block's array. -/
def Block.arrCore (b : Block) (j : Nat) : Nat := b.arrKey j / 24

/-- ACLK of a pooled access between two cores (R91). -/
def poolLat (a b : Nat) : Nat :=
  if dieOfCore a ≠ dieOfCore b then 184 else if xbarOf a ≠ xbarOf b then 72 else 56

/-- The block a scratch packet goes to. -/
def State.poolBlk (s : State) (p : ScPkt) : Option Nat := Tab.get? (s.gang p.gang).blks p.rank

/-- Core whose array a scratch packet names; the requester's where its block has ended. -/
def State.poolDst (s : State) (p : ScPkt) (core : Nat) : Nat :=
  match s.poolBlk p with
  | some k => (s.blk k).arrCore (interleaved (s.blk k).narr p.off).1
  | none => core

/-- The packet that answers a scratch packet: its line is the requester's scratch address. -/
def scAnswer (p : ScPkt) (core dst : Nat) : Pkt :=
  { src := p.src, sdie := dieOfCore core, ddie := dieOfCore dst, core := core, line := p.va / 512 * 512, phys := none,
    held := false, asid := 0, cls := p.cls, need := .r, peer := false, rdc := false, nr := false, trunc := false,
    req := .read (.ofNat 4 (2 ^ (p.va / 128 % 4))) }

/-- Flits of a scratch packet and of its answer (R67, R68). -/
def scFlits (p : ScPkt) (wr : Bool) : Nat × Nat := if wr then (3 + b2n (!p.full), 1) else (1, 3)

/-- Send a pooled access of a core, or of a peer where `core` is none of the package's: it is performed at half its
latency (R91). -/
def State.sendSc (s : State) (p : ScPkt) (wr : Bool) (core : Nat) : State :=
  let dst := s.poolDst p (if core < 256 then core else 0)
  let (sdie, sep, dt) := match p.src with
    | .peer d _ => (d, 98, 12 + 56 * hops d (dieOfCore dst))
    | _ => (dieOfCore core, clusterOf core, poolLat core dst / 2 - 16)
  if s.pathDown sdie (dieOfCore dst) then s.post 16 (.nack { scAnswer p core dst with sdie := sdie } 3)
  else
    let r : Route := ⟨if wr then 5 else 4, (scFlits p wr).1, false, sdie, sep, dieOfCore dst, clusterOf dst⟩
    let q := scRoute p r s.aclk
    s.onVc (vcKey false p.cls sdie sep (dieOfCore dst) (clusterOf dst)) dt (if wr then .scw q else .scr q)

/-! ## Injection and the class-0 regulator (R72, R91) -/

/-- What a request is to the regulator: its class, its core, and its flits with those of its response. -/
def Job.cls : Job → BitVec 2
  | .req p | .sig p _ => p.cls
  | .pool p _ _ => p.cls
  | .fetch _ _ _ c => c
def Job.core : Job → Nat
  | .req p | .sig p _ => p.core
  | .pool _ _ c => c
  | .fetch c _ _ _ => c
def Job.flits : Job → Nat
  | .req p | .sig p _ => reqFlits p.req
  | .pool p wr _ => (scFlits p wr).1 + (scFlits p wr).2
  | .fetch _ _ _ _ => 4

/-- Send what a job is. -/
def State.emit (s : State) (j : Job) : State :=
  match j with
  | .req p => s.sendReq p
  | .sig p set => s.emitSig p set
  | .pool p wr core => s.sendSc p wr core
  | .fetch core asid b _ => s.fetchGo core asid b

/-- Class-0 budget of a cluster (R72). -/
def Die.budgetOf (d : Die) (cl : Nat) : Nat := Tab.getD d.budget 32 cl

/-- Have the regulators gain (R72): one event serves every cluster while any budget is short. DESIGN CHOICE
(assumption 104): the 4-FCLK period starts with the first flit spent. -/
def State.askGain (s : State) : State :=
  if s.agenda.any fun e => e.ev = .class0BudgetGain then s else s.post 8 .class0BudgetGain

/-- Send a class-0 request through its cluster's regulator, or hold it there (R72). -/
def State.regulate (s : State) (j : Job) : State :=
  let cl := clusterOf j.core
  let die := dieOfCore j.core
  let d := s.die die
  if j.flits ≤ d.budgetOf cl ∧ ¬ d.c0q.any (fun e => e.1 = cl) then
    ((s.modDie die fun d => { d with budget := Tab.put d.budget cl (d.budgetOf cl - j.flits) }).askGain).emit j
  else (s.modDie die fun d => { d with c0q := d.c0q ++ [(cl, j)] }).askGain

/-- A request leaves its endpoint. -/
def State.depart (s : State) (j : Job) : State :=
  if j.cls = 0 ∧ j.core < 256 then s.regulate j else s.emit j

/-- Issue a request `dt` ACLK from now: it is injected 16 ACLK later (R91). -/
def State.issueJob (s : State) (dt : Nat) (j : Job) : State := { s with outbox := s.outbox ++ [(s.aclk + dt + 16, j)] }

/-- Issue a request packet. -/
def State.launchReq (s : State) (dt : Nat) (p : Pkt) : State := s.issueJob dt (.req p)

/-- Issue a pooled access of a core. -/
def State.sendPool (s : State) (core dt : Nat) (p : ScPkt) (wr : Bool) : State := s.issueJob dt (.pool p wr core)

/-- The requests due leave, in the order they were issued. -/
def State.departAll (s : State) : State :=
  let due := s.outbox.filter fun e => e.1 ≤ s.aclk
  due.foldl (fun s e => s.depart e.2) { s with outbox := s.outbox.filter fun e => s.aclk < e.1 }

/-- One cluster's waiting class-0 requests go as far as its budget reaches. -/
def State.regulated (s : State) (die cl : Nat) : State :=
  (s.die die).c0q.foldl (fun s e =>
    let d := s.die die
    let n := e.2.flits
    if e.1 = cl ∧ n ≤ d.budgetOf cl ∧ (d.c0q.find? fun h => h.1 = cl) = some e then
      (s.modDie die fun d =>
        { d with budget := Tab.put d.budget cl (d.budgetOf cl - n), c0q := d.c0q.erase e }).emit e.2
    else s) s

/-- CLASS0_BUDGET_GAIN (R72): every short budget gains a flit, and waiting requests go. -/
def State.budgetGain (s : State) : State :=
  let one (s : State) (die : Nat) : State :=
    let d := s.die die
    let s := s.modDie die fun d => { d with budget := (d.budget.map fun b => (b.1, b.2 + 1)).filter fun b => b.2 < 32 }
    (uniq (d.c0q.map fun e => e.1)).foldl (fun s cl => s.regulated die cl) s
  let s := [0, 1, 2, 3].foldl one s
  if [0, 1, 2, 3].any fun d => !(s.die d).budget.isEmpty || !(s.die d).c0q.isEmpty then s.askGain else s

/-! ## At the home bank (R78 to R80, R83) -/

/-- Die-physical line number of a request at its home. -/
def plineOf (p : Pkt) : Nat := (p.phys.getD 0) % 2 ^ 37 / 512

/-- Package-wide physical address of a request's line. -/
def pbaseOf (p : Pkt) : Nat := p.phys.getD 0

/-- The bank number whose line locks a line takes; a slice that serves uncached has its own. -/
def State.lockBank (s : State) (die line : Nat) : Nat :=
  let slice := homeSlice (line * 512)
  (s.holder die slice (homeBank (line * 512))).getD (128 + slice)

/-- Two requests are sectors of one transfer: reads, or writes, of one operation in one line, which share its lock, so
that a transfer's granules follow each other by one ACLK (R364). They are performed one at a time, in the order in
which they arrived, and pass no other request (R78). DEDUCED (assumption 23). -/
def sameRun (p q : Pkt) : Bool :=
  match p.src, q.src, p.req, q.req with
  | .eng a _, .eng b _, .read _, .read _ => a = b
  | .eng a _, .eng b _, .write _, .write _ => a = b
  | _, _, _, _ => false

/-- A request can take its line's lock: nothing else holds it or waits for it, and the bank holds fewer than 16 (R78). -/
def State.lockFree (s : State) (p : Pkt) : Bool :=
  let d := s.die p.ddie
  let line := plineOf p
  let mine := d.locks.filter fun l => l.line = line
  if mine.isEmpty then
    (uniq ((d.locks.filter fun l => l.bank = s.lockBank p.ddie line).map fun l => l.line)).length < 16
  else mine.all fun l => sameRun l.pkt p

/-- Take the lock and start the tag lookup (R78): 16 ACLK to the data, 32 to an atomic's write (R91). -/
def State.lockLine (s : State) (p : Pkt) : State :=
  let q := { p with held := true }
  let lk : LineLock := ⟨s.nextId, s.lockBank p.ddie (plineOf p), (plineOf p), q, 0, false⟩
  let s := { s with nextId := s.nextId + 1 }.modDie p.ddie fun d => { d with locks := d.locks ++ [lk] }
  s.post (match p.req with | .atomic _ => 32 | _ => 16) (reqEv q)

/-- The bank that holds a line, its own or another's, if it is entering Agate mode and writes its lines back (R80,
R113). -/
def State.homeBusy (s : State) (die line : Nat) : Option Nat :=
  match s.holder die (homeSlice (line * 512)) (homeBank (line * 512)) with
  | some k => if (s.bank (die * 128 + k)).mode = .entering then some (die * 128 + k) else none
  | none => none

/-- A request reaches its home bank: it takes its line's lock or waits (R78, R80). -/
def State.arriveHome (s : State) (p : Pkt) : State :=
  match s.homeBusy p.ddie (plineOf p) with
  | some k => s.modBank k fun b => { b with late := b.late ++ [p] }
  | none =>
    if s.lockFree p ∧ ¬ (s.die p.ddie).confl.any (fun q => plineOf q = plineOf p) then s.lockLine p
    else s.modDie p.ddie fun d => { d with confl := d.confl ++ [p] }

/-- Let waiting requests of a die take the locks that are free, in arrival order for each line (R78). -/
def State.drainConfl (s : State) (die : Nat) : State :=
  let r := (s.die die).confl.foldl (fun (acc : State × List Nat) p =>
    let (s, held) := acc
    if held.contains (plineOf p) then acc
    else if s.lockFree p then
      ((s.modDie die fun d => { d with confl := d.confl.erase p }).lockLine p, (plineOf p) :: held)
    else (s, (plineOf p) :: held)) (s, [])
  r.1

/-- Release a line's lock: the next request that shared it goes on if it waited. -/
def State.unlock (s : State) (p : Pkt) : State :=
  let s := s.modDie p.ddie fun d => { d with locks := d.locks.filter fun l => l.pkt ≠ p }
  let s := match (s.die p.ddie).locks.find? fun l => l.line = plineOf p with
    | some l => if l.ready then s.post 0 (.hbmFill l.pkt false) else s
    | none => s
  s.drainConfl p.ddie

/-- ACLK from a request's performance to its answer at the source (R91). -/
def rspTime (p : Pkt) : Nat := 48 + 56 * hops p.sdie p.ddie

/-- Who performs a write, for the watchpoints (R417). -/
def State.writerOf (s : State) (p : Pkt) : WatchEv :=
  match p.src with
  | .grp g _ =>
    match Tab.get? s.groups g with
    | some x => { WatchEv.anon with gid := x.gid, src := grpid g x.gid, d1 := w64 p.line, exited := x.dead }
    | none => { WatchEv.anon with d1 := w64 p.line }
  | .eng k _ =>
    match Tab.get? s.ops k with
    | some o =>
      { WatchEv.anon with gid := o.gid, batch := (o.batch.getD 0).toNat, async := true, exited := o.gone,
                          src := grpid o.g o.gid, d1 := w64 p.line }
    | none => { WatchEv.anon with async := true, d1 := w64 p.line }
  | _ => { WatchEv.anon with d1 := w64 p.line }

/-- New value of an atomic on floating-point types (R354). -/
def atomFloat (t : Ty) (aop old b : Nat) : Nat :=
  let f := fmtOf t
  let put (r : FRes) : Nat := (f.deliver .rne false 0 r).1
  match aop with
  | 0 => put (fAdd .rne (f.decode old) (f.decode b))
  | 1 => put (fPick false (f.decode old) (f.decode b))
  | 2 => put (fPick true (f.decode old) (f.decode b))
  | _ => b

/-- New value of an atomic on integer types (R354). -/
def atomInt (t : Ty) (aop old b : Nat) : Nat :=
  let w := t.width
  match aop with
  | 0 => (old + b) % 2 ^ w
  | 1 => wrap w (min (asInt t old) (asInt t b))
  | 2 => wrap w (max (asInt t old) (asInt t b))
  | 3 => old &&& b
  | 4 => old ||| b
  | 5 => old ^^^ b
  | 6 => b
  | 7 => if b ≤ old then 0 else old + 1
  | _ => if old = 0 ∨ b < old then b else old - 1

/-- What an atomic writes, if it writes (R354, R355). -/
def atomNew (a : AtReq) (old : Nat) : Option Nat :=
  let m := 2 ^ a.ty.width
  let b := a.b.toNat % m
  if a.cas then (if old = b then some (a.c.toNat % m) else none)
  else some (if a.ty.kind = .float then atomFloat a.ty a.aop.toNat old b else atomInt a.ty a.aop.toNat old b)

/-- The request invalidates remote copies first (R79, R83, R357). -/
def Req.invalidates : Req → Bool
  | .read _ => false
  | .write _ => true
  | .atomic _ => true
  | .flush inv => inv

/-- A request is performed under its line lock, answered, and the lock released (R78, R79, R83, R357). -/
def State.perform (s : State) (p : Pkt) : State :=
  let slice := homeSlice ((plineOf p) * 512)
  let sec := Req.sectors p.req
  let s := if Req.invalidates p.req then s.setSharers p.ddie (plineOf p) 0 else s
  let s :=
    match p.req with
    | .read m =>
      let bytes := (sectorsOf m).flatMap fun i => s.readBytes ((pbaseOf p) + 128 * i) 128
      let s := s.l2Touch p.ddie (plineOf p) m false
      let s :=
        if p.sdie ≠ p.ddie ∧ ¬ p.nr then
          s.setSharers p.ddie (plineOf p) (s.sharersOf p.ddie (plineOf p) ||| BitVec.ofNat 3 (2 ^ ((p.sdie + 3 - p.ddie) % 4)))
        else s
      s.respData p slice (rspTime p) bytes
    | .write bs =>
      let s := (s.homeWrite (pbaseOf p) bs (s.writerOf p)).l2Touch p.ddie (plineOf p) sec true
      s.respAck p slice (rspTime p) 0
    | .atomic a =>
      let n := a.ty.width / 8
      let at' := (pbaseOf p) + a.addr.toNat % 512
      let old := s.readNum at' n
      let s :=
        match atomNew a old with
        | some v => (s.homeWrite at' (numbered 0 (bytesLE n v)) (s.writerOf p)).l2Touch p.ddie (plineOf p) sec true
        | none => s.l2Touch p.ddie (plineOf p) sec false
      s.respAck p slice (rspTime p) (w64 old)
    | .flush inv =>
      let s := s.modDie p.ddie fun d =>
        let clean (l : L2Line) : L2Line := if l.line = plineOf p then { l with dirty := 0 } else l
        { d with l2 := if inv then d.l2.filter fun l => l.line ≠ plineOf p else d.l2.map clean }
      s.respAck p slice (rspTime p) 0
  s.unlock p

/-- Change a line lock of a die. -/
def State.modLock (s : State) (die id : Nat) (f : LineLock → LineLock) : State :=
  s.modDie die fun d => { d with locks := d.locks.map fun l => if l.id = id then f l else l }

/-- An INV of a request's line to a die, and the INVACK that answers it (R68, R71): each with the class of the write. -/
def State.sendInv (s : State) (p : Pkt) (e hold : Nat) : State :=
  let slice := homeSlice ((plineOf p) * 512)
  let r : Route := ⟨6, 1, true, p.ddie, 32 + slice, e, 64 + slice⟩
  s.onVc (vcKey true p.cls r.sdie r.sep r.ddie r.dep) (56 * hops p.ddie e) (.inv (pktRoute p 0 r s.aclk) e hold)
def State.sendInvack (s : State) (p : Pkt) (e hold : Nat) : State :=
  let slice := homeSlice ((plineOf p) * 512)
  let r : Route := ⟨7, 1, false, e, 64 + slice, p.ddie, 32 + slice⟩
  s.onVc (vcKey false p.cls r.sdie r.sep r.ddie r.dep) (56 * hops e p.ddie) (.invack ⟨pktRoute p 0 r s.aclk, hold⟩)

/-- With its sectors present: wait for the earlier requests that share the lock, send the invalidations it needs and
wait, or perform it (R78, R83). -/
def State.afterFill (s : State) (p : Pkt) : State :=
  let v := s.sharersOf p.ddie (plineOf p)
  match (s.die p.ddie).locks.find? fun l => l.pkt = p with
  | none => s
  | some lk =>
    if ((s.die p.ddie).locks.find? fun l => l.line = plineOf p) ≠ some lk then
      s.modLock p.ddie lk.id fun l => { l with ready := true }
    else if Req.invalidates p.req ∧ v ≠ 0 then
      let ds := sharerDies p.ddie v
      ds.foldl (fun s e => s.sendInv p e lk.id) (s.modLock p.ddie lk.id fun l => { l with left := ds.length })
    else s.perform p

/-- Sectors a request must find or fill before it is performed (R77): all it reads; of those it writes, the ones it
does not cover whole. -/
def Req.needs : Req → BitVec 4
  | .read m => m
  | .write bs =>
    (sectorsOf (Req.sectors (.write bs))).foldl (fun m i =>
      if (bs.filter fun b => b.1 / 128 % 4 = i).length < 128 then m ||| .ofNat 4 (2 ^ i) else m) 0
  | .atomic a => Req.sectors (.atomic a)
  | .flush _ => 0

/-- A flush finds dirty sectors to write to HBM4E. -/
def State.dirtyLine (s : State) (die line : Nat) : Bool := (s.die die).l2.any fun l => l.line = line && l.dirty ≠ 0

/-! ## Errors at a slice (R87) -/

/-- A dirty sector is lost: invalidated without write-back, every context of the die's partition ends, and its address
is traced. -/
def State.loseSector (s : State) (die sec : Nat) : State :=
  let m : BitVec 4 := .ofNat 4 (2 ^ (sec % 4))
  let drop (l : L2Line) : L2Line :=
    if l.line = sec / 4 then { l with valid := l.valid &&& ~~~m, dirty := l.dirty &&& ~~~m } else l
  let n := s.fresh
  let s := s.tickFree.modDie die fun d => { d with l2 := d.l2.map drop }
  let s := s.writeBytes (paddr die (128 * sec)) ((List.range 128).map fun i => Config.staleByte n i)
  let s := s.ctxs.foldl (fun s c =>
    if (s.part c.2.pid).mask.toNat / 2 ^ die % 2 = 1 then s.endCtx c.1 5 0 0 0 0 else s) s
  s.trace die 3 0 0 0 (w64 (128 * sec))

/-- The L2 of a die has lost the sector's clean copy, which is read again. -/
def State.l2Forget (s : State) (die sec : Nat) : State :=
  let drop (l : L2Line) : L2Line :=
    if l.line = sec / 4 then { l with valid := l.valid &&& ~~~ .ofNat 4 (2 ^ (sec % 4)) } else l
  (s.modDie die fun d => { d with l2 := d.l2.map drop }).corrected die 64

/-- Dirty sectors of a set of a bank. -/
def State.dirtyIn (s : State) (die bank set : Nat) : List Nat :=
  ((s.die die).l2.filter fun l => l.bank = bank ∧ l.line / 128 % 128 = set).flatMap fun l =>
    (sectorsOf l.dirty).map fun i => 4 * l.line + i

/-- What a tag lookup and the reads of some sectors of a line find in error. -/
def State.l2Checked (s : State) (die line : Nat) (m : BitVec 4) : State :=
  if s.upsets.isEmpty then s
  else
    let bank := (s.holder die (homeSlice (line * 512)) (homeBank (line * 512))).getD 128
    let set := line / 128 % 128
    let t := s.upset (.tag die bank set)
    let s := if t = 0 then s else if t = 1 then s.corrected die 64
      else (s.dirtyIn die bank set).foldl (fun s e => s.loseSector die e) s
    (sectorsOf m).foldl (fun s i =>
      let sec := 4 * line + i
      match s.upset (.l2 die sec), (s.die die).l2.find? fun l => l.line = line && l.valid.toNat / 2 ^ i % 2 = 1 with
      | 0, _ => s
      | _, none => s
      | 1, some _ => s.corrected die 64
      | _, some l => if l.dirty.toNat / 2 ^ i % 2 = 1 then s.loseSector die sec else s.l2Forget die sec) s

/-- The HBM4E spot of a sector (R26). -/
def hbmSpot (die sec : Nat) : Spot := .hbm die (hbmPlace (128 * sec)).1 (hbmPlace (128 * sec)).2 sec

/-- Sectors a request's fill reads from HBM4E. -/
def State.fillSecs (s : State) (p : Pkt) : List Nat :=
  let m := Req.needs p.req
  let have' : BitVec 4 := match (s.die p.ddie).l2.find? fun l => l.line = plineOf p with | some l => l.valid | none => 0
  (sectorsOf (m &&& ~~~have')).map fun i => 4 * plineOf p + i

/-- The tag lookup is done: fetch what is missing from HBM4E, 288 ACLK, or go on (R77, R80, R91). -/
def State.tagDone (s : State) (p : Pkt) : State :=
  let s := s.l2Checked p.ddie (plineOf p) (Req.sectors p.req)
  let uncached := (s.holder p.ddie (homeSlice ((plineOf p) * 512)) (homeBank ((plineOf p) * 512))).isNone
  let isFlush := match p.req with | .flush _ => true | _ => false
  if (if isFlush then s.dirtyLine p.ddie (plineOf p) else uncached || s.l2Lacks p.ddie (plineOf p) (Req.needs p.req)) then
    s.post 288 (.hbmFill p false)
  else s.afterFill p

/-- The sectors arrive from HBM4E and the request is performed; or an uncorrectable error is met: nothing is installed
or performed, and the master is frozen (R77, R87). -/
def State.filled (s : State) (p : Pkt) (bad : Bool) : State :=
  let l := s.fillSecs p
  let ps := l.map fun e => hbmSpot p.ddie e
  if bad ∨ s.spoiled ps then
    let sec := ((l.find? fun e => s.upset (hbmSpot p.ddie e) = 2).orElse fun _ => l.head?).getD (4 * plineOf p)
    (s.freezeMaster p (w64 (128 * sec))).unlock p
  else ((ps.filter fun q => s.upset q = 1).foldl (fun s _ => s.corrected p.ddie 64) s).afterFill p

/-- An invalidation reaches a die's RDC section: the line, what points to it and its fills in flight go, and the
acknowledgement returns (R83, R84). -/
def State.invalidate (s : State) (p : Pkt) (die hold : Nat) : State :=
  let line := pbaseOf p
  let s := s.modDie die fun d => d.rdcDrop (line / 2 ^ 37) (line % 2 ^ 37 / 512)
  let s := s.markFills fun q => q.sdie = die ∧ q.phys = some line
  s.sendInvack p die hold

/-- An acknowledgement reaches the home bank; the last one lets the write be performed (R83). -/
def State.invAcked (s : State) (hold : Nat) : State :=
  match [0, 1, 2, 3].findSome? fun d => (s.die d).locks.find? fun l => l.id = hold with
  | none => s
  | some lk =>
    let s := s.modLock lk.pkt.ddie hold fun l => { l with left := l.left - 1 }
    if lk.left ≤ 1 then s.perform lk.pkt else s

/-! ## At the translating slice (R74, R97, R99, R100) -/

/-- Forward a translated request to its home slice, 16 ACLK on. -/
def State.forward (s : State) (p : Pkt) (pa : Nat) (nr : Bool) : State :=
  let a := paddr p.ddie (pa / 512 * 512)
  let q := { p with phys := some a, nr := nr, rdc := p.rdc && !nr }
  let r : Route := ⟨reqType p.req, ownFlits p.req, false, p.sdie, srcEndpoint p, p.ddie, 32 + homeSlice (a % 2 ^ 37)⟩
  s.onVc (vcKey false p.cls p.ddie (32 + xslice p.line) p.ddie r.dep) 16 (reqEv (pktRoute q (reqOpx p.req) r s.aclk))

/-- Key under which an operation records that a translating slice refused it (R450). -/
def refuseKey (p : Pkt) : Nat := p.ddie * 32 + xslice p.line

/-- The subcause with which a packet's translating slice has refused an earlier request of its operation (R450). -/
def State.refusedBefore (s : State) (p : Pkt) : Option Nat :=
  match p.src with
  | .eng k _ =>
    match Tab.get? s.ops k with
    | some o => (o.refused.find? fun e => e % 128 = refuseKey p).map fun e => e / 128
    | none => none
  | _ => none

/-- Refuse a request: NACK returns to the source, and the slice refuses what follows of its operation (R450). -/
def State.refuse (s : State) (p : Pkt) (sc : Nat) : State :=
  let s := match p.src with
    | .eng k _ => s.modOp k fun o => { o with refused := (sc * 128 + refuseKey p) :: o.refused }
    | _ => s
  s.respNack p (xslice p.line) (32 + 56 * hops p.sdie p.ddie) sc

/-- Start a walk for a request, or join the one of its page (R100). -/
def State.startWalk (s : State) (p : Pkt) (pin : Bool) : State :=
  let (s, due) := s.walkFor p.ddie p.asid p.line s.aclk (s.walkTime p.ddie p.asid p.line p.need p.peer) pin
  s.post (due - s.aclk) (.pageWalkComplete p)

/-- A request reaches its translating slice: an MTLB hit forwards it, anything else walks (R74, R99). -/
def State.translate (s : State) (p : Pkt) : State :=
  if s.prefArmed p then s
  else match s.refusedBefore p with
  | some sc => s.refuse p sc
  | none =>
  let s := s.mtlbChecked p.ddie p.asid p.line
  match s.mtlbHit p.ddie p.asid p.line p.need p.peer with
  | some x => s.forward p x.pa x.nr
  | none =>
    let (s, pin) := s.mtlbRefused p.ddie p.asid p.line
    s.startWalk p pin

/-- A walk ends for a request: the table lines it read are in L2, its leaf is installed unless a shootdown marked
the walk, and the request goes on or is refused (R97 to R100, R110). -/
def State.walkDone (s : State) (p : Pkt) : State :=
  let w := (s.die p.ddie).walks.find? fun w => w.asid = p.asid ∧ w.page = p.line / 2 ^ 16
  let s := s.modDie p.ddie fun d => { d with walks := d.walks.filter fun w => s.aclk ≤ w.due }
  let s := (s.walkLines p.ddie p.asid p.line).foldl (fun s a =>
    s.l2Touch p.ddie (a / 512) (.ofNat 4 (2 ^ (a / 128 % 4))) false) s
  match s.walkXlate p.ddie p.asid p.line p.need p.peer (w.any fun w => w.pin) !(w.any fun w => w.dead) with
  | (s, .ok x) => s.forward p x.pa x.nr
  | (s, .error sc) => s.refuse p sc

end Sys2Proof.Machine
end

