-- ==== Sys2Proof/Machine/Scratch.lean ====
section
/-! DEFINITION. Scratch addresses, the arrays behind them, and pooled accesses (R27 to R33, R57 to R61, R91,
R409). -/

namespace Sys2Proof.Machine

/-! ## Addresses (R27 to R31) -/

/-- Where a scratch address leads: an array of the block by its index, and a byte of it; an offset of a gang
rank's interleaved window; or nowhere. -/
inductive ScLoc where
  | own (j byte : Nat)
  | pool (rank off : Nat)
  | bad
  deriving DecidableEq, Repr

/-- Block of a rank of a block's gang (R188, R189). -/
def State.rankBlk (s : State) (b : Block) (rank : Nat) : Option Nat := Tab.get? (s.gang b.gang).blks rank

/-- Decode a scratch address of a block (R27 to R31). -/
def State.scLoc (s : State) (b : Block) (a : W64) : ScLoc :=
  let o := fld a 0 21
  let lim := b.narr * 32768
  if fld a 32 32 ≠ 0 then .bad
  else match fld a 30 2 with
    | 0 => if fld a 21 9 = 0 ∧ o < lim then let (j, i) := interleaved b.narr o; .own j i else .bad
    | 1 => if fld a 21 9 = 0 ∧ o < lim then .own (o / 32768) (o % 32768) else .bad
    | 2 =>
      let rank := fld a 24 1 * 8 + fld a 21 3
      match s.rankBlk b rank with
      | some k => if fld a 25 5 = 0 ∧ o < (s.blk k).narr * 32768 then .pool rank o else .bad
      | none => .bad
    | _ => .bad

/-- A scratch range of `n` bytes lies within one window's valid range (R31, R364). -/
def State.scRange (s : State) (b : Block) (a : W64) (n : Nat) : Bool :=
  n = 0 || (s.scLoc b a ≠ .bad && s.scLoc b (a + w64 (n - 1)) ≠ .bad && fld a 21 11 = fld (a + w64 (n - 1)) 21 11 &&
    fld a 0 21 + n ≤ 2 ^ 21)

/-! ## Arrays (R57 to R61) -/

/-- A byte of an array. -/
def State.arrByte (s : State) (k i : Nat) : Byte := Tab.getD (s.arr k).cells 0 i

/-- Bytes of an array. -/
def State.arrBytes (s : State) (k i n : Nat) : List Byte := (List.range n).map fun e => s.arrByte k (i + e)

/-- Write a byte of an array. -/
def State.setArrByte (s : State) (k i : Nat) (x : Byte) : State :=
  s.modArr k fun a => { a with cells := Tab.set a.cells 0 i x }

/-- The array takes stores (R59). -/
def Arr.writable (a : Arr) : Bool := a.st = .storage || a.st = .fenced

/-- A write that arrays of a block dropped, the lowest dropped lane's or byte's array being `j` (R61). -/
def State.spDrop (s : State) (k j : Nat) : State :=
  s.modBlk k fun b =>
    { b with spstat := if bit64 b.spstat 0 then setFld b.spstat 1 1 1
                       else setFld (setFld b.spstat 0 1 1) 10 6 j
             spAt := match b.spAt with
               | some (t, i) => if t = s.aclk then some (t, i) else some (s.aclk, j)
               | none => some (s.aclk, j) }

/-- A write of SPSTAT (R61): a drop of this ACLK stays. -/
def Block.spWrite (b : Block) (now : Nat) (v : W64) : Block :=
  let m := rw (w1c b.spstat v 3) v 0x200
  { b with spstat := match b.spAt with
      | some (t, j) => if t = now ∧ bit64 v 0 then setFld (setFld m 0 1 1) 10 6 j else m
      | none => m }

/-- Write bytes to arrays of block `k`, given as array index, byte and value in order of precedence: those of arrays
that take no stores are dropped, as one drop (R59, R61). -/
def State.arrWrite (s : State) (k : Nat) (ws : List (Nat × Nat × Byte)) : State :=
  let b := s.blk k
  let ok (w : Nat × Nat × Byte) : Bool := (s.arr (b.arrKey w.1)).writable
  let t := ws.foldl (fun t w => if ok w then t.setArrByte (b.arrKey w.1) w.2.1 w.2.2 else t) s
  match ws.find? fun w => !ok w with
  | some w => t.spDrop k w.1
  | none => t

/-! ## Pooled accesses (R30, R91, R409) -/

/-- A rank of a block's gang is ready (R409). -/
def State.rankReady (s : State) (b : Block) (rank : Nat) : Bool :=
  match s.rankBlk b rank with
  | some k => (s.blk k).ready
  | none => true

/-- Core of the requester of a scratch packet. -/
def State.scCore (s : State) (p : ScPkt) (dst : Nat) : Nat :=
  match p.src with
  | .grp g _ => coreOf g
  | .eng k _ => match Tab.get? s.ops k with | some o => o.core | none => dst
  | _ => dst

/-- A final park that waits for the pooled accesses sent to its arrays looks again (R409). -/
def State.wakePark (s : State) : State := s.wakeAll fun w => w = .parkFull

/-- Answer a scratch packet from a core: the answer takes the other half of the latency, on its own channel (R70, R91). -/
def State.scRespond (s : State) (p : ScPkt) (dst typ flits : Nat) (mk : Pkt → Instr) : State :=
  let core := s.scCore p dst
  let q := scAnswer p core dst
  let (q, sep, dt) := match p.src with
    | .peer d _ => ({ q with sdie := d, core := 256 }, 98, 28 + 56 * hops d (dieOfCore dst))
    | _ => (q, clusterOf core, poolLat core dst / 2)
  let r : Route := ⟨typ, flits, true, dieOfCore dst, clusterOf dst, q.sdie, sep⟩
  s.onVc (vcKey true p.cls r.sdie r.sep r.ddie r.dep) dt (mk (pktRoute q 0 r s.aclk))

/-- A rank whose block has ended refuses an access (R189). -/
def State.scNack (s : State) (p : ScPkt) : State := s.post 28 (.nack (scAnswer p (s.scCore p 0) 0) 1)

/-- The words of an array that a read of `n` bytes checks (R58). -/
def cellSpots (k i n : Nat) : List Spot := (List.range ((i % 4 + n + 3) / 4)).map fun w => .cell k (i / 4 + w)

/-- SCR (R68): the granule is read at its target and returns. A rank whose block has ended refuses it (R189). -/
def State.poolRead (s : State) (p : ScPkt) : State :=
  match s.poolBlk p with
  | none => s.scNack p
  | some k =>
    let s := s.wakePark
    let b := s.blk k
    let (j, i) := interleaved b.narr p.off
    let dst := b.arrCore j
    let ws := cellSpots (b.arrKey j) i 128
    if s.spoiled ws then s.freezeMaster (scAnswer p 0 dst) (w64 p.va)
    else
      (s.countUpsets dst ws).scRespond p dst 8 3 fun q => .dataRsp q (s.arrBytes (b.arrKey j) i 128)

/-- SCW (R61, R68): the granule's bytes are written or dropped at the target, and the acknowledgement returns;
a rank whose block has ended refuses it (R189). -/
def State.poolWrite (s : State) (p : ScPkt) : State :=
  match s.poolBlk p with
  | none => s.scNack p
  | some k =>
    let s := s.wakePark
    let b := s.blk k
    let dst := b.arrCore (interleaved b.narr p.off).1
    let at' (w : Nat × Byte) : Nat × Nat × Byte := ((interleaved b.narr w.1).1, (interleaved b.narr w.1).2, w.2)
    (s.arrWrite k (p.bytes.map at')).scRespond p dst 9 1 fun q => .ack q 0

end Sys2Proof.Machine
end

