-- ==== Sys2Proof/Machine/Access.lean ====
section
/-! DEFINITION. A group's accesses: the core's checks, the L1, the packets sent, what an answer does, and how an
access completes or faults (R18, R48 to R53, R101 to R103, R141 to R143, R349, R350, R398). -/

namespace Sys2Proof.Machine

/-! ## Words and fields -/

/-- Bytes of a memory or asynchronous word. -/
def memLen (a : MemArgs) : Nat := if a.ext.isSome then 16 else 8

/-- Effective address of lane `l` (R349). -/
def effAddr (x : Group) (a : MemArgs) (l : Nat) : W64 := x.srcX a.sa l + sext32 a.e.disp

/-- The word is an acquire, a release (R348). -/
def memAcq (a : MemArgs) : Bool := a.e.ord.toNat % 2 = 1
def memRel (a : MemArgs) : Bool := a.e.ord.toNat / 2 = 1

/-- Lane `l`'s data word: element 0 of V, S or SMALL under the type (R273, R352). -/
def memData (x : Group) (t : Ty) (o : Opnd) (l : Nat) : Nat :=
  match o with
  | .small k => intIn (if t = .u0 then .n64 else t) ((k.toNat : Int) - 16)
  | o => (x.srcX o l).toNat % 2 ^ t.width

/-! ## The core's checks (R18, R101 to R103, R349) -/

/-- Rank of a subcause in R102's order: ALIGN, UNMAPPED, ABSENT, PERM. -/
def xlRank (sc : Nat) : Nat := match sc with | 4 => 0 | 1 => 1 | 3 => 2 | _ => 3

/-- The refused lane a trap reports: the first subcause in order, at its lowest lane (R102). -/
def worstLane (bad : List BadLane) : Option BadLane :=
  bad.foldl (fun a b =>
    match a with
    | none => some b
    | some w =>
      let rb := xlRank b.subc.toNat
      let rw := xlRank w.subc.toNat
      if rb < rw ∨ (rb = rw ∧ b.lane < w.lane) then some b else some w) none

/-- The mask of refused lanes. -/
def badMask (bad : List BadLane) : Mask := Mask.of fun l => bad.any fun b => b.lane = l

/-- What the core finds for one lane's access of natural alignment `n`: a freeze comes before every subcause (R18),
and ALIGN before the others (R102). -/
def laneCheck (s : State) (c : Ctx) (die n : Nat) (a : LaneAcc) : Option (Option Nat) :=
  let one (v : W64) : Option (Option Nat) :=
    match vaCheck s c die v with
    | .ok => none
    | .frozen => some none
    | .unmapped => some (some scUnmapped)
    | .absent => some (some scAbsent)
  let last := a.addr + w64 (a.size - 1)
  if one a.addr = some none ∨ one last = some none then some none
  else if a.addr.toNat % n ≠ 0 then some (some scAlign)
  else (one a.addr).orElse fun _ => one last

/-- A lane's access freezes the group (R18). -/
def accFreezes (s : State) (c : Ctx) (die n : Nat) (as : List LaneAcc) : Bool :=
  as.any fun a => laneCheck s c die n a = some none

/-- The lanes the core refuses. -/
def accBad (s : State) (c : Ctx) (die n : Nat) (as : List LaneAcc) : List BadLane :=
  as.filterMap fun a =>
    match laneCheck s c die n a with
    | some (some sc) => some ⟨a.lane, .ofNat 4 sc, a.addr⟩
    | _ => none

/-- Trap XLATE at the current instruction for the lanes the core refuses (R102). -/
def State.trapLanes (s : State) (c : Cur) (bad : List BadLane) : State :=
  match worstLane bad with
  | some w => s.trapMask c 0x04 w.subc.toNat w.addr (badMask bad)
  | none => s

/-! ## Waiting for earlier accesses (R141 to R143) -/

/-- Among the accesses `l` before an instruction, an acquire of scope BLOCK or wider is outstanding, or the instruction is a
release of such a scope and any access is (R143). -/
def orderWait (l : List Pend) (rel : Bool) (scope : Nat) : Bool :=
  (l.any fun p => match p.acq with | some k => 1 ≤ k.toNat | none => false) || (rel && 1 ≤ scope && !l.isEmpty)

/-- Block on R141's or R143's waits, or go on. The fence of a `.REL` access that reads has the L1 effect (R51, R141). -/
def State.ordered (s : State) (c : Cur) (x : Group) (a : MemArgs) (reads : Bool) (f : State) : State :=
  if orderWait (s.before c x) (memRel a) a.e.scope.toNat then s.block c x .acks (memLen a)
  else if memRel a ∧ reads ∧ acqInvalidates a.e.scope.toNat (s.blk x.blk).pair then s.fenceFirst c x true (memLen a) f
  else f

/-! ## The L1 (R48 to R53, R142) -/

/-- The line an L1 lookup hits: a load with .RO looks up both partitions (R49). -/
def Core.l1Find (c : Core) (asid : BitVec 16) (line : Nat) (ro : Bool) : Option L1Line :=
  c.l1.find? fun l => l.asid = asid && l.line = line && (ro || !l.ro)

/-- Mark a line used now. -/
def Core.l1Used (c : Core) (l : L1Line) (now : Nat) : Core := { c with l1 := { l with used := now } :: c.l1.erase l }

/-- Install a line: no copy stays in the other partition; the least recently used line of the set's 16 normal or 4
read-only ways leaves (R48, R49). -/
def Core.l1Install (c : Core) (asid : BitVec 16) (line : Nat) (ro : Bool) (data : List Byte) (now : Nat) : Core :=
  let rest := c.l1.filter fun l => ¬ (l.asid = asid ∧ l.line = line)
  let same := rest.filter fun l => l.ro = ro ∧ l.line % 256 = line % 256
  let new : L1Line := ⟨asid, line, ro, data, now⟩
  if same.length < (if ro then 4 else 16) then { c with l1 := new :: rest }
  else
    let old := same.foldl (fun a l => min a l.used) now
    match same.find? fun l => l.used = old with
    | some v => { c with l1 := new :: rest.erase v }
    | none => { c with l1 := new :: rest }

/-- Drop a line from both partitions (R50). -/
def Core.l1Drop (c : Core) (asid : BitVec 16) (line : Nat) : Core :=
  { c with l1 := c.l1.filter fun l => ¬ (l.asid = asid ∧ l.line = line) }

/-- Lookups of lines that fail their parity lose the line, and are counted (R54). -/
def State.l1Scrub (s : State) (core : Nat) (asid : BitVec 16) (lines : List Nat) : State :=
  if s.upsets.isEmpty then s
  else
    let held (l : Nat) : Bool := (s.core core).l1.any fun e => e.asid = asid && e.line = l
    (lines.filter fun l => held l && decide (s.upset (.l1 core l) ≠ 0)).foldl (fun s l =>
      (s.modCore core fun c => c.l1Drop asid l).corrected (dieOfCore core) (core % 64)) s

/-- Bytes of a list with some replaced, by index. -/
def patch (l : List Byte) (ws : List (Nat × Byte)) : List Byte := ws.foldl (fun l w => l.set w.1 w.2) l

/-- A store updates the bytes of a line it hits, in either partition (R50). -/
def Core.l1Store (c : Core) (asid : BitVec 16) (line : Nat) (ws : List (Nat × Byte)) : Core :=
  let upd (l : L1Line) : L1Line := if l.asid = asid ∧ l.line = line then { l with data := patch l.data ws } else l
  { c with l1 := c.l1.map upd }

/-- The 128-byte lines an access touches. -/
def LaneAcc.lines (a : LaneAcc) : List Nat :=
  let lo := a.addr.toNat / 128
  let hi := (a.addr.toNat + a.size - 1) / 128
  if lo = hi then [lo] else [lo, hi]

/-- The distinct lines of a list of accesses, by ascending lane. -/
def accLines (as : List LaneAcc) : List Nat := uniq (as.flatMap LaneAcc.lines)

/-- Fills on the way to a core for lines it writes are not installed, so that no stale line appears under the
write (R138). -/
def State.markLines (s : State) (core : Nat) (asid : BitVec 16) (lines : List Nat) : State :=
  let s := s.modCore core fun c => { c with epoch := c.epoch + 1 }
  let hit (e : Nat × Group) (p : Pend) : Bool :=
    coreOf e.1 = core && s.asidAt e.2.ctx core = asid && (accLines p.lanes).any fun l => lines.contains l
  let mark (e : Nat × Group) : Nat × Group :=
    (e.1, { e.2 with pend := e.2.pend.map fun p => if hit e p then { p with noInst := true } else p })
  { s with groups := s.groups.map mark }

/-- Another group of the core, also one that is gone, has written bytes of the accesses and its store is not
acknowledged (R142). -/
def State.foreignBytes (s : State) (g : Nat) (asid : BitVec 16) (as : List LaneAcc) : Bool :=
  let meets (p : Pend) : Bool :=
    p.kind = .store && p.lanes.any fun b => as.any fun a =>
      a.addr.toNat < b.addr.toNat + b.size && b.addr.toNat < a.addr.toNat + a.size
  let by' (k ctx : Nat) (l : List Pend) : Bool :=
    coreOf k = coreOf g && s.asidAt ctx (coreOf g) = asid && l.any meets
  (s.groups.any fun e => e.1 ≠ g && by' e.1 e.2.ctx e.2.pend) || s.ghosts.any fun e => by' e.key e.ctx e.pend

/-- An access of the list, not yet answered, touches a line: a read, or a write that may not be performed yet. -/
def touchesLine (l : List Pend) (line : Nat) : Bool :=
  l.any fun p => p.kind ≠ .sigread && (accLines p.lanes).contains line

/-! ## Sending (R67, R71, R350) -/

/-- A request packet of a group for a virtual line. -/
def State.grpPkt (s : State) (g : Nat) (x : Group) (tag line : Nat) (need : Need) (rdc : Bool) (req : Req) : Pkt :=
  { src := .grp g tag, sdie := dieOf g, ddie := bitsN line 54 2, core := coreOf g, line := line, phys := none,
    held := false, asid := s.asidAt x.ctx (coreOf g), cls := (s.blk x.blk).cls, need := need, peer := false, rdc := rdc,
    nr := false, trunc := false, req := req }

/-- The owner die would refuse one of some accesses as its tables stand (R97, R101). The slot of such an access that
returns nothing issues no more until the refusal is known, so that its trap is precise (R102). DEDUCED
(assumption 21). -/
def State.refuses (s : State) (g : Nat) (asid : BitVec 16) (as : List LaneAcc) (need : Need) : Bool :=
  as.any fun a =>
    let d := vaDie a.addr
    s.pathDown (dieOf g) d ||
      match (s.xlate d asid a.addr.toNat need false false).2 with
      | .error _ => true
      | .ok _ => false

/-- 128-byte lines with their lookup number, gathered by 512-byte line: the line's address, its sectors and the
latest lookup. -/
def gather (ls : List (Nat × Nat)) : List (Nat × BitVec 4 × Nat) :=
  (uniq (ls.map fun e => e.2 / 4)).map fun q =>
    let mine := ls.filter fun e => e.2 / 4 = q
    (q * 512, mine.foldl (fun m e => m ||| BitVec.ofNat 4 (2 ^ (e.2 % 4))) (0 : BitVec 4),
     mine.foldl (fun n e => max n e.1) 0)

/-- Send the misses of a load: one RD for each 512-byte line (R350). A line that an access before it still touches is
read at its home and not from the RDC, so that the two keep their order (R138). -/
def State.sendReads (s : State) (g : Nat) (x : Group) (tag : Nat) (near : List Pend) (ls : List (Nat × Nat)) : State :=
  (gather ls).foldl (fun s e =>
    let rdc := !(ls.any fun l => l.2 / 4 = e.1 / 512 && touchesLine near l.2)
    s.launchReq e.2.2 (s.grpPkt g x tag e.1 .r rdc (.read e.2.1))) s

/-- The bytes of a store by 512-byte line: offsets and bytes, a higher lane's byte last. -/
def storeBytes (ws : List (Nat × Byte)) (q : Nat) : List (Nat × Byte) :=
  Tab.putAll [] ((ws.filter fun w => w.1 / 512 = q).map fun w => (w.1 % 512, w.2))

/-- A store updates the L1 and goes out, one WR for each 512-byte line (R50, R350). A store that its owner is to refuse
puts no byte into the L1, since no such write is made (R140): its lines leave it. -/
def State.sendWrites (s : State) (g : Nat) (x : Group) (tag : Nat) (refused : Bool) (lines : List Nat)
    (ws : List (Nat × Byte)) : State :=
  let asid := s.asidAt x.ctx (coreOf g)
  let s := (s.l1Scrub (coreOf g) asid lines).modCore (coreOf g) fun c =>
    lines.foldl (fun c l =>
      if refused then c.l1Drop asid l
      else c.l1Store asid l ((ws.filter fun w => w.1 / 128 = l).map fun w => (w.1 % 128, w.2))) c
  (gather (numbered 0 lines)).foldl (fun s e =>
    s.launchReq e.2.2 (s.grpPkt g x tag e.1 .w false (.write (storeBytes ws (e.1 / 512))))) s

/-! ## Completion (R102, R103, R214, R277, R398) -/

/-- A value of a type extended to a lane word (R351). -/
def extendWord (t : Ty) (v : Nat) : W64 :=
  match t.kind with
  | .int => w64 (wrap 64 (sgn t.width v))
  | _ => w64 (v % 2 ^ t.width)

/-- Bytes an access has received. -/
def Pend.bytesAt (p : Pend) (a n : Nat) : List Byte :=
  (List.range n).map fun i => (((Tab.get? p.got ((a + i) / 128)).getD [])[(a + i) % 128]?).getD 0

/-- The lane was refused. -/
def Pend.refusedLane (p : Pend) (l : Nat) : Bool := p.bad.any fun b => b.lane = l

/-- Writes of a load's served lanes: LDW's registers, or one extended element; LDNR writes zero and its bit in the
lanes refused (R103, R351, R353). -/
def Pend.loadWrites (p : Pend) : List RegWr :=
  match p.ldst with
  | none => []
  | some (.v n, t, pd) =>
    let pw (l : Nat) (b : Bool) : List RegWr :=
      match pd with
      | .preg k => [.p k.toNat l (if b then 1 else 0)]
      | _ => []
    let nr := match pd with | .preg _ => true | _ => false
    p.lanes.flatMap fun a =>
      if p.refusedLane a.lane then (if nr then .v n.toNat a.lane 0 :: pw a.lane true else [])
      else if t = .u0 then
        (List.range (a.size / 8)).map fun i =>
          .v (n.toNat + i) a.lane (w64 (natOfBytes (p.bytesAt (a.addr.toNat + 8 * i) 8)))
      else .v n.toNat a.lane (extendWord t (natOfBytes (p.bytesAt a.addr.toNat a.size))) :: pw a.lane false
  | some _ => []

/-- Writes of an atomic's served lanes; number 32 is the group's one access (R354). -/
def Pend.atomWrites (p : Pend) : List RegWr :=
  match p.ldst with
  | some (.v n, t, _) => (p.old.filter fun e => !p.refusedLane e.1).map fun e => .v n.toNat e.1 (extendWord t e.2.toNat)
  | some (.s n, t, _) => (p.old.filter fun e => !p.refusedLane e.1).map fun e => .s n.toNat (extendWord t e.2.toNat)
  | _ => []

/-- An access's writes. -/
def Pend.writes (p : Pend) : List RegWr :=
  match p.kind with
  | .load => p.wr ++ p.loadWrites
  | .atomic => p.wr ++ p.atomWrites
  | _ => p.wr

/-- LDNR reports its refusals in its predicate and does not trap for them (R103). -/
def Pend.isLdnr (p : Pend) : Bool :=
  match p.ldst with
  | some (_, _, .preg _) => true
  | _ => false

/-- TMASK of an access: its refused lanes, or for the group's one access the lanes active at issue (R102, R354). -/
def Pend.tmask (p : Pend) : Mask := if p.refusedLane 32 then p.exm else badMask p.bad

/-- No lane of the access took effect. -/
def Pend.noEffect (p : Pend) : Bool := p.wr.isEmpty && p.lanes.all fun a => p.refusedLane a.lane

/-- The fault of a refused access (R102, R398). -/
def Group.accFault (x : Group) (p : Pend) : Option Trap :=
  if p.bad.isEmpty ∨ p.isLdnr then none
  else match worstLane p.bad with
    | none => none
    | some w =>
      let b := p.slotB && x.bLive
      let re := if p.noEffect ∧ p.taken = 0 ∧ ¬ p.re then none
        else some (p.pc, if p.noEffect then p.exm else p.tmask)
      some { cause := 0x04, subc := w.subc, defer := false, val := w.addr, mask := p.tmask, slotB := b, pc := p.pc,
             ipc := p.pc, re := re, wph := none, seq := p.seq, lvl := p.lvl }

/-- The predictor learns from a load's latency (R214). -/
def State.learn (s : State) (g : Nat) (p : Pend) : State :=
  if p.kind = .load then
    s.modCore (coreOf g) fun c =>
      let k := schedOf g * 64 + fld p.pc 4 6
      let n := Tab.getD c.pred 0 k
      { c with pred := Tab.set c.pred 0 k (if p.issue + 200 < s.aclk then min 3 (n + 1) else n - 1) }
  else s

/-- An acquire's fence: where it invalidates, the group's next instruction waits 4 ACLK (R51, R143). -/
def State.acquire (s : State) (g : Nat) (scope : Nat) : State :=
  match Tab.get? s.groups g with
  | none => s
  | some x =>
    if acqInvalidates scope (s.blk x.blk).pair then
      (s.invNormal (coreOf g)).modGrp g fun x => { x with readyAt := max x.readyAt (s.aclk + 4), why := 11 }
    else s

/-- An access is complete: its results are written, an acquire takes effect, a refusal is reported, and what waited
for it goes on. -/
def State.accDone (s : State) (g : Nat) (p : Pend) : State :=
  match Tab.get? s.groups g with
  | none => s
  | some x =>
    let y := { x with pend := x.pend.filter fun q => q.tag ≠ p.tag }
    let y := if x.dead then y else p.writes.foldl Group.regWr y
    let y := match x.accFault p with
      | some t => if x.dead then y else { y with faults := y.faults ++ [t] }
      | none => y
    let s := (s.setGrp g y).learn g p
    let s := match p.acq with
      | some k => if p.noEffect then s else s.acquire g k.toNat
      | none => s
    let s := s.groups.foldl (fun s e =>
      if coreOf e.1 = coreOf g then s.wake e.1 fun w => w = .acks else s) s
    s.afterResult g

/-- Change an outstanding access and count one answer; the last one completes it. An access may be of a group that has
left the slot. -/
def State.answered (s : State) (g tag : Nat) (f : Pend → Pend) : State :=
  match Tab.get? s.groups g with
  | none => s.ghostAnswer g tag
  | some x =>
    match x.pend.find? fun p => p.tag = tag ∧ p.isAcc with
    | none => s.ghostAnswer g tag
    | some p =>
      let q := f { p with left := p.left - 1 }
      if q.left = 0 then s.accDone g q
      else s.setGrp g { x with pend := x.pend.map fun r => if r.tag = tag then q else r }

/-- The request's lanes: those whose access lies in its line. -/
def Pend.lanesOf (p : Pend) (k : Pkt) : List LaneAcc :=
  match k.req with
  | .atomic a => p.lanes.filter fun b => b.lane = a.lane
  | _ => p.lanes.filter fun a => a.addr.toNat / 512 = k.line / 512 || (a.addr.toNat + a.size - 1) / 512 = k.line / 512

/-- Data returns to a group: the sectors go to the access and, of memory, into the L1 (R49, R51, R110). -/
def State.grpData (s : State) (g tag : Nat) (k : Pkt) (bytes : List Byte) : State :=
  match Tab.get? s.groups g with
  | none => s
  | some x =>
    match x.pend.find? fun p => p.tag = tag with
    | none => s
    | some p =>
      let secs := numbered 0 (sectorsOf (Req.sectors k.req))
      let part (i : Nat) : List Byte := (bytes.drop (128 * i)).take 128
      let s :=
        if k.phys.isSome ∧ p.kind = .load ∧ ¬ p.noInst then
          secs.foldl (fun s e =>
            s.modCore (coreOf g) fun c => c.l1Install k.asid (k.line / 128 + e.2) p.ro (part e.1) s.aclk) s
        else s
      s.answered g tag fun q =>
        { q with got := secs.foldl (fun t e => Tab.put t (k.line / 128 + e.2) (part e.1)) q.got }

/-- An acknowledgement returns to a group, with an atomic's old value. -/
def State.grpAck (s : State) (g tag : Nat) (k : Pkt) (old : W64) : State :=
  s.answered g tag fun p =>
    match k.req with
    | .atomic a => { p with old := Tab.put p.old a.lane old }
    | _ => p

/-- A refusal returns to a group: the request's lanes made no access, and what the L1 took from a refused store
leaves it (R102). -/
def State.grpNack (s : State) (g tag : Nat) (k : Pkt) (sc : BitVec 4) : State :=
  let s := match k.req with
    | .write _ => s.modCore (coreOf g) fun c =>
        (sectorsOf (Req.sectors k.req)).foldl (fun c i => c.l1Drop k.asid (k.line / 128 + i)) c
    | _ => s
  s.answered g tag fun p =>
    let new := (p.lanesOf k).filter fun a => !p.refusedLane a.lane
    { p with bad := p.bad ++ new.map fun a => ⟨a.lane, sc, a.addr⟩ }

/-- LOAD_DATA_RETURN (R350) and STORE_ACK: the part of an access that the core itself serves. -/
def State.ownPart (s : State) (g tag : Nat) : State := s.answered g tag id

end Sys2Proof.Machine
end

