-- ==== Sys2Proof/Machine/Engine.lean ====
section
/-! DEFINITION. Asynchronous operations: the granules an operation moves, how its reads and writes are sent, what an
answer does, and how it completes (R144, R360 to R367, R381, R450). -/

namespace Sys2Proof.Machine

/-! ## Ends of a transfer -/

/-- Where an end stands `n` bytes on. -/
def ELoc.plus (l : ELoc) (n : Nat) : ELoc :=
  match l with
  | .va a => .va (a + w64 n)
  | .sc a => .sc (a + w64 n)
  | .tile t o ty r st => .tile t (o + n) ty r st
  | .rows b o => .rows b (o + n)
  | .remote a => .remote (a + w64 n)

/-- Its address, or zero. -/
def ELoc.addr : ELoc → W64
  | .va a | .sc a | .remote a => a
  | .tile _ _ _ _ _ | .rows _ _ => 0

/-- It lies in virtual memory, here or at a peer. -/
def ELoc.isVa : ELoc → Bool
  | .va _ | .remote _ => true
  | _ => false

/-- Bytes up to which one request reaches: a 512-byte line, or a granule of scratch (R67). -/
def ELoc.unit : ELoc → Nat
  | .va _ => 512
  | .sc _ => 128
  | _ => 2 ^ 20

/-- The requests that cover `n` bytes from an end. -/
def ELoc.parts (l : ELoc) (n : Nat) : List (ELoc × Nat) :=
  let u := l.unit
  let ph := l.addr.toNat % u
  (List.range ((ph + n + u - 1) / u)).map fun i =>
    let off := if i = 0 then 0 else u * i - ph
    (l.plus off, min (if i = 0 then u - ph else u) (n - off))

/-- Offset in its granule at which a transfer begins: granules are cut where the destination's are, in virtual
memory, else where the source's are (R361, R364). -/
def cutPhase (d s : ELoc) : Nat := (if d.isVa ∨ ¬ s.isVa then d.addr.toNat else s.addr.toNat) % 128

/-- Granules of `n` bytes from a phase. -/
def granules (ph n : Nat) : Nat := if n = 0 then 0 else (ph + n + 127) / 128

/-- Offset and length of granule `k`. -/
def granule (ph n k : Nat) : Nat × Nat :=
  let off := if k = 0 then 0 else 128 * k - ph
  (off, min (if k = 0 then 128 - ph else 128) (n - off))

/-! ## The granules of an operation -/

/-- Element width in bits of a type of R243, R249 or R375 in memory (R235). -/
def matWidth : Ty → Nat
  | .e3m2 | .e2m3 => 6
  | .e2m1 | .i4 => 4
  | .f16 | .bf16 => 16
  | _ => 8

/-- The type is an MX element type (R235). -/
def matMx (t : Ty) : Bool := t ≠ .f16 && t ≠ .bf16

/-- Activation type of a profile entry (R249). -/
def pptType (e : W64) : Ty :=
  match fld e 28 4 with
  | 0 => .e4m3 | 1 => .e5m2 | 2 => .e3m2 | 3 => .e2m3 | 4 => .e2m1 | 5 => .i8 | 6 => .i4 | 7 => .f16 | _ => .bf16

/-- Source and scale bytes of an admission (R376); RAW has type code 0. -/
def admitBytes (bt : Ty) (ww8 : Bool) : Nat × Nat :=
  let n := if ww8 then 128 else 256
  if bt = .u0 then (32768, 264) else (n * 32 * matWidth bt, 8 * n)

/-- Bytes of a row segment (R377). -/
def Loop.seg (l : Loop) : Nat := 32 * matWidth (pptType l.ppt)

/-- The loop runs on the exact path (R250). -/
def Loop.exact (l : Loop) : Bool := bit64 l.ppt 0

/-- Exact-path B type and width (R375). -/
def Loop.ebt (l : Loop) : Ty := (Ty.all[fld l.cfg1 59 5]?).getD .u0
def Loop.en (l : Loop) : Nat := 32 * (fld l.cfg1 56 3 + 1)

/-- What the loop reads for row `m` and step `j` (R245, R375, R377, R379): the segment and its scales, and on the
exact path B and its scales from virtual memory. -/
def Loop.reads (l : Loop) (m j : Nat) : List (ELoc × Nat) :=
  let a := l.base.plus (m * l.stride + j * l.kinc)
  let asoff := w64 (fld l.cfg0 32 32) + (if bit64 l.cfg0 63 then w64 (2 ^ 64 - 2 ^ 32) else 0)
  let at' (x : W64) : List (ELoc × Nat) :=
    match a with
    | .va _ => (ELoc.va x).parts 8
    | _ => (ELoc.sc x).parts 8
  let sc := if matMx (pptType l.ppt) then at' (a.addr + asoff) else []
  let bBytes := l.en * 32 * matWidth l.ebt
  let b := if l.exact ∧ bit64 l.cfg2 63 then
      (ELoc.va (keep l.cfg1 (2 ^ 56 - 1) + w64 (j * fld l.cfg0 0 32))).parts bBytes else []
  let bs := if l.exact ∧ matMx l.ebt then
      (ELoc.va (keep l.cfg2 (2 ^ 56 - 1) + w64 (8 * l.en * j))).parts (8 * l.en) else []
  a.parts l.seg ++ sc ++ b ++ bs

/-- How many granules an operation has; for a loop, its rows times its steps. -/
def OpKind.total : OpKind → Nat
  | .move d s n | .peer _ _ _ d s n _ _ _ => granules (cutPhase d s) n
  | .list els => els.length
  | .mppt _ => 1
  | .madmit _ _ _ bt ww8 => let (n, m) := admitBytes bt ww8; n / 128 + (m + 127) / 128
  | .mloop l => l.m * l.ks
  | .agchild _ _ _ _ base n => granules (base.toNat % 128) n
  | .agsum _ _ _ _ _ => 1
  | _ => 0

/-- The reads and the writes of granule `k`. -/
def OpKind.granule (o : OpKind) (k : Nat) : List (ELoc × Nat) × List (ELoc × Nat) :=
  match o with
  | .move d s n | .peer _ _ _ d s n _ _ _ =>
    let (off, len) := Machine.granule (cutPhase d s) n k
    ((s.plus off).parts len, (d.plus off).parts len)
  | .list els =>
    match els[k]? with
    | some (d, s, n) => (s.parts n, d.parts n)
    | none => ([], [])
  | .mppt a => ((ELoc.va a).parts 128, [])
  | .madmit _ src scl bt ww8 =>
    let (n, m) := admitBytes bt ww8
    if k < n / 128 then ((src.plus (128 * k)).parts 128, [])
    else ((scl.plus (128 * (k - n / 128))).parts (min 128 (m - 128 * (k - n / 128))), [])
  | .mloop l => (l.reads (k / max 1 l.ks) (k % max 1 l.ks), [])
  | .agchild _ _ b ld base n =>
    let (off, len) := Machine.granule (base.toNat % 128) n k
    let at' := (ELoc.va (base + w64 off)).parts len
    if ld then (at', []) else ([(.rows b off, len)], at')
  | .agsum _ _ b a _ => ([(.rows b 0, 8)], [(.va a, 8)])
  | _ => ([], [])

/-- Key of part `p` of granule `k`. -/
def partKey (k p : Nat) : Nat := k * 2048 + p

/-- The data of granule `k`, once every part has come. -/
def AOp.data (o : AOp) (k : Nat) : Option (List Byte) :=
  (numbered 0 (o.kind.granule k).1).foldr (fun e acc =>
    match Tab.get? o.got (partKey k e.1), acc with
    | some b, some r => some (b ++ r)
    | _, _ => none) (some [])

/-- Drop the data of granules below `k`. -/
def AOp.dropBelow (o : AOp) (k : Nat) : AOp := { o with got := o.got.filter fun e => k * 2048 ≤ e.1 }

/-! ## Tiles (R33, R381) -/

/-- Physical tile of a tile name of a block on a core. -/
def Block.tileOf (b : Block) (core t : Nat) : Option Nat := Tab.get? (if core = b.core then b.tiles0 else b.tiles1) t

/-- An element of a tile, by its tile name. -/
def State.tileElem (s : State) (b : Block) (core t e : Nat) : Nat :=
  match b.tileOf core t with
  | some p => (Tab.getD s.tiles 0 ((core * 64 + p) * 1024 + e)).toNat
  | none => 0

/-- Write an element of a tile. -/
def State.setTile (s : State) (b : Block) (core t e v : Nat) : State :=
  match b.tileOf core t with
  | some p => { s with tiles := Tab.set s.tiles 0 ((core * 64 + p) * 1024 + e) (.ofNat 32 v) }
  | none => s

/-- An F32 element narrowed to a type, with the mode and saturation of a profile entry (R381). -/
def narrowTo (ty : Ty) (rnd : Rnd) (sat : Bool) (x : Nat) : Nat :=
  if ty = .f32 then x else ((fmtOf ty).deliver rnd sat 0 ((fmtOf .f32).decode x).res).1

/-- Bytes of the images of tiles. -/
def State.tileBytes (s : State) (b : Block) (core t off n : Nat) (ty : Ty) (rnd : Rnd) (sat : Bool) : List Byte :=
  let w := ty.width / 8
  (List.range (n / w)).flatMap fun i =>
    let e := off / w + i
    bytesLE w (narrowTo ty rnd sat (s.tileElem b core (t + e / 1024) (e % 1024)))

/-- Write F32 images into tiles. -/
def State.putTiles (s : State) (b : Block) (core t off : Nat) (data : List Byte) : State :=
  (List.range (data.length / 4)).foldl (fun s i =>
    let e := off / 4 + i
    s.setTile b core (t + e / 1024) (e % 1024) (natOfBytes ((data.drop (4 * i)).take 4))) s

/-! ## Agate rows (R118, R125) -/

/-- Bit `l` of a row. -/
def Bank.bitAt (b : Bank) (r l : Nat) : Bool := Tab.getD b.rows 0 r / 2 ^ l % 2 = 1

/-- Value of a variable in a lane: rows `h` to `h + w - 1`. -/
def Bank.lane (b : Bank) (h w l : Nat) : Nat :=
  (List.range w).foldl (fun a i => a + b2n (b.bitAt (h + i) l) * 2 ^ i) 0

/-- The element an AGST stores for a lane (R125). -/
def agElem (sg : Bool) (w m v : Nat) : Nat := if sg then wrap m (sgn w v) else v % 2 ^ m

/-- Byte `i` of what an AGST stores. -/
def Bank.storeByte (b : Bank) (hd w : Nat) (sg : Bool) (m l0 i : Nat) : Byte :=
  if m = 1 then
    .ofNat 8 ((List.range 8).foldl (fun a k => a + agElem sg w 1 (b.lane hd w (l0 + 8 * i + k)) * 2 ^ k) 0)
  else
    let n := m / 8
    .ofNat 8 (agElem sg w m (b.lane hd w (l0 + i / n)) / 2 ^ (8 * (i % n)))

/-- Bytes of what the command in progress at a bank stores. -/
def State.rowBytes (s : State) (bank off n : Nat) : List Byte :=
  let b := s.bank bank
  match b.queue with
  | e :: _ =>
    match e.cmd with
    | .st hd w sg m _ l0 _ => (List.range n).map fun i => b.storeByte hd w sg m l0 (off + i)
    | _ => List.replicate n 0
  | [] => List.replicate n 0

/-! ## Sending (R67, R71, R450) -/

/-- A request packet of an operation. -/
def AOp.pkt (o : AOp) (k : Nat) (a : W64) (need : Need) (req : Req) : Pkt :=
  { src := .eng o.id k, sdie := o.die, ddie := vaDie a, core := o.core, line := a.toNat / 512 * 512, phys := none,
    held := false, asid := o.asid, cls := o.tc, need := need, peer := false,
    rdc := need = .r && o.core < 256, nr := false, trunc := false, req := req }

/-- A request packet of an operation now: it carries the ASID its context has by then (R93). -/
def State.opPkt (s : State) (o : AOp) (k : Nat) (a : W64) (need : Need) (req : Req) : Pkt :=
  ({ o with asid := s.asidAt o.ctx o.core } : AOp).pkt k a need req

/-- A packet by which an operation's own core answers it: its line is the scratch address. -/
def AOp.ownPkt (o : AOp) (k : Nat) (a : W64) : Pkt :=
  { o.pkt k a .r (.read (.ofNat 4 (2 ^ (a.toNat / 128 % 4)))) with ddie := o.die, rdc := false }

/-- A read of `n` bytes of the block's own arrays answers with their 128-byte granule; an uncorrectable word stops the
engine (R58, R361). -/
def State.ownRead (s : State) (o : AOp) (b : Block) (k : Nat) (a : W64) (n : Nat) : State :=
  match s.scLoc b a, s.scLoc b (w64 (a.toNat / 128 * 128)) with
  | .own j e, .own _ i =>
    let ws := cellSpots (b.arrKey j) e n
    if s.spoiled ws then s.freezeEngine o.id a
    else (s.countUpsets (b.arrCore j) ws).post 24 (.dataRsp (o.ownPkt k a) (s.arrBytes (b.arrKey j) i 128))
  | _, _ => s

/-- Sectors that `n` bytes from an address touch in its 512-byte line. -/
def sectorMask (a n : Nat) : BitVec 4 :=
  (List.range 4).foldl (fun m i =>
    if a / 128 % 4 ≤ i ∧ i ≤ (a % 512 + n - 1) / 128 then m ||| BitVec.ofNat 4 (2 ^ i) else m) 0

/-- Rank that a scratch end names, if another block's or pooled. -/
def State.poolOf (s : State) (b : Block) (l : ELoc) : Option (Nat × Nat) :=
  match l with
  | .sc a => match s.scLoc b a with | .pool r o => some (r, o) | _ => none
  | _ => none

/-- Every rank that some parts name is ready (R409). -/
def State.partsReady (s : State) (b : Block) (ps : List (ELoc × Nat)) : Bool :=
  ps.all fun e => match s.poolOf b e.1 with | some (r, _) => s.rankReady b r | none => true

/-- Store data for a part of an operation. -/
def AOp.keep (o : AOp) (k : Nat) (d : List Byte) : AOp := { o with got := Tab.put o.got k d }

/-- The port through which a die's COPYP leaves. -/
def AOp.peerPort (o : AOp) : Nat := (Config.peerPort o.id).toNat

/-- A request goes out on the scale-up fabric; through a frozen port it is refused with ABSENT (R404, R439). -/
def State.sendPeer (s : State) (o : AOp) (k dev : Nat) (q : PeerReq) : State :=
  if (s.die o.die).portFrozen.toNat / 2 ^ o.peerPort % 2 = 1 ∨
      (Tab.getD s.links Link.reset (4 + 4 * o.die + o.peerPort)).down then
    s.post 32 (.nack (o.ownPkt k q.addr) 3)
  else { s with peerOut := s.peerOut ++ [⟨o.id, k, dev, q⟩] }

/-- A peer request of an operation. -/
def peerReq (s : State) (o : AOp) (rscr : Bool) (a : W64) (wr : Option (List Byte)) (n : Nat)
    (sg : Option (W64 × Bool × W64)) : PeerReq :=
  ⟨o.die, o.peerPort, (s.die o.die).pdev.toNat, o.tc, rscr, a, wr, n, sg⟩

/-- What R18 finds of a part a loop reads: the exact path's B and its scales are checked only when they are read
(R375). -/
def State.partCheck (s : State) (o : AOp) (a : W64) : VaSt :=
  match o.kind with
  | .mloop _ => vaCheck s (s.ctx o.ctx) o.die a
  | _ => .ok

/-- Send the read of one part. -/
def State.sendRead (s : State) (id k : Nat) (e : ELoc × Nat) : State :=
  match Tab.get? s.ops id with
  | none => s
  | some o =>
    let b := s.blk o.blk
    match e.1 with
    | .va a =>
      let p := s.opPkt o k a .r (.read (sectorMask a.toNat e.2))
      match s.partCheck o a with
      | .ok => s.launchReq 0 p
      | .frozen => s.freeze o.g 1
      | .unmapped => s.post 1 (.nack p (.ofNat 4 scUnmapped))
      | .absent => s.post 1 (.nack p (.ofNat 4 scAbsent))
    | .sc a =>
      match s.scLoc b a with
      | .pool r off =>
        s.sendPool o.core 0
          { src := .eng id k, gang := b.gang, rank := r, off := off / 128 * 128, bytes := [], va := a.toNat / 128 * 128,
            cls := o.tc } false
      | _ => s.ownRead o b k a e.2
    | .tile t off ty rnd sat => s.modOp id fun o => o.keep k (s.tileBytes b o.core t off e.2 ty rnd sat)
    | .rows bank off =>
      match o.kind with
      | .agsum _ _ _ _ x => s.modOp id fun o => o.keep k (bytesLE 8 x.toNat)
      | _ => s.modOp id fun o => o.keep k (s.rowBytes bank off e.2)
    | .remote a =>
      match o.kind with
      | .peer _ _ rscr _ _ _ dev _ _ => s.sendPeer o k dev (peerReq s o rscr a none e.2 none)
      | _ => s

/-- Write one granule into scratch, from address `a` on: its parts are answered each on its own, and its bytes land or
are dropped as one write, with the last part (R60, R61). -/
def State.sendScratch (s : State) (o : AOp) (k : Nat) (a : W64) (ps : List (ELoc × Nat)) (data : List Byte) : State :=
  let b := s.blk o.blk
  let s' := s.modOp o.id fun o => { o with left := o.left + ps.length }
  match s.scLoc b a with
  | .pool r off =>
    (numbered 0 ps).foldl (fun s e =>
      let p := e.2.1.addr.toNat / 128
      s.sendPool o.core 0
        { src := .eng o.id (partKey k e.1), gang := b.gang, rank := r, off := (off / 128 + (p - a.toNat / 128)) * 128,
          bytes := if e.1 + 1 = ps.length then numbered off data else [], full := e.2.2 = 128,
          va := p * 128, cls := o.tc } true) s'
  | .own _ _ =>
    let ws := (numbered 0 data).filterMap fun w =>
      match s.scLoc b (a + w64 w.1) with
      | .own j i => some (j, i, w.2)
      | _ => none
    (numbered 0 ps).foldl (fun s e => s.post 24 (.ack (o.ownPkt (partKey k e.1) e.2.1.addr) 0)) (s'.arrWrite o.blk ws)
  | .bad => s

/-- Send the write of one part that is not scratch; `left` counts its answer. -/
def State.sendWrite (s : State) (id k : Nat) (e : ELoc × Nat) (data : List Byte) : State :=
  match Tab.get? s.ops id with
  | none => s
  | some o =>
    let b := s.blk o.blk
    let s' := s.modOp id fun o => { o with left := o.left + 1 }
    match e.1 with
    | .va a =>
      (s'.modOp id fun o => { o with wpage := some (a.toNat / 2 ^ 16) }).launchReq 0
        (s.opPkt o k a .w (.write (numbered (a.toNat % 512) data)))
    | .sc _ => s
    | .tile t off _ _ _ => s.putTiles b o.core t off data
    | .rows _ _ => s
    | .remote a =>
      match o.kind with
      | .peer _ _ rscr _ _ _ dev _ _ => s'.sendPeer o k dev (peerReq s o rscr a (some data) data.length none)
      | _ => s

/-! ## The engines (R360, R364, R450) -/

/-- Which engine serves an operation: its block's copy agent or scale-up agent, its core's sequencer, or its bank. -/
def AOp.agent (o : AOp) : Nat :=
  match o.kind with
  | .agchild _ _ b _ _ _ | .agsum _ _ b _ _ => 8 * b + 7
  | _ => match o.cls with | 0 => 8 * o.blk | 3 => 8 * o.blk + 3 | _ => 8 * o.core + 1

/-- The operation may take its next step: its engine is not stopped (R402, R404). -/
def State.opRuns (s : State) (o : AOp) : Bool :=
  o.started && !o.fin && !o.susp && (s.ctx o.ctx).ending.isNone && ((o.cls ≠ 0 && o.cls ≠ 3) || !(s.blk o.blk).frozen)

/-- The loop runs on the core's digital path, one step after another (R250, R251). -/
def Loop.digital (l : Loop) : Bool := l.exact || l.exactv

/-- ACLK of a step: on the digital path at its rate (R250, R251, R379), else one slice on the converters (R247). -/
def Loop.stepTime (l : Loop) : Nat :=
  if l.exact then
    let rate := if ¬ matMx l.ebt then 1024 else if matWidth l.ebt = 4 ∧ matWidth (pptType l.ppt) = 4 then 4096 else 2048
    (256 * l.en + rate - 1) / rate
  else if l.exactv then
    let n := if bit64 l.ppt 17 then 128 else 256
    let rate := if bit64 l.ppt 16 ∨ bit64 l.ppt 17 then 2048 else 4096
    (256 * n + rate - 1) / rate
  else match fld l.ppt 2 3 with | 0 => 16 | 1 => 28 | 2 => 52 | 3 => 100 | _ => 196

/-- ACLK of a row: its steps on the digital path, or its slices, the arrays converting in parallel (R247, R255). -/
def Loop.rowTime (l : Loop) : Nat :=
  l.stepTime * if l.digital then l.ks else if bit64 l.ppt 16 then 2 else 1

/-- What a loop does next goes slice by slice: one array of 8-bit activations on the converters. -/
def Loop.bySlice (l : Loop) : Bool := !l.digital && bit64 l.ppt 16 && l.step + 1 = l.ks

/-- Steps a loop runs together before its next step boundary (R255, R258, R259): one on the digital path; on the
converters the rest of the row, whose arrays convert in parallel. -/
def Loop.unit (l : Loop) : Nat := if l.digital then 1 else l.ks - l.step

/-- ACLK to the next step boundary. -/
def Loop.unitTime (l : Loop) : Nat := l.stepTime * if !l.digital && bit64 l.ppt 16 && !l.bySlice then 2 else 1

/-- Whether an operation may ask for its next granule now. A loop asks for a whole row at a time, each one row time
after the row before and none while a late row holds it up, so that an unloaded row is there when its steps are due:
the totals of R257 and R386. DEDUCED (assumption 22). -/
def AOp.asks (o : AOp) (now : Nat) : Bool :=
  match o.kind with
  | .mloop l => o.rpos ≤ l.row * l.ks + l.step || (l.ask ≤ now && (l.busy || !l.ran))
  | _ => true

/-- Transposition moves one granule each FCLK (R126), the others one each ACLK. -/
def AOp.turn (o : AOp) (now : Nat) : Bool :=
  match o.kind with
  | .agchild _ _ _ _ _ _ => now % 2 = 0
  | _ => true

/-- An operation can send its next read. -/
def State.canRead (s : State) (o : AOp) : Bool :=
  s.opRuns o && o.turn s.aclk && o.rpos < o.lim && o.asks s.aclk && s.partsReady (s.blk o.blk) (o.kind.granule o.rpos).1

/-- The parts of a write wait for nothing: a write to a later page goes when every earlier one is answered (R450). -/
def AOp.pageOk (o : AOp) (ps : List (ELoc × Nat)) : Bool :=
  ps.all fun e => match e.1 with
    | .va a => o.left = 0 || o.wpage = some (a.toNat / 2 ^ 16)
    | _ => true

/-- An operation can send its next write. -/
def State.canWrite (s : State) (o : AOp) : Bool :=
  let ws := (o.kind.granule o.wpos).2
  s.opRuns o && o.turn s.aclk && o.wpos < min o.rpos o.lim && !ws.isEmpty && (o.data o.wpos).isSome && o.pageOk ws &&
  s.partsReady (s.blk o.blk) ws

/-- How many granules go at once: a loop's whole row, otherwise one. -/
def AOp.burst (o : AOp) : Nat :=
  match o.kind with
  | .mloop l => min (l.ks - o.rpos % max 1 l.ks) (o.lim - o.rpos)
  | _ => 1

/-- The granules an operation asks for have been asked for; a loop's next row is due one row time on. -/
def AOp.asked (o : AOp) (now : Nat) : AOp :=
  let kind := match o.kind with | .mloop l => OpKind.mloop { l with ask := now + l.rowTime } | k => k
  { o with rpos := o.rpos + o.burst, kind := kind }

/-- Ask for the next granules of an operation. -/
def State.readNext (s : State) (o : AOp) : State :=
  (List.range o.burst).foldl (fun s i =>
    (numbered 0 (o.kind.granule (o.rpos + i)).1).foldl (fun s e => s.sendRead o.id (partKey (o.rpos + i) e.1) e.2) s)
    (s.modOp o.id fun q => q.asked s.aclk)

/-- Write the next granule of an operation. -/
def State.writeNext (s : State) (o : AOp) : State :=
  let d := (o.data o.wpos).getD []
  let s := s.modOp o.id fun q => { q.dropBelow (q.wpos + 1) with wpos := q.wpos + 1 }
  let ps := (o.kind.granule o.wpos).2
  match ps.head? with
  | some (.sc a, _) => s.sendScratch o o.wpos a ps d
  | _ =>
    let r := (numbered 0 ps).foldl (fun (acc : State × List Byte) e =>
      (acc.1.sendWrite o.id (partKey o.wpos e.1) e.2 (acc.2.take e.2.2), acc.2.drop e.2.2)) (s, d)
    r.1

/-- The first operation of each engine that a test admits, by issue. -/
def State.heads (s : State) (p : AOp → Bool) : List AOp :=
  (s.ops.foldl (fun (acc : List AOp × List Nat) e =>
    if !acc.2.contains e.2.agent && p e.2 then (acc.1 ++ [e.2], e.2.agent :: acc.2) else acc) ([], [])).1

/-- Every write of a transfer is sent and answered. -/
def AOp.moved (o : AOp) : Bool :=
  match o.kind with
  | .move _ _ _ | .list _ | .agsum _ _ _ _ _ => o.lim ≤ o.wpos && o.left = 0
  | .peer _ _ _ _ _ _ _ _ _ => o.lim ≤ o.wpos && o.left = 0
  | .agchild _ _ _ ld _ _ => if ld then false else o.lim ≤ o.wpos && o.left = 0
  | _ => false

/-- Every read of an operation that only reads has come, or been refused. -/
def AOp.readAll (o : AOp) : Bool := (List.range o.lim).all fun k => (o.data k).isSome

/-- Complete an operation `dt` ACLK from now. -/
def State.finish (s : State) (id dt : Nat) : State :=
  (s.modOp id fun o => { o with fin := true }).post dt (.asyncOpComplete id)

/-- The SIG that follows a peer transfer (R85, R366): behind the data, to the side that received it. -/
def partSig : Nat := 2 ^ 60

/-- After the last granule of a peer transfer its signal is sent; then it completes (R366). -/
def State.peerNext (s : State) (o : AOp) : State :=
  match o.kind with
  | .peer put st _ _ _ _ dev sg v =>
    if sg = 0 ∨ o.wpage = some partSig ∨ o.dfr.isSome then s.finish o.id 0
    else
      let s := s.modOp o.id fun q => { q with wpage := some partSig, left := q.left + 1 }
      if put then s.sendPeer o partSig dev (peerReq s o false sg none 0 (some (sg, st, v)))
      else
        s.launchReq 0 (s.opPkt o partSig sg .rw
          (.atomic ⟨false, .n64, if st then 6 else 0, false, 0, sg, v, 0⟩))
  | _ => s

/-- What a transfer does once its writes are all answered. -/
def State.checkMoved (s : State) (id : Nat) : State :=
  match Tab.get? s.ops id with
  | none => s
  | some o =>
    if o.fin ∨ ¬ o.started ∨ ¬ o.moved ∨ ¬ s.opRuns o then s
    else if o.cls = 3 then s.peerNext o
    else s.finish id 1

/-! ## Refusals (R127, R252, R361, R383) -/

/-- The refused address of a request: its granule's first byte in the line. -/
def refusedAddr (o : AOp) (k : Pkt) (part : Nat) : W64 :=
  let g := part / 2048
  let ps := (o.kind.granule g).1 ++ (o.kind.granule g).2
  match ps.find? fun e => e.1.addr.toNat / 512 = k.line / 512 with
  | some e => e.1.addr
  | none => w64 k.line

/-- The report of a refusal. -/
def refusalOf (sc : BitVec 4) (a : W64) : Deferred := ⟨0x04, sc, a, none⟩

/-- A request of an operation was refused: it stops before the granule, unless an earlier one has stopped it
already. -/
def State.engNack (s : State) (id part : Nat) (k : Pkt) (sc : BitVec 4) : State :=
  match Tab.get? s.ops id with
  | none => s
  | some o =>
    let rd := match k.req with | .read _ => true | _ => false
    let o' := if rd then o else { o with left := o.left - 1 }
    let g := part / 2048
    let o' := if part = partSig then { o' with dfr := some (o.dfr.getD (refusalOf sc (w64 k.line))) }
      else if g < o.lim then { o' with lim := g, dfr := some (refusalOf sc (refusedAddr o k part)) }
      else o'
    ({ s with ops := Tab.put s.ops id o' } : State).checkMoved id

end Sys2Proof.Machine
end

