-- ==== Sys2Proof/Machine/Memory.lean ====
section
/-! DEFINITION. The memory range (R347 to R359): loads, stores, scratch accesses, atomics, fences, cache
maintenance and prefetches. -/

namespace Sys2Proof.Machine

/-- The accesses of the active lanes (R349). -/
def laneAccs (x : Group) (c : Cur) (a : MemArgs) (size : Nat) : List LaneAcc :=
  (Mask.lanes (x.actives c.slotB a.hd)).map fun l => ⟨l, effAddr x a l, size⟩

/-- Bytes of an access by type (R351). -/
def memSize (a : MemArgs) : Nat := a.ty.width / 8

/-! ## Loads (R351, R353) -/

/-- Issue a load whose lanes passed the core's checks; `bad` are lanes LDNR has already refused. A line that an earlier
load of the group still waits for is read again behind it (R138). -/
def State.issueLoad (s : State) (c : Cur) (x : Group) (a : MemArgs) (dsts : List Dst) (ldst : Opnd × Ty × Opnd)
    (as : List LaneAcc) (bad : List BadLane) : State :=
  let asid := s.asidAt x.ctx (coreOf c.g)
  let s := s.l1Scrub (coreOf c.g) asid (accLines as)
  let core := s.core (coreOf c.g)
  let lines := numbered 0 (accLines as)
  let near := s.before c x
  let hit (l : Nat) : Option L1Line := if touchesLine (near.filter fun p => p.kind = .load) l then none else core.l1Find asid l a.e.ro
  let hits := lines.filter fun e => (hit e.2).isSome
  let miss := lines.filter fun e => (hit e.2).isNone
  let hot : List LaneAcc := as.filter fun b => b.lines.any fun l => (hit l).isSome
  if s.foreignBytes c.g asid hot then s.block c x .acks (memLen a)
  else
    let own := ¬ hits.isEmpty ∨ miss.isEmpty
    let left := (gather miss).length + (if own then 1 else 0)
    let p := { x.newPend c.slotB .load (memLen a) (some a.hd.la.toNat) s.aclk dsts with
      lanes := as ++ bad.map (fun b => ⟨b.lane, b.addr, memSize a⟩)
      bad := bad
      ldst := some ldst
      left := left
      missed := !miss.isEmpty
      ro := a.e.ro
      acq := if memAcq a then some a.e.scope else none
      got := hits.foldl (fun t e => match hit e.2 with | some l => Tab.put t e.2 l.data | none => t) [] }
    let s := s.modCore (coreOf c.g) fun k =>
      hits.foldl (fun k e => match hit e.2 with | some l => k.l1Used l s.aclk | none => k) k
    let s := s.retire c (x.addPend p) (memLen a)
    let last := hits.foldl (fun n e => max n e.1) 0
    let s := if own then s.post (32 + last) (.loadDataReturn c.g p.tag) else s
    ((s.sendReads c.g x p.tag near miss).countEvent c.g 0x30 lines.length).countEvent c.g 0x31 miss.length

/-- A vector load: the core's checks, then its issue (R102, R351). -/
def vectorLoad (a : MemArgs) (s : State) (size align : Nat) (dsts : Opnd → List Dst) : Out :=
  withCur s fun c x =>
    let as := laneAccs x c a size
    let k := s.ctx x.ctx
    if accFreezes s k (dieOf c.g) align as then s.freeze c.g 1
    else
      let bad := accBad s k (dieOf c.g) align as
      if ¬ bad.isEmpty then s.trapLanes c bad
      else if as.isEmpty then s.retire c x (memLen a)
      else s.ordered c x a false (s.issueLoad c x a (dsts a.dst) (a.dst, a.ty, .none) as [])

/-- LD (R351). -/
def execLd (a : MemArgs) (s : State) : Out := vectorLoad a s (memSize a) (memSize a) dstsOf

/-- LDW.Kk (R353): each lane's part is one access of 8k bytes at its own place from a group-uniform base. -/
def execLdw (a : MemArgs) (s : State) : Out :=
  let k := 2 ^ a.sub.toNat
  withCur s fun c x =>
    let as := (Mask.lanes (x.actives c.slotB a.hd)).map fun l =>
      (⟨l, effAddr x a l + w64 (8 * k * l), 8 * k⟩ : LaneAcc)
    let ctx := s.ctx x.ctx
    if accFreezes s ctx (dieOf c.g) 8 as then s.freeze c.g 1
    else
      let bad := accBad s ctx (dieOf c.g) 8 as
      let dsts := match a.dst with | .v n => (List.range k).map fun i => Dst.v (n.toNat + i) | _ => []
      if ¬ bad.isEmpty then s.trapLanes c bad
      else if as.isEmpty then s.retire c x (memLen a)
      else s.ordered c x a false (s.issueLoad c x a dsts (a.dst, .u0, .none) as [])

/-- LDNR (R103, R351): lanes of an absent die read as zero; ALIGN and bits [63:56] trap. -/
def execLdnr (a : MemArgs) (s : State) : Out :=
  withCur s fun c x =>
    let as := laneAccs x c a (memSize a)
    let k := s.ctx x.ctx
    if accFreezes s k (dieOf c.g) (memSize a) as then s.freeze c.g 1
    else
      let bad := accBad s k (dieOf c.g) (memSize a) as
      let hard := bad.filter fun b => b.subc ≠ .ofNat 4 scAbsent
      if ¬ hard.isEmpty then s.trapLanes c hard
      else if as.isEmpty then s.retire c x (memLen a)
      else
        let good := as.filter fun b => !(bad.any fun e => e.lane = b.lane)
        s.ordered c x a false (s.issueLoad c x a (dstsOf a.dst ++ dstsOf a.sc) (a.dst, a.ty, a.sc) good bad)

/-! ## Stores (R352) -/

/-- The bytes of a store by ascending lane. -/
def storeData (x : Group) (a : MemArgs) (as : List LaneAcc) : List (Nat × Byte) :=
  as.flatMap fun e => numbered e.addr.toNat (bytesLE e.size (memData x a.ty a.sb e.lane))

/-- ST (R352). -/
def execSt (a : MemArgs) (s : State) : Out :=
  withCur s fun c x =>
    let as := laneAccs x c a (memSize a)
    let k := s.ctx x.ctx
    if accFreezes s k (dieOf c.g) (memSize a) as then s.freeze c.g 1
    else
      let bad := accBad s k (dieOf c.g) (memSize a) as
      if ¬ bad.isEmpty then s.trapLanes c bad
      else if as.isEmpty then s.retire c x (memLen a)
      else s.ordered c x a false <|
        let lines := accLines as
        let asid := s.asidAt x.ctx (coreOf c.g)
        let p := { x.newPend c.slotB .store (memLen a) none s.aclk [] with
          lanes := as
          left := (gather (numbered 0 lines)).length
          bars := s.refuses c.g asid as .w }
        let s := (s.markLines (coreOf c.g) asid lines)
        let x := match Tab.get? s.groups c.g with | some x => x | none => x
        let s := (s.retire c (x.addPend p) (memLen a)).countEvent c.g 0x32 1
        s.sendWrites c.g x p.tag p.bars lines (storeData x a as)

/-! ## Scratch accesses (R57 to R61, R349 to R352, R409) -/

/-- The lanes of a scratch access that fail: ALIGN, then UNMAPPED (R31). -/
def scBad (s : State) (b : Block) (as : List LaneAcc) : List BadLane :=
  as.filterMap fun a =>
    if a.addr.toNat % a.size ≠ 0 then some ⟨a.lane, .ofNat 4 scAlign, a.addr⟩
    else if s.scLoc b a.addr = .bad then some ⟨a.lane, .ofNat 4 scUnmapped, a.addr⟩
    else none

/-- A pooled lane names a rank that is not ready (R409). -/
def scNotReady (s : State) (b : Block) (as : List LaneAcc) : Bool :=
  as.any fun a => match s.scLoc b a.addr with | .pool r _ => !s.rankReady b r | _ => false

/-- Pooled lanes. -/
def scPooled (s : State) (b : Block) (as : List LaneAcc) : List LaneAcc :=
  as.filter fun a => match s.scLoc b a.addr with | .pool _ _ => true | _ => false

/-- ACLK beyond the first an access takes at the block's arrays (R57): distinct granules of the busiest array. -/
def scExtra (s : State) (b : Block) (as : List LaneAcc) : Nat :=
  let gs := uniq (as.filterMap fun a => match s.scLoc b a.addr with | .own j i => some (j * 1024 + i / 128) | _ => none)
  let per := (uniq (gs.map fun g => g / 1024)).map fun j => (gs.filter fun g => g / 1024 = j).length
  per.foldl max 0 - 1

/-- The pooled granules of some lanes: scratch address of the granule, rank and its offset. -/
def scGranules (s : State) (b : Block) (as : List LaneAcc) : List (Nat × Nat × Nat) :=
  (uniq (as.map fun a => a.addr.toNat / 128)).filterMap fun g =>
    match s.scLoc b (w64 (g * 128)) with
    | .pool r o => some (g * 128, r, o)
    | _ => none

/-- Checks and waits common to LDS and STS. -/
def scratchForm (a : MemArgs) (s : State) (f : Cur → Group → Block → List LaneAcc → State) : Out :=
  withCur s fun c x =>
    let as := laneAccs x c a (memSize a)
    let b := s.blk x.blk
    let bad := scBad s b as
    if ¬ bad.isEmpty then s.trapLanes c bad
    else if as.isEmpty then s.retire c x (memLen a)
    else if scNotReady s b as then s.block c x .rank (memLen a)
    else s.ordered c x a false (f c x b as)

/-- LDS (R57, R58, R351): the block's own arrays are read at issue, and answer after 24 ACLK. -/
def execLds (a : MemArgs) (s : State) : Out :=
  scratchForm a s fun c x b as =>
    let pool := scPooled s b as
    let grs := scGranules s b pool
    let own := as.filter fun e => !(pool.any fun p => p.lane = e.lane)
    let ws := own.flatMap fun e => match s.scLoc b e.addr with | .own j i => cellSpots (b.arrKey j) i e.size | _ => []
    s.checkRead c.g ws fun s =>
    let wr := match a.dst with
      | .v n => own.filterMap fun e =>
          match s.scLoc b e.addr with
          | .own j i => some (RegWr.v n.toNat e.lane (extendWord a.ty (natOfBytes (s.arrBytes (b.arrKey j) i e.size))))
          | _ => none
      | _ => []
    let p := { x.newPend c.slotB .load (memLen a) (some a.hd.la.toNat) s.aclk (dstsOf a.dst) with
      lanes := pool
      wr := wr
      ldst := some (a.dst, a.ty, .none)
      left := grs.length + (if own.isEmpty then 0 else 1)
      acq := if memAcq a then some a.e.scope else none }
    let s := s.retire c (x.addPend p) (memLen a)
    let s := if own.isEmpty then s else s.post (24 + scExtra s b own) (.loadDataReturn c.g p.tag)
    (numbered 0 grs).foldl (fun s e =>
      s.sendPool (coreOf c.g) e.1
        { src := .grp c.g p.tag, gang := b.gang, rank := e.2.2.1, off := e.2.2.2, bytes := [], va := e.2.1,
          cls := b.cls } false) s

/-- Lanes of an STS that target arrays of the block that take no stores (R61). -/
def scDropped (s : State) (b : Block) (as : List LaneAcc) : List LaneAcc :=
  as.filter fun a =>
    match s.scLoc b a.addr with
    | .own j _ => !(s.arr (b.arrKey j)).writable
    | .pool r o => r = b.rank && !(s.arr (b.arrKey (interleaved b.narr o).1)).writable
    | .bad => false

/-- Send a store's pooled granules, `data` giving a lane's bytes: at each rank the store's bytes land or are dropped as
one write, with the last of its granules there (R60, R61). -/
def State.sendSts (s : State) (c : Cur) (b : Block) (tag : Nat) (pool : List LaneAcc) (data : LaneAcc → List Byte) : State :=
  let grs := scGranules s b pool
  (numbered 0 grs).foldl (fun s e =>
    let gr := e.2.1 / 128
    let rank := e.2.2.1
    let ofRank (l : LaneAcc) : List (Nat × Byte) :=
      match s.scLoc b l.addr with
      | .pool r o => if r = rank then numbered o (data l) else []
      | _ => []
    let last := !((grs.drop (e.1 + 1)).any fun h => h.2.1 = rank)
    let mine := uniq (pool.flatMap fun l =>
      if l.addr.toNat / 128 = gr then (List.range l.size).map fun i => l.addr.toNat % 128 + i else [])
    s.sendPool (coreOf c.g) e.1
      { src := .grp c.g tag, gang := b.gang, rank := rank, off := e.2.2.2, full := mine.length = 128,
        bytes := if last then pool.flatMap ofRank else [], va := e.2.1, cls := b.cls } true) s

/-- STS (R57, R61, R352): stores to the block's own arrays are performed at issue. -/
def execSts (a : MemArgs) (s : State) : Out :=
  scratchForm a s fun c x b as =>
    let drop := scDropped s b as
    match drop with
    | d :: _ =>
      if bit64 b.spstat 9 then s.trapMask c 0x0C 0 d.addr (Mask.of fun l => drop.any fun e => e.lane = l)
      else go c x b as
    | [] => go c x b as
where
  go (c : Cur) (x : Group) (b : Block) (as : List LaneAcc) : State :=
    let pool := scPooled s b as
    let grs := scGranules s b pool
    let own := as.filter fun e => !(pool.any fun p => p.lane = e.lane)
    let data (e : LaneAcc) : List Byte := bytesLE e.size (memData x a.ty a.sb e.lane)
    let ws := own.flatMap fun e =>
      match s.scLoc b e.addr with
      | .own j i => (numbered i (data e)).map fun w => (j, w.1, w.2)
      | _ => []
    let p := { x.newPend c.slotB .store (memLen a) none s.aclk [] with
      lanes := pool
      left := grs.length + (if own.isEmpty then 0 else 1) }
    let s := ((s.arrWrite x.blk ws).retire c (x.addPend p) (memLen a)).countEvent c.g 0x32 1
    let s := if own.isEmpty then s else s.post (24 + scExtra s b own) (.storeAck c.g p.tag)
    s.sendSts c b p.tag pool data

/-! ## Atomics (R354, R355) -/

/-- One lane's atomic request. -/
def atomReq (x : Group) (a : MemArgs) (aop : BitVec 4) (cas ret : Bool) (lane : Nat) (addr : W64) : AtReq :=
  { ret := ret, ty := a.ty, aop := aop, cas := cas, lane := lane, addr := addr,
    b := w64 (memData x a.ty a.sb (lane % 32)),
    c := if cas then w64 (memData x a.ty a.sc (lane % 32)) else 0 }

/-- Send atomics: the L1 loses their lines, and each goes to its home (R50, R79). -/
def State.sendAtomics (s : State) (g : Nat) (x : Group) (tag : Nat) (need : Need) (rs : List AtReq) : State :=
  let asid := s.asidAt x.ctx (coreOf g)
  let s := (s.l1Scrub (coreOf g) asid (rs.map fun r => r.addr.toNat / 128)).modCore (coreOf g) fun c =>
    rs.foldl (fun c r => c.l1Drop asid (r.addr.toNat / 128)) c
  rs.foldl (fun s r =>
    s.launchReq 0 (s.grpPkt g x tag (r.addr.toNat / 512 * 512) need false (.atomic r))) s

/-- Issue atomics for some accesses, lane 32 being the group's one access; with `sw` a switch point (R197). -/
def State.issueAtomics (s : State) (c : Cur) (x : Group) (a : MemArgs) (aop : BitVec 4) (cas ret sw : Bool) (need : Need)
    (as : List LaneAcc) (exm : Mask) : State :=
  let asid := s.asidAt x.ctx (coreOf c.g)
  let s := s.markLines (coreOf c.g) asid (accLines as)
  let x := match Tab.get? s.groups c.g with | some x => x | none => x
  let p := { x.newPend c.slotB (if ret then .atomic else .atomicNr) (memLen a)
               (if ret then some a.hd.la.toNat else none) s.aclk (if ret then dstsOf a.dst else []) with
    lanes := as
    ldst := some (a.dst, a.ty, .none)
    left := as.length
    exm := exm
    acq := if memAcq a then some a.e.scope else none
    bars := !ret && s.refuses c.g asid as need }
  let y := x.addPend p
  let s := (s.retire c (if sw then y.switchPoint else y) (memLen a)).countEvent c.g 0x33 1
  s.sendAtomics c.g x p.tag need (as.map fun e => atomReq x a aop cas ret e.lane e.addr)

/-- A lane-wise atomic. -/
def vectorAtomic (a : MemArgs) (s : State) (cas ret : Bool) : Out :=
  withCur s fun c x =>
    let as := laneAccs x c a (memSize a)
    let k := s.ctx x.ctx
    if accFreezes s k (dieOf c.g) (memSize a) as then s.freeze c.g 1
    else
      let bad := accBad s k (dieOf c.g) (memSize a) as
      if ¬ bad.isEmpty then s.trapLanes c bad
      else if as.isEmpty then s.retire c x (memLen a)
      else s.ordered c x a ret (s.issueAtomics c x a a.e.aop cas ret true (if ret then .rw else .w) as (x.slot c.slotB).lanes)

/-- The group's one atomic (R354, R355): with no active lane it does nothing. -/
def groupAtomic (a : MemArgs) (s : State) (cas : Bool) : Out :=
  withCur s fun c x =>
    let m := x.actives c.slotB a.hd
    let as : List LaneAcc := [⟨32, effAddr x a 0, memSize a⟩]
    let k := s.ctx x.ctx
    if m = 0 then s.retire c x (memLen a)
    else if accFreezes s k (dieOf c.g) (memSize a) as then s.freeze c.g 1
    else match accBad s k (dieOf c.g) (memSize a) as with
      | b :: _ => s.trapMask c 0x04 b.subc.toNat b.addr m
      | [] => s.ordered c x a true (s.issueAtomics c x a a.e.aop cas true true .rw as m)

/-- ATOM (R354). -/
def execAtom (a : MemArgs) (s : State) : Out := vectorAtomic a s false true
/-- ATOMR (R354). -/
def execAtomr (a : MemArgs) (s : State) : Out := vectorAtomic a s false false
/-- CAS (R355). -/
def execCas (a : MemArgs) (s : State) : Out := vectorAtomic a s true true
/-- ATOMS (R354). -/
def execAtoms (a : MemArgs) (s : State) : Out := groupAtomic a s false
/-- CASS (R355). -/
def execCass (a : MemArgs) (s : State) : Out := groupAtomic a s true

/-! ## Fences and cache maintenance (R356 to R358) -/

/-- An outstanding access is of a kind that a predecessor set holds: R and W (R134, R141). -/
def Pend.inPred (p : Pend) (pset : BitVec 8) : Bool :=
  let r := pset.toNat % 2 = 1
  let w := pset.toNat / 2 % 2 = 1
  match p.kind with
  | .load | .sigread => r
  | .store | .atomicNr => w
  | .atomic => r || w
  | .alu | .exch | .warr => false

/-- FENCE (R141, R356). -/
def execFence (a : MemArgs) (s : State) : Out :=
  uniform a.hd (memLen a) s fun c x =>
    let e := a.e
    let l := s.before c x
    let waits := 1 ≤ e.scope.toNat && e.sset ≠ 0 && l.any fun p => p.inPred e.pset
    if waits ∨ orderWait l false 0 then s.block c x .acks (memLen a)
    else
      let s := s.retire c x (memLen a)
      if e.sset.toNat % 2 = 1 then s.acquire c.g e.scope.toNat else s

/-- CFLUSH (R357): a W access that needs R = 1, one request for each 512-byte line. -/
def cflushForm (a : MemArgs) (s : State) (inv : Bool) : Out :=
  withCur s fun c x =>
    let as := laneAccs x c a 1
    let k := s.ctx x.ctx
    if accFreezes s k (dieOf c.g) 1 as then s.freeze c.g 1
    else
      let bad := accBad s k (dieOf c.g) 1 as
      let lines := accLines as
      let qs := uniq (lines.map fun l => l / 4)
      if ¬ bad.isEmpty then s.trapLanes c bad
      else if as.isEmpty then s.retire c x (memLen a)
      else s.ordered c x a false <|
        let asid := s.asidAt x.ctx (coreOf c.g)
        let p := { x.newPend c.slotB .store (memLen a) none s.aclk [] with
          lanes := as, left := qs.length, bars := s.refuses c.g asid as .r }
        let s := s.modCore (coreOf c.g) fun core => lines.foldl (fun core l => core.l1Drop asid l) core
        let s := s.retire c (x.addPend p) (memLen a)
        qs.foldl (fun s q => s.launchReq 0 (s.grpPkt c.g x p.tag (q * 512) .r false (.flush inv))) s

/-- CFLUSH (R357). -/
def execCflush (a : MemArgs) (s : State) : Out := cflushForm a s false
/-- CFLUSH.INV (R357). -/
def execCflushInv (a : MemArgs) (s : State) : Out := cflushForm a s true

/-- CINV forms act on the issuing core within 4 ACLK and stall only the group (R358). -/
def cinvForm (a : MemArgs) (s : State) (f : Mask → Group → BitVec 16 → Core → Core) : Out :=
  withCur s fun c x =>
    let m := x.actives c.slotB a.hd
    if m = 0 then s.retire c x (memLen a)
    else s.ordered c x a false <|
      let s := s.modCore (coreOf c.g) (f m x (s.asidAt x.ctx (coreOf c.g)))
      s.retire c { x with readyAt := max x.readyAt (s.aclk + 4), why := 11 } (memLen a)

/-- CINV (R358): the L1 lines of the active lanes' addresses, in either partition. -/
def execCinv (a : MemArgs) (s : State) : Out :=
  cinvForm a s fun m x asid core =>
    (Mask.lanes m).foldl (fun core l => core.l1Drop asid ((effAddr x a l).toNat / 128)) core
/-- CINV.RO (R358): the whole read-only partition. -/
def execCinvRo (a : MemArgs) (s : State) : Out :=
  cinvForm a s fun _ _ _ core => { core with l1 := core.l1.filter fun l => !l.ro }
/-- CINV.I (R358): the context's instruction-cache lines; the next instruction is fetched afresh. -/
def execCinvI (a : MemArgs) (s : State) : Out :=
  cinvForm a s fun _ _ asid core => { core with ic := core.ic.filter fun l => l.asid ≠ asid }

/-! ## Prefetches (R359) -/

/-- PREF (R359): lines of the active lanes whose addresses pass the core's checks and that are not held already. -/
def prefForm (a : MemArgs) (s : State) (part : Nat) : Out :=
  withCur s fun c x =>
    let k := s.ctx x.ctx
    let as := (laneAccs x c a 1).filter fun e => (laneCheck s k (dieOf c.g) 1 e).isNone
    let s := s.l1Scrub (coreOf c.g) (s.asidAt x.ctx (coreOf c.g)) (accLines as)
    let core := s.core (coreOf c.g)
    let lines := (accLines as).filter fun l => part = 2 || (core.l1Find (s.asidAt x.ctx (coreOf c.g)) l (part = 1)).isNone
    let s := s.retire c x (memLen a)
    (gather (numbered 0 lines)).foldl (fun s e =>
      let p := s.grpPkt c.g x 0 e.1 .r true (.read e.2.1)
      s.launchReq e.2.2 { p with src := .pref c.g x.gid core.epoch part }) s

/-- PREF.L1 (R359). -/
def execPrefL1 (a : MemArgs) (s : State) : Out := prefForm a s 0
/-- PREF.RO (R359). -/
def execPrefRo (a : MemArgs) (s : State) : Out := prefForm a s 1
/-- PREF.L2 (R359): into the home L2, or this die's RDC, and not into the L1. -/
def execPrefL2 (a : MemArgs) (s : State) : Out := prefForm a s 2

/-- A prefetched line arrives: it is installed unless the L1 was invalidated or written since (R51, R359). -/
def State.prefData (s : State) (core epoch part : Nat) (k : Pkt) (bytes : List Byte) : State :=
  if part = 2 ∨ (s.core core).epoch ≠ epoch then s
  else
    (numbered 0 (sectorsOf (Req.sectors k.req))).foldl (fun s e =>
      let l := k.line / 128 + e.2
      s.modCore core fun c =>
        if (c.l1Find k.asid l (part = 1)).isSome then c
        else c.l1Install k.asid l (part = 1) ((bytes.drop (128 * e.1)).take 128) s.aclk) s

end Sys2Proof.Machine
end

