-- ==== Sys2Proof/Machine/Async.lean ====
section
/-! DEFINITION. Buffer handles, batches, copies, barriers and signals (R360 to R371). -/

namespace Sys2Proof.Machine

/-! ## Buffer handles (R367, R368) -/

/-- A handle of a block. -/
def Block.hnd (b : Block) (h : Nat) : Hnd := Tab.getD b.hnds Hnd.reset h

/-- Change a handle. -/
def State.modHnd (s : State) (k h : Nat) (f : Hnd → Hnd) : State :=
  s.modBlk k fun b => { b with hnds := Tab.put b.hnds h (f (b.hnd h)) }

/-- A handle's word (R368). -/
def Hnd.word (h : Hnd) : W64 :=
  w64 (h.state.toNat * 2 ^ 62 + b2n h.isOp * 2 ^ 61 + h.holder % 128 * 2 ^ 54 + h.size.toNat * 2 ^ 32 + h.base.toNat)

/-- A state admits a consumer, or a producer. -/
def hndAdmits (st : BitVec 2) (cons : Bool) : Bool := if cons then st = 2 else st = 0

/-- The request's instruction still waits. -/
def HndReq.valid (s : State) (r : HndReq) : Bool :=
  match Tab.get? s.groups (r.key / 2) with
  | some x => let t := x.slot (r.key % 2 = 1); !x.dead && t.held && t.ipc = r.pc
  | none => false

/-- Order of requests: by the ACLK they began, then core-in-pair, then scheduler. -/
def HndReq.rank (b : Block) (r : HndReq) : Nat :=
  (r.at_ * 2 + b2n (coreOf (r.key / 2) ≠ b.core)) * 4 + schedOf (r.key / 2)

/-- The earliest valid request of a kind. -/
def State.hndFirst (s : State) (k h : Nat) (cons : Bool) : Option HndReq :=
  let b := s.blk k
  ((b.hnd h).wait.filter fun r => r.cons = cons && r.valid s).foldl (fun a r =>
    match a with
    | none => some r
    | some q => if r.rank b < q.rank b then some r else some q) none

/-- HANDLE_ADMIT (R367): the earliest waiting request that the state admits issues. -/
def State.hndAdmit (s : State) (k h : Nat) : State :=
  let st := ((s.blk k).hnd h).state
  let go (s : State) (cons : Bool) : State :=
    if hndAdmits st cons then
      match s.hndFirst k h cons with
      | some r =>
        let clr (t : Slot) : Slot := if t.wait = .handle h cons then { t with wait := .none } else t
        s.modGrp (r.key / 2) fun x => x.setSlot (r.key % 2 = 1) (clr (x.slot (r.key % 2 = 1)))
      | none => s
    else s
  go (go s false) true

/-- The slot's key in requests. -/
def Cur.key (c : Cur) : Nat := 2 * c.g + b2n c.slotB

/-- The instruction may take the handle now: its state admits it, and no earlier request of its kind waits. -/
def State.hndTurn (s : State) (c : Cur) (k h : Nat) (cons : Bool) : Bool :=
  hndAdmits ((s.blk k).hnd h).state cons &&
  (match s.hndFirst k h cons with | some r => r.key = c.key | none => true)

/-- The instruction waits on the handle. -/
def State.hndWait (s : State) (c : Cur) (x : Group) (h : Nat) (cons : Bool) (len : Nat) : State :=
  let r : HndReq := ⟨c.key, s.aclk, (x.slot c.slotB).ipc, cons⟩
  let s := s.modHnd x.blk h fun q =>
    let l := q.wait.filter fun r => r.valid s
    { q with wait := if l.any (fun e => e.key = r.key) then l else l ++ [r] }
  s.block c x (.handle h cons) len

/-- A handle changes state: the request of slot key `key`, if one, is served, and the others look again. -/
def State.hndSet (s : State) (k h key : Nat) (f : Hnd → Hnd) : State :=
  let s := s.modHnd k h fun q => { f q with wait := q.wait.filter fun r => r.key ≠ key }
  if ((s.blk k).hnd h).wait.isEmpty then s else s.post 0 (.handleAdmit k h)

/-- A transition asked for from core-in-pair 1 takes 12 ACLK more. -/
def State.hndDelay (s : State) (c : Cur) (x : Group) : State :=
  if coreOf c.g = (s.blk x.blk).core then s
  else s.modGrp c.g fun x =>
    let t := x.slot c.slotB
    x.setSlot c.slotB { t with readyAt := max t.readyAt (s.aclk + 12), why := 12 }

/-- The handle edge (R145): later loads of the holder see what came before the transition, which the L1 may not hold.
DEDUCED (assumption 100): the normal partition is invalidated, with no stall. -/
def State.hndEdge (s : State) (g : Nat) : State := s.invNormal (coreOf g)

/-- Handle of a specifier. -/
def hndOf : Opnd → Option Nat
  | .hnd h => some h.toNat
  | _ => none

/-- HACQ.DRAIN (R367, R368). -/
def execHacqDrain (a : MemArgs) (s : State) : Out :=
  uniform a.hd (memLen a) s fun c x =>
    let h := (hndOf a.sa).getD 0
    if s.hndTurn c x.blk h true then
      let base := ((s.blk x.blk).hnd h).base
      let s := s.hndEdge c.g
      let x := (Tab.get? s.groups c.g).getD x
      let s := s.hndSet x.blk h c.key fun q => { q with state := 3, isOp := false, holder := x.gid }
      (s.retire c (x.dstS a.dst (base.setWidth 64)) (memLen a)).hndDelay c x
    else s.hndWait c x h true (memLen a)

/-- HACQ.FILL (R367, R368). -/
def execHacqFill (a : MemArgs) (s : State) : Out :=
  uniform a.hd (memLen a) s fun c x =>
    let h := (hndOf a.sa).getD 0
    let base := x.srcS a.sb
    let size := x.srcS a.sc
    if ¬ s.scRange (s.blk x.blk) base size.toNat then s.trapHere c 0x04 scUnmapped base
    else if s.hndTurn c x.blk h false then
      let s := s.hndEdge c.g
      let x := (Tab.get? s.groups c.g).getD x
      let s := s.hndSet x.blk h c.key fun q =>
        { q with state := 1, isOp := false, holder := x.gid, size := size.setWidth 22, base := base.setWidth 32 }
      (s.retire c x (memLen a)).hndDelay c x
    else s.hndWait c x h false (memLen a)

/-- The state after a holder is done: a filled handle is full, a drained one free. -/
def Hnd.finished (h : Hnd) : Hnd := { h with state := if h.state = 1 then 2 else 0, isOp := false }

/-- HREL (R367, R368): it waits until every access before it has been performed. -/
def execHrel (a : MemArgs) (s : State) : Out :=
  uniform a.hd (memLen a) s fun c x =>
    let h := (hndOf a.sa).getD 0
    let q := (s.blk x.blk).hnd h
    if q.isOp ∨ q.holder ≠ x.gid ∨ (q.state ≠ 1 ∧ q.state ≠ 3) then s.illop c (encode (.hrel a) % 2 ^ 64)
    else if ¬ (s.before c x).isEmpty then s.block c x .acks (memLen a)
    else ((s.hndSet x.blk h c.key Hnd.finished).retire c x (memLen a)).hndDelay c x

/-- HSTAT (R368). -/
def execHstat (a : MemArgs) (s : State) : Out :=
  uniform a.hd (memLen a) s fun c x =>
    s.retire c (x.dstS a.dst ((s.blk x.blk).hnd ((hndOf a.sa).getD 0)).word) (memLen a)

/-! ## Issuing an operation (R144, R360, R362, R367) -/

/-- Operations of a class that have issued and not completed. -/
def BatchCls.out (b : BatchCls) : Nat := b.cur.length + (b.wait.map fun e => e.2.length).foldl (· + ·) 0

/-- A handle an operation takes: its number, whether as a consumer, and the region a producer fills. -/
structure HndUse where
  h : Nat
  cons : Bool
  base : W64
  size : Nat
  deriving DecidableEq, Repr

/-- A handle use of a specifier, as a producer or a consumer. -/
def hndUse (o : Opnd) (cons : Bool) (base : W64) (size : Nat) : Option HndUse :=
  (hndOf o).map fun h => ⟨h, cons, base, size⟩

/-- The accesses before the slot's instruction, by slot key and tag (R136, R144). -/
def State.beforeKeys (s : State) (c : Cur) (x : Group) : List (Nat × Nat) :=
  ((x.pend.filter fun p => p.isAcc && !((x.slot c.slotB).free.contains p.tag)).map fun p => (c.g, p.tag)) ++
  (s.ghosts.filter fun e => e.heir = some c.g).flatMap fun e => (e.pend.filter Pend.isAcc).map fun p => (e.key, p.tag)

/-- A new operation of the group, not yet in the state. -/
def State.mkOp (s : State) (c : Cur) (x : Group) (cls : Nat) (kind : OpKind) (hnd : Option Nat) : AOp :=
  { id := s.nextId, cls := cls, g := c.g, slotB := c.slotB, gone := false, gid := x.gid, blk := x.blk, ctx := x.ctx,
    core := coreOf c.g, die := dieOf c.g, asid := s.asidAt x.ctx (coreOf c.g), tc := (s.blk x.blk).cls, batch := none,
    kind := kind, hnd := hnd, started := false, fin := false, susp := false, stopReq := false,
    after := s.beforeKeys c x, rpos := 0, wpos := 0, left := 0, lim := kind.total,
    got := [], wpage := none, refused := [], dfr := none, exm := (x.slot c.slotB).lanes }

/-- The group's own loop has issued and is neither complete nor suspended (R256). -/
def State.loopRuns (s : State) (g : Nat) : Bool :=
  s.ops.any fun e => match e.2.kind with | .mloop _ => e.2.g = g && !e.2.gone && !e.2.susp | _ => false

/-- Issue an operation: it takes its handle, joins the group's unclosed operations of its class and goes past. First
it waits for the handle, then, a matrix operation, behind the group's own running loop, and then for room (R256,
R360, R367, R373). -/
def State.issueOp (s : State) (c : Cur) (x : Group) (cls : Nat) (kind : OpKind) (use : Option HndUse) (len : Nat) :
    State :=
  let go (s : State) : State :=
    let o := s.mkOp c x cls kind (use.map fun u => u.h)
    let b := x.bat cls
    let s := { s with nextId := s.nextId + 1, ops := Tab.put s.ops o.id o }
    let s := s.retire c (x.setBat cls { b with cur := b.cur ++ [o.id] }) len
    match use with | some _ => s.hndDelay c x | none => s
  let take (s : State) : State :=
    match use with
    | none => s
    | some u => s.hndSet x.blk u.h c.key fun q =>
        if u.cons then { q with state := 3, isOp := true, holder := x.gid, op := s.nextId }
        else { q with state := 1, isOp := true, holder := x.gid, op := s.nextId, size := .ofNat 22 u.size,
                      base := u.base.setWidth 32 }
  match use.filter fun u => !s.hndTurn c x.blk u.h u.cons with
  | some u => s.hndWait c x u.h u.cons len
  | none =>
    if cls = 1 ∧ s.loopRuns c.g then s.block c x .loop len
    else if 32 ≤ (x.bat cls).out then s.block c x .queue len
    else go (take s)

/-- Report a fault of an operation at the first wait that observes its batch complete (R361). -/
def State.pushFault (s : State) (o : AOp) (d : Deferred) : State :=
  if o.gone then s
  else s.modGrp o.g fun x =>
    let b := x.bat o.cls
    x.setBat o.cls { b with faults := b.faults ++ [(o.batch, d)] }

/-- An operation is complete: its handle moves on, its batch no longer waits for it, and what waited looks again
(R144, R362, R367). -/
def State.opGone (s : State) (id : Nat) : State :=
  match Tab.get? s.ops id with
  | none => s
  | some o =>
    let s := match o.hnd with
      | some h => s.hndSet o.blk h (2 ^ 40) fun q => if q.isOp ∧ q.op = id then q.finished else q
      | none => s
    let s := match o.dfr with | some d => s.pushFault o d | none => s
    let s := { s with ops := Tab.del s.ops id }
    let s :=
      if o.gone then s
      else
        let s := s.modGrp o.g fun x =>
          let b := x.bat o.cls
          let b := { b with cur := b.cur.erase id, wait := b.wait.map fun e => (e.1, e.2.erase id) }
          x.setBat o.cls (BatchCls.advance 65536 b)
        s.wake o.g fun w => match w with
          | .batch c _ => c = o.cls
          | .batchNew c => c = o.cls
          | .queue => true
          | _ => false
    s.checkBlock o.blk

/-! ## Checks of ranges (R18, R31, R364, R373) -/

/-- What a check of a range finds. -/
inductive RangeSt where
  | ok | freeze
  | bad (subc : Nat) (a : W64)
  deriving DecidableEq, Repr

/-- Check `n` bytes at an end, for an engine on die `d` of a context and a block. -/
def State.rangeIn (s : State) (ctx blk d : Nat) (l : ELoc) (n : Nat) : RangeSt :=
  match l with
  | .va a =>
    if n = 0 then .ok
    else match vaCheck s (s.ctx ctx) d a with
      | .frozen => .freeze
      | .unmapped => .bad scUnmapped a
      | .absent => if oneDie a n then .bad scAbsent a else .bad scUnmapped a
      | .ok => if oneDie a n then .ok else .bad scUnmapped a
  | .sc a => if s.scRange (s.blk blk) a n then .ok else .bad scUnmapped a
  | _ => .ok

/-- The same, for an engine of a group. -/
def State.rangeSt (s : State) (x : Group) (d : Nat) (l : ELoc) (n : Nat) : RangeSt := s.rangeIn x.ctx x.blk d l n

/-- The first of some checks that fails; a freeze comes before any of them (R404). -/
def firstBad (l : List RangeSt) : RangeSt :=
  if l.contains .freeze then .freeze
  else (l.find? fun r => r ≠ .ok).getD .ok

/-- Go on if the checks pass. -/
def State.ifRanges (s : State) (c : Cur) (l : List RangeSt) (f : State) : State :=
  match firstBad l with
  | .ok => f
  | .freeze => s.freeze c.g 1
  | .bad sc a => s.trapHere c 0x04 sc a

/-! ## Copies (R364 to R366) -/

/-- COPY (R364); its checks run in R364's order (assumption 113). -/
def copyForm (a : MemArgs) (i : Instr) (s : State) (mkD mkS : W64 → ELoc) (cons : Bool) : Out :=
  uniform a.hd (memLen a) s fun c x =>
    let d := x.srcS a.dst
    let src := x.srcS a.sa
    let n := x.srcS a.sb
    let m := n.toNat
    if 2 ^ 32 < m then s.illop c (encode i % 2 ^ 64)
    else if d.toNat % 4 ≠ 0 ∨ m % 4 ≠ 0 then s.trapHere c 0x04 scAlign d
    else if src.toNat % 4 ≠ 0 then s.trapHere c 0x04 scAlign src
    else s.ifRanges c [s.rangeSt x (dieOf c.g) (mkS src) m, s.rangeSt x (dieOf c.g) (mkD d) m]
      (s.issueOp c x 0 (.move (mkD d) (mkS src) m) (hndUse a.sc cons d m) (memLen a))

/-- COPY.V2S (R364). -/
def execCopyV2s (a : MemArgs) (s : State) : Out := copyForm a (.copyV2s a) s .sc .va false
/-- COPY.S2V (R364). -/
def execCopyS2v (a : MemArgs) (s : State) : Out := copyForm a (.copyS2v a) s .va .sc true
/-- COPY.V2V (R364). -/
def execCopyV2v (a : MemArgs) (s : State) : Out := copyForm a (.copyV2v a) s .va .va false
/-- COPY.S2S (R364). -/
def execCopyS2s (a : MemArgs) (s : State) : Out := copyForm a (.copyS2s a) s .sc .sc false

/-- An element as granules, cut as a copy of it is. -/
def elemParts (d src : ELoc) (n : Nat) : List (ELoc × ELoc × Nat) :=
  let ph := cutPhase d src
  (List.range (granules ph n)).map fun k => let (o, m) := granule ph n k; (d.plus o, src.plus o, m)

/-- COPYG (R365). -/
def copygForm (a : MemArgs) (s : State) (gather : Bool) : Out :=
  uniform a.hd (memLen a) s fun c x =>
    let n := 4 * 2 ^ (a.sub.toNat % 8)
    let base := x.srcS a.dst
    let near : ELoc := if a.e.space = 1 then .sc base else .va base
    let as : List LaneAcc := (Mask.lanes (x.slot c.slotB).lanes).map fun l => ⟨l, x.srcX a.sa l, n⟩
    let k := s.ctx x.ctx
    let al := min n 8
    let bad := accBad s k (dieOf c.g) al as
    let mis := bad.filter fun b => b.subc = .ofNat 4 scAlign
    let far := s.rangeSt x (dieOf c.g) near (32 * n)
    if accFreezes s k (dieOf c.g) al as ∨ far = .freeze then s.freeze c.g 1
    else if ¬ mis.isEmpty then s.trapLanes c mis
    else if ¬ bad.isEmpty then s.trapLanes c bad
    else if base.toNat % 4 ≠ 0 then s.trapHere c 0x04 scAlign base
    else s.ifRanges c [far] <|
      let els := as.flatMap fun e =>
        let at' := near.plus (e.lane * n)
        if gather then elemParts at' (.va e.addr) n else elemParts (.va e.addr) at' n
      s.issueOp c x 0 (.list els) (hndUse a.sc (!gather) base (32 * n)) (memLen a)

/-- COPYG.G (R365). -/
def execCopygG (a : MemArgs) (s : State) : Out := copygForm a s true
/-- COPYG.S (R365). -/
def execCopygS (a : MemArgs) (s : State) : Out := copygForm a s false

/-- Scalar register `i` after an operand's. -/
def Group.srcRun (x : Group) (o : Opnd) (i : Nat) : W64 :=
  match o with
  | .s n => x.getS (n.toNat + i)
  | _ => 0

/-- COPYP (R366). -/
def copypForm (a : MemArgs) (i : Instr) (s : State) (put : Bool) : Out :=
  uniform a.hd (memLen a) s fun c x =>
    let remote := x.srcRun a.sa 0
    let loc := x.srcRun a.sa 1
    let w := x.srcRun a.sa 2
    let sg := x.srcRun a.sa 3
    let n := fld w 0 32
    let near : ELoc := if a.e.space = 1 then .sc loc else .va loc
    let sgSt := if put ∨ sg = 0 then RangeSt.ok else s.rangeSt x (dieOf c.g) (.va sg) 8
    if fld w 43 21 ≠ 0 then s.illop c (encode i % 2 ^ 64)
    else if loc.toNat % 4 ≠ 0 ∨ n % 4 ≠ 0 then s.trapHere c 0x04 scAlign loc
    else if sg.toNat % 8 ≠ 0 then s.trapHere c 0x04 scAlign sg
    else s.ifRanges c [s.rangeSt x (dieOf c.g) near n, sgSt] <|
      let d : ELoc := if put then .remote remote else near
      let src : ELoc := if put then near else .remote remote
      s.issueOp c x 3 (.peer put (a.sub.toNat / 2 % 2 = 1) (bit64 w 42) d src n (fld w 32 10) sg (x.srcS a.sb))
        (hndUse a.sc put loc n) (memLen a)

/-- COPYP PUT (R366). -/
def execCopypPut (a : MemArgs) (s : State) : Out := copypForm a (.copypPut a) s true
/-- COPYP GET (R366). -/
def execCopypGet (a : MemArgs) (s : State) : Out := copypForm a (.copypGet a) s false

/-! ## Batches (R361 to R363) -/

/-- Batch `n` is complete (R362). -/
def BatchCls.complete (b : BatchCls) (n : BitVec 16) : Bool := (b.done - n).toNat < 2 ^ 15

/-- BATCH (R362). -/
def execBatch (a : MemArgs) (s : State) : Out :=
  uniform a.hd (memLen a) s fun c x =>
    let k := a.e.eng.toNat
    let b := x.bat k
    if (b.closed - b.done).toNat = 32767 then s.block c x (.batchNew k) (memLen a)
    else
      let n := b.closed + 1
      let s := s.closeBatch c.g k
      s.retire c ((x.setBat k b.close).dstS a.dst (n.setWidth 64)) (memLen a)

/-- The first report of a complete batch of a class; a batch with error is reported when TRAPEN is set (R260,
R361). -/
def Group.report (x : Group) (k : Nat) : Option (Option (BitVec 16) × Deferred) :=
  let b := x.bat k
  b.faults.find? fun f =>
    (match f.1 with | some n => b.complete n | none => false) && (f.2.cause ≠ 0x0C || bit64 x.mstat 9)

/-- The group without the reports of complete batches that are not taken. -/
def Group.unreported (x : Group) (k : Nat) (f : Option (Option (BitVec 16) × Deferred)) : Group :=
  let b := x.bat k
  let keepIt (e : Option (BitVec 16) × Deferred) : Bool :=
    (match e.1 with | some n => !b.complete n | none => true) || (f.isSome && (e.2.cause ≠ 0x0C || bit64 x.mstat 9))
  let l := b.faults.filter keepIt
  x.setBat k { b with faults := match f with | some f => l.erase f | none => l }

/-- A wait whose batches are complete: it takes the first report, deferred, or goes on (R361, R363). -/
def State.observe (s : State) (c : Cur) (x : Group) (k len : Nat) : State :=
  let f := x.report k
  let y := x.unreported k f
  match f with
  | none => s.retire c y len
  | some (_, d) =>
    let t := y.trapOf c.slotB d.cause.toNat d.subc.toNat d.val (d.mask.getD (x.slot c.slotB).exm)
    (s.setGrp c.g y).raise c.g { t with defer := true }

/-- WAITB (R363). -/
def execWaitb (a : MemArgs) (s : State) : Out :=
  uniform a.hd (memLen a) s fun c x =>
    let k := a.e.eng.toNat
    let b := x.bat k
    let n : BitVec 16 := (x.srcS a.sa + sext32 a.e.disp).setWidth 16
    let ahead := (n - b.closed).toNat
    if 1 ≤ ahead ∧ ahead < 2 ^ 15 then s.illop c (encode (.waitb a) % 2 ^ 64)
    else if b.complete n then s.observe c x k (memLen a)
    else s.block c x (.batch k n.toNat) (memLen a)

/-- WAITC (R363). -/
def execWaitc (a : MemArgs) (s : State) : Out :=
  uniform a.hd (memLen a) s fun c x =>
    let k := a.e.eng.toNat
    let b := x.bat k
    let n := (x.srcS a.sa + sext32 a.e.disp).toNat
    if 32767 < n then s.illop c (encode (.waitc a) % 2 ^ 64)
    else if (b.closed - b.done).toNat ≤ n then s.observe c x k (memLen a)
    else s.block c x (.batch k (b.closed - .ofNat 16 n).toNat) (memLen a)

/-! ## Gates and gang barriers (R369, R370) -/

/-- An instruction that carries a release fence goes on after it. -/
def State.fenced (s : State) (c : Cur) (x : Group) (scope : Nat) (len : Nat) : State :=
  let (t, d) := s.releaseFence c.g scope (s.blk x.blk).pair
  let y := (Tab.get? t.groups c.g).getD x
  t.retire c { y with
    readyAt := if d = 0 then y.readyAt else max y.readyAt (s.aclk + d)
    why := if d = 0 then y.why else 11 } len

/-- Checks of a gate form: the gate's number, and slot B not live for an arrival. -/
def gateForm (a : MemArgs) (i : Instr) (s : State) (arrive : Bool) (f : Cur → Group → Nat → State) : Out :=
  uniform a.hd (memLen a) s fun c x =>
    let n := (x.srcS a.sb).toNat
    if 8 ≤ n ∨ (arrive ∧ x.bLive) then s.illop c (encode i % 2 ^ 64) else f c x n

/-- Wait for a gate's phase to pass, or go on with the release fence, which its group's earlier accesses complete
before (R141, R143). -/
def State.holdGate (s : State) (c : Cur) (x : Group) (n : Nat) (ph : BitVec 16) (pass : Bool) (len : Nat) : State :=
  if ¬ (s.before c x).isEmpty then s.block c x .acks len
  else if ((s.blk x.blk).gate n).phase = ph then (s.block c x (.gate n ph pass) len).checkRend x.blk (coreOf c.g)
  else s.fenced c x 1 len

/-- GATE.PASS (R369); resumed on a phase it is a HOLD (R400). -/
def execGatePass (a : MemArgs) (s : State) : Out :=
  gateForm a (.gatePass a) s true fun c x n =>
    match (x.slot c.slotB).wph with
    | some ph => s.holdGate c x n ph true (memLen a)
    | none =>
      s.fenceFirst c x (s.blk x.blk).pair (memLen a) <|
        if x.arrived n then (s.block c x (.gateBusy n) (memLen a)).checkRend x.blk (coreOf c.g)
        else
          ((s.block c x (.gate n ((s.blk x.blk).gate n).phase true) (memLen a)).arriveGate c.g x.blk n).checkRend x.blk
            (coreOf c.g)

/-- GATE.MARK (R369). -/
def execGateMark (a : MemArgs) (s : State) : Out :=
  gateForm a (.gateMark a) s true fun c x n =>
    s.fenceFirst c x (s.blk x.blk).pair (memLen a) <|
      if x.arrived n then (s.block c x (.gateBusy n) (memLen a)).checkRend x.blk (coreOf c.g)
      else (s.retire c (x.dstS a.dst (((s.blk x.blk).gate n).phase.setWidth 64)) (memLen a)).arriveGate c.g x.blk n

/-- GATE.HOLD (R369). -/
def execGateHold (a : MemArgs) (s : State) : Out :=
  gateForm a (.gateHold a) s false fun c x n => s.holdGate c x n ((x.srcS a.sa).setWidth 16) false (memLen a)

/-- Checks of a gang barrier's arrival. -/
def ggateForm (a : MemArgs) (i : Instr) (s : State) (f : Cur → Group → State) : Out :=
  uniform a.hd (memLen a) s fun c x => if x.bLive then s.illop c (encode i % 2 ^ 64) else f c x

/-- Wait for the gang barrier's phase to pass, or go on with the release fence, of DIE scope or wider. -/
def State.holdGang (s : State) (c : Cur) (x : Group) (ph : BitVec 16) (pass : Bool) (len : Nat) : State :=
  if ¬ (s.before c x).isEmpty then s.block c x .acks len
  else if (s.gang (s.blk x.blk).gang).phase = ph then s.block c x (.ggate ph pass) len else s.fenced c x 3 len

/-- GGATE.PASS (R370). -/
def execGgatePass (a : MemArgs) (s : State) : Out :=
  ggateForm a (.ggatePass a) s fun c x =>
    let b := s.blk x.blk
    match (x.slot c.slotB).wph with
    | some ph => s.holdGang c x ph true (memLen a)
    | none =>
      s.fenceFirst c x true (memLen a) <|
        if x.arrived 8 then s.block c x (.gateBusy 8) (memLen a)
        else (s.block c x (.ggate (s.gang b.gang).phase true) (memLen a)).arriveGang c.g b

/-- GGATE.MARK (R370). -/
def execGgateMark (a : MemArgs) (s : State) : Out :=
  ggateForm a (.ggateMark a) s fun c x =>
    let b := s.blk x.blk
    s.fenceFirst c x true (memLen a) <|
      if x.arrived 8 then s.block c x (.gateBusy 8) (memLen a)
      else (s.retire c (x.dstS a.dst ((s.gang b.gang).phase.setWidth 64)) (memLen a)).arriveGang c.g b

/-- GGATE.HOLD (R370). -/
def execGgateHold (a : MemArgs) (s : State) : Out :=
  uniform a.hd (memLen a) s fun c x => s.holdGang c x ((x.srcS a.sa).setWidth 16) false (memLen a)

/-! ## Signals (R371) -/

/-- The one access of a signal form, checked. -/
def sigForm (a : MemArgs) (s : State) (rel : Bool) (f : Cur → Group → List LaneAcc → State) : Out :=
  uniform a.hd (memLen a) s fun c x =>
    let as : List LaneAcc := [⟨32, x.srcS a.sa + sext32 a.e.disp, 8⟩]
    let k := s.ctx x.ctx
    if accFreezes s k (dieOf c.g) 8 as then s.freeze c.g 1
    else match accBad s k (dieOf c.g) 8 as with
      | b :: _ => s.trapHere c 0x04 b.subc.toNat b.addr
      | [] => if orderWait (s.before c x) rel a.e.scope.toNat then s.block c x .acks (memLen a) else f c x as

/-- SIGSET and SIGADD as an ATOMR of an operation (R371). -/
def sigAtomic (a : MemArgs) (s : State) (aop : BitVec 4) : Out :=
  sigForm a s true fun c x as =>
    s.issueAtomics c x { a with ty := .n64 } aop false false false .rw as (x.slot c.slotB).lanes

/-- SIGSET (R371). -/
def execSigset (a : MemArgs) (s : State) : Out := sigAtomic a s 6
/-- SIGADD (R371). -/
def execSigadd (a : MemArgs) (s : State) : Out := sigAtomic a s 0

/-- What a waiting SIGWAIT compares with: the value, and the condition (R298, R371). -/
def sigWant (a : MemArgs) (b : W64) : Tab W64 := [(0, b), (1, w64 a.sub.toNat)]

/-- Send a SIGWAIT's read: to the home slice, past the L1 and the RDC. -/
def State.sendSig (s : State) (g : Nat) (x : Group) (p : Pend) : State :=
  match p.lanes with
  | e :: _ =>
    s.launchReq 0 (s.grpPkt g x p.tag (e.addr.toNat / 512 * 512) .r false (.read (sectorMask e.addr.toNat 8)))
  | [] => s

/-- SIGWAIT (R371): the slot waits while the object is read. -/
def execSigwait (a : MemArgs) (s : State) : Out :=
  sigForm a s false fun c x as =>
    let p := { x.newPend c.slotB .sigread (memLen a) none s.aclk (dstsOf a.dst) with
      lanes := as, left := 1, acq := some a.e.scope, old := sigWant a (x.srcS a.sb), ldst := some (a.dst, .n64, .none) }
    (s.block c (x.addPend p) (.sig (2 ^ 60)) (memLen a)).sendSig c.g x p

/-- The value a SIGWAIT read satisfies it. -/
def Pend.sigOk (p : Pend) (v : Nat) : Bool :=
  ccInt (Tab.getD p.old 0 1).toNat (v : Int) ((Tab.getD p.old 0 0).toNat : Int)

/-- A SIGWAIT's read has been performed at a line: writes to the line have it read again (R371). -/
def State.sigAt (s : State) (p : Pkt) : State :=
  match p.src with
  | .grp g tag =>
    match Tab.get? s.groups g with
    | some x =>
      match x.pend.find? fun q => q.tag = tag ∧ q.kind = .sigread with
      | some q =>
        s.modGrp g fun x => x.setSlot q.slotB { x.slot q.slotB with wait := .sig (pbaseOf p / 512) }
      | none => s
    | none => s
  | _ => s

/-- Have a waiting SIGWAIT read again 1,024 ACLK after a read has returned: its reads are then no more than 1,024 FCLK
apart (R371). -/
def State.sigTimer (s : State) (g : Nat) : State :=
  if s.agenda.any fun e => e.ev = .sigwaitReread g then s else s.post 1024 (.sigwaitReread g)

/-- A SIGWAIT's read returns: satisfied, it completes with the value and its acquire; otherwise it waits on. -/
def State.sigData (s : State) (g : Nat) (x : Group) (p : Pend) (k : Pkt) (bytes : List Byte) : State :=
  match p.lanes with
  | [] => s
  | e :: _ =>
    let v := natOfBytes ((bytes.drop (e.addr.toNat % 128)).take 8)
    if p.sigOk v then
      let y := { x with pend := x.pend.filter fun q => q.tag ≠ p.tag }
      let d := match p.ldst with | some (d, _, _) => d | none => .zero
      let s := (s.setGrp g (y.dstS d (w64 v))).acquire g ((p.acq.getD 0).toNat)
      ((s.release g p.slotB 0).wake g fun w => w = .acks).afterResult g
    else
      let s := s.setGrp g { x with pend := x.pend.map fun q => if q.tag = p.tag then { q with left := q.left - 1 } else q }
      (s.sigAt k).sigTimer g

/-- SIGWAIT_REREAD (R371): each waiting SIGWAIT of the group reads its object again. -/
def State.sigReread (s : State) (g : Nat) : State :=
  match Tab.get? s.groups g with
  | none => s
  | some x =>
    (x.pend.filter fun p => p.kind = .sigread).foldl (fun s p =>
      (s.modGrp g fun x => { x with pend := x.pend.map fun q => if q.tag = p.tag then { q with left := q.left + 1 } else q
      }).sendSig g x p) s

end Sys2Proof.Machine
end

