-- ==== Sys2Proof/Machine/Agate.lean ====
section
/-! DEFINITION. Agate mode: mode switches, commands at a bank, transposition and the prefetch filter (R35, R36, R112 to
R130, R387 to R391, R449). -/

namespace Sys2Proof.Machine

/-! ## Banks of a context (R35, R112, R115) -/

/-- Bank that a bank-set entry names (R35). -/
def agBank (w : W64) : Nat := fld w 7 2 * 128 + fld w 2 5 * 4 + fld w 0 2

/-- Mode code of a mode (R112). -/
def AgMode.code : AgMode → Nat
  | .cache => 0 | .entering => 1 | .agate => 2 | .leaving => 3

/-- Mode of bank-set entry `n` for a context (R112): a bank another context has switched reads CACHE. -/
def State.agMode (s : State) (ctx n : Nat) : AgMode :=
  let w := Tab.getD (s.ctx ctx).agset 0 n
  let b := s.bank (agBank w)
  if bit64 w 15 ∧ b.ctx = some ctx then b.mode else .cache

/-- A bank takes another mode. -/
def Bank.turn (b : Bank) (now : Nat) (m : AgMode) : Bank := { b with mode := m, was := some (b.mode, b.ctx, now) }

/-- Field `n` of a core's AGMODE (R112): a change of mode reaches it within 64 ACLK, and before a leaving bank discards
its rows (R115). -/
def State.agModeAt (s : State) (ctx core n : Nat) : AgMode :=
  let k := agBank (Tab.getD (s.ctx ctx).agset 0 n)
  match (s.bank k).was with
  | none => s.agMode ctx n
  | some (m, c, at') =>
    if (s.bank k).drained ∨ at' + min 64 (Config.modeReach at' k core).toNat ≤ s.aclk then s.agMode ctx n
    else if bit64 (Tab.getD (s.ctx ctx).agset 0 n) 15 ∧ c = some ctx then m else .cache

/-- AGMODE of a core (R112). -/
def State.agModeWord (s : State) (ctx core : Nat) : W64 :=
  w64 ((List.range 32).foldl (fun a n => a + (s.agModeAt ctx core n).code * 4 ^ n) 0)

/-! ## Row arithmetic (R118, R122, R124) -/

/-- Every lane of a row. -/
def rowAll : Nat := 2 ^ 16384 - 1

/-- Rows of a variable. -/
def Bank.var (b : Bank) (h w : Nat) : List Nat := (List.range w).map fun i => Tab.getD b.rows 0 (h + i)

/-- Write rows from `h` on. -/
def Bank.setVar (b : Bank) (h : Nat) (rs : List Nat) : Bank :=
  { b with rows := (numbered h rs).foldl (fun t e => Tab.set t 0 e.1 e.2) b.rows }

/-- Lane-wise sum of two variables with a carry row: the rows and the carry out. -/
def planeAdd : List Nat → List Nat → Nat → List Nat × Nat
  | a :: as, b :: bs, c =>
    let (r, d) := planeAdd as bs ((a &&& b) ||| (c &&& (a ^^^ b)))
    ((a ^^^ b ^^^ c) :: r, d)
  | _, _, c => ([], c)

/-- Lanes in which a row has no one bit. -/
def rowNot (r : Nat) : Nat := rowAll ^^^ (r &&& rowAll)

/-- Rows of a variable shifted left by `k`. -/
def planeShl (rs : List Nat) (k : Nat) : List Nat := (List.replicate (min k rs.length) 0 ++ rs).take rs.length

/-- Product of a variable with a constant. -/
def planeMul (rs : List Nat) (c : Nat) : List Nat :=
  (List.range rs.length).foldl (fun a i =>
    if c / 2 ^ i % 2 = 1 then (planeAdd a (planeShl rs i) 0).1 else a) (List.replicate rs.length 0)

/-- Lanes in which a < b (R122). -/
def planeLt (sg : Bool) (a b : List Nat) : Nat :=
  let flip (l : List Nat) : List Nat := if sg then l.dropLast ++ [rowNot (l.getLastD 0)] else l
  rowNot (planeAdd (flip a) ((flip b).map rowNot) rowAll).2

/-- Result rows of an AGOP (R122). -/
def agopRows (b : Bank) (sub ha hb hm w : Nat) (sg : Bool) (k : Nat) (c : W64) : List Nat :=
  let x := b.var ha w
  let y := b.var hb w
  let m := Tab.getD b.rows 0 hm
  let both (f : Nat → Nat → Nat) : List Nat := (x.zip y).map fun e => f e.1 e.2
  match sub with
  | 0 => both fun p q => p &&& q
  | 1 => both fun p q => p ||| q
  | 2 => both fun p q => p ^^^ q
  | 3 => x.map rowNot
  | 4 => x
  | 5 => (planeAdd x y 0).1
  | 6 => (planeAdd x (y.map rowNot) rowAll).1
  | 7 => [(both fun p q => rowNot (p ^^^ q)).foldl (fun p q => p &&& q) rowAll]
  | 8 => [planeLt sg x y]
  | 9 => both fun p q => (p &&& m) ||| (q &&& rowNot m)
  | 10 => planeShl x k
  | 11 => (x.drop k ++ List.replicate w (if sg then x.getLastD 0 else 0)).take w
  | _ => planeMul x c.toNat

/-- Row operations of an AGOP (R122). -/
def agopCost (sub w : Nat) (c : W64) : Nat :=
  match sub with
  | 5 | 6 => 3 * w + 2
  | 7 | 9 => 2 * w + 1
  | 8 => 2 * w + 2
  | 12 => let n := popN w (c.toNat % 2 ^ w); if n ≤ 1 then w else (n - 1) * (3 * w + 2) + w
  | _ => w

/-- Sum of a variable over every lane (R124). -/
def agredSum (b : Bank) (hd w : Nat) (sg : Bool) : W64 :=
  let term (i : Nat) : Int :=
    let n : Int := (popN 16384 (Tab.getD b.rows 0 (hd + i)) * 2 ^ i : Nat)
    if sg ∧ i = w - 1 then -n else n
  w64 (wrap 64 ((List.range w).foldl (fun a i => a + term i) 0))

/-! ## Transposition (R125) -/

/-- Memory element width of MW. -/
def mwBits (mw : Nat) : Nat := match mw with | 0 => 1 | 1 => 8 | 2 => 16 | 3 => 32 | _ => 64

/-- Element `i` of loaded bytes. -/
def agFetch (data : List Byte) (m i : Nat) : Nat :=
  if m = 1 then ((data[i / 8]?).getD 0).toNat / 2 ^ (i % 8) % 2
  else natOfBytes ((data.drop (i * (m / 8))).take (m / 8))

/-- A bank after an AGLD has placed the elements its bytes hold in their lanes. -/
def Bank.place (b : Bank) (hd w : Nat) (sg : Bool) (m l0 count : Nat) (data : List Byte) : Bank :=
  let n := min count (data.length * 8 / m)
  let vs := (List.range n).map fun i => agElem sg m w (agFetch data m i)
  let mask := (2 ^ n - 1) * 2 ^ l0
  let row (r : Nat) : Nat :=
    let old := Tab.getD b.rows 0 (hd + r)
    old - (old &&& mask) + 2 ^ l0 * vs.foldr (fun v a => v / 2 ^ r % 2 + 2 * a) 0
  b.setVar hd ((List.range w).map row)

/-! ## Completion at a bank -/

/-- A bank has completed an operation's command; the last one tells the issuing group (R119, R449). -/
def State.bankDone (s : State) (op bank : Nat) : State :=
  match Tab.get? s.ops op with
  | none => s
  | some o =>
    match o.kind with
    | .agate todo bs =>
      let r := bs.erase bank
      let s := s.modOp op fun o => { o with kind := .agate todo r }
      if r.isEmpty ∧ ¬ o.fin then s.finish op (32 + 56 * hops (bank / 128) o.die) else s
    | _ => s

/-- Report a fault of a command to its group (R127, R389). -/
def State.agFault (s : State) (op : Nat) (d : Deferred) : State :=
  match Tab.get? s.ops op with
  | some o => s.pushFault o d
  | none => s

/-- A command is refused at a bank another context holds (R389). -/
def State.agRefuse (s : State) (bank : Nat) (e : AgEntry) : State :=
  (s.agFault e.op ⟨0x02, 0, w64 e.ix, some e.mask⟩).bankDone e.op bank

/-! ## The prefetch filter (R128) -/

/-- Disarm the entries of a bank, wherever their ranges lie. -/
def State.pfDisarm (s : State) (bank : Nat) : State :=
  [0, 1, 2, 3].foldl (fun s d =>
    if (s.die d).pf.any (fun e => e.bank = bank) then
      s.modDie d fun k => { k with pf := k.pf.filter fun e => e.bank ≠ bank, pfOver := [] }
    else s) s

/-- Arm an entry for an AGLD's range; with all 16 armed the ASID overflows. -/
def State.pfArm (s : State) (bank : Nat) (asid : BitVec 16) (base n : Nat) : State :=
  s.modDie (bitsN base 54 2) fun d =>
    if d.pf.length < 16 then { d with pf := d.pf ++ [⟨asid, bank, base / 512, (base + n + 511) / 512⟩] }
    else { d with pfOver := if d.pfOver.contains asid then d.pfOver else asid :: d.pfOver }

/-! ## Mode switches (R113, R114, R116) -/

/-- L2 lines a bank holds, by its number on its die. -/
def State.bankLines (s : State) (bank : Nat) : List L2Line := (s.die (bank / 128)).l2.filter fun l => l.bank = bank % 128

/-- The line's own bank. -/
def L2Line.home (l : L2Line) : Nat := homeSlice (l.line * 512) * 4 + homeBank (l.line * 512)

/-- Lines other banks hold for a bank (R80). -/
def State.heldFor (s : State) (bank : Nat) : List L2Line :=
  (s.die (bank / 128)).l2.filter fun l => l.redir && l.home = bank % 128

/-- Dirty sectors of some lines. -/
def dirtySectors (ls : List L2Line) : Nat := (ls.map fun l => (sectorsOf l.dirty).length).foldl (· + ·) 0

/-- Write back and invalidate lines: a line with sharers stays known by them (R83). -/
def State.sweep (s : State) (die : Nat) (p : L2Line → Bool) : State :=
  let out (l : L2Line) : Option L2Line :=
    if p l then (if l.sharers = 0 then none else some { l with valid := 0, dirty := 0, redir := false }) else some l
  s.modDie die fun d => { d with l2 := d.l2.filterMap out }

/-- Accept an AGON (R113). -/
def State.agonAccept (s : State) (bank : Nat) (e : AgEntry) : State :=
  let d := dirtySectors (s.bankLines bank)
  (s.modBank bank fun b => { b.turn s.aclk .entering with ctx := some e.ctx, switch := some e, redir := false }).post
    (2 * (128 + d)) (.agonWritebackDone bank)

/-- Accept an AGOFF, or take a bank out without one (R114, R117). -/
def State.agoffAccept (s : State) (bank : Nat) (e : Option AgEntry) : State :=
  s.modBank bank fun b => { b.turn s.aclk .leaving with switch := e, drained := false, redir := true }

/-- A command arrives at its bank (R113, R114, R121, R389). -/
def State.agArrive (s : State) (bank : Nat) (e : AgEntry) : State :=
  let b := s.bank bank
  let other := b.mode ≠ .cache ∧ b.ctx ≠ some e.ctx
  match e.cmd with
  | .on =>
    if other then s.agRefuse bank e
    else match b.mode with
      | .cache => s.agonAccept bank e
      | .entering | .agate => s.bankDone e.op bank
      | .leaving => s.modBank bank fun b => { b with hold := b.hold ++ [e] }
  | .off =>
    if other then s.agRefuse bank e
    else match b.mode with
      | .agate => s.agoffAccept bank (some e)
      | .entering => s.modBank bank fun b => { b with hold := b.hold ++ [e] }
      | .cache | .leaving => s.bankDone e.op bank
  | _ =>
    if other ∨ b.mode = .cache then s.bankDone e.op bank
    else s.modBank bank fun b => { b with queue := b.queue ++ [e] }

/-- What waited for a mode switch arrives again. -/
def State.agHeld (s : State) (bank : Nat) : State :=
  let l := (s.bank bank).hold
  l.foldl (fun s e => s.agArrive bank e) (s.modBank bank fun b => { b with hold := [] })

/-- A bank's lines are locked or waited for (R113). -/
def State.bankLocked (s : State) (bank : Nat) : Bool :=
  (s.die (bank / 128)).locks.any fun l => l.bank = bank % 128

/-- AGON_WRITEBACK_DONE (R113, R116): the bank's lines are written back and invalid, the redirect is in force, and the
rows are cleared next. -/
def State.agonWritten (s : State) (bank : Nat) : State :=
  if (s.bank bank).mode ≠ .entering then s
  else if s.bankLocked bank then s.post 2 (.agonWritebackDone bank)
  else
    let late := (s.bank bank).late
    let s := s.sweep (bank / 128) fun l => l.bank = bank % 128
    let s := s.modBank bank fun b => { b with redir := true, late := [] }
    (late.foldl (fun s p => s.arriveHome p) s).post 2048 (.agonComplete bank)

/-- AGON_COMPLETE (R113). -/
def State.agonDone (s : State) (bank : Nat) : State :=
  let b := s.bank bank
  if b.mode ≠ .entering then s
  else
    let s := s.modBank bank fun b => { b.turn s.aclk .agate with rows := [], switch := none }
    let s := match b.switch with | some e => s.bankDone e.op bank | none => s
    s.agHeld bank

/-- AGOFF_DRAIN_DONE (R114, R116): the rows are discarded and the redirect is undone. R128 gives no moment at which an
AGOFF disarms the bank's prefetch filter; it is this one (assumption 110). -/
def State.agoffDrained (s : State) (bank : Nat) : State :=
  if (s.bank bank).mode ≠ .leaving then s
  else
    let d := dirtySectors (s.heldFor bank)
    (((s.modBank bank fun b => { b with rows := [], drained := true }).pfDisarm bank)).post (2 * (128 + d))
      (.agoffComplete bank)

/-- AGOFF_COMPLETE (R114): the redirect bank no longer holds the bank's lines, and it serves them again. -/
def State.agoffDone (s : State) (bank : Nat) : State :=
  let b := s.bank bank
  let busy := (s.die (bank / 128)).locks.any fun l =>
    (s.heldFor bank).any fun h => h.line = l.line
  if b.mode ≠ .leaving then s
  else if busy then s.post 2 (.agoffComplete bank)
  else
    let s := s.sweep (bank / 128) fun l => l.redir && l.home = bank % 128
    let s := s.modBank bank fun b => { b.turn s.aclk .cache with ctx := none, switch := none, drained := false, redir := false }
    let s := match b.switch with | some e => s.bankDone e.op bank | none => s
    s.agHeld bank

/-! ## Commands (R121 to R127) -/

/-- A mode switch, as opposed to a command on rows. -/
def AgCmd.isMode : AgCmd → Bool
  | .on | .off => true
  | _ => false

/-- A command whose row reads are made by its end: an AGOP or AGRED. -/
def AgCmd.inBank : AgCmd → Bool
  | .op _ _ _ _ _ _ _ _ _ | .red _ _ _ _ => true
  | _ => false

/-- Rows of its sources that row `r` of an AGOP's result depends on (R122). -/
def agopReads (sub ha hb hm w : Nat) (sg : Bool) (k r : Nat) : List Nat :=
  let upTo (h n : Nat) : List Nat := (List.range n).map fun i => h + i
  match sub with
  | 0 | 1 | 2 => [ha + r, hb + r]
  | 3 | 4 => [ha + r]
  | 5 | 6 => upTo ha (r + 1) ++ upTo hb (r + 1)
  | 7 | 8 => upTo ha w ++ upTo hb w
  | 9 => [ha + r, hb + r, hm]
  | 10 => if k ≤ r then [ha + r - k] else []
  | 11 => if r + k < w then [ha + r + k] else if sg then [ha + w - 1] else []
  | _ => upTo ha (r + 1)

/-- A read of some of a bank's rows finds a parity error (R120). -/
def State.rowsSpoiled (s : State) (bank : Nat) (rs : List Nat) : Bool :=
  s.upsets.any fun u => match u.spot with
    | .row b r _ => b = bank && rs.contains r && decide (s.upset u.spot ≠ 0)
    | _ => false

/-- Rows a command reads (R118, R122, R124, R125). -/
def AgCmd.rows : AgCmd → List Nat
  | .op sub _ ha hb hm w sg k _ => (List.range w).flatMap fun r => agopReads sub ha hb hm w sg k r
  | .red hd w _ _ | .st hd w _ _ _ _ _ => (List.range w).map fun i => hd + i
  | _ => []

/-- A command stops at a row read with a parity error (R120): the group that issued it freezes, or its context ends when
that group has exited, and the batch is never complete. -/
def State.agStop (s : State) (bank : Nat) (e : AgEntry) : State :=
  (s.modBank bank fun b => { b with queue := b.queue.tail, busy := false }).freezeEngine e.op (w64 e.ix)

/-- Rows of an AGOP's result that were written before it stopped: of those that read no row in error, which ones the order
of its row operations decides, a free value (assumption 112). -/
def State.agPartial (s : State) (bank : Nat) (c : AgCmd) : State :=
  match c with
  | .op sub hd ha hb hm w sg k x =>
    let ok (r : Nat) : Bool :=
      !(s.rowsSpoiled bank (agopReads sub ha hb hm w sg k r)) && Config.rowDone s.fresh r = 1
    let b := s.bank bank
    let rs := (numbered 0 (agopRows b sub ha hb hm w sg k x)).filter fun e => ok e.1
    (s.modBank bank fun b => { b with rows := rs.foldl (fun t e => Tab.set t 0 (hd + e.1) e.2) b.rows }).tickFree
  | _ => s

/-- An operation of a bank's engine for the transfer of a command. -/
def State.agChild (s : State) (bank : Nat) (op : Nat) (kind : OpKind) : State :=
  match Tab.get? s.ops op with
  | none => s
  | some o =>
    let c := { o with id := s.nextId, core := 256 + bank, die := bank / 128, kind := kind, hnd := none, started := true,
                      fin := false, susp := false, after := [], rpos := 0, wpos := 0, left := 0, lim := kind.total,
                      got := [], wpage := none, refused := [], dfr := none }
    { s with nextId := s.nextId + 1, ops := Tab.put s.ops c.id c }

/-- Bytes of a transfer of `count` elements of `m` bits. -/
def agBytes (m count : Nat) : Nat := (count * m + 7) / 8

/-- AGATE_COMMAND_ACCEPT (R122): the bank begins its next command. -/
def State.agBegin (s : State) (bank : Nat) : State :=
  let b := s.bank bank
  let ready := b.mode = .agate ∨ (b.mode = .leaving ∧ ¬ b.drained)
  match b.queue with
  | [] => s
  | e :: _ =>
    if b.busy ∨ ¬ ready then s
    else
      let s := s.modBank bank fun b => { b with busy := true }
      match e.cmd with
      | .op sub _ _ _ _ w _ _ c => s.post (2 * (1 + 2 * agopCost sub w c)) (.agateCommandComplete bank)
      | .red _ w _ _ => s.post (2 * (1 + 2 * w + 24)) (.agateCommandComplete bank)
      | .ld _ _ _ m base _ n =>
        let asid := (s.ctx e.ctx).asid
        (s.pfArm bank asid base.toNat (agBytes m n)).agChild bank e.op
          (.agchild e.op e.mask bank true base (agBytes m n))
      | .st _ _ _ m base _ n =>
        if s.rowsSpoiled bank e.cmd.rows then s.agStop bank e
        else s.agChild bank e.op (.agchild e.op e.mask bank false base (agBytes m n))
      | .on | .off => s

/-- The transfer under way at a bank. -/
def State.childOf (s : State) (bank : Nat) : Option AOp :=
  (s.ops.find? fun e => match e.2.kind with | .agchild _ _ b _ _ _ => b = bank | _ => false).map fun e => e.2

/-- Report a transfer's refusal, naming the lanes that named the bank (R127). -/
def State.agReport (s : State) (o : AOp) (op : Nat) (mask : Mask) : State :=
  match o.dfr with
  | some d => s.agFault op { d with mask := some mask }
  | none => s

/-- AGATE_COMMAND_COMPLETE (R121 to R127): the command takes effect, and the bank takes its next. -/
def State.agComplete (s : State) (bank : Nat) : State :=
  let b := s.bank bank
  match b.queue with
  | [] => s
  | e :: r =>
    if ¬ b.busy then s
    else if e.cmd.inBank ∧ s.rowsSpoiled bank e.cmd.rows then (s.agPartial bank e.cmd).agStop bank e
    else
      let pop (s : State) : State := s.modBank bank fun b => { b with queue := r, busy := false }
      let child := s.childOf bank
      let gone (s : State) : State := match child with
        | some o => { (s.agReport o e.op e.mask) with ops := Tab.del (s.agReport o e.op e.mask).ops o.id }
        | none => s
      match e.cmd with
      | .op sub hd ha hb hm w sg k c =>
        (pop (s.modBank bank fun b => b.setVar hd (agopRows b sub ha hb hm w sg k c))).bankDone e.op bank
      | .red hd w sg a =>
        (pop s).agChild bank e.op (.agsum e.op e.mask bank a (agredSum b hd w sg))
      | .ld hd w sg m _ l0 n =>
        let data := match child with | some o => (List.range o.lim).flatMap fun k => (o.data k).getD [] | none => []
        (pop (gone (s.modBank bank fun b => b.place hd w sg m l0 n data))).bankDone e.op bank
      | .st _ _ _ _ _ _ _ => ((pop (gone s)).pfDisarm bank).bankDone e.op bank
      | .on | .off => pop s

/-- Width of the variable of the command in progress. -/
def AgEntry.width (e : AgEntry) : Nat :=
  match e.cmd with
  | .ld _ w _ _ _ _ _ | .st _ w _ _ _ _ _ => w
  | _ => 0

/-- A bank's transfer is over (R126): its rows are read or written, 2w FCLK. -/
def State.agMoved (s : State) (o : AOp) (bank : Nat) : State :=
  match (s.bank bank).queue with
  | e :: _ => (s.modOp o.id fun o => { o with fin := true }).post (4 * e.width + 2) (.agateCommandComplete bank)
  | [] => s

/-- An AGLD's reads have all come, or been refused. -/
def State.agStage (s : State) (o : AOp) : State :=
  match o.kind with
  | .agchild _ _ bank true _ _ => if s.opRuns o ∧ o.readAll then s.agMoved o bank else s
  | _ => s

/-- The store of an AGRED is answered. -/
def State.agSummed (s : State) (o : AOp) : State :=
  match o.kind with
  | .agsum op mask bank _ _ => ({ (s.agReport o op mask) with ops := Tab.del (s.agReport o op mask).ops o.id } : State).bankDone op bank
  | _ => s

/-! ## The banks' work of an ACLK -/

/-- Every command for a leaving bank has been performed: none is queued, on its way, or still to be sent (R114). -/
def State.agEmpty (s : State) (bank : Nat) : Bool :=
  let b := s.bank bank
  let data (e : AgEntry) : Bool := !e.cmd.isMode
  b.queue.isEmpty && !(b.coming.any fun e => data e.2) &&
  !(s.ops.any fun o => match o.2.kind with
    | .agate todo _ => todo.any fun e => e.1 = bank && data e.2 && b.ctx = some o.2.ctx
    | _ => false)

/-- Of the commands on the way in order of arrival, those a bank takes by ACLK `now`, and those that stay: an AGON or an
AGOFF is accepted one FCLK after it has come, and what follows it waits for that (R122). -/
def agTaken (now : Nat) : Nat → List (Nat × AgEntry) → List AgEntry × List (Nat × AgEntry)
  | _, [] => ([], [])
  | base, (t, e) :: r =>
    let t := max t base
    if t + (if e.cmd.isMode then 2 else 0) ≤ now then
      let (a, b) := agTaken now (if e.cmd.isMode then now else base) r
      (e :: a, b)
    else ([], (t, e) :: r.map fun q => (max q.1 base, q.2))

/-- Place a command among those on the way, in order of arrival. -/
def agComing (t : Nat) (e : AgEntry) : List (Nat × AgEntry) → List (Nat × AgEntry)
  | [] => [(t, e)]
  | q :: r => if q.1 ≤ t then q :: agComing t e r else (t, e) :: q :: r

/-- One bank: commands arrive, a leaving bank that is empty discards its rows, and the next command begins. -/
def State.bankTick (s : State) (bank : Nat) : State :=
  let (due, left) := agTaken s.aclk 0 (s.bank bank).coming
  let s := if due.isEmpty then s else
    due.foldl (fun s e => s.agArrive bank e) (s.modBank bank fun b => { b with coming := left })
  let b := s.bank bank
  let s := if b.mode = .leaving ∧ ¬ b.drained ∧ s.agEmpty bank then
      (s.modBank bank fun b => { b with drained := true }).post 0 (.agoffDrainDone bank)
    else s
  s.agBegin bank

/-- Send an operation's commands to their banks (R449). -/
def State.agSend (s : State) (o : AOp) : State :=
  match o.kind with
  | .agate todo bs =>
    let s := s.modOp o.id fun o => { o with started := true, kind := .agate [] bs }
    todo.foldl (fun s e =>
      s.modBank e.1 fun b => { b with coming := agComing (s.aclk + 32 + 56 * hops o.die (e.1 / 128)) e.2 b.coming }) s
  | _ => s

/-! ## Issue (R115, R119, R123 to R125, R387 to R391) -/

/-- Bytes of an Agate word. -/
def agtLen (a : AgtArgs) : Nat := if a.ext.isSome then 16 else 8

/-- A lane's failed check: the subcause, and the address or index it reports. -/
abbrev AgBad := Option (Nat × W64)

/-- The check of a lane's bank-set index (R115, R388). -/
def State.agIndex (s : State) (ctx core : Nat) (data : Bool) (ix : W64) : AgBad :=
  if 32 ≤ ix.toNat ∨ ¬ bit64 (Tab.getD (s.ctx ctx).agset 0 ix.toNat) 15 then some (scUnmapped, ix)
  else if data then
    match s.agModeAt ctx core ix.toNat with
    | .cache | .leaving => some (scUnmapped, ix)
    | _ => none
  else none

/-- A destination of `wd` rows overlaps a source of `ws` rows only in part (R123). -/
def partOverlap (hd wd hs ws : Nat) : Bool := !(hd = hs && wd = ws) && hd < hs + ws && hs < hd + wd

/-- The first failed check of a list. -/
def agFirst (l : List AgBad) : AgBad := l.findSome? id

/-- An address range (R17, R18, R125). -/
def State.agRange (s : State) (ctx die : Nat) (a : W64) (n : Nat) : RangeSt := s.rangeIn ctx 0 die (.va a) n

/-- A range's check as a lane's. -/
def rangeBad : RangeSt → AgBad
  | .bad sc a => some (sc, a)
  | _ => none

/-- A lane's command with its checks: what it may report, and whether it freezes the group. -/
structure AgLane where
  lane : Nat
  ix : W64
  bads : List AgBad
  freeze : Bool
  cmd : AgCmd
  deriving DecidableEq, Repr

/-- Issue the commands of the active lanes (R119, R388). -/
def State.agIssue (s : State) (c : Cur) (x : Group) (ls : List AgLane) (len : Nat) : State :=
  let bads := ls.flatMap fun l => (l.bads.filterMap id).map fun b => (⟨l.lane, .ofNat 4 b.1, b.2⟩ : BadLane)
  if ls.any (fun l => l.freeze) then s.freeze c.g 1
  else if ¬ bads.isEmpty then s.trapLanes c bads
  else
    let ixs := uniq (ls.map fun l => l.ix.toNat)
    let ent (ix : Nat) : Option (Nat × AgEntry) :=
      let mine := ls.filter fun l => l.ix.toNat = ix
      mine.head?.map fun l =>
        (agBank (Tab.getD (s.ctx x.ctx).agset 0 ix),
         ⟨s.nextId, x.ctx, l.cmd, Mask.of fun i => mine.any fun m => m.lane = i, ix⟩)
    let ents := ixs.filterMap ent
    let t := s.issueOp c x 2 (.agate ents (ents.map fun e => e.1)) none len
    if (Tab.get? t.ops s.nextId).isSome then t.countEvent c.g 0x42 1 else t

/-- A lane-predicated Agate form. -/
def agForm (a : AgtArgs) (s : State) (data : Bool) (f : Cur → Group → Nat → List AgBad × Bool × AgCmd) : Out :=
  withCur s fun c x =>
    let one (l : Nat) : AgLane :=
      let ix := x.srcX a.sa l
      let (bads, fr, cmd) := f c x l
      ⟨l, ix, bads ++ [s.agIndex x.ctx (coreOf c.g) data ix], fr, cmd⟩
    s.agIssue c x ((Mask.lanes (x.actives c.slotB a.hd)).map one) (agtLen a)

/-- AGON (R113, R388). -/
def execAgon (a : AgtArgs) (s : State) : Out := agForm a s false fun _ _ _ => ([], false, .on)
/-- AGOFF (R114, R388). -/
def execAgoff (a : AgtArgs) (s : State) : Out := agForm a s false fun _ _ _ => ([], false, .off)

/-- Rows `h` to `h + w - 1` pass row 511 (R36). -/
def rowsBad (h w : Nat) (ix : W64) : AgBad := if 511 < h + w - 1 then some (scAlign, ix) else none

/-- AGLD and AGST (R125, R388). -/
def agMoveForm (a : AgtArgs) (s : State) (mk : Nat → Nat → Bool → Nat → W64 → Nat → Nat → AgCmd) : Out :=
  agForm a s true fun c x l =>
    let e := a.e
    let w := e.wm1.toNat + 1
    let m := mwBits e.mw.toNat
    let base := x.srcX a.sb l
    let r := x.srcX a.sc l
    let l0 := fld r 0 16
    let n := fld r 16 16
    let ix := x.srcX a.sa l
    let lim : AgBad := if n = 0 ∨ 16384 < l0 + n ∨ (m = 1 ∧ (l0 % 8 ≠ 0 ∨ n % 8 ≠ 0)) then some (scAlign, ix) else none
    let al : AgBad := if 8 ≤ m ∧ base.toNat % (m / 8) ≠ 0 then some (scAlign, base) else none
    let rg := s.agRange x.ctx (dieOf c.g) base (agBytes m n)
    ([rowsBad e.hd.toNat w ix, lim, al, rangeBad rg], rg = .freeze, mk e.hd.toNat w e.sgn m base l0 n)

/-- AGLD (R390). -/
def execAgld (a : AgtArgs) (s : State) : Out := agMoveForm a s AgCmd.ld
/-- AGST (R390). -/
def execAgst (a : AgtArgs) (s : State) : Out := agMoveForm a s AgCmd.st

/-- AGOP (R122, R123, R391). -/
def execAgop (a : AgtArgs) (s : State) : Out :=
  agForm a s true fun _ x l =>
    let e := a.e
    let w := e.wm1.toNat + 1
    let sub := a.sub.toNat
    let wd := if sub = 7 ∨ sub = 8 then 1 else w
    let u := agopUses sub
    let ix := x.srcX a.sa l
    let src := [(e.ha.toNat, w)] ++ (if u.1 then [(e.hb.toNat, w)] else []) ++ (if u.2.1 then [(e.hm.toNat, 1)] else [])
    let ovl : AgBad := if src.any (fun r => partOverlap e.hd.toNat wd r.1 r.2) then some (scAlign, ix) else none
    ([rowsBad e.hd.toNat wd ix, ovl] ++ src.map fun r => rowsBad r.1 r.2 ix, false,
     .op sub e.hd.toNat e.ha.toNat e.hb.toNat e.hm.toNat w e.sgn e.k.toNat (x.srcX a.sb l))

/-- AGRED (R124, R391). -/
def execAgred (a : AgtArgs) (s : State) : Out :=
  agForm a s true fun c x l =>
    let e := a.e
    let w := e.wm1.toNat + 1
    let addr := x.srcX a.sb l
    let al : AgBad := if addr.toNat % 8 ≠ 0 then some (scAlign, addr) else none
    let rg := s.agRange x.ctx (dieOf c.g) addr 8
    ([rowsBad e.hd.toNat w (x.srcX a.sa l), al, rangeBad rg], rg = .freeze, .red e.hd.toNat w e.sgn addr)

end Sys2Proof.Machine
end

