-- ==== Sys2Proof/Machine/Convert.lean ====
section
/-! DEFINITION. Conversion forms (R335 to R339) and MX quantisation (R235, R236). -/

namespace Sys2Proof.Machine

/-- The type a specifier field names. -/
def opTy : Opnd → Ty
  | .tyc t => t
  | _ => .u0

/-- Element `i` of lane `l` of a V or S source, of width `w`. -/
def rawElem (x : Group) (o : Opnd) (w l i : Nat) : Nat := elem w (x.srcX o l) i

/-! ## CVT (R335, R336) -/

/-- A converted element (R336). -/
def cvtElem (dt st : Ty) (m : Mods) (b draw : Nat) : FElem :=
  match dt.kind, st.kind with
  | .float, .float => (fmtOf dt).deliver m.rnd m.sat draw ((fmtOf st).decode b).res
  | .float, _ => (fmtOf dt).deliver m.rnd m.sat draw (fOfInt (asInt st b)).res
  | _, .float => fToInt m.rnd draw (dt.kind = .int) dt.width ((fmtOf st).decode b)
  | _, _ => (fitInt dt m.sat (asInt st b), 0)

/-- Draws of a converted element: integer to integer and E8M0 conversions do not round. -/
def cvtDraws (dt st : Ty) (m : Rnd) : Nat :=
  if st = .e8m0 ∨ (dt.kind ≠ .float ∧ st.kind ≠ .float) then 0 else draws1 m

/-- The source element of destination element `e`, when `e` lies in the written range (R335). -/
def cvtSrc (dt st : Ty) (h e : Nat) : Option Nat :=
  let n := min st.count dt.count
  if dt.count < st.count then some (h * n + e)
  else if h * n ≤ e ∧ e < h * n + n then some (e - h * n)
  else none

/-- CVT (R335, R336). -/
def execCvt (a : AluArgs) (s : State) : Out :=
  let st := opTy a.sb
  let h := a.sub.toNat
  withCur s fun c x =>
    let en (l e : Nat) : Bool := x.enabled c.slotB a.hd l e && (cvtSrc a.ty st h e).isSome
    let r := floatRun x en a.ty (fun _ _ => cvtDraws a.ty st a.mods.rnd) fun l e d _ =>
      cvtElem a.ty st a.mods (rawElem x a.sa st.width l ((cvtSrc a.ty st h e).getD 0)) d
    match fpxOf x r.flags with
    | some (m, v) => s.trapMask c 0x0D 0 v m
    | none =>
      s.result c (x.afterRun r) (dstsOf a.dst) (x.laneWrites a.dst a.ty Sel.off r.val) 4 none (aluLen a)

/-! ## PACK and UNPACK (R337) -/

/-- The type of twice the width. -/
def wideTy : Ty → Ty
  | .i8 => .i16 | .i16 => .i32 | .i32 => .i64 | .i4 => .i8
  | .n8 => .n16 | .n16 => .n32 | .n32 => .n64 | .n4 => .n8
  | t => t

/-- A vector form without modifiers of narrowing: element `e` of type `t`. -/
def plainVec (a : AluArgs) (s : State) (t : Ty) (lat : Nat) (f : Group → Nat → Nat → Nat) : Out :=
  withCur s fun c x =>
    let wr := x.laneWrites a.dst t Sel.off fun l e =>
      if x.enabled c.slotB a.hd l e then some (f x l e) else none
    s.result c x (dstsOf a.dst) wr lat none (aluLen a)

/-- PACK (R337). -/
def execPack (a : AluArgs) (s : State) : Out :=
  plainVec a s a.ty 4 fun x l e =>
    let w := wideTy a.ty
    let half := a.ty.count / 2
    let b := if e < half then rawElem x a.sa w.width l e else rawElem x a.sb w.width l (e - half)
    fitInt a.ty a.mods.sat (asInt w b)

/-- Half `h` of the narrow elements, extended (R337). -/
def unpackForm (a : AluArgs) (s : State) (h : Nat) : Out :=
  plainVec a s (wideTy a.ty) 4 fun x l e =>
    let w := wideTy a.ty
    wrap w.width (asInt a.ty (rawElem x a.sa a.ty.width l (h * (a.ty.count / 2) + e)))

/-- UNPACK (R337). -/
def execUnpack (a : AluArgs) (s : State) : Out := unpackForm a s 0
/-- UNPACK.HI (R337). -/
def execUnpackHi (a : AluArgs) (s : State) : Out := unpackForm a s 1

/-! ## QMX and DQMX (R235, R236, R338, R339) -/

/-- Exponent of an MX element type's largest binade (R236). -/
def mxEmax : Ty → Int
  | .e4m3 => 8 | .e5m2 => 15 | .e3m2 => 4 | .e2m3 => 2 | .e2m1 => 2 | _ => 0

/-- An integer MX element type stands for i × 2^−k (R235). -/
def mxShift : Ty → Nat
  | .i8 => 6 | _ => 2

/-- What quantisation finds in a block (R236): the exponent X, an all-zero block, or a NaN or infinity. -/
inductive MxScale where
  | exp (x : Int)
  | zero
  | bad
  deriving DecidableEq, Repr

/-- The scale of some values (R236). -/
def mxScale (t : Ty) (vs : List FVal) : MxScale :=
  let top : FVal → Option Int
    | .fin _ m e => if m = 0 then none else some ((bitLen m : Int) - 1 + e)
    | _ => none
  if vs.any fun v => match v with | .fin _ _ _ => false | _ => true then .bad
  else match vs.filterMap top with
    | [] => .zero
    | e :: r => .exp (max (-127) (min 127 (r.foldl max e - mxEmax t)))

/-- Scale code (R236). -/
def MxScale.code : MxScale → Nat
  | .exp x => (x + 127).toNat
  | .zero => 0
  | .bad => 255

/-- A quantised element (R236): OF, NX, and NV for a signalling NaN. -/
def mxElem (t : Ty) (m : Rnd) (draw : Nat) (x : MxScale) (v : FVal) : FElem :=
  match x, v with
  | .exp k, .fin neg n e =>
    if t.kind = .float then
      let (b, fl) := (fmtOf t).deliver m true draw (.ex ⟨neg, n, e - k, false⟩ 0)
      (b, fl &&& (flOF + flNX))
    else
      let (z, inx) := roundInt m draw neg n (e - k + mxShift t)
      let y := max (-(2 ^ (t.width - 1) : Nat) : Int) (min ((2 ^ (t.width - 1) : Nat) - 1) z)
      (wrap t.width y, if y ≠ z then flOF + flNX else if inx then flNX else 0)
  | .zero, .fin neg _ _ => (if t.kind = .float then (fmtOf t).signBit neg else 0, 0)
  | _, v => (0, v.sigFl)

/-- QMX (R338). -/
def execQmx (a : AluArgs) (s : State) : Out :=
  let st := opTy a.sb
  let n := st.count
  let h := a.sub.toNat
  withCur s fun c x =>
    let en := x.enabled c.slotB a.hd
    let val (l e : Nat) : FVal := (fmtOf st).decode (rawElem x a.sa st.width l e)
    let present (k : Nat) : List FVal :=
      (List.range 32).filterMap fun i =>
        let l := (32 * k + i) / n
        let e := (32 * k + i) % n
        if en l e then some (val l e) else none
    let scales := (List.range n).map fun k => mxScale a.ty (present k)
    let scale (l e : Nat) : MxScale := (scales[(n * l + e) / 32]?).getD .zero
    let draws (l e : Nat) : Nat := match scale l e with | .exp _ => draws1 a.mods.rnd | _ => 0
    let r := floatRun x en st draws fun l e d _ => mxElem a.ty a.mods.rnd d (scale l e) (val l e)
    match fpxOf x r.flags with
    | some (m, v) => s.trapMask c 0x0D 0 v m
    | none =>
      let vw := x.laneWrites a.dst a.ty Sel.off fun l i =>
        if h * n ≤ i ∧ i < h * n + n then r.val l (i - h * n) else none
      let on := x.uniPred a.hd
      let sc := packElems 8 (scales.map MxScale.code)
      let sw := match a.sc with | .s k => if on then [RegWr.s k.toNat sc] else [] | _ => []
      let ds := dstsOf a.dst ++ (if on then dstsOf a.sc else [])
      s.result c (x.afterRun r) ds (vw ++ sw) 12 none (aluLen a)

/-- Value of an MX element before its scale (R235). -/
def mxValue (t : Ty) (b : Nat) : FVal :=
  if t.kind = .float then (fmtOf t).decode b
  else
    let i := sgn t.width b
    .fin (decide (i < 0)) i.natAbs (-(mxShift t : Int))

/-- A value times 2^k. -/
def FVal.scaled (v : FVal) (k : Int) : FVal :=
  match v with
  | .fin neg m e => .fin neg m (e + k)
  | v => v

/-- DQMX (R339). -/
def execDqmx (a : AluArgs) (s : State) : Out :=
  let t := opTy a.sc
  let n := a.ty.count
  let h := a.sub.toNat
  withCur s fun c x =>
    let sc := x.srcS a.sb
    let code (l e : Nat) : Nat := elem 8 sc ((n * l + e) / 32)
    let draws (l e : Nat) : Nat := if code l e = 255 then 0 else draws1 a.mods.rnd
    let r := floatRun x (x.enabled c.slotB a.hd) a.ty draws fun l e d _ =>
      if code l e = 255 then ((fmtOf a.ty).canonNan, 0)
      else
        let v := (mxValue t (rawElem x a.sa t.width l (h * n + e))).scaled ((code l e : Int) - 127)
        (fmtOf a.ty).deliver a.mods.rnd a.mods.sat d v.res
    match fpxOf x r.flags with
    | some (m, v) => s.trapMask c 0x0D 0 v m
    | none =>
      s.result c (x.afterRun r) (dstsOf a.dst) (x.laneWrites a.dst a.ty Sel.off r.val) 12 none (aluLen a)

end Sys2Proof.Machine
end

