-- ==== Sys2Proof/Machine/Matrix.lean ====
section
/-! DEFINITION. Spinel compute mode and the matrix sequencer: the issue of the matrix forms, acceptance, admission,
the analog and exact loops, suspension, and self-test (R241 to R264, R372 to R386). -/

namespace Sys2Proof.Machine

/-! ## Status (R260) -/

/-- MSTAT bits. -/
def msErr : Nat := 1
def msClip : Nat := 2
def msWsat : Nat := 4
def msAsat : Nat := 8
def msXlate : Nat := 16
def msFence : Nat := 32
def msCfg : Nat := 64
def msNan : Nat := 128
def msState : Nat := 256

/-- Batch number of an operation: the one that closed over it, or the next to close. -/
def State.batchOf (s : State) (o : AOp) : BitVec 16 :=
  o.batch.getD (match Tab.get? s.groups o.g with | some x => (x.bat o.cls).closed + 1 | none => 0)

/-- Event bits of a batch join a word: the first that sets ERR names its array and batch (R260). -/
def msRaise (m : W64) (bits fj n : Nat) : W64 :=
  (if bits % 2 = 1 ∧ ¬ bit64 m 0 then setFld (setFld m 42 6 fj) 16 16 n else m) ||| w64 bits

/-- Events of an operation in MSTAT; with ERR they name the first array and batch, and the batch completes with
error (R260). -/
def State.mstatSet (s : State) (o : AOp) (bits fj : Nat) : State :=
  if o.gone then s
  else
    let n := s.batchOf o
    let s := s.modGrp o.g fun x =>
      let x := if x.msAt = some s.aclk then x else { x with msAt := some s.aclk, msOld := x.mstat, msNew := 0 }
      { x with mstat := msRaise x.mstat bits fj n.toNat, msNew := msRaise x.msNew bits fj n.toNat }
    let seen : Bool := match Tab.get? s.groups o.g with
      | some x => (x.bat o.cls).faults.any fun f => f.2.cause = 0x0C && (f.1.getD n) = n
      | none => true
    if bits % 2 = 1 ∧ ¬ seen then s.pushFault o ⟨0x0C, 0, 0, none⟩ else s

/-- MSTAT as it stood before this ACLK's events (R385). -/
def Group.mstatOld (x : Group) (now : Nat) : W64 := if x.msAt = some now then x.msOld else x.mstat

/-- Clear bits of MSTAT: an event of this ACLK stays, and with ERR its array and batch (R260, R385). -/
def Group.msClear (x : Group) (now : Nat) (k : W64) : Group :=
  let e := if x.msAt = some now then x.msNew else 0
  let m := x.mstat &&& ~~~ k
  let m := if bit64 k 0 ∧ bit64 e 0 then setFld (setFld m 42 6 (fld e 42 6)) 16 16 (fld e 16 16) else m
  { x with mstat := m ||| keep e 0x1FF }

/-- MSTAT (R385): the old value is written, then the named bits are cleared. -/
def execMstat (a : MatArgs) (s : State) : Out :=
  uniform a.hd 8 s fun c x =>
    s.retire c ((x.dstS a.dst (x.mstatOld s.aclk)).msClear s.aclk (keep (x.srcS a.sa) 0x1FF)) 8

/-! ## Checks (R33, R249, R254, R373 to R381) -/

/-- Bytes of a matrix word. -/
def matLen (a : MatArgs) : Nat := if a.ext.isSome then 16 else 8

/-- A uniform matrix form of class MATRIX (R373). -/
def matForm (a : MatArgs) (s : State) (f : Cur → Group → State) : Out := uniform a.hd (matLen a) s f

/-- Trap MATRIX at the current instruction. -/
def State.trapMatrix (s : State) (c : Cur) : State := s.trapHere c 0x0C 0 0

/-- Issue a matrix operation: it joins its core's sequencer in issue order (R256, R373). -/
def State.issueMat (s : State) (c : Cur) (x : Group) (kind : OpKind) (use : Option HndUse) (len : Nat) : State :=
  let id := s.nextId
  let t := s.issueOp c x 1 kind use len
  if (Tab.get? t.ops id).isSome then t.modCore (coreOf c.g) fun k => { k with mxq := k.mxq ++ [id] } else t

/-- An array of the block lies on a core. -/
def arrHere (b : Block) (core j : Nat) : Bool := j < b.narr && b.arrCore j = core

/-- Tiles `t` to `t + n - 1` are granted on a core. -/
def tilesOk (b : Block) (core t n : Nat) : Bool := (List.range n).all fun i => (b.tileOf core (t + i)).isSome

/-- An end in virtual memory or scratch. -/
def matLoc (scr : Bool) (a : W64) : ELoc := if scr then .sc a else .va a

/-- A profile entry has no illegal field (R249). -/
def pptLegal (e : W64) : Bool :=
  keep e 0xFFFFFFFF0D0CF0E2 = 0 && fld e 2 3 ≤ 4 && fld e 8 4 ≤ 8 && fld e 21 3 ≤ 4 && fld e 28 4 ≤ 8 &&
  (fld e 28 4 < 7 || bit64 e 0)

/-- MX types, or both of one 16-bit type (R379). -/
def pairOk (at' bt : Ty) : Bool :=
  if at' = .f16 ∨ at' = .bf16 ∨ bt = .f16 ∨ bt = .bf16 then at' = bt
  else [Ty.i8, .e4m3, .e5m2, .e3m2, .e2m3, .e2m1, .i4].contains bt

/-- Tiles a loop writes (R377). -/
def Loop.width (l : Loop) : Nat := if l.exact then l.en / 32 else if bit64 l.ppt 17 then 4 else 8

/-- The exact-path checks of R377 and R379. -/
def Loop.exactOk (l : Loop) : Bool :=
  !l.exact || (l.ebt ≠ .u0 && pairOk (pptType l.ppt) l.ebt &&
    (bit64 l.cfg2 63 || l.en * 32 * matWidth l.ebt ≤ 32768))

/-- The A range of a loop: its first byte and its length (R377). -/
def Loop.range (l : Loop) : ELoc × Nat :=
  let off : Int := if matMx (pptType l.ppt) then sgn 32 (fld l.cfg0 32 32) else 0
  let top : Int := if matMx (pptType l.ppt) then max (l.seg : Int) (off + 8) else l.seg
  let lo := min 0 off
  let span := (l.m - 1) * l.stride + (l.ks - 1) * l.kinc
  let base (x : W64) : W64 := x + w64 (wrap 64 lo)
  (match l.base with | .sc a => .sc (base a) | b => .va (base b.addr), ((span : Int) + top - lo).toNat)

/-- A loop with the profile and configuration in force (R249, R375). -/
def State.loopNow (s : State) (ctx : Ctx) (b : Block) (l : Loop) : Loop :=
  { l with ppt := Tab.getD ctx.ppt 0 l.prof, cfg0 := b.mxcfg0, cfg1 := b.mxcfg1, cfg2 := b.mxcfg2,
           exactv := bit64 ctx.mxctl 0, since := s.aclk, ask := s.aclk, ran := false }

/-- The checks of R377 that do not depend on the profile or the configuration. -/
def loopFixed (b : Block) (core : Nat) (l : Loop) : Bool :=
  l.ks ≤ 24 && 1 ≤ l.ks && 1 ≤ l.m && l.m ≤ 32 && l.j0 + l.ks ≤ b.narr &&
  (List.range l.ks).all fun i => arrHere b core (l.j0 + i)

/-- The checks that do (R377 to R379). -/
def loopVaries (b : Block) (core : Nat) (l : Loop) : Bool :=
  tilesOk b core l.t0 l.width && pptLegal l.ppt && l.exactOk

/-! ## Issue -/

/-- MPPT (R374). -/
def execMppt (a : MatArgs) (s : State) : Out :=
  matForm a s fun c x =>
    let p := x.srcS a.sa
    let r := s.rangeSt x (dieOf c.g) (.va p) 128
    if r = .freeze then s.freeze c.g 1
    else if p.toNat % 8 ≠ 0 then s.trapHere c 0x04 scAlign p
    else s.ifRanges c [r] (s.issueMat c x (.mppt p) none (matLen a))

/-- Reserved fields and EBT of a configuration are legal (R375). -/
def cfgLegal (c1 c2 : W64) : Bool :=
  [0, 1, 9, 10, 13, 14, 15, 16, 17, 18].contains (fld c1 59 5) && fld c2 56 7 = 0

/-- MCFG (R375). -/
def execMcfg (a : MatArgs) (s : State) : Out :=
  matForm a s fun c x =>
    let c0 := x.srcRun a.sa 0
    let c1 := x.srcRun a.sa 1
    let c2 := x.srcRun a.sa 2
    if cfgLegal c1 c2 then s.issueMat c x (.mcfg c0 c1 c2) none (matLen a) else s.trapMatrix c

/-- MADMIT (R376). -/
def execMadmit (a : MatArgs) (s : State) : Out :=
  matForm a s fun c x =>
    let b := s.blk x.blk
    let e := a.e
    let j := e.arr.toNat
    let src := matLoc e.scr (x.srcS a.sa)
    let scl := matLoc e.scr (x.srcS a.sb)
    let (n, m) := admitBytes e.bt e.ww
    let rs := [s.rangeSt x (dieOf c.g) src n, s.rangeSt x (dieOf c.g) scl m]
    if rs.contains .freeze then s.freeze c.g 1
    else if ¬ arrHere b (coreOf c.g) j then s.trapMatrix c
    else if src.addr.toNat % 4 ≠ 0 then s.trapHere c 0x04 scAlign src.addr
    else if scl.addr.toNat % 8 ≠ 0 then s.trapHere c 0x04 scAlign scl.addr
    else s.ifRanges c rs
      (s.issueMat c x (.madmit j src scl e.bt e.ww) (hndUse a.sc true 0 0) (matLen a))

/-- MRELEASE (R376). -/
def execMrelease (a : MatArgs) (s : State) : Out :=
  matForm a s fun c x =>
    if arrHere (s.blk x.blk) (coreOf c.g) a.e.arr.toNat then
      s.issueMat c x (.mrelease a.e.arr.toNat) none (matLen a)
    else s.trapMatrix c

/-- MSTEST (R376). -/
def execMstest (a : MatArgs) (s : State) : Out :=
  matForm a s fun c x =>
    if arrHere (s.blk x.blk) (coreOf c.g) a.e.arr.toNat then
      s.issueMat c x (.mstest a.e.arr.toNat) none (matLen a)
    else s.trapMatrix c

/-- A loop as its instruction gives it. -/
def loopOf (a : MatArgs) (x : Group) : Loop :=
  let e := a.e
  let sb := x.srcS a.sb
  { base := matLoc e.scr (x.srcS a.sa), stride := fld sb 32 32, kinc := fld sb 0 32, prof := e.prof.toNat,
    t0 := e.tile.toNat, j0 := e.arr.toNat, ks := e.ksm1.toNat + 1, m := e.mm1.toNat + 1, row := 0, step := 0,
    low := false, ppt := 0, cfg0 := 0, cfg1 := 0, cfg2 := 0, exactv := false, busy := false, since := 0, ask := 0,
    ran := false }

/-- MLOOP (R254, R377, R379). -/
def execMloop (a : MatArgs) (s : State) : Out :=
  matForm a s fun c x =>
    let b := s.blk x.blk
    let l := s.loopNow (s.ctx x.ctx) b (loopOf a x)
    let (loc, n) := l.range
    let r := s.rangeSt x (dieOf c.g) loc n
    if r = .freeze then s.freeze c.g 1
    else if ¬ loopFixed b (coreOf c.g) l ∨ ¬ loopVaries b (coreOf c.g) l then s.trapMatrix c
    else if l.base.addr.toNat % 4 ≠ 0 ∨ l.stride % 4 ≠ 0 ∨ l.kinc % 4 ≠ 0 then
      s.trapHere c 0x04 scAlign l.base.addr
    else s.ifRanges c [r] (s.issueMat c x (.mloop l) (hndUse a.sc true 0 0) (matLen a))

/-- MACLR (R380). -/
def execMaclr (a : MatArgs) (s : State) : Out :=
  matForm a s fun c x =>
    let n := a.e.ksm1.toNat + 1
    if n ≤ 16 ∧ tilesOk (s.blk x.blk) (coreOf c.g) a.e.tile.toNat n then
      s.issueMat c x (.maclr a.e.tile.toNat n) none (matLen a)
    else s.trapMatrix c

/-- MAMOV (R380): equal ranges are legal, a partial overlap is not. -/
def mamovForm (a : MatArgs) (s : State) (add : Bool) : Out :=
  matForm a s fun c x =>
    let n := a.e.ksm1.toNat + 1
    let t := a.e.tile.toNat
    let u := a.e.arr.toNat
    let b := s.blk x.blk
    let apart := t = u ∨ t + n ≤ u ∨ u + n ≤ t
    if n ≤ 16 ∧ tilesOk b (coreOf c.g) t n ∧ tilesOk b (coreOf c.g) u n ∧ apart then
      s.issueMat c x (.mamov add t u n) none (matLen a)
    else s.trapMatrix c

/-- MAMOV.CPY (R380). -/
def execMamovCpy (a : MatArgs) (s : State) : Out := mamovForm a s false
/-- MAMOV.ADD (R380). -/
def execMamovAdd (a : MatArgs) (s : State) : Out := mamovForm a s true

/-- The checks of MALOAD and MASTORE (R381), in their order. -/
def imageForm (a : MatArgs) (s : State) (width : Nat) (ok : Group → Bool) (f : Cur → Group → ELoc → Nat → State) :
    Out :=
  matForm a s fun c x =>
    let n := a.e.ksm1.toNat + 1
    let loc := matLoc a.e.scr (x.srcS a.sa)
    let r := s.rangeSt x (dieOf c.g) loc (1024 * width * n)
    if r = .freeze then s.freeze c.g 1
    else if ¬ (n ≤ 16 ∧ tilesOk (s.blk x.blk) (coreOf c.g) a.e.tile.toNat n) ∨ ¬ ok x then s.trapMatrix c
    else if loc.addr.toNat % width ≠ 0 then s.trapHere c 0x04 scAlign loc.addr
    else s.ifRanges c [r] (f c x loc n)

/-- MALOAD (R381). -/
def execMaload (a : MatArgs) (s : State) : Out :=
  imageForm a s 4 (fun _ => true) fun c x loc n =>
    s.issueMat c x (.move (.tile a.e.tile.toNat 0 .f32 .rne false) loc (4096 * n)) none (matLen a)

/-- MASTORE takes its mode and saturation from a legal profile entry whose ORND is not RSX (R381). -/
def storeLegal (e : W64) : Bool := pptLegal e && fld e 21 3 ≠ 4

/-- MASTORE (R381). -/
def execMastore (a : MatArgs) (s : State) : Out :=
  imageForm a s (a.ty.width / 8) (fun x => storeLegal (Tab.getD (s.ctx x.ctx).ppt 0 a.e.prof.toNat)) fun c x loc n =>
    s.issueMat c x (.mastore a.ty loc a.e.tile.toNat n a.e.prof.toNat) none (matLen a)

/-! ## Suspended loops (R258, R259, R384) -/

/-- MPROG registers of a suspended loop. -/
def Loop.prog (l : Loop) (batch : BitVec 16) (cause subc : Nat) : List W64 :=
  let scr := match l.base with | .sc _ => true | _ => false
  let high := !l.exact && bit64 l.ppt 16 && !l.low
  [w64 (2 ^ 63 + b2n scr * 2 ^ 62) ||| keep l.base.addr (2 ^ 56 - 1),
   w64 (l.stride * 2 ^ 32 + l.kinc),
   w64 (batch.toNat * 2 ^ 32 + l.prof * 2 ^ 28 + l.t0 * 2 ^ 24 + l.j0 * 2 ^ 18 + l.ks * 2 ^ 13 + l.m * 2 ^ 7),
   w64 (subc * 2 ^ 20 + cause * 2 ^ 18 + b2n high * 2 ^ 17 + l.row * 2 ^ 11 + l.step * 2 ^ 6)]

/-- The loop MPROG0 to MPROG3 hold. -/
def Group.progLoop (x : Group) : Loop :=
  let scr := bit64 x.mprog0 62
  { base := matLoc scr (keep x.mprog0 (2 ^ 56 - 1)), stride := fld x.mprog1 32 32, kinc := fld x.mprog1 0 32,
    prof := fld x.mprog2 28 4, t0 := fld x.mprog2 24 4, j0 := fld x.mprog2 18 6, ks := fld x.mprog2 13 5,
    m := fld x.mprog2 7 6, row := fld x.mprog3 11 6, step := fld x.mprog3 6 5, low := !bit64 x.mprog3 17,
    ppt := 0, cfg0 := 0, cfg1 := 0, cfg2 := 0, exactv := false, busy := false, since := 0, ask := 0,
    ran := false }

/-- Arrays an operation names (R252, R254). -/
def opArrays (k : OpKind) : List Nat :=
  match k with
  | .madmit j _ _ _ _ | .mrelease j | .mstest j => [j]
  | .mloop l => (List.range l.ks).map fun i => l.j0 + i
  | _ => []

/-- Free the arrays an operation occupies. -/
def State.freeArrays (s : State) (o : AOp) : State :=
  let b := s.blk o.blk
  (opArrays o.kind).foldl (fun s j =>
    s.modArr (b.arrKey j) fun a => if a.busy = some o.id then { a with busy := none } else a) s

/-- A wait for the group's running loop (R256, R259). -/
def Wait.onLoop (w : Wait) : Bool := w = .loop || w = .stall

/-- An operation of the sequencer is complete. -/
def State.matGone (s : State) (id : Nat) : State :=
  match Tab.get? s.ops id with
  | none => s
  | some o =>
    let s := (s.freeArrays o).modCore o.core fun k =>
      { k with mxq := k.mxq.erase id, mxHold := if k.mxHold = some id then none else k.mxHold }
    let isLoop := match o.kind with | .mloop _ => true | _ => false
    let s := s.opGone id
    if isLoop then s.wake o.g Wait.onLoop else s

/-- A slot at which a deferred trap may be taken (R258): it has nothing under way that its instruction began. -/
def Slot.between (t : Slot) : Bool :=
  match t.wait with
  | .gate _ _ _ | .ggate _ _ | .gateBusy _ | .sig _ | .welt _ _ _ | .rendezvous _ _ | .fusing _ _ _ | .xshfl _ => false
  | _ => true

/-- A loop suspended by a refusal has its group trap XLATE before the next instruction it issues (R258); at a WAITB or
WAITC the trap is deferred (R396). -/
def State.reportLoop (s : State) (o : AOp) : State :=
  match o.dfr, Tab.get? s.groups o.g with
  | some d, some x =>
    let b := o.slotB && x.bLive
    let t := x.slot b
    if x.trap.isNone ∧ ¬ x.faults.any x.faultDue ∧ ¬ x.dead ∧ x.a.between ∧ (¬ x.bLive ∨ x.b.between) then
      let atWait : Bool := match t.wait with | .batch _ _ => true | _ => false
      (s.modOp o.id fun o => { o with dfr := none }).raise o.g
        { x.trapOf b d.cause.toNat d.subc.toNat d.val t.exm with defer := atWait }
    else s
  | _, _ => s

/-- Suspend a loop at a step boundary (R258, R259); of a group that has ended it ends. -/
def State.suspend (s : State) (id cause : Nat) (d : Option Deferred) : State :=
  match Tab.get? s.ops id with
  | none => s
  | some o =>
    match o.kind with
    | .mloop l =>
      if o.gone then s.matGone id
      else
        let sub := match d with | some f => f.subc.toNat | none => 0
        let w := l.prog (s.batchOf o) cause sub
        let s := (s.freeArrays o).modOp id fun o =>
          { o with susp := true, stopReq := false, started := false, got := [], refused := [], dfr := d,
                   kind := .mloop { l with busy := false } }
        let s := s.modCore o.core fun k => { k with mxq := k.mxq.erase id }
        let s := s.modGrp o.g fun x =>
          { x with mprog0 := (w[0]?).getD 0, mprog1 := (w[1]?).getD 0, mprog2 := (w[2]?).getD 0,
                   mprog3 := (w[3]?).getD 0 }
        (match d with | some _ => s.reportLoop { o with dfr := d } | none => s).wake o.g Wait.onLoop
    | _ => s

/-- TRET's checks of a suspended loop (R259, R317). -/
def State.progOk (s : State) (g : Nat) (x : Group) : Bool :=
  let b := s.blk x.blk
  let l := s.loopNow (s.ctx x.ctx) b x.progLoop
  let (loc, n) := l.range
  loopFixed b (coreOf g) l && loopVaries b (coreOf g) l && l.row < l.m && l.step < l.ks &&
  l.base.addr.toNat % 4 = 0 && l.stride % 4 = 0 && l.kinc % 4 = 0 && s.rangeSt x (dieOf g) loc n = .ok

/-- Re-submit the loop of MPROG to the sequencer, in its batch (R258, R317): a batch counted complete since waits for
it again. -/
def State.resubmit (s : State) (c : Cur) : State :=
  match Tab.get? s.groups c.g with
  | none => s
  | some x =>
    let l := x.progLoop
    let n : BitVec 16 := .ofNat 16 (fld x.mprog2 32 16)
    let x := { x with mprog0 := setFld x.mprog0 63 1 0 }
    let s := s.setGrp c.g x
    let put (s : State) (id : Nat) : State := s.modCore (coreOf c.g) fun k => { k with mxq := k.mxq ++ [id] }
    match s.ops.find? fun e => e.2.susp && e.2.g = c.g && !e.2.gone && s.batchOf e.2 = n with
    | some (id, _) =>
      put (s.modOp id fun o => { o with susp := false, dfr := none, kind := .mloop l, lim := l.m * l.ks, after := [] }) id
    | none =>
      let b := x.bat 1
      let o := { s.mkOp c x 1 (.mloop l) none with after := [] }
      let ahead := (n - b.closed).toNat
      let unclosed := 1 ≤ ahead ∧ ahead < 2 ^ 15
      let b := if unclosed then { b with cur := b.cur ++ [o.id] }
        else { b with wait := Tab.put b.wait n.toNat (((Tab.get? b.wait n.toNat).getD []) ++ [o.id]),
                      done := if b.complete n then n - 1 else b.done }
      let o := { o with batch := if unclosed then none else some n }
      let s := { s with nextId := s.nextId + 1, ops := Tab.put s.ops o.id o }
      put (s.modGrp c.g fun x => x.setBat 1 b) o.id

/-- MPROG.RD (R384): it waits until no running loop of the group is left to suspend. -/
def execMprogRd (a : MatArgs) (s : State) : Out :=
  uniform a.hd 8 s fun c x =>
    if x.level = 0 then s.privTrap c (.mprogRd a)
    else if s.loopRuns c.g then s.block c x .loop 8
    else
      let n := match a.dst with | .s n => n.toNat | _ => 0
      s.retire c ((((x.setS n x.mprog0).setS (n + 1) x.mprog1).setS (n + 2) x.mprog2).setS (n + 3) x.mprog3) 8

/-- Reserved bits of MPROG0 to MPROG3 are not written (R384). -/
def progMask (i : Nat) : Nat :=
  match i with
  | 0 => 2 ^ 63 + 2 ^ 62 + (2 ^ 56 - 1)
  | 1 => 2 ^ 64 - 1
  | 2 => 2 ^ 48 - 2 ^ 7
  | _ => 2 ^ 24 - 2 ^ 6

/-- MPROG.WR (R384). -/
def execMprogWr (a : MatArgs) (s : State) : Out :=
  uniform a.hd 8 s fun c x =>
    if x.level = 0 then s.privTrap c (.mprogWr a)
    else if s.loopRuns c.g then s.block c x .loop 8
    else
      let w (i : Nat) : W64 := keep (x.srcRun a.sa i) (progMask i)
      s.retire c { x with mprog0 := w 0, mprog1 := w 1, mprog2 := w 2, mprog3 := w 3 } 8

/-! ## Admission (R242 to R244, R252, R253) -/

/-- Alignment exponent P of an element type (R244). -/
def alignP : Ty → Int
  | .e4m3 => 9 | .e5m2 => 16 | .e3m2 => 5 | .e2m3 => 3 | .e2m1 => 3 | _ => 1

/-- Element `k` of a bitstream given as one number. -/
def streamElem (t : Ty) (x k : Nat) : Nat := bitsN x (matWidth t * k) (matWidth t)

/-- Aligned integers of 256 elements under eight scales at width `w`: none when a scale is 0xFF or an element is a NaN
or an infinity; otherwise the largest scale, the integers, and whether one was clamped (R244, R245). -/
def alignElems (t : Ty) (w x : Nat) (scales : List Nat) : Option (Nat × List Int × Bool) :=
  let top := scales.foldl max 0
  let g := alignP t - (w : Int) + 1
  let hi : Int := (2 ^ (w - 1) : Nat) - 1
  let lo : Int := -((2 ^ (w - 1) : Nat) : Int)
  let q (k : Nat) : Option Int :=
    match mxValue t (streamElem t x k) with
    | .fin neg m e => some (roundInt .rne 0 neg m (e + (((scales[k / 32]?).getD 0 : Nat) : Int) - top - g)).1
    | _ => none
  let qs := (List.range 256).map q
  if scales.contains 255 ∨ qs.contains none then none
  else
    let zs := qs.filterMap id
    some (top, zs.map fun z => max lo (min hi z), zs.any fun z => z < lo || hi < z)

/-- The aligned byte layout of R242. -/
def setU (ww8 : Bool) (cells : Tab Byte) (k n u : Nat) : Tab Byte :=
  if ww8 then Tab.set cells 0 (128 * k + n) (.ofNat 8 u)
  else
    let a := 128 * k + n / 2
    let old := (Tab.getD cells 0 a).toNat
    Tab.set cells 0 a (.ofNat 8 (if n % 2 = 0 then old / 16 * 16 + u % 16 else old % 16 + 16 * (u % 16)))

/-- Offset-binary weight of row `k`, column `n`. -/
def Arr.u (a : Arr) (k n : Nat) : Nat :=
  if a.ww8 then (Tab.getD a.cells 0 (128 * k + n)).toNat
  else (Tab.getD a.cells 0 (128 * k + n / 2)).toNat / 16 ^ (n % 2) % 16

/-- The bytes an operation's granules `lo` to `hi - 1` returned. -/
def AOp.bytes (o : AOp) (lo hi : Nat) : List Byte := (List.range (hi - lo)).flatMap fun k => (o.data (lo + k)).getD []

/-- One column of an admission: its exponent, its weights and whether one saturated. -/
def admitCol (bt : Ty) (ww n : Nat) (src scl : List Byte) : Nat × List Nat × Bool :=
  let w := 32 * matWidth bt
  let x := natOfBytes ((src.drop (n * w)).take w)
  let sc := ((scl.drop (8 * n)).take 8).map BitVec.toNat
  match alignElems bt ww x sc with
  | none => (255, List.replicate 256 (2 ^ (ww - 1)), false)
  | some (e, zs, sat) => (e, zs.map fun (z : Int) => (z + ((2 ^ (ww - 1) : Nat) : Int)).toNat, sat)

/-- The array after an admission, and whether a weight saturated. -/
def admitted (a : Arr) (bt : Ty) (ww8 : Bool) (src scl : List Byte) : Arr × Bool :=
  let n := if ww8 then 128 else 256
  let ww := if ww8 then 8 else 4
  if bt = .u0 then
    ({ a with st := .compute, ww8 := ww8, cells := (numbered 0 src).foldl (fun t e => Tab.set t 0 e.1 e.2) [],
              ec := (numbered 0 (scl.take n)).foldl (fun t e => Tab.set t 0 e.1 e.2) [],
              g := sgn 8 ((scl[256]?).getD 0).toNat, busy := none }, false)
  else
    let cols := (List.range n).map fun i => admitCol bt ww i src scl
    let cells := (numbered 0 cols).foldl (fun t c =>
      (numbered 0 c.2.2.1).foldl (fun t e => setU ww8 t e.1 c.1 e.2) t) a.cells
    ({ a with st := .compute, ww8 := ww8, cells := cells,
              ec := (numbered 0 cols).foldl (fun t c => Tab.set t 0 c.1 (.ofNat 8 c.2.1)) [],
              g := alignP bt - ww + 1, busy := none }, cols.any fun c => c.2.2)

/-- MADMIT_COMPLETE (R253): the tile is written and the array computes. DESIGN CHOICE (assumption 114): until then a load
of the array returns the bytes from before the admission, of the two R59 allows. -/
def State.admitDone (s : State) (id : Nat) : State :=
  match Tab.get? s.ops id with
  | none => s
  | some o =>
    match o.kind with
    | .madmit j _ _ bt ww8 =>
      let k := (s.blk o.blk).arrKey j
      let n := (admitBytes bt ww8).1 / 128
      let (a, sat) := admitted (s.arr k) bt ww8 (o.bytes 0 n) (o.bytes n o.kind.total)
      let s := s.modArr k fun _ => a
      (if sat then s.mstatSet o msWsat j else s).matGone id
    | _ => s

/-- MRELEASE_COMPLETE (R252, R253): the cells stay, the side state goes. -/
def State.releaseDone (s : State) (id : Nat) : State :=
  match Tab.get? s.ops id with
  | none => s
  | some o =>
    match o.kind with
    | .mrelease j =>
      let upd (a : Arr) : Arr :=
        if a.st = .switching then { a with st := .storage, ec := [], g := 0, ww8 := false } else a
      (s.modArr ((s.blk o.blk).arrKey j) upd).matGone id
    | _ => s

/-! ## Self-test (R261, R262) -/

/-- An array is due for its periodic test. -/
def State.testDue (s : State) (core : Nat) (a : Arr) : Bool :=
  let n := (s.core core).mstiv.toNat
  a.st = .compute && n ≠ 0 && n ≤ a.steps && a.test.isNone

/-- Fence an array (R262). -/
def State.fenceArr (s : State) (k : Nat) : State :=
  let s := s.modArr k fun a => { a with st := .fenced }
  s.modCore (k / 24) fun c => { c with mcap := c.mcap &&& ~~~ .ofNat 24 (2 ^ (k % 24)) }

/-- Start a test of an array: it takes 800 ACLK, this one the first (R261, R386). -/
def State.startTest (s : State) (k : Nat) (op : Option Nat) : State :=
  s.modArr k fun a => { a with test := some (s.aclk + 799, op) }

/-! ## The loop's arithmetic (R237, R238, R245 to R251) -/

/-- An F32 element plus an exact value, rounded once. -/
def addF32 (acc : Nat) (d : FVal) : Nat := roundF32 (fAdd .rne ((fmtOf .f32).decode acc) d)

/-- Add to element (m, n) of the loop's tiles. -/
def State.accAdd (s : State) (b : Block) (core : Nat) (l : Loop) (m n : Nat) (d : FVal) : State :=
  let t := l.t0 + n / 32
  let e := 32 * m + n % 32
  s.setTile b core t e (addF32 (s.tileElem b core t e) d)

/-- Nibble of row `k` on sum line `i` (R242). -/
def Arr.nibble (a : Arr) (k i : Nat) : Nat := if a.ww8 then a.u k (i / 2) / 16 ^ (i % 2) % 16 else a.u k i

/-- The analog quantity S of line `i` under a slice (R246). -/
def Arr.lineSum (a : Arr) (sl : List Nat) (i : Nat) : Nat :=
  (numbered 0 sl).foldl (fun t e => t + e.2 * a.nibble e.1 i) 0

/-- What conversions of a slice over the sum lines of an array read: estimates × 2 rep by line, whether one clipped,
and the count of free values used (R246, R247). -/
def convertLines (a : Arr) (sl : List Nat) (g rep fresh : Nat) : List Int × Bool :=
  let sum := sl.foldl (· + ·) 0
  let line (i : Nat) : Int × Bool :=
    let u := (List.range 256).foldl (fun t k => t + a.nibble k i) 0
    let sv := a.lineSum sl i
    let cen := 2 ^ g * (sum * u / 2 ^ (8 + g))
    let ideal := ((sv : Int) - (cen : Int)) / ((2 ^ g : Nat) : Int) + 128
    let code (r : Nat) : Nat :=
      if ideal < 0 then 0 else if 255 < ideal then 255 else (Config.converter (fresh + i * rep + r)).toNat
    let cs := (List.range rep).foldl (fun t r => t + code r) 0
    (2 * rep * (cen : Int) + 2 ^ (g + 1) * ((cs : Int) - 128 * rep) + 2 ^ g * (rep : Int), ideal < 0 || 255 < ideal)
  let ls := (List.range 256).map line
  (ls.map fun e => e.1, ls.any fun e => e.2)

/-- The slices of a self-test's pattern (R261): all 15, all 0, 15 and 0 in turn by k, and the low four bits of xorshift
draws. DEDUCED (assumption 102). -/
def testPattern (p : Nat) : List Nat :=
  match p with
  | 0 => List.replicate 256 15
  | 1 => List.replicate 256 0
  | 2 => (List.range 256).map fun k => if k % 2 = 0 then 15 else 0
  | _ => ((List.range 256).foldl (fun (a : List Nat × W32) _ =>
      let x := xorshift a.2
      (a.1 ++ [x.toNat % 16], x)) ([], 0x5A5A5A5A)).1

/-- Deviations |Ŝ − S| × 32 of the lines of an array under a pattern at gain code `g`, at rep = 16 (R261). -/
def testLines (a : Arr) (sl : List Nat) (g fresh : Nat) : List Nat :=
  (numbered 0 (convertLines a sl g 16 fresh).1).map fun e => (e.2 - 32 * (a.lineSum sl e.1 : Int)).natAbs

/-- A column group of 32 lines fails: a mean above 2.0 × 2^G, or a line above 6.0 × 2^G (R261). -/
def groupFails (ds : List Nat) (g : Nat) : Bool :=
  32 * 32 * 2 * 2 ^ g < ds.foldl (· + ·) 0 || ds.any fun d => 32 * 6 * 2 ^ g < d

/-- The self-test of an array fails, its conversions drawn from `fresh` on (R261). -/
def testFails (a : Arr) (fresh : Nat) : Bool :=
  (List.range 36).any fun i =>
    let ds := testLines a (testPattern (i % 4)) (i / 4) (fresh + 4096 * i)
    (List.range 8).any fun q => groupFails ((ds.drop (32 * q)).take 32) (i / 4)

/-- A test ends (R261, R262). -/
def State.endTest (s : State) (k : Nat) : State :=
  match (s.arr k).test with
  | none => s
  | some (_, op) =>
    let fail := testFails (s.arr k) s.fresh
    let s := s.modArr k fun a => { a with test := none, steps := 0 }
    let s := { s with fresh := s.fresh + 4096 * 36 }
    let s := if fail then s.fenceArr k else s
    match op with
    | none => s
    | some id =>
      match Tab.get? s.ops id with
      | none => s
      | some o =>
        let j := match o.kind with | .mstest j => j | _ => 0
        (if fail then s.mstatSet o (msFence + msErr) j else s).matGone id

/-- A segment aligned for a loop: its data and scales as read (R245). -/
def Loop.aligned (l : Loop) (data : List Byte) : Option (Nat × List Int × Bool) :=
  let wa : Nat := if bit64 l.ppt 16 then 8 else 4
  alignElems (pptType l.ppt) wa (natOfBytes (data.take l.seg)) (((data.drop l.seg).take 8).map BitVec.toNat)

/-- Weight of a column that reads the array (R241). -/
def Arr.cols (a : Arr) : Nat := if a.ww8 then 128 else 256

/-- One slice of one step (R248): `zs` are the aligned activations, `sg` the slice's σ. -/
def State.analogSlice (s : State) (b : Block) (core : Nat) (l : Loop) (m : Nat) (a : Arr) (ea : Nat) (zs : List Int)
    (sg : Nat) : State × Bool :=
  let wa : Nat := if bit64 l.ppt 16 then 8 else 4
  let ww : Nat := if a.ww8 then 8 else 4
  let oa : Int := ((2 ^ (wa - 1) : Nat) : Int)
  let ow : Int := ((2 ^ (ww - 1) : Nat) : Int)
  let ua := zs.map fun z => (z + oa).toNat
  let sl := ua.map fun u => if wa = 8 then (if sg = 1 then u / 16 else u % 16) else u
  let g := fld l.ppt 8 4
  let rl := fld l.ppt 2 3
  let rep := 2 ^ rl
  let (est, clip) := convertLines a sl g rep s.fresh
  let sum : Int := (sl.foldl (· + ·) 0 : Nat)
  let at' (i : Nat) : Int := (est[i]?).getD 0
  let ga := alignP (pptType l.ppt) - wa + 1
  let one (s : State) (n : Nat) : State :=
    let ec := (Tab.getD a.ec 0 n).toNat
    if ec = 255 then s.accAdd b core l m n (.nan false)
    else
      let e := if a.ww8 then 16 * at' (2 * n + 1) + at' (2 * n) else at' n
      let t := (e - ow * sum * (2 * rep)) * 2 ^ (4 * sg)
      let un : Int := ((List.range 256).foldl (fun t k => t + a.u k n) 0 : Nat)
      let t := if sg = 0 then t + (256 * oa * ow - oa * un) * (2 * rep) else t
      s.accAdd b core l m n
        (.fin (decide (t < 0)) t.natAbs ((ec : Int) + ea - 254 + a.g + ga - 1 - rl))
  ({ (List.range a.cols).foldl one s with fresh := s.fresh + 256 * rep }, clip)

/-- The exact sum of a step on aligned operands (R251). -/
def State.verifyStep (s : State) (b : Block) (core : Nat) (l : Loop) (m : Nat) (a : Arr) (ea : Nat) (zs : List Int) :
    State :=
  let wa : Nat := if bit64 l.ppt 16 then 8 else 4
  let ow : Int := if a.ww8 then 128 else 8
  let ga := alignP (pptType l.ppt) - wa + 1
  (List.range a.cols).foldl (fun s n =>
    let ec := (Tab.getD a.ec 0 n).toNat
    if ec = 255 then s.accAdd b core l m n (.nan false)
    else
      let t := (numbered 0 zs).foldl (fun (t : Int) e => t + e.2 * ((a.u e.1 n : Int) - ow)) 0
      s.accAdd b core l m n (.fin (decide (t < 0)) t.natAbs ((ec : Int) + ea - 254 + a.g + ga))) s

/-- Some column of an array is invalid (R244). -/
def Arr.badCol (a : Arr) : Bool := (List.range a.cols).any fun n => Tab.getD a.ec 0 n = 255

/-- One step of an analog loop: its high slice, its low slice or both, or the verification step (R248, R251, R255). -/
def State.analogStep (s : State) (o : AOp) (l : Loop) (m j : Nat) (hi lo : Bool) (data : List Byte) : State :=
  let b := s.blk o.blk
  let a := s.arr (b.arrKey (l.j0 + j))
  let satb := bit64 l.ppt 25
  let wide := bit64 l.ppt 16
  let n := if l.exactv then 0 else if wide then b2n hi + b2n lo else 1
  let count (s : State) : State :=
    if n = 0 then s
    else (s.modArr (b.arrKey (l.j0 + j)) fun a => { a with steps := a.steps + n }).countEvent o.g 0x40 n
  if a.st = .fenced then s
  else match l.aligned data with
  | none =>
    let s := (List.range a.cols).foldl (fun s n => s.accAdd b o.core l m n (.nan false)) s
    (count s).mstatSet o msNan (l.j0 + j)
  | some (ea, zs, sat) =>
    let (s, clip) :=
      if l.exactv then (s.verifyStep b o.core l m a ea zs, false)
      else if wide then
        let (s, c1) := if hi then s.analogSlice b o.core l m a ea zs 1 else (s, false)
        let (s, c0) := if lo then s.analogSlice b o.core l m a ea zs 0 else (s, false)
        (s, c1 || c0)
      else s.analogSlice b o.core l m a ea zs 0
    let s := count s
    let s := if a.badCol then s.mstatSet o msNan (l.j0 + j) else s
    let s := if sat then s.mstatSet o (msAsat + b2n satb) (l.j0 + j) else s
    if clip then s.mstatSet o (msClip + b2n satb) (l.j0 + j) else s

/-- Value of an element of the exact path (R235, R237). -/
def exactVal (t : Ty) (x k : Nat) : FVal :=
  if matMx t then mxValue t (streamElem t x k) else (fmtOf t).decode (streamElem t x k)

/-- One block of 32 products, scaled (R237). -/
def blockSum (ta tb : Ty) (xa xb k sa sb : Nat) : FVal :=
  if sa = 255 ∨ sb = 255 then .nan false
  else
    let p := (List.range 32).foldl (fun (p : FVal) i =>
      let q := (fMul (exactVal ta xa (32 * k + i)) (exactVal tb xb (32 * k + i))).val
      if i = 0 then q else (fAdd .rne p q).val) (.fin false 0 0)
    p.scaled (((sa + sb : Nat) : Int) - 254)

/-- One step of an exact loop (R237, R250, R379): B from the array's cells or from memory. -/
def State.exactStep (s : State) (o : AOp) (l : Loop) (m j : Nat) (data : List Byte) : State :=
  let b := s.blk o.blk
  let ta := pptType l.ppt
  let tb := l.ebt
  let nb := l.en * 32 * matWidth tb
  let na := l.seg + (if matMx ta then 8 else 0)
  let esrc := bit64 l.cfg2 63
  let bdat := if esrc then (data.drop na).take nb else s.arrBytes (b.arrKey (l.j0 + j)) 0 nb
  let bscl := data.drop (na + if esrc then nb else 0)
  let xa := natOfBytes (data.take l.seg)
  let scale (mx : Bool) (d : List Byte) (i : Nat) : Nat := if mx then ((d[i]?).getD 0).toNat else 127
  let w := 32 * matWidth tb
  let col (s : State) (n : Nat) : State :=
    let xb := natOfBytes ((bdat.drop (n * w)).take w)
    (List.range 8).foldl (fun s k =>
      s.accAdd b o.core l m n
        (blockSum ta tb xa xb k (scale (matMx ta) (data.drop l.seg) k) (scale (matMx tb) bscl (8 * n + k)))) s
  ((List.range l.en).foldl col s).countEvent o.g 0x41 l.en

/-! ## Rows of a loop (R255 to R259) -/

/-- The steps a loop runs next have their data, or are refused. -/
def AOp.rowReady (o : AOp) (l : Loop) : Bool :=
  (List.range l.unit).all fun i =>
    let k := l.row * l.ks + l.step + i
    o.lim ≤ k || (o.data k).isSome

/-- Change an operation's loop. -/
def State.modLoop (s : State) (id : Nat) (f : Loop → Loop) : State :=
  s.modOp id fun o => match o.kind with | .mloop l => { o with kind := .mloop (f l) } | _ => o

/-- When the next steps of a loop can begin: on the digital path once the steps other loops of the core run there are
done, so that all share its rate (R250). DEDUCED (assumption 101): whole steps take turns, first come first served. -/
def State.loopStart (s : State) (o : AOp) (l : Loop) : Nat :=
  let t := max s.aclk l.since
  if l.digital then max t (s.core o.core).macTill else t

/-- Begin the next steps of a loop, or suspend it at their boundary: at a request, or when the first of them is refused
(R257 to R259). -/
def State.loopGo (s : State) (id : Nat) : State :=
  match Tab.get? s.ops id with
  | none => s
  | some o =>
    match o.kind with
    | .mloop l =>
      if ¬ s.opRuns o ∨ l.busy ∨ l.m ≤ l.row then s
      else if o.stopReq then s.suspend id 2 none
      else if o.lim ≤ l.row * l.ks + l.step then s.suspend id 1 o.dfr
      else if o.rowReady l ∧ ¬ (s.ctx o.ctx).stop then
        let t := s.loopStart o l + l.unitTime
        let s := if l.digital then s.modCore o.core fun k => { k with macTill := t } else s
        (s.modLoop id fun l => { l with busy := true, ran := true }).post (t - s.aclk) (.mloopStep id)
      else s
    | _ => s

/-- A loop past the steps it has run: within a row, or at the next one's start. -/
def Loop.onward (l : Loop) (now n : Nat) : Loop :=
  let l := { l with busy := false, since := now }
  if l.bySlice ∧ ¬ l.low then { l with low := true }
  else if n = l.ks then { l with low := false, row := l.row + 1, step := 0 }
  else { l with low := false, step := n }

/-- MLOOP_STEP: the steps begun are added in their order, up to one that was refused (R255, R258). -/
def State.loopRow (s : State) (id : Nat) : State :=
  match Tab.get? s.ops id with
  | none => s
  | some o =>
    match o.kind with
    | .mloop l =>
      if ¬ l.busy ∨ ¬ s.opRuns o then s
      else
        let n := min (min l.ks (l.step + l.unit)) (o.lim - l.row * l.ks)
        let js := (List.range l.ks).filter fun j => l.step ≤ j && j < n
        let s := js.foldl (fun s j =>
          let d := (o.data (l.row * l.ks + j)).getD []
          if l.exact then s.exactStep o l l.row j d
          else s.analogStep o l l.row j (!(l.low && j = l.step)) (!l.bySlice || l.low) d) s
        let l' := l.onward s.aclk n
        let s := s.modOp id fun o => { o.dropBelow (l'.row * l'.ks + l'.step) with kind := .mloop l' }
        if l.m ≤ l'.row then (s.modOp id fun o => { o with fin := true }).post 8 (.mloopComplete id)
        else s.loopGo id
    | _ => s

/-! ## Acceptance (R252, R255, R256, R373 to R381) -/

/-- The operation touches tiles. -/
def OpKind.tiles : OpKind → Bool
  | .mloop _ | .maclr _ _ | .mamov _ _ _ _ | .mastore _ _ _ _ _ => true
  | .move (.tile _ _ _ _ _) _ _ | .move _ (.tile _ _ _ _ _) _ => true
  | _ => false

/-- An earlier operation of the same group that touches tiles is not complete: the accumulator effects of a group's
operations follow their issue order (R256). -/
def State.tileWait (s : State) (o : AOp) : Bool :=
  o.kind.tiles && s.ops.any fun e =>
    e.2.cls = 1 && e.2.started && !e.2.susp && e.2.g = o.g && e.2.gid = o.gid && e.1 ≠ o.id && e.2.kind.tiles

/-- The access of a slot key under a tag is not complete. -/
def State.pendAt (s : State) (k tag : Nat) : Bool :=
  (match Tab.get? s.groups k with | some x => x.pend.any fun p => p.tag = tag && p.isAcc | none => false) ||
  s.ghosts.any fun e => e.key = k && e.pend.any fun p => p.tag = tag && p.isAcc

/-- Some of the operation's accesses before it are not complete (R144). -/
def State.opWaits (s : State) (o : AOp) : Bool := o.after.any fun e => s.pendAt e.1 e.2

/-- An operation as acceptance finds it: a loop with the profile and configuration then in force. -/
def State.atAccept (s : State) (o : AOp) : OpKind :=
  match o.kind with
  | .mloop l => .mloop (s.loopNow (s.ctx o.ctx) (s.blk o.blk) l)
  | k => k

/-- Accept a loop (R255, R378, R379). -/
def State.acceptLoop (s : State) (o : AOp) (l : Loop) : State :=
  let b := s.blk o.blk
  let (loc, n) := l.range
  let stopWith (bits fj : Nat) : State := (s.mstatSet o (bits + msErr) fj).finish o.id 1
  if ¬ loopVaries b o.core l ∨ s.rangeIn o.ctx o.blk o.die loc n ≠ .ok then stopWith msCfg l.j0
  else
    let st (j : Nat) : ArrSt := (s.arr (b.arrKey j)).st
    let js := opArrays (.mloop l)
    let bad (j : Nat) : Bool :=
      if l.exact then !bit64 l.cfg2 63 && (st j = .switching || st j = .compute)
      else st j ≠ .fenced && (st j ≠ .compute || (s.arr (b.arrKey j)).ww8 ≠ bit64 l.ppt 17)
    let s := match js.find? fun j => !l.exact && st j = .fenced with
      | some j => s.mstatSet o (msFence + msErr) j
      | none => s
    match js.find? bad with
    | some j => (s.mstatSet o (msState + msErr) j).finish o.id 1
    | none =>
      let s := js.foldl (fun s j => s.modArr (b.arrKey j) fun a => { a with busy := some o.id }) s
      (s.modOp o.id fun o =>
        { o with kind := .mloop l, started := true, rpos := l.row * l.ks + l.step, lim := l.m * l.ks }).loopGo o.id

/-- Accept an operation at the head of its sequencer. -/
def State.accept (s : State) (o : AOp) : State :=
  let id := o.id
  let b := s.blk o.blk
  let on (s : State) : State := s.modOp id fun o => { o with started := true }
  let hold (s : State) (j : Nat) (st : ArrSt) : State :=
    s.modArr (b.arrKey j) fun a => { a with busy := some id, st := st }
  match s.atAccept o with
  | .mppt _ => (on s).modCore o.core fun k => { k with mxHold := some id }
  | .mcfg c0 c1 c2 =>
    ((on s).modBlk o.blk fun b => { b with mxcfg0 := c0, mxcfg1 := c1, mxcfg2 := c2 }).finish id 1
  | .madmit j _ _ _ _ =>
    if (s.arr (b.arrKey j)).st = .fenced then ((on s).mstatSet o (msFence + msErr) j).finish id 1
    else hold (on s) j .switching
  | .mrelease j =>
    if (s.arr (b.arrKey j)).st = .compute then
      ((hold (on s) j .switching).modOp id fun o => { o with fin := true }).post 16 (.mreleaseComplete id)
    else (on s).finish id 16
  | .mstest j =>
    if (s.arr (b.arrKey j)).st = .compute then
      ((on s).modOp id fun o => { o with fin := true }).startTest (b.arrKey j) (some id)
    else (on s).finish id 1
  | .maclr _ c => (on s).finish id (8 * c)
  | .mamov _ _ _ c => (on s).finish id (32 * c)
  | .mastore ty loc t c prof =>
    let e := Tab.getD (s.ctx o.ctx).ppt 0 prof
    if storeLegal e then
      let r := match fld e 21 3 with | 0 => Rnd.rne | 1 => .rtz | 2 => .rdn | _ => .rup
      let k := OpKind.move loc (.tile t 0 ty r (bit64 e 20)) (1024 * (ty.width / 8) * c)
      on (s.modOp id fun o => { o with kind := k, lim := k.total })
    else ((on s).mstatSet o (msCfg + msErr) 0).finish id 1
  | .mloop l => s.acceptLoop o l
  | _ => on s

/-- The head of a sequencer can be accepted: its group's earlier accesses are complete, and each array it names is
free and not under test; an array due for its test begins it first (R144, R252, R256, R261). -/
def State.tryAccept (s : State) (core : Nat) : State × Bool :=
  let k := s.core core
  match k.mxq, k.mxHold with
  | id :: r, none =>
    match Tab.get? s.ops id with
    | none => (s.modCore core fun k => { k with mxq := r }, true)
    | some o =>
      if s.opWaits o ∨ s.tileWait o ∨ (s.ctx o.ctx).ending.isSome then (s, false)
      else
        let b := s.blk o.blk
        let keys := (opArrays (s.atAccept o)).map b.arrKey
        if keys.any fun a => (s.arr a).busy.isSome || (s.arr a).test.isSome then (s, false)
        else
          let due := match o.kind with
            | .mstest _ => []
            | _ => keys.filter fun a => s.testDue core (s.arr a)
          match due with
          | [] => ((s.modCore core fun k => { k with mxq := r }).accept o, true)
          | _ => (due.foldl (fun s a => s.startTest a none) s, false)
  | _, _ => (s, false)

/-- Accept operations of a sequencer as long as its head can be (R256). -/
def State.acceptAll : Nat → State → Nat → State
  | 0, s, _ => s
  | n + 1, s, core =>
    match s.tryAccept core with
    | (s, true) => State.acceptAll n s core
    | (s, false) => s

/-! ## Progress and completion -/

/-- A matrix operation that reads has all it asked for, or was refused (R252, R253, R374). -/
def State.matStage (s : State) (o : AOp) : State :=
  if ¬ s.opRuns o then s
  else match o.kind with
  | .mppt _ => if o.dfr.isSome then s.finish o.id 0 else if o.readAll then s.finish o.id 64 else s
  | .madmit j _ _ _ _ =>
    if o.dfr.isSome then
      let s := s.modArr ((s.blk o.blk).arrKey j) fun a => { a with st := .storage, ec := [], g := 0, ww8 := false }
      (s.mstatSet o (msXlate + msErr) j).finish o.id 0
    else if o.readAll then (s.modOp o.id fun o => { o with fin := true }).post 273 (.madmitComplete o.id)
    else s
  | .mloop _ => s.loopGo o.id
  | _ => s

/-- The effect of a matrix operation that is made when it completes (R374, R380). -/
def State.matEffect (s : State) (o : AOp) : State :=
  let b := s.blk o.blk
  match o.kind with
  | .mppt _ =>
    match o.dfr with
    | some _ => s
    | none =>
      let d := o.bytes 0 1
      s.modCtx o.ctx fun c =>
        { c with ppt := (List.range 16).foldl (fun t i =>
            Tab.set t 0 i (w64 (natOfBytes ((d.drop (8 * i)).take 8)))) [] }
  | .maclr t n =>
    (List.range n).foldl (fun s i => (List.range 1024).foldl (fun s e => s.setTile b o.core (t + i) e 0) s) s
  | .mamov add t u n =>
    (List.range n).foldl (fun s i => (List.range 1024).foldl (fun s e =>
      let x := s.tileElem b o.core (u + i) e
      let y := if add then addF32 (s.tileElem b o.core (t + i) e) ((fmtOf .f32).decode x) else x
      s.setTile b o.core (t + i) e y) s) s
  | _ => s

end Sys2Proof.Machine
end

