-- ==== Sys2Proof/Machine/Pump.lean ====
section
/-! DEFINITION. What the engines do in an ACLK: operations start, read, write, are accepted, and complete (R144, R252,
R256, R258, R261, R360 to R366, R449, R450). -/

namespace Sys2Proof.Machine

/-- Start an operation of the copy agents, the scale-up agents or Agate, whose earlier accesses are complete (R144). -/
def State.startOp (s : State) (o : AOp) : State :=
  if o.started ∨ o.fin ∨ o.susp ∨ o.cls = 1 ∨ s.opWaits o ∨ (s.ctx o.ctx).ending.isSome then s
  else
    match o.kind with
    | .agate [] [] => (s.modOp o.id fun q => { q with started := true }).finish o.id 0
    | .agate _ _ => s.agSend o
    | _ => s.modOp o.id fun q => { q with started := true }

/-- Apply a function to every operation as it then stands. -/
def State.eachOp (s : State) (f : State → AOp → State) : State :=
  s.ops.foldl (fun s e => match Tab.get? s.ops e.1 with | some o => f s o | none => s) s

/-- Self-tests whose 800 ACLK have passed end (R261). -/
def State.endTests (s : State) : State :=
  s.arrs.foldl (fun s e => match e.2.test with
    | some (t, _) => if t ≤ s.aclk then s.endTest e.1 else s
    | none => s) s

/-- The work of the endpoints and the engines in an ACLK, after what the schedulers issued in it. -/
def State.pump (s : State) : State :=
  let s := s.departAll.eachOp fun s o => s.startOp o
  let s := s.cores.foldl (fun s e => if e.2.mxq.isEmpty then s else s.acceptAll 512 e.1) s
  let s := s.endTests
  let s := (s.heads s.canRead).foldl (fun s o => s.readNext o) s
  let s := (s.heads s.canWrite).foldl (fun s o => s.writeNext o) s
  let s := s.eachOp fun s o => s.checkMoved o.id
  let s := s.eachOp fun s o => if o.susp then s.reportLoop o else if o.started then (s.matStage o).agStage o else s
  s.banks.foldl (fun s e => s.bankTick e.1) s

/-- An operation's completion (R360, R374, R449). -/
def State.opDone (s : State) (id : Nat) : State :=
  match Tab.get? s.ops id with
  | none => s
  | some o =>
    match o.kind with
    | .agchild _ _ bank _ _ _ => s.agMoved o bank
    | .agsum _ _ _ _ _ => s.agSummed o
    | _ => if o.cls = 1 then ((if o.susp then s else s.matEffect o).matGone id) else s.opGone id

end Sys2Proof.Machine
end

