-- ==== Sys2Proof/Machine/Events.lean ====
section
/-! DEFINITION. Packets that arrive, and the events that the caches, the engines and the banks schedule (R67 to R92,
R113 to R127, R252 to R262, R350 to R374, R449, R450). -/

namespace Sys2Proof.Machine

/-! ## Requests at a slice (R67 to R80) -/

/-- A request packet arrives: at its translating slice, at its home slice, or after its tag lookup (R74, R78). -/
def State.reqArrives (s : State) (p : Pkt) : State :=
  if pktBad p then s.discard p.ddie
  else match p.phys with
    | none => s.translate p
    | some _ => if p.held then (s.sigAt p).tagDone p else s.arriveHome p

/-- RD (R68). -/
def execRd (p : Pkt) (s : State) : Out := .next (s.reqArrives p)
/-- WR (R68, R77). -/
def execWr (p : Pkt) (s : State) : Out := .next (s.reqArrives p)
/-- AT (R79, R354). -/
def execAtq (p : Pkt) (s : State) : Out := .next (s.reqArrives p)
/-- ATR (R79, R354). -/
def execAtr (p : Pkt) (s : State) : Out := .next (s.reqArrives p)
/-- A core's cluster is in reset (R88). -/
def State.coreInReset (s : State) (core : Nat) : Bool :=
  core < 256 && (s.die (dieOfCore core)).clrst.toNat / 2 ^ clusterOf core % 2 = 1

/-- A scratch packet is addressed to a cluster in reset: its crossbar discards it (R88). -/
def State.poolDropped (s : State) (p : ScPkt) : Bool :=
  match s.poolBlk p with
  | some k => s.coreInReset ((s.blk k).arrCore (interleaved (s.blk k).narr p.off).1)
  | none => false

/-- A scratch packet reaches its target's cluster: it is discarded whole where it is malformed (R69), dropped at a
cluster in reset, or served. -/
def State.scArrives (s : State) (p : ScPkt) (f : State → State) : State :=
  if scpBad p then s.discard (dieOfCore (s.poolDst p 0))
  else if s.poolDropped p then s
  else f s

/-- SCR (R61, R68). -/
def execScr (p : ScPkt) (s : State) : Out := .next (s.scArrives p fun s => s.poolRead p)
/-- SCW (R61, R68). -/
def execScw (p : ScPkt) (s : State) : Out := .next (s.scArrives p fun s => s.poolWrite p)
/-- INV (R83, R84). -/
def execInv (p : Pkt) (die hold : Nat) (s : State) : Out :=
  .next (if pktBad p then s.discard die else s.invalidate p die hold)
/-- INVACK (R83). -/
def execInvack (a : InvAck) (s : State) : Out :=
  .next (if pktBad a.pkt then s.discard a.pkt.ddie else s.invAcked a.hold)

/-- A write by the same endpoint of the scale-up fabric has not been performed yet (R85, R150): it is on its way, in a
slice, or held by a bank on its way into Agate mode. -/
def State.peerWrites (s : State) (p : Pkt) : Bool :=
  let mine (q : Pkt) : Bool := q.src = p.src && match q.req with | .write _ => true | _ => false
  let ev (i : Instr) : Bool :=
    match i with
    | .wr q => mine q
    | .pageWalkComplete q => mine q
    | .hbmFill q _ => mine q
    | .scw q => decide (q.src = p.src)
    | _ => false
  s.agenda.any (fun e => ev e.ev) || (s.banks.any fun b => b.2.late.any mine) ||
  [0, 1, 2, 3].any fun d => (s.die d).confl.any mine || (s.die d).locks.any fun l => mine l.pkt

/-- The atomic a SIG makes (R371): it sets the object or adds to it. -/
def sigReq (set : Bool) (p : Pkt) : Pkt :=
  match p.req with
  | .atomic a => { p with req := .atomic { a with ret := false, ty := .n64, cas := false, aop := if set then 6 else 0 } }
  | _ => p

/-- SIG (R85, R366): a signal update takes effect behind its transfer's writes, as an atomic. -/
def execSigUpd (p : Pkt) (set : Bool) (s : State) : Out :=
  if pktBad p then .next (s.discard p.ddie)
  else if s.peerWrites p then .next (s.post 2 (.sigUpd p set))
  else .next (s.reqArrives (sigReq set p))

/-- PAGE_WALK_COMPLETE (R97 to R100). -/
def execPageWalkComplete (p : Pkt) (s : State) : Out := .next (s.walkDone p)

/-- HBM_FILL (R77, R87). -/
def execHbmFill (p : Pkt) (bad : Bool) (s : State) : Out := .next (s.filled p bad)

/-- CONFLICT_QUEUE_RELEASE (R78). -/
def execConflictQueueRelease (bank : Nat) (s : State) : Out := .next (s.drainConfl (bank / 128))

/-- CLASS0_BUDGET_GAIN (R72). -/
def execClass0BudgetGain (s : State) : Out := .next s.budgetGain

/-! ## Responses (R68, R82, R84, R89) -/

/-- The requester's cluster is in reset: the response is discarded at its crossbar (R88, R89). -/
def State.inReset (s : State) (p : Pkt) : Bool := s.coreInReset p.core

/-- Data of another die's line is installed in the RDC on its way back (R82). -/
def State.rdcFill (s : State) (p : Pkt) : State :=
  match p.phys with
  | some a =>
    if p.rdc ∧ p.sdie ≠ p.ddie then
      let n := s.fresh
      ({ s with fresh := n + 2 } : State).modDie p.sdie fun d =>
        d.rdcInstall p.ddie (a % 2 ^ 37 / 512) p.asid (p.line / 512) (Req.sectors p.req) n
    else s
  | none => s

/-- A request over the scale-up fabric is answered. -/
def State.peerAnswered (s : State) (id k : Nat) : State :=
  { s with peerOut := s.peerOut.filter fun q => ¬ (q.op = id ∧ q.k = k) }

/-- Data for part `k` of an operation: the bytes of the part are kept. -/
def State.engData (s : State) (id k : Nat) (bytes : List Byte) : State :=
  match Tab.get? s.ops id with
  | none => s
  | some o =>
    match ((o.kind.granule (k / 2048)).1)[k % 2048]? with
    | none => s
    | some (l, n) =>
      let off := match l with | .remote _ => 0 | l => l.addr.toNat % 128
      (s.peerAnswered id k).modOp id fun o => o.keep k ((bytes.drop off).take n)

/-- Data for a group: a load's sectors, or the object a SIGWAIT waits on. -/
def State.grpAnswer (s : State) (g tag : Nat) (p : Pkt) (bytes : List Byte) : State :=
  match Tab.get? s.groups g with
  | none => s
  | some x =>
    match x.pend.find? fun q => q.tag = tag ∧ q.kind = .sigread with
    | some q => s.sigData g x q p bytes
    | none => s.grpData g tag p bytes

/-- DATA (R68, R82). -/
def execDataRsp (p : Pkt) (bytes : List Byte) (s : State) : Out :=
  if pktBad p then .next (s.discard p.sdie)
  else
  let s := s.rdcFill p
  if s.inReset p then .next s
  else match p.src with
    | .grp g tag => .next (s.grpAnswer g tag p bytes)
    | .eng id k => .next (s.engData id k bytes)
    | .pref _ _ ep part => .next (s.prefData p.core ep part p bytes)
    | .host _ => .next { s with resp := .bytes ((bytes.drop (p.line % 128)).take (64 - p.line % 64)) }
    | .peer _ _ => .next { s with resp := .bytes bytes }

/-- ACK (R68). -/
def execAck (p : Pkt) (old : W64) (s : State) : Out :=
  if pktBad p then .next (s.discard p.sdie)
  else if s.inReset p then .next s
  else match p.src with
    | .grp g tag => .next (s.grpAck g tag p old)
    | .eng id k =>
      .next (((s.peerAnswered id k).modOp id fun o => { o with left := o.left - 1 }).checkMoved id)
    | .pref _ _ _ _ => .next s
    | .host _ => .next { s with resp := .ok }
    | .peer _ _ => .next { s with resp := .ok }

/-- NACK (R74, R102, R103, R361). -/
def execNack (p : Pkt) (subc : BitVec 4) (s : State) : Out :=
  if pktBad p then .next (s.discard p.sdie)
  else if s.inReset p then .next s
  else match p.src with
    | .grp g tag => .next (s.grpNack g tag p subc)
    | .eng id k => .next ((s.peerAnswered id k).engNack id k p subc)
    | .pref _ _ _ _ => .next s
    | .host _ => .next { s with resp := .nack subc }
    | .peer _ _ => .next { s with resp := .nack subc }

/-- LOAD_DATA_RETURN (R350). -/
def execLoadDataReturn (g tag : Nat) (s : State) : Out := .next (s.ownPart g tag)
/-- STORE_ACK (R91, R350). -/
def execStoreAck (g tag : Nat) (s : State) : Out := .next (s.ownPart g tag)
/-- POOLED_ACCESS_RELEASE (R409). -/
def execPooledAccessRelease (g : Nat) (s : State) : Out := .next (s.wake g fun w => w = .rank)
/-- SIGWAIT_REREAD (R371). -/
def execSigwaitReread (g : Nat) (s : State) : Out := .next (s.sigReread g)

/-! ## Engines -/

/-- HANDLE_ADMIT (R367). -/
def execHandleAdmit (blk h : Nat) (s : State) : Out := .next (s.hndAdmit blk h)
/-- ASYNC_OP_COMPLETE (R144, R360). -/
def execAsyncOpComplete (op : Nat) (s : State) : Out := .next (s.opDone op)

/-- Run an operation's acceptance at its sequencer, when it is the one next to be accepted (R252, R256). -/
def State.acceptNow (s : State) (op : Nat) : State :=
  match Tab.get? s.ops op with
  | some o => if (s.core o.core).mxq.head? = some op then (s.tryAccept o.core).1 else s
  | none => s

/-- MADMIT_ACCEPT (R252, R253). -/
def execMadmitAccept (op : Nat) (s : State) : Out := .next (s.acceptNow op)
/-- MADMIT_COMPLETE (R242 to R244, R253). -/
def execMadmitComplete (op : Nat) (s : State) : Out := .next (s.admitDone op)
/-- MRELEASE_COMPLETE (R253). -/
def execMreleaseComplete (op : Nat) (s : State) : Out := .next (s.releaseDone op)
/-- MASTORE_ACCEPT (R381). -/
def execMastoreAccept (op : Nat) (s : State) : Out := .next (s.acceptNow op)
/-- MLOOP_ACCEPT (R255, R378). -/
def execMloopAccept (op : Nat) (s : State) : Out := .next (s.acceptNow op)
/-- MLOOP_STEP (R255). -/
def execMloopStep (op : Nat) (s : State) : Out := .next (s.loopRow op)
/-- MLOOP_COMPLETE (R257). -/
def execMloopComplete (op : Nat) (s : State) : Out := .next (s.matGone op)

/-- MPPT_TAKE_EFFECT (R374): the table takes effect once its read has returned. -/
def execMpptTakeEffect (op : Nat) (s : State) : Out :=
  match Tab.get? s.ops op with
  | some o => .next (match o.kind with
    | .mppt _ => if o.readAll then s.opDone op else s
    | _ => s)
  | none => .next s

/-- SELF_TEST (R261, R262): an array due for its test begins it, and one whose test is over ends it. -/
def execSelfTest (arr : Nat) (s : State) : Out :=
  .next (match (s.arr arr).test with
    | some (t, _) => if t ≤ s.aclk then s.endTest arr else s
    | none => if s.testDue (arr / 24) (s.arr arr) ∧ (s.arr arr).busy.isNone then s.startTest arr none else s)

/-! ## Agate banks -/

/-- The mode switch at the head of what a bank is sent is accepted (R113, R114). -/
def State.agNow (s : State) (bank : Nat) (p : AgCmd → Bool) : State :=
  match (s.bank bank).coming.find? fun e => p e.2.cmd with
  | some e => (s.modBank bank fun b => { b with coming := b.coming.erase e }).agArrive bank e.2
  | none => s

/-- AGON_ACCEPT (R113). -/
def execAgonAccept (bank : Nat) (s : State) : Out := .next (s.agNow bank fun c => c = .on)
/-- AGON_WRITEBACK_DONE (R113, R116). -/
def execAgonWritebackDone (bank : Nat) (s : State) : Out := .next (s.agonWritten bank)
/-- AGON_COMPLETE (R116). -/
def execAgonComplete (bank : Nat) (s : State) : Out := .next (s.agonDone bank)
/-- AGOFF_ACCEPT (R114). -/
def execAgoffAccept (bank : Nat) (s : State) : Out := .next (s.agNow bank fun c => c = .off)
/-- AGOFF_DRAIN_DONE (R114, R116). -/
def execAgoffDrainDone (bank : Nat) (s : State) : Out := .next (s.agoffDrained bank)
/-- AGOFF_COMPLETE (R114, R116). -/
def execAgoffComplete (bank : Nat) (s : State) : Out := .next (s.agoffDone bank)
/-- AGATE_COMMAND_ACCEPT (R122). -/
def execAgateCommandAccept (bank : Nat) (s : State) : Out := .next (s.agBegin bank)
/-- AGATE_COMMAND_COMPLETE (R121 to R127, R449). -/
def execAgateCommandComplete (bank : Nat) (s : State) : Out := .next (s.agComplete bank)

end Sys2Proof.Machine
end

