-- ==== Sys2Proof/Machine/Welt.lean ====
section
/-! DEFINITION. Welt: arrivals, phases, releases, waits, grants and pre-emption signals (R163 to R182, R392 to R394). -/

namespace Sys2Proof.Machine

/-! ## Channels (R165 to R170) -/

/-- Key of a channel as a core names it: a die channel is its own die's (R167). -/
def chanKey (die : Nat) (pk : Bool) (ch : Nat) : Nat := if pk then 128 + ch else die * 32 + ch

/-- A channel is granted to a context (R166, R167). -/
def Ctx.granted (c : Ctx) (pk : Bool) (ch : Nat) : Bool := bit64 c.wgrant ((if pk then 32 else 0) + ch)

/-- The channel with a key is granted to a context: a die channel on each die of PDMASK (R166). -/
def Ctx.holdsChan (c : Ctx) (key : Nat) : Bool :=
  if 128 ≤ key then c.granted true (key - 128)
  else c.granted false (key % 32) && c.pdmask.toNat / 2 ^ (key / 32) % 2 = 1

/-- The channels a grant word names on the dies of a mask (R166). -/
def grantKeys (pdmask : BitVec 4) (w : W64) : List Nat :=
  ((diesOf pdmask).flatMap fun d => ((List.range 32).filter fun c => bit64 w c).map fun c => d * 32 + c) ++
  ((List.range 16).filter fun c => bit64 w (32 + c)).map fun c => 128 + c

/-- A partition holds a channel (R165). -/
def Part.holdsChan (p : Part) (key : Nat) : Bool :=
  if 128 ≤ key then p.wppkg.toNat / 2 ^ (key - 128) % 2 = 1
  else (Tab.getD p.wpdie 0 (key / 32)).toNat / 2 ^ (key % 32) % 2 = 1

/-- A channel is a context's to use from a die: granted, and not taken from its partition since (R165 to R167). -/
def State.chanOpen (s : State) (ctx die : Nat) (pk : Bool) (ch : Nat) : Bool :=
  (s.ctx ctx).granted pk ch && (s.part (s.ctx ctx).pid).holdsChan (chanKey die pk ch)

/-- Identity of a reduction operation (R169). -/
def redId (op : BitVec 4) : W32 :=
  match op.toNat with
  | 1 => 0x7FFFFFFF
  | 2 | 5 => 0xFFFFFFFF
  | 3 => 0x80000000
  | _ => 0

/-- One step of a reduction (R169). -/
def redStep (op : BitVec 4) (a b : W32) : W32 :=
  match op.toNat with
  | 0 => a + b
  | 1 => if b.slt a then b else a
  | 2 => if b < a then b else a
  | 3 => if a.slt b then b else a
  | 4 => if a < b then b else a
  | 5 => a &&& b
  | _ => a ||| b

/-- Reset a channel at its hub and in the cores' copies (R166, R178). -/
def State.chanReset (s : State) (key : Nat) : State :=
  { s with chans := Tab.del s.chans key, agenda := s.agenda.filter fun e => e.ev ≠ .weltRelease key }

/-- Groups that wait on a channel whose grant is gone stay waiting until their context ends (R165, R166). -/
def State.chanLost (s : State) (key : Nat) (p : Group → Bool) : State :=
  let out (t : Slot) : Slot :=
    match t.wait with
    | .welt ch _ _ => if ch = key then { t with wait := .lost } else t
    | _ => t
  let one (e : Nat × Group) : Nat × Group := if p e.2 then (e.1, { e.2 with a := out e.2.a, b := out e.2.b }) else e
  { s with groups := s.groups.map one }

/-- ARRIVED as a core's snapshot shows it: the hub's count 12 ACLK ago, or 52 for a package channel (R170). -/
def State.chanSeen (s : State) (key : Nat) : Nat :=
  let age := if 128 ≤ key then 52 else 12
  match (s.chan key).hist.find? fun e => e.1 + age ≤ s.aclk with
  | some e => e.2
  | none => 0

/-- Record a hub's count, keeping what a snapshot can still show. -/
def Chan.record (c : Chan) (now n : Nat) : Chan :=
  { c with arrived := n, hist := (now, n) :: (c.hist.filter fun e => now < e.1 + 52) ++
                                   ((c.hist.filter fun e => e.1 + 52 ≤ now).take 1) }

/-- WCFG as it reads (R169). -/
def Chan.cfg (c : Chan) : W64 := w64 (c.op.toNat * 2 ^ 20 + c.expect)

/-- A write to WCFG takes effect, or is recorded as refused (R169). -/
def State.cfgChan (s : State) (key : Nat) (v : W64) : State :=
  let n := fld v 0 14
  let op := fld v 20 4
  s.modChan key fun c =>
    if c.arrived = 0 ∧ n ≤ (if 128 ≤ key then 12288 else 3072) ∧ op ≤ 6 then { c with expect := n, op := .ofNat 4 op }
    else { c with cfgerr := true }

/-- WCHST as it reads (R170). -/
def State.chst (s : State) (key : Nat) : W64 :=
  let c := s.chan key
  w64 (c.cPhase.toNat * 2 ^ 48 + s.chanSeen key * 2 ^ 32 + b2n c.cfgerr * 16 + b2n c.cMulti * 8 + b2n c.cNob * 4 +
    b2n c.cNor * 2)

/-! ## The hub (R172, R173) -/

/-- The transitions a watchpoint sees on a channel, for every context that holds it (R417). -/
def State.watchChan (s : State) (key die : Nat) (e : WatchEv) : State :=
  s.ctxs.foldl (fun s c =>
    if c.2.holdsChan key then
      let place := w64 (if 128 ≤ key then key - 128 else key / 32 * 256 + key % 32)
      s.watch c.2.pid die ⟨c.2.asid, if 128 ≤ key then 5 else 4, place⟩ e
    else s) s

/-- A channel after one arrival is counted in its current phase. -/
def Chan.count (c : Chan) (now : Nat) (k : WKind) : Chan :=
  let c := c.record now (c.arrived + 1)
  match k with
  | .bar => c
  | .bcast v => match c.bslot with
    | none => { c with bslot := some v }
    | some _ => { c with many := true }
  | .red v => { c with red := some (redStep c.op (c.red.getD (redId c.op)) v) }

/-- A channel after its phase closes: the results are fixed and the release is sent. -/
def Chan.close (c : Chan) (now : Nat) : Chan :=
  let r := (c.phase + 1, c.bslot.getD 0, c.red.getD (redId c.op), c.many, c.bslot.isNone, c.red.isNone)
  { c.record now 0 with phase := c.phase + 1, bslot := none, many := false, red := none, rel := c.rel ++ [r] }

/-- A Welt error: the partitions that hold the channel, or all of them, are told, and every context that holds it
ends (R164). -/
def State.weltError (s : State) (key : Option Nat) : State :=
  let s := [0, 1, 2, 3].foldl (fun s p =>
    let hit := match key with | some k => (s.part p).holdsChan k | none => (s.part p).mask ≠ 0
    if hit then s.raisePi p 5 else s) s
  s.ctxs.foldl (fun s c =>
    let hit := match key with | some k => c.2.holdsChan k | none => true
    if hit then s.endCtx c.1 7 0 0 0 0 else s) s

/-- WELT_ARRIVAL (R164, R172, R173): the arrival is counted, and the last one closes the phase. -/
def State.weltArrive (s : State) (m : WArr) : State :=
  if m.crcBad then s.weltError (some m.ch)
  else
    let die := dieOfCore m.core
    let gid := match Tab.get? s.groups (m.core * 48 + m.slot) with | some x => x.gid | none => 0
    let ev (tr : Nat) : WatchEv :=
      { tr := tr, gid := gid, batch := 0, async := false, exited := false, src := grpid (m.core * 48 + m.slot) gid,
        d1 := w64 m.ch }
    let s := (s.modChan m.ch fun c => c.count s.aclk m.kind).watchChan m.ch die (ev 0)
    let c := s.chan m.ch
    if c.arrived = c.expect then
      ((s.watchChan m.ch die (ev 1)).modChan m.ch fun c => c.close s.aclk).post 12 (.weltRelease m.ch)
    else s

/-- WELT_ARRIVAL (R172). -/
def execWeltArrival (m : WArr) (s : State) : Out := .next (s.weltArrive m)

/-! ## The release (R174, R175) -/

/-- What WRECV delivers. -/
def Chan.recv (c : Chan) (r : Bool) : W64 := if r then c.cR.setWidth 64 else c.cB

/-- End one slot's wait on a channel whose phase has passed. -/
def State.weltFree (s : State) (key g : Nat) (b : Bool) : State :=
  match Tab.get? s.groups g with
  | none => s
  | some x =>
    match (x.slot b).wait with
    | .welt ch p rx =>
      if ch = key ∧ p ≠ (s.chan key).cPhase ∧ ¬ x.dead then
        match rx with
        | none =>
          if (s.before ⟨g, b⟩ x).isEmpty then ((s.releaseFence g 3 false).1).release g b 4
          else s.setGrp g (x.setSlot b { x.slot b with wait := .acks })
        | some (d, r) => (s.modGrp g fun x => x.dstS d ((s.chan key).recv r)).release g b 0
      else s
    | _ => s

/-- WELT_RELEASE (R164, R174): the cores' copies change, and the groups that waited for the phase go on; a release whose
CRC is bad is discarded. -/
def State.weltReleased (s : State) (key : Nat) : State :=
  if s.upset (.release key) ≠ 0 then s.weltError (some key)
  else match (s.chan key).rel with
  | [] => s
  | (ph, bv, rv, many, nob, nor) :: r =>
    let s := s.modChan key fun c =>
      { c with rel := r, cPhase := ph, cB := bv, cR := rv, cMulti := many, cNob := nob, cNor := nor }
    let die := if 128 ≤ key then 0 else key / 32
    let s := s.watchChan key die ⟨2, 0, 0, false, false, 0, w64 key⟩
    s.groups.foldl (fun s e => (s.weltFree key e.1 false).weltFree key e.1 true) s

/-- WELT_RELEASE (R174). -/
def execWeltRelease (ch : Nat) (s : State) : Out := .next (s.weltReleased ch)

/-! ## The instructions (R167, R171, R175, R392 to R394) -/

/-- A Welt form after its predicate: the grant and EXPECT checks (R167, R393). A WWAIT that waits for its fence when its
grant goes stays waiting (R166). -/
def weltForm (a : WltArgs) (i : Instr) (s : State) (arrive : Bool) (f : Cur → Group → Nat → State) : Out :=
  uniform a.hd 8 s fun c x =>
    let key := chanKey (dieOf c.g) a.pk a.ch.toNat
    let mine := s.chanOpen x.ctx (dieOf c.g) a.pk a.ch.toNat
    if arrive ∧ x.bLive then s.illop c (encode i % 2 ^ 64)
    else if ¬ mine ∧ (x.slot c.slotB).held then s.block c x .lost 8
    else if ¬ mine then s.freeze c.g 3
    else if (s.chan key).expect = 0 then s.illop c (encode i % 2 ^ 64)
    else f c x key

/-- An arrival leaves its core: its destination takes PHASE from the core's copy in this ACLK, and it reaches the hubs 12
ACLK on, or 52 (R163, R171, R394). -/
def State.weltLeaves (s : State) (g key : Nat) (d : Opnd) (k : WKind) : State :=
  let ph : W64 := (s.chan key).cPhase.setWidth 64
  (s.modGrp g fun x => if x.dead then x else x.dstS d ph).post (if 128 ≤ key then 52 else 12)
    (.weltArrival ⟨key, coreOf g, slotOf g, k, false⟩)

/-- An arrival that carries no fence leaves the core in the ACLK after issue; its destination is pending until then
(R394). -/
def State.weltSend (s : State) (c : Cur) (x : Group) (key : Nat) (d : Opnd) (k : WKind) : State :=
  let p := { x.newPend c.slotB .alu 8 none s.aclk (dstsOf d) with left := 1, arrive := some (key, d, k) }
  ((s.retire c (x.addPend p) 8).countEvent c.g 0x43 1).post 1 (.resultWriteback c.g p.tag)

/-- A pending WBAR arrival's fence may begin: the accesses before it are answered (R143). -/
def State.warrReady (s : State) (p : Pend) : Bool :=
  p.kind = .warr && p.left = 1 && !(p.after.any fun e => s.pendAt e.1 e.2)

/-- The WBAR arrivals of groups that are gone: their fences have no group to stall (R187, R394). -/
def State.warrGhosts (s : State) : State :=
  (s.ghosts.flatMap fun e => (e.pend.filter s.warrReady).map fun p => (e.key, p)).foldl (fun s e =>
    let begun (g : Ghost) : Ghost :=
      if g.key = e.1 then { g with pend := g.pend.map fun q => if q.tag = e.2.tag then { q with left := 2 } else q } else g
    ({ (s.invNormal (coreOf e.1)) with ghosts := s.ghosts.map begun } : State).post 4 (.resultWriteback e.1 e.2.tag)) s

/-- WBAR arrivals whose earlier accesses are all answered: the fence's invalidation takes the group 4 ACLK, and then the
arrival leaves (R51, R143, R394). -/
def State.warrGo (s : State) (g : Nat) : State :=
  match Tab.get? s.groups g with
  | none => s
  | some x =>
    (x.pend.filter s.warrReady).foldl (fun s p =>
      ((s.invNormal (coreOf g)).modGrp g fun x =>
        { x with
          pend := x.pend.map fun q => if q.tag = p.tag then { q with left := 2 } else q
          readyAt := max x.readyAt (s.aclk + 4)
          why := 11 }).post 4 (.resultWriteback g p.tag)) s

/-- WBAR (R143, R171, R394): only its destination waits for its fence, and the accesses after it in program order. -/
def execWbar (a : WltArgs) (s : State) : Out :=
  weltForm a (.wbar a) s true fun c x key =>
    let p := { x.newPend c.slotB .warr 8 none s.aclk (dstsOf a.dst) with
      left := 1, acq := some 3, after := s.beforeKeys c x, arrive := some (key, a.dst, .bar) }
    ((s.retire c (x.addPend p) 8).countEvent c.g 0x43 1).warrGo c.g

/-- WBCAST (R171). -/
def execWbcast (a : WltArgs) (s : State) : Out :=
  weltForm a (.wbcast a) s true fun c x key => s.weltSend c x key a.dst (.bcast (x.srcS a.sa))

/-- WRED (R171). -/
def execWred (a : WltArgs) (s : State) : Out :=
  weltForm a (.wred a) s true fun c x key => s.weltSend c x key a.dst (.red ((x.srcS a.sa).setWidth 32))

/-- WWAIT (R143, R175): it waits for the phase; then its fence waits for the accesses before it. -/
def execWwait (a : WltArgs) (s : State) : Out :=
  weltForm a (.wwait a) s false fun c x key =>
    let p : BitVec 16 := (x.srcS a.sa).setWidth 16
    if (s.chan key).cPhase = p then s.block c x (.welt key p none) 8
    else if ¬ (s.before c x).isEmpty then s.block c x .acks 8
    else s.fenced c x 3 8

/-- WRECV (R175). -/
def wrecvForm (a : WltArgs) (i : Instr) (s : State) (r : Bool) : Out :=
  weltForm a i s false fun c x key =>
    let p : BitVec 16 := (x.srcS a.sa).setWidth 16
    if (s.chan key).cPhase = p then s.block c x (.welt key p (some (a.dst, r))) 8
    else s.retire c (x.dstS a.dst ((s.chan key).recv r)) 8

/-- WRECV.B (R175). -/
def execWrecvB (a : WltArgs) (s : State) : Out := wrecvForm a (.wrecvB a) s false
/-- WRECV.R (R175). -/
def execWrecvR (a : WltArgs) (s : State) : Out := wrecvForm a (.wrecvR a) s true

/-- WTICK (R182, R394). -/
def execWtick (a : WltArgs) (s : State) : Out := uniform a.hd 8 s fun c x => s.retire c (x.dstS a.dst s.tick) 8

/-! ## Grants (R165, R166) -/

/-- Reset some channels and strand the groups of some contexts that wait on them. -/
def State.dropChans (s : State) (keys : List Nat) (p : Group → Bool) : State :=
  keys.foldl (fun s k => (s.chanLost k p).chanReset k) s

/-- A new WGRANT is one the partition and the other contexts allow (R166). -/
def State.grantOk (s : State) (k : Nat) (v : W64) : Bool :=
  let c := s.ctx k
  let new := grantKeys c.pdmask (v &&& ~~~c.wgrant)
  let others := s.ctxs.filter fun e => e.1 ≠ k && e.2.pid = c.pid
  new.all fun key => (s.part c.pid).holdsChan key && !(others.any fun e => e.2.holdsChan key)

/-- Write a context's WGRANT; channels it loses are reset (R166). -/
def State.setGrant (s : State) (k : Nat) (v : W64) : State :=
  let c := s.ctx k
  let gone := grantKeys c.pdmask (c.wgrant &&& ~~~v)
  (s.dropChans gone fun x => x.ctx = k).modCtx k fun c => { c with wgrant := v }

/-- WELT_PARTITION_GRANT (R165): a write of WPDIEk, or of WPPKG as number 4. -/
def State.partGrant (s : State) (pid k : Nat) (x : W64) : State :=
  let keyOf (c : Nat) : Nat := if 4 ≤ k then 128 + c else k * 32 + c
  let free (c : Nat) : Bool := [0, 1, 2, 3].all fun q => q = pid || !(s.part q).holdsChan (keyOf c)
  let n := if 4 ≤ k then 16 else 32
  if k < 4 ∧ (s.part pid).mask.toNat / 2 ^ k % 2 = 0 then s
  else
    let old (c : Nat) : Bool := (s.part pid).holdsChan (keyOf c)
    let m := (List.range n).foldl (fun m c => if bit64 x c && (old c || free c) then m + 2 ^ c else m) 0
    let gone := ((List.range n).filter fun c => old c && m / 2 ^ c % 2 = 0).map keyOf
    let held := gone.filter fun key => s.ctxs.any fun e => e.2.pid = pid && e.2.holdsChan key
    let s := s.dropChans held fun x => (s.ctx x.ctx).pid = pid
    s.modPart pid fun p =>
      if 4 ≤ k then { p with wppkg := .ofNat 16 m } else { p with wpdie := Tab.put p.wpdie k (.ofNat 32 m) }

/-- WELT_PARTITION_GRANT (R165). -/
def execWeltPartitionGrant (pid k : Nat) (x : W64) (s : State) : Out := .next (s.partGrant pid k x)

/-! ## Pre-emption signals (R179, R180) -/

/-- Set or clear the pre-emption flag of groups; a set reaches every group of a gang of several blocks (R409). -/
def State.flagGroups (s : State) (hit : Nat → Group → Bool) (v : Bool) : State :=
  let gangs := (s.groups.filter fun e => hit e.1 e.2).map fun e => (s.blk e.2.blk).gang
  let many (n : Nat) : Bool := v && gangs.contains n && 1 < ((Tab.get? s.gangs n).map fun g => g.size).getD 1
  let one (e : Nat × Group) : Nat × Group :=
    if hit e.1 e.2 || many (s.blk e.2.blk).gang then (e.1, { e.2 with preempt := v }) else e
  { s with groups := s.groups.map one }

/-- A request reaches the cores of a die (R180); one whose CRC is bad is discarded (R164). -/
def State.preqArrives (s : State) (pid die : Nat) (x : W64) : State :=
  if s.upset (.preempt die) ≠ 0 then s.weltError none
  else
  let hit (g : Nat) (y : Group) : Bool :=
    let c := s.ctx y.ctx
    dieOf g = die && c.pid = pid && c.asid.toNat = fld x 48 16 && bit64 x (4 + (s.blk y.blk).cls.toNat) && !y.dead
  s.flagGroups hit (!bit64 x 47)

/-- PREEMPT_REQUEST (R180). -/
def execPreemptRequest (pid die : Nat) (x : W64) (s : State) : Out := .next (s.preqArrives pid die x)

/-- A write of PREQ reaches the cores of the partition's named dies 64 ACLK later (R179, R180). -/
def State.preq (s : State) (pid : Nat) (x : W64) : State :=
  (diesOf ((s.part pid).mask &&& .ofNat 4 (fld x 0 4))).foldl (fun s d => s.post 64 (.preemptRequest pid d x)) s

/-- PREQ_RAISE (R179). -/
def execPreqRaise (pid : Nat) (x : W64) (s : State) : Out := .next (s.preq pid (setFld x 47 1 0))
/-- PREQ_CANCEL (R179). -/
def execPreqCancel (pid : Nat) (x : W64) (s : State) : Out := .next (s.preq pid (setFld x 47 1 1))

/-! ## The tick (R181) -/

/-- TICK_LOAD (R181): every counter takes V + 16, on a tick boundary; a load whose CRC is bad is discarded (R164). -/
def execTickLoad (x : W64) (s : State) : Out :=
  .next (if s.upset .tick ≠ 0 then s.weltError none else { s with tick := x + 16, tickOn := true })

/-- TICK_CHECK (R164, R181): a bad message, or a counter that differs, is a Welt error of the package; all counters
here are one. -/
def execTickCheck (crcBad : Bool) (s : State) : Out := .next (if crcBad then s.weltError none else s)

end Sys2Proof.Machine
end

