-- ==== Sys2Proof/Machine/Queue.lean ====
section
/-! DEFINITION. Launch queues and records: tail writes, the checks of a record, its dependences and its working set
(R104 to R106, R205 to R210). -/

namespace Sys2Proof.Machine

/-! ## Queues (R205 to R208) -/

/-- Queue `q` of a partition. -/
def State.queue (s : State) (pid q : Nat) : LQueue := Tab.getD s.queues LQueue.reset (pid * 64 + q)

/-- Change a queue. -/
def State.modQueue (s : State) (pid q : Nat) (f : LQueue → LQueue) : State :=
  { s with queues := Tab.put s.queues (pid * 64 + q) (f (s.queue pid q)) }

/-- The context of a partition with an ASID (R93, R437). -/
def State.ctxOf (s : State) (pid : Nat) (asid : BitVec 16) : Option Nat :=
  (s.ctxs.find? fun e => e.2.pid = pid ∧ e.2.asid = asid).map fun e => e.1

/-- An error stops a queue (R205). -/
def State.stopQueue (s : State) (pid q err : Nat) : State :=
  s.modQueue pid q fun r => { r with en := false, err := .ofNat 4 err }

/-- Records of the ring. -/
def LQueue.size (r : LQueue) : Nat := 2 ^ r.log2n.toNat

/-- Difference of two counts modulo 2^48. -/
def dist48 (a b : Nat) : Nat := (a + 2 ^ 48 - b % 2 ^ 48) % 2 ^ 48

/-- Records that wait: at least HEAD and below the limit (R208). -/
def LQueue.waiting (r : LQueue) : Nat :=
  let n := dist48 r.limit r.head
  if n ≤ r.size then n else 0

/-- IDLE (R205). -/
def LQueue.idle (r : LQueue) : Bool := r.waiting = 0 && r.launch.isNone

/-- The value of the tail register is handled (R208). -/
def State.tailServe (s : State) (pid q : Nat) : State :=
  let r := s.queue pid q
  match s.ctxOf pid r.asid with
  | none => s.stopQueue pid q 4
  | some k =>
    if r.size < dist48 r.tail r.head then s.stopQueue pid q 1
    else
      let c := s.ctx k
      let d := s.leadDie pid
      let dt := s.missLat d c.asid r.base.toNat .r
      match s.vread d c r.base 8 with
      | (s, .error _) => s.stopQueue pid q 3
      | (s, .ok w) =>
        if natOfBytes w % 2 ^ 48 ≠ r.tail then s.stopQueue pid q 2
        else (s.modQueue pid q fun r => { r with limit := r.tail }).postOnce dt (.recordTake pid q)

/-- A write of the tail register (R208). -/
def State.tailWrite (s : State) (pid q : Nat) (t : Nat) : State :=
  let s := s.modQueue pid q fun r => { r with tail := t % 2 ^ 48 }
  if (s.queue pid q).en then s.tailServe pid q else s

/-- EN is set (R205): an error keeps it 0; a held record goes on, and the tail register acts as written afresh. DESIGN
CHOICE (assumption 109): of an illegal LOG2N and an ASID that names no context, the first is recorded. -/
def State.enableQueue (s : State) (pid q : Nat) : State :=
  let r := s.queue pid q
  if r.en ∨ r.err ≠ 0 then s
  else if r.log2n < 4 ∨ 12 < r.log2n then s.stopQueue pid q 3
  else
    let s := s.modQueue pid q fun r => { r with en := true }
    (s.tailServe pid q).postOnce 0 (.recordTake pid q)

/-- A write of QHEAD (R208). -/
def State.headWrite (s : State) (pid q : Nat) (x : Nat) : State :=
  s.modQueue pid q fun r =>
    if r.en then r else { r with head := x % 2 ^ 48, limit := x % 2 ^ 48, tail := x % 2 ^ 48 }

/-- TAIL_REGISTER_WRITE (R208). -/
def execTailRegisterWrite (pid q : Nat) (t : BitVec 48) (s : State) : Out := .next (s.tailWrite pid q t.toNat)
/-- QUEUE_ENABLE (R205). -/
def execQueueEnable (pid q : Nat) (s : State) : Out := .next (s.enableQueue pid q)
/-- QHEAD_WRITE (R208). -/
def execQheadWrite (pid q : Nat) (x : BitVec 48) (s : State) : Out := .next (s.headWrite pid q x.toNat)

/-! ## Records (R209, R210) -/

/-- Threads per block. -/
def Launch.nthr (l : Launch) : Nat := fld (l.word 2) 0 12
/-- Gang size. -/
def Launch.gsize (l : Launch) : Nat := fld (l.word 2) 12 4 + 1
/-- V registers. -/
def Launch.vregs (l : Launch) : Nat := fld (l.word 2) 16 8
/-- S registers. -/
def Launch.sregs (l : Launch) : Nat := fld (l.word 2) 24 8
/-- Spinel arrays per block. -/
def Launch.narr (l : Launch) : Nat := fld (l.word 2) 32 6
/-- Accumulator tiles per block. -/
def Launch.ntile (l : Launch) : Nat := fld (l.word 2) 40 5
/-- Groups per block. -/
def Launch.ngrp (l : Launch) : Nat := (l.nthr + 31) / 32
/-- The block spans a core pair (R46). -/
def Launch.pair (l : Launch) : Bool := 48 < l.ngrp || 24 < l.narr
/-- X, Y and Z. -/
def Launch.gridX (l : Launch) : Nat := fld (l.word 1) 0 24 + 1
/-- Rows of the grid. -/
def Launch.gridY (l : Launch) : Nat := fld (l.word 1) 40 16 + 1
/-- Layers of the grid. -/
def Launch.gridZ (l : Launch) : Nat := fld (l.word 1) 56 8 + 1

/-- A virtual address word of a record: aligned, with bits [63:56] zero. -/
def recAddr (w : W64) (al : Nat) : Bool := w.toNat % al = 0 && fld w 56 8 = 0

/-- Base dies on which a gang of `n` blocks may be placed (R188). -/
def State.baseDies (s : State) (pid n : Nat) : List Nat :=
  let ds := diesOf (s.part pid).mask
  ds.filter fun k => n ≤ 8 || ds.contains ((k + 1) % 4)

/-- The fields of a record are legal (R183, R209, R210). -/
def Launch.legal (l : Launch) : Bool :=
  let w1 := l.word 1
  let w2 := l.word 2
  let w3 := l.word 3
  recAddr (l.word 0) 4 && fld w1 24 16 = 0 && l.gridX * l.gridY * l.gridZ ≤ 2 ^ 32 &&
  fld w2 52 12 = 0 && fld w2 45 3 = 0 && fld w2 38 2 = 0 &&
  1 ≤ l.ntile && l.ntile ≤ 16 && 1 ≤ l.narr && l.narr ≤ 48 && 8 ≤ l.sregs && l.sregs ≤ 128 &&
  16 ≤ l.vregs && 1 ≤ l.nthr && l.nthr ≤ 3072 &&
  fld w3 19 45 = 0 && fld w3 16 3 ≤ 4 && fld w3 16 3 ≤ l.sregs && fld w3 6 2 = 0 && fld w3 2 2 ≤ 2 &&
  (!bit64 w3 0 || recAddr (l.word 4) 16) && (l.deps.all fun d => recAddr d.1 8) &&
  (!bit64 w3 5 || recAddr (l.word 9) 8)

/-- Register slots of a group (R45). -/
def allocOf (v : Nat) : Nat := (v + 7) / 8 * 8

/-- Scheduler of group `g` on its core (R46). -/
def schedNum (pair : Bool) (g : Nat) : Nat := if pair then g / 2 % 4 else g % 4

/-- The share of the groups `gids` of a block on core-in-pair `h` (R46). -/
def gidShare (pair : Bool) (gids : List Nat) (h : Nat) : List Nat :=
  if pair then gids.filter fun g => g % 2 = h else gids

/-- Arrays of a block of `n` on core-in-pair `h` (R33). -/
def arrShare (pair : Bool) (n h : Nat) : Nat :=
  if pair then (if h = 0 then (n + 1) / 2 else n / 2) else n

/-- The groups `gids` on one core fit schedulers with `free i` slots and `used i` register slots taken (R45, R47). -/
def schedFit (pair : Bool) (gids : List Nat) (v : Nat) (free used : Nat → Nat) : Bool :=
  [0, 1, 2, 3].all fun i =>
    let n := (gids.filter fun g => schedNum pair g = i).length
    n = 0 || (n ≤ free i && used i + n * allocOf v ≤ 512)

/-- Arrays a core's capability register reports (R262). -/
def Core.arrays (c : Core) : Nat := popN 24 c.mcap.toNat

/-- Cores of a die on which a block may begin: even ones for a pair. -/
def coresOf (die : Nat) (pair : Bool) : List Nat :=
  ((List.range 64).map fun i => die * 64 + i).filter fun c => !pair || c % 2 = 0

/-- Some core, or pair, of the partition could hold a block when empty (R210). -/
def State.couldHold (s : State) (pid : Nat) (l : Launch) : Bool :=
  let gids := List.range l.ngrp
  let one (core h : Nat) : Bool :=
    arrShare l.pair l.narr h ≤ (s.core (core + h)).arrays &&
    schedFit l.pair (gidShare l.pair gids h) l.vregs (fun _ => 12) (fun _ => 0)
  (diesOf (s.part pid).mask).any fun d =>
    (coresOf d l.pair).any fun c => one c 0 && (!l.pair || one c 1)

/-- Failure code of a record's checks (R210, R213). -/
def State.recordFault (s : State) (l : Launch) : Option Nat :=
  if ¬ l.legal ∨ (s.baseDies l.pid l.gsize).isEmpty then some 3
  else if ¬ s.couldHold l.pid l then some 4
  else none

/-- Change a launch. -/
def State.modLaunch (s : State) (id : Nat) (f : Launch → Launch) : State :=
  { s with launches := Tab.mod s.launches id f }

/-- A record is done with its queue's first place: HEAD advances, and the next may be taken (R210). -/
def State.headOn (s : State) (l : Launch) : State :=
  (s.modQueue l.pid l.q fun r => { r with head := (r.head + 1) % 2 ^ 48, launch := none, prev := some l.id }).postOnce 0
    (.recordTake l.pid l.q)

/-- A record fails (R210, R213). -/
def State.failRecord (s : State) (l : Launch) (code : Nat) : State := (s.headOn l).completeRecord l.id code

/-- A record that has been read is checked and held on the queue's order (R210). -/
def State.recordGo (s : State) (l : Launch) : State :=
  if l.step ≠ .order ∨ s.aclk < l.readyAt then s
  else if l.total = 0 ∧ (s.recordFault l).isSome then s.failRecord l ((s.recordFault l).getD 0)
  else
    let l := { l with total := l.gridX * l.gridY * l.gridZ }
    let held := bit64 (l.word 3) 1 && (match l.prev with | some p => (Tab.get? s.launches p).isSome | none => false)
    if held then s.modLaunch l.id fun _ => l
    else (s.modLaunch l.id fun _ => { l with step := .deps }).postOnce 0 (.dependenceReread l.pid l.q)

/-- Take the queue's next record: its sixteen words are read (R206, R210). -/
def State.takeNext (s : State) (pid q k : Nat) : State :=
  let r := s.queue pid q
  let c := s.ctx k
  let d := s.leadDie pid
  let va := r.base + w64 (128 * (1 + r.head % r.size))
  let dt := s.missLat d c.asid va.toNat .r
  match s.vread d c va 128 with
  | (s, .error _) => s.stopQueue pid q 3
  | (s, .ok w) =>
    let id := s.nextId
    let l : Launch :=
      { id := id, ctx := k, pid := pid, q := q, seq := r.head,
        words := (List.range 16).map fun i => w64 (natOfBytes ((w.drop (8 * i)).take 8)),
        at_ := va, cls := r.cls, step := .order, placed := 0, ended := 0, total := 0, prev := r.prev,
        readyAt := s.aclk + dt, seen := [], met := 0 }
    let s := { s with nextId := id + 1, launches := Tab.put s.launches id l }
    (s.modQueue pid q fun r => { r with launch := some id }).post dt (.recordTake pid q)

/-- Have the controller place blocks `dt` ACLK from now at the latest (R211). -/
def State.postPlace (s : State) (pid dt : Nat) : State :=
  if s.agenda.any fun e => e.ev = .blockPlace pid && e.due ≤ s.aclk + dt then s
  else ({ s with agenda := s.agenda.filter fun e => e.ev ≠ .blockPlace pid } : State).post dt (.blockPlace pid)

/-- RECORD_TAKE (R208, R210): a queue that dispatches takes a record, or goes on with the one it holds. -/
def State.takeRecord (s : State) (pid q : Nat) : State :=
  let r := s.queue pid q
  if ¬ r.en then s
  else match r.launch with
    | some id =>
      match Tab.get? s.launches id with
      | some l =>
        match l.step with
        | .order => s.recordGo l
        | .deps => s.postOnce 0 (.dependenceReread pid q)
        | .wset => s.postOnce (l.readyAt - s.aclk) (.workingSetPrewalk pid q)
        | _ => s.postPlace pid 0
      | none => s
    | none =>
      if r.waiting = 0 then s
      else match s.ctxOf pid r.asid with
        | none => s.stopQueue pid q 4
        | some k => if (s.ctx k).ending.isSome then s else s.takeNext pid q k

/-- RECORD_TAKE (R208, R210). -/
def execRecordTake (pid q : Nat) (s : State) : Out := .next (s.takeRecord pid q)

/-- The launch a queue holds at a step, while it dispatches. -/
def State.heldAt (s : State) (pid q : Nat) (st : LStep) : Option Launch :=
  let r := s.queue pid q
  match r.launch with
  | some id =>
    match Tab.get? s.launches id with
    | some l => if r.en ∧ l.step = st ∧ (s.ctx l.ctx).ending.isNone then some l else none
    | none => none
  | none => none

/-- Outcome of reading a launch's dependences: time taken, those met, and whether a read was refused. -/
def State.readDeps (s : State) (l : Launch) : State × Nat × BitVec 2 × Bool :=
  let c := s.ctx l.ctx
  let d := s.leadDie l.pid
  (numbered 0 l.deps).foldl (fun r e =>
    let (s, t, m, bad) := r
    if m.toNat / 2 ^ e.1 % 2 = 1 ∨ bad then r
    else
      let dt := s.missLat d c.asid e.2.1.toNat .r
      match s.vread d c e.2.1 8 with
      | (s, .error _) => (s, t, m, true)
      | (s, .ok w) =>
        (s, t + dt, if e.2.2.toNat ≤ natOfBytes w then m ||| .ofNat 2 (2 ^ e.1) else m, false)) (s, 0, l.met, false)

/-- DEPENDENCE_REREAD (R210): a launch held on signal objects reads those not yet satisfied. -/
def State.rereadDeps (s : State) (pid q : Nat) : State :=
  match s.heldAt pid q .deps with
  | none => s
  | some l =>
    let (s, dt, m, bad) := s.readDeps l
    if bad then s.failRecord l 5
    else
      let l := { l with met := m }
      if m.toNat = 2 ^ l.deps.length - 1 then
        (s.modLaunch l.id fun _ => { l with step := .wset, readyAt := s.aclk + dt }).postOnce dt (.workingSetPrewalk pid q)
      else (s.modLaunch l.id fun _ => l).postOnce 2048 (.dependenceReread pid q)

/-- DEPENDENCE_REREAD (R210). -/
def execDependenceReread (pid q : Nat) (s : State) : Out := .next (s.rereadDeps pid q)

/-! ## Working sets (R104 to R106) -/

/-- Pre-walk `n` pages from an address on, each in its turn among the walks of its slice (R100): the time at which the
last one ends, or a failure. -/
def State.walkPages (s : State) (die : Nat) (asid : BitVec 16) (wr : Bool) : Nat → Nat → Nat → State × Option Nat
  | 0, _, t => (s, some t)
  | n + 1, va, t =>
    match walk s die asid va with
    | some (.leaf l) =>
      if bit64 l.bits 5 ∧ bit64 l.bits 2 ∧ (¬ wr ∨ bit64 l.bits 3) then
        let (s, due) := s.walkFor die asid va (s.aclk + t) (s.walkTime die asid va .r false) true
        State.walkPages (s.walkXlate die asid va .r false true true).1 die asid wr n (va + 2 ^ 16) (due - s.aclk)
      else (s, none)
    | _ => (s, none)

/-- Pre-walk one descriptor entry from time `t` on (R104, R105). DESIGN CHOICE (assumption 108): an entry with PAGES = 0,
which R104 does not allow and R105 does not name, fails as the ones R105 names do. -/
def State.walkEntry (s : State) (l : Launch) (e t : Nat) : State × Option Nat :=
  let c := s.ctx l.ctx
  let base := w64 (e % 2 ^ 64)
  let pages := bitsN e 64 32
  let die := vaDie base
  if bitsN e 97 31 ≠ 0 ∨ bitsN e 56 8 ≠ 0 ∨ bitsN e 0 16 ≠ 0 ∨ pages = 0 ∨ ¬ oneDie base (pages * 2 ^ 16) ∨
      vaCheck s c (s.leadDie l.pid) base ≠ .ok ∨ s.pathDown (s.leadDie l.pid) die then (s, none)
  else s.walkPages die c.asid (bitsN e 96 1 = 1) pages base.toNat t

/-- Pre-walk a launch's working set, entry by entry. -/
def State.walkSet (s : State) (l : Launch) : State × Option Nat :=
  let c := s.ctx l.ctx
  let d := s.leadDie l.pid
  (List.range (fld (l.word 3) 8 8 + 1)).foldl (fun r i =>
    match r with
    | (s, none) => (s, none)
    | (s, some t) =>
      let va := l.word 4 + w64 (16 * i)
      let dt := s.missLat d c.asid va.toNat .r
      match s.vread d c va 16 with
      | (s, .error _) => (s, none)
      | (s, .ok w) =>
        s.walkEntry l (natOfBytes w) (t + dt)) (s, some 0)

/-- WORKING_SET_PREWALK (R105, R210): then the record's blocks may be placed, from 64 ACLK later on. -/
def State.prewalk (s : State) (pid q : Nat) : State :=
  match s.heldAt pid q .wset with
  | none => s
  | some l =>
    let (s, r) := if bit64 (l.word 3) 0 then s.walkSet l else (s, some 0)
    match r with
    | none => s.failRecord l 2
    | some t =>
      (s.modLaunch l.id fun l => { l with step := .place, readyAt := s.aclk + t + 64 }).postPlace pid (t + 64)

/-- WORKING_SET_PREWALK (R105, R210). -/
def execWorkingSetPrewalk (pid q : Nat) (s : State) : Out := .next (s.prewalk pid q)

/-- RECORD_COMPLETE (R213): a launch whose blocks have all ended completes. -/
def execRecordComplete (launch : Nat) (s : State) : Out :=
  match Tab.get? s.launches launch with
  | some l => .next (if l.step = .run ∧ l.ended = l.total then s.completeRecord launch 1 else s)
  | none => .next s

end Sys2Proof.Machine
end

