-- ==== Sys2Proof/Machine/Place.lean ====
section
/-! DEFINITION. Placement: blocks and gangs on cores, groups in slots, restored blocks, and the pre-emption that makes
room for class 0 (R43 to R47, R52, R55, R56, R187, R188, R211, R212, R408 to R410). -/

namespace Sys2Proof.Machine

/-! ## Free choices -/

/-- `n` elements of a list, each by a free choice. -/
def pickMany {α : Type} [DecidableEq α] : Nat → List α → Nat → List α
  | 0, _, _ => []
  | n + 1, l, k =>
    match pickOf l k with
    | some x => x :: pickMany n (l.erase x) (k + 1)
    | none => []

/-- A list in a free order. -/
def State.shuffle {α : Type} [DecidableEq α] (s : State) (l : List α) : List α := pickMany l.length l s.fresh

/-- Ascending order. -/
def ascending (l : List Nat) : List Nat := l.foldl (fun a x => insBy id x a) []

/-! ## What is free on a core (R45, R47) -/

/-- Free slots of a scheduler. -/
def State.slotsFree (s : State) (core sched : Nat) : List Nat :=
  ((List.range 12).map fun i => core * 48 + sched * 12 + i).filter fun g => (Tab.get? s.groups g).isNone

/-- Register slots taken on a scheduler. -/
def State.vecUsed (s : State) (core sched : Nat) : Nat :=
  (s.groups.filter fun e => e.1 / 12 = core * 4 + sched).foldl (fun n e => n + allocOf e.2.vdecl) 0

/-- Unassigned arrays of a core that are not fenced. -/
def State.arrsFree (s : State) (core : Nat) : List Nat :=
  ((List.range 24).filter fun a =>
    let x := s.arr (core * 24 + a)
    x.blk.isNone && x.st ≠ .fenced && (s.core core).mcap.toNat / 2 ^ a % 2 = 1).map fun a => core * 24 + a

/-- Unassigned tiles of a core. -/
def State.tilesFree (s : State) (core : Nat) : List Nat :=
  (List.range 64).filter fun t => (Tab.get? s.tileOwn (core * 64 + t)).isNone

/-- The share of a block on one core fits it (R47). -/
def State.fitsCore (s : State) (b : Block) (gids : List Nat) (core h : Nat) : Bool :=
  schedFit b.pair (gidShare b.pair gids h) b.vregs (fun i => (s.slotsFree core i).length) (fun i => s.vecUsed core i) &&
  arrShare b.pair b.narr h ≤ (s.arrsFree core).length && b.ntile ≤ (s.tilesFree core).length

/-- A block with the groups `gids` fits a core, or a pair from it on. -/
def State.fitsAt (s : State) (b : Block) (gids : List Nat) (core : Nat) : Bool :=
  s.fitsCore b gids core 0 && (!b.pair || s.fitsCore b gids (core + 1) 1)

/-! ## Granting (R33, R56) -/

/-- Grant a block its arrays on one core, after those it has (R27): in STORAGE, every byte zero. -/
def State.grantArrs (s : State) (b : Block) (core h : Nat) : State × Block :=
  let l := ascending (pickMany (arrShare b.pair b.narr h) (s.arrsFree core) s.fresh)
  let s := l.foldl (fun s a => s.modArr a fun x => { Arr.reset with steps := x.steps, calib := x.calib, blk := some b.id }) s.tickFree
  (s, { b with arrs := b.arrs ++ numbered b.arrs.length l })

/-- Grant a block its tiles on one core: every element +0.0 (R33). -/
def State.grantTiles (s : State) (b : Block) (core h : Nat) : State × Block :=
  let l := ascending (pickMany b.ntile (s.tilesFree core) s.fresh)
  let s := { s with
    tileOwn := l.foldl (fun t i => Tab.put t (core * 64 + i) b.id) s.tileOwn
    tiles := s.tiles.filter fun e => !(l.any fun i => e.1 / 1024 = core * 64 + i) }
  let m := numbered 0 l
  (s.tickFree, if h = 0 then { b with tiles0 := m } else { b with tiles1 := m })

/-- Grant a block what it needs on one core of its share. -/
def State.grantCore (s : State) (b : Block) (h : Nat) : State × Block :=
  let (s, b) := s.grantArrs b (b.core + h) h
  s.grantTiles b (b.core + h) h

/-- A context's counter bank is bound on a core (R410). -/
def State.pmBind (s : State) (core ctx : Nat) : State :=
  if s.pms.any fun b => b.core = core && b.ctx = ctx then s
  else
    let c := s.ctx ctx
    let zero : PmBank := ⟨core, ctx, [], []⟩
    if bit64 c.pmsave 63 then
      match s.vread (dieOfCore core) c (pmAddr c core) 128 with
      | (s, .ok l) =>
        let ctr := (List.range 16).foldl (fun t k => Tab.set t 0 k (w64 (natOfBytes ((l.drop (8 * k)).take 8)))) []
        { s with pms := s.pms ++ [⟨core, ctx, ctr, []⟩] }
      | (s, .error _) =>
        ({ s with pms := s.pms ++ [zero] } : State).modCtx ctx fun c => { c with pmsave := setFld c.pmsave 62 1 1 }
    else { s with pms := s.pms ++ [zero] }

/-- The active set of a slot's scheduler has room (R214). -/
def State.hasRoom (s : State) (g : Nat) : Bool := ((s.onSched (g / 12)).filter fun e => e.2.active).length < 8

/-- The slot is held for a group that GO will create (R408). -/
def Group.unborn (x : Group) : Bool := x.thr.isEmpty

/-- A group is created in a slot: it enters the active set if that has room (R214). A place held for one does not. -/
def State.addGroup (s : State) (g : Nat) (x : Group) : State :=
  (s.setGrp g { x with active := !x.unborn && s.hasRoom g }).pmBind (coreOf g) x.ctx

/-- Create a block's groups, each in a free slot of its scheduler (R46); `mk` makes the group of a slot and a GID. -/
def State.addGroups (s : State) (b : Block) (gids : List Nat) (mk : Nat → Nat → Group) : State × Block :=
  gids.foldl (fun r n =>
    let (s, b) := r
    let core := if b.pair then b.core + n % 2 else b.core
    match pickOf (s.slotsFree core (schedNum b.pair n)) s.fresh with
    | some g => (s.tickFree.addGroup g (mk g n), { b with places := Tab.put b.places n (.slot g) })
    | none => (s, b)) (s, b)

/-- A core starts a block of a launch: the first time, it invalidates its read-only partition and the instruction-cache
lines of the launch's ASID (R52, R55), and its normal partition, which gives the launch edge (R151). -/
def State.startOn (s : State) (l : Nat) (asid : BitVec 16) (core : Nat) : State :=
  match Tab.get? s.launches l with
  | none => s
  | some r =>
    if r.seen.contains core then s
    else
      let s := s.modLaunch l fun r => { r with seen := core :: r.seen }
      (s.invNormal core).modCore core fun c => { c with l1 := [], ic := c.ic.filter fun e => e.asid ≠ asid }

/-- Place a block with the groups `gids` on a core, or the pair from it on (R187). -/
def State.placeAt (s : State) (b : Block) (gids : List Nat) (core : Nat) (mk : Block → Nat → Nat → Group) : State :=
  let asid := (s.ctx b.ctx).asid
  let s := s.startOn b.launch asid core
  let s := if b.pair then s.startOn b.launch asid (core + 1) else s
  let b := { b with core := core, arrs := [], tiles0 := [], tiles1 := [], ord := s.nextId }
  let s := { s with nextId := s.nextId + 1 }
  let (s, b) := s.grantCore b 0
  let (s, b) := if b.pair then s.grantCore b 1 else (s, b)
  let (s, b) := s.addGroups b gids (mk b)
  { s with blocks := Tab.put s.blocks b.id b }

/-- Cores of a die that a block fits, in a free order. -/
def State.coresFor (s : State) (b : Block) (gids : List Nat) (die : Nat) : List Nat :=
  s.shuffle ((coresOf die b.pair).filter fun c => s.fitsAt b gids c)

/-- Place a block on some core of a die that it fits. -/
def State.placeOn (s : State) (b : Block) (gids : List Nat) (die : Nat) (mk : Block → Nat → Nat → Group) : Option State :=
  match s.coresFor b gids die with
  | core :: _ => some (s.tickFree.placeAt b gids core mk)
  | [] => none

/-- Die of a rank of a gang on base die `k` (R188). -/
def rankDie (k rank : Nat) : Nat := if rank < 8 then k else (k + 1) % 4

/-! ## New blocks (R187, R188, R211) -/

/-- A block of a launch before it is placed. -/
def Launch.block (l : Launch) (id gang lin rank now : Nat) : Block :=
  { Block.nil with
    id := id, ctx := l.ctx, launch := l.id, gang := gang, lin := lin, rank := rank, pair := l.pair, ntile := l.ntile,
    narr := l.narr, nthr := l.nthr, vregs := l.vregs, sregs := l.sregs, seqLq := launchId l.seq l.q, cls := l.cls,
    age := now, live := l.ngrp }

/-- YLIMM1 of a launch. -/
def Launch.ylim (l : Launch) : Nat := fld (l.word 2) 48 4

/-- A new group of a launch (R43, R191, R209). -/
def Launch.group (l : Launch) (c : Ctx) (now : Nat) (b : Block) (g gid : Nat) : Group :=
  let x := newGroup b c g gid (threadsOf gid l.nthr) now l.ylim now (l.word 0)
  (List.range (fld (l.word 3) 16 3)).foldl (fun x i => x.setS i (l.word (11 + i))) x

/-- Place a gang of a launch, of blocks `lin` to `lin + n - 1`, on base die `k`: all of it or nothing. -/
def State.placeGang (s : State) (l : Launch) (lin n k : Nat) : Option State :=
  let gang := s.nextId
  let c := s.ctx l.ctx
  let gids := List.range l.ngrp
  let one (r : Option State) (rank : Nat) : Option State :=
    match r with
    | none => none
    | some s =>
      let id := s.nextId
      let b := l.block id gang (lin + rank) rank s.aclk
      (({ s with nextId := id + 1 } : State).placeOn b gids (rankDie k rank) (l.group c s.aclk)).map fun s =>
        { s with gangs := Tab.mod s.gangs gang fun g => { g with blks := Tab.put g.blks rank id } }
  let g : Gang := ⟨gang, l.id, lin / l.gsize, l.gsize, k, [], 0, 0, 0, false⟩
  (List.range n).foldl one (some { s with nextId := gang + 1, gangs := Tab.put s.gangs gang g })

/-- Place the next block or gang of a launch on a base die of a free choice (R188, R211). -/
def State.placeNext (s : State) (l : Launch) : Option State :=
  let n := min l.gsize (l.total - l.placed)
  match (s.shuffle (s.baseDies l.pid l.gsize)).findSome? fun k => s.placeGang l l.placed n k with
  | none => none
  | some t =>
    let t := if l.placed = 0 then
        t.trace (s.leadDie l.pid) 6 (s.ctx l.ctx).asid 0 (launchId l.seq l.q) l.at_
      else t
    let t := t.modLaunch l.id fun l => { l with placed := l.placed + n }
    some (if l.placed + n = l.total then (t.modLaunch l.id fun l => { l with step := .run }).headOn l else t)

/-! ## Restored blocks (R407 to R409) -/

/-- The groups of a saved block and their images. -/
def Block.parked (b : Block) : List (Nat × W64) :=
  b.places.filterMap fun p => match p.2 with | .parked i => some (p.1, i) | _ => none

/-- A group as its image restores it: at level 1 at TVEC1, with cause RESTORE (R408). -/
def restoredGroup (b : Block) (c : Ctx) (g yl now : Nat) (img : W64) (rec : List Byte) : Group :=
  let n := natOfBytes (rec.drop 16)
  let thr := (lanes32.filter fun l => bitsN n (12 * l) 12 ≠ 0xFFF).map fun l => (l, bitsN n (12 * l) 12)
  let gid := natOfBytes (rec.take 8) % 128
  let x := newGroup b c g gid thr (natOfBytes ((rec.drop 8).take 8)) yl now (keep c.tvec1 0xFFFFFFFFFFFFFC)
  { x with
    level := 1
    bank1 := { TrapBank.reset with
      tcause := 0x0E, tval := b.swBase, tmask := w64 x.a.own.toNat, tsave := img } }

/-- A place held for a group that GO will create. -/
def unbornGroup (b : Block) (c : Ctx) (g gid yl now : Nat) (img : W64) : Group :=
  let x := newGroup b c g gid [] now yl now 0
  { x with bank1 := { TrapBank.reset with tsave := img } }

/-- YLIMM1 of a block's launch. -/
def State.ylimOf (s : State) (b : Block) : Nat :=
  match Tab.get? s.launches b.launch with
  | some l => l.ylim
  | none => 15

/-- A group's restore is a fence at SYSTEM scope (R151). -/
def State.restoreFence (s : State) (b : Block) : State :=
  if b.pair then (s.invNormal b.core).invNormal (b.core + 1) else s.invNormal b.core

/-- Restore a saved block on some core of a die: its leader is created, and places are held for its other groups. A
leader whose image cannot be read is not created, and the block stays saved. -/
def State.restoreOn (s : State) (k die : Nat) : Option State :=
  let b := s.blk k
  let c := s.ctx b.ctx
  let img (n : Nat) : W64 := match b.parked.find? fun e => e.1 = n with | some e => e.2 | none => 0
  let lead := b.swLead.getD 0
  match s.vread die c (img lead) 64 with
  | (_, .error _) => none
  | (s, .ok rec) =>
    let yl := s.ylimOf b
    let mk (b : Block) (g n : Nat) : Group :=
      if n = lead then restoredGroup b c g yl s.aclk (img n) rec else unbornGroup b c g n yl s.aclk (img n)
    let b := { b with
      saved := false, ready := false, going := true, swArm := false, asked := none, hnds := [], gates := [],
      rend := [], spstat := 0, mxcfg0 := 0, mxcfg1 := 0, mxcfg2 := 0 }
    (s.placeOn b (b.parked.map fun e => e.1) die mk).map fun s => s.restoreFence (s.blk k)

/-- Restore a saved gang whole, on a base die of a free choice (R409). -/
def State.restoreGang (s : State) (pid gang : Nat) : Option State :=
  let g := s.gang gang
  let one (k : Nat) (r : Option State) (e : Nat × Nat) : Option State :=
    match r with
    | none => none
    | some s => s.restoreOn e.2 (rankDie k e.1)
  match (s.shuffle (s.baseDies pid g.size)).findSome? fun k =>
      (g.blks.foldl (one k) (some s)).map fun s => ({ s with gangs := Tab.put s.gangs gang { g with base := k } } : State) with
  | none => none
  | some t =>
    some (t.modPart pid fun p => { p with saved := p.saved.filter fun b => !(g.blks.any fun e => e.2 = b) }).wakePark

/-- A block's gang is saved whole. -/
def State.gangSaved (s : State) (k : Nat) : Bool := (s.gang (s.blk k).gang).blks.all fun e => (s.blk e.2).saved

/-- GO (R408): each group that waits for it is created from its image. -/
def State.birth (s : State) (k : Nat) : State :=
  let s := s.modBlk k fun b => { b with going := false, ready := true }
  let b := s.blk k
  let c := s.ctx b.ctx
  let yl := s.ylimOf b
  let one (s : State) (g : Nat) : State :=
    match Tab.get? s.groups g with
    | some x =>
      if x.unborn then
        match s.vread (dieOf g) c x.bank1.tsave 64 with
        | (s, .ok rec) => s.setGrp g { restoredGroup b c g yl s.aclk x.bank1.tsave rec with active := s.hasRoom g }
        | (s, .error _) => s
      else s
    | none => s
  ((b.resident.foldl one s).restoreFence b).wakeAll fun w => w = .rank

/-! ## Pre-emption for class 0 (R212) -/

/-- The state as it would be once a block's resources have returned. -/
def State.without (s : State) (k : Nat) : State :=
  let s := s.freeBlock (s.blk k)
  { s with groups := s.groups.filter fun e => e.2.blk ≠ k }

/-- Blocks of class `t` or a higher number that have groups on a core, or on the pair from it on. -/
def State.victims (s : State) (core : Nat) (pair : Bool) (t : Nat) : List Nat :=
  let here := s.groups.filter fun e => coreOf e.1 = core || (pair && coreOf e.1 = core + 1)
  (uniq (here.map fun e => e.2.blk)).filter fun k => t ≤ (s.blk k).cls.toNat

/-- The fewest classes of a core whose removal makes a block fit: the lowest class number removed. -/
def State.evictAt (s : State) (b : Block) (gids : List Nat) (core : Nat) : Option Nat :=
  [3, 2, 1].find? fun t => ((s.victims core b.pair t).foldl State.without s).fitsAt b gids core

/-- Blocks to pre-empt, on how many cores or pairs they leave room, and the lowest class number among those classes. -/
structure Evict where
  blks : List Nat
  cores : Nat
  cls : Nat
  deriving DecidableEq, Repr

/-- The core of a die at which the highest classes suffice, and what to pre-empt there. -/
def State.evictOn (s : State) (b : Block) (gids : List Nat) (die : Nat) : Option (Nat × Evict) :=
  let cs := s.shuffle (coresOf die b.pair)
  [3, 2, 1].findSome? fun t =>
    (cs.find? fun c => s.evictAt b gids c = some t).map fun c => (c, ⟨s.victims c b.pair t, 1, t⟩)

/-- What to pre-empt so that some blocks, given with their groups and dies, all fit. -/
def State.evictFor (s : State) (l : List (Block × List Nat × Nat)) : Option Evict :=
  let place (s : State) (b : Block) (gids : List Nat) (core : Nat) : State :=
    s.placeAt b gids core fun b g n => newGroup b Ctx.nil g n [] 0 0 0 0
  (l.foldl (fun r e =>
    match r with
    | none => none
    | some (s, v) =>
      match s.coresFor e.1 e.2.1 e.2.2 with
      | c :: _ => some (place s e.1 e.2.1 c, v)
      | [] =>
        match s.evictOn e.1 e.2.1 e.2.2 with
        | some (c, w) =>
          some (place (w.blks.foldl State.without s) e.1 e.2.1 c, ⟨v.blks ++ w.blks, v.cores + 1, min v.cls w.cls⟩)
        | none => none) (some (s, (⟨[], 0, 4⟩ : Evict)))).map fun r => r.2

/-- `v` is chosen over `w` (R212): fewer cores, then the higher classes. -/
def Evict.over (v w : Evict) : Bool := v.cores < w.cores || (v.cores = w.cores && w.cls < v.cls)

/-- The groups to pre-empt for some blocks, over the base dies that allow them (R212). -/
def State.evictBest (s : State) (pid n : Nat) (f : Nat → List (Block × List Nat × Nat)) : List Nat :=
  let all := (s.shuffle (s.baseDies pid n)).filterMap fun k => s.evictFor (f k)
  let best := all.foldl (fun (a : Option Evict) v =>
    match a with
    | none => some v
    | some w => if v.over w then some v else a) none
  match best with
  | some v => v.blks
  | none => []

/-- Some block asked to leave is still resident: no more are asked until they have left. -/
def State.leaving (s : State) (ks : List Nat) : Bool := ks.any fun k => (Tab.get? s.blocks k).any fun b => !b.saved

/-- Set the pre-emption flags of blocks' groups. -/
def State.flagBlocks (s : State) (ks : List Nat) : State := s.flagGroups (fun _ x => ks.contains x.blk) true

/-- Ask for room for a class-0 launch's next block or gang; again when those asked have left and it still does not fit. -/
def State.askLaunch (s : State) (l : Launch) : State :=
  if l.asked.any fun a => a.1 = l.placed && s.leaving a.2 then s
  else
    let s := s.tickFree
    let gids := List.range l.ngrp
    let ks := s.evictBest l.pid l.gsize fun k =>
      (List.range (min l.gsize (l.total - l.placed))).map fun r => (l.block (s.nextId + r) 0 0 r 0, gids, rankDie k r)
    (s.modLaunch l.id fun l => { l with asked := some (l.placed, ks) }).flagBlocks ks

/-- Ask for room for a saved class-0 gang; again when those asked have left and it still does not fit. -/
def State.askSaved (s : State) (pid k : Nat) : State :=
  if (s.blk k).asked.any fun ks => s.leaving ks then s
  else
    let g := s.gang (s.blk k).gang
    let s := s.tickFree
    let ks := s.evictBest pid g.size fun d =>
      g.blks.map fun e => let b := s.blk e.2; (b, b.parked.map fun p => p.1, rankDie d e.1)
    (g.blks.foldl (fun s e => s.modBlk e.2 fun b => { b with asked := some ks }) s).flagBlocks ks

/-! ## The order of placement (R211) -/

/-- Saved blocks of a class that can be restored, oldest first. -/
def State.savedOf (s : State) (pid cls : Nat) : List Nat :=
  (s.part pid).saved.filter fun k =>
    (s.blk k).cls.toNat = cls && s.gangSaved k && (s.ctx (s.blk k).ctx).ending.isNone

/-- Launches of a class that wait in step 5, by queue from the one whose turn it is. -/
def State.turnOf (s : State) (pid cls : Nat) : List Launch :=
  let ready (e : Nat × Launch) : Bool :=
    let l := e.2
    l.pid = pid && l.step = .place && l.cls.toNat = cls && l.readyAt ≤ s.aclk && (s.queue pid l.q).en &&
    (s.ctx l.ctx).ending.isNone
  let all := (s.launches.filter ready).map fun e => e.2
  let rr := Tab.getD (s.part pid).rr 0 cls
  let byQ := all.foldl (fun a l => insBy (fun l : Launch => (l.q + 64 - rr) % 64) l a) []
  byQ

/-- Place one block or gang of a class, if one fits. -/
def State.placeClass (s : State) (pid cls : Nat) : Option State :=
  match (s.savedOf pid cls).findSome? fun k => s.restoreGang pid (s.blk k).gang with
  | some t => some t
  | none =>
    (s.turnOf pid cls).findSome? fun l => (s.placeNext l).map fun t =>
      t.modPart pid fun p => { p with rr := Tab.put p.rr cls ((l.q + 1) % 64) }

/-- Class-0 blocks that fit nowhere have room made for them. -/
def State.askClass0 (s : State) (pid : Nat) : State :=
  let s := (s.savedOf pid 0).foldl (fun s k => s.askSaved pid k) s
  (s.turnOf pid 0).foldl (fun s l => s.askLaunch l) s

/-- Something waits for a place on the partition: when to look again. -/
def State.nextPlace (s : State) (pid : Nat) : Option Nat :=
  let wait := s.launches.filter fun e => e.2.pid = pid && e.2.step = .place && (s.queue pid e.2.q).en
  let dts := wait.map fun e => max 4 (e.2.readyAt - s.aclk)
  let dts := if (s.part pid).saved.isEmpty then dts else 4 :: dts
  match dts with
  | [] => none
  | d :: r => some (r.foldl min d)

/-- A class-0 record whose tail write has been taken has blocks to place: they start before any block of class 1 to 3
placed after that write (R212). DEDUCED (assumption 47): this is so in every step of R210 and where the block fits
nowhere, over R211's last sentence; a saved class-0 block, which has started already, keeps no other queue back. -/
def State.urgent (s : State) (pid : Nat) : Bool :=
  s.queues.any fun e => e.1 / 64 = pid && e.2.en && e.2.cls = 0 && !e.2.idle

/-- BLOCK_PLACE (R211, R212): one block or gang is placed. -/
def State.place (s : State) (pid : Nat) : State :=
  let t :=
    match s.placeClass pid 0 with
    | some t => t
    | none =>
      let s := s.askClass0 pid
      if s.urgent pid then s else (([1, 2, 3].findSome? fun k => s.placeClass pid k).getD s)
  match t.nextPlace pid with
  | some dt => t.postPlace pid dt
  | none => t

/-- BLOCK_PLACE (R187, R188, R211, R212). -/
def execBlockPlace (pid : Nat) (s : State) : Out := .next (s.place pid)

/-- BLOCK_RESTORE (R408, R409): the oldest saved block or gang that fits is restored, the lower class numbers first. -/
def execBlockRestore (pid : Nat) (s : State) : Out :=
  .next (([0, 1, 2, 3].findSome? fun k =>
    (s.savedOf pid k).findSome? fun b => s.restoreGang pid (s.blk b).gang).getD s)

end Sys2Proof.Machine
end

