-- ==== Sys2Proof/Machine/Ending.lean ====
section
/-! DEFINITION. The end of a context: its teardown, the end record, retire and kill (R117, R128, R178, R205, R402,
R403, R410). -/

namespace Sys2Proof.Machine

/-! ## What a context holds (R402) -/

/-- No context has this key: what a bank of an ended context names while it leaves Agate mode. Another context's AGON or
AGOFF that reaches such a bank is refused as at a bank another context holds (R389, assumption 111). -/
def noCtx : Nat := 4096

/-- Take a bank of context `k` out of Agate mode as by AGOFF; its commands not begun are discarded, and other contexts'
are left (R117). -/
def State.bankEnd (s : State) (k bank : Nat) : State :=
  let s := { s with agenda := s.agenda.filter fun e => e.ev ≠ Instr.agateCommandComplete bank }
  let s := s.modBank bank fun b =>
    { b with ctx := some noCtx, coming := b.coming.filter fun e => e.2.ctx ≠ k, queue := [], busy := false, hold := [] }
  match (s.bank bank).mode with
  | .agate => s.agoffAccept bank none
  | .entering => s.modBank bank fun b => { b with hold := [⟨s.nextId, noCtx, .off, 0, 0⟩] }
  | _ => s

/-- Every bank of a context leaves Agate mode, and commands of the context elsewhere are dropped (R117). -/
def State.banksEnd (s : State) (k : Nat) : State :=
  let s := s.banks.foldl (fun s e =>
    if e.2.ctx = some k then s.bankEnd k e.1
    else
      let mine (a : AgEntry) : Bool := a.ctx = k
      s.modBank e.1 fun b =>
        { b with coming := b.coming.filter fun a => !mine a.2, queue := b.queue.filter fun a => !mine a,
                 hold := b.hold.filter fun a => !mine a }) s
  { s with nextId := s.nextId + 1 }

/-- Prefetch-filter entries of an ASID on its partition's dies are disarmed (R128); where one is, the die is in overflow
no longer. -/
def State.pfEnd (s : State) (pid : Nat) (asid : BitVec 16) : State :=
  let one (d : Die) : Die :=
    { d with pf := d.pf.filter fun e => e.asid ≠ asid,
             pfOver := if d.pf.any fun e => e.asid = asid then [] else d.pfOver.filter fun a => a ≠ asid }
  (diesOf (s.part pid).mask).foldl (fun s d => s.modDie d one) s

/-- A context's operations stop for good (R402). -/
def State.opsEnd (s : State) (k : Nat) : State :=
  let ids := (s.ops.filter fun e => e.2.ctx = k).map fun e => e.1
  let free (a : Arr) : Arr := match a.busy with
    | some i => if ids.contains i then { a with busy := none } else a
    | none => a
  let core (c : Core) : Core :=
    { c with mxq := c.mxq.filter fun i => !ids.contains i,
             mxHold := c.mxHold.filter fun i => !ids.contains i }
  { s with ops := s.ops.filter fun e => e.2.ctx ≠ k
           peerOut := s.peerOut.filter fun p => !ids.contains p.op
           arrs := s.arrs.map fun e => (e.1, free e.2)
           cores := s.cores.map fun e => (e.1, core e.2) }

/-- A context's blocks, gangs and launches go, saved blocks with them (R402). -/
def State.blocksEnd (s : State) (k : Nat) : State :=
  let mine := (s.blocks.filter fun e => e.2.ctx = k).map fun e => e.2
  let s := mine.foldl State.freeBlock s
  let ids := mine.map fun b => b.id
  let ls := (s.launches.filter fun e => e.2.ctx = k).map fun e => e.1
  let s := { s with
    blocks := s.blocks.filter fun e => e.2.ctx ≠ k
    gangs := s.gangs.filter fun e => !ls.contains e.2.launch
    launches := s.launches.filter fun e => e.2.ctx ≠ k }
  (s.modPart (s.ctx k).pid fun p => { p with saved := p.saved.filter fun b => !ids.contains b }).wakePark

/-- The queues of an ended context stop with KILLED (R205). -/
def State.queuesEnd (s : State) (pid : Nat) (asid : BitVec 16) : State :=
  (List.range 64).foldl (fun s q =>
    if (s.queue pid q).asid = asid then
      (s.stopQueue pid q 5).modQueue pid q fun r => { r with launch := none, prev := none }
    else s) s

/-- A context's counter banks are stored back (R410). -/
def State.pmsEnd (s : State) (k : Nat) : State :=
  (s.pms.filter fun b => b.ctx = k).foldl (fun s b => s.pmSpill b.core k) s

/-- Steps 1 to 5 of R402. -/
def State.teardown (s : State) (k cec : Nat) : State :=
  let c := s.ctx k
  let s := s.pmsEnd k
  let s := { s with groups := s.groups.filter (fun e => e.2.ctx ≠ k), ghosts := s.ghosts.filter fun e => e.ctx ≠ k }
  let s := (s.opsEnd k).blocksEnd k
  let s := (grantKeys c.pdmask c.wgrant).foldl State.chanReset s
  let s := (s.banksEnd k).pfEnd c.pid c.asid
  let s := if cec = 0 then s else s.queuesEnd c.pid c.asid
  let s := s.unpin c.pid c.asid
  let one (d : Die) : Die := { d with xmapq := d.xmapq.filter fun r => (Tab.get? s.groups r.g).isSome }
  let s : State := { s with dies := s.dies.map fun (d : Nat × Die) => (d.1, one d.2) }
  s.modPart c.pid fun p => { p with qstop := unstop k p.qstop }

/-! ## The end record (R403) -/

/-- Write a context's end record, and tell the host; the context-table entry is free again (R403, R437). -/
def State.recordEnd (s : State) (k : Nat) (e : Nat × W64 × Nat × Nat × W64 × W64) : State :=
  let (cec, tick, src, tc, val, pc) := e
  let c := s.ctx k
  let p := s.part c.pid
  let i := p.cehead.toNat % 8 * 4
  let w1 := w64 (c.asid.toNat * 2 ^ 48 + src % 2 ^ 24 * 2 ^ 24 + tc % 256 * 2 ^ 8 + cec)
  let rec' := Tab.putAll p.cerec [(i, tick), (i + 1, w1), (i + 2, val), (i + 3, keep pc 0xFFFFFFFFFFFFFC)]
  let w0 := Tab.getD p.ctab 0 (8 * c.entry)
  let s := s.modPart c.pid fun p =>
    { p with cerec := rec', cehead := p.cehead + 1, ctab := Tab.put p.ctab (8 * c.entry) (setFld w0 0 1 0) }
  let s := { s with ctxs := Tab.del s.ctxs k }
  (s.raisePi c.pid 0).trace (s.leadDie c.pid) 2 c.asid src (w64 cec) pc

/-- CONTEXT_END_RECORD (R402, R403): the context's end is complete. -/
def execContextEndRecord (ctx : Nat) (s : State) : Out :=
  match Tab.get? s.ctxs ctx with
  | some c =>
    match c.ending with
    | some e => .next ((((s.teardown ctx e.1).recordEnd ctx e)).postPlace c.pid 0)
    | none => .next s
  | none => .next s

/-! ## CTXKILL (R403) -/

/-- The context has no resident or saved group, and every queue of its ASID is idle. -/
def State.ctxIdle (s : State) (k : Nat) : Bool :=
  let c := s.ctx k
  !(s.groups.any fun e => e.2.ctx = k) && !(s.blocks.any fun e => e.2.ctx = k) &&
  ((List.range 64).all fun q => (s.queue c.pid q).asid ≠ c.asid || (s.queue c.pid q).idle)

/-- A write of CTXKILL. -/
def State.ctxKill (s : State) (pid : Nat) (x : W64) : State :=
  match s.ctxOf pid (.ofNat 16 (fld x 48 16)) with
  | none => s
  | some k => if bit64 x 0 ∧ s.ctxIdle k then s.endCtx k 0 0 0 0 0 else s.endCtx k 4 0 0 0 0

/-- CTXKILL (R402, R403). -/
def execCtxkill (pid : Nat) (x : W64) (s : State) : Out := .next (s.ctxKill pid (setFld x 0 1 0))
/-- CTXKILL_RETIRE (R403). -/
def execCtxkillRetire (pid : Nat) (x : W64) (s : State) : Out := .next (s.ctxKill pid (setFld x 0 1 1))

end Sys2Proof.Machine
end

