-- ==== Sys2Proof/Machine/GroupEvents.lean ====
section
/-! DEFINITION. Group, scheduler, block and barrier events (R187, R190, R193, R201, R202, R214 to R219, R275,
R369, R370, R395). -/

namespace Sys2Proof.Machine

/-- An arrival of a group that is gone leaves its core (R394). -/
def State.ghostLeaves (s : State) (g tag : Nat) : State :=
  match (s.ghostPend g tag).bind fun p => p.arrive with
  | some (key, _, k) => (s.ghostCut g tag fun _ => none).weltLeaves g key .zero k
  | none => s

/-- Deliver a computed result: its register writes are made and it is no longer pending (R275). -/
def State.writeback (s : State) (g tag : Nat) : State :=
  match Tab.get? s.groups g with
  | none => s.ghostLeaves g tag
  | some x =>
    match x.pend.find? fun p => p.tag = tag ∧ (p.kind = .alu ∨ p.kind = .warr) with
    | none => s.ghostLeaves g tag
    | some p =>
      let x := { x with pend := x.pend.erase p }
      let x := if x.dead then x else p.wr.foldl Group.regWr x
      let s := s.setGrp g x
      let s := match p.arrive with
        | some (key, d, k) => (s.weltLeaves g key d k).wake g fun w => w = Wait.acks
        | none => s
      s.afterResult g

/-- RESULT_WRITEBACK (R275, R302). -/
def execResultWriteback (g tag : Nat) (s : State) : Out := .next (s.writeback g tag)

/-- IFETCH_FILL (R55): the block arrives, and transfers that wait for a block look again. -/
def execIfetchFill (core : Nat) (asid : BitVec 16) (blk : Nat) (s : State) : Out :=
  let s := s.fetchFill core asid blk
  .next (s.groups.foldl (fun s e => if coreOf e.1 = core then s.wake e.1 fun w => w = .fetch else s) s)

/-- RECONVERGE (R193). -/
def execReconverge (g : Nat) (s : State) : Out := .next (s.checkJoin g)

/-- REGROUP_FUSE (R201), unless a fault has since taken a group away from the fusion. -/
def execRegroupFuse (g h : Nat) (s : State) : Out :=
  match Tab.get? s.groups g, Tab.get? s.groups h with
  | some x, some y =>
    match x.a.wait, y.a.wait with
    | .fusing h' _ _, .fusing g' _ _ => if h' = h ∧ g' = g then .next (s.fuse g h) else .next s
    | _, _ => .next s
  | _, _ => .next s

/-- REGROUP_RELEASE (R202): the group leaves its point unfused, with result 0. -/
def execRegroupRelease (g : Nat) (s : State) : Out :=
  match Tab.get? s.groups g with
  | some x => .next (if x.atRend then s.regroupDone g 0 else s)
  | none => .next s

/-- TRAP_ENTRY (R277, R395): the trap that is due is entered once no result is outstanding. -/
def execTrapEntry (g : Nat) (s : State) : Out := .next (s.settle g)

/-- WATCHDOG_EXPIRY (R218). -/
def execWatchdogExpiry (g : Nat) (s : State) : Out := .next (s.watchdog g)

/-- SCHEDULER_SWAP (R215). -/
def execSchedulerSwap (core sched : Nat) (s : State) : Out := .next (s.swapSched (core * 4 + sched))

/-- ACTIVE_POSITION_FILL (R215). -/
def execActivePositionFill (core sched : Nat) (s : State) : Out := .next (s.fillActive (core * 4 + sched))

/-- PREEMPT_WAIT_EXIT (R400). -/
def execPreemptWaitExit (g : Nat) (s : State) : Out := .next (s.preemptWait g)

/-- ISSUE_COUNTERS (R219). -/
def execIssueCounters (s : State) : Out := .next s.countAll

/-- BLOCK_END (R190). -/
def execBlockEnd (blk : Nat) (s : State) : Out := .next (s.checkBlock blk)

/-- GATE_RELEASE (R369). -/
def execGateRelease (blk gate : Nat) (s : State) : Out := .next (s.releaseGate blk gate)

/-- GGATE_CROSS_DIE (R370): the halves have exchanged their message, and the phase releases. -/
def execGgateCrossDie (gang : Nat) (s : State) : Out := .next (s.closeGang gang 112)

/-- GGATE_RELEASE (R370). -/
def execGgateRelease (gang : Nat) (s : State) : Out := .next (s.releaseGang gang)

end Sys2Proof.Machine
end

