-- ==== Sys2Proof/Machine/Switch.lean ====
section
/-! DEFINITION. Parking a group and a block (R406, R407), SWBLK (R407, R408), XMAP (R108), and what quiesced stops wait
for (R412). -/

namespace Sys2Proof.Machine

/-! ## Parking (R407) -/

/-- The 64-byte image record of a group: GID, age, and the thread of each lane. -/
def imageRecord (x : Group) : List Byte :=
  let thr := lanes32.foldr (fun l n => n * 2 ^ 12 + (Tab.get? x.thr l).getD 0xFFF % 2 ^ 12) 0
  bytesLE 8 (x.gid % 128) ++ bytesLE 8 x.age ++ bytesLE 48 thr

/-- An operation of the group other than a suspended loop has issued and not completed. -/
def State.opsOut (s : State) (g : Nat) : Bool := s.ops.any fun e => e.2.g = g && !e.2.gone && !e.2.susp

/-- The group is its block's last one not parked. -/
def lastUnparked (b : Block) (gid : Nat) : Bool :=
  b.places.all fun p => p.1 = gid || (match p.2 with | .slot _ => false | _ => true)

/-- The parked group leaves its slot; a suspended loop of it is dropped. -/
def State.leaveSlot (s : State) (g : Nat) (x : Group) (img : W64) : State :=
  let s := { s with ops := s.ops.filter fun e => ¬ (e.2.g = g ∧ ¬ e.2.gone), groups := Tab.del s.groups g }
  let s := (s.modBlk x.blk fun b => { b with places := Tab.put b.places x.gid (.parked img) }).pmLeave (coreOf g) x.ctx
  s.postPlace (s.ctx x.ctx).pid 4

/-- The 96 words of the block image: the image address of each GID, or 0. -/
def blockImage (b : Block) : List Byte :=
  (List.range 96).flatMap fun n =>
    bytesLE 8 (match Tab.get? b.places n with | some (.parked i) => i.toNat | _ => 0)

/-- A pooled access sent to the block has not been performed (R409): it waits to be injected, at its cluster's regulator, or
is on its way. -/
def State.pooledOut (s : State) (b : Block) : Bool :=
  let mine (p : ScPkt) : Bool := p.gang = b.gang && p.rank = b.rank
  let job (e : Nat × Job) : Bool := match e.2 with | .pool p _ _ => mine p | _ => false
  s.outbox.any job || ([0, 1, 2, 3].any fun d => (s.die d).c0q.any job) ||
  s.agenda.any fun e => match e.ev with
    | .scr p | .scw p => mine p
    | _ => false

/-- Something holds the block's final park back (R407, R409). -/
def State.parkHeld (s : State) (b : Block) : Bool :=
  s.pooledOut b || 4096 ≤ (s.part (s.ctx b.ctx).pid).saved.length

/-- The block is saved: its arrays, tiles and handles return, and it enters the saved list (R407). -/
def State.saveBlock (s : State) (k gid : Nat) : State :=
  let b := s.blk k
  let pid := (s.ctx b.ctx).pid
  let s := s.freeBlock b
  let s := s.modBlk k fun b =>
    { b with saved := true, ready := false, swLead := some gid, arrs := [], tiles0 := [], tiles1 := [], hnds := [] }
  (s.modPart pid fun p => { p with saved := p.saved ++ [k] }).postPlace pid 4

/-- A refused store of the park traps XLATE at the next level, with nothing parked (R407). -/
def State.parkRefused (s : State) (c : Cur) (sc : Nat) (va : W64) : State := s.trapHere c 0x04 sc va

/-- Store the group's record and go on with `f`. -/
def State.parkRecord (s : State) (c : Cur) (x : Group) (img : W64) (f : State → State) : State :=
  match s.vwrite (dieOf c.g) (s.ctx x.ctx) img (imageRecord x) with
  | (s, none) => f s
  | (s, some sc) => s.parkRefused c sc img

/-- A write of SWPARK at level 1, once results and accesses are complete (R151, R407). -/
def State.parkGo (s : State) (c : Cur) (x : Group) (img : W64) (len : Nat) : State :=
  let b := s.blk x.blk
  if ¬ lastUnparked b x.gid then s.parkRecord c x img fun s => s.leaveSlot c.g x img
  else if ¬ b.swArm then
    s.parkRecord c x img fun s => (s.modBlk x.blk fun b => { b with swLead := some x.gid }).retire c x len
  else if s.parkHeld b then s.block c x .parkFull len
  else
    s.parkRecord c x img fun s =>
      let b' := { b with places := Tab.put b.places x.gid (.parked img) }
      match s.vwrite (dieOf c.g) (s.ctx x.ctx) b.swBase (blockImage b') with
      | (s, none) => (s.leaveSlot c.g x img).saveBlock x.blk x.gid
      | (s, some sc) => s.parkRefused c sc b.swBase

/-- A write of SWPARK (R407), `behind` one of a lower GID in the same ACLK; `w` is the instruction's low 64 bits. -/
def State.park (s : State) (c : Cur) (x : Group) (behind : Bool) (v : W64) (len w : Nat) : State :=
  if x.level = 2 ∨ x.bLive ∨ x.pend.any Pend.openExch ∨ s.opsOut c.g then s.illop c w
  else if x.resultsOut ∨ x.accOut ∨ ¬ (s.joined c.g).isEmpty then s.block c x .preempt len
  else if behind then s.block c x (.park (keep v 0xFFFFFFFFFFFFC0)) len
  else s.parkGo c x (keep v 0xFFFFFFFFFFFFC0) len

/-- Groups that wait behind a SWPARK of a lower GID, in ascending GID. -/
def State.parkers (s : State) : List (Nat × Group) :=
  (s.groups.filter fun e => match e.2.a.wait with | .park _ => true | _ => false).foldl
    (fun l e => insBy (fun e : Nat × Group => e.2.gid) e l) []

/-- One of those parks, unless its context is ending (R402). -/
def State.parkOne (s : State) (g : Nat) : State :=
  match Tab.get? s.groups g with
  | some x =>
    match x.a.wait with
    | .park img => if (s.ctx x.ctx).ending.isSome then s else s.parkGo ⟨g, false⟩ x img x.a.wlen
    | _ => s
  | none => s

/-- The SWPARK writes of an ACLK that waited for those of lower GIDs are handled at its end (R407). -/
def State.parkAll (s : State) : State := s.parkers.foldl (fun s e => s.parkOne e.1) s

/-! ## SWBLK (R407, R408) -/

/-- SWBLK as it reads. -/
def swblkWord (b : Block) (gid : Nat) : W64 :=
  b.swBase ||| w64 (b2n b.swArm * 2 + b2n (b.swLead = some gid))

/-- A write of BASE arms the block's final park. -/
def State.swblkBase (s : State) (k : Nat) (v : W64) : State :=
  s.modBlk k fun b => { b with swBase := keep v 0xFFFFFFFFFFFC00, swArm := true }

/-- GO creates the groups of a restored block; at any other time it has no effect. -/
def State.swblkGoes (s : State) (k : Nat) : State := if (s.blk k).going then s.birth k else s

/-- A write of SWBLK: GO, or else BASE. -/
def State.swblk (s : State) (k : Nat) (v : W64) : State := if bit64 v 2 then s.swblkGoes k else s.swblkBase k v

/-! ## XMAP (R108) -/

/-- Latency of an atomic to a die by hops, and half of it (R91). -/
def atomLat (h : Nat) : Nat := match h with | 0 => 128 | 1 => 288 | _ => 400

/-- Status and LEFT as XMAPST reads. -/
def xmapWord (status left : Nat) : W64 := w64 (left * 2 ^ 16 + status)

/-- ACLK of an XMAP's walk (R108): R100's, with its last 16 also where it reads an empty level-3 entry. -/
def State.xmapTime (s : State) (die : Nat) (asid : BitVec 16) (va : Nat) : Nat :=
  s.walkTime die asid va .r false + match walk s die asid va with | some (.empty3 _) => 16 | _ => 0

/-- A write of XMAP (R108). -/
def State.xmapWrite (s : State) (c : Cur) (x : Group) (va : W64) (len : Nat) : State :=
  let k := s.ctx x.ctx
  let d := dieOf c.g
  let o := vaDie va
  let now (st : Nat) : State := s.retire c { x with xmapst := xmapWord st 0 } len
  if fld va 56 8 ≠ 0 ∨ fld va 0 16 ≠ 0 then now 6
  else if (s.die d).absdie.toNat / 2 ^ o % 2 = 1 then now 5
  else if k.pdmask.toNat / 2 ^ o % 2 = 0 then s.freeze c.g 1
  else if s.pathDown d o then now 5
  else
    let lat := atomLat (hops d o)
    let asid := s.asidAt x.ctx (coreOf c.g)
    let r : XmapReq := ⟨c.g, va, asid, s.aclk + lat / 2⟩
    let (s, due) := s.walkFor o asid va.toNat r.at_ (s.xmapTime o asid va.toNat) false
    let s := s.block c x .xmap len
    (s.modDie o fun e => { e with xmapq := insBy XmapReq.at_ r e.xmapq }).post (due + lat / 2 - s.aclk) (.xmapServe o)

/-- The outcome of a request at its owner die: status, LEFT, and the state (R108). -/
def State.xmapDo (s : State) (die : Nat) (asid : BitVec 16) (va : Nat) : State × Nat × Nat :=
  match s.rootOf die asid with
  | none => (s, 4, 0)
  | some (n, _) =>
    let pool := Tab.getD (s.die die).xpool 0 n
    let left := fld pool 48 16
    match walk s die asid va with
    | some (.leaf _) => (s, 2, left)
    | some (.empty3 e3) =>
      if left = 0 then (s, 3, left)
      else
        let e := fld pool 16 21 * 2 ^ 16 + b2n (bit64 pool 3) * 8 + b2n (bit64 pool 2) * 4 + 3
        let s := s.homeWrite (paddr die e3) (numbered 0 (bytesLE 8 e)) WatchEv.anon
        let pool := setFld (setFld pool 16 21 (fld pool 16 21 + 1)) 48 16 (left - 1)
        (s.modDie die fun d => { d with xpool := Tab.put d.xpool n pool }, 1, left - 1)
    | _ => (s, 4, left)

/-- End the XMAP wait of a group. -/
def State.xmapFree (s : State) (g : Nat) (b : Bool) : State :=
  match Tab.get? s.groups g with
  | some x => if (x.slot b).wait = .xmap then s.release g b 0 else s
  | none => s

/-- XMAP_SERVE (R108): a die serves the request that reached it first. -/
def State.xmapServeOne (s : State) (die : Nat) : State :=
  match (s.die die).xmapq with
  | [] => s
  | r :: rest =>
    let s := s.modDie die fun d => { d with xmapq := rest }
    match Tab.get? s.groups r.g with
    | none => s
    | some _ =>
      let (s, st, left) := s.xmapDo die r.asid r.va.toNat
      let s := s.modGrp r.g fun x => { x with xmapst := xmapWord st left }
      (s.xmapFree r.g false).xmapFree r.g true

/-- XMAP_SERVE (R108). -/
def execXmapServe (die : Nat) (s : State) : Out := .next (s.xmapServeOne die)

/-! ## Quiesced stops (R412) -/

/-- Every group of a context has stopped: its results are written and its loops pause. -/
def State.ctxStopped (s : State) (k : Nat) : Bool :=
  !(s.groups.any fun e => e.2.ctx = k && !e.2.dead && e.2.resultsOut) &&
  !(s.ops.any fun e => e.2.ctx = k && (match e.2.kind with | .mloop l => l.busy | _ => false))

/-- QSTOP_DONE (R412): once every context of a stop has stopped, DONE is set and the interrupt raised. -/
def State.qstopCheck (s : State) (pid : Nat) : State :=
  let left := (s.part pid).qstop.filter fun ks => !ks.all s.ctxStopped
  if left = (s.part pid).qstop then s
  else s.modPart pid fun p => { p with qstop := left, qstopst := true, irq := true }

/-- Stop a context quiescently, and report when it has stopped. -/
def State.qstopCtx (s : State) (k : Nat) : State :=
  (s.quiesce k).modPart (s.ctx k).pid fun p => { p with qstop := p.qstop ++ [[k]] }

/-- QSTOP (R412). -/
def execQstop (pid : Nat) (x : W64) (s : State) : Out :=
  match s.ctxOf pid (.ofNat 16 (fld x 48 16)) with
  | some k => .next (s.qstopCtx k)
  | none => .next s

/-- QSTOP_DONE (R412). -/
def execQstopDone (pid : Nat) (s : State) : Out := .next (s.qstopCheck pid)

/-- QRUN (R412). -/
def State.qrun (s : State) (pid : Nat) (x : W64) : State :=
  match s.ctxOf pid (.ofNat 16 (fld x 48 16)) with
  | some k =>
    (s.modCtx k fun c => { c with stop := false }).modPart pid fun p =>
      { p with qstop := unstop k p.qstop }
  | none => s

/-- QRUN (R412). -/
def execQrun (pid : Nat) (x : W64) (s : State) : Out := .next (s.qrun pid x)

end Sys2Proof.Machine
end

