-- ==== Sys2Proof/Machine/Tick.lean ====
section
/-! DEFINITION. The global tick and what follows it (R181, R263, R413, R418, R445, R446). -/

namespace Sys2Proof.Machine

/-- The dies that are present (R111). -/
def State.present (s : State) : List Nat := [0, 1, 2, 3].filter fun d => !(s.die d).held

/-- A STOP record on every present die (R418). -/
def State.traceStop (s : State) : State := s.present.foldl (fun s d => s.trace d 9 0 0 0 0) s

/-- TICK_STOP (R413): every clock is gated at the armed tick. -/
def State.tickStopNow (s : State) : State :=
  let s := s.traceStop
  { s with stopped := true, tstopArm := false }

/-- TRACE_SAMPLE (R418): one resident group of each scheduler of the die, each in turn. -/
def State.sampleDie (s : State) (die : Nat) : State :=
  let n := (s.die die).trnext
  let one (s : State) (k : Nat) : State :=
    let l := s.onSched k
    match l[n % max 1 l.length]? with
    | some (g, x) =>
      s.trace die 5 (s.ctx x.ctx).asid (grpid g x.gid) (w64 (s.stallOf g x)) (x.slot x.lastB).ipc
    | none => s
  let s := (s.scheds.filter fun k => dieOfCore (k / 4) = die).foldl one s
  s.modDie die fun d => { d with trnext := d.trnext + 1 }

/-- Dies whose SAMPLE period divides the tick (R418). -/
def State.sampleDue (s : State) : List Nat :=
  s.present.filter fun d =>
    let p := fld (s.die d).trctl 16 16 * 256
    p ≠ 0 && s.tick.toNat % p = 0

/-! ## Power and ageing (R263, R445, R446) -/

/-- PWRSTAT as it reads: the estimate, LIMITING and OVER. -/
def pwrWord (est : Nat) (limiting fails : Bool) : W64 := w64 (est * 2 ^ 16 + b2n limiting * 2 + b2n fails)

/-- POWER_ESTIMATE (R445): the estimate is a free value. Spacing changes no result, and cycle counts under it are not
modelled; 64 windows in a row over the limit at full spacing set OVER. -/
def State.powerEstimate (s : State) : State :=
  let v := Config.power s.fresh
  let est := v.toNat % 2 ^ 16
  let limiting : Bool := s.pwrlim.toNat < est
  let n := if limiting then (if v.toNat / 2 ^ 16 = 1 then s.hotPwr + 1 else s.hotPwr) else 0
  let fails : Bool := bit64 s.pwrstat 0 || n = 64
  let rises : Bool := n = 64 && !bit64 s.pwrstat 0
  let s : State := { s.tickFree with hotPwr := min n 63, pwrstat := pwrWord est limiting fails }
  if rises then s.raiseDie 0 9 else s

/-- A fenced array is free again (R263). -/
def State.unfence (s : State) (k : Nat) : State :=
  (s.modArr k fun a => { a with st := .storage, cells := [] }).modCore (k / 24) fun c =>
    { c with mcap := c.mcap ||| .ofNat 24 (2 ^ (k % 24)) }

/-- The firmware's pass over one array (R263): whether it rewrites the calibration table of an array that no block
holds is free; under a new table the fence goes once the array passes its self-test. -/
def State.recalibrate (s : State) (k : Nat) : State :=
  if (s.arr k).blk.isSome then s
  else if Config.recalibrated s.fresh = 1 then
    let s := s.tickFree.modArr k fun a => { a with calib := a.calib + 1 }
    let t : State := { s with fresh := s.fresh + 4096 * 36 }
    if (s.arr k).st = .fenced ∧ ¬ testFails (s.arr k) s.fresh then t.unfence k else t
  else s.tickFree

/-- AGEING_MONITOR_READ (R263, R446): guard bands move; tables of the package's 256 × 24 arrays are rewritten and fences
may clear. -/
def State.ageing (s : State) : State := (List.range 6144).foldl (fun s k => s.recalibrate k) s

/-- What the tick's count starts: the power estimate every 1,024 ticks, the ageing monitors every 2^30, and SAMPLE
records. -/
def State.tickWork (s : State) : State :=
  let s := if s.tick.toNat % 2 ^ 10 = 0 then s.powerEstimate else s
  let s := if s.tick.toNat % 2 ^ 30 = 0 then s.ageing else s
  s.sampleDue.foldl (fun s d => s.sampleDie d) s

/-- POWER_ESTIMATE (R445). -/
def execPowerEstimate (s : State) : Out := .next s.powerEstimate
/-- AGEING_MONITOR_READ (R446). -/
def execAgeingMonitorRead (s : State) : Out := .next s.ageing

/-! ## The count -/

/-- The count advances, and with it what it starts. -/
def State.tickEdge (s : State) : State := { s with tick := s.tick + 1 }.tickWork

/-- GLOBAL_TICK (R181): an armed stop at the next tick gates its first edge, so that the count and all else stand as at the
end of the tick before it (R413). -/
def State.tickUp (s : State) : State :=
  if s.tstopArm ∧ s.tstopAt = s.tick + 1 then s.tickStopNow else s.tickEdge

/-- The end of an ACLK: free active positions fill, the engines work, and the next ACLK begins; the tick advances every
fourth. -/
def State.endAclk (s : State) : State :=
  let s := s.parkAll.fillAll.pump
  let s := { s with aclk := s.aclk + 1, turn := 0, cur := none }
  let s := [0, 1, 2, 3].foldl State.qstopCheck s
  if s.tickOn ∧ s.aclk % 4 = 0 then s.tickUp else s

/-- GLOBAL_TICK (R181). -/
def execGlobalTick (s : State) : Out := .next s.tickUp
/-- TICK_STOP (R413). -/
def execTickStop (s : State) : Out := .next s.tickStopNow
/-- TRACE_SAMPLE (R418). -/
def execTraceSample (die : Nat) (s : State) : Out := .next (s.sampleDie die)

/-! ## The agenda -/

/-- Events a stopped package still serves (R413, R415). -/
def servedStopped : Instr → Bool
  | .extest _ _ | .sample _ | .scansel _ _ | .scanout _ | .dbgacc _ _ _ | .tstopnow _ | .resume _ | .lanemg _
  | .idcode _ | .bypass _ _ | .coldReset => true
  | _ => false

/-- Take the first due event a test admits. -/
def takeDue (now : Nat) (p : Instr → Bool) : List Timed → Option (Instr × List Timed)
  | [] => none
  | e :: r =>
    if e.due ≤ now ∧ p e.ev then some (e.ev, r)
    else (takeDue now p r).map fun x => (x.1, e :: x.2)

/-- The next event to take, and the state without it. -/
def State.nextEvent (s : State) : Option (Instr × State) :=
  let p (i : Instr) : Bool := !(s.stopped || s.held) || servedStopped i
  (takeDue s.aclk p s.agenda).map fun x => (x.1, { s with agenda := x.2, cur := none })

end Sys2Proof.Machine
end

