-- ==== Sys2Proof/Machine/Boot.lean ====
section
/-! DEFINITION. Cold reset and boot, SPDM, and the thermal trip (R7, R111, R181, R262, R441 to R443, R445). -/

namespace Sys2Proof.Machine

/-! ## Boot (R441, R442) -/

/-- STAGE codes (R442). -/
def stImgFail : BitVec 3 := 1
def stAuth : BitVec 3 := 2
def stReady : BitVec 3 := 3
def stFail : BitVec 3 := 4
def stHeld : BitVec 3 := 5

/-- Inputs, which come from outside the package and which no reset takes back. -/
def fromOutside : Instr → Bool
  | .hostRegisterWrite _ _ _ _ | .tailRegisterWrite _ _ _ | .queueEnable _ _ | .qheadWrite _ _ _
  | .clusterReset _ _ | .shootdown _ _ | .preqRaise _ _ | .preqCancel _ _ | .ctxkill _ _ | .ctxkillRetire _ _
  | .contextCreate _ _ _ | .partset _ | .weltPartitionGrant _ _ _ | .qstop _ _ | .qrun _ _ | .dbgcmdRead _ _
  | .dbgcmdWrite _ _ | .tstop _ | .extest _ _ | .sample _ | .scansel _ _ | .scanout _ | .dbgacc _ _ _
  | .tstopnow _ | .resume _ | .lanemg _ | .idcode _ | .bypass _ _ | .hostMemRead _ _ _ | .hostMemWrite _ _ _
  | .hdmCommit _ _ _ _ _ | .functionLevelReset _ | .spdmRequest _ _ _ | .peerRequest _ | .portclr _ _
  | .coldReset | .bootld _ | .thermalTrip | .setdasa _ _ | .i3cSelectorWrite _ | .i3cRead
  | .i3cPwrlimWrite _ _ | .flitReplay _ _ | .linkRetrain _ _ => true
  | _ => false

/-- ACLK of 5 s (R5, R442). -/
def bootLimit : Nat := 18000000000

/-- A die at cold reset: everything at its reset value but the leaves its identity key has used (R441). -/
def Die.cold (d : Die) : Die := { Die.reset with leaves := d.leaves }

/-- COLD_RESET (R7, R442): every register takes its reset value and each die starts to verify its image. Device memory
and the used leaves of the identity keys stay; MCAP has the arrays that pass boot self-test, a free value (R262). -/
def State.coldStart (s : State) : State :=
  let cores := (List.range 256).map fun c => (c, { Core.reset with mcap := Config.bootArrays (s.fresh + c) })
  let dies := [0, 1, 2, 3].map fun d => (d, (s.die d).cold)
  let t : State :=
    { State.reset with
      aclk := s.aclk, coldAt := s.aclk, fresh := s.fresh + 256, nextId := s.nextId, mem := s.mem, cores := cores,
      dies := dies, upsets := s.upsets
      agenda := s.agenda.filter fun e => fromOutside e.ev }
  ([0, 1, 2, 3].foldl (fun s d => s.post 64 (.imageVerify d)) t).post bootLimit .authTimeout

/-- COLD_RESET (R442). -/
def execColdReset (s : State) : Out := .next s.coldStart

/-- A die has verified its image and takes part in stage 3. -/
def State.inAuth (s : State) (d : Nat) : Bool := (s.die d).stage = stAuth

/-- Those who can authenticate a die take part in stage 3: die 0, with die 1 between it and die 2; for die 0, die 1 or
die 3 (R442). -/
def State.canAuth (s : State) (d : Nat) : Bool :=
  s.inAuth d && !(s.die d).authed &&
  (match d with
    | 0 => s.inAuth 1 || s.inAuth 3
    | 2 => s.inAuth 0 && s.inAuth 1
    | _ => s.inAuth 0)

/-- A die fails stage 3: it is held in reset; die 0 takes every die with it (R442). -/
def State.failBoot (s : State) (d : Nat) : State :=
  if d = 0 then
    [0, 1, 2, 3].foldl (fun s e => s.modDie e fun x => { x with held := true, stage := stFail }) s
  else s.modDie d fun x => { x with held := true, stage := stHeld }

/-- ACLK until the count is loaded, 64 or the next tick boundary after that (R181). -/
def State.tickDelay (s : State) : Nat := 64 + (4 - s.aclk % 4) % 4

/-- Stage 4 (R442): ABSDIE is the same on every present die, the tick is loaded, and the logical devices enumerate. -/
def State.enumerate (s : State) : State :=
  let mask : BitVec 4 := .ofNat 4 (([0, 1, 2, 3].filter fun d => (s.die d).held).foldl (fun m d => m + 2 ^ d) 0)
  let s := s.present.foldl (fun s d => s.modDie d fun e => { e with absdie := mask, stage := stReady }) s
  s.post s.tickDelay (.tickLoad (w64 (2 ^ 64 - 16)))

/-- Stage 3 ends once every die has passed it or is held (R442). -/
def State.checkBoot (s : State) : State :=
  if (s.die 0).authed ∧ s.inAuth 0 ∧ [0, 1, 2, 3].all fun d => (s.die d).authed || (s.die d).held then s.enumerate
  else s

/-- Signatures a die makes in stage 3: one for each die that authenticates it. -/
def State.signsFor (s : State) (d : Nat) : Nat := if d = 0 then b2n (s.inAuth 1) + b2n (s.inAuth 3) else 1

/-- DIE_AUTHENTICATION (R441, R442): each signature uses a leaf; whether they stand is a free value. -/
def State.authenticate (s : State) (d : Nat) : State :=
  if s.canAuth d then
    let n := s.signsFor d
    let e := s.die d
    let ok : Bool := n ≤ e.leaves && Config.auth s.fresh = 1
    let s := s.tickFree.modDie d fun e => { e with leaves := e.leaves - n, authed := ok }
    (if ok then s else s.failBoot d).checkBoot
  else s

/-- DIE_AUTHENTICATION (R442). -/
def execDieAuthentication (die : Nat) (s : State) : Out := .next (s.authenticate die)

/-- Make the authentications that can be made, as soon as both sides have verified their images. -/
def State.askAuth (s : State) : State := [0, 1, 2, 3].foldl State.authenticate s

/-- IMAGE_VERIFY (R442): what a die finds in its image is a free value; a failure waits for a reload. -/
def State.verifyImage (s : State) (d : Nat) : State :=
  let v := Config.image s.fresh
  if (s.die d).stage.toNat ≤ 1 ∧ ¬ (s.die d).held then
    if v.toNat / 2 ^ 16 = 1 then
      (s.tickFree.modDie d fun e => { e with stage := stAuth, fwver := .ofNat 16 v.toNat }).askAuth
    else s.tickFree.modDie d fun e => { e with stage := stImgFail }
  else s

/-- IMAGE_VERIFY (R442). -/
def execImageVerify (die : Nat) (s : State) : Out := .next (s.verifyImage die)

/-- AUTH_TIMEOUT (R442): a die that has not passed stage 3 is absent; without die 0 every die is held. -/
def State.closeBoot (s : State) : State :=
  if (s.die 0).stage = stReady ∨ (s.die 0).stage = stFail then s
  else if ¬ (s.die 0).authed then s.failBoot 0
  else
    let late := [1, 2, 3].filter fun d => !(s.die d).authed && !(s.die d).held
    (late.foldl State.failBoot s).enumerate

/-- AUTH_TIMEOUT (R442). -/
def execAuthTimeout (s : State) : Out := .next s.closeBoot

/-- A write of BOOTLD (R442): the staged image is submitted to a die that waits for one. -/
def State.bootLoad (s : State) (x : W64) : State :=
  let d := fld x 0 2
  if bit64 x 8 ∧ (s.die d).stage = stImgFail then s.postOnce 64 (.imageVerify d) else s

/-- BOOTLD (R442). -/
def execBootld (x : W64) (s : State) : Out := .next (s.bootLoad x)

/-! ## SPDM (R443) -/

/-- The converter calibration tables in force on a die, as a number (R263, R443). -/
def State.tables (s : State) (d : Nat) : Nat :=
  s.arrs.foldl (fun n e => if e.1 / 1536 = d ∧ e.2.calib ≠ 0 then n * 2 ^ 64 + e.1 * 2 ^ 32 + e.2.calib else n) 0

/-- What measurement `i` of a die is taken of, as a number: the ROM, the image, the tables, or ABSDIE with the
descriptor. -/
def State.measured (s : State) (d i : Nat) : Nat :=
  let e := s.die d
  let m := match s.pidOfDie d with | some p => 256 * p + 128 + (s.part p).mask.toNat | none => 0
  match i with
  | 1 => 1
  | 2 => 2 + 4 * e.fwver.toNat
  | 3 => 3 + 4 * (d + 4 * s.tables d)
  | _ => 4 * (e.absdie.toNat + 16 * m)

/-- An LMS signature of the die's key, of 1,772 bytes; its bytes are free (R441). -/
def signature (n : Nat) : List Byte := (List.range 1772).map fun i => Config.measure (4 * n + 5) i

/-- SPDM_REQUEST (R443): a measurement's 32 bytes, signed on request with one leaf; without a leaf, or of another index,
the error Unspecified. -/
def State.spdm (s : State) (d i : Nat) (signed : Bool) : State :=
  let m := (List.range 32).map fun k => Config.measure (s.measured d i) k
  if (s.die d).stage ≠ stReady then { s with resp := .ur }
  else if i < 1 ∨ 4 < i then { s with resp := .error }
  else if ¬ signed then { s with resp := .bytes m }
  else if (s.die d).leaves = 0 then { s with resp := .error }
  else
    let sg := signature s.fresh
    let s : State := { s.tickFree with resp := .bytes (m ++ sg) }
    s.modDie d fun e => { e with leaves := e.leaves - 1 }

/-- SPDM_REQUEST (R443). -/
def execSpdmRequest (die idx : Nat) (signed : Bool) (s : State) : Out := .next (s.spdm die idx signed)

/-! ## The thermal trip (R445) -/

/-- A context ends at once, with its record. -/
def State.endNow (s : State) (k cec : Nat) : State :=
  let s := s.endCtx k cec 0 0 0 0
  match (s.ctx k).ending with
  | some e => (s.teardown k e.1).recordEnd k e
  | none => s

/-- THERMAL_TRIP (R445): every context ends with CEC HOST, and the package is held in reset. -/
def State.thermal (s : State) : State :=
  let t := s.ctxs.foldl (fun s e => s.endNow e.1 4) s
  { t with held := true }

/-- THERMAL_TRIP (R445). -/
def execThermalTrip (s : State) : Out := .next s.thermal

end Sys2Proof.Machine
end

