-- ==== Sys2Proof/Machine/Links.lean ====
section
/-! DEFINITION. Die links and scale-up ports, cluster reset, shootdown, and incoming peer requests (R75, R85, R88, R89,
R109, R110, R150, R404, R439, R440). -/

namespace Sys2Proof.Machine

/-! ## Links (R75, R439) -/

/-- A link or port: 0 to 3 the die links, 4 + 4 × die + port the scale-up ports. -/
def State.link (s : State) (k : Nat) : Link := Tab.getD s.links Link.reset k

/-- Change a link. -/
def State.modLink (s : State) (k : Nat) (f : Link → Link) : State := { s with links := Tab.put s.links k (f (s.link k)) }

/-- The dies a link joins. -/
def linkDies (k : Nat) : List Nat := if k < 4 then [k, (k + 1) % 4] else [(k - 4) / 4 % 4]

/-- Traffic of a partition routes over a link: between two of its dies, or by a port of one of them (R22, R439). -/
def usesLink (m : BitVec 4) (k : Nat) : Bool :=
  if k < 4 then (diesOf m).any fun a => (diesOf m).any fun b => (linksOf a b).contains k
  else (diesOf m).contains ((k - 4) / 4 % 4)

/-- A link is down for good: its dies report it, and the contexts whose partition routes over it end (R75, R402). -/
def State.linkDown (s : State) (k : Nat) : State :=
  let s := s.modLink k fun l => { l with down := true }
  let s := (linkDies k).foldl (fun s d => s.raiseDie d 6) s
  s.ctxs.foldl (fun s c => if usesLink (s.part c.2.pid).mask k then s.endCtx c.1 6 0 0 0 0 else s) s

/-- A retraining ends (R75): the third that fails takes the link down. -/
def State.retrained (s : State) (k : Nat) (ok : Bool) : State :=
  let l := s.link k
  if l.down then s
  else if ok then s.modLink k fun l => { l with fails := 0, trains := 0 }
  else
    let s := s.modLink k fun l => { l with fails := 0, trains := l.trains + 1 }
    if 3 ≤ l.trains + 1 then s.linkDown k else s

/-- A replayed flit arrives, good or bad; after eight bad ones in a row the link retrains (R75). Whether that succeeds
is a free value. -/
def State.replayed (s : State) (k : Nat) (bad : Bool) : State :=
  let l := s.link k
  if l.down then s
  else if ¬ bad then s.modLink k fun l => { l with fails := 0 }
  else if l.fails + 1 < 8 then s.modLink k fun l => { l with fails := l.fails + 1 }
  else s.tickFree.retrained k (Config.retrain s.fresh = 1)

/-- FLIT_REPLAY (R75). -/
def execFlitReplay (link : Nat) (bad : Bool) (s : State) : Out := .next (s.replayed link bad)
/-- LINK_RETRAIN (R75). -/
def execLinkRetrain (link : Nat) (ok : Bool) (s : State) : Out := .next (s.retrained link ok)

/-! ## Cluster reset (R88, R89) -/

/-- The core is one of a die's clusters that a mask names. -/
def inClusters (die : Nat) (m : W32) (core : Nat) : Bool := dieOfCore core = die && m.toNat / 2 ^ clusterOf core % 2 = 1

/-- A block sits on one of the clusters. -/
def Block.inClusters (b : Block) (die : Nat) (m : W32) : Bool := !b.saved && Machine.inClusters die m b.core

/-- A context still runs on the clusters: a group there is not frozen, or a block has no group there (R88). -/
def State.runsOn (s : State) (die : Nat) (m : W32) (k : Nat) : Bool :=
  let on := s.groups.filter fun e => e.2.ctx = k && inClusters die m (coreOf e.1)
  on.any (fun e => !e.2.frozen) ||
  s.blocks.any fun b => b.2.ctx = k && b.2.inClusters die m && !(on.any fun e => e.2.blk = b.1)

/-- Operations of the clusters' cores stop for good; requests not injected yet and those held at their regulators go. -/
def State.dropOps (s : State) (die : Nat) (m : W32) : State :=
  let ids := (s.ops.filter fun e => inClusters die m e.2.core).map fun e => e.1
  let free (a : Arr) : Arr := match a.busy with
    | some i => if ids.contains i then { a with busy := none } else a
    | none => a
  let s : State := { s with
    ops := s.ops.filter fun e => !ids.contains e.1
    peerOut := s.peerOut.filter fun p => !ids.contains p.op
    arrs := s.arrs.map fun e => (e.1, free e.2)
    outbox := s.outbox.filter fun e => !inClusters die m e.2.core }
  s.modDie die fun d => { d with c0q := d.c0q.filter fun e => m.toNat / 2 ^ e.1 % 2 = 0 }

/-- The packet was injected by one of some clusters and has not left it whole: flits leave four in an FCLK (R66). -/
def wireCut (w : Option Wire) (die : Nat) (m : W32) (now : Nat) : Bool :=
  match w with
  | some w =>
    let h := w.head.toNat
    h / 2 ^ 12 % 4 = die && h / 2 ^ 14 % 128 < 32 && m.toNat / 2 ^ (h / 2 ^ 14 % 128) % 2 = 1 &&
    now < w.start + 2 * ((w.sent + 3) / 4)
  | none => false

/-- Packets the clusters are injecting end short: their receivers discard them (R88, R89). -/
def State.truncate (s : State) (die : Nat) (m : W32) : State :=
  let one (p : Pkt) : Pkt := if wireCut p.wire die m s.aclk then { p with trunc := true } else p
  let req (p : Pkt) : Pkt := if p.phys.isNone then one p else p
  let sc (p : ScPkt) : ScPkt := if wireCut p.wire die m s.aclk then { p with trunc := true } else p
  let ev (i : Instr) : Instr :=
    match i with
    | .rd p => .rd (req p)
    | .wr p => .wr (req p)
    | .atq p => .atq (req p)
    | .atr p => .atr (req p)
    | .sigUpd p b => .sigUpd (one p) b
    | .scr p => .scr (sc p)
    | .scw p => .scw (sc p)
    | .dataRsp p b => .dataRsp (one p) b
    | .ack p v => .ack (one p) v
    | .nack p v => .nack (one p) v
    | _ => i
  { s with agenda := s.agenda.map fun e => { e with ev := ev e.ev } }

/-- A write of CLRST (R88): clusters not in reset begin one; contexts still running there end with CEC HOST. -/
def State.clusterReset (s : State) (die : Nat) (mask : W32) : State :=
  let new := mask &&& ~~~ (s.die die).clrst
  let ks := (s.ctxs.filter fun c => s.runsOn die new c.1).map fun c => c.1
  let s := ks.foldl (fun s k => s.endCtx k 4 0 0 0 0) s
  let s := ((s.dropOps die new).truncate die new).modDie die fun d => { d with clrst := d.clrst ||| new }
  ((List.range 32).filter fun c => new.toNat / 2 ^ c % 2 = 1).foldl (fun s c => s.post 4096 (.clusterResetDone die c)) s

/-- A core of a cluster at the end of its reset (R88): caches empty, and no operation at its sequencer. -/
def Core.clear (c : Core) : Core :=
  { c with l1 := [], ic := [], icPend := [], mxq := [], mxHold := none, epoch := c.epoch + 1 }

/-- The reset of a cluster is complete (R88). -/
def State.clusterDone (s : State) (die cl : Nat) : State :=
  let lo := die * 64 + 2 * cl
  let mine (core : Nat) : Bool := core / 2 = lo / 2
  let arr (e : Nat × Arr) : Nat × Arr := if mine (e.1 / 24) then (e.1, { Arr.reset with calib := e.2.calib, blk := e.2.blk }) else e
  let grp (e : Nat × Group) : Nat × Group := if mine (coreOf e.1) then (e.1, { e.2 with split := [] }) else e
  let s : State := { s with
    arrs := s.arrs.map arr
    tiles := s.tiles.filter fun e => !mine (e.1 / 65536)
    groups := s.groups.map grp }
  let s := (s.modCore lo Core.clear).modCore (lo + 1) Core.clear
  let s := s.modDie die fun d =>
    { d with clrst := d.clrst &&& ~~~ .ofNat 32 (2 ^ cl), cldone := d.cldone ||| .ofNat 32 (2 ^ cl) }
  s.raiseDie die 4

/-- CLUSTER_RESET (R88). -/
def execClusterReset (die : Nat) (mask : W32) (s : State) : Out := .next (s.clusterReset die mask)
/-- CLUSTER_RESET_DONE (R88). -/
def execClusterResetDone (die cluster : Nat) (s : State) : Out := .next (s.clusterDone die cluster)

/-! ## Shootdown (R109, R110) -/

/-- SDSTAT bits. -/
def sdDone : Nat := 0
def sdBusy : Nat := 1
def sdOvr : Nat := 2
def sdErr : Nat := 3

/-- The shootdown covers a page, numbered in 64 KiB. -/
def Shoot.covers (h : Shoot) (asid : BitVec 16) (page : Nat) : Bool := h.asid = asid && h.lo ≤ page && page < h.hi

/-- The shootdown covers some address of an MTLB entry of the die. -/
def Shoot.overlaps (h : Shoot) (die : Nat) (e : MtlbEntry) : Bool :=
  let lo := die * 2 ^ 38 + e.vpn * 2 ^ (pageBits e.size - 16)
  h.asid = e.asid && lo < h.hi && h.lo < lo + 2 ^ (pageBits e.size - 16)

/-- A translated request under the shootdown. -/
def Shoot.holds (h : Shoot) (p : Pkt) : Bool :=
  p.phys.isSome && h.covers p.asid (p.line / 2 ^ 16) && (match p.src with | .host _ => false | _ => true)

/-- The request packets of an event on its way to be performed. -/
def pktOf : Instr → Option Pkt
  | .rd p | .wr p | .atq p | .atr p | .hbmFill p _ | .sigUpd p _ => some p
  | _ => none

/-- Requests translated and not yet performed, with their locks counted as taken. -/
def State.translated (s : State) (h : Shoot) (die : Nat) : List Pkt :=
  let d := s.die die
  let late := s.banks.flatMap fun b => if b.1 / 128 = die then b.2.late else []
  let all := s.agenda.filterMap (fun e => pktOf e.ev) ++ (d.locks.map fun l => l.pkt) ++ d.confl ++ late
  (all.filter fun p => p.ddie = die && h.holds p).map fun p => { p with held := true }

/-- Lines and directory entries of the range go from the RDC of a die. -/
def Die.rdcShoot (d : Die) (h : Shoot) : Die :=
  let hit (e : RdcDir) : Bool := h.covers e.asid (e.vline / 128)
  let gone := d.rdir.filter hit
  { d with
    rdir := d.rdir.filter fun e => !hit e
    rdc := d.rdc.filter fun l => !(gone.any fun e => e.owner = l.owner && e.line = l.line) }

/-- Lines of the range go from a core's caches, and prefetches on the way are not installed. -/
def Core.shoot (c : Core) (h : Shoot) : Core :=
  { c with
    l1 := c.l1.filter fun l => !h.covers l.asid (l.line / 512)
    ic := c.ic.filter fun l => !h.covers l.asid (l.line / 512)
    epoch := c.epoch + 1 }

/-- Fills of the range on the way to a group are not installed. -/
def Group.shoot (x : Group) (asid : BitVec 16) (h : Shoot) : Group :=
  let one (p : Pend) : Pend :=
    if p.lanes.any fun a => h.covers asid (a.addr.toNat / 2 ^ 16) then { p with noInst := true } else p
  { x with pend := x.pend.map one }

/-- The dies that a shootdown on a die reaches: those of its partition (R110). -/
def State.shootDies (s : State) (die : Nat) : List Nat :=
  match s.pidOfDie die with
  | some p => diesOf (s.part p).mask
  | none => [die]

/-- Invalidate the range (R110, steps 2 and 3). -/
def State.shootAll (s : State) (die : Nat) (h : Shoot) : State :=
  let ds := s.shootDies die
  let walkd (w : Walk) : Walk := if h.covers w.asid w.page then { w with dead := true } else w
  let s := s.modDie die fun d =>
    { d with mtlb := d.mtlb.filter fun e => !h.overlaps die e, walks := d.walks.map walkd }
  let s := ds.foldl (fun s d => s.modDie d fun e => e.rdcShoot h) s
  let cores (e : Nat × Core) : Nat × Core := if ds.contains (dieOfCore e.1) then (e.1, e.2.shoot h) else e
  let s : State := { s with cores := s.cores.map cores }
  let grp (e : Nat × Group) : Nat × Group :=
    if ds.contains (dieOf e.1) then (e.1, e.2.shoot (s.asidAt e.2.ctx (coreOf e.1)) h) else e
  let s : State := { s with groups := s.groups.map grp }
  s.markReads fun p => h.covers p.asid (p.line / 2 ^ 16)

/-- A write of SDCTL (R109, R110). -/
def State.shootdown (s : State) (die : Nat) (x : W64) : State :=
  let d := s.die die
  let pages := fld x 0 32
  let lo := fld d.sdva 16 40
  let top := (die + 1) * 2 ^ 38
  if bit64 d.sdst sdBusy then s.modDie die fun d => { d with sdst := setFld d.sdst sdOvr 1 1 }
  else if fld d.sdva 54 2 ≠ die ∨ top < lo + pages then
    s.modDie die fun d => { d with sdst := setFld d.sdst sdErr 1 1 }
  else
    let asid : BitVec 16 := .ofNat 16 (fld x 48 16)
    let h : Shoot := if pages = 0 then ⟨asid, die * 2 ^ 38, top, []⟩ else ⟨asid, lo, lo + pages, []⟩
    let s := s.shootAll die h
    let h : Shoot := { h with left := s.translated h die }
    (s.modDie die fun d => { d with sdst := setFld d.sdst sdBusy 1 1, shoot := some h }).post 256 (.shootdownDone die)

/-- A completed shootdown of a whole ASID ends the use of its old roots (R94). -/
def Die.rootsShot (d : Die) (h : Shoot) (die : Nat) : Die :=
  if h.lo = die * 2 ^ 38 ∧ h.hi = (die + 1) * 2 ^ 38 then
    { d with
      xold := d.xold.filter fun r => fld r 48 16 ≠ h.asid.toNat
      xshot := h.asid :: d.xshot.filter fun a => a ≠ h.asid }
  else d

/-- The shootdown of a die ends once the requests it waits for are performed; otherwise it looks again (R110). -/
def State.shootCheck (s : State) (die : Nat) : State :=
  match (s.die die).shoot with
  | none => s
  | some h =>
    if (s.translated h die).any fun p => h.left.contains p then s.post 32 (.shootdownDone die)
    else
      let s := s.modDie die fun d =>
        { d.rootsShot h die with sdst := setFld (setFld d.sdst sdBusy 1 0) sdDone 1 1, shoot := none }
      s.raiseDie die 2

/-- SHOOTDOWN (R109, R110). -/
def execShootdown (die : Nat) (x : W64) (s : State) : Out := .next (s.shootdown die x)
/-- SHOOTDOWN_DONE (R110). -/
def execShootdownDone (die : Nat) (s : State) : Out := .next (s.shootCheck die)

/-! ## Incoming peer requests (R85, R150, R404, R440) -/

/-- Word `w` of PGRANTp of a die. -/
def Die.grant (d : Die) (p w : Nat) : W64 := Tab.getD d.pgrant 0 (2 * p + w)

/-- The context whose addresses a port's requests name. -/
def State.grantCtx (s : State) (die port : Nat) : Option Nat :=
  match s.pidOfDie die with
  | some p => s.ctxOf p (.ofNat 16 (fld ((s.die die).grant port 0) 48 16))
  | none => none

/-- A port freezes on a request for an address, which is refused (R404). -/
def State.freezePort (s : State) (die port : Nat) (a : W64) : State :=
  let asid : BitVec 16 := .ofNat 16 (fld ((s.die die).grant port 0) 48 16)
  let s := s.modDie die fun d => { d with portFrozen := d.portFrozen ||| .ofNat 4 (2 ^ port) }
  let t := s.logFreeze die 4 1 asid (4 * die + port) a
  { t with resp := .nack 2 }

/-- The grant turns a request away: EN is 0, or the source device is not allowed. -/
def grantBars (g : W64) (srcDev : Nat) : Bool := !bit64 g 47 || (!bit64 g 46 && fld g 36 10 ≠ srcDev)

/-- Class of a peer request: class 0 is taken as 1 (R71). -/
def peerClass (c : BitVec 2) : BitVec 2 := if c = 0 then 1 else c

/-- Why a virtual address of a peer request fails before it is sent. -/
inductive PeerVa where
  | ok | nack (subc : BitVec 4) | freeze
  deriving DecidableEq, Repr

/-- The checks of a peer's virtual address: its form, the owner die's presence, and the grant's dies (R17, R111, R404). -/
def State.peerVa (s : State) (die k : Nat) (a : W64) : PeerVa :=
  if fld a 56 8 ≠ 0 then .nack 1
  else if (s.die die).absdie.toNat / 2 ^ vaDie a % 2 = 1 then .nack 3
  else if (s.ctx k).pdmask.toNat / 2 ^ vaDie a % 2 = 0 then .freeze
  else .ok

/-- A packet of a peer request. -/
def peerPkt (r : PeerReq) (asid : BitVec 16) (a : W64) (need : Need) (req : Req) : Pkt :=
  { src := .peer r.die r.port, sdie := r.die, ddie := vaDie a, core := 256, line := a.toNat / 512 * 512, phys := none,
    held := false, asid := asid, cls := peerClass r.cls, need := need, peer := true, rdc := false, nr := false,
    trunc := false, req := req }

/-- Parts of `n` bytes at `a` that lie in blocks of `b` bytes: offset from `a`, and length. -/
def cuts (b : Nat) : Nat → Nat → Nat → List (Nat × Nat)
  | 0, _, _ => []
  | fuel + 1, a, n =>
    if n = 0 then []
    else
      let m := min n (b - a % b)
      (0, m) :: (cuts b fuel (a + m) (n - m)).map fun e => (e.1 + m, e.2)

/-- Send the parts of a virtual peer request (R85, R97). -/
def State.peerSend (s : State) (r : PeerReq) (asid : BitVec 16) : State :=
  let n := match r.wr with | some l => l.length | none => r.len
  (cuts 512 (n / 512 + 2) r.addr.toNat n).foldl (fun s e =>
    let a := r.addr + w64 e.1
    match r.wr with
    | some l => s.launchReq 0 (peerPkt r asid a .w (.write (numbered (a.toNat % 512) ((l.drop e.1).take e.2))))
    | none => s.launchReq 0 (peerPkt r asid a .r (.read (sectorMask a.toNat e.2)))) s

/-- Send the signal update behind the data, on its virtual channel (R85). -/
def State.peerSig (s : State) (r : PeerReq) (asid : BitVec 16) (g : W64 × Bool × W64) : State :=
  let (a, set, v) := g
  s.issueJob 0 (.sig (peerPkt r asid a .rw (.atomic ⟨false, .n64, if set then 6 else 0, false, 0, a, v, 0⟩)) set)

/-- The gang a port's scratch requests name: that of the rank-0 block SCRLIN of a launch of queue SCRQ. -/
def State.peerGang (s : State) (die port k : Nat) : Option Nat :=
  let g := (s.die die).grant port 1
  let launch (l : Launch) : Bool := l.ctx = k && l.q = fld g 32 6
  let mine (e : Gang) : Bool := (Tab.get? s.launches e.launch).any launch && e.num * e.size = fld g 0 32
  (s.gangs.find? fun e => mine e.2).map fun e => e.1

/-- A pooled address decodes to a resident block of the gang and a range of its window (R30, R440). -/
def State.peerScratch (s : State) (gang n : Nat) (a : W64) : Option (Nat × Nat) :=
  let rank := fld a 24 1 * 8 + fld a 21 3
  match Tab.get? (s.gang gang).blks rank with
  | some k =>
    let b := s.blk k
    if fld a 25 39 = 64 ∧ b.ready ∧ ¬ b.saved ∧ fld a 0 21 + n ≤ b.narr * 32768 then some (rank, fld a 0 21) else none
  | none => none

/-- Send the parts of a scratch peer request: its bytes land or are dropped as one write, with the last part (R61). -/
def State.peerPool (s : State) (r : PeerReq) (gang rank off : Nat) : State :=
  let n := match r.wr with | some l => l.length | none => r.len
  (cuts 128 (n / 128 + 2) off n).foldl (fun s e =>
    let data := match r.wr with | some l => if e.1 + e.2 = n then numbered off l else [] | none => []
    let p : ScPkt := {
      src := .peer r.die r.port, gang := gang, rank := rank, off := (off + e.1) / 128 * 128, bytes := data
      full := decide (e.2 = 128), va := (r.addr + w64 e.1).toNat / 128 * 128, cls := peerClass r.cls }
    s.issueJob 0 (.pool p r.wr.isSome 256)) s

/-- An accepted peer request: its data, then its signal (R85, R440). -/
def State.peerAccepted (s : State) (r : PeerReq) (k : Nat) : State :=
  let asid := (s.ctx k).asid
  let sig (s : State) : State := match r.sig with | some g => s.peerSig r asid g | none => s
  let n := match r.wr with | some l => l.length | none => r.len
  if r.rscr then
    match s.peerGang r.die r.port k with
    | some g =>
      match s.peerScratch g n r.addr with
      | some (rank, off) => sig (s.peerPool r g rank off)
      | none => { s with resp := .nack 1 }
    | none => { s with resp := .nack 1 }
  else sig (s.peerSend r asid)

/-- PEER_REQUEST (R404, R440): a frozen port refuses with PERM; a request outside the grant freezes the port. -/
def State.peerArrives (s : State) (r : PeerReq) : State :=
  let d := s.die r.die
  if d.portFrozen.toNat / 2 ^ r.port % 2 = 1 then { s with resp := .nack 2 }
  else if grantBars (d.grant r.port 0) r.srcDev then s.freezePort r.die r.port r.addr
  else
    match s.grantCtx r.die r.port with
    | none => s.freezePort r.die r.port r.addr
    | some k =>
      let one := if r.rscr then PeerVa.ok else s.peerVa r.die k r.addr
      let two := match r.sig with | some g => s.peerVa r.die k g.1 | none => PeerVa.ok
      match one, two with
      | .freeze, _ => s.freezePort r.die r.port r.addr
      | _, .freeze => s.freezePort r.die r.port r.addr
      | .nack c, _ => { s with resp := .nack c }
      | _, .nack c => { s with resp := .nack c }
      | .ok, .ok => s.peerAccepted r k

/-- PEER_REQUEST (R440). -/
def execPeerRequest (r : PeerReq) (s : State) : Out := .next (s.peerArrives r)

/-- A write of PORTCLR (R440): a port's freeze clears unless a context with its grant's ASID is still valid. -/
def State.portClear (s : State) (die : Nat) (x : W64) : State :=
  [0, 1, 2, 3].foldl (fun s p =>
    if bit64 x p ∧ (s.grantCtx die p).isNone then
      s.modDie die fun d => { d with portFrozen := d.portFrozen &&& ~~~ .ofNat 4 (2 ^ p) }
    else s) s

/-- PORTCLR (R440). -/
def execPortclr (die : Nat) (x : W64) (s : State) : Out := .next (s.portClear die x)

end Sys2Proof.Machine
end

