-- ==== Sys2Proof/Machine/System.lean ====
section
/-! DEFINITION. The system range: TRAP, TRET, SYSRD, SYSWR, KILL, BRK, PMCRD and PMCWR, and every special register's
read and write (R34, R186, R315 to R320, R416). -/

namespace Sys2Proof.Machine

/-! ## Traps and the debugger (R316, R317, R319, R416) -/

/-- TRAP (R316). -/
def execTrap (a : CtlArgs) (s : State) : Out :=
  uniform a.hd (ctlLen a) s fun c x => s.trapAfter c 0x0B (x.srcS a.sa) (ctlLen a)

/-- The restored slots issue no sooner than a transfer's target does (R55, R219). -/
def Group.redirect (x : Group) (now : Nat) : Group :=
  { x with a := { x.a with readyAt := now + 4, why := 15 }, b := { x.b with readyAt := now + 4, why := 15 } }

/-- A suspension of the group's loop is still to come (R259). -/
def State.suspending (s : State) (g : Nat) : Bool :=
  s.ops.any fun e => e.2.g = g && !e.2.gone && e.2.stopReq && !e.2.susp

/-- TRET (R317): it returns one level down; a suspended loop is re-submitted. -/
def execTret (a : CtlArgs) (s : State) : Out :=
  uniform a.hd (ctlLen a) s fun c x =>
    let valid := bit64 x.mprog0 63
    if x.level = 0 then s.privTrap c (.tret a)
    else if s.suspending c.g ∨ (valid ∧ s.loopRuns c.g) then s.block c x .loop (ctlLen a)
    else if valid ∧ ¬ s.progOk c.g x then s.trapMatrix c
    else
      let s := s.setGrp c.g ((x.returned x.level).redirect s.aclk)
      let s := if valid then s.resubmit c else s
      (s.checkJoin c.g).settle c.g

/-- KILL (R319). -/
def execKill (a : CtlArgs) (s : State) : Out :=
  uniform a.hd (ctlLen a) s fun c x =>
    s.endCtx x.ctx 3 (grpid c.g x.gid) 0 (x.srcS a.sa) (x.slot c.slotB).ipc

/-- DBGBRK of a context (R437). -/
def State.dbgBrk (s : State) (k : Nat) : Bool :=
  let c := s.ctx k
  bit64 (Tab.getD (s.part c.pid).ctab 0 (8 * c.entry)) 1

/-- BRK (R316, R416): a trap, or a quiesced stop with a trace record. -/
def execBrk (a : CtlArgs) (s : State) : Out :=
  uniform a.hd (ctlLen a) s fun c x =>
    let pc := (x.slot c.slotB).ipc
    if s.dbgBrk x.ctx then
      let s := s.trace (dieOf c.g) 8 (s.ctx x.ctx).asid (grpid c.g x.gid) 0 pc
      (s.retire c x (ctlLen a)).qstopCtx x.ctx
    else s.trapAfter c 0x0A pc (ctlLen a)

/-! ## Performance counters (R320, R410) -/

/-- Counter `k` of a context's bank on a core. -/
def State.pmRead (s : State) (core ctx k : Nat) : W64 :=
  match s.pms.find? fun b => b.core = core ∧ b.ctx = ctx with
  | some b => Tab.getD b.ctr 0 k
  | none => 0

/-- Set counter `k` of a context's bank on a core: later events of the ACLK are lost (R320). -/
def State.pmWrite (s : State) (core ctx k : Nat) (v : W64) : State :=
  { s with pms := s.pms.map fun b =>
      if b.core = core ∧ b.ctx = ctx then { b with ctr := Tab.set b.ctr 0 k v, wrAt := Tab.put b.wrAt k s.aclk } else b }

/-- PMCRD (R320). -/
def execPmcrd (a : CtlArgs) (s : State) : Out :=
  uniform a.hd (ctlLen a) s fun c x =>
    s.retire c (x.dstS a.dst (s.pmRead (coreOf c.g) x.ctx a.sub.toNat)) (ctlLen a)

/-- PMCWR (R320). -/
def execPmcwr (a : CtlArgs) (s : State) : Out :=
  uniform a.hd (ctlLen a) s fun c x =>
    (s.pmWrite (coreOf c.g) x.ctx a.sub.toNat (x.srcS a.sa)).retire c x (ctlLen a)

/-! ## Reading (R318) -/

/-- BLKXYZ of a block (R186). -/
def State.blkXyz (s : State) (b : Block) : W64 :=
  match Tab.get? s.launches b.launch with
  | some l => w64 (b.lin / (l.gridX * l.gridY) * 2 ^ 40 + b.lin / l.gridX % l.gridY * 2 ^ 24 + b.lin % l.gridX)
  | none => w64 b.lin

/-- BLKSHP of a block (R186). -/
def blkShp (b : Block) : W64 :=
  w64 (b.ntile * 2 ^ 40 + b.narr * 2 ^ 32 + b2n b.pair * 2 ^ 24 + (b.nthr + 31) / 32 * 2 ^ 16 + b.nthr)

/-- GANGID of a block (R186). -/
def gangId (b : Block) (g : Gang) : W64 :=
  w64 (g.num * 2 ^ 32 + b2n (8 < g.size) * 2 ^ 9 + b.rank / 8 * 2 ^ 8 + (g.size - 1) * 2 ^ 4 + b.rank)

/-- State code of an array (R59). -/
def ArrSt.code : ArrSt → Nat
  | .storage => 0 | .switching => 1 | .compute => 2 | .fenced => 3

/-- SPARRST0, or SPARRST1 for `from` 24: the state codes of 24 arrays of a block (R61). -/
def State.sparrst (s : State) (b : Block) (first : Nat) : W64 :=
  w64 ((List.range 24).foldl (fun n k =>
    if first + k < b.narr then n + (s.arr (b.arrKey (first + k))).st.code * 4 ^ k else n) 0)

/-- TMAP0 or TMAP1 of a block on a core (R33). -/
def tmapWord (b : Block) (core first : Nat) : W64 :=
  w64 ((List.range 8).foldl (fun n i =>
    match b.tileOf core (first + i) with
    | some t => n + (128 + t) * 256 ^ i
    | none => n) 0)

/-- ORIENT of a die (R20). -/
def orientOf (d : Nat) : Nat :=
  (d + 3) % 4 * 2 ^ 10 + (d + 1) % 4 * 2 ^ 8 + (d + 2) % 4 * 2 ^ 6 + d * 2 ^ 4 + b2n (d = 0) * 8 + d % 2 * 4 + d

/-- BATCHc of a group (R363). -/
def BatchCls.word (b : BatchCls) : W64 := w64 (b.closed.toNat * 2 ^ 16 + b.done.toNat)

/-- Register of a trap bank by its place among 0 to 12 (R397). -/
def TrapBank.get (b : TrapBank) (i : Nat) : W64 :=
  match i with
  | 0 => b.tcause | 1 => b.tval | 2 => b.tmask | 3 => b.tsave | 5 => b.tpca | 6 => b.tpcb | 7 => b.tmska
  | 8 => b.tmskb | 9 => b.tjoin | 10 => b.tresa | 11 => b.tresb | 12 => b.trmsk | _ => 0

/-- A per-group register (0x000 to 0x0FF). -/
def State.srGroupVal (s : State) (c : Cur) (x : Group) (n : Nat) : W64 :=
  let b := s.blk x.blk
  match n with
  | 0x002 => w64 (grpid c.g x.gid)
  | 0x003 => w64 b.lin
  | 0x004 => s.blkXyz b
  | 0x005 => blkShp b
  | 0x006 => gangId b (s.gang b.gang)
  | 0x007 => b.seqLq
  | 0x008 => w64 b.live
  | 0x040 => w64 x.splitSp.toNat
  | 0x041 => w64 x.splitIx.toNat
  | 0x042 => x.splitWord x.splitIx.toNat
  | 0x049 => x.xmapst
  | 0x050 => w64 x.wsel.toNat
  | 0x058 => x.ystate
  | 0x05A => x.fpst
  | 0x05C => x.gctl
  | 0x068 => x.mstat
  | 0x06A => x.mprog0
  | 0x06B => x.mprog1
  | 0x06C => x.mprog2
  | 0x06D => x.mprog3
  | 0x06E => w64 x.mxsel.toNat
  | 0x074 => w64 x.gategrp.toNat
  | n => if srIn n 0x070 0x073 then (x.bat (n - 0x070)).word else 0

/-- A trap register (0x100 to 0x1FF). -/
def Group.srTrapVal (x : Group) (n : Nat) : W64 :=
  match n with
  | 0x104 => x.tbase0
  | 0x114 => x.tbase1
  | 0x124 => x.tbase2
  | n => (x.bank (n / 16 % 16)).get (n % 16)

/-- A core or block register (0x200 to 0x2FF). -/
def State.srBlockVal (s : State) (c : Cur) (x : Group) (n : Nat) : W64 :=
  let b := s.blk x.blk
  let core := coreOf c.g
  let k := s.core core
  match n with
  | 0x200 => b.spstat
  | 0x201 => s.sparrst b 0
  | 0x202 => s.sparrst b 24
  | 0x203 => tmapWord b core 0
  | 0x204 => tmapWord b core 8
  | 0x210 => w64 k.schsel.toNat
  | 0x211 =>
    let i := k.schsel.toNat % 32
    if i < 25 then s.cntRead core (k.schsel.toNat / 32) i else 0
  | 0x220 => k.mstiv.setWidth 64
  | 0x221 => w64 (k.arrays * 2 ^ 24 + k.mcap.toNat)
  | 0x250 => b.mxcfg0
  | 0x251 => b.mxcfg1
  | 0x252 => b.mxcfg2
  | 0x254 => swblkWord b x.gid
  | n =>
    if srIn n 0x230 0x23F then (b.hnd (n - 0x230)).word
    else if srIn n 0x240 0x247 then
      let g := b.gate (n - 0x240)
      w64 (g.phase.toNat * 2 ^ 16 + g.arrived)
    else 0

/-- The Welt channel WSEL selects (R168). -/
def Group.wselKey (x : Group) (die : Nat) : Nat := chanKey die (decide (32 ≤ x.wsel.toNat)) (x.wsel.toNat % 32)

/-- A context register (0x300 to 0x3FF). -/
def State.srCtxVal (s : State) (c : Cur) (x : Group) (n : Nat) : W64 :=
  let k := s.ctx x.ctx
  let key := x.wselKey (dieOf c.g)
  match n with
  | 0x300 => w64 k.pdmask.toNat
  | 0x301 => w64 (s.asidAt x.ctx (coreOf c.g)).toNat
  | 0x308 => k.ctxsave
  | 0x309 => k.rsxseed
  | 0x30A => k.mxctl
  | 0x30B => k.tvec1
  | 0x30C => k.tvec2
  | 0x30D => k.pmsave
  | 0x340 => s.agModeWord x.ctx (coreOf c.g)
  | 0x350 => k.wgrant
  | 0x351 => (s.chan key).cfg
  | 0x352 => s.chst key
  | 0x353 => (s.chan key).cB
  | 0x354 => (s.chan key).cR.setWidth 64
  | n =>
    if srIn n 0x320 0x33F then Tab.getD k.agset 0 (n - 0x320)
    else if srIn n 0x370 0x37F then keep (Tab.getD k.ppt 0 (n - 0x370)) 0xF2F30F1D
    else if srIn n 0x380 0x38F then Tab.getD k.pmcfg 0 (n - 0x380)
    else 0

/-- Value of a scalar special register; write-only bits read 0. -/
def State.srVal (s : State) (c : Cur) (x : Group) (n : Nat) : W64 :=
  if n < 0x100 then s.srGroupVal c x n
  else if n < 0x200 then x.srTrapVal n
  else if n < 0x300 then s.srBlockVal c x n
  else if n < 0x400 then s.srCtxVal c x n
  else match n with
    | 0x400 => w64 (orientOf (dieOf c.g))
    | 0x401 => w64 (s.die (dieOf c.g)).absdie.toNat
    | 0x402 => s.tick
    | _ => 0

/-- Value of a per-lane special register in lane `l` (R186, R230). -/
def Group.srLane (x : Group) (n l : Nat) : W64 :=
  match n with
  | 0x000 => w64 l
  | 0x001 => w64 ((Tab.get? x.thr l).getD 0)
  | _ => (Tab.getD x.rsx 0 l).setWidth 64

/-- The array MXSEL names in its block, when it is below n (R264). -/
def mxselArr (b : Block) (x : Group) : Option Nat :=
  let j := x.mxsel.toNat / 32
  if j < b.narr then some (b.arrKey j) else none

/-- MXCEXP of an array (R264). -/
def mxcexpWord (a : Arr) (oct : Nat) : W64 :=
  let n := if a.ww8 then 128 else 256
  if a.st = .compute then
    w64 ((List.range 8).foldl (fun t i =>
      if 8 * oct + i < n then t + (Tab.getD a.ec 0 (8 * oct + i)).toNat * 256 ^ i else t) 0)
  else 0

/-- MXGOFF of an array (R264). -/
def mxgoffWord (a : Arr) : W64 := if a.st = .compute then w64 (wrap 64 a.g) else 0

/-- Registers selected through WSEL (R168). -/
def srWelt (n : Nat) : Bool := srIn n 0x351 0x354

/-- WSEL names a package channel that does not exist (R168). -/
def Group.wselBad (x : Group) : Bool := 48 ≤ x.wsel.toNat

/-- The channel WSEL names is granted (R168). -/
def State.wselGranted (s : State) (x : Group) (die : Nat) : Bool :=
  s.chanOpen x.ctx die (decide (32 ≤ x.wsel.toNat)) (x.wsel.toNat % 32)

/-- A scalar SYSRD past its level checks (R318): the register's own rules, then the value. -/
def State.sysRead (s : State) (c : Cur) (x : Group) (n : Nat) (dst : Opnd) (len w : Nat) : State :=
  let done (v : W64) (y : Group) : State := s.retire c (y.dstS dst v) len
  if srWelt n ∧ x.wselBad then s.illop c w
  else if srWelt n ∧ ¬ s.wselGranted x (dieOf c.g) then s.trapHere c 0x02 0 (w64 n)
  else if srIn n 0x06A 0x06D ∧ s.loopRuns c.g then s.block c x .stall len
  else if n = 0x06F ∨ n = 0x069 then
    match mxselArr (s.blk x.blk) x with
    | none => s.trapMatrix c
    | some k => done (if n = 0x06F then mxcexpWord (s.arr k) (x.mxsel.toNat % 32) else mxgoffWord (s.arr k)) x
  else if n = 0x042 then
    s.checkRead c.g [.split c.g x.splitIx.toNat] fun s =>
      s.retire c ({ x with splitIx := x.splitIx + 1 }.dstS dst (s.srVal c x n)) len
  else done (s.srVal c x n) x

/-- SYSRD (R318). -/
def execSysrd (a : CtlArgs) (s : State) : Out :=
  withCur s fun c x =>
    let n := srNum a
    let w := encode (.sysrd a) % 2 ^ 64
    match srRead n x.level a.dst with
    | .illop | .freeze => s.illop c w
    | .priv => s.privTrap c (.sysrd a)
    | .ok =>
      match a.dst with
      | .v d =>
        let m := x.actives c.slotB a.hd
        s.retire c ((Mask.lanes m).foldl (fun y l => y.setV d.toNat l (x.srLane n l)) x) (ctlLen a)
      | _ => if x.uniPred a.hd then s.sysRead c x n a.dst (ctlLen a) w else s.retire c x (ctlLen a)

/-! ## Writing (R318) -/

/-- DEADLINE as a write of YSTATE stores it (R217). -/
def deadlineWr (d : Nat) : Nat := if 256 ≤ d ∧ d ≤ 4096 ∧ d % 256 = 0 then d else 4096

/-- YSTATE as written (R217). -/
def ystateWr (v : W64) : W64 :=
  w64 (fld v 32 13 * 2 ^ 32 + deadlineWr (fld v 16 13) * 2 ^ 16 + fld v 0 16)

/-- Bits a trap register holds, by its place (R397). -/
def trapMaskOf (i : Nat) : Nat :=
  match i with
  | 0 => 0xF100FF
  | 2 => 0xFFFFFFFF
  | 5 => 2 ^ 63 + 0xFFFFFFFFFFFFFC
  | 6 => 2 ^ 63 + 2 ^ 62 + 0xFFFFFFFFFFFFFC
  | 9 => 0xFFFFFFFFFFFFFC
  | 10 | 11 => 2 ^ 63 + 2 ^ 62 + 0xFFFFFFFFFFFFFC
  | _ => 2 ^ 64 - 1

/-- A trap bank with one register written (R397). -/
def TrapBank.write (b : TrapBank) (i : Nat) (v : W64) : TrapBank :=
  let v := keep v (trapMaskOf i)
  match i with
  | 0 => { b with tcause := v } | 1 => { b with tval := v } | 2 => { b with tmask := v }
  | 3 => { b with tsave := v } | 5 => { b with tpca := v } | 6 => { b with tpcb := v }
  | 7 => { b with tmska := v } | 8 => { b with tmskb := v } | 9 => { b with tjoin := v }
  | 10 => { b with tresa := v } | 11 => { b with tresb := v } | 12 => { b with trmsk := v } | _ => b

/-- A group with a trap register written. -/
def Group.srTrapWrite (x : Group) (n : Nat) (v : W64) : Group :=
  match n with
  | 0x104 => { x with tbase0 := v }
  | 0x114 => { x with tbase1 := v }
  | 0x124 => { x with tbase2 := v }
  | n => x.setBank (n / 16 % 16) ((x.bank (n / 16 % 16)).write (n % 16) v)

/-- Restore a class's numbering (R363): only while no operation of the class is incomplete. -/
def Group.batWrite (x : Group) (k : Nat) (v : W64) : Group :=
  let b := x.bat k
  let n : BitVec 16 := .ofNat 16 (fld v 16 16)
  if b.out = 0 then x.setBat k { b with closed := n, done := n } else x

/-- A group with one of its plain registers written at ACLK `now`; other numbers leave it as it is. -/
def Group.srGroupWrite (x : Group) (now n : Nat) (v : W64) : Group :=
  match n with
  | 0x040 => { x with splitSp := .ofNat 7 (min 64 (fld v 0 7)) }
  | 0x041 => { x with splitIx := .ofNat 8 (fld v 0 8) }
  | 0x042 => { x with split := Tab.set x.split 0 x.splitIx.toNat v, splitIx := x.splitIx + 1 }
  | 0x050 => { x with wsel := .ofNat 6 (fld v 0 6) }
  | 0x058 => { x with ystate := ystateWr v }
  | 0x05A => { x with fpst := rw (w1c x.fpst v 0x1F) v 0x1F00 }
  | 0x05C => { x with gctl := keep v 1 }
  | 0x068 => let y := x.msClear now (keep v 0x1FF); { y with mstat := rw y.mstat v 0x200 }
  | 0x06A => { x with mprog0 := keep v (progMask 0) }
  | 0x06B => { x with mprog1 := keep v (progMask 1) }
  | 0x06C => { x with mprog2 := keep v (progMask 2) }
  | 0x06D => { x with mprog3 := keep v (progMask 3) }
  | 0x06E => { x with mxsel := .ofNat 11 (fld v 0 11) }
  | 0x074 => { x with gategrp := .ofNat 9 (fld v 0 9) }
  | n => if srIn n 0x070 0x073 then x.batWrite (n - 0x070) v else x

/-- A group waits at a gate (R370). -/
def State.gateWaited (s : State) (b : Block) (n : Nat) : Bool :=
  let at' (t : Slot) : Bool := match t.wait with | .gate m _ _ => m = n | _ => false
  b.resident.any fun g => match Tab.get? s.groups g with | some x => at' x.a || at' x.b | none => false

/-- A write of GATESTb (R370): ignored while a group waits at the gate; a count that reaches the expected one releases
the phase. -/
def State.gateWrite (s : State) (k n : Nat) (v : W64) : State :=
  let b := s.blk k
  if s.gateWaited b n then s
  else
    (s.modBlk k fun b => { b with gates := Tab.put b.gates n ⟨.ofNat 16 (fld v 16 16), fld v 0 7⟩ }).tryGate k n (gateDelay b)

/-- A write of HNDh (R368): ignored while an operation holds the handle or a request waits. -/
def State.hndWrite (s : State) (k h : Nat) (v : W64) : State :=
  let q := (s.blk k).hnd h
  if q.isOp ∨ q.wait.any fun r => r.valid s then s
  else s.modHnd k h fun q =>
    { q with state := .ofNat 2 (fld v 62 2), holder := fld v 54 7, size := .ofNat 22 (fld v 32 22), base := .ofNat 32 (fld v 0 32) }

/-- A write of SCHCNT: the selected counter is set (R219). -/
def State.cntWrite (s : State) (core : Nat) (v : W64) : State :=
  let k := (s.core core).schsel.toNat
  if k % 32 < 25 then s.cntAdd core (k / 32) (k % 32) (v - s.cntRead core (k / 32) (k % 32)) else s

/-- A core or block register written (0x200 to 0x2FF). -/
def State.srBlockWrite (s : State) (c : Cur) (x : Group) (n : Nat) (v : W64) : State :=
  let core := coreOf c.g
  match n with
  | 0x200 => s.modBlk x.blk fun b => b.spWrite s.aclk v
  | 0x210 => s.modCore core fun k => { k with schsel := .ofNat 7 (fld v 0 7) }
  | 0x211 => s.cntWrite core v
  | 0x220 => s.modCore core fun k => { k with mstiv := .ofNat 32 (fld v 0 32) }
  | 0x254 => s.swblk x.blk v
  | n =>
    if srIn n 0x230 0x23F then s.hndWrite x.blk (n - 0x230) v
    else if srIn n 0x240 0x247 then s.gateWrite x.blk (n - 0x240) v
    else s

/-- Events a performance counter can count (R411). -/
def pmEvent (n : Nat) : Bool :=
  n ≤ 1 || srIn n 0x10 0x18 || srIn n 0x20 0x2F || srIn n 0x30 0x34 || srIn n 0x40 0x45

/-- PMCFGk as written (R411). -/
def pmcfgWr (v : W64) : W64 :=
  let w := keep v 0xC0000FFF
  if pmEvent (fld v 0 8) then w else setFld w 31 1 0

/-- A context register written without a rule of its own (0x300 to 0x3FF). -/
def Ctx.srWrite (k : Ctx) (n : Nat) (v : W64) : Ctx :=
  match n with
  | 0x308 => { k with ctxsave := keep v 0xFFFFFFFFFF0000 }
  | 0x309 => { k with rsxseed := keep v 0xFFFFFFFF }
  | 0x30A => { k with mxctl := keep v 1 }
  | 0x30B => { k with tvec1 := keep v 0xFFFFFFFFFFFFFC }
  | 0x30C => { k with tvec2 := keep v 0xFFFFFFFFFFFFFC }
  | 0x30D => { k with pmsave := rw (w1c k.pmsave v (2 ^ 62)) v (2 ^ 63 + 0xFFFFFFFFFF8000) }
  | n => if srIn n 0x380 0x38F then { k with pmcfg := Tab.set k.pmcfg 0 (n - 0x380) (pmcfgWr v) } else k

/-- A write of AGSETn on a core leaves it unchanged: its entry of AGMODE does not read CACHE, or at level 1 it names a die
outside PDMASK or a bank valid in another entry (R35, R117). -/
def State.agsetRefused (s : State) (x : Group) (core n : Nat) (v : W64) : Bool :=
  let k := s.ctx x.ctx
  let dup := (List.range 32).any fun i =>
    let w := Tab.getD k.agset 0 i
    i ≠ n && bit64 w 15 && agBank w = agBank v
  s.agModeAt x.ctx core n ≠ .cache ||
  (x.level = 1 && (k.pdmask.toNat / 2 ^ fld v 7 2 % 2 = 0 || dup))

/-- A write of ASID names an ASID of another valid context of the partition (R93). -/
def State.asidTaken (s : State) (k : Nat) (v : W64) : Bool :=
  s.ctxs.any fun e => e.1 ≠ k && e.2.pid = (s.ctx k).pid && e.2.asid.toNat = fld v 0 16

/-- A context takes another ASID, written on a core (R93). -/
def State.setAsid (s : State) (k core : Nat) (v : W64) : State :=
  let c := s.ctx k
  let s := (s.modCtx k fun c => { c with asid := .ofNat 16 (fld v 0 16), asidWas := some (c.asid, core, s.aclk) }).unpin
    c.pid c.asid
  s.modPart c.pid fun p =>
    { p with ctab := Tab.put p.ctab (8 * c.entry) (setFld (Tab.getD p.ctab 0 (8 * c.entry)) 48 16 (fld v 0 16)) }

/-- The scheduler's choice in this ACLK is another SWPARK. -/
def State.parksNext (s : State) (k : Nat) : Option (Nat × Group) :=
  (s.pickGroup k).filter fun e =>
    match (s.pickSlot e.1 e.2).map (s.slotSt e.1 e.2) with
    | some (.go (.syswr a) _) => srNum a = 0x07C && e.2.uniPred a.hd
    | _ => false

/-- A SWPARK of the block by a group of a lower GID comes first in this ACLK (R407): it waits, or its scheduler has it yet
to issue. -/
def State.parkBehind (s : State) (c : Cur) (x : Group) : Bool :=
  let first (e : Nat × Group) : Bool := e.2.blk = x.blk && e.2.gid < x.gid
  s.parkers.any first ||
  (s.scheds.filter fun k => c.g / 12 < k).any fun k => (s.parksNext k).any first

/-- A write before the instruction is not acknowledged (R207). -/
def State.writesOut (s : State) (c : Cur) (x : Group) : Bool :=
  (s.before c x).any fun p => p.kind = .store || p.kind = .atomic || p.kind = .atomicNr

/-- A scalar SYSWR past its level checks (R318): the register's own rules, and its effect; `w` is the instruction's low
64 bits. -/
def State.sysWrite (s : State) (c : Cur) (x : Group) (n : Nat) (v : W64) (len w : Nat) : State :=
  let priv : State := s.trapHere c 0x02 0 (w64 n)
  let k := s.ctx x.ctx
  if srWelt n then
    if x.wselBad then s.illop c w
    else if ¬ s.wselGranted x (dieOf c.g) then s.freeze c.g 3
    else if n = 0x351 then (s.cfgChan (x.wselKey (dieOf c.g)) v).retire c x len
    else (if bit64 v 4 then s.modChan (x.wselKey (dieOf c.g)) fun t => { t with cfgerr := false } else s).retire c x len
  else if n = 0x048 then s.xmapWrite c x v len
  else if n = 0x07C then s.park c x (s.parkBehind c x) v len w
  else if srIn n 0x06A 0x06D ∧ s.loopRuns c.g then s.block c x .loop len
  else if n < 0x100 then s.retire c (x.srGroupWrite s.aclk n v) len
  else if n < 0x200 then s.retire c (x.srTrapWrite n v) len
  else if n < 0x300 then (s.retire c x len).srBlockWrite c x n v
  else if n = 0x301 then if s.asidTaken x.ctx v then priv else (s.setAsid x.ctx (coreOf c.g) v).retire c x len
  else if srIn n 0x320 0x33F then
    if s.agsetRefused x (coreOf c.g) (n - 0x320) v then priv
    else (s.modCtx x.ctx fun k => { k with agset := Tab.set k.agset 0 (n - 0x320) (keep v 0x81FF) }).retire c x len
  else if n = 0x350 then
    if s.grantOk x.ctx (keep v 0xFFFFFFFFFFFF) then (s.setGrant x.ctx (keep v 0xFFFFFFFFFFFF)).retire c x len else priv
  else if n = 0x355 then (s.preq k.pid v).retire c x len
  else if n = 0x360 then
    if s.writesOut c x then s.block c x .acks len
    else if (s.queue k.pid (fld v 48 6)).asid ≠ k.asid then s.freeze c.g 4
    else (s.tailWrite k.pid (fld v 48 6) (fld v 0 48)).retire c x len
  else (s.modCtx x.ctx fun k => k.srWrite n v).retire c x len

/-- RSXST written in some lanes: zero stores 1 (R230). -/
def Group.rsxWrite (x : Group) (m : Mask) (src : Nat) : Group :=
  (Mask.lanes m).foldl (fun y l =>
    let v : W32 := (x.getV src l).setWidth 32
    { y with rsx := Tab.put y.rsx l (if v = 0 then 1 else v) }) x

/-- SYSWR (R318). -/
def execSyswr (a : CtlArgs) (s : State) : Out :=
  withCur s fun c x =>
    let n := srNum a
    let w := encode (.syswr a) % 2 ^ 64
    match srWrite n x.level a.sa with
    | .illop | .priv => s.illop c w
    | .freeze => if x.uniPred a.hd then s.freeze c.g 2 else s.retire c x (ctlLen a)
    | .ok =>
      match a.sa with
      | .v d => s.retire c (x.rsxWrite (x.actives c.slotB a.hd) d.toNat) (ctlLen a)
      | _ => if x.uniPred a.hd then s.sysWrite c x n (x.srcS a.sa) (ctlLen a) w else s.retire c x (ctlLen a)

/-! ## The writes as events (opcode_table.json)

Each is the current group's SYSWR of its register, past the level checks. -/

/-- Low 64 bits of the word a slot issues, from the instruction cache. -/
def State.curWord (s : State) (c : Cur) (x : Group) : Nat :=
  let pc := (x.slot c.slotB).ipc
  match s.fetchSt (coreOf c.g) (s.asidAt x.ctx (coreOf c.g)) (blkOf pc) with
  | .hit blk => rawWord blk pc
  | _ => 0

/-- The current group's 96-bit SYSWR of a register. -/
def sysEvent (n : Nat) (v : W64) (s : State) : Out :=
  withCur s fun c x => s.sysWrite c x n v 12 (s.curWord c x)

/-- SWPARK_WRITE (R407). -/
def execSwparkWrite (x : W64) (s : State) : Out := sysEvent 0x07C x s
/-- SWBLK_BASE_WRITE (R407). -/
def execSwblkBaseWrite (x : W64) (s : State) : Out := sysEvent 0x254 (setFld x 2 1 0) s
/-- SWBLK_GO (R408). -/
def execSwblkGo (x : W64) (s : State) : Out := sysEvent 0x254 (setFld x 2 1 1) s
/-- XMAP (R108). -/
def execXmap (va : W64) (s : State) : Out := sysEvent 0x048 va s
/-- LQDOOR (R207). -/
def execLqdoor (x : W64) (s : State) : Out := sysEvent 0x360 x s
/-- ASID_WRITE (R93). -/
def execAsidWrite (x : W64) (s : State) : Out := sysEvent 0x301 x s
/-- AGSET_WRITE (R35, R117). -/
def execAgsetWrite (n : BitVec 5) (x : W64) (s : State) : Out := sysEvent (0x320 + n.toNat) x s
/-- WGRANT_WRITE (R166). -/
def execWgrantWrite (x : W64) (s : State) : Out := sysEvent 0x350 x s
/-- WCFG_WRITE (R169). -/
def execWcfgWrite (x : W64) (s : State) : Out := sysEvent 0x351 x s
/-- SPLITDW_ACCESS (R63, R318): a write, or a read into a scalar register, which traps PRIV below the register's level. -/
def execSplitdwAccess (wr : Option W64) (dst : BitVec 7) (s : State) : Out :=
  match wr with
  | some v => sysEvent 0x042 v s
  | none => withCur s fun c x =>
    match srRead 0x042 x.level (.s dst) with
    | .ok => s.sysRead c x 0x042 (.s dst) 12 (s.curWord c x)
    | _ => s.trapHere c 0x02 0 0x042
/-- BATCH_REG_WRITE (R363). -/
def execBatchRegWrite (c : BitVec 2) (x : W64) (s : State) : Out := sysEvent (0x070 + c.toNat) x s
/-- GATEST_WRITE (R370). -/
def execGatestWrite (b : BitVec 3) (x : W64) (s : State) : Out := sysEvent (0x240 + b.toNat) x s
/-- HND_WRITE (R368). -/
def execHndWrite (h : BitVec 4) (x : W64) (s : State) : Out := sysEvent (0x230 + h.toNat) x s
/-- PMCFG_WRITE (R411). -/
def execPmcfgWrite (k : BitVec 4) (x : W64) (s : State) : Out := sysEvent (0x380 + k.toNat) x s
/-- SPECIAL_REGISTER_WRITE (R318): a write of any scalar register, with the checks of its number and level. -/
def execSpecialRegisterWrite (n : BitVec 12) (x : W64) (s : State) : Out :=
  withCur s fun c g =>
    match srWrite n.toNat g.level .zero with
    | .illop | .priv => s.illop c (s.curWord c g)
    | .freeze => s.freeze c.g 2
    | .ok => s.sysWrite c g n.toNat x 12 (s.curWord c g)

end Sys2Proof.Machine
end

