-- ==== Sys2Proof/Machine/Host.lean ====
section
/-! DEFINITION. The host: the windows of BAR0, partitions, the context table, CXL.mem, function-level reset and the
I3C target (R16, R20, R37 to R39, R85, R90, R94, R107, R109, R149, R165, R179, R205, R403, R405, R412 to R418, R434 to
R447). -/

namespace Sys2Proof.Machine

/-! ## Fields of a write (R6, R38)

A write carries the bytes it covers as a mask: all ones for 8 bytes, half for 4. -/

/-- An RW register's bits `r` take the write where it reaches. -/
def regRw (old v m : W64) (r : Nat) : W64 := (old &&& ~~~ (m &&& w64 r)) ||| (v &&& m &&& w64 r)

/-- A W1C register's bits `c` clear where the write has ones. -/
def regW1c (old v m : W64) (c : Nat) : W64 := old &&& ~~~ (v &&& m &&& w64 c)

/-- Bytes that an access of `width` bytes at `off` covers of its 8-byte register. -/
def laneMask (off width : Nat) : W64 :=
  if width = 8 then w64 (2 ^ 64 - 1) else if off % 8 = 0 then w64 (2 ^ 32 - 1) else w64 (2 ^ 64 - 2 ^ 32)

/-! ## Reading the service window (R90, R94, R107, R109, R405, R413, R418, R435 to R447) -/

/-- BOOTSTAT (R442). -/
def Die.bootstat (d : Die) : W64 := w64 (d.leaves % 2 ^ 21 * 2 ^ 24 + d.fwver.toNat * 2 ^ 8 + d.stage.toNat)

/-- TSTOPST (R413). -/
def State.tstopst (s : State) : W64 := w64 (b2n s.tstopArm * 2 + b2n s.tstopErr)

/-- A register of a die's service window; reserved offsets, and the host die's registers elsewhere, read zero. -/
def State.svcRead (s : State) (die off : Nat) : W64 :=
  let d := s.die die
  let host (x : W64) : W64 := if die = 0 then x else 0
  match off with
  | 0x0000 => d.bootstat
  | 0x0010 => host d.partset
  | 0x0100 => host (s.pwrlim.setWidth 64)
  | 0x0108 => host s.pwrstat
  | 0x0300 => d.pdev.setWidth 64
  | 0x0608 => d.cecthr
  | 0x0808 => d.cldone.setWidth 64
  | 0x0810 => d.xbtcw
  | 0x0818 => d.xbdisc.setWidth 64
  | 0x0900 => d.sdva
  | 0x0910 => d.sdst
  | 0x0B00 => d.frzhead.setWidth 64
  | 0x0D00 => d.trbase
  | 0x0D08 => d.trctl
  | 0x0D10 => d.trhead
  | 0x0E00 => host s.tstop
  | 0x0E08 => host s.tstopst
  | n =>
    if srIn n 0x200 0x218 then Tab.getD d.hdmx 0 ((n - 0x200) / 8)
    else if srIn n 0x310 0x348 then Tab.getD d.pgrant 0 ((n - 0x310) / 8)
    else if srIn n 0x400 0x600 then Tab.getD d.cecnt 0 ((n - 0x400) / 8)
    else if srIn n 0xA00 0xAF8 then Tab.getD d.frz 0 ((n - 0xA00) / 8)
    else if srIn n 0x1000 0x17F8 then Tab.getD d.xroot 0 ((n - 0x1000) / 8)
    else if srIn n 0x2000 0x27F8 then Tab.getD d.xpool 0 ((n - 0x2000) / 8)
    else if srIn n 0x80000 0xFFFF8 then host (w64 (Tab.num d.staging (n - 0x80000) 8))
    else 0

/-! ## Writing the service window -/

/-- PWRLIM as a write stores it (R445). -/
def limitWr (x : Nat) : BitVec 16 := if 1200 ≤ x ∧ x ≤ 2400 then .ofNat 16 x else 2400

/-- The forms of a partition's mask (R436). -/
def partForms : List Nat := [1, 2, 4, 8, 3, 6, 12, 9, 15]

/-- A write of PARTSET is refused (R436). -/
def State.partRefused (s : State) (x : W64) : Bool :=
  let m := fld x 0 4
  let pid := fld x 8 2
  let dies := diesOf (.ofNat 4 m)
  (m ≠ 0 && !partForms.contains m) || dies.any (fun d => (s.die d).held) ||
  dies.any (fun d => match s.pidOfDie d with | some p => p ≠ pid | none => false) ||
  s.ctxs.any fun c => c.2.pid = pid

/-- A partition's Welt and queue grants at their reset values, with the mask it is bound to (R436). -/
def Part.bound (p : Part) (m : Nat) : Part := { p with mask := .ofNat 4 m, wpdie := [], wppkg := 0 }

/-- A write of PARTSET (R436): bind or dissolve a partition, or refuse and set ERR. -/
def State.bind (s : State) (x : W64) : State :=
  if s.partRefused x then s.modDie 0 fun d => { d with partset := setFld d.partset 15 1 1 }
  else
    let m := fld x 0 4
    let pid := fld x 8 2
    let s := s.modPart pid fun p => p.bound m
    let s : State := { s with queues := s.queues.filter fun q => q.1 / 64 ≠ pid }
    s.modDie 0 fun d => { d with partset := keep (regW1c d.partset x (w64 (2 ^ 64 - 1)) 0x8000) 0x8000 ||| keep x 0x30F }

/-- PARTSET (R436). -/
def execPartset (x : W64) (s : State) : Out := .next (s.bind x)

/-- A host write of XPOOL waits for the XMAP requests that reached the die before it (R108). -/
def State.poolWrite8 (s : State) (die n : Nat) (v m : W64) : State :=
  let before := (s.die die).xmapq.filter fun r => r.at_ ≤ s.aclk
  let s := before.foldl (fun s _ => s.xmapServeOne die) s
  s.modDie die fun d =>
    { d with xpool := Tab.put d.xpool n (regRw (Tab.getD d.xpool 0 n) v m 0xFFFF001FFFFF000C) }

/-- A staged image's bytes are written where the mask reaches (R442). -/
def stage (t : Tab Byte) (off : Nat) (v m : W64) : Tab Byte :=
  (List.range 8).foldl (fun t i =>
    if fld m (8 * i) 8 = 0 then t else Tab.set t 0 (off + i) (.ofNat 8 (fld v (8 * i) 8))) t

/-- A write of TSTOP (R413): the register keeps the value, whether it arms a stop or is refused. -/
def State.tstopWrite (s : State) (x : W64) : State := { s.armStop x with tstop := x }

/-- TSTOP (R413). -/
def execTstop (x : W64) (s : State) : Out := .next (s.tstopWrite x)

/-- A register of the service window without a rule of its own takes a write. -/
def Die.svcWrite (d : Die) (off : Nat) (v m : W64) : Die :=
  match off with
  | 0x0300 => { d with pdev := (regRw (d.pdev.setWidth 64) v m 0x3FF).setWidth 10 }
  | 0x0608 => { d with cecthr := regRw d.cecthr v m (2 ^ 64 - 1) }
  | 0x0808 => { d with cldone := (regW1c (d.cldone.setWidth 64) v m 0xFFFFFFFF).setWidth 32 }
  | 0x0810 => { d with xbtcw := regRw d.xbtcw v m 0xFFF }
  | 0x0818 => { d with xbdisc := (regRw (d.xbdisc.setWidth 64) v m 0xFFFFFFFF).setWidth 32 }
  | 0x0900 => { d with sdva := regRw d.sdva v m 0xFFFFFFFFFF0000 }
  | 0x0910 => { d with sdst := regW1c d.sdst v m 0xD }
  | 0x0D00 => { d with trbase := regRw d.trbase v m 0x1FFFFF00FF }
  | 0x0D08 => { d with trctl := regRw d.trctl v m 0xFFFF03FF }
  | 0x0D10 => { d with trhead := regW1c d.trhead v m 0xFFFFFFFF00000000 }
  | n =>
    if srIn n 0x200 0x218 then
      let k := (n - 0x200) / 8
      if (Tab.get? d.hdm k).isSome then d
      else { d with hdmx := Tab.put d.hdmx k (regRw (Tab.getD d.hdmx 0 k) v m 0x1FF0000003) }
    else if srIn n 0x310 0x348 then
      let k := (n - 0x310) / 8
      let bits := if k % 2 = 0 then 0xFFFFFFF000000000 else 0x3FFFFFFFFF
      { d with pgrant := Tab.put d.pgrant k (regRw (Tab.getD d.pgrant 0 k) v m bits) }
    else if srIn n 0x400 0x600 then
      let k := (n - 0x400) / 8
      { d with cecnt := Tab.set d.cecnt 0 k (regW1c (Tab.getD d.cecnt 0 k) v m (2 ^ 64 - 1)) }
    else if srIn n 0x1000 0x17F8 then
      let k := (n - 0x1000) / 8
      d.rootWrite k (regRw (Tab.getD d.xroot 0 k) v m 0xFFFF001FFFFF8001)
    else d

/-- A write of a register of the service window. Action registers act on 8 bytes only (R38). -/
def State.svcWrite (s : State) (die off : Nat) (v m : W64) : State :=
  let full : Bool := m = w64 (2 ^ 64 - 1)
  let act (f : State) : State := if full then f else s
  match off with
  | 0x0008 => if die = 0 then act (s.bootLoad v) else s
  | 0x0010 => if die = 0 then act (s.bind v) else s
  | 0x0100 =>
    if die = 0 ∧ fld m 0 16 ≠ 0 then { s with pwrlim := limitWr (fld v 0 16) } else s
  | 0x0108 => if die = 0 then { s with pwrstat := regW1c s.pwrstat v m 1 } else s
  | 0x0350 => act (s.portClear die v)
  | 0x0800 => act (s.clusterReset die (v.setWidth 32))
  | 0x0908 => act (s.shootdown die v)
  | 0x0E00 => if die = 0 then act (s.tstopWrite v) else s
  | 0x0E08 => if die = 0 ∧ bit64 (v &&& m) 0 then { s with tstopErr := false } else s
  | n =>
    if srIn n 0x2000 0x27F8 then s.poolWrite8 die ((n - 0x2000) / 8) v m
    else if srIn n 0x80000 0xFFFF8 then
      if die = 0 then s.modDie 0 fun d => { d with staging := stage d.staging (n - 0x80000) v m } else s
    else s.modDie die fun d => d.svcWrite n v m

/-! ## The partition window (R37, R165, R205, R403, R412, R414, R417, R437, R438) -/

/-- QCTL as it reads (R205). -/
def LQueue.ctl (q : LQueue) : W64 :=
  w64 (q.asid.toNat * 2 ^ 48 + q.log2n.toNat * 2 ^ 8 + q.cls.toNat * 4 + b2n q.en)

/-- QSTAT as it reads (R205). -/
def LQueue.stat (q : LQueue) : W64 := w64 (b2n q.idle * 2 ^ 8 + q.err.toNat)

/-- A register of the partition window on the lead die. -/
def State.partRead (s : State) (pid n : Nat) : W64 :=
  let p := s.part pid
  if n = 0x3000 then p.pistat
  else if n = 0x3008 then p.pimask
  else if n = 0x3100 then p.cehead.setWidth 64
  else if n = 0x4020 then p.wppkg.setWidth 64
  else if n = 0x10010 then w64 (b2n p.qstopst)
  else if n = 0x10018 then p.dbgst.setWidth 64
  else if n = 0x10020 then p.dbgdata
  else if srIn n 0x1000 0x11F8 then w64 (s.queue pid ((n - 0x1000) / 8)).tail
  else if srIn n 0x2000 0x2FF8 then
    let q := s.queue pid ((n - 0x2000) / 64)
    match n % 64 with
    | 0 => q.base
    | 8 => q.ctl
    | 16 => w64 q.head
    | 24 => q.stat
    | _ => 0
  else if srIn n 0x3200 0x32F8 then Tab.getD p.cerec 0 ((n - 0x3200) / 8)
  else if srIn n 0x4000 0x4018 then
    let k := (n - 0x4000) / 8
    if p.mask.toNat / 2 ^ k % 2 = 1 then (Tab.getD p.wpdie 0 k).setWidth 64 else 0
  else if srIn n 0x8000 0xFFF8 then Tab.getD p.ctab 0 ((n - 0x8000) / 8)
  else if srIn n 0x10100 0x101F8 then
    if n % 32 / 8 = 3 then 0 else Tab.getD p.wp 0 (3 * ((n - 0x10100) / 32) + n % 32 / 8)
  else 0

/-- The context an entry's words describe (R437). -/
def State.newCtx (s : State) (pid entry : Nat) : Ctx :=
  let p := s.part pid
  let w (i : Nat) : W64 := Tab.getD p.ctab 0 (8 * entry + i)
  { Ctx.nil with
    pid := pid, entry := entry, asid := .ofNat 16 (fld (w 0) 48 16), pdmask := p.mask
    tvec1 := keep (w 1) 0xFFFFFFFFFFFFFC, tvec2 := keep (w 2) 0xFFFFFFFFFFFFFC
    ctxsave := keep (w 3) 0xFFFFFFFFFF0000 }

/-- A write of word 0 of a context-table entry (R437): ignored while V is 1; V = 1 creates a context, unless another
valid entry has the ASID. -/
def State.ctabWord0 (s : State) (pid entry : Nat) (x : W64) : State :=
  let old := Tab.getD (s.part pid).ctab 0 (8 * entry)
  let put (v : Nat) : State :=
    s.modPart pid fun p => { p with ctab := Tab.put p.ctab (8 * entry) (keep (setFld x 0 1 v) 0xFFFF000000000003) }
  if bit64 old 0 then s
  else if ¬ bit64 x 0 then put 0
  else if (s.ctxOf pid (.ofNat 16 (fld x 48 16))).isSome then (put 0).raisePi pid 8
  else
    let t := put 1
    { t with ctxs := Tab.put t.ctxs (pid * 512 + entry) (t.newCtx pid entry) }

/-- CONTEXT_CREATE (R437). -/
def execContextCreate (pid entry : Nat) (x : W64) (s : State) : Out := .next (s.ctabWord0 pid entry (setFld x 0 1 1))

/-- A write of another word of an entry: words 1 to 3 take it while V is 0 (R437). -/
def State.ctabWrite (s : State) (pid i : Nat) (v m : W64) : State :=
  if bit64 (Tab.getD (s.part pid).ctab 0 (i / 8 * 8)) 0 ∨ 3 < i % 8 then s
  else s.modPart pid fun p => { p with ctab := Tab.put p.ctab i (regRw (Tab.getD p.ctab 0 i) v m (2 ^ 64 - 1)) }

/-- A write of a queue's descriptor (R205): while EN is 1 only EN takes it. -/
def State.queueWrite (s : State) (pid q w : Nat) (v m : W64) : State :=
  let r := s.queue pid q
  match w with
  | 0 => if r.en then s else s.modQueue pid q fun r => { r with base := regRw r.base v m 0xFFFFFFFFFFFF80 }
  | 1 =>
    let y := regRw r.ctl v m 0xFFFF000000000F0D
    if r.en then (if bit64 y 0 then s else s.modQueue pid q fun r => { r with en := false })
    else
      let s := s.modQueue pid q fun r =>
        { r with asid := .ofNat 16 (fld y 48 16), log2n := .ofNat 4 (fld y 8 4), cls := .ofNat 2 (fld y 2 2) }
      if bit64 y 0 then s.enableQueue pid q else s
  | 2 => s.headWrite pid q (fld (regRw (w64 r.head) v m (2 ^ 48 - 1)) 0 48)
  | 3 => s.modQueue pid q fun r => { r with err := (regW1c (r.err.setWidth 64) v m 0xF).setWidth 4 }
  | _ => s

/-- WPCTLn as a write stores it (R417): ACT or TR of 3 turns KIND off. -/
def wpctlWr (x : W64) : W64 := if fld x 6 2 = 3 ∨ fld x 4 2 = 3 then setFld x 1 3 0 else x

/-- A partition's register without a rule of its own takes a write. -/
def Part.regWrite (p : Part) (n : Nat) (v m : W64) : Part :=
  if n = 0x3000 then { p with pistat := regW1c p.pistat v m 0x3FF }
  else if n = 0x3008 then
    let k := regRw p.pimask v m 0x3FF
    { p with pimask := k, irq := p.irq || (p.pistat &&& p.pimask = 0 && p.pistat &&& k ≠ 0) }
  else if n = 0x10010 then { p with qstopst := p.qstopst && !bit64 (v &&& m) 0 }
  else if n = 0x10020 then { p with dbgdata := regRw p.dbgdata v m (2 ^ 64 - 1) }
  else if srIn n 0x10100 0x101F8 ∧ n % 32 / 8 ≠ 3 then
    let i := 3 * ((n - 0x10100) / 32) + n % 32 / 8
    let old := Tab.getD p.wp 0 i
    if n % 32 / 8 = 0 then { p with wp := Tab.set p.wp 0 i (wpctlWr (regRw old v m 0xFFFF0000000000FE)) }
    else { p with wp := Tab.set p.wp 0 i (regRw old v m (2 ^ 64 - 1)) }
  else p

/-! ## Register commands (R414) -/

/-- Status codes of a command. -/
def dbOk : Nat := 0
def dbBusy : Nat := 1
def dbNoGroup : Nat := 2
def dbBadReg : Nat := 3
def dbNotStopped : Nat := 4

/-- Slot key a command names. -/
def DbgCmd.key (c : DbgCmd) : Nat := (c.die * 64 + c.core) * 48 + c.slot

/-- Special registers that start something when they are written: the debugger has no command for those. -/
def srAction (n : Nat) : Bool := n = 0x048 || n = 0x07C || n = 0x355 || n = 0x360

/-- The command names a register of the group that the command can reach. -/
def dbgReg (x : Group) (wr : Bool) (cls idx : Nat) : Bool :=
  match cls with
  | 0 => idx < x.vdecl
  | 1 => idx < x.sdecl
  | 2 => idx < 16
  | 3 => match srInfo idx with
    | some r => !srAction idx && (if wr then r.wr.isSome else r.rd.isSome)
    | none => false
  | 4 => idx < 8
  | _ => false

/-- Value of a register a command names: class 4 counts TPCA to TRMSK of level 1. -/
def State.dbgVal (s : State) (x : Group) (c : DbgCmd) : W64 :=
  match c.cls with
  | 0 => x.getV c.idx c.lane
  | 1 => x.getS c.idx
  | 2 => (x.getP c.idx c.lane).setWidth 64
  | 3 =>
    if c.idx ≤ 1 ∨ c.idx = 0x060 then x.srLane c.idx c.lane
    else if c.idx = 0x06F ∨ c.idx = 0x069 then
      match mxselArr (s.blk x.blk) x with
      | some k => if c.idx = 0x06F then mxcexpWord (s.arr k) (x.mxsel.toNat % 32) else mxgoffWord (s.arr k)
      | none => 0
    else s.srVal ⟨Machine.DbgCmd.key c, false⟩ x c.idx
  | _ => x.bank1.get (5 + c.idx)

/-- A read of SPLITDW steps SPLITIX, whoever makes it (R63). -/
def State.dbgGet (s : State) (x : Group) (c : DbgCmd) : State × Nat × W64 :=
  let t := if c.cls = 3 ∧ c.idx = 0x042 then
      s.modGrp (Machine.DbgCmd.key c) fun x => { x with splitIx := x.splitIx + 1 }
    else s
  (t, dbOk, s.dbgVal x c)

/-- A special register written by the debugger, with the effect SYSWR gives the value. -/
def State.dbgSr (s : State) (c : DbgCmd) (x : Group) (v : W64) : State :=
  let g := Machine.DbgCmd.key c
  let cur : Cur := ⟨g, false⟩
  let n := c.idx
  let welt : Nat := x.wselKey (dieOf g)
  if n = 0x060 then
    s.modGrp g fun x => { x with rsx := Tab.put x.rsx c.lane (if v.setWidth 32 = (0 : W32) then 1 else v.setWidth 32) }
  else if n = 0x351 then s.cfgChan welt v
  else if n = 0x352 then if bit64 v 4 then s.modChan welt fun t => { t with cfgerr := false } else s
  else if n < 0x100 then s.modGrp g fun x => x.srGroupWrite s.aclk n v
  else if n < 0x200 then s.modGrp g fun x => x.srTrapWrite n v
  else if n < 0x300 then s.srBlockWrite cur x n v
  else if n = 0x301 then s.setAsid x.ctx (coreOf g) v
  else if srIn n 0x320 0x33F then
    s.modCtx x.ctx fun k => { k with agset := Tab.set k.agset 0 (n - 0x320) (keep v 0x81FF) }
  else if n = 0x350 then s.setGrant x.ctx (keep v 0xFFFFFFFFFFFF)
  else s.modCtx x.ctx fun k => k.srWrite n v

/-- The value of a write would trap or be turned away if a program wrote it. -/
def State.dbgBad (s : State) (c : DbgCmd) (x : Group) (v : W64) : Bool :=
  c.cls = 3 && (
    (srIn c.idx 0x351 0x354 && (x.wselBad || !s.wselGranted x (dieOf (Machine.DbgCmd.key c)))) ||
    (c.idx = 0x301 && s.asidTaken x.ctx v) ||
    (srIn c.idx 0x320 0x33F && s.agsetRefused { x with level := 1 } (coreOf (Machine.DbgCmd.key c)) (c.idx - 0x320) v) ||
    (c.idx = 0x350 && !s.grantOk x.ctx (keep v 0xFFFFFFFFFFFF)))

/-- Write a register a command names. -/
def State.dbgSet (s : State) (c : DbgCmd) (x : Group) (v : W64) : State :=
  let g := Machine.DbgCmd.key c
  match c.cls with
  | 0 => s.modGrp g fun x => x.setV c.idx c.lane v
  | 1 => s.modGrp g fun x => x.setS c.idx v
  | 2 => s.modGrp g fun x => x.setP c.idx c.lane (v.setWidth 16)
  | 3 => s.dbgSr c x v
  | _ => s.modGrp g fun x => { x with bank1 := x.bank1.write (5 + c.idx) v }

/-- The destination that a command's register is, if it can be pending. -/
def dbgDst (c : DbgCmd) : Option Dst :=
  match c.cls with | 0 => some (.v c.idx) | 1 => some (.s c.idx) | 2 => some (.p c.idx) | _ => none

/-- The register is the destination of an outstanding result (R414). -/
def Group.dbgBusy (x : Group) (c : DbgCmd) : Bool :=
  match dbgDst c with
  | some d => x.pend.any fun p => p.dsts.contains d
  | none => false

/-- The resident group a command names. -/
def State.dbgGroup (s : State) (c : DbgCmd) : Option Group :=
  if c.die < 4 ∧ c.core < 64 ∧ c.slot < 48 then
    match Tab.get? s.groups (Machine.DbgCmd.key c) with
    | some x => if x.dead then none else some x
    | none => none
  else none

/-- A register command: the state, its status, and the data read. `tick` says that a tick stop is in force. -/
def State.dbgDo (s : State) (tick wr : Bool) (c : DbgCmd) (v : W64) : State × Nat × W64 :=
  match s.dbgGroup c with
  | none => (s, dbNoGroup, 0)
  | some x =>
    if ¬ tick ∧ ¬ ((s.ctx x.ctx).stop ∧ s.ctxStopped x.ctx) then (s, dbNotStopped, 0)
    else if ¬ dbgReg x wr c.cls c.idx then (s, dbBadReg, 0)
    else if ¬ wr then s.dbgGet x c
    else if tick ∧ x.dbgBusy c then (s, dbBusy, 0)
    else if s.dbgBad c x v then (s, dbBadReg, 0)
    else (s.dbgSet c x v, dbOk, 0)

/-- The group a command names belongs to the partition. -/
def State.dbgMine (s : State) (pid : Nat) (c : DbgCmd) : Bool :=
  match s.dbgGroup c with
  | some x => (s.ctx x.ctx).pid = pid
  | none => true

/-- A command of a partition's debug block (R414): STATUS, and for a read DBGDATA. -/
def State.dbgCmd (s : State) (pid : Nat) (wr : Bool) (c : DbgCmd) : State :=
  let (t, st, v) := if s.dbgMine pid c then s.dbgDo false wr c (s.part pid).dbgdata else (s, dbNoGroup, 0)
  t.modPart pid fun p =>
    { p with dbgst := .ofNat 8 st, dbgdata := if !wr && st = dbOk then v else p.dbgdata }

/-- DBGCMD_READ (R414). -/
def execDbgcmdRead (pid : Nat) (c : DbgCmd) (s : State) : Out := .next (s.dbgCmd pid false c)
/-- DBGCMD_WRITE (R414). -/
def execDbgcmdWrite (pid : Nat) (c : DbgCmd) (s : State) : Out := .next (s.dbgCmd pid true c)

/-- A write of DBGCMD: OP 0 reads, 1 writes, others name no register. -/
def State.dbgWrite (s : State) (pid : Nat) (v : W64) : State :=
  let c : DbgCmd :=
    { die := fld v 54 2, core := fld v 48 6, slot := fld v 42 6, lane := fld v 37 5, cls := fld v 33 4, idx := fld v 21 12 }
  match fld v 56 8 with
  | 0 => s.dbgCmd pid false c
  | 1 => s.dbgCmd pid true c
  | _ => s.modPart pid fun p => { p with dbgst := .ofNat 8 dbBadReg }

/-- A write of a register of the partition window. Action registers act on 8 bytes only (R38). -/
def State.partWrite (s : State) (pid n : Nat) (v m : W64) : State :=
  let full : Bool := m = w64 (2 ^ 64 - 1)
  let act (f : State) : State := if full then f else s
  if n = 0x3108 then act (s.ctxKill pid v)
  else if n = 0x4020 then s.partGrant pid 4 (regRw ((s.part pid).wppkg.setWidth 64) v m 0xFFFF)
  else if n = 0x4040 then act (s.preq pid v)
  else if n = 0x10000 then act (match s.ctxOf pid (.ofNat 16 (fld v 48 16)) with | some k => s.qstopCtx k | none => s)
  else if n = 0x10008 then act (s.qrun pid v)
  else if n = 0x10018 then act (s.dbgWrite pid v)
  else if srIn n 0x1000 0x11F8 then act (s.tailWrite pid ((n - 0x1000) / 8) (fld v 0 48))
  else if srIn n 0x2000 0x2FF8 then s.queueWrite pid ((n - 0x2000) / 64) (n % 64 / 8) v m
  else if srIn n 0x4000 0x4018 then
    let k := (n - 0x4000) / 8
    s.partGrant pid k (regRw ((Tab.getD (s.part pid).wpdie 0 k).setWidth 64) v m 0xFFFFFFFF)
  else if srIn n 0x8000 0xFFF8 then
    let i := (n - 0x8000) / 8
    if i % 8 = 0 then act (s.ctabWord0 pid (i / 8) v) else s.ctabWrite pid i v m
  else s.modPart pid fun p => p.regWrite n v m

/-! ## BAR0 (R37, R38) -/

/-- IDENT (R37); the stepping is the part's. -/
def ident : W64 := w64 ((if Config.step = 0 then 1 else Config.step.toNat) * 2 ^ 40 + 0x0A40 * 2 ^ 16 + 0x1F3D)

/-- The partition descriptor in force on a die, with V added (R436). -/
def State.descriptor (s : State) (die : Nat) : W64 :=
  match s.pidOfDie die with
  | some p => w64 (p * 2 ^ 8 + 0x80 + (s.part p).mask.toNat)
  | none => 0

/-- The partition whose window a die answers: it is the lead die (R37). -/
def State.leads (s : State) (die : Nat) : Option Nat :=
  match s.pidOfDie die with
  | some p => if s.leadDie p = die then some p else none
  | none => none

/-- A die's logical device is there for the host: it has enumerated; before that, the host die's link carries BOOTLD, its
status and the staged image only (R434, R442). -/
def State.answers (s : State) (die off : Nat) : Bool :=
  (s.die die).stage = stReady || (die = 0 && (off / 16 = 0x10000 || 0x180000 ≤ off))

/-- An access of BAR0 that R38 admits: 4 or 8 bytes, aligned, in the window of a die that answers. -/
def State.barOk (s : State) (die off width : Nat) : Bool :=
  (width = 4 || width = 8) && off % width = 0 && off < 0x2000000 && die < 4 && s.answers die off

/-- The 8-byte register at an aligned offset of BAR0. -/
def State.barReg (s : State) (die off : Nat) : W64 :=
  if off < 0x1000 then
    match off with
    | 0x00 => ident
    | 0x10 => w64 (orientOf die)
    | 0x40 => s.descriptor die
    | _ => 0
  else if off < 0x100000 then match s.leads die with | some p => s.partRead p off | none => 0
  else if off < 0x200000 then s.svcRead die (off - 0x100000)
  else 0

/-- What a host read of BAR0 returns; none is Unsupported Request (R38). -/
def State.barRead (s : State) (die off width : Nat) : Option Nat :=
  if s.barOk die off width then
    let r := s.barReg die (off / 8 * 8)
    some (if width = 8 then r.toNat else fld r (8 * (off % 8)) 32)
  else none

/-- A host write of BAR0 (R38). -/
def State.barWrite (s : State) (die off width : Nat) (x : W64) : State :=
  if s.barOk die off width then
    let m := laneMask off width
    let v : W64 := if off % 8 = 0 then x else x <<< 32
    let base := off / 8 * 8
    let s : State := { s with resp := .ok }
    if base < 0x1000 then s
    else if base < 0x100000 then match s.leads die with | some p => s.partWrite p base v m | none => s
    else if base < 0x200000 then s.svcWrite die (base - 0x100000) v m
    else s
  else { s with resp := .ur }

/-- HOST_REGISTER_WRITE (R38). -/
def execHostRegisterWrite (die off width : Nat) (x : W64) (s : State) : Out := .next (s.barWrite die off width x)

/-! ## CXL.mem (R39, R85, R149, R404, R434, R435) -/

/-- HDM_COMMIT (R435): interleave ways other than 1 fail with Commit Error; a size of zero takes the decoder's
commitment back. -/
def State.commit (s : State) (die n base size ways : Nat) : State :=
  if 3 < n ∨ ¬ s.answers die 0 then { s with resp := .ur }
  else if ways ≠ 1 then
    let t := s.modDie die fun d => { d with hdmErr := d.hdmErr ||| .ofNat 4 (2 ^ n) }
    { t with resp := .error }
  else
    let t := s.modDie die fun d =>
      { d with hdm := if size = 0 then Tab.del d.hdm n else Tab.put d.hdm n (base, size),
               hdmErr := d.hdmErr &&& ~~~ .ofNat 4 (2 ^ n) }
    { t with resp := .ok }

/-- HDM_COMMIT (R435). -/
def execHdmCommit (die n base size ways : Nat) (s : State) : Out := .next (s.commit die n base size ways)

/-- The die and die-physical address that a host address decodes to: by the lowest-numbered committed decoder that
holds it (R435). -/
def Die.decode (d : Die) (ha : Nat) : Option (Nat × Nat) :=
  match d.hdm.find? fun e => e.2.1 ≤ ha && ha < e.2.1 + e.2.2 with
  | some (n, base, _) =>
    let x := Tab.getD d.hdmx 0 n
    some (fld x 0 2, fld x 28 9 * 2 ^ 28 + (ha - base))
  | none => none

/-- Outcome of decoding a host access. -/
inductive HostAt where
  | at_ (die a : Nat)
  | ur
  | freeze
  deriving DecidableEq, Repr

/-- Decode a host access of `n` bytes on a logical device (R25, R111, R404, R435). CXL.mem moves parts of one 64-byte
block. -/
def State.hostAt (s : State) (die ha n : Nat) : HostAt :=
  if ¬ s.answers die 0 ∨ (s.die die).hostFrozen ∨ n = 0 ∨ 64 < ha % 64 + n then .ur
  else match (s.die die).decode ha with
    | none => .ur
    | some (t, a) =>
      if (s.die t).held then .ur
      else if s.pidOfDie t = none ∨ s.pidOfDie t ≠ s.pidOfDie die then .freeze
      else if dpaLimit < a + n then .ur
      else .at_ t a

/-- A host request's packet, taken by logical device `dev`: it names a die-physical address, in class 1 (R71, R85). -/
def hostPkt (dev t a : Nat) (need : Need) (req : Req) : Pkt :=
  { src := .host dev, sdie := 0, ddie := t, core := 256, line := a, phys := some (paddr t (a / 512 * 512)), held := false,
    asid := 0, cls := 1, need := need, peer := false, rdc := false, nr := false, trunc := false, req := req }

/-- A logical device freezes on a request outside its partition (R404). -/
def State.freezeHost (s : State) (die ha : Nat) : State :=
  let t := (s.modDie die fun d => { d with hostFrozen := true }).logFreeze die 3 1 0 die (w64 ha)
  { t with resp := .ur }

/-- A host access that decodes is sent to its home slice. -/
def State.hostSend (s : State) (die ha n : Nat) (f : Nat → Nat → Pkt) : State :=
  match s.hostAt die ha n with
  | .ur => { s with resp := .ur }
  | .freeze => s.freezeHost die ha
  | .at_ t a => { s.launchReq 0 (f t a) with resp := .none }

/-- HOST_MEM_READ (R149): the answer is the rest of its 64-byte block. -/
def execHostMemRead (die ha len : Nat) (s : State) : Out :=
  .next (s.hostSend die ha len fun t a => hostPkt die t a .r (.read (sectorMask a len)))

/-- HOST_MEM_WRITE (R149). -/
def execHostMemWrite (die ha : Nat) (xs : List Byte) (s : State) : Out :=
  .next (s.hostSend die ha xs.length fun t a => hostPkt die t a .w (.write (numbered (a % 512) xs)))

/-- FUNCTION_LEVEL_RESET (R404, R434): every context of the die's partition ends with CEC HOST, and the device's freeze
clears. -/
def State.functionReset (s : State) (die : Nat) : State :=
  let s := match s.pidOfDie die with
    | some p =>
      let mine := s.ctxs.filter fun (c : Nat × Ctx) => c.2.pid = p
      mine.foldl (fun (s : State) (c : Nat × Ctx) => s.endCtx c.1 4 0 0 0 0) s
    | none => s
  s.modDie die fun d => { d with hostFrozen := false }

/-- FUNCTION_LEVEL_RESET (R434). -/
def execFunctionLevelReset (die : Nat) (s : State) : Out := .next (s.functionReset die)

/-! ## I3C (R447) -/

/-- Die and offset of a selector. -/
def selDie (x : BitVec 24) : Nat := x.toNat / 2 ^ 22
def selOff (x : BitVec 24) : Nat := x.toNat % 2 ^ 20

/-- The target takes the selector. -/
def State.selOk (s : State) (x : BitVec 24) : Bool :=
  x.toNat / 2 ^ 20 % 4 = 0 && selOff x % 8 = 0 && !(s.die (selDie x)).held

/-- The registers an I3C read returns. -/
def i3cReads (off : Nat) : Bool :=
  off = 0 || off = 0x108 || srIn off 0x400 0x600 || off = 0xB00 || off = 0x818

/-- SETDASA (R447): the static address 0x4A takes a dynamic one. -/
def execSetdasa (static dyn : BitVec 7) (s : State) : Out :=
  .next (if static = 0x4A then { s with i3cDyn := some dyn, resp := .ok } else { s with resp := .error })

/-- I3C_SELECTOR_WRITE (R447): a target with no dynamic address yet answers no private transfer. -/
def execI3cSelectorWrite (sel : BitVec 24) (s : State) : Out :=
  .next (if s.i3cDyn.isSome ∧ s.selOk sel then { s with i3cSel := some sel, resp := .ok }
    else { s with i3cSel := none, resp := .error })

/-- The value an I3C read returns: zero after a NACK, and for any register not listed. -/
def State.i3cVal (s : State) : W64 :=
  match s.i3cSel with
  | some x => if i3cReads (selOff x) ∧ ¬ s.pathDown 0 (selDie x) then s.svcRead (selDie x) (selOff x) else 0
  | none => 0

/-- I3C_READ (R447). -/
def execI3cRead (s : State) : Out := .next { s with resp := .word s.i3cVal }

/-- I3C_PWRLIM_WRITE (R447): any selector but PWRLIM of the host die is NACKed. -/
def execI3cPwrlimWrite (sel : BitVec 24) (lim : BitVec 16) (s : State) : Out :=
  .next (if s.i3cDyn.isSome ∧ sel = 0x100 then { s with pwrlim := limitWr lim.toNat, resp := .ok }
    else { s with resp := .error })

end Sys2Proof.Machine
end

