-- ==== Sys2Proof/Machine/Debug.lean ====
section
/-! DEFINITION. The Awl port (R413, R414, R415). -/

namespace Sys2Proof.Machine

/-- The `n` low bits of a number, bit 0 first. -/
def bitsLE (n x : Nat) : List Bool := (List.range n).map fun i => x / 2 ^ i % 2 = 1

/-- A number of bits, bit 0 first. -/
def natOfBits : List Bool → Nat
  | [] => 0
  | b :: r => b2n b + 2 * natOfBits r

/-- Load a TAP instruction and what its data register captures (R415). A die held in reset answers BYPASS only. -/
def State.tapDo (s : State) (die ir : Nat) (dr : List Bool) : State :=
  let off : Bool := s.held || (s.die die).held
  let t := s.modDie die fun d =>
    { d with tap := { d.tap with ir := if off then 0xFF else .ofNat 8 ir, dr := if off then [false] else dr } }
  { t with resp := .word (w64 (natOfBits (t.die die).tap.dr)) }

/-- `n` bits that a scan captures from outside the model: free values. -/
def freeBits (k n : Nat) : List Bool := (List.range n).map fun i => Config.pins k i

/-- EXTEST (R415): the pins are driven and captured. -/
def execExtest (die : Nat) (x : W64) (s : State) : Out :=
  .next (s.tickFree.tapDo die 0x00 (bitsLE 64 x.toNat ++ freeBits s.fresh 64))
/-- SAMPLE (R415). -/
def execSample (die : Nat) (s : State) : Out := .next (s.tickFree.tapDo die 0x01 (freeBits s.fresh 64))

/-- A die answers the Awl port (R415). -/
def State.tapOn (s : State) (die : Nat) : Bool := !(s.held || (s.die die).held)

/-- SCANSEL (R415): the chain SCANOUT shifts. -/
def execScansel (die : Nat) (x : BitVec 16) (s : State) : Out :=
  let t := s.tapDo die 0x10 (bitsLE 16 x.toNat)
  .next (if s.tapOn die then t.modDie die fun d => { d with tap := { d.tap with chain := x } } else t)

/-- SCANOUT (R415): a chain's bits in a tick stop, which the image's map alone names; zeros otherwise. -/
def execScanout (die : Nat) (s : State) : Out :=
  .next (if s.stopped then s.tickFree.tapDo die 0x11 (freeBits (s.fresh * 65536 + (s.die die).tap.chain.toNat) 64)
    else s.tapDo die 0x11 (bitsLE 64 0))

/-- The data register of DBGACC: status above, data below. -/
def dbgaccDr (st : Nat) (v : W64) : List Bool := bitsLE 128 (st * 2 ^ 64 + v.toNat)

/-- DBGACC (R414, R415): a register command, in a tick stop only. -/
def execDbgacc (wr : Bool) (c : DbgCmd) (x : W64) (s : State) : Out :=
  .next (if ¬ s.tapOn c.die then s.tapDo c.die 0xFF [false]
    else if ¬ s.stopped then s.tapDo c.die 0x12 (dbgaccDr dbNotStopped 0)
    else
      let (t, st, v) := s.dbgDo true wr c x
      t.tapDo c.die 0x12 (dbgaccDr st v))

/-- TSTOPNOW (R413, R415): a stop at the current tick plus 128. -/
def execTstopnow (x : Bool) (s : State) : Out := .next (if x then s.armStop (s.tick + 128) else s)

/-- RESUME (R182, R413, R415): the clocks run again, and the tick goes on from its next value. -/
def execResume (x : Bool) (s : State) : Out :=
  .next (if x && s.stopped then { s with stopped := false }.tickEdge else s)

/-- LANEMG (R23, R415): what the lanes' margins are is a free value. -/
def execLanemg (die : Nat) (s : State) : Out := .next (s.tickFree.tapDo die 0x18 (freeBits s.fresh 64))
/-- IDCODE (R415). -/
def execIdcode (die : Nat) (s : State) : Out := .next (s.tapDo die 0xFE (bitsLE 32 0x15834A5B))
/-- BYPASS (R415): the bit shifted in. -/
def execBypass (die : Nat) (x : Bool) (s : State) : Out := .next (s.tapDo die 0xFF [x])

end Sys2Proof.Machine
end

