-- ==== Sys2Proof/Machine/Lanes.lean ====
section
/-! DEFINITION. Cross-lane forms (R239, R240, R340 to R346) and XSHFL's pairing (R203, R204). -/

namespace Sys2Proof.Machine

/-! ## LNX (R340, R341) -/

/-- The span and predicate index of an LNX word. -/
def lnxSpan : Opnd → Nat × Nat
  | .lnx k c => (2 ^ (c.toNat + 1), k.toNat)
  | _ => (2, 0)

/-- A lane's index or distance, as .N32 (R340). -/
def lnxX (x : Group) (a : AluArgs) (l : Nat) : Nat :=
  match a.sb with
  | .imm32 => (aluI32 a).toNat
  | o => (x.srcX o l).toNat % 2 ^ 32

/-- Lane and element of position `q` of the span at `base`. -/
def spanPos (base n : Nat) (q : Nat) : Nat × Nat := (base + q / n, q % n)

/-- A span position that does not wrap (R340). -/
def spanAt (base n tot : Nat) (q : Int) : Option (Nat × Nat) :=
  if 0 ≤ q ∧ q < tot then some (spanPos base n q.toNat) else none

/-- The LNX family: `src` gives the source lane and element from the span's width, the lane's position in its
span, the element count, the element and x (R341). -/
def lnxForm (a : AluArgs) (s : State) (src : (w base rel n e x : Nat) → Option (Nat × Nat)) : Out :=
  withCur s fun c x =>
    let (w, k) := lnxSpan a.sc
    let n := a.ty.count
    let act := x.active1 c.slotB a.hd
    let pick (l e : Nat) : Option (Nat × Nat) :=
      match src w (l - l % w) (l % w) n e (lnxX x a l) with
      | some p => if act p.1 then some p else none
      | none => none
    let vw := x.laneWrites a.dst a.ty Sel.off fun l e =>
      if act l then some (match pick l e with
        | some p => rawElem x a.sa a.ty.width p.1 p.2
        | none => rawElem x a.dst a.ty.width l e)
      else none
    let ok := (lanes32.filter act).map fun l => RegWr.p k l (pOf n fun e => (pick l e).isSome)
    let ds := dstsOf a.dst ++ (if k = 0 then [] else [.p k])
    s.result c x ds (vw ++ (if k = 0 then [] else ok)) 8 none (aluLen a)

/-- Lane x mod W of the span, the same element. -/
def lnxLane (w base _rel _n e x : Nat) : Option (Nat × Nat) := some (base + x % w, e)

/-- LNX.IDX (R340). -/
def execLnxIdx (a : AluArgs) (s : State) : Out := lnxForm a s lnxLane
/-- LNX.WIN (R340). -/
def execLnxWin (a : AluArgs) (s : State) : Out :=
  lnxForm a s fun w base _ n e x => some (spanPos base n ((x + e) % (w * n)))
/-- LNX.RISE (R340). -/
def execLnxRise (a : AluArgs) (s : State) : Out :=
  lnxForm a s fun w base rel n e x => spanAt base n (w * n) (((rel * n + e : Nat) : Int) - x)
/-- LNX.FALL (R340). -/
def execLnxFall (a : AluArgs) (s : State) : Out :=
  lnxForm a s fun w base rel n e x => spanAt base n (w * n) ((rel * n + e + x : Nat) : Int)
/-- LNX.SPRD (R340). -/
def execLnxSprd (a : AluArgs) (s : State) : Out := lnxForm a s lnxLane
/-- LNX.ROT (R340). -/
def execLnxRot (a : AluArgs) (s : State) : Out :=
  lnxForm a s fun w base rel n e x => some (spanPos base n ((rel * n + e + x) % (w * n)))

/-! ## CENSUS and PEERS (R342, R343) -/

/-- Writes of a P register in all 32 lanes. -/
def pAll (k : Nat) (v : BitVec 16) : List RegWr := lanes32.map fun l => .p k l v

/-- Write of a scalar destination. -/
def sWrite (o : Opnd) (v : W64) : List RegWr :=
  match o with
  | .s n => [.s n.toNat v]
  | _ => []

/-- CENSUS's condition in lane `l` (R342). -/
def censusHit (x : Group) (o : Opnd) (l : Nat) : Bool :=
  match o with
  | .pv k => decide ((x.getP k.toNat l).toNat % 2 = 1)
  | o => x.srcX o l ≠ 0

/-- The CENSUS forms: active lanes, and those whose condition holds. -/
def censusForm (a : AluArgs) (s : State) (f : Mask → Mask → List RegWr) : Out :=
  withCur s fun c x =>
    let act := x.actives c.slotB a.hd
    let hit := Mask.of fun l => Mask.has act l && censusHit x a.sa l
    s.result c x (dstsOf a.dst) (f act hit) 8 none (aluLen a)

/-- CENSUS.SOME (R342). -/
def execCensusSome (a : AluArgs) (s : State) : Out :=
  censusForm a s fun _ hit => pAll (pIdx a.dst) (if hit = 0 then 0 else 1)
/-- CENSUS.EVERY (R342). -/
def execCensusEvery (a : AluArgs) (s : State) : Out :=
  censusForm a s fun act hit => pAll (pIdx a.dst) (if hit = act then 1 else 0)
/-- CENSUS.MASK (R342). -/
def execCensusMask (a : AluArgs) (s : State) : Out :=
  censusForm a s fun _ hit => sWrite a.dst (hit.setWidth 64)
/-- CENSUS.COUNT (R342). -/
def execCensusCount (a : AluArgs) (s : State) : Out :=
  censusForm a s fun _ hit => sWrite a.dst (w64 (Mask.count hit))

/-- Element 0 of PEERS' source (R343). -/
def peerVal (x : Group) (a : AluArgs) (l : Nat) : Nat := elem a.ty.width (x.srcX a.sa l) 0

/-- Active lanes whose value equals lane `l`'s. -/
def peersOf (x : Group) (a : AluArgs) (act : Mask) (l : Nat) : Mask :=
  Mask.of fun i => Mask.has act i && peerVal x a i = peerVal x a l

/-- PEERS.MASK (R343). -/
def execPeersMask (a : AluArgs) (s : State) : Out :=
  withCur s fun c x =>
    let act := x.actives c.slotB a.hd
    let wr := match a.dst with
      | .v n => (Mask.lanes act).map fun l => RegWr.v n.toNat l ((peersOf x a act l).setWidth 64)
      | _ => []
    s.result c x (dstsOf a.dst) wr 8 none (aluLen a)

/-- PEERS.UNIFORM (R343). -/
def execPeersUniform (a : AluArgs) (s : State) : Out :=
  withCur s fun c x =>
    let act := x.actives c.slotB a.hd
    let same := (Mask.lanes act).all fun l => peersOf x a act l = act
    s.result c x (dstsOf a.dst) (pAll (pIdx a.dst) (if same then 1 else 0)) 8 none (aluLen a)

/-- PEERS.LEAD (R343). -/
def execPeersLead (a : AluArgs) (s : State) : Out :=
  withCur s fun c x =>
    let act := x.actives c.slotB a.hd
    let wr := (Mask.lanes act).map fun l =>
      RegWr.p (pIdx a.dst) l (if (Mask.lanes (peersOf x a act l)).head? = some l then 1 else 0)
    s.result c x (dstsOf a.dst) wr 8 none (aluLen a)

/-! ## REDUCE and SCAN (R239, R240, R344, R345) -/

/-- Identity of an operation as element bits (R240). -/
def redIdent (t : Ty) (op : Nat) : Nat :=
  let w := t.width
  match t.kind with
  | .float =>
    let f := fmtOf t
    match op with
    | 0 => 0
    | 1 => (f.deliver .rne false 0 (fOfInt 1).res).1
    | 2 => f.infBits false
    | _ => f.infBits true
  | k =>
    match op with
    | 1 => 1
    | 2 => if k = .int then 2 ^ (w - 1) - 1 else 2 ^ w - 1
    | 3 => if k = .int then 2 ^ (w - 1) else 0
    | 4 => 2 ^ w - 1
    | _ => 0

/-- A float combination of two elements, rounded once (R239). -/
def redFloat (t : Ty) (op : Nat) (m : Mods) (a b : Nat) : FElem :=
  let x := (fmtOf t).decode a
  let y := (fmtOf t).decode b
  (fmtOf t).deliver m.rnd m.sat 0 (match op with
    | 0 => fAdd m.rnd x y
    | 1 => fMul x y
    | 2 => fPick false x y
    | _ => fPick true x y)

/-- An exact integer combination; the bitwise ones on bit patterns (R239). -/
def redInt (op : Nat) (a b : Int) : Int :=
  match op with
  | 0 => a + b
  | 1 => a * b
  | 2 => min a b
  | 3 => max a b
  | 4 => ((a.toNat &&& b.toNat : Nat) : Int)
  | 5 => ((a.toNat ||| b.toNat : Nat) : Int)
  | _ => ((a.toNat ^^^ b.toNat : Nat) : Int)

/-- An element as the exact integer a reduction combines. -/
def redArg (t : Ty) (op b : Nat) : Int := if op < 4 then asInt t b else (b : Int)

/-- The element an exact total gives: SAT clamps an ADD or a MUL once (R344). -/
def redFit (t : Ty) (op : Nat) (sat : Bool) (z : Int) : Nat := fitInt t (sat && op < 2) z

/-- One level of the tree (R239): neighbours combine; flags gather. -/
def redLevel (f : Nat → Nat → FElem) : List (Option Nat) → Nat → List (Option Nat) × Nat
  | a :: b :: r, fl =>
    let (t, fl) := redLevel f r fl
    match a, b with
    | some x, some y => let (v, g) := f x y; (some v :: t, flOr fl g)
    | some x, none => (some x :: t, fl)
    | none, y => (y :: t, fl)
  | [a], fl => ([a], fl)
  | [], fl => ([], fl)

/-- The fixed binary tree over 2^n positions (R239). -/
def redTree (f : Nat → Nat → FElem) : Nat → List (Option Nat) → Nat → Option Nat × Nat
  | 0, l, fl => (l.head?.getD none, fl)
  | n + 1, l, fl => let (l, fl) := redLevel f l fl; redTree f n l fl

/-- The elements present, by position (R184, R239). -/
def redPresent (x : Group) (b : Bool) (a : AluArgs) : List (Option Nat) :=
  let n := a.ty.count
  (List.range (32 * n)).map fun p =>
    if x.enabled b a.hd (p / n) (p % n) then some (rawElem x a.sa a.ty.width (p / n) (p % n)) else none

/-- REDUCE's element and flags (R239, R240, R344). -/
def redResult (a : AluArgs) (l : List (Option Nat)) : FElem :=
  let op := a.sub.toNat % 8
  let t := a.ty
  match t.kind with
  | .float =>
    let (r, fl) := redTree (redFloat t op a.mods) 8 l 0
    (r.getD (redIdent t op), fl)
  | _ =>
    match (l.filterMap id).map (redArg t op) with
    | [] => (redIdent t op, 0)
    | z :: r => (redFit t op a.mods.sat (r.foldl (redInt op) z), 0)

/-- SCAN's walk: `st` is the running value, as element bits and as the exact integer (R239, R345). -/
def scanGo (a : AluArgs) (exc : Bool) : List (Option Nat) → Option (Nat × Int) → List (Option Nat) → Nat →
    List (Option Nat) × Nat
  | [], _, acc, fl => (acc.reverse, fl)
  | none :: r, st, acc, fl => scanGo a exc r st (none :: acc) fl
  | some b :: r, st, acc, fl =>
    let op := a.sub.toNat % 8
    let t := a.ty
    let before := match st with | some s => s.1 | none => redIdent t op
    let (v, z, g) : Nat × Int × Nat :=
      match st with
      | none => (if t.kind = .float then b else redFit t op a.mods.sat (redArg t op b), redArg t op b, 0)
      | some (s, y) =>
        if t.kind = .float then
          let (w, g) := redFloat t op a.mods s b
          (w, 0, g)
        else
          let z := redInt op y (redArg t op b)
          (redFit t op a.mods.sat z, z, 0)
    scanGo a exc r (some (v, z)) (some (if exc then before else v) :: acc) (flOr fl g)

/-- Lanes that hold a present element. -/
def presentLanes (n : Nat) (l : List (Option Nat)) : Mask :=
  Mask.of fun i => (List.range n).any fun e => ((l[i * n + e]?).getD none).isSome

/-- The predicate result of REDUCE and SCAN: E in bit 0 (R344). -/
def redPred (k : Nat) (l : List (Option Nat)) : List RegWr :=
  if k = 0 then [] else pAll k (if l.all Option.isNone then 1 else 0)

/-- REDUCE (R344). -/
def execReduce (a : AluArgs) (s : State) : Out :=
  withCur s fun c x =>
    let l := redPresent x c.slotB a
    let (v, fl) := redResult a l
    if x.trapFlags fl ≠ 0 then s.trapMask c 0x0D 0 (w64 fl) (presentLanes a.ty.count l)
    else
      let k := pIdx a.sb
      s.result c (x.orFlags fl) (dstsOf a.dst ++ dstsOf a.sb) (sWrite a.dst (w64 v) ++ redPred k l) 12 none
        (aluLen a)

/-- A SCAN form (R345). -/
def scanForm (a : AluArgs) (s : State) (exc : Bool) : Out :=
  withCur s fun c x =>
    let l := redPresent x c.slotB a
    let n := a.ty.count
    let (vs, fl) := scanGo a exc l none [] 0
    if x.trapFlags fl ≠ 0 then s.trapMask c 0x0D 0 (w64 fl) (presentLanes n l)
    else
      let k := pIdx a.sb
      let vw := x.laneWrites a.dst a.ty Sel.off fun i e => (vs[i * n + e]?).getD none
      s.result c (x.orFlags fl) (dstsOf a.dst ++ dstsOf a.sb) (vw ++ redPred k l) 12 none (aluLen a)

/-- SCAN (R345). -/
def execScan (a : AluArgs) (s : State) : Out := scanForm a s false
/-- SCAN.EXC (R345). -/
def execScanExc (a : AluArgs) (s : State) : Out := scanForm a s true

/-! ## XSHFL (R203, R204, R346) -/

/-- The slot key of the partner group of a pair-spanning block, while it is live (R203). -/
def State.partner (s : State) (x : Group) : Option Nat :=
  match Tab.get? (s.blk x.blk).places (x.gid ^^^ 1) with
  | some (.slot h) => some h
  | _ => none

/-- The partner has ended or was retired: one that is saved is live still (R203, R204). -/
def State.partnerGone (s : State) (x : Group) : Bool :=
  match Tab.get? (s.blk x.blk).places (x.gid ^^^ 1) with
  | some .ended | some .retired | none => true
  | _ => false

/-- XSHFL (R346): the group waits for its partner's, and exchanges 12 ACLK after the later issue. -/
def execXshfl (a : AluArgs) (s : State) : Out :=
  withCur s fun c x =>
    if ¬ (s.blk x.blk).pair then s.illop c (encode (.xshfl a) % 2 ^ 64)
    else
      let words := (Mask.lanes (x.slot c.slotB).lanes).map fun l => (l, x.srcX a.sa l)
      let p := { x.newPend c.slotB .exch 8 none s.aclk (dstsOf a.dst) with old := words, ldst := some (a.dst, .u0, a.sa) }
      let x := x.addPend p
      let s := s.block c x (.xshfl p.tag) 8
      if s.partnerGone x then (s.modGrp c.g fun x => x.pairExch p.tag).post 12 (.xshflExchange c.g c.g)
      else match s.partner x with
      | none => s
      | some h =>
        match (Tab.get? s.groups h).bind fun y => y.pend.find? Pend.openExch with
        | none => s
        | some q =>
          let s := (s.modGrp c.g fun x => x.pairExch p.tag).modGrp h fun y => y.pairExch q.tag
          s.post 12 (.xshflExchange c.g h)

/-- The earliest exchange under way of a group. -/
def Group.exchOn (x : Group) : Option Pend := x.pend.find? fun p => p.kind = .exch && p.left ≠ 0

/-- A group's exchange ends: it takes the lanes of `w` that it has too, and goes on. -/
def State.takeExch (s : State) (g : Nat) (p : Pend) (w : Tab W64) : State :=
  match Tab.get? s.groups g with
  | none => s
  | some x =>
    let d := match p.ldst with | some (d, _, _) => d | none => .zero
    let x := { x with pend := x.pend.erase p }
    let x := if x.dead then x
      else w.foldl (fun x e => if (Tab.get? p.old e.1).isSome then x.dstV d e.1 e.2 else x) x
    ((s.setGrp g x).release g p.slotB 0).afterResult g

/-- XSHFL_EXCHANGE (R203, R204); a group alone completes with no lane written. -/
def execXshflExchange (g h : Nat) (s : State) : Out :=
  match (Tab.get? s.groups g).bind Group.exchOn with
  | none => .next s
  | some p =>
    if g = h then .next (s.takeExch g p [])
    else match (Tab.get? s.groups h).bind Group.exchOn with
      | none => .next (s.takeExch g p [])
      | some q => .next ((s.takeExch g p q.old).takeExch h q p.old)

end Sys2Proof.Machine
end

