-- ==== Sys2Proof/Machine/Special.lean ====
section
/-! DEFINITION. The special functions (R333, R334). The part's F32 result is a free value, kept to the stated
bound around the function's value, which is computed to 256 fraction bits. -/

namespace Sys2Proof.Machine

/-- Fraction bits of the fixed-point values below. -/
def fxBits : Nat := 256

/-- ln 2 and π / 2, truncated to 256 fraction bits. -/
def fxLn2 : Nat := 80260960185991308862233904206310070533990667611589946606122867505419956976171
def fxHalfPi : Nat := 181885788445883162140117471388864931326696688664196214979386075558969447233092

/-- Sum of the exponential series: `t` is the argument, `term` the k-th term. -/
def expSeries (t : Nat) : Nat → Nat → Nat → Nat → Nat
  | 0, _, _, sum => sum
  | n + 1, k, term, sum =>
    let term := term * t / 2 ^ fxBits / k
    expSeries t n (k + 1) term (sum + term)

/-- 2^f of a fraction f. -/
def fxExp2 (f : Nat) : Nat := expSeries (f * fxLn2 / 2 ^ fxBits) 70 1 (2 ^ fxBits) (2 ^ fxBits)

/-- Sum of the series of artanh: `z2` is the square of the argument. -/
def artanhSeries (z2 : Nat) : Nat → Nat → Nat → Nat → Nat
  | 0, _, _, sum => sum
  | n + 1, k, pw, sum => artanhSeries z2 n (k + 2) (pw * z2 / 2 ^ fxBits) (sum + pw / k)

/-- log2 of a number in [1, 2), in fixed point. -/
def fxLog2 (m : Nat) : Nat :=
  let one := 2 ^ fxBits
  let z := (m - one) * one / (m + one)
  2 * artanhSeries (z * z / one) 85 1 z 0 * one / fxLn2

/-- Sum of the series of sine or cosine: `r2` is the square of the argument. -/
def trigSeries (r2 : Int) : Nat → Nat → Int → Int → Int
  | 0, _, _, sum => sum
  | n + 1, k, term, sum =>
    let term := -(term * r2 / 2 ^ fxBits) / (k * (k + 1) : Nat)
    trigSeries r2 n (k + 2) term (sum + term)

/-- sin x of a nonnegative fixed-point number, `q0` quarter turns added. -/
def fxSin (q0 x : Nat) : Int :=
  let r := x % fxHalfPi
  let r2 : Int := (r * r / 2 ^ fxBits : Nat)
  let sin := trigSeries r2 60 2 r r
  let cos := trigSeries r2 60 1 (2 ^ fxBits) (2 ^ fxBits)
  match (x / fxHalfPi + q0) % 4 with
  | 0 => sin
  | 1 => cos
  | 2 => -sin
  | _ => -cos

/-- m × 2^e in fixed point, truncated. -/
def fxOf (m : Nat) (e : Int) : Nat :=
  let k := e + fxBits
  if 0 ≤ k then m * 2 ^ k.toNat else m / 2 ^ (-k).toNat

/-- A fixed-point number as an inexact value. -/
def fxVal (z : Int) : FX := ⟨decide (z < 0), z.natAbs, -(fxBits : Int), true⟩

/-! ## The functions -/

/-- The special functions by number. -/
inductive SFn where
  | rcp | rsq | exp2 | log2 | sin | cos | tanh
  deriving DecidableEq, Repr

/-- Number of a function. -/
def SFn.num : SFn → Nat
  | .rcp => 0 | .rsq => 1 | .exp2 => 2 | .log2 => 3 | .sin => 4 | .cos => 5 | .tanh => 6

/-- 2^x of (−1)^neg × m × 2^e. From ±256 on every value over- or underflows alike. -/
def exp2Val (neg : Bool) (m : Nat) (e : Int) : FX :=
  let a := min (fxOf m e) (256 * 2 ^ fxBits)
  let z : Int := if neg then -(a : Int) else a
  let n := z / 2 ^ fxBits
  ⟨false, fxExp2 (z % 2 ^ fxBits).toNat, n - fxBits, true⟩

/-- tanh of a nonnegative number, from 2^(2x log2 e). -/
def tanhVal (m : Nat) (e : Int) : Nat :=
  let one := 2 ^ fxBits
  let x := min (fxOf m e) (64 * one)
  let y := 2 * x * one / fxLn2
  let ex := fxExp2 (y % one) * 2 ^ (y / one)
  (ex - one) * one / (ex + one)

/-- The function's value at a finite input that R334 does not list. -/
def SFn.value (f : SFn) (neg : Bool) (m : Nat) (e : Int) : FX :=
  match f with
  | .rcp => ⟨neg, 2 ^ 400 / m, -400 - e, true⟩
  | .rsq =>
    let odd := e % 2 = 1
    ⟨false, isqrtGo 260 (2 ^ 500 / (m * 2 ^ b2n odd)) 0, (-500 - (e - b2n odd)) / 2, true⟩
  | .exp2 => exp2Val neg m e
  | .log2 =>
    let top := (bitLen m : Int) - 1
    fxVal (fxLog2 (fxOf m (-top)) + (top + e) * 2 ^ fxBits)
  | .sin => fxVal (let z := fxSin 0 (fxOf m e); if neg then -z else z)
  | .cos => fxVal (fxSin 1 (fxOf m e))
  | .tanh => fxVal (let z : Int := tanhVal m e; if neg then -z else z)

/-- A bound on the distance from the function's value, k × 2^e (R333): in ulps of the value, or absolute. -/
def SFn.bound (f : SFn) (m : Nat) (e : Int) (v : FX) : Nat × Int :=
  let ulp : Int := max v.top (-126) - 23
  match f with
  | .rcp => (1, ulp)
  | .rsq | .exp2 => (2, ulp)
  | .log2 =>
    if scaledLt m e 1 (-1) || scaledLt 1 1 m e then (2, ulp) else (1, -22)
  | .sin | .cos => (1, -21)
  | .tanh => (1, -22)

/-- The distance of two values is at most k × 2^q. -/
def within (n1 : Bool) (m1 : Nat) (e1 : Int) (v : FX) (k : Nat) (q : Int) : Bool :=
  let e := min (min e1 v.e) q
  (finAt n1 m1 e1 e - finAt v.neg v.m v.e e).natAbs ≤ k * 2 ^ (q - e).toNat

/-- The F32 result at a finite input R334 does not list: bits and flags. The part's own result stands where it
lies within the bound; the model falls back on the nearest value (assumption 10). -/
def SFn.f32 (f : SFn) (sat : Bool) (bits : Nat) (neg : Bool) (m : Nat) (e : Int) : FElem :=
  let cand := (Config.special f.num bits).toNat
  let v := f.value neg m e
  let (k, q) := f.bound m e v
  let far := scaledLt 1 10 m e
  let ft := fmtOf .f32
  let big : FElem := (ft.overflow .rne sat v.neg, flOF + flNX)
  let near : FElem :=
    let (b, fl) := ft.deliver .rne sat 0 (.ex v 0)
    (b, flOr fl flNX)
  match f with
  | .tanh => if scaledLt m e 1 (-12) then (bits, flNX) else pick cand k q v big near
  | .sin | .cos =>
    if far then
      let mag := cand % 2 ^ 31
      (ft.signBit (decide (2 ^ 31 ≤ cand)) + (if mag ≤ 0x3F800000 then mag else mag % 0x3F800001), flNX)
    else pick cand k q v big near
  | _ => pick cand k q v big near
where
  /-- The candidate, when it is within the bound; an overflow is, when a value past max finite is. -/
  pick (cand k : Nat) (q : Int) (v : FX) (big near : FElem) : FElem :=
    match (fmtOf .f32).decode cand with
    | .fin n1 m1 e1 => if within n1 m1 e1 v k q then (cand, flNX) else near
    | .inf n1 =>
      let e := min v.e q
      if n1 = v.neg ∧ 2 ^ (128 - e).toNat ≤ v.m * 2 ^ (v.e - e).toNat + k * 2 ^ (q - e).toNat then big else near
    | .nan _ => near

/-- n when |v| = 2^n. -/
def pow2Of (m : Nat) (e : Int) : Option Int :=
  if m = 2 ^ (bitLen m - 1) then some ((bitLen m : Int) - 1 + e) else none

/-- R334's row for an input: the result with its flags; `none` for an input it does not list. -/
def SFn.listed (f : SFn) (v : FVal) : Option FRes :=
  let one : FRes := .ex ⟨false, 1, 0, false⟩ 0
  let zero (neg : Bool) : FRes := .ex ⟨neg, 0, 0, false⟩ 0
  match v with
  | .nan sig => some (.nan (if sig then flNV else 0))
  | .inf neg =>
    match f with
    | .rcp => some (zero neg)
    | .rsq => some (if neg then .nan flNV else zero false)
    | .exp2 => some (if neg then zero false else .inf false 0)
    | .log2 => some (if neg then .nan flNV else .inf false 0)
    | .sin | .cos => some (.nan flNV)
    | .tanh => some (.ex ⟨neg, 1, 0, false⟩ 0)
  | .fin neg 0 _ =>
    match f with
    | .rcp | .rsq => some (.inf neg flDZ)
    | .exp2 | .cos => some one
    | .log2 => some (.inf true flDZ)
    | .sin | .tanh => some (zero neg)
  | .fin neg m e =>
    match f with
    | .rsq => if neg then some (.nan flNV) else none
    | .log2 =>
      if neg then some (.nan flNV)
      else match pow2Of m e with
        | some n => some (.ex (exOf n 0 false) 0)
        | none => none
    | .exp2 =>
      let n := fxOf m e / 2 ^ fxBits
      let z : Int := if neg then -(n : Int) else n
      if fxOf m e % 2 ^ fxBits = 0 ∧ -149 ≤ z ∧ z ≤ 127 then some (.ex ⟨false, 1, z, false⟩ 0) else none
    | _ => none

/-- A value delivered to a type is tiny: below the smallest normal after rounding, zero included. -/
def FFmt.tinyVal (f : FFmt) (v : FVal) : Bool :=
  match v with
  | .fin neg m e =>
    let x : FX := ⟨neg, m, e, false⟩
    m = 0 || (decide (x.top < f.emin) &&
      scaledLt (x.roundAt .rne 0 (x.top - f.mb)).1 (x.top - f.mb) 1 f.emin)
  | _ => false

/-- A special function's element (R333, R334): the F32 result, rounded once to the destination's type. -/
def SFn.elem (f : SFn) (a : AluArgs) (v : FVal) : FElem :=
  let t := fmtOf (aluDstTy a)
  match f.listed v with
  | some r => t.deliver .rne a.mods.sat 0 r
  | none =>
    match v with
    | .fin neg m e =>
      let bits := roundF32 v.res
      let (b, fl) := f.f32 a.mods.sat bits neg m e
      let y := (fmtOf .f32).decode b
      let (d, g) := t.deliver .rne a.mods.sat 0 y.res
      (d, flOr (flOr fl g) (if t.tinyVal y then flUF else 0))
    | _ => (t.canonNan, 0)

/-- A special-function form (R333). -/
def specialForm (f : SFn) (a : AluArgs) (s : State) : Out :=
  vecFloat a s 0 16 (some a.hd.la.toNat) fun x l e _ _ => f.elem a (fA x a l e)

/-- FRCP (R333). -/
def execFrcp (a : AluArgs) (s : State) : Out := specialForm .rcp a s
/-- FRSQ (R333). -/
def execFrsq (a : AluArgs) (s : State) : Out := specialForm .rsq a s
/-- FEXP2 (R333). -/
def execFexp2 (a : AluArgs) (s : State) : Out := specialForm .exp2 a s
/-- FLOG2 (R333). -/
def execFlog2 (a : AluArgs) (s : State) : Out := specialForm .log2 a s
/-- FSIN (R333). -/
def execFsin (a : AluArgs) (s : State) : Out := specialForm .sin a s
/-- FCOS (R333). -/
def execFcos (a : AluArgs) (s : State) : Out := specialForm .cos a s
/-- FTANH (R333). -/
def execFtanh (a : AluArgs) (s : State) : Out := specialForm .tanh a s

end Sys2Proof.Machine
end

