-- ==== Sys2Proof/Machine/Dispatch.lean ====
section
/-! DEFINITION. One arm for every instruction: its meaning. -/

namespace Sys2Proof.Machine

/-- What an instruction does. -/
def exec (i : Instr) (s : State) : Host.Outcome State Fault Refusal :=
  match i with
  | .sadd a => Sys2Proof.Machine.execSadd a s
  | .ssub a => Sys2Proof.Machine.execSsub a s
  | .smul a => Sys2Proof.Machine.execSmul a s
  | .smulh a => Sys2Proof.Machine.execSmulh a s
  | .sdiv a => Sys2Proof.Machine.execSdiv a s
  | .srem a => Sys2Proof.Machine.execSrem a s
  | .sand a => Sys2Proof.Machine.execSand a s
  | .sor a => Sys2Proof.Machine.execSor a s
  | .sxor a => Sys2Proof.Machine.execSxor a s
  | .sshl a => Sys2Proof.Machine.execSshl a s
  | .sshr a => Sys2Proof.Machine.execSshr a s
  | .ssra a => Sys2Proof.Machine.execSsra a s
  | .smin a => Sys2Proof.Machine.execSmin a s
  | .smax a => Sys2Proof.Machine.execSmax a s
  | .scmp a => Sys2Proof.Machine.execScmp a s
  | .ssel a => Sys2Proof.Machine.execSsel a s
  | .smov a => Sys2Proof.Machine.execSmov a s
  | .smovi a => Sys2Proof.Machine.execSmovi a s
  | .smoviHi a => Sys2Proof.Machine.execSmoviHi a s
  | .slea a => Sys2Proof.Machine.execSlea a s
  | .sbfe a => Sys2Proof.Machine.execSbfe a s
  | .sbfi a => Sys2Proof.Machine.execSbfi a s
  | .spopc a => Sys2Proof.Machine.execSpopc a s
  | .sclz a => Sys2Proof.Machine.execSclz a s
  | .sbrev a => Sys2Proof.Machine.execSbrev a s
  | .bra a => Sys2Proof.Machine.execBra a s
  | .bras a => Sys2Proof.Machine.execBras a s
  | .brv a => Sys2Proof.Machine.execBrv a s
  | .jmp a => Sys2Proof.Machine.execJmp a s
  | .jmpv a => Sys2Proof.Machine.execJmpv a s
  | .callLabel a => Sys2Proof.Machine.execCallLabel a s
  | .callReg a => Sys2Proof.Machine.execCallReg a s
  | .ret a => Sys2Proof.Machine.execRet a s
  | .land a => Sys2Proof.Machine.execLand a s
  | .yield a => Sys2Proof.Machine.execYield a s
  | .exit a => Sys2Proof.Machine.execExit a s
  | .nop a => Sys2Proof.Machine.execNop a s
  | .elect a => Sys2Proof.Machine.execElect a s
  | .exmrd a => Sys2Proof.Machine.execExmrd a s
  | .exmrdOwn a => Sys2Proof.Machine.execExmrdOwn a s
  | .exmwr a => Sys2Proof.Machine.execExmwr a s
  | .exmwrAnd a => Sys2Proof.Machine.execExmwrAnd a s
  | .exmwrOr a => Sys2Proof.Machine.execExmwrOr a s
  | .regroup a => Sys2Proof.Machine.execRegroup a s
  | .vadd a => Sys2Proof.Machine.execVadd a s
  | .vsub a => Sys2Proof.Machine.execVsub a s
  | .vmul a => Sys2Proof.Machine.execVmul a s
  | .vmulh a => Sys2Proof.Machine.execVmulh a s
  | .vmad a => Sys2Proof.Machine.execVmad a s
  | .vdiv a => Sys2Proof.Machine.execVdiv a s
  | .vrem a => Sys2Proof.Machine.execVrem a s
  | .vand a => Sys2Proof.Machine.execVand a s
  | .vor a => Sys2Proof.Machine.execVor a s
  | .vxor a => Sys2Proof.Machine.execVxor a s
  | .vshl a => Sys2Proof.Machine.execVshl a s
  | .vshr a => Sys2Proof.Machine.execVshr a s
  | .vsra a => Sys2Proof.Machine.execVsra a s
  | .vmin a => Sys2Proof.Machine.execVmin a s
  | .vmax a => Sys2Proof.Machine.execVmax a s
  | .vabs a => Sys2Proof.Machine.execVabs a s
  | .vneg a => Sys2Proof.Machine.execVneg a s
  | .vcmp a => Sys2Proof.Machine.execVcmp a s
  | .vsel a => Sys2Proof.Machine.execVsel a s
  | .vmov a => Sys2Proof.Machine.execVmov a s
  | .vmovi a => Sys2Proof.Machine.execVmovi a s
  | .vmoviHi a => Sys2Proof.Machine.execVmoviHi a s
  | .vbfe a => Sys2Proof.Machine.execVbfe a s
  | .vbfi a => Sys2Proof.Machine.execVbfi a s
  | .vpopc a => Sys2Proof.Machine.execVpopc a s
  | .vclz a => Sys2Proof.Machine.execVclz a s
  | .vdot4 a => Sys2Proof.Machine.execVdot4 a s
  | .vlea a => Sys2Proof.Machine.execVlea a s
  | .fadd a => Sys2Proof.Machine.execFadd a s
  | .fsub a => Sys2Proof.Machine.execFsub a s
  | .fmul a => Sys2Proof.Machine.execFmul a s
  | .ffma a => Sys2Proof.Machine.execFfma a s
  | .fmin a => Sys2Proof.Machine.execFmin a s
  | .fmax a => Sys2Proof.Machine.execFmax a s
  | .fcmp a => Sys2Proof.Machine.execFcmp a s
  | .fclass a => Sys2Proof.Machine.execFclass a s
  | .fdiv a => Sys2Proof.Machine.execFdiv a s
  | .fsqrt a => Sys2Proof.Machine.execFsqrt a s
  | .fscale a => Sys2Proof.Machine.execFscale a s
  | .fround a => Sys2Proof.Machine.execFround a s
  | .ffrac a => Sys2Proof.Machine.execFfrac a s
  | .fdot2 a => Sys2Proof.Machine.execFdot2 a s
  | .frcp a => Sys2Proof.Machine.execFrcp a s
  | .frsq a => Sys2Proof.Machine.execFrsq a s
  | .fexp2 a => Sys2Proof.Machine.execFexp2 a s
  | .flog2 a => Sys2Proof.Machine.execFlog2 a s
  | .fsin a => Sys2Proof.Machine.execFsin a s
  | .fcos a => Sys2Proof.Machine.execFcos a s
  | .ftanh a => Sys2Proof.Machine.execFtanh a s
  | .pairedWord a => Sys2Proof.Machine.execPairedWord a s
  | .cvt a => Sys2Proof.Machine.execCvt a s
  | .pack a => Sys2Proof.Machine.execPack a s
  | .unpack a => Sys2Proof.Machine.execUnpack a s
  | .unpackHi a => Sys2Proof.Machine.execUnpackHi a s
  | .qmx a => Sys2Proof.Machine.execQmx a s
  | .dqmx a => Sys2Proof.Machine.execDqmx a s
  | .lnxIdx a => Sys2Proof.Machine.execLnxIdx a s
  | .lnxWin a => Sys2Proof.Machine.execLnxWin a s
  | .lnxRise a => Sys2Proof.Machine.execLnxRise a s
  | .lnxFall a => Sys2Proof.Machine.execLnxFall a s
  | .lnxSprd a => Sys2Proof.Machine.execLnxSprd a s
  | .lnxRot a => Sys2Proof.Machine.execLnxRot a s
  | .censusSome a => Sys2Proof.Machine.execCensusSome a s
  | .censusEvery a => Sys2Proof.Machine.execCensusEvery a s
  | .censusMask a => Sys2Proof.Machine.execCensusMask a s
  | .censusCount a => Sys2Proof.Machine.execCensusCount a s
  | .peersMask a => Sys2Proof.Machine.execPeersMask a s
  | .peersUniform a => Sys2Proof.Machine.execPeersUniform a s
  | .peersLead a => Sys2Proof.Machine.execPeersLead a s
  | .reduce a => Sys2Proof.Machine.execReduce a s
  | .scan a => Sys2Proof.Machine.execScan a s
  | .scanExc a => Sys2Proof.Machine.execScanExc a s
  | .xshfl a => Sys2Proof.Machine.execXshfl a s
  | .ld a => Sys2Proof.Machine.execLd a s
  | .st a => Sys2Proof.Machine.execSt a s
  | .ldw a => Sys2Proof.Machine.execLdw a s
  | .lds a => Sys2Proof.Machine.execLds a s
  | .sts a => Sys2Proof.Machine.execSts a s
  | .ldnr a => Sys2Proof.Machine.execLdnr a s
  | .prefL1 a => Sys2Proof.Machine.execPrefL1 a s
  | .prefRo a => Sys2Proof.Machine.execPrefRo a s
  | .prefL2 a => Sys2Proof.Machine.execPrefL2 a s
  | .atom a => Sys2Proof.Machine.execAtom a s
  | .atoms a => Sys2Proof.Machine.execAtoms a s
  | .atomr a => Sys2Proof.Machine.execAtomr a s
  | .cas a => Sys2Proof.Machine.execCas a s
  | .cass a => Sys2Proof.Machine.execCass a s
  | .fence a => Sys2Proof.Machine.execFence a s
  | .cflush a => Sys2Proof.Machine.execCflush a s
  | .cflushInv a => Sys2Proof.Machine.execCflushInv a s
  | .cinv a => Sys2Proof.Machine.execCinv a s
  | .cinvRo a => Sys2Proof.Machine.execCinvRo a s
  | .cinvI a => Sys2Proof.Machine.execCinvI a s
  | .copyV2s a => Sys2Proof.Machine.execCopyV2s a s
  | .copyS2v a => Sys2Proof.Machine.execCopyS2v a s
  | .copyV2v a => Sys2Proof.Machine.execCopyV2v a s
  | .copyS2s a => Sys2Proof.Machine.execCopyS2s a s
  | .copygG a => Sys2Proof.Machine.execCopygG a s
  | .copygS a => Sys2Proof.Machine.execCopygS a s
  | .copypPut a => Sys2Proof.Machine.execCopypPut a s
  | .copypGet a => Sys2Proof.Machine.execCopypGet a s
  | .batch a => Sys2Proof.Machine.execBatch a s
  | .waitb a => Sys2Proof.Machine.execWaitb a s
  | .waitc a => Sys2Proof.Machine.execWaitc a s
  | .hacqDrain a => Sys2Proof.Machine.execHacqDrain a s
  | .hacqFill a => Sys2Proof.Machine.execHacqFill a s
  | .hrel a => Sys2Proof.Machine.execHrel a s
  | .hstat a => Sys2Proof.Machine.execHstat a s
  | .gatePass a => Sys2Proof.Machine.execGatePass a s
  | .gateMark a => Sys2Proof.Machine.execGateMark a s
  | .gateHold a => Sys2Proof.Machine.execGateHold a s
  | .ggatePass a => Sys2Proof.Machine.execGgatePass a s
  | .ggateMark a => Sys2Proof.Machine.execGgateMark a s
  | .ggateHold a => Sys2Proof.Machine.execGgateHold a s
  | .sigset a => Sys2Proof.Machine.execSigset a s
  | .sigadd a => Sys2Proof.Machine.execSigadd a s
  | .sigwait a => Sys2Proof.Machine.execSigwait a s
  | .mppt a => Sys2Proof.Machine.execMppt a s
  | .mcfg a => Sys2Proof.Machine.execMcfg a s
  | .madmit a => Sys2Proof.Machine.execMadmit a s
  | .mrelease a => Sys2Proof.Machine.execMrelease a s
  | .mloop a => Sys2Proof.Machine.execMloop a s
  | .maclr a => Sys2Proof.Machine.execMaclr a s
  | .mamovCpy a => Sys2Proof.Machine.execMamovCpy a s
  | .mamovAdd a => Sys2Proof.Machine.execMamovAdd a s
  | .maload a => Sys2Proof.Machine.execMaload a s
  | .mastore a => Sys2Proof.Machine.execMastore a s
  | .mstest a => Sys2Proof.Machine.execMstest a s
  | .mprogRd a => Sys2Proof.Machine.execMprogRd a s
  | .mprogWr a => Sys2Proof.Machine.execMprogWr a s
  | .mstat a => Sys2Proof.Machine.execMstat a s
  | .agon a => Sys2Proof.Machine.execAgon a s
  | .agoff a => Sys2Proof.Machine.execAgoff a s
  | .agld a => Sys2Proof.Machine.execAgld a s
  | .agst a => Sys2Proof.Machine.execAgst a s
  | .agop a => Sys2Proof.Machine.execAgop a s
  | .agred a => Sys2Proof.Machine.execAgred a s
  | .wbar a => Sys2Proof.Machine.execWbar a s
  | .wwait a => Sys2Proof.Machine.execWwait a s
  | .wbcast a => Sys2Proof.Machine.execWbcast a s
  | .wrecvB a => Sys2Proof.Machine.execWrecvB a s
  | .wrecvR a => Sys2Proof.Machine.execWrecvR a s
  | .wred a => Sys2Proof.Machine.execWred a s
  | .wtick a => Sys2Proof.Machine.execWtick a s
  | .trap a => Sys2Proof.Machine.execTrap a s
  | .tret a => Sys2Proof.Machine.execTret a s
  | .sysrd a => Sys2Proof.Machine.execSysrd a s
  | .syswr a => Sys2Proof.Machine.execSyswr a s
  | .kill a => Sys2Proof.Machine.execKill a s
  | .brk a => Sys2Proof.Machine.execBrk a s
  | .pmcrd a => Sys2Proof.Machine.execPmcrd a s
  | .pmcwr a => Sys2Proof.Machine.execPmcwr a s
  | .resultWriteback g tag => Sys2Proof.Machine.execResultWriteback g tag s
  | .loadDataReturn g tag => Sys2Proof.Machine.execLoadDataReturn g tag s
  | .storeAck g tag => Sys2Proof.Machine.execStoreAck g tag s
  | .ifetchFill core asid blk => Sys2Proof.Machine.execIfetchFill core asid blk s
  | .regroupFuse g h => Sys2Proof.Machine.execRegroupFuse g h s
  | .xshflExchange g h => Sys2Proof.Machine.execXshflExchange g h s
  | .contextEndRecord ctx => Sys2Proof.Machine.execContextEndRecord ctx s
  | .handleAdmit blk h => Sys2Proof.Machine.execHandleAdmit blk h s
  | .gateRelease blk gate => Sys2Proof.Machine.execGateRelease blk gate s
  | .ggateCrossDie gang => Sys2Proof.Machine.execGgateCrossDie gang s
  | .ggateRelease gang => Sys2Proof.Machine.execGgateRelease gang s
  | .sigwaitReread g => Sys2Proof.Machine.execSigwaitReread g s
  | .madmitComplete op => Sys2Proof.Machine.execMadmitComplete op s
  | .mreleaseComplete op => Sys2Proof.Machine.execMreleaseComplete op s
  | .mloopStep op => Sys2Proof.Machine.execMloopStep op s
  | .mloopComplete op => Sys2Proof.Machine.execMloopComplete op s
  | .asyncOpComplete op => Sys2Proof.Machine.execAsyncOpComplete op s
  | .agonWritebackDone bank => Sys2Proof.Machine.execAgonWritebackDone bank s
  | .agonComplete bank => Sys2Proof.Machine.execAgonComplete bank s
  | .agoffDrainDone bank => Sys2Proof.Machine.execAgoffDrainDone bank s
  | .agoffComplete bank => Sys2Proof.Machine.execAgoffComplete bank s
  | .agateCommandComplete bank => Sys2Proof.Machine.execAgateCommandComplete bank s
  | .weltArrival m => Sys2Proof.Machine.execWeltArrival m s
  | .weltRelease ch => Sys2Proof.Machine.execWeltRelease ch s
  | .preemptRequest pid die x => Sys2Proof.Machine.execPreemptRequest pid die x s
  | .tickLoad x => Sys2Proof.Machine.execTickLoad x s
  | .recordTake pid q => Sys2Proof.Machine.execRecordTake pid q s
  | .dependenceReread pid q => Sys2Proof.Machine.execDependenceReread pid q s
  | .workingSetPrewalk pid q => Sys2Proof.Machine.execWorkingSetPrewalk pid q s
  | .blockPlace pid => Sys2Proof.Machine.execBlockPlace pid s
  | .xmapServe die => Sys2Proof.Machine.execXmapServe die s
  | .rd p => Sys2Proof.Machine.execRd p s
  | .wr p => Sys2Proof.Machine.execWr p s
  | .atq p => Sys2Proof.Machine.execAtq p s
  | .atr p => Sys2Proof.Machine.execAtr p s
  | .scr p => Sys2Proof.Machine.execScr p s
  | .scw p => Sys2Proof.Machine.execScw p s
  | .inv p die hold => Sys2Proof.Machine.execInv p die hold s
  | .invack a => Sys2Proof.Machine.execInvack a s
  | .dataRsp p bytes => Sys2Proof.Machine.execDataRsp p bytes s
  | .ack p old => Sys2Proof.Machine.execAck p old s
  | .nack p subc => Sys2Proof.Machine.execNack p subc s
  | .sigUpd p set => Sys2Proof.Machine.execSigUpd p set s
  | .pageWalkComplete p => Sys2Proof.Machine.execPageWalkComplete p s
  | .hbmFill p bad => Sys2Proof.Machine.execHbmFill p bad s
  | .clusterResetDone die cluster => Sys2Proof.Machine.execClusterResetDone die cluster s
  | .shootdownDone die => Sys2Proof.Machine.execShootdownDone die s
  | .imageVerify die => Sys2Proof.Machine.execImageVerify die s
  | .dieAuthentication die => Sys2Proof.Machine.execDieAuthentication die s
  | .fill => Sys2Proof.Machine.execFill s
  | .selfTest arr => Sys2Proof.Machine.execSelfTest arr s
  | .pooledAccessRelease g => Sys2Proof.Machine.execPooledAccessRelease g s
  | .agateCommandAccept bank => Sys2Proof.Machine.execAgateCommandAccept bank s
  | .madmitAccept op => Sys2Proof.Machine.execMadmitAccept op s
  | .mastoreAccept op => Sys2Proof.Machine.execMastoreAccept op s
  | .mloopAccept op => Sys2Proof.Machine.execMloopAccept op s
  | .mpptTakeEffect op => Sys2Proof.Machine.execMpptTakeEffect op s
  | .traceSample die => Sys2Proof.Machine.execTraceSample die s
  | .tickCheck crcBad => Sys2Proof.Machine.execTickCheck crcBad s
  | .reconverge g => Sys2Proof.Machine.execReconverge g s
  | .regroupRelease g => Sys2Proof.Machine.execRegroupRelease g s
  | .trapEntry g => Sys2Proof.Machine.execTrapEntry g s
  | .watchdogExpiry g => Sys2Proof.Machine.execWatchdogExpiry g s
  | .preemptWaitExit g => Sys2Proof.Machine.execPreemptWaitExit g s
  | .schedulerSwap core sched => Sys2Proof.Machine.execSchedulerSwap core sched s
  | .activePositionFill core sched => Sys2Proof.Machine.execActivePositionFill core sched s
  | .blockEnd blk => Sys2Proof.Machine.execBlockEnd blk s
  | .agonAccept bank => Sys2Proof.Machine.execAgonAccept bank s
  | .agoffAccept bank => Sys2Proof.Machine.execAgoffAccept bank s
  | .globalTick => Sys2Proof.Machine.execGlobalTick s
  | .tailRegisterWrite pid q t => Sys2Proof.Machine.execTailRegisterWrite pid q t s
  | .queueEnable pid q => Sys2Proof.Machine.execQueueEnable pid q s
  | .qheadWrite pid q x => Sys2Proof.Machine.execQheadWrite pid q x s
  | .recordComplete launch => Sys2Proof.Machine.execRecordComplete launch s
  | .swparkWrite x => Sys2Proof.Machine.execSwparkWrite x s
  | .swblkBaseWrite x => Sys2Proof.Machine.execSwblkBaseWrite x s
  | .swblkGo x => Sys2Proof.Machine.execSwblkGo x s
  | .blockRestore pid => Sys2Proof.Machine.execBlockRestore pid s
  | .xmap va => Sys2Proof.Machine.execXmap va s
  | .lqdoor x => Sys2Proof.Machine.execLqdoor x s
  | .asidWrite x => Sys2Proof.Machine.execAsidWrite x s
  | .agsetWrite n x => Sys2Proof.Machine.execAgsetWrite n x s
  | .wgrantWrite x => Sys2Proof.Machine.execWgrantWrite x s
  | .wcfgWrite x => Sys2Proof.Machine.execWcfgWrite x s
  | .splitdwAccess wr dst => Sys2Proof.Machine.execSplitdwAccess wr dst s
  | .batchRegWrite c x => Sys2Proof.Machine.execBatchRegWrite c x s
  | .gatestWrite b x => Sys2Proof.Machine.execGatestWrite b x s
  | .hndWrite h x => Sys2Proof.Machine.execHndWrite h x s
  | .pmcfgWrite k x => Sys2Proof.Machine.execPmcfgWrite k x s
  | .specialRegisterWrite n x => Sys2Proof.Machine.execSpecialRegisterWrite n x s
  | .hostRegisterWrite die off width x => Sys2Proof.Machine.execHostRegisterWrite die off width x s
  | .conflictQueueRelease bank => Sys2Proof.Machine.execConflictQueueRelease bank s
  | .class0BudgetGain => Sys2Proof.Machine.execClass0BudgetGain s
  | .linkRetrain link ok => Sys2Proof.Machine.execLinkRetrain link ok s
  | .clusterReset die mask => Sys2Proof.Machine.execClusterReset die mask s
  | .shootdown die x => Sys2Proof.Machine.execShootdown die x s
  | .preqRaise pid x => Sys2Proof.Machine.execPreqRaise pid x s
  | .preqCancel pid x => Sys2Proof.Machine.execPreqCancel pid x s
  | .ctxkill pid x => Sys2Proof.Machine.execCtxkill pid x s
  | .ctxkillRetire pid x => Sys2Proof.Machine.execCtxkillRetire pid x s
  | .contextCreate pid entry x => Sys2Proof.Machine.execContextCreate pid entry x s
  | .partset x => Sys2Proof.Machine.execPartset x s
  | .weltPartitionGrant pid k x => Sys2Proof.Machine.execWeltPartitionGrant pid k x s
  | .qstop pid x => Sys2Proof.Machine.execQstop pid x s
  | .qstopDone pid => Sys2Proof.Machine.execQstopDone pid s
  | .qrun pid x => Sys2Proof.Machine.execQrun pid x s
  | .dbgcmdRead pid c => Sys2Proof.Machine.execDbgcmdRead pid c s
  | .dbgcmdWrite pid c => Sys2Proof.Machine.execDbgcmdWrite pid c s
  | .tstop x => Sys2Proof.Machine.execTstop x s
  | .tickStop => Sys2Proof.Machine.execTickStop s
  | .extest die x => Sys2Proof.Machine.execExtest die x s
  | .sample die => Sys2Proof.Machine.execSample die s
  | .scansel die x => Sys2Proof.Machine.execScansel die x s
  | .scanout die => Sys2Proof.Machine.execScanout die s
  | .dbgacc wr c x => Sys2Proof.Machine.execDbgacc wr c x s
  | .tstopnow x => Sys2Proof.Machine.execTstopnow x s
  | .resume x => Sys2Proof.Machine.execResume x s
  | .lanemg die => Sys2Proof.Machine.execLanemg die s
  | .idcode die => Sys2Proof.Machine.execIdcode die s
  | .bypass die x => Sys2Proof.Machine.execBypass die x s
  | .hostMemRead die ha len => Sys2Proof.Machine.execHostMemRead die ha len s
  | .hostMemWrite die ha xs => Sys2Proof.Machine.execHostMemWrite die ha xs s
  | .hdmCommit die n base size ways => Sys2Proof.Machine.execHdmCommit die n base size ways s
  | .functionLevelReset die => Sys2Proof.Machine.execFunctionLevelReset die s
  | .spdmRequest die idx signed => Sys2Proof.Machine.execSpdmRequest die idx signed s
  | .peerRequest r => Sys2Proof.Machine.execPeerRequest r s
  | .portclr die x => Sys2Proof.Machine.execPortclr die x s
  | .coldReset => Sys2Proof.Machine.execColdReset s
  | .bootld x => Sys2Proof.Machine.execBootld x s
  | .authTimeout => Sys2Proof.Machine.execAuthTimeout s
  | .powerEstimate => Sys2Proof.Machine.execPowerEstimate s
  | .thermalTrip => Sys2Proof.Machine.execThermalTrip s
  | .ageingMonitorRead => Sys2Proof.Machine.execAgeingMonitorRead s
  | .setdasa static dyn => Sys2Proof.Machine.execSetdasa static dyn s
  | .i3cSelectorWrite sel => Sys2Proof.Machine.execI3cSelectorWrite sel s
  | .i3cRead => Sys2Proof.Machine.execI3cRead s
  | .i3cPwrlimWrite sel lim => Sys2Proof.Machine.execI3cPwrlimWrite sel lim s
  | .flitReplay link bad => Sys2Proof.Machine.execFlitReplay link bad s
  | .issueCounters => Sys2Proof.Machine.execIssueCounters s

end Sys2Proof.Machine
end

