-- ==== Sys2Proof/Machine/Step.lean ====
section
/-! DEFINITION. One step of the package: an event that is due, or the start of an ACLK, or the next
scheduler's issue, or the end of the ACLK. -/

namespace Sys2Proof.Machine

/-- Waits in which an instruction has had no effect: it has not issued until what it waits for comes, and is not
counted (R216). -/
def Wait.before : Wait → Bool
  | .fetch | .acks | .queue | .batch _ _ | .batchNew _ | .rank | .handle _ _ | .loop | .stall => true
  | _ => false

/-- Forms whose instruction waits for nothing but its results and its unit. -/
def waitsNot (i : Instr) : Bool :=
  match i.view with
  | .alu _ _ | .pair _ | .fill | .event => true
  | _ => false

/-- At the start of an ACLK an instruction that must wait is held, so that its slot cannot issue (R216). -/
def State.holdBack (s : State) (g : Nat) (b : Bool) : State :=
  match Tab.get? s.groups g with
  | none => s
  | some x =>
    match s.slotSt g x b with
    | .go i _ =>
      if waitsNot i ∨ !s.runs x ∨ ((x.slot b).held ∧ (x.slot b).counted) then s
      else match exec i { s with cur := some ⟨g, b⟩ } with
        | .next t =>
          match Tab.get? t.groups g with
          | some y => if (y.slot b).held && (y.slot b).wait.before then { t with cur := s.cur } else s
          | none => s
        | _ => s
    | _ => s

/-- FILL words take no issue: slots go past them at the start of an ACLK (R266). -/
def State.pastFills (s : State) (g : Nat) (b : Bool) : State :=
  (List.range 8).foldl (fun s _ =>
    match Tab.get? s.groups g with
    | none => s
    | some x =>
      if s.runs x && s.slotSt g x b = .fill then
        match execFill { s with cur := some ⟨g, b⟩ } with
        | .next t => { t with cur := s.cur }
        | _ => s
      else s) s

/-- The start of an ACLK. -/
def State.startAclk (s : State) : State :=
  let s := (s.groups.foldl (fun s e => s.warrGo e.1) s).warrGhosts
  let both (f : State → Nat → Bool → State) (s : State) : State :=
    s.groups.foldl (fun s e => f (f s e.1 false) e.1 true) s
  (both State.holdBack (both State.pastFills s).openAclk).survey

/-- One step. -/
def step (s : State) : Host.Outcome State Fault Refusal :=
  match s.nextEvent with
  | some (i, s) => exec i s
  | none =>
    if s.stopped || s.held then .next s
    else if s.turn = 0 then .next { s.startAclk with turn := 1 }
    else
      match s.nextIssue (s.turn - 1) with
      | none => .next s.endAclk
      | some (k, g, x) =>
        match s.pickSlot g x with
        | none => .next s.endAclk
        | some b =>
          match s.preIssue g b with
          | (s, some .fill) => exec .fill { s with turn := k + 1 }
          | (s, some i) => exec i { s with turn := k + 2 }
          | (s, none) => .next { s with turn := k + 2 }

/-- The state in which the next step runs the word `w` of `nbits` bits as group 0's instruction. -/
def State.withFetchWord (s : State) (nbits w : Nat) : State :=
  { s with
    agenda := [], turn := 1, cur := none, stopped := false, held := false
    ctxs := [(0, loadCtx)], blocks := [(0, loadBlock)], groups := [(0, loadGroup)]
    cores := [(0, { Core.reset with ic := [loadLine nbits w] })] }

end Sys2Proof.Machine
end

