-- ==== Sys2Proof/Safety.lean ====
section
/-! DEFINITION. What a safe state and a safe run are, and the terms the statements use: what an instruction may
change in its group, and what a result makes of a register when it arrives. -/

namespace Sys2Proof.Machine

/-! ## Safe runs -/

/-- Every byte address has one value: memory is in its canonical form. -/
def Safe (s : State) : Prop := Memory.wf s.mem = true

/-- `n` steps from `s` all answer a next state. -/
def RunsFor : Nat → State → Prop
  | 0, _ => True
  | n + 1, s => ∃ t, step s = .next t ∧ RunsFor n t

/-! ## The instruction under way -/

/-- `c` is the slot whose instruction is executed, and `x` its group; no protected word is in error (R44, R54, R58, R62):
what reads find in error is an input of the machine, and `ErrorsStop` says what it does. -/
def Current (s : State) (c : Cur) (x : Group) : Prop :=
  s.cur = some c ∧ Tab.get? s.groups c.g = some x ∧ s.upsets = []

/-- The group in slot key `g`. -/
def HasGroup (s : State) (g : Nat) (x : Group) : Prop := Tab.get? s.groups g = some x

/-- The two states differ in the entry of group `g` alone: no other group, no byte of memory, no cache, engine, block,
context, die or host register, and no event. -/
def OnlyGroup (s t : State) (g : Nat) : Prop :=
  t = { s with groups := t.groups } ∧ ∀ h, h ≠ g → Tab.get? t.groups h = Tab.get? s.groups h

/-- The agenda with events posted, each some ACLK from now. -/
def State.posts (s : State) (es : List (Nat × Instr)) : List Timed := (es.foldl (fun s e => s.post e.1 e.2) s).agenda

/-- As `OnlyGroup`, and the events `es` are posted. -/
def GroupAndPosts (s t : State) (g : Nat) (es : List (Nat × Instr)) : Prop :=
  t = { s with groups := t.groups, agenda := s.posts es } ∧ ∀ h, h ≠ g → Tab.get? t.groups h = Tab.get? s.groups h

/-- Every register but those of `ds` holds in `y` what it holds in `x`. -/
def RegsKept (x y : Group) (ds : List Dst) : Prop :=
  (∀ n l, l < 32 → Dst.v n ∉ ds → y.getV n l = x.getV n l) ∧
  (∀ n, Dst.s n ∉ ds → y.getS n = x.getS n) ∧
  (∀ n l, l < 32 → Dst.p n ∉ ds → y.getP n l = x.getP n l)

/-- `y` is `x` but for V, S and P registers, the two PC slots, JOIN and the split stack's depth: every special register,
trap bank, batch, window and outstanding result is the same. -/
def PathAndRegs (x y : Group) : Prop :=
  y = { x with v := y.v, s := y.s, p := y.p, a := y.a, b := y.b, bLive := y.bLive, join := y.join,
               splitSp := y.splitSp, lastB := y.lastB }

/-- `y` is `x` with its slot past an instruction of `len` bytes, registers `ds` apart. While slot B is not live nothing
parks, and only the issuing slot's PC moves (R193). -/
def Moved (x y : Group) (b : Bool) (len : Nat) (ds : List Dst) : Prop :=
  PathAndRegs x y ∧ RegsKept x y ds ∧
  (x.bLive = false → y.slot b = (x.slot b).goTo (x.nextPc b len) ∧ y.slot (!b) = x.slot (!b) ∧ y.bLive = false ∧
    y.join = x.join ∧ y.splitSp = x.splitSp)

/-! ## Results -/

/-- Slot of destination element `e` in its word: the element, or the selector's slot on (R234). -/
def dstSlot (sel : Sel) (e : Nat) : Nat := if sel.w = 0 then e else sel.slot + e

/-- `z` is `x` with element `e` of lane `l` of vector destination `o` written as `f` says; an element `f` leaves out, and
every other part of the word that is not an element's, keeps its value, and so does every other register. -/
def VecWritten (x z : Group) (o : Opnd) (t : Ty) (sel : Sel) (f : Nat → Nat → Option Nat) : Prop :=
  RegsKept x z (match o with | .v n => [.v n.toNat] | _ => []) ∧
  ∀ n, o = .v n → ∀ l, l < 32 →
    (∀ e, e < t.count → dstSlot sel e < 64 / (dstTy t sel).width → ∀ y, f l e = some y →
      elem (dstTy t sel).width (z.getV n.toNat l) (dstSlot sel e) = y % 2 ^ (dstTy t sel).width) ∧
    (∀ k, k < 64 / (dstTy t sel).width → (∀ e y, e < t.count → f l e = some y → k ≠ dstSlot sel e) →
      elem (dstTy t sel).width (z.getV n.toNat l) k = elem (dstTy t sel).width (x.getV n.toNat l) k)

/-- From `s`, where `x` is the group and slot `b` its instruction of `len` bytes, `t` is the state in which the
destinations `ds` are outstanding and will be written `lat` ACLK from now, `wrote` being what the group's registers
are made by those writes alone; nothing is outstanding where there is no destination. `x'` is `x` with the effects the
instruction has at issue. -/
def Outstanding (s t : State) (c : Cur) (x x' : Group) (ds : List Dst) (lat len : Nat) (wrote : Group → Prop) : Prop :=
  if ds = [] then
    OnlyGroup s t c.g ∧ ∃ y, HasGroup t c.g y ∧ Moved x' y c.slotB len []
  else
    GroupAndPosts s t c.g [(lat, .resultWriteback c.g x.nextTag)] ∧
    ∃ y p, HasGroup t c.g y ∧ Moved (x'.addPend p) y c.slotB len [] ∧
      p.tag = x.nextTag ∧ p.kind = .alu ∧ p.dsts = ds ∧ p.slotB = c.slotB ∧ p.pc = (x.slot c.slotB).ipc ∧
      wrote (p.wr.foldl Group.regWr x)

/-- A uniform instruction `i` with head `h` and `len` bytes (R274). Under a true predicate it completes: only its own
group changes, its slot moves past it, and registers `ds` apart no register changes; the group after it meets `post`.
Under a false predicate it only moves past itself. -/
def UniformRuns (i : Instr) (h : Hd) (len : Nat) (ds : List Dst) (post : Group → Group → Prop) : Prop :=
  ∀ s c x, Current s c x →
    (x.uniPred h = true → ∃ t y, exec i s = .next t ∧ OnlyGroup s t c.g ∧ HasGroup t c.g y ∧
      Moved x y c.slotB len ds ∧ post x y) ∧
    (x.uniPred h = false → ∃ t y, exec i s = .next t ∧ OnlyGroup s t c.g ∧ HasGroup t c.g y ∧
      Moved x y c.slotB len [])

/-- A scalar form whose element `e` is `f` of the group before it, modulo 2^w (R300). -/
def ScalarWrites (i : Instr) (a : AluArgs) (f : Group → Nat → Nat) : Prop :=
  UniformRuns i a.hd (lenBytes a.ext.len) (dstsOf a.dst) fun x y =>
    ∀ n, a.dst = .s n → ∀ e, e < a.ty.count → elem a.ty.width (y.getS n.toNat) e = f x e % 2 ^ a.ty.width

/-- A vector form (R322) that reads its sources at issue and writes `lat` ACLK later: element `e` of lane `l` of its
destination, where the element is enabled, becomes `f`. -/
def VectorWrites (i : Instr) (a : AluArgs) (lat : Nat) (f : Group → Nat → Nat → Nat) : Prop :=
  ∀ s c x, Current s c x → ∃ t, exec i s = .next t ∧
    Outstanding s t c x x (dstsOf a.dst) lat (lenBytes a.ext.len) fun z =>
      VecWritten x z a.dst a.ty a.mods.dn fun l e => if x.enabled c.slotB a.hd l e then some (f x l e) else none

/-- A float instruction `i` of `len` bytes runs its element function as `run` (R322, R225): where an enabled flag's trap
is raised it has no effect but the trap FPX; otherwise its flags and draws take effect at issue, and destinations `ds`
hold `post` after `lat` ACLK. -/
def FloatRuns (i : Instr) (lat len : Nat) (run : Cur → Group → FRun) (ds : Group → List Dst)
    (post : Cur → Group → FRun → Group → Prop) : Prop :=
  ∀ s c x, Current s c x →
    (fpxOf x (run c x).flags = none → ∃ t, exec i s = .next t ∧
      Outstanding s t c x (x.afterRun (run c x)) (ds x) lat len (post c x (run c x))) ∧
    ∀ m v, fpxOf x (run c x).flags = some (m, v) → exec i s = .next (s.trapMask c 0x0D 0 v m)

/-- A float form of an ALU word: `n` draws an element, element function `f`, results in the vector destination. -/
def FloatWrites (i : Instr) (a : AluArgs) (lat n : Nat) (f : Group → FElemFn) : Prop :=
  FloatRuns i lat (lenBytes a.ext.len) (fun c x => floatRun x (x.enabled c.slotB a.hd) a.ty (fun _ _ => n) (f x))
    (fun _ => dstsOf a.dst) fun _ x r z => VecWritten x z a.dst a.ty a.mods.dn r.val

/-! ## Transfers -/

/-- `y` is `x` with slot `b` transferred to `t` at ACLK `now`, registers `ds` apart (R305, R197, R55). -/
def Went (x y : Group) (b : Bool) (t : W64) (now : Nat) (ds : List Dst) : Prop :=
  PathAndRegs { x with switch := x.switch || decide (t.toNat ≤ (x.slot b).ipc.toNat) } y ∧ RegsKept x y ds ∧
  (x.bLive = false → y.slot b = { (x.slot b).goTo t with readyAt := now + 4, why := 9 } ∧ y.slot (!b) = x.slot (!b) ∧
    y.bLive = false)

/-- A uniform transfer to the address `tgt` gives, when `ok` holds of the state; without a true predicate it falls
through. -/
def UniformGoes (i : Instr) (h : Hd) (len : Nat) (ok : State → Cur → Group → Prop) (tgt : Cur → Group → W64)
    (ds : List Dst) (post : Cur → Group → Group → Prop) : Prop :=
  ∀ s c x, Current s c x →
    (x.uniPred h = true → ok s c x → ∃ t y, exec i s = .next t ∧ OnlyGroup s t c.g ∧ HasGroup t c.g y ∧
      Went x y c.slotB (tgt c x) s.aclk ds ∧ post c x y) ∧
    (x.uniPred h = false → ∃ t y, exec i s = .next t ∧ OnlyGroup s t c.g ∧ HasGroup t c.g y ∧
      Moved x y c.slotB len [])

/-- `y` is `x` with slot `b` split (R192): slot A holds the lanes not in `d` at `fall`, slot B lanes `d` at `target`. A
partner that was live is the top entry of the split stack. -/
def SplitInto (x y : Group) (b : Bool) (d : Mask) (fall target join : W64) (now : Nat) : Prop :=
  y = { x with a := y.a, b := y.b, bLive := true, join := join, split := y.split, splitSp := y.splitSp,
               stackFree := y.stackFree, switch := x.switch || decide (target.toNat ≤ (x.slot b).ipc.toNat) } ∧
  y.a = { Slot.empty with pc := fall, own := (x.slot b).own &&& ~~~d, exm := (x.slot b).exm &&& ~~~d,
                          parked := decide (fall = join), free := (x.slot b).free } ∧
  y.b = { Slot.empty with pc := target, own := d, exm := d, readyAt := now + 4, free := (x.slot b).free } ∧
  (x.bLive = false → y.split = x.split ∧ y.splitSp = x.splitSp ∧ y.stackFree = x.stackFree) ∧
  (x.bLive = true → y.splitSp = x.splitSp + 1 ∧
    y.splitWord (4 * x.splitSp.toNat) = keep (x.slot !b).pc 0xFFFFFFFFFFFFFC ||| w64 (b2n (x.slot !b).parked) ∧
    y.splitWord (4 * x.splitSp.toNat + 1) = w64 ((x.slot !b).own.toNat * 2 ^ 32 + (x.slot !b).exm.toNat) ∧
    y.splitWord (4 * x.splitSp.toNat + 2) = keep x.join 0xFFFFFFFFFFFFFC ∧
    y.splitWord (4 * x.splitSp.toNat + 3) = 0 ∧
    ∀ k, k < 4 * x.splitSp.toNat → y.splitWord k = x.splitWord k)

/-! ## Traps, ends and records -/

/-- Every group but the one in slot key `g` is as it was. -/
def OthersKept (s t : State) (g : Nat) : Prop := ∀ h, h ≠ g → Tab.get? t.groups h = Tab.get? s.groups h

/-- Byte `a` of device memory lies in the record a trace of type `ty` on die `d` would write now (R418). -/
def TraceByte (s : State) (d ty a : Nat) : Prop :=
  bit64 (s.die d).trctl ty = true ∧ ∃ k, k < 32 ∧ a = paddr d (fld (s.die d).trbase 16 21 * 2 ^ 16 +
    32 * (fld (s.die d).trhead 0 32 % 2 ^ fld (s.die d).trbase 0 8)) + k

/-- Context `k`, which was not ending, ends with these contents of its end record (R402, R403): its groups stop, the
record follows 1,024 ACLK later, and nothing else changes. -/
def Ends (s t : State) (k cec src tc : Nat) (val pc : W64) : Prop :=
  t = { s with ctxs := t.ctxs, agenda := s.posts [(1024, .contextEndRecord k)] } ∧
  (∀ c, Tab.get? s.ctxs k = some c → Tab.get? t.ctxs k = some { c with ending := some (cec, s.tick, src, tc, val, pc) }) ∧
  ∀ j, j ≠ k → Tab.get? t.ctxs j = Tab.get? s.ctxs j

/-- Bank `b` describes trap `tr` of group `x`, `o` being the other slot's fault (R397, R398). A slot that faulted goes on
where its trap says, unless an instruction is to be re-issued first; then its PC stands. With nothing to re-issue the
reported slot's half of TRMSK is TMASK, or zero where a faulting instruction had no effect. -/
def BankHolds (x : Group) (tr : Trap) (o : Option Trap) (b : TrapBank) (tsave : W64) : Prop :=
  let at' (f : Trap) (sb : Bool) : W64 := if f.re.isSome then (x.slot sb).pc else f.pc
  let pcOf (sb : Bool) : W64 :=
    if tr.slotB = sb then at' tr sb else match o with | some f => at' f sb | none => (x.slot sb).pc
  b.tcause = w64 (tr.subc.toNat * 2 ^ 20 + b2n tr.defer * 2 ^ 16 + tr.cause.toNat) ∧
  b.tval = (match tr.wph with | some p => if tr.cause = 0x09 then w64 p.toNat else tr.val | none => tr.val) ∧
  b.tmask = w64 tr.mask.toNat ∧ b.tsave = tsave ∧
  b.tpca = tpcWord x.a.parked false (pcOf false) ∧ b.tpcb = tpcWord x.b.parked x.bLive (pcOf true) ∧
  b.tmska = w64 (x.a.own.toNat * 2 ^ 32 + x.a.exm.toNat) ∧ b.tmskb = w64 (x.b.own.toNat * 2 ^ 32 + x.b.exm.toNat) ∧
  b.tjoin = keep x.join 0xFFFFFFFFFFFFFC ∧
  (tr.re = none → fld b.trmsk (if tr.slotB then 32 else 0) 32 =
    if tr.defer ∨ tr.cause = 0x09 ∨ tr.cause = 0x0A ∨ tr.cause = 0x0B then tr.mask.toNat else 0)

/-- Group `x` in slot `g` has entered trap `tr` and is `y` (R395): one level up, slot A alone live at the level's vector
with every lane, the level's bank filled, windows closed, no register of a program changed, and no rendezvous point of its
block names it (R202); other groups, contexts, blocks and memory are as they were, a trace record apart. -/
def Entered (s t : State) (g : Nat) (x y : Group) (tr : Trap) (o : Option Trap) : Prop :=
  HasGroup t g y ∧ OthersKept s t g ∧ t.ctxs = s.ctxs ∧ t.agenda = s.agenda ∧
  (∀ k, Tab.get? t.blocks k = (Tab.get? s.blocks k).map fun b =>
    if k = x.blk then { b with rend := b.rend.filter fun e => e.2 ≠ g } else b) ∧
  (∀ a, ¬ TraceByte s (dieOf g) 1 a → t.readByte a = s.readByte a) ∧
  y = { x with level := x.level + 1, a := y.a, b := Slot.empty, bLive := false, lastB := false, switch := false,
               bank1 := y.bank1, bank2 := y.bank2, pend := y.pend, faults := y.faults, trap := none, longSince := none,
               poSaved := (x.a.free, x.b.free, x.poBase) :: x.poSaved, poBase := x.splitSp.toNat,
               readyAt := s.aclk + 12, why := 15 } ∧
  y.a = { Slot.empty with
    pc := keep (if x.level = 0 then (s.ctx x.ctx).tvec1 else (s.ctx x.ctx).tvec2) 0xFFFFFFFFFFFFFC,
    own := x.allOwn, exm := x.allOwn } ∧
  (x.level = 0 → BankHolds x tr o y.bank1 x.bank1.tsave ∧ y.bank2 = x.bank2) ∧
  (x.level = 1 → BankHolds x tr o y.bank2 x.bank2.tsave ∧ y.bank1 = x.bank1) ∧
  ∀ p, p ∈ y.pend → p.win = none

/-! ## Special registers -/

/-- Executed with group `x` current, instruction `i` of `len` bytes writes `v` to the scalar special register numbered `n`,
past R318's checks of number and level: SYSWR, and each event that is such a write. -/
def RegWrite (x : Group) (i : Instr) (n : Nat) (v : W64) (len : Nat) : Prop :=
  (∃ a, i = .syswr a ∧ x.uniPred a.hd = true ∧ srNum a = n ∧ srWrite n x.level a.sa = .ok ∧ isV a.sa = false ∧
    v = x.srcS a.sa ∧ len = lenBytes a.len) ∨
  (∃ k, i = .specialRegisterWrite k v ∧ n = k.toNat ∧ srWrite n x.level .zero = .ok ∧ len = 12) ∨
  (len = 12 ∧ (
    (i = .asidWrite v ∧ n = 0x301) ∨ (i = .wgrantWrite v ∧ n = 0x350) ∨ (i = .wcfgWrite v ∧ n = 0x351) ∨
    (i = .xmap v ∧ n = 0x048) ∨ (i = .swparkWrite v ∧ n = 0x07C) ∨ (i = .lqdoor v ∧ n = 0x360) ∨
    (∃ d, i = .splitdwAccess (some v) d ∧ n = 0x042) ∨
    (i = .swblkBaseWrite v ∧ n = 0x254 ∧ bit64 v 2 = false) ∨ (i = .swblkGo v ∧ n = 0x254 ∧ bit64 v 2 = true) ∨
    (∃ k : BitVec 5, i = .agsetWrite k v ∧ n = 0x320 + k.toNat) ∨
    (∃ k : BitVec 2, i = .batchRegWrite k v ∧ n = 0x070 + k.toNat) ∨
    (∃ k : BitVec 3, i = .gatestWrite k v ∧ n = 0x240 + k.toNat) ∨
    (∃ k : BitVec 4, i = .hndWrite k v ∧ n = 0x230 + k.toNat) ∨
    (∃ k : BitVec 4, i = .pmcfgWrite k v ∧ n = 0x380 + k.toNat)))

/-! ## Accesses -/

/-- An instruction of group `g` has issued requests: only groups, L1s, the requests on their way to the fabric, the answers
of the core's own part and counters differ. Another group differs at most in which fills its loads will install; no other
part of a core does, no die, and no byte of memory. -/
def Sends (s t : State) (g : Nat) : Prop :=
  t = { s with groups := t.groups, cores := t.cores, agenda := t.agenda, outbox := t.outbox, pms := t.pms } ∧
  (∀ h x, h ≠ g → HasGroup s h x → ∃ p, HasGroup t h { x with pend := p }) ∧
  ∀ k, t.core k = { s.core k with l1 := (t.core k).l1, epoch := (t.core k).epoch }

/-- Request `p` has been issued: it is injected into the fabric 16 ACLK from now or later (R91). -/
def Launched (t : State) (p : Pkt) : Prop := ∃ n, t.aclk + 16 ≤ n ∧ (n, Job.req p) ∈ t.outbox

/-- The instruction has gone on with access `p` outstanding; which fills the group's loads install may change. With `sw` it
is a switch point (R197). -/
def Accesses (s t : State) (c : Cur) (x : Group) (p : Pend) (sw : Bool) (len : Nat) : Prop :=
  Sends s t c.g ∧ p.tag = x.nextTag ∧ p.slotB = c.slotB ∧ p.pc = (x.slot c.slotB).ipc ∧ p.bad = [] ∧
  ∃ q y, q.map (fun r => { r with noInst := false }) = x.pend.map (fun r => { r with noInst := false }) ∧
    HasGroup t c.g y ∧ Moved { { x with pend := q }.addPend p with switch := x.switch || sw } y c.slotB len []

/-- The core's checks of an access turn lanes away: it has no effect but the trap XLATE of one of them, or the freeze of its
group (R18, R102). -/
def Refused (s : State) (c : Cur) (x : Group) (i : Instr) (al : Nat) (as : List LaneAcc) : Prop :=
  let k := s.ctx x.ctx
  (accFreezes s k (dieOf c.g) al as = true → exec i s = .next (s.freeze c.g 1)) ∧
  (accFreezes s k (dieOf c.g) al as = false → accBad s k (dieOf c.g) al as ≠ [] →
    ∃ w, w ∈ accBad s k (dieOf c.g) al as ∧ exec i s = .next
      (s.trapMask c 0x04 w.subc.toNat w.addr (badMask (accBad s k (dieOf c.g) al as))))

/-- The accesses pass the core's checks. -/
def Passes (s : State) (c : Cur) (x : Group) (al : Nat) (as : List LaneAcc) : Prop :=
  accFreezes s (s.ctx x.ctx) (dieOf c.g) al as = false ∧ accBad s (s.ctx x.ctx) (dieOf c.g) al as = []

/-- The instruction waits: only its slot changes, held in wait `w`. -/
def Waits (s t : State) (c : Cur) (x : Group) (w : Wait) (len : Nat) : Prop :=
  OnlyGroup s t c.g ∧ HasGroup t c.g (x.setSlot c.slotB { x.slot c.slotB with wait := w, held := true, wlen := len })

/-- The instruction only moves past itself. -/
def Skips (s : State) (c : Cur) (x : Group) (i : Instr) (len : Nat) : Prop :=
  ∃ t y, exec i s = .next t ∧ OnlyGroup s t c.g ∧ HasGroup t c.g y ∧ Moved x y c.slotB len []

/-! ## Operations and barriers -/

/-- Instruction `i` issues an operation of class `cls` (R256, R360, R367, R373). It waits first until the handle it takes
admits it, then, a matrix operation, while the group's own loop runs, then while 32 of the class are outstanding. Then the
operation exists under the next number, its handle is held by it, it joins the class's unclosed operations, and the slot
goes on. -/
def Issues (s : State) (c : Cur) (x : Group) (i : Instr) (cls : Nat) (kind : OpKind) (use : Option HndUse) (len : Nat) : Prop :=
  let turn : Prop := ∀ u, use = some u → s.hndTurn c x.blk u.h u.cons = true
  let loops : Prop := cls = 1 ∧ s.loopRuns c.g = true
  (∀ u, use = some u → s.hndTurn c x.blk u.h u.cons = false → ∃ t, exec i s = .next t ∧ OthersKept s t c.g ∧ t.mem = s.mem ∧
    HasGroup t c.g (x.setSlot c.slotB { x.slot c.slotB with wait := .handle u.h u.cons, held := true, wlen := len })) ∧
  (turn → loops → ∃ t, exec i s = .next t ∧ Waits s t c x .loop len) ∧
  (turn → ¬ loops → 32 ≤ (x.bat cls).out → ∃ t, exec i s = .next t ∧ Waits s t c x .queue len) ∧
  (turn → ¬ loops → (x.bat cls).out < 32 →
    ∃ t y z o r w, exec i s = .next t ∧ t.mem = s.mem ∧ t.ctxs = s.ctxs ∧ t.dies = s.dies ∧ OthersKept s t c.g ∧
      Tab.get? t.ops s.nextId = some o ∧ o.kind = kind ∧ o.cls = cls ∧ o.g = c.g ∧ o.gone = false ∧ o.started = false ∧
      HasGroup t c.g y ∧ y = z.setSlot c.slotB { z.slot c.slotB with readyAt := r, why := w } ∧ (use = none → y = z) ∧
      Moved (x.setBat cls { x.bat cls with cur := (x.bat cls).cur ++ [s.nextId] }) z c.slotB len [] ∧
      ∀ u b, use = some u → Tab.get? s.blocks x.blk = some b → ∃ b', Tab.get? t.blocks x.blk = some b' ∧
        (b'.hnd u.h).isOp = true ∧ (b'.hnd u.h).op = s.nextId ∧ (b'.hnd u.h).state = if u.cons then 3 else 1)

/-- The group has arrived at its block's gate `n` (R369): it is counted in the phase; the last arrival closes it and has the
release follow 4 ACLK later, 16 in a block of a core pair. -/
def Arrives (s t : State) (x y : Group) (b : Block) (n : Nat) : Prop :=
  let last := decide (b.live ≤ (b.gate n).arrived + 1)
  ∃ b', Tab.get? t.blocks x.blk = some b' ∧
    b'.gate n = (if last then ⟨(b.gate n).phase + 1, 0⟩ else ⟨(b.gate n).phase, (b.gate n).arrived + 1⟩) ∧
    (last = false → y.arrived n = true) ∧
    t.agenda = (if last then s.posts [(if b.pair then 16 else 4, .gateRelease x.blk n)] else s.agenda) ∧
    ((s.part (s.ctx b.ctx).pid).wp = [] → t.mem = s.mem ∧ t.ctxs = s.ctxs)

end Sys2Proof.Machine
end

