-- ==== Sys2Proof/Certificates/Slice0/Obligations.lean ====
section
/-! DEFINITION. The statements for the provers, one for each group of instructions or rule: what it makes of the state, what
it leaves alone, and where it traps. -/

open Sys2Proof Sys2Proof.Machine

/-! ## The machine as a whole -/

/-- The step relation (R2, R197, R216, R265 to R267, R276, R292). A due event is executed, the first of the agenda; else,
where the tick stop or the package reset holds, nothing changes; else, at the start of an ACLK, the ACLK starts; else the
chosen group's instruction runs: FILL at no cost, one that was issued before and waited as it is, and any other, its checks
passed and no register it reads in error, counted, executed by exec in a state that differs in its group's counts, its unit
and the performance counters. A word that crosses its 32-byte block, does not decode or names a register past the declared
counts traps ILLOP, as does a YIELD whose watermark is above them, and an instruction above its group's level traps PRIV. The
order within an ACLK and what is counted where a check fails are the model's (assumptions 1, 27, 63). -/
def Obligations.StepRunsDecoded : Prop :=
  (∀ s l e r, s.agenda = l ++ e :: r → (∀ f, f ∈ l → s.aclk < f.due) → e.due ≤ s.aclk → s.stopped = false →
    s.held = false → step s = exec e.ev { s with agenda := l ++ r, cur := none }) ∧
  (∀ s, (∀ f, f ∈ s.agenda → s.aclk < f.due) → s.stopped = true ∨ s.held = true → step s = .next s) ∧
  (∀ s, (∀ f, f ∈ s.agenda → s.aclk < f.due) → s.stopped = false → s.held = false → s.turn = 0 →
    step s = .next { s.startAclk with turn := 1 }) ∧
  ∀ s k g x b blk, (∀ f, f ∈ s.agenda → s.aclk < f.due) → s.stopped = false → s.held = false → s.turn ≠ 0 →
    s.nextIssue (s.turn - 1) = some (k, g, x) → HasGroup s g x → s.pickSlot g x = some b →
    let t := x.slot b
    let w := natOfBytes (blk.drop (t.ipc.toNat % 32))
    let len := wordBits w / 8
    let here : State := { s with cur := some ⟨g, b⟩ }
    let traps (u : State) : Prop := step s = .next { u with turn := k + 2 }
    vaCheck s (s.ctx x.ctx) (dieOf g) t.ipc = .ok →
    s.fetchSt (coreOf g) (s.asidAt x.ctx (coreOf g)) (blkOf t.ipc) = .hit blk →
    ((blk.drop (t.ipc.toNat % 32)).length < len → traps (here.illop ⟨g, b⟩ 0)) ∧
    (len ≤ (blk.drop (t.ipc.toNat % 32)).length → ∀ e, decode (w % 2 ^ (8 * len)) = .error e →
      traps (here.illop ⟨g, b⟩ (w % 2 ^ min 64 (8 * len)))) ∧
    ∀ i, len ≤ (blk.drop (t.ipc.toNat % 32)).length → decode (w % 2 ^ (8 * len)) = .ok i →
    (i = .fill → step s = exec .fill { here with turn := k + 1 }) ∧
    (i ≠ .fill → (∃ r, r ∈ named i ∧ x.declares r = false) → traps (here.illop ⟨g, b⟩ (w % 2 ^ min 64 (8 * len)))) ∧
    (i ≠ .fill → (∀ r, r ∈ named i → x.declares r = true) →
      ((t.held && t.counted) = true → step s = exec i { here with turn := k + 2 }) ∧
      ((t.held && t.counted) = false → srIllop i = true ∨ markIllop x i = true →
        traps (here.illop ⟨g, b⟩ (w % 2 ^ min 64 (8 * len)))) ∧
      ((t.held && t.counted) = false → srIllop i = false → markIllop x i = false → privAt x.level i = true →
        traps (here.privTrap ⟨g, b⟩ i)) ∧
      ((t.held && t.counted) = false → srIllop i = false → markIllop x i = false → privAt x.level i = false →
        s.upsets = [] →
        (∀ p r, p ∈ x.pend → p.long = true → p.slotB = b → r ∈ named i → r ∉ p.dsts) →
        x.level ≠ 0 ∨ icountOf x.ystate + 1 ≤ deadlineOf x.ystate →
        ∃ u, step s = exec i u ∧
          u = { here with turn := k + 2, groups := u.groups, pms := u.pms, cores := u.cores } ∧
          HasGroup u g (x.counted b (endsWindow i) s.aclk) ∧ OthersKept s u g ∧
          ∀ n, u.core n = { s.core n with unit := (u.core n).unit }))

/-- Words the spec prints, decoded: a float form with its modifier block, the paired word, BRV, LNX, a copy, MLOOP, AGOP,
WRED, ATOMR, LDW and REDUCE; and a word of zeros, which is ILLOP. -/
def Obligations.DecodeWords : Prop := let hd : Hd := ⟨0, false, 0⟩
  let no : Sel := ⟨0, false, 0⟩
  decode 0x10000000_584140401040018D = .ok (.ffma ⟨hd, .f32, 0, .v 8, .v 1, .v 2, .s 5, .mods ⟨false, .rtz, no, no, no, no⟩⟩) ∧
  decode 0x2030109_03020104300001F9 =
    .ok (.pairedWord ⟨0, false, true, 2, .ffma, .rne, false, 4, 1, 2, 3, .vadd, 2, 9, 1, 3⟩) ∧
  decode 0x120000000D_41003B001000008A = .ok (.brv ⟨.b128, hd, .n64, 2, .none, .v 1, .small 0x18, 13, 18⟩) ∧
  decode 0x3808406020200220 = .ok (.lnxIdx ⟨hd, .n32, 0, .v 4, .v 2, .v 3, .lnx 1 2, .none⟩) ∧
  decode 0x007821900840_0300 = .ok (.copyV2s ⟨hd, .u0, 0, .s 8, .s 0, .s 12, .hnd 0, none⟩) ∧
  decode 0x12104F0000000000_006020B040000352 =
    .ok (.mloop ⟨hd, .u0, 0, .none, .s 4, .s 5, .zero, some ⟨1, 2, 4, 2, 15, false, .u0, false⟩⟩) ∧
  decode 0x1000020003C00000_0280000010000392 =
    .ok (.agop ⟨hd, 5, .v 1, .none, .none, some ⟨32, 0, 16, 0, 15, false, 0, 0⟩⟩) ∧
  decode 0x8C000010181003B0 = .ok (.wred ⟨hd, true, 3, 0, .s 2, .s 1⟩) ∧
  decode 0x580001A0E00012A8 = .ok (.atomr ⟨⟨4, false, 0⟩, .f32, 0, .none, .v 14, .v 13, .none, none⟩) ∧
  decode 0x0400000000800010A000028A =
    .ok (.ldw ⟨hd, .u0, 1, .v 0, .s 10, .none, .none, some ⟨0, 0, 0, true, 0, 0, 0, 0, 0⟩⟩) ∧
  decode 0x4280000018500A40 = .ok (.reduce ⟨⟨2, false, 0⟩, .n64, 5, .s 10, .v 1, .preg 0, .none, .none⟩) ∧
  ∀ i, decode 0 ≠ .ok i

/-- Decode and encode agree (R265 to R290): for every well-formed program instruction, its word and its bytes in memory both
decode to it, with every operand as it was, and its bytes are as many as its length says; and what decodes is well formed. -/
def Obligations.DecodeEncode : Prop :=
  (∀ i : Instr, i.isProgram = true → i.wf = true →
    decode (encode i) = .ok i ∧ decode (natOfBytes (encodeBytes i)) = .ok i ∧
    (encodeBytes i).length = wordBits (encode i) / 8) ∧
  ∀ w i, decode w = .ok i → i.wf = true

/-- Every step keeps memory in its canonical form: addresses strictly rising, and no listed byte equal to what an unlisted
address reads. -/
def Obligations.StepKeepsMemory : Prop := ∀ s t, Memory.wf s.mem = true → step s = .next t → Memory.wf t.mem = true

/-- The machine at cold reset: memory in canonical form with nothing listed, no group, block or context anywhere, and the
reset values the spec gives: XBTCW 8, 4, 2 (R90), CECTHR 1,024 (R446), MSTIV 4,096 (R262), PWRLIM 2,400 (R445), every launch
queue disabled and idle (R205), every Welt channel unconfigured (R169, R170), every Agate bank in cache mode (R118), no die
image loaded (R442), no page-table root and no pool (R94, R107). That memory lists nothing is the model's (assumption 3). -/
def Obligations.ResetState : Prop := let s := State.reset
  Memory.wf s.mem = true ∧ s.mem = [] ∧
  (∀ g x, ¬ HasGroup s g x) ∧ (∀ b y, Tab.get? s.blocks b ≠ some y) ∧ (∀ k c, Tab.get? s.ctxs k ≠ some c) ∧
  (∀ d, fld (s.die d).xbtcw 0 4 = 8 ∧ fld (s.die d).xbtcw 4 4 = 4 ∧ fld (s.die d).xbtcw 8 4 = 2 ∧
    (s.die d).xbdisc = 0 ∧ (s.die d).cecthr = 1024 ∧ (s.die d).stage = 0 ∧ (s.die d).clrst = 0 ∧
    (∀ n, Tab.getD (s.die d).xroot 0 n = 0) ∧ ∀ n, Tab.getD (s.die d).xpool 0 n = 0) ∧
  (∀ c, (s.core c).mstiv = 4096) ∧ s.pwrlim = 2400 ∧
  (∀ pid q, (s.queue pid q).en = false ∧ (s.queue pid q).head = 0 ∧ (s.queue pid q).idle = true) ∧
  (∀ n, (s.chan n).expect = 0 ∧ (s.chan n).phase = 0 ∧ (s.chan n).arrived = 0) ∧ ∀ b, (s.bank b).mode = .cache

/-! ## Scalar forms (R296 to R304) -/

/-- R301 (arithmetic rows): the element results of SADD, SSUB, SMUL, SMULH, SMIN and SMAX, exact and then wrapped modulo 2^w,
or clamped where SAT stands. -/
def Obligations.ScalarArithmetic : Prop := ∀ a : AluArgs,
  ScalarWrites (.sadd a) a (fun x e => fitInt a.ty a.mods.sat (sInt x a a.sa e + sInt x a a.sb e)) ∧
  ScalarWrites (.ssub a) a (fun x e => fitInt a.ty a.mods.sat (sInt x a a.sa e - sInt x a a.sb e)) ∧
  ScalarWrites (.smul a) a (fun x e => fitInt a.ty a.mods.sat (sInt x a a.sa e * sInt x a a.sb e)) ∧
  ScalarWrites (.smulh a) a
    (fun x e => fitInt a.ty a.mods.sat ((sInt x a a.sa e * sInt x a a.sb e) / (2 ^ a.ty.width : Nat))) ∧
  ScalarWrites (.smin a) a (fun x e => fitInt a.ty a.mods.sat (min (sInt x a a.sa e) (sInt x a a.sb e))) ∧
  ScalarWrites (.smax a) a (fun x e => fitInt a.ty a.mods.sat (max (sInt x a a.sa e) (sInt x a a.sb e)))

/-- R301 (bit rows): SAND, SOR, SXOR, the shifts with a count of w or more, SSEL by bit e of Pk in lane 0, SMOV and SLEA. -/
def Obligations.ScalarBits : Prop := ∀ a : AluArgs,
  ScalarWrites (.sand a) a (fun x e => sBits x a a.sa e &&& sBits x a a.sb e) ∧
  ScalarWrites (.sor a) a (fun x e => sBits x a a.sa e ||| sBits x a a.sb e) ∧
  ScalarWrites (.sxor a) a (fun x e => sBits x a a.sa e ^^^ sBits x a a.sb e) ∧
  ScalarWrites (.sshl a) a (fun x e =>
    if a.ty.width ≤ sBits x a a.sb e then 0 else sBits x a a.sa e * 2 ^ sBits x a a.sb e) ∧
  ScalarWrites (.sshr a) a (fun x e =>
    if a.ty.width ≤ sBits x a a.sb e then 0 else sBits x a a.sa e / 2 ^ sBits x a a.sb e) ∧
  ScalarWrites (.ssra a) a (fun x e =>
    wrap a.ty.width (sgn a.ty.width (sBits x a a.sa e) / (2 ^ min (sBits x a a.sb e) a.ty.width : Nat))) ∧
  ScalarWrites (.ssel a) a (fun x e =>
    if (x.getP a.sub.toNat 0).toNat.testBit e then sBits x a a.sa e else sBits x a a.sb e) ∧
  ScalarWrites (.smov a) a (fun x e => sBits x a a.sa e) ∧
  ScalarWrites (.slea a) a (fun x e => (sBits x a a.sa e + sBits x a a.sb e * 2 ^ a.sub.toNat) % 2 ^ 64)

/-- R301 and R303: SBFE, SBFI, SPOPC, SCLZ and SBREV. The field of a control word starts at its bits [5:0] and is min([14:8],
64 − start) wide. R301: SMOVI and SMOVI.HI write the immediate into the low and the high half of Sd and keep the other half.
-/
def Obligations.ScalarFieldsAndHalves : Prop :=
  (∀ a : AluArgs,
  ScalarWrites (.sbfe a) a (fun x e =>
    let ctl := sBits x a a.sb e
    let f := min (ctl / 256 % 128) (64 - ctl % 64)
    let v := sBits x a a.sa e / 2 ^ (ctl % 64) % 2 ^ f
    if f = 0 then 0 else if a.ty = .i64 ∧ v.testBit (f - 1) then v + (2 ^ 64 - 2 ^ f) else v) ∧
  ScalarWrites (.sbfi a) a (fun x e =>
    let ctl := sBits x a a.sc e
    let f := min (ctl / 256 % 128) (64 - ctl % 64)
    let v := sBits x a a.sa e
    if f = 0 then v else (setFld (w64 v) (ctl % 64) f (sBits x a a.sb e)).toNat) ∧
  ScalarWrites (.spopc a) a (fun x e =>
    ((List.range a.ty.width).filter fun i => (sBits x a a.sa e).testBit i).length) ∧
  ScalarWrites (.sclz a) a (fun x e => a.ty.width - bitLen (sBits x a a.sa e % 2 ^ a.ty.width)) ∧
  ScalarWrites (.sbrev a) a (fun x e =>
    ((List.range a.ty.width).map fun i => if (sBits x a a.sa e).testBit (a.ty.width - 1 - i) then 2 ^ i else 0).sum)) ∧
  (∀ a : AluArgs,
  UniformRuns (.smovi a) a.hd (lenBytes a.ext.len) (dstsOf a.dst) (fun x y => ∀ n, a.dst = .s n →
    fld (y.getS n.toNat) 0 32 = (aluI32 a).toNat ∧ fld (y.getS n.toNat) 32 32 = fld (x.getS n.toNat) 32 32) ∧
  UniformRuns (.smoviHi a) a.hd (lenBytes a.ext.len) (dstsOf a.dst) (fun x y => ∀ n, a.dst = .s n →
    fld (y.getS n.toNat) 32 32 = (aluI32 a).toNat ∧ fld (y.getS n.toNat) 0 32 = fld (x.getS n.toNat) 0 32))

/-- R301 and R297: SCMP writes bits 0 to N − 1 of Pd in every lane and clears bits N to 15; P0 takes no write (R40). R302:
SDIV and SREM. With DIVZEN set and a zero divisor element the divide traps DIVZ with no effect; otherwise the quotient is
truncated toward zero, the remainder takes the dividend's sign, a zero divisor gives the table's values, and the result
arrives 20 ACLK after issue, 36 for 64-bit elements. That operands are read and checked at issue is the model's (assumption
26). -/
def Obligations.ScalarCompareAndDivide : Prop :=
  (∀ a : AluArgs,
  UniformRuns (.scmp a) a.hd (lenBytes a.ext.len) (dstsOf a.dst) (fun x y => ∀ k, a.dst = .preg k → k ≠ 0 →
    ∀ l e, l < 32 → e < 16 →
      (y.getP k.toNat l).toNat.testBit e =
        (decide (e < a.ty.count) && ccInt a.sub.toNat (sInt x a a.sa e) (sInt x a a.sb e)))) ∧
  (∀ a : AluArgs, ∀ s c x, Current s c x →
  let zero (e : Nat) : Bool := sBits x a a.sb e = 0
  let zeros := (List.range a.ty.count).filter zero
  let lat := if a.ty.width = 64 then 36 else 20
  let quot (e : Nat) : Int :=
    if zero e then
      (if a.ty.kind = .int then
        (if a.mods.sat then (if sInt x a a.sa e < 0 then -(2 ^ (a.ty.width - 1) : Nat) else (2 ^ (a.ty.width - 1) : Nat) - 1)
         else -1)
       else (2 ^ a.ty.width : Nat) - 1)
    else (sInt x a a.sa e).tdiv (sInt x a a.sb e)
  let rem (e : Nat) : Int := if zero e then sInt x a a.sa e else (sInt x a a.sa e).tmod (sInt x a a.sb e)
  let holds (f : Nat → Int) (z : Group) : Prop :=
    RegsKept x z (dstsOf a.dst) ∧ ∀ n, a.dst = .s n → ∀ e, e < a.ty.count →
      elem a.ty.width (z.getS n.toNat) e = fitInt a.ty a.mods.sat (f e) % 2 ^ a.ty.width
  (x.uniPred a.hd = true → bit64 x.gctl 0 = true → zeros ≠ [] →
    exec (.sdiv a) s = .next (s.trapHere c 0x03 0 (w64 (zeros.map fun e => 2 ^ e).sum)) ∧
    exec (.srem a) s = .next (s.trapHere c 0x03 0 (w64 (zeros.map fun e => 2 ^ e).sum))) ∧
  (x.uniPred a.hd = true → bit64 x.gctl 0 = false ∨ zeros = [] →
    (∃ t, exec (.sdiv a) s = .next t ∧
      Outstanding s t c x x (dstsOf a.dst) lat (lenBytes a.ext.len) (holds quot)) ∧
    (∃ t, exec (.srem a) s = .next t ∧
      Outstanding s t c x x (dstsOf a.dst) lat (lenBytes a.ext.len) (holds rem))) ∧
  (x.uniPred a.hd = false → ∀ i, i = .sdiv a ∨ i = .srem a → ∃ t y, exec i s = .next t ∧ OnlyGroup s t c.g ∧
    HasGroup t c.g y ∧ Moved x y c.slotB (lenBytes a.ext.len) []))

/-! ## Control forms (R191 to R202, R305 to R314) -/

/-- R305: BRA, BRAS, JMP, both CALLs and RET. The target checks of R308 pass; only the issuing slot's PC moves, and CALL
writes the address after itself. BRAS with a false condition falls through. R308: a transfer to a misaligned address traps
ALIGN at itself with TVAL the target, and neither its slot nor its link register changes before the trap: JMP, CALL and RET.
A target on a die outside PDMASK freezes the group instead (R18). -/
def Obligations.UniformTransfers : Prop :=
  (∀ a : CtlArgs,
  let rel (c : Cur) (x : Group) : W64 := (x.slot c.slotB).ipc + a.x1.signExtend 64 * 4
  let reg (_ : Cur) (x : Group) : W64 := x.srcS a.sa
  let cc (x : Group) : Bool := ccInt a.sub.toNat (ctlInt x a.ty a.sa 0) (ctlInt x a.ty a.sb 0)
  let passes (land : Bool) (tgt : Cur → Group → W64) (s : State) (c : Cur) (x : Group) : Prop :=
    s.targets c.g x land [(0, tgt c x)] = .go
  let link (c : Cur) (x y : Group) : Prop := ∀ n, a.dst = .s n → y.getS n.toNat = x.nextPc c.slotB (lenBytes a.len)
  let ds := match a.dst with | .s n => [Dst.s n.toNat] | _ => []
  UniformGoes (.bra a) a.hd (lenBytes a.len) (fun _ _ _ => True) rel [] (fun _ _ _ => True) ∧
  UniformGoes (.bras a) a.hd (lenBytes a.len) (fun _ _ x => cc x = true) rel [] (fun _ _ _ => True) ∧
  UniformGoes (.jmp a) a.hd (lenBytes a.len) (passes true reg) reg [] (fun _ _ _ => True) ∧
  UniformGoes (.callLabel a) a.hd (lenBytes a.len) (passes false rel) rel ds link ∧
  UniformGoes (.callReg a) a.hd (lenBytes a.len) (passes true reg) reg ds link ∧
  UniformGoes (.ret a) a.hd (lenBytes a.len) (passes false reg) reg [] (fun _ _ _ => True) ∧
  (∀ s c x, Current s c x → x.uniPred a.hd = true → cc x = false → ∃ t y, exec (.bras a) s = .next t ∧
    OnlyGroup s t c.g ∧ HasGroup t c.g y ∧ Moved x y c.slotB (lenBytes a.len) [])) ∧
  (∀ (a : CtlArgs) s c x, Current s c x → x.uniPred a.hd = true →
  (vaCheck s (s.ctx x.ctx) (dieOf c.g) (x.srcS a.sa) = .frozen → ∀ i, i = .jmp a ∨ i = .callReg a ∨ i = .ret a →
    exec i s = .next (s.freeze c.g 1)) ∧
  (fld (x.srcS a.sa) 0 2 ≠ 0 → vaCheck s (s.ctx x.ctx) (dieOf c.g) (x.srcS a.sa) ≠ .frozen →
  ∃ u : State, u = { s with cores := u.cores } ∧
    exec (.jmp a) s = .next (u.trapHere c 0x05 0 (x.srcS a.sa)) ∧
    exec (.callReg a) s = .next (u.trapHere c 0x05 0 (x.srcS a.sa)) ∧
    exec (.ret a) s = .next (u.trapHere c 0x05 0 (x.srcS a.sa))))

/-- R309 and R192: BRV sends the lanes of EXM whose predicate and condition hold to its target. With none it falls through,
with all the slot transfers whole, and otherwise the slot splits, or traps SPLITOVF where the split needs a 65th entry. R309:
JMPV. With no lane taking part it falls through; otherwise, the targets having passed R308, the lanes that share the lowest
lane's target go there, and the others stay at the JMPV, which they issue again. -/
def Obligations.DivergentTransfers : Prop :=
  (∀ (a : CtlArgs) s c x, Current s c x →
  let exm := (x.slot c.slotB).lanes
  let d := Mask.of fun l => x.active1 c.slotB a.hd l &&
    ccInt a.sub.toNat (ctlInt x a.ty a.sa l) (ctlInt x a.ty a.sb l)
  let pc := (x.slot c.slotB).ipc
  let target := pc + a.x1.signExtend 64 * 4
  let join := pc + a.x2.signExtend 64 * 4
  (d = 0 → ∃ t y, exec (.brv a) s = .next t ∧ OnlyGroup s t c.g ∧ HasGroup t c.g y ∧
    Moved x y c.slotB (lenBytes a.len) []) ∧
  (d ≠ 0 → d = exm → ∃ t y, exec (.brv a) s = .next t ∧ OnlyGroup s t c.g ∧ HasGroup t c.g y ∧
    Went x y c.slotB target s.aclk []) ∧
  (d ≠ 0 → d ≠ exm → x.bLive = false ∨ x.splitSp.toNat < 64 → target ≠ join → ∃ t y, exec (.brv a) s = .next t ∧
    OnlyGroup s t c.g ∧ HasGroup t c.g y ∧ SplitInto x y c.slotB d (x.nextPc c.slotB (lenBytes a.len)) target join s.aclk) ∧
  (d ≠ 0 → d ≠ exm → x.bLive = true → x.splitSp.toNat = 64 → exec (.brv a) s = .next (s.trapHere c 0x08 0 0))) ∧
  (∀ (a : CtlArgs) s c x, Current s c x →
  let part := (Mask.lanes (x.actives c.slotB a.hd)).map fun l => (l, x.srcX a.sa l)
  let pc := (x.slot c.slotB).ipc
  let join := pc + a.x2.signExtend 64 * 4
  (part = [] → ∃ t y, exec (.jmpv a) s = .next t ∧ OnlyGroup s t c.g ∧ HasGroup t c.g y ∧
    Moved x y c.slotB (lenBytes a.len) []) ∧
  (∀ q, part.head? = some q → s.targets c.g x true part = .go →
    let d := Mask.of fun l => part.any fun p => p.1 = l && p.2 = q.2
    (d = (x.slot c.slotB).lanes → ∃ t y, exec (.jmpv a) s = .next t ∧ OnlyGroup s t c.g ∧ HasGroup t c.g y ∧
      Went x y c.slotB q.2 s.aclk []) ∧
    (d ≠ (x.slot c.slotB).lanes → x.bLive = false ∨ x.splitSp.toNat < 64 → q.2 ≠ join →
      ∃ t y, exec (.jmpv a) s = .next t ∧ OnlyGroup s t c.g ∧ HasGroup t c.g y ∧
        SplitInto x y c.slotB d pc q.2 join s.aclk) ∧
    (d ≠ (x.slot c.slotB).lanes → x.bLive = true → x.splitSp.toNat = 64 →
      exec (.jmpv a) s = .next (s.trapHere c 0x08 0 0))))

/-- R312: ELECT, an instruction of 64 bits with OPC 0x2B, DST an S register or ZERO and SUB = k, writes the lowest lane of
the slot's EXM, or 32, and Pk with that lane's bit 0 alone; P0 takes no write. -/
def Obligations.ElectLowestLane : Prop := ∀ a : CtlArgs,
  ((Instr.elect a).wf = true → wordBits (encode (.elect a)) = 64 ∧ encode (.elect a) / 4 % 256 = 0x2B ∧
    encode (.elect a) / 2 ^ 55 % 16 = a.sub.toNat ∧ (a.dst = .zero ∨ ∃ n, a.dst = .s n)) ∧
  ∀ s c x, Current s c x →
    (x.uniPred a.hd = true → ∃ lo, ((lo = 32 ∧ (x.slot c.slotB).lanes = 0) ∨
        (lo < 32 ∧ Mask.has (x.slot c.slotB).lanes lo = true ∧ ∀ l, l < lo → Mask.has (x.slot c.slotB).lanes l = false)) ∧
      ∃ t y, exec (.elect a) s = .next t ∧ OnlyGroup s t c.g ∧ HasGroup t c.g y ∧
        Moved x y c.slotB (lenBytes a.len) (dstsOf a.dst ++ [.p a.sub.toNat]) ∧
        (∀ n, a.dst = .s n → y.getS n.toNat = w64 lo) ∧
        (a.sub ≠ 0 → ∀ l, l < 32 → y.getP a.sub.toNat l = if l = lo then 1 else 0) ∧
        ∀ l, l < 32 → y.getP 0 l = x.getP 0 l) ∧
    (x.uniPred a.hd = false → ∃ t y, exec (.elect a) s = .next t ∧ OnlyGroup s t c.g ∧ HasGroup t c.g y ∧
      Moved x y c.slotB (lenBytes a.len) [])

/-- R313: EXMRD reads the slot's EXM or OWN, zero-extended, and EXMWR, its AND and its OR give the slot a new EXM within OWN,
changing no register. Both are 64 bits, with DST an S register and SA an S register, ZERO or SMALL; other SUB values do not
decode. -/
def Obligations.ExecutionMasks : Prop :=
  (∀ w i, w % 4 ≠ 3 → (w / 4 % 256 = 0x2C ∧ 2 ≤ w / 2 ^ 55 % 16) ∨ (w / 4 % 256 = 0x2D ∧ 3 ≤ w / 2 ^ 55 % 16) →
    decode w ≠ .ok i) ∧
  (∀ (a : CtlArgs) i, i.wf = true →
    let w := encode i
    (i = .exmrd a ∨ i = .exmrdOwn a → wordBits w = 64 ∧ w / 4 % 256 = 0x2C ∧ (∃ n, a.dst = .s n) ∧
      w / 2 ^ 55 % 16 = if i = .exmrd a then 0 else 1) ∧
    (i = .exmwr a ∨ i = .exmwrAnd a ∨ i = .exmwrOr a → wordBits w = 64 ∧ w / 4 % 256 = 0x2D ∧
      ((∃ n, a.sa = .s n) ∨ a.sa = .zero ∨ ∃ n, a.sa = .small n) ∧
      w / 2 ^ 55 % 16 = if i = .exmwr a then 0 else if i = .exmwrAnd a then 1 else 2)) ∧
  ∀ (a : CtlArgs) s c x, Current s c x →
  let reads (i : Instr) (m : Mask) : Prop := ∃ t y, exec i s = .next t ∧ OnlyGroup s t c.g ∧ HasGroup t c.g y ∧
    Moved x y c.slotB (lenBytes a.len) (dstsOf a.dst) ∧ ∀ n, a.dst = .s n → y.getS n.toNat = m.setWidth 64
  let writes (i : Instr) (m : Mask) : Prop := ∃ t y, exec i s = .next t ∧ OnlyGroup s t c.g ∧ HasGroup t c.g y ∧
    Moved (x.setSlot c.slotB { x.slot c.slotB with exm := m &&& (x.slot c.slotB).own }) y c.slotB (lenBytes a.len) []
  let old := (x.slot c.slotB).exm
  let v : Mask := (x.srcS a.sa).setWidth 32
  (x.uniPred a.hd = true →
    reads (.exmrd a) old ∧ reads (.exmrdOwn a) (x.slot c.slotB).own ∧
    writes (.exmwr a) v ∧ writes (.exmwrAnd a) (old &&& v) ∧ writes (.exmwrOr a) (old ||| v)) ∧
  (x.uniPred a.hd = false → ∀ i, i = .exmrd a ∨ i = .exmrdOwn a ∨ i = .exmwr a ∨ i = .exmwrAnd a ∨ i = .exmwrOr a →
    ∃ t y, exec i s = .next t ∧ OnlyGroup s t c.g ∧ HasGroup t c.g y ∧ Moved x y c.slotB (lenBytes a.len) [])

/-- R305, R311 and R266: LAND, NOP and FILL complete in every state and change nothing but the slot's place, whatever LAND's
and NOP's predicate. R310 and R217: YIELD. A watermark past the declared counts traps ILLOP, whatever the predicate.
Otherwise it completes: under a false predicate it only moves past itself; at a trap level it is only a switch point; at
level 0 it also sets YSTATE, and with the pre-emption flag set it waits for the group's register results, then traps PREEMPT
after itself, and each register at or above its watermark keeps its value or reads zero. A YIELD that waited sets YSTATE no
second time. -/
def Obligations.PassingAndYieldForms : Prop :=
  ((∀ (a : CtlArgs) s c x, Current s c x → ∃ t y, exec (.land a) s = .next t ∧ OnlyGroup s t c.g ∧ HasGroup t c.g y ∧
    Moved x y c.slotB (lenBytes a.len) []) ∧
  (∀ (a : CtlArgs) s c x, Current s c x → ∃ t y, exec (.nop a) s = .next t ∧ OnlyGroup s t c.g ∧ HasGroup t c.g y ∧
    Moved x y c.slotB (lenBytes a.len) []) ∧
  ∀ s c x, Current s c x → ∃ t y, exec .fill s = .next t ∧ OnlyGroup s t c.g ∧ HasGroup t c.g y ∧ Moved x y c.slotB 4 []) ∧
  (∀ (a : YieldArgs) s c x, Current s c x →
  let y0 : Group := { x with switch := true }
  let y1 : Group := if (x.slot c.slotB).held then y0
    else { y0 with ystate := w64 (a.vl.toNat + 256 * a.sl.toNat + 2 ^ 24 * a.d.toNat) }
  let fits : Prop := a.vl.toNat ≤ x.vdecl ∧ a.sl.toNat ≤ x.sdecl
  (¬ fits → exec (.yield a) s = .next (s.trapHere c 0x01 0 (w64 (encode (.yield a) % 2 ^ 64)))) ∧
  (fits → x.uniPred a.hd = false → ∃ t y, exec (.yield a) s = .next t ∧ OnlyGroup s t c.g ∧ HasGroup t c.g y ∧
    Moved x y c.slotB 8 []) ∧
  (fits → x.uniPred a.hd = true → x.level ≠ 0 → ∃ t y, exec (.yield a) s = .next t ∧ OnlyGroup s t c.g ∧
    HasGroup t c.g y ∧ Moved y0 y c.slotB 8 []) ∧
  (fits → x.uniPred a.hd = true → x.level = 0 → x.preempt = false → ∃ t y, exec (.yield a) s = .next t ∧
    OnlyGroup s t c.g ∧ HasGroup t c.g y ∧ Moved y1 y c.slotB 8 []) ∧
  (fits → x.uniPred a.hd = true → x.level = 0 → x.preempt = true → x.resultsOut = false →
    ∃ y2 : Group, exec (.yield a) s = .next ((s.tickFree.setGrp c.g { y2 with preempt := false }).trapAfter c 0x09 0 8) ∧
      y2 = { y1 with v := y2.v, s := y2.s } ∧ (∀ n l, n < a.vl.toNat → l < 32 → y2.getV n l = x.getV n l) ∧
      (∀ n, (∀ l, l < 32 → y2.getV n l = x.getV n l) ∨ ∀ l, l < 32 → y2.getV n l = 0) ∧
      ∀ n, y2.getS n = x.getS n ∨ (a.sl.toNat ≤ n ∧ y2.getS n = 0)) ∧
  (fits → x.uniPred a.hd = true → x.level = 0 → x.preempt = true → x.resultsOut = true → ∃ t, exec (.yield a) s = .next t ∧
    OnlyGroup s t c.g ∧ HasGroup t c.g
      (y1.setSlot c.slotB { y1.slot c.slotB with wait := .preempt, held := true, wlen := 8 })))

/-- R199 and R311: EXIT. At level 0 the active lanes leave the slot, and the group goes on while a lane is left in a slot or
on the split stack; where none is, or at a trap level, or with EXM zero, the group ends. R314 and R201: REGROUP above level
0, or with slot B live or the split stack in use, traps ILLOP; otherwise, its point being empty and some live group of the
block on its core not waiting, it waits there and takes the point. -/
def Obligations.ExitAndRegroup : Prop :=
  (∀ (a : CtlArgs) s c x, Current s c x → x.uniPred a.hd = true →
  let t0 := x.slot c.slotB
  let y0 := x.setSlot c.slotB { t0 with own := t0.own &&& ~~~t0.lanes, exm := t0.exm &&& ~~~t0.lanes }
  let left := y0.allOwn ||| y0.stackOwn
  (x.level = 0 → t0.lanes ≠ 0 → left ≠ 0 → ∃ t y, exec (.exit a) s = .next t ∧ OnlyGroup s t c.g ∧ HasGroup t c.g y ∧
    Moved y0 y c.slotB (lenBytes a.len) []) ∧
  (x.level = 0 → t0.lanes ≠ 0 → left = 0 → exec (.exit a) s = .next ((s.setGrp c.g y0).endGroup c.g none)) ∧
  (x.level ≠ 0 ∨ t0.lanes = 0 → exec (.exit a) s = .next (s.endGroup c.g none))) ∧
  (∀ (a : CtlArgs) s c x b, Current s c x → Tab.get? s.blocks x.blk = some b →
  x.uniPred a.hd = true →
  (x.level ≠ 0 ∨ x.bLive = true ∨ x.splitSp ≠ 0 →
    exec (.regroup a) s = .next (s.trapHere c 0x01 0 (w64 (encode (.regroup a) % 2 ^ 64)))) ∧
  (∀ h z, x.level = 0 → x.bLive = false → x.splitSp = 0 → c.slotB = false → x.preempt = false →
    Tab.get? b.rend (rendKey b (coreOf c.g) a.sub.toNat) = none →
    h ∈ b.resident → h ≠ c.g → coreOf h = coreOf c.g → HasGroup s h z → z.atRendOrGate = false →
    ∃ t b', exec (.regroup a) s = .next t ∧ t = { s with groups := t.groups, blocks := t.blocks } ∧
      HasGroup t c.g { x with a := { x.a with wait := .rendezvous a.sub.toNat a.dst, held := true, wlen := lenBytes a.len } } ∧
      (∀ h, h ≠ c.g → Tab.get? t.groups h = Tab.get? s.groups h) ∧
      Tab.get? t.blocks x.blk = some b' ∧ Tab.get? b'.rend (rendKey b (coreOf c.g) a.sub.toNat) = some c.g))

/-! ## Welt, the tick, queues and placement (R163 to R182, R205 to R213, R407 to R413, R418) -/

/-- R164 to R166, R169 to R175, R178 to R181: an arrival is counted, with its broadcast or its step of the reduction; the
last one closes the phase, and the release 12 ACLK later gives every core the phase and its results, and lets the groups that
waited for it go on with them, a WWAIT once the accesses before it are answered. A bad message ends the contexts that hold
the channel. A partition takes the channels no other holds; pre-emption signals leave for the named dies; a load sets the
tick, which then counts. The shared copy of a release is the model's reading (assumption 55). R181, R413, R418: a tick adds
one to the count; at the armed tick every clock stops, the count at the tick before it, and each present die that traces
stops records it. A sample names the group whose turn it is. On which dies a stop is traced is the model's reading
(assumption 64). -/
def Obligations.WeltAndTickEvents : Prop :=
  (∀ s, s.upsets = [] → (∀ q, (s.part q).wp = []) →
  let ended (t : State) (hit : Ctx → Bool) : Prop := t.mem = s.mem ∧ ∀ k c, Tab.get? s.ctxs k = some c →
    c.ending = none → hit c = true → ∃ e, Tab.get? t.ctxs k = some { c with ending := some e } ∧ e.1 = 7
  (∀ m, let c := s.chan m.ch
    let red := match m.kind with | .red v => some (redStep c.op (c.red.getD (redId c.op)) v) | _ => c.red
    let bc := match m.kind with | .bcast v => some (c.bslot.getD v) | _ => c.bslot
    (m.crcBad = true → ∃ t, exec (.weltArrival m) s = .next t ∧ ended t fun c => c.holdsChan m.ch) ∧
    (m.crcBad = false → c.arrived + 1 ≠ c.expect → ∃ t, exec (.weltArrival m) s = .next t ∧ t = { s with chans := t.chans } ∧
      (∀ k, k ≠ m.ch → t.chan k = s.chan k) ∧ (t.chan m.ch).arrived = c.arrived + 1 ∧ (t.chan m.ch).phase = c.phase ∧
      (t.chan m.ch).red = red ∧ (t.chan m.ch).bslot = bc) ∧
    (m.crcBad = false → c.arrived + 1 = c.expect → ∃ t many, exec (.weltArrival m) s = .next t ∧
      t = { s with chans := t.chans, agenda := s.posts [(12, .weltRelease m.ch)] } ∧ (t.chan m.ch).arrived = 0 ∧
      (t.chan m.ch).phase = c.phase + 1 ∧ (t.chan m.ch).red = none ∧ (t.chan m.ch).bslot = none ∧
      (t.chan m.ch).rel = c.rel ++ [(c.phase + 1, bc.getD 0, red.getD (redId c.op), many, bc.isNone, red.isNone)])) ∧
  (∀ key ph bv rv many nob nor r, (s.chan key).rel = (ph, bv, rv, many, nob, nor) :: r →
    ∃ t, exec (.weltRelease key) s = .next t ∧ t.mem = s.mem ∧
      t.chan key = { s.chan key with rel := r, cPhase := ph, cB := bv, cR := rv, cMulti := many, cNob := nob, cNor := nor } ∧
      ∀ g x p rx, HasGroup s g x → x.dead = false → x.bLive = false → x.b.wait = .none → x.a.re = none →
        x.a.wait = .welt key p rx →
        (p = ph → ∃ y, HasGroup t g y ∧ RegsKept x y [] ∧ y.a = x.a) ∧
        (p ≠ ph → ∃ y, HasGroup t g y ∧
          (rx = none → s.before ⟨g, false⟩ x ≠ [] → RegsKept x y [] ∧ y.a = { x.a with wait := .acks }) ∧
          (rx = none → s.before ⟨g, false⟩ x = [] → RegsKept x y [] ∧ y.a.wait = .none ∧ y.a.pc = x.a.pc + w64 x.a.wlen) ∧
          ∀ d isRed, rx = some (d, isRed) → y.a.wait = .none ∧ y.a.pc = x.a.pc + w64 x.a.wlen ∧ RegsKept x y (dstsOf d) ∧
            ∀ n, d = .s n → y.getS n.toNat = if isRed then rv.setWidth 64 else bv)) ∧
  (∀ pid k x, k ≤ 4 → k = 4 ∨ (s.part pid).mask.toNat / 2 ^ k % 2 = 1 →
    let key (c : Nat) : Nat := if k = 4 then 128 + c else k * 32 + c
    ∃ t, exec (.weltPartitionGrant pid k x) s = .next t ∧ t.mem = s.mem ∧ ∀ c, c < (if k = 4 then 16 else 32) →
      ((t.part pid).holdsChan (key c) = true ↔ bit64 x c = true ∧
        ((s.part pid).holdsChan (key c) = true ∨ ∀ q, q < 4 → q ≠ pid → (s.part q).holdsChan (key c) = false)) ∧
      ((s.part pid).holdsChan (key c) = true → bit64 x c = false →
        (∃ e, e ∈ s.ctxs ∧ e.2.pid = pid ∧ e.2.holdsChan (key c) = true) → t.chan (key c) = Chan.reset)) ∧
  (∀ pid x, let ds := diesOf ((s.part pid).mask &&& .ofNat 4 (fld x 0 4))
    let sends (i : Instr) (v : Nat) : Prop := ∃ t, exec i s = .next t ∧ t = { s with agenda := t.agenda } ∧
      ∀ d, d ∈ ds → ⟨s.aclk + 64, .preemptRequest pid d (setFld x 47 1 v)⟩ ∈ t.agenda
    sends (.preqRaise pid x) 0 ∧ sends (.preqCancel pid x) 1) ∧
  (∀ x, exec (.tickLoad x) s = .next { s with tick := x + 16, tickOn := true }) ∧
  exec (.tickCheck false) s = .next s ∧ (∃ t, exec (.tickCheck true) s = .next t ∧ ended t fun _ => true)) ∧
  (∀ s,
  let quiet : Prop := (s.tick + 1).toNat % 1024 ≠ 0 ∧ ∀ d, d < 4 → fld (s.die d).trctl 16 16 = 0
  (quiet → s.tstopArm = false ∨ s.tstopAt ≠ s.tick + 1 → exec .globalTick s = .next { s with tick := s.tick + 1 }) ∧
  (s.tstopArm = true → s.tstopAt = s.tick + 1 → ∃ t, exec .globalTick s = .next t ∧
    t = { s with dies := t.dies, mem := t.mem, stopped := true, tstopArm := false }) ∧
  (∃ t, exec .tickStop s = .next t ∧ t = { s with dies := t.dies, mem := t.mem, stopped := true, tstopArm := false } ∧
    ∀ a, (∀ d, d < 4 → (s.die d).held = false → ¬ TraceByte s d 9 a) → t.readByte a = s.readByte a) ∧
  ∀ die, (bit64 (s.die die).trctl 5 = false → ∃ t, exec (.traceSample die) s = .next t ∧ t = { s with dies := t.dies } ∧
      t.die die = { s.die die with trnext := (s.die die).trnext + 1 }) ∧
    ∀ k g x, s.scheds = [k] → dieOfCore (k / 4) = die → s.onSched k = [(g, x)] → bit64 (s.die die).trctl 5 = true →
      let lg := fld (s.die die).trbase 0 8
      let n := fld (s.die die).trhead 0 32
      let a := fld (s.die die).trbase 16 21 * 2 ^ 16 + 32 * (n % 2 ^ lg)
      4 ≤ lg → lg ≤ 24 → n < 2 ^ lg → a + 32 ≤ dpaLimit → ∃ t, exec (.traceSample die) s = .next t ∧
        t.readNum (paddr die a) 8 = s.tick.toNat ∧
        t.readNum (paddr die a + 8) 8 = 5 * 2 ^ 56 + (s.ctx x.ctx).asid.toNat * 2 ^ 32 + grpid g x.gid % 2 ^ 32 ∧
        t.readNum (paddr die a + 24) 8 = (x.slot x.lastB).ipc.toNat ∧
        (t.die die).trhead = setFld (s.die die).trhead 0 32 (n + 1) ∧ t.groups = s.groups)

/-- R104 to R106, R205 to R210, R213, R412: the tail register's word must agree with the one in memory, and moves the limit
up to which a queue dispatches; an error stops the queue with its code. A record is read, checked, held on its dependences
and its working set, and may be placed 64 ACLK later; one that fails leaves the queue. A record whose blocks have all ended
writes STATUS. A quiesced stop is asked for, done once every group has stopped, and undone. The stages of a record's checks
and their times are the model's reading (assumptions 44, 45, 46). -/
def Obligations.QueueEvents : Prop := ∀ s pid q,
  let r := s.queue pid q
  let keeps (t : State) : Prop := t.mem = s.mem ∧ t.groups = s.groups ∧ t.blocks = s.blocks ∧ t.ops = s.ops ∧
    t.ctxs = s.ctxs
  let queues (i : Instr) (u : LQueue) (es : List (Nat × Instr)) : Prop := ∃ t, exec i s = .next t ∧ keeps t ∧
    t.queue pid q = u ∧ (∀ p j, p * 64 + j ≠ pid * 64 + q → t.queue p j = s.queue p j) ∧
    ∀ e, e ∈ es → ∃ v, v ∈ t.agenda ∧ v.ev = e.2 ∧ v.due ≤ s.aclk + e.1
  let reads (k : Nat) : Except Nat (List Byte) := (s.vread (s.leadDie pid) (s.ctx k) r.base 8).2
  let served (i : Instr) (u : LQueue) : Prop :=
    (s.ctxOf pid r.asid = none → queues i { u with en := false, err := 4 } []) ∧
    ∀ k, s.ctxOf pid r.asid = some k →
      (r.size < dist48 u.tail r.head → queues i { u with en := false, err := 1 } []) ∧
      (dist48 u.tail r.head ≤ r.size →
        (∀ e, reads k = .error e → queues i { u with en := false, err := 3 } []) ∧
        ∀ w, reads k = .ok w → (natOfBytes w % 2 ^ 48 ≠ u.tail → queues i { u with en := false, err := 2 } []) ∧
          (natOfBytes w % 2 ^ 48 = u.tail → queues i { u with limit := u.tail }
            [(s.missLat (s.leadDie pid) (s.ctx k).asid r.base.toNat .r, .recordTake pid q)]))
  let failed (i : Instr) (l : Launch) : Prop := ∃ t, exec i s = .next t ∧ t.groups = s.groups ∧
    Tab.get? t.launches l.id = none ∧ (t.queue pid q).head = (r.head + 1) % 2 ^ 48 ∧ (t.queue pid q).launch = none
  let moved (i : Instr) (l : Launch) (st : LStep) (es : List (Nat × Instr)) : Prop := ∃ t, exec i s = .next t ∧ keeps t ∧
    (∃ l', Tab.get? t.launches l.id = some l' ∧ l'.step = st) ∧
    ∀ e, e ∈ es → ∃ v, v ∈ t.agenda ∧ v.ev = e.2 ∧ v.due ≤ s.aclk + e.1
  (∀ x : BitVec 48, (r.en = false → queues (.tailRegisterWrite pid q x) { r with tail := x.toNat } []) ∧
    (r.en = true → served (.tailRegisterWrite pid q x) { r with tail := x.toNat }) ∧
    queues (.qheadWrite pid q x)
      (if r.en then r else { r with head := x.toNat, limit := x.toNat, tail := x.toNat }) []) ∧
  (r.en = true ∨ r.err ≠ 0 → exec (.queueEnable pid q) s = .next s) ∧
  (r.en = false → r.err = 0 →
    (r.log2n < 4 ∨ 12 < r.log2n → queues (.queueEnable pid q) { r with en := false, err := 3 } []) ∧
    (4 ≤ r.log2n → r.log2n ≤ 12 → served (.queueEnable pid q) { r with en := true })) ∧
  (r.en = false ∨ (r.launch = none ∧ r.waiting = 0) → exec (.recordTake pid q) s = .next s) ∧
  (r.en = true → r.launch = none → r.waiting ≠ 0 →
    (s.ctxOf pid r.asid = none → queues (.recordTake pid q) { r with en := false, err := 4 } []) ∧
    ∀ k, s.ctxOf pid r.asid = some k → (s.ctx k).ending = none →
      let va := r.base + w64 (128 * (1 + r.head % r.size))
      (∀ e, (s.vread (s.leadDie pid) (s.ctx k) va 128).2 = .error e →
        queues (.recordTake pid q) { r with en := false, err := 3 } []) ∧
      ∀ w, (s.vread (s.leadDie pid) (s.ctx k) va 128).2 = .ok w →
        queues (.recordTake pid q) { r with launch := some s.nextId }
          [(s.missLat (s.leadDie pid) (s.ctx k).asid va.toNat .r, .recordTake pid q)] ∧
        ∃ t l, exec (.recordTake pid q) s = .next t ∧ Tab.get? t.launches s.nextId = some l ∧ l.step = .order ∧ l.at_ = va ∧
          l.seq = r.head ∧ l.cls = r.cls ∧ ∀ i, i < 16 → l.word i = w64 (natOfBytes ((w.drop (8 * i)).take 8))) ∧
  (∀ l, r.en = true → r.launch = some l.id → Tab.get? s.launches l.id = some l → l.step = .order → l.readyAt ≤ s.aclk →
    l.pid = pid → l.q = q →
    (l.total = 0 → s.recordFault l ≠ none → failed (.recordTake pid q) l) ∧
    (l.total ≠ 0 ∨ s.recordFault l = none →
      let held := bit64 (l.word 3) 1 && (match l.prev with | some p => (Tab.get? s.launches p).isSome | none => false)
      (held = true → moved (.recordTake pid q) l .order []) ∧
      (held = false → moved (.recordTake pid q) l .deps [(0, .dependenceReread pid q)]))) ∧
  (∀ l, s.heldAt pid q .deps = some l → l.pid = pid → l.q = q → r.launch = some l.id →
    (l.deps = [] → l.met = 0 → moved (.dependenceReread pid q) l .wset [(0, .workingSetPrewalk pid q)]) ∧
    ∀ a v, l.deps = [(a, v)] → l.met = 0 →
      let got := (s.vread (s.leadDie pid) (s.ctx l.ctx) a 8).2
      (∀ e, got = .error e → failed (.dependenceReread pid q) l) ∧
      ∀ w, got = .ok w →
        (natOfBytes w < v.toNat → moved (.dependenceReread pid q) l .deps [(2048, .dependenceReread pid q)]) ∧
        (v.toNat ≤ natOfBytes w → moved (.dependenceReread pid q) l .wset
          [(s.missLat (s.leadDie pid) (s.ctx l.ctx).asid a.toNat .r, .workingSetPrewalk pid q)])) ∧
  (∀ l, s.heldAt pid q .wset = some l → l.pid = pid → l.q = q → r.launch = some l.id →
    (bit64 (l.word 3) 0 = false → moved (.workingSetPrewalk pid q) l .place [(64, .blockPlace pid)]) ∧
    (bit64 (l.word 3) 0 = true → (s.walkSet l).2 = none → failed (.workingSetPrewalk pid q) l) ∧
    ∀ n, bit64 (l.word 3) 0 = true → (s.walkSet l).2 = some n →
      moved (.workingSetPrewalk pid q) l .place [(n + 64, .blockPlace pid)]) ∧
  (∀ k l, Tab.get? s.launches k = some l →
    (l.step ≠ .run ∨ l.ended ≠ l.total → exec (.recordComplete k) s = .next s) ∧
    (l.step = .run → l.ended = l.total → ∃ t, exec (.recordComplete k) s = .next t ∧ t.groups = s.groups ∧
      Tab.get? t.launches k = none ∧ (∃ v, v ∈ t.agenda ∧ v.ev = .recordTake l.pid l.q ∧ v.due = s.aclk) ∧
      ∀ x, (∀ p n, fld (Tab.getD (s.part p).wp 0 (3 * n)) 1 3 ≠ 1) → bit64 (s.die (s.leadDie l.pid)).trctl 7 = false →
        bit64 (l.word 3) 5 = false →
        let va := l.at_ + 0x78
        s.vaRefuse (s.leadDie l.pid) (s.ctx l.ctx) va 8 = none →
        (s.xlate (vaDie va) (s.ctx l.ctx).asid va.toNat .w false false).2 = .ok x →
        t.readNum (paddr (vaDie va) x.pa) 8 = 1 ∧
        ∀ a, a < paddr (vaDie va) x.pa ∨ paddr (vaDie va) x.pa + 8 ≤ a → t.readByte a = s.readByte a)) ∧
  (∀ x, let k? := s.ctxOf pid (.ofNat 16 (fld x 48 16))
    (k? = none → exec (.qstop pid x) s = .next s ∧ exec (.qrun pid x) s = .next s) ∧
    ∀ k c, k? = some k → Tab.get? s.ctxs k = some c → c.pid = pid →
      (∃ t, exec (.qstop pid x) s = .next t ∧ t = { s with ctxs := t.ctxs, parts := t.parts } ∧
        Tab.get? t.ctxs k = some { c with stop := true } ∧ t.part pid = { s.part pid with qstop := (s.part pid).qstop ++ [[k]] }) ∧
      ∃ t, exec (.qrun pid x) s = .next t ∧ t = { s with ctxs := t.ctxs, parts := t.parts } ∧
        Tab.get? t.ctxs k = some { c with stop := false } ∧
        t.part pid = { s.part pid with qstop := unstop k (s.part pid).qstop }) ∧
  let going := (s.part pid).qstop.filter fun ks => !ks.all s.ctxStopped
  (going = (s.part pid).qstop → exec (.qstopDone pid) s = .next s) ∧
  (going ≠ (s.part pid).qstop → ∃ t, exec (.qstopDone pid) s = .next t ∧ t = { s with parts := t.parts } ∧
    t.part pid = { s.part pid with qstop := going, qstopst := true, irq := true })

/-- R46, R187, R188, R191, R211, R407, R408: with nothing that waits nothing is placed. A block that fits, and that no
class-0 record keeps back (assumption 47), takes a core of its die, its arrays zero, and one free slot for each of its
groups, which begin at the launch's entry at level 0; a saved block's leader begins at level 1 at TVEC1 with cause RESTORE
and its image's address. The choice of core and slots is free (assumption 8), and what a restore does is the model's reading
(47 to 50). -/
def Obligations.PlacementEvents : Prop := ∀ s pid d, d < 4 → (s.part pid).mask = .ofNat 4 (2 ^ d) →
  ((s.part pid).saved = [] → (∀ k, k < 4 → s.turnOf pid k = []) →
    (∀ e, e ∈ s.launches → e.2.pid = pid → e.2.step ≠ .place) →
    exec (.blockPlace pid) s = .next s ∧ exec (.blockRestore pid) s = .next s) ∧
  (∀ l core, (s.part pid).saved = [] → Tab.get? s.launches l.id = some l → l.pid = pid → l.cls.toNat < 4 →
    (l.cls = 0 ∨ ∀ e, e ∈ s.queues → e.1 / 64 = pid → e.2.cls = 0 → e.2.en = false ∨ e.2.idle = true) →
    (∀ k, k < 4 → s.turnOf pid k = if k = l.cls.toNat then [l] else []) → l.gsize = 1 → l.pair = false →
    l.placed < l.total → core ∈ coresOf d false → s.fitsAt (l.block 0 0 0 0 0) (List.range l.ngrp) core = true →
    ∃ t id b, exec (.blockPlace pid) s = .next t ∧ Tab.get? t.blocks id = some b ∧ b.lin = l.placed ∧ b.ctx = l.ctx ∧
      dieOfCore b.core = d ∧ b.live = l.ngrp ∧
      (∃ l', Tab.get? t.launches l.id = some l' ∧ l'.placed = l.placed + 1 ∧
        l'.step = if l.placed + 1 = l.total then .run else .place) ∧
      b.arrs.length = l.narr ∧ (∀ e, e ∈ b.arrs → (t.arr e.2).blk = some id ∧ (t.arr e.2).cells = [] ∧
        (t.arr e.2).st = .storage ∧ (s.arr e.2).blk = none) ∧
      ∀ n, n < l.ngrp → ∃ g y, Tab.get? b.places n = some (.slot g) ∧ Tab.get? s.groups g = none ∧ HasGroup t g y ∧
        coreOf g = b.core ∧ schedOf g = n % 4 ∧ y.gid = n ∧ y.blk = id ∧ y.level = 0 ∧ y.a.pc = l.word 0 ∧
        (∀ i, i < 32 → Mask.has y.a.own i = decide (32 * n + i < l.nthr)) ∧
        (∀ i, i < fld (l.word 3) 16 3 → y.getS i = l.word (11 + i)) ∧ ∀ i, fld (l.word 3) 16 3 ≤ i → y.getS i = 0) ∧
  (∀ k b gang n img rec u core, (s.part pid).saved = [k] → Tab.get? s.blocks k = some b → b.saved = true → b.id = k →
    b.pair = false → Tab.get? s.gangs b.gang = some gang → gang.blks = [(0, k)] → gang.size = 1 → b.parked = [(n, img)] →
    b.swLead = some n → (s.ctx b.ctx).ending = none → b.cls.toNat < 4 → core ∈ coresOf d false →
    s.fitsAt b [n] core = true → s.vread d (s.ctx b.ctx) img 64 = (u, .ok rec) →
    ∃ t c g y, exec (.blockRestore pid) s = .next t ∧ Tab.get? t.blocks k = some c ∧ c.saved = false ∧
      dieOfCore c.core = d ∧ Tab.get? c.places n = some (.slot g) ∧ Tab.get? s.groups g = none ∧ HasGroup t g y ∧
      y.gid = natOfBytes (rec.take 8) % 128 ∧ y.level = 1 ∧ y.bank1.tcause = 0x0E ∧ y.bank1.tsave = img ∧
      y.bank1.tval = b.swBase ∧ y.a.pc = keep (s.ctx b.ctx).tvec1 0xFFFFFFFFFFFFFC)

/-! ## The host, resets and peers (R37 to R39, R85, R88, R89, R109, R110, R149, R404, R434 to R440) -/

/-- R38, R149, R404, R434 to R437: a BAR0 write outside R38's forms is Unsupported Request; an RW field takes the bytes
written, a W1C field clears where they are one, an action register acts on 8 bytes only. PARTSET binds a partition with its
grants cleared, or sets ERR; an entry written with V = 1 creates its context. A committed decoder sends CXL.mem requests to
the die-physical address it names; a request for another partition's die freezes the logical device. A function-level reset
ends the partition's contexts with CEC HOST. PARTSET's reach, decoders of size 0 and the order of a request's checks are the
model's (assumptions 71 to 74). -/
def Obligations.HostEvents : Prop := ∀ s die,
  let same (t : State) : Prop := t.mem = s.mem ∧ t.groups = s.groups
  let base : Nat := 0x100000
  (∀ off w x, s.barOk die off w = false → exec (.hostRegisterWrite die off w x) s = .next { s with resp := .ur }) ∧
  (∀ n x m, s.barOk die (base + n) 8 = true →
    ((n, m) ∈ [(0x300, 0x3FF), (0x608, 2 ^ 64 - 1), (0x810, 0xFFF), (0x900, 0xFFFFFFFFFF0000), (0xD00, 0x1FFFFF00FF),
      (0xD08, 0xFFFF03FF)] → ∃ t, exec (.hostRegisterWrite die (base + n) 8 x) s = .next t ∧
      t = { s with dies := t.dies, resp := .ok } ∧ keep (t.svcRead die n) m = keep x m ∧ ∀ d, d ≠ die → t.die d = s.die d) ∧
    ((n, m) ∈ [(0x808, 0xFFFFFFFF), (0x910, 0xD), (0xD10, 0xFFFFFFFF00000000)] →
      ∃ t, exec (.hostRegisterWrite die (base + n) 8 x) s = .next t ∧ t = { s with dies := t.dies, resp := .ok } ∧
      keep (t.svcRead die n) m = keep (s.svcRead die n) m &&& ~~~x ∧ ∀ d, d ≠ die → t.die d = s.die d)) ∧
  (∀ x, s.barOk die (base + 0x608) 4 = true → ∃ t, exec (.hostRegisterWrite die (base + 0x608) 4 x) s = .next t ∧ same t ∧
    (t.die die).cecthr = w64 (fld (s.die die).cecthr 32 32 * 2 ^ 32 + fld x 0 32)) ∧
  (∀ n x, s.barOk die (base + n) 4 = true → n ∈ [0x8, 0x10, 0x350, 0x800, 0x908, 0xE00] →
    exec (.hostRegisterWrite die (base + n) 4 x) s = .next { s with resp := .ok }) ∧
  (∀ x, (s.partRefused x = true → ∃ t, exec (.partset x) s = .next t ∧ t = { s with dies := t.dies } ∧
      t.die 0 = { s.die 0 with partset := setFld (s.die 0).partset 15 1 1 }) ∧
    (s.partRefused x = false → ∃ t, exec (.partset x) s = .next t ∧ same t ∧
      t.part (fld x 8 2) = { s.part (fld x 8 2) with mask := .ofNat 4 (fld x 0 4), wpdie := [], wppkg := 0 } ∧
      (∀ q, q < 64 → t.queue (fld x 8 2) q = LQueue.reset) ∧ fld (t.die 0).partset 0 10 = fld (keep x 0x30F) 0 10)) ∧
  (∀ pid e x, let word (t : State) := Tab.getD (t.part pid).ctab 0 (8 * e)
    (bit64 (word s) 0 = true → exec (.contextCreate pid e x) s = .next s) ∧
    (bit64 (word s) 0 = false → s.ctxOf pid (.ofNat 16 (fld x 48 16)) ≠ none → ∃ t, exec (.contextCreate pid e x) s = .next t ∧
      t = { s with parts := t.parts } ∧ bit64 (word t) 0 = false ∧ bit64 (t.part pid).pistat 8 = true) ∧
    (bit64 (word s) 0 = false → s.ctxOf pid (.ofNat 16 (fld x 48 16)) = none → ∃ t c, exec (.contextCreate pid e x) s = .next t ∧
      t = { s with parts := t.parts, ctxs := t.ctxs } ∧ bit64 (word t) 0 = true ∧ Tab.get? t.ctxs (pid * 512 + e) = some c ∧
      c.pid = pid ∧ c.entry = e ∧ c.asid.toNat = fld x 48 16 ∧ c.pdmask = (s.part pid).mask ∧
      c.tvec1 = keep (Tab.getD (s.part pid).ctab 0 (8 * e + 1)) 0xFFFFFFFFFFFFFC ∧ c.wgrant = 0 ∧ c.ending = none)) ∧
  (∀ n b sz ways, (3 < n ∨ s.answers die 0 = false → exec (.hdmCommit die n b sz ways) s = .next { s with resp := .ur }) ∧
    (n ≤ 3 → s.answers die 0 = true →
      (ways ≠ 1 → ∃ t, exec (.hdmCommit die n b sz ways) s = .next t ∧ t = { s with dies := t.dies, resp := .error } ∧
        t.die die = { s.die die with hdmErr := (s.die die).hdmErr ||| .ofNat 4 (2 ^ n) }) ∧
      (ways = 1 → sz ≠ 0 → ∃ t, exec (.hdmCommit die n b sz ways) s = .next t ∧ t = { s with dies := t.dies, resp := .ok } ∧
        ∀ k, Tab.get? (t.die die).hdm k = if k = n then some (b, sz) else Tab.get? (s.die die).hdm k))) ∧
  (∀ ha bs n, let can : Prop := s.answers die 0 = true ∧ (s.die die).hostFrozen = false ∧ n ≠ 0 ∧ ha % 64 + n ≤ 64
    let both (f : Instr → Prop) : Prop := f (.hostMemRead die ha n) ∧ (bs.length = n → f (.hostMemWrite die ha bs))
    (¬ can → both fun i => exec i s = .next { s with resp := .ur }) ∧
    ((s.die die).hdm.all (fun e => decide (ha < e.2.1 ∨ e.2.1 + e.2.2 ≤ ha)) = true →
      both fun i => exec i s = .next { s with resp := .ur }) ∧
    ∀ k b sz, (s.die die).hdm = [(k, b, sz)] → b ≤ ha → ha < b + sz → can →
      let x := Tab.getD (s.die die).hdmx 0 k
      let t := fld x 0 2
      let a := fld x 28 9 * 2 ^ 28 + (ha - b)
      ((s.die t).held = true → both fun i => exec i s = .next { s with resp := .ur }) ∧
      ((s.die t).held = false → s.pidOfDie t = none ∨ s.pidOfDie t ≠ s.pidOfDie die → both fun i => ∃ u, exec i s = .next u ∧
        u.resp = .ur ∧ (u.die die).hostFrozen = true ∧ u.groups = s.groups) ∧
      ((s.die t).held = false → s.pidOfDie t ≠ none → s.pidOfDie t = s.pidOfDie die → a + n ≤ dpaLimit →
        (∃ u, exec (.hostMemRead die ha n) s = .next u ∧ same u ∧ u.resp = .none ∧
          Launched u (hostPkt die t a .r (.read (sectorMask a n)))) ∧
        (bs.length = n → ∃ u, exec (.hostMemWrite die ha bs) s = .next u ∧ same u ∧ u.resp = .none ∧
          Launched u (hostPkt die t a .w (.write (numbered (a % 512) bs)))))) ∧
  ∃ t, exec (.functionLevelReset die) s = .next t ∧ same t ∧ (t.die die).hostFrozen = false ∧
    ∀ p, s.pidOfDie die = some p → ∀ k c, Tab.get? s.ctxs k = some c → c.pid = p → c.ending = none →
      ∃ e, Tab.get? t.ctxs k = some { c with ending := some e } ∧ e.1 = 4

/-- R85, R88, R89, R109, R110, R404, R440: a cluster reset ends the contexts that still run there and is complete 4,096 ACLK
later, with arrays, tiles and caches empty. A shootdown invalidates its range in the MTLB, the RDCs and the cores, and is
done once the requests it found under way are performed. A peer request outside its port's grant freezes the port; one inside
it is sent, in its own class or class 1; PORTCLR lifts a freeze. Codes, times of completion and the class of a peer request
are the model's (assumptions 75, 76, 78). -/
def Obligations.ResetAndPeerEvents : Prop := ∀ s die,
  let d := s.die die
  (∀ mask, let new := mask &&& ~~~d.clrst
    ∃ t, exec (.clusterReset die mask) s = .next t ∧ t.mem = s.mem ∧ t.groups = s.groups ∧
      (t.die die).clrst = d.clrst ||| new ∧
      (∀ k c, Tab.get? s.ctxs k = some c → c.ending = none → s.runsOn die new k = true →
        ∃ e, Tab.get? t.ctxs k = some { c with ending := some e } ∧ e.1 = 4) ∧
      ∀ c, c < 32 → new.toNat / 2 ^ c % 2 = 1 → ⟨s.aclk + 4096, .clusterResetDone die c⟩ ∈ t.agenda) ∧
  (∀ cl, cl < 32 → die < 4 → ∃ t, exec (.clusterResetDone die cl) s = .next t ∧ t.mem = s.mem ∧
    (t.die die).clrst = d.clrst &&& ~~~ .ofNat 32 (2 ^ cl) ∧ (t.die die).cldone = d.cldone ||| .ofNat 32 (2 ^ cl) ∧
    ∀ k, k / 2 = die * 32 + cl → (t.core k).l1 = [] ∧ (t.core k).ic = [] ∧ (t.core k).mxq = [] ∧
      (∀ e, e < 24 → (t.arr (k * 24 + e)).cells = [] ∧ (t.arr (k * 24 + e)).st = .storage ∧
        (t.arr (k * 24 + e)).blk = (s.arr (k * 24 + e)).blk) ∧
      ∀ e, e < 65536 → Tab.getD t.tiles 0 (k * 65536 + e) = 0) ∧
  (∀ x, let pages := fld x 0 32
    let lo := fld d.sdva 16 40
    let asid : BitVec 16 := .ofNat 16 (fld x 48 16)
    let bad : Prop := fld d.sdva 54 2 ≠ die ∨ (die + 1) * 2 ^ 38 < lo + pages
    let covers (a : BitVec 16) (p : Nat) : Prop :=
      a = asid ∧ (if pages = 0 then die * 2 ^ 38 ≤ p ∧ p < (die + 1) * 2 ^ 38 else lo ≤ p ∧ p < lo + pages)
    (bit64 d.sdst 1 = true → ∃ t, exec (.shootdown die x) s = .next t ∧ t = { s with dies := t.dies } ∧
      t.die die = { d with sdst := setFld d.sdst 2 1 1 }) ∧
    (bit64 d.sdst 1 = false → bad → ∃ t, exec (.shootdown die x) s = .next t ∧ t = { s with dies := t.dies } ∧
      t.die die = { d with sdst := setFld d.sdst 3 1 1 }) ∧
    (bit64 d.sdst 1 = false → ¬ bad → ∃ t, exec (.shootdown die x) s = .next t ∧ t.mem = s.mem ∧
      bit64 (t.die die).sdst 1 = true ∧ ⟨s.aclk + 256, .shootdownDone die⟩ ∈ t.agenda ∧
      (∀ e p, e ∈ (t.die die).mtlb → covers e.asid p →
        ¬ (die * 2 ^ 38 + e.vpn * 2 ^ (pageBits e.size - 16) ≤ p ∧
          p < die * 2 ^ 38 + (e.vpn + 1) * 2 ^ (pageBits e.size - 16))) ∧
      (∀ c l, dieOfCore c = die → s.pidOfDie die = none → l ∈ (t.core c).l1 → ¬ covers l.asid (l.line / 512)) ∧
      ∀ q r, s.pidOfDie die = some q → dieOfCore r ∈ diesOf (s.part q).mask →
        (∀ l, l ∈ (t.core r).l1 → ¬ covers l.asid (l.line / 512)) ∧
        ∀ e, e ∈ (t.die (dieOfCore r)).rdir → ¬ covers e.asid (e.vline / 128))) ∧
  (d.shoot = none → exec (.shootdownDone die) s = .next s) ∧
  (∀ h, d.shoot = some h →
    ((∃ p, p ∈ s.translated h die ∧ p ∈ h.left) →
      exec (.shootdownDone die) s = .next { s with agenda := s.posts [(32, .shootdownDone die)] }) ∧
    ((∀ p, p ∈ s.translated h die → p ∉ h.left) → ∃ t, exec (.shootdownDone die) s = .next t ∧
      t = { s with dies := t.dies, parts := t.parts } ∧
      t.die die = { d with
        sdst := setFld (setFld d.sdst 1 1 0) 0 1 1, shoot := none, xold := (t.die die).xold, xshot := (t.die die).xshot } ∧
      (h.lo = die * 2 ^ 38 → h.hi = (die + 1) * 2 ^ 38 → h.asid ∈ (t.die die).xshot ∧
        ∀ r, r ∈ (t.die die).xold → fld r 48 16 ≠ h.asid.toNat) ∧
      ∀ q, s.pidOfDie die = some q → bit64 (t.part q).pistat 2 = true)) ∧
  (∀ r : PeerReq, r.die = die → r.port < 4 →
    let frozen := d.portFrozen.toNat / 2 ^ r.port % 2 = 1
    let g := Tab.getD d.pgrant 0 (2 * r.port)
    (frozen → exec (.peerRequest r) s = .next { s with resp := .nack 2 }) ∧
    (¬ frozen → bit64 g 47 = false ∨ (bit64 g 46 = false ∧ fld g 36 10 ≠ r.srcDev) ∨ s.grantCtx die r.port = none →
      ∃ t, exec (.peerRequest r) s = .next t ∧ t.groups = s.groups ∧ t.resp = .nack 2 ∧
        (t.die die).portFrozen = d.portFrozen ||| .ofNat 4 (2 ^ r.port)) ∧
    ∀ k, ¬ frozen → bit64 g 47 = true → bit64 g 46 = true ∨ fld g 36 10 = r.srcDev → s.grantCtx die r.port = some k →
      r.rscr = false → r.sig = none → fld r.addr 56 8 = 0 →
      d.absdie.toNat / 2 ^ vaDie r.addr % 2 = 0 → (s.ctx k).pdmask.toNat / 2 ^ vaDie r.addr % 2 = 1 →
      let asid := (s.ctx k).asid
      (∀ bs, r.wr = some bs → bs ≠ [] → r.addr.toNat % 512 + bs.length ≤ 512 → ∃ t p, exec (.peerRequest r) s = .next t ∧
        t.mem = s.mem ∧ Launched t p ∧ p.req = .write (numbered (r.addr.toNat % 512) bs) ∧ p.asid = asid ∧
        p.line = r.addr.toNat / 512 * 512 ∧ p.ddie = vaDie r.addr ∧ p.peer = true ∧ p.cls = (if r.cls = 0 then 1 else r.cls)) ∧
      (r.wr = none → r.len ≠ 0 → r.addr.toNat % 512 + r.len ≤ 512 → ∃ t p, exec (.peerRequest r) s = .next t ∧
        t.mem = s.mem ∧ Launched t p ∧ p.req = .read (sectorMask r.addr.toNat r.len) ∧ p.asid = asid ∧
        p.line = r.addr.toNat / 512 * 512 ∧ p.ddie = vaDie r.addr ∧ p.peer = true)) ∧
  ∀ x, ∃ t, exec (.portclr die x) s = .next t ∧ t = { s with dies := t.dies } ∧ ∀ p, p < 4 →
    ((t.die die).portFrozen.toNat / 2 ^ p % 2 = 1 ↔
      d.portFrozen.toNat / 2 ^ p % 2 = 1 ∧ ¬ (bit64 x p = true ∧ s.grantCtx die p = none))

/-! ## Debug, power and boot (R7, R111, R181, R262, R263, R412 to R415, R441 to R447) -/

/-- R413 to R415: a register command names a resident group, stopped, and a register it declares; it then reads or writes
that register alone. TSTOP arms a stop at least 128 ticks away; RESUME lets the clocks run, the tick from its next value. The
Awl port loads an instruction and captures its data register; a die held in reset answers BYPASS. The order of the errors,
TSTOP's kept value and the TAP's conventions are the model's (assumptions 16, 25, 79, 80). -/
def Obligations.DebugEvents : Prop := ∀ s,
  (∀ pid wr c, let go : Instr := if wr then .dbgcmdWrite pid c else .dbgcmdRead pid c
    let v := (s.part pid).dbgdata
    let refuses (st : BitVec 8) : Prop := ∃ t, exec go s = .next t ∧ t = { s with parts := t.parts } ∧
      t.part pid = { s.part pid with dbgst := st }
    let runs (x : Group) : Prop := (s.ctx x.ctx).stop = true ∧ s.ctxStopped x.ctx = true
    (s.dbgGroup c = none ∨ s.dbgMine pid c = false → refuses 2) ∧
    ∀ x, s.dbgGroup c = some x → s.dbgMine pid c = true →
      (¬ runs x → refuses 4) ∧ (runs x → dbgReg x wr c.cls c.idx = false → refuses 3) ∧
      (runs x → wr = false →
        let reads (w : W64) : Prop := ∃ t, exec go s = .next t ∧ t = { s with parts := t.parts } ∧
          t.part pid = { s.part pid with dbgst := 0, dbgdata := w }
        (c.cls = 0 → c.idx < x.vdecl → reads (x.getV c.idx c.lane)) ∧ (c.cls = 1 → c.idx < x.sdecl → reads (x.getS c.idx)) ∧
        (c.cls = 2 → c.idx < 16 → reads ((x.getP c.idx c.lane).setWidth 64))) ∧
      (runs x → wr = true → c.lane < 32 →
        let writes (ds : List Dst) (post : Group → Prop) : Prop := ∃ t y, exec go s = .next t ∧
          t = { s with groups := t.groups, parts := t.parts } ∧ OthersKept s t (Machine.DbgCmd.key c) ∧
          (t.part pid).dbgst = 0 ∧ HasGroup t (Machine.DbgCmd.key c) y ∧ RegsKept x y ds ∧ post y
        (c.cls = 0 → c.idx < x.vdecl → writes [.v c.idx] fun y => y.getV c.idx c.lane = v ∧
          ∀ l, l < 32 → l ≠ c.lane → y.getV c.idx l = x.getV c.idx l) ∧
        (c.cls = 1 → c.idx < x.sdecl → writes [.s c.idx] fun y => y.getS c.idx = v) ∧
        (c.cls = 2 → c.idx < 16 → writes [.p c.idx] fun y => y.getP c.idx c.lane = if c.idx = 0 then 0xFFFF else v.setWidth 16))) ∧
  (∀ x, (x.toNat < s.tick.toNat + 128 → exec (.tstop x) s = .next { s with tstopErr := true, tstop := x }) ∧
    (s.tick.toNat + 128 ≤ x.toNat → exec (.tstop x) s = .next { s with tstopAt := x, tstopArm := true, tstop := x })) ∧
  (s.tick.toNat + 128 < 2 ^ 64 → exec (.tstopnow true) s = .next { s with tstopAt := s.tick + 128, tstopArm := true }) ∧
  exec (.tstopnow false) s = .next s ∧ exec (.resume false) s = .next s ∧
  (s.stopped = false → exec (.resume true) s = .next s) ∧
  (s.stopped = true → (s.tick + 1).toNat % 1024 ≠ 0 → (∀ d, d < 4 → fld (s.die d).trctl 16 16 = 0) →
    exec (.resume true) s = .next { s with stopped := false, tick := s.tick + 1 }) ∧
  ∀ die, let tap (i : Instr) (ir : BitVec 8) (ok : W64 → Prop) : Prop := ∃ t v, exec i s = .next t ∧
      t = { s with dies := t.dies, resp := .word v, fresh := t.fresh } ∧ (t.die die).tap.ir = ir ∧ ok v ∧
      ∀ d, d ≠ die → t.die d = s.die d
    (s.tapOn die = true → tap (.idcode die) 0xFE (fun v => v = 0x15834A5B) ∧
      (∀ b, tap (.bypass die b) 0xFF fun v => v = if b then 1 else 0) ∧
      (∀ x, tap (.extest die x) 0x00 fun v => v = x) ∧ tap (.sample die) 0x01 (fun _ => True) ∧
      tap (.lanemg die) 0x18 (fun _ => True) ∧ (s.stopped = false → tap (.scanout die) 0x11 fun v => v = 0) ∧
      (s.stopped = true → tap (.scanout die) 0x11 fun _ => True) ∧
      (∀ x, tap (.scansel die x) 0x10 (fun v => v = x.setWidth 64) ∧
        ∀ t, exec (.scansel die x) s = .next t → (t.die die).tap.chain = x) ∧
      ∀ wr c x, c.die = die →
        (s.stopped = false → tap (.dbgacc wr c x) 0x12 fun v => v = 0) ∧
        (s.stopped = true → ∀ y, s.dbgGroup c = some y → c.cls = 1 → c.idx < y.sdecl →
          (wr = false → tap (.dbgacc wr c x) 0x12 fun v => v = y.getS c.idx) ∧
          (wr = true → y.dbgBusy c = false → ∃ t z, exec (.dbgacc wr c x) s = .next t ∧
            HasGroup t (Machine.DbgCmd.key c) z ∧ RegsKept y z [.s c.idx] ∧ z.getS c.idx = x))) ∧
    (s.tapOn die = false → ∀ i, i ∈ [.idcode die, .bypass die true, .sample die, .lanemg die, .scanout die] →
      tap i 0xFF fun v => v = 0)

/-- R7, R111, R181, R262, R441 to R443, R445 to R447: a cold reset keeps device memory and the used leaves alone, and has
each die verify its image. A die whose image stands takes part in authentication, which uses its leaves; dies that fail are
absent, and without die 0 every die is held. Measurements are signed with a leaf. A thermal trip ends every context and holds
the package. The I3C target answers as its rule says, and PWRLIM takes 1,200 to 2,400. The 64 ACLK, what a reset keeps, the
leaves used and I3C's address are the model's (assumptions 14, 68, 69, 70, 81, 82, 83). -/
def Obligations.BootEvents : Prop := ∀ s,
  (∃ t, exec .coldReset s = .next t ∧ t.mem = s.mem ∧ t.aclk = s.aclk ∧ t.groups = [] ∧ t.ctxs = [] ∧ t.blocks = [] ∧
    t.ops = [] ∧ t.parts = [] ∧ t.tick = 0 ∧ t.tickOn = false ∧ t.pwrlim = 2400 ∧
    (∀ d, d < 4 → t.die d = { Die.reset with leaves := (s.die d).leaves } ∧ ⟨s.aclk + 64, .imageVerify d⟩ ∈ t.agenda) ∧
    ∀ c, c < 256 → ∃ m, t.core c = { Core.reset with mcap := m }) ∧
  (∀ x, let d := fld x 0 2
    (bit64 x 8 = true → (s.die d).stage = 1 → ∃ t, exec (.bootld x) s = .next t ∧ t = { s with agenda := t.agenda } ∧
      ∃ e, e ∈ t.agenda ∧ e.ev = .imageVerify d ∧ e.due ≤ s.aclk + 64) ∧
    (bit64 x 8 = false ∨ (s.die d).stage ≠ 1 → exec (.bootld x) s = .next s)) ∧
  (∀ d, d < 4 → (2 ≤ (s.die d).stage.toNat ∨ (s.die d).held = true → exec (.imageVerify d) s = .next s) ∧
    ((s.die d).stage.toNat < 2 → (s.die d).held = false → ∃ t, exec (.imageVerify d) s = .next t ∧ t.mem = s.mem ∧
      t.groups = s.groups ∧ ((t.die d).stage = 1 ∨ 2 ≤ (t.die d).stage.toNat))) ∧
  (∀ d, d < 4 → (s.canAuth d = false → exec (.dieAuthentication d) s = .next s) ∧
    (s.canAuth d = true → ∃ t, exec (.dieAuthentication d) s = .next t ∧ t.mem = s.mem ∧ t.groups = s.groups ∧
      (t.die d).leaves = (s.die d).leaves - (if d = 0 then b2n (s.inAuth 1) + b2n (s.inAuth 3) else 1) ∧
      ((t.die d).authed = true ∨ (t.die d).held = true))) ∧
  ((s.die 0).stage = 3 ∨ (s.die 0).stage = 4 → exec .authTimeout s = .next s) ∧
  ((s.die 0).stage ≠ 3 → (s.die 0).stage ≠ 4 →
    ((s.die 0).authed = false → ∃ t, exec .authTimeout s = .next t ∧ t = { s with dies := t.dies } ∧
      ∀ d, d < 4 → (t.die d).held = true ∧ (t.die d).stage = 4) ∧
    ((s.die 0).authed = true → (s.die 0).held = false → ∃ t, exec .authTimeout s = .next t ∧ t.mem = s.mem ∧
      (∀ d, d < 4 → (t.die d).held = ((s.die d).held || (decide (d ≠ 0) && !(s.die d).authed)) ∧
        ((t.die d).held = false → (t.die d).stage = 3 ∧
          ∀ k, k < 4 → ((t.die d).absdie.toNat / 2 ^ k % 2 = 1 ↔ (t.die k).held = true))) ∧
      ∃ n, 64 ≤ n ∧ n < 68 ∧ (s.aclk + n) % 4 = 0 ∧ ⟨s.aclk + n, .tickLoad (w64 (2 ^ 64 - 16))⟩ ∈ t.agenda)) ∧
  (∀ d i sg, ((s.die d).stage ≠ 3 → exec (.spdmRequest d i sg) s = .next { s with resp := .ur }) ∧
    ((s.die d).stage = 3 → i < 1 ∨ 4 < i → exec (.spdmRequest d i sg) s = .next { s with resp := .error }) ∧
    ((s.die d).stage = 3 → 1 ≤ i → i ≤ 4 →
      (sg = false → ∃ bs, bs.length = 32 ∧ exec (.spdmRequest d i sg) s = .next { s with resp := .bytes bs }) ∧
      (sg = true → (s.die d).leaves = 0 → exec (.spdmRequest d i sg) s = .next { s with resp := .error }) ∧
      (sg = true → (s.die d).leaves ≠ 0 → ∃ t bs, exec (.spdmRequest d i sg) s = .next t ∧ bs.length = 32 + 1772 ∧
        t = { s with dies := t.dies, fresh := t.fresh, resp := .bytes bs } ∧
        t.die d = { s.die d with leaves := (s.die d).leaves - 1 }))) ∧
  (∃ t, exec .thermalTrip s = .next t ∧ t.held = true ∧ t.ctxs = [] ∧
    ∀ g x, HasGroup t g x → Tab.get? s.ctxs x.ctx = none) ∧
  (∃ t, exec .powerEstimate s = .next t ∧
    t = { s with fresh := t.fresh, hotPwr := t.hotPwr, pwrstat := t.pwrstat, parts := t.parts } ∧
    (bit64 s.pwrstat 0 = true → bit64 t.pwrstat 0 = true) ∧
    (bit64 t.pwrstat 1 = true ↔ s.pwrlim.toNat < fld t.pwrstat 16 16)) ∧
  (∃ t, exec .ageingMonitorRead s = .next t ∧ t = { s with fresh := t.fresh, arrs := t.arrs, cores := t.cores } ∧
    ∀ k, ((s.arr k).blk ≠ none → t.arr k = s.arr k) ∧
      ((s.arr k).st ≠ .fenced → t.arr k = { s.arr k with calib := (t.arr k).calib })) ∧
  (∀ dyn, exec (.setdasa 0x4A dyn) s = .next { s with i3cDyn := some dyn, resp := .ok }) ∧
  (∀ st dyn, st ≠ 0x4A → exec (.setdasa st dyn) s = .next { s with resp := .error }) ∧
  (∀ x, let ok : Prop := s.i3cDyn ≠ none ∧ x.toNat / 2 ^ 20 % 4 = 0 ∧ x.toNat % 8 = 0 ∧ (s.die (x.toNat / 2 ^ 22)).held = false
    (ok → exec (.i3cSelectorWrite x) s = .next { s with i3cSel := some x, resp := .ok }) ∧
    (¬ ok → exec (.i3cSelectorWrite x) s = .next { s with i3cSel := none, resp := .error })) ∧
  (s.i3cSel = none → exec .i3cRead s = .next { s with resp := .word 0 }) ∧
  (∀ x, s.i3cSel = some x → s.pathDown 0 (x.toNat / 2 ^ 22) = false → x.toNat % 2 ^ 20 ∈ [0, 0x108, 0x400, 0x600, 0xB00, 0x818] →
    exec .i3cRead s = .next { s with resp := .word (s.svcRead (x.toNat / 2 ^ 22) (x.toNat % 2 ^ 20)) }) ∧
  ∀ sel lim, (s.i3cDyn ≠ none → sel = 0x100 → exec (.i3cPwrlimWrite sel lim) s = .next
      { s with pwrlim := if 1200 ≤ lim.toNat ∧ lim.toNat ≤ 2400 then lim else 2400, resp := .ok }) ∧
    (s.i3cDyn = none ∨ sel ≠ 0x100 → exec (.i3cPwrlimWrite sel lim) s = .next { s with resp := .error })

/-! ## Vector forms (R321 to R346) -/

/-- R325 (arithmetic rows): exact results, wrapped or clamped to the destination's type; 4 ACLK, and 6 for products. That
operands are read at issue is the model's (assumption 26). -/
def Obligations.VectorArithmetic : Prop := ∀ a : AluArgs,
  let fit (z : Int) : Nat := fitInt (dstTy a.ty a.mods.dn) a.mods.sat z
  let A (x : Group) (l e : Nat) : Int := srcI x a a.ty a.mods.an a.sa l e
  let B (x : Group) (l e : Nat) : Int := srcI x a a.ty a.mods.bn a.sb l e
  let C (x : Group) (l e : Nat) : Int := srcI x a a.ty a.mods.cn a.sc l e
  VectorWrites (.vadd a) a 4 (fun x l e => fit (A x l e + B x l e)) ∧
  VectorWrites (.vsub a) a 4 (fun x l e => fit (A x l e - B x l e)) ∧
  VectorWrites (.vmul a) a 6 (fun x l e => fit (A x l e * B x l e)) ∧
  VectorWrites (.vmulh a) a 6 (fun x l e => fit ((A x l e * B x l e) / (2 ^ a.ty.width : Nat))) ∧
  VectorWrites (.vmad a) a 6 (fun x l e => fit (A x l e * B x l e + C x l e)) ∧
  VectorWrites (.vmin a) a 4 (fun x l e => fit (min (A x l e) (B x l e))) ∧
  VectorWrites (.vmax a) a 4 (fun x l e => fit (max (A x l e) (B x l e))) ∧
  VectorWrites (.vabs a) a 4 (fun x l e => fit (max (A x l e) (-A x l e))) ∧
  VectorWrites (.vneg a) a 4 (fun x l e => fit (-A x l e)) ∧
  VectorWrites (.vdot4 a) a 6 (fun x l e =>
    let byte (o : Opnd) (j : Nat) (signed : Bool) : Int :=
      let v := elem 8 (x.srcX o l) (4 * e + j)
      if signed ∧ 128 ≤ v then (v : Int) - 256 else v
    let p (j : Nat) : Int := byte a.sa j (a.sub.toNat % 2 = 1) * byte a.sb j (a.sub.toNat / 2 % 2 = 1)
    fit (C x l e + (p 0 + (p 1 + (p 2 + p 3)))))

/-- R325 (bit rows) and R327: the logical forms, the shifts with a count of w or more, VLEA, VPOPC, VCLZ, VSEL by bit e of Pk
in each lane; a narrowed destination takes the value modulo its width. R325 and R303: VBFE and VBFI by their control words;
VMOVI and VMOVI.HI, which keep the other half of each lane word; and VMOV, which moves bit patterns, or converts an integer
to a narrowed destination. -/
def Obligations.VectorBitsAndMoves : Prop :=
  (∀ a : AluArgs,
  let w := a.ty.width
  let fit (v : Nat) : Nat := fitInt (dstTy a.ty a.mods.dn) false (asInt a.ty v)
  let A (x : Group) (l e : Nat) : Nat := srcBits x a a.ty a.mods.an a.sa l e
  let B (x : Group) (l e : Nat) : Nat := srcBits x a a.ty a.mods.bn a.sb l e
  VectorWrites (.vand a) a 4 (fun x l e => fit (A x l e &&& B x l e)) ∧
  VectorWrites (.vor a) a 4 (fun x l e => fit (A x l e ||| B x l e)) ∧
  VectorWrites (.vxor a) a 4 (fun x l e => fit (A x l e ^^^ B x l e)) ∧
  VectorWrites (.vshl a) a 4 (fun x l e => fit (if w ≤ B x l e then 0 else A x l e * 2 ^ B x l e % 2 ^ w)) ∧
  VectorWrites (.vshr a) a 4 (fun x l e => fit (if w ≤ B x l e then 0 else A x l e / 2 ^ B x l e)) ∧
  VectorWrites (.vsra a) a 4 (fun x l e => fit (wrap w (sgn w (A x l e) / (2 ^ min (B x l e) w : Nat)))) ∧
  VectorWrites (.vlea a) a 4 (fun x l e => fit ((A x l e + B x l e * 2 ^ a.sub.toNat) % 2 ^ 64)) ∧
  VectorWrites (.vpopc a) a 4 (fun x l e => fit ((List.range w).filter fun i => (A x l e).testBit i).length) ∧
  VectorWrites (.vclz a) a 4 (fun x l e => fit (w - bitLen (A x l e % 2 ^ w))) ∧
  VectorWrites (.vsel a) a 4 (fun x l e => if (x.getP a.sub.toNat l).toNat.testBit e then A x l e else B x l e)) ∧
  (∀ a : AluArgs,
  let A (x : Group) (l e : Nat) : Nat := srcBits x a a.ty a.mods.an a.sa l e
  let B (x : Group) (l e : Nat) : Nat := srcBits x a a.ty a.mods.bn a.sb l e
  let C (x : Group) (l e : Nat) : Nat := srcBits x a a.ty a.mods.cn a.sc l e
  let old (x : Group) (l : Nat) : Nat := match a.dst with | .v n => (x.getV n.toNat l).toNat | _ => 0
  VectorWrites (.vbfe a) a 4 (fun x l e =>
    let f := min (B x l e / 256 % 128) (64 - B x l e % 64)
    let v := A x l e / 2 ^ (B x l e % 64) % 2 ^ f
    fitInt (dstTy a.ty a.mods.dn) false (asInt a.ty
      (if f = 0 then 0 else if a.ty = .i64 ∧ v.testBit (f - 1) then v + (2 ^ 64 - 2 ^ f) else v))) ∧
  VectorWrites (.vbfi a) a 4 (fun x l e =>
    let f := min (C x l e / 256 % 128) (64 - C x l e % 64)
    if f = 0 then A x l e else (setFld (w64 (A x l e)) (C x l e % 64) f (B x l e)).toNat) ∧
  VectorWrites (.vmovi a) a 4 (fun x l _ => old x l / 2 ^ 32 * 2 ^ 32 + (aluI32 a).toNat) ∧
  VectorWrites (.vmoviHi a) a 4 (fun x l _ => old x l % 2 ^ 32 + (aluI32 a).toNat * 2 ^ 32) ∧
  (a.mods.dn.w = 0 → VectorWrites (.vmov a) a 4 A) ∧
  (a.mods.dn.w ≠ 0 → a.ty.kind ≠ .float → VectorWrites (.vmov a) a 4 (fun x l e =>
    fitInt (dstTy a.ty a.mods.dn) a.mods.sat (srcI x a a.ty a.mods.an a.sa l e))) ∧
  (a.mods.dn.w ≠ 0 → a.ty.kind = .float → FloatWrites (.vmov a) a 4 (if a.mods.rnd = .rsx then 1 else 0)
    (fun x l e d _ => fPut a d (fA x a l e).res)))

/-- R327: VCMP and FCMP. 4 ACLK after issue (8 for FCMP.F64) an enabled element's bit of Pd in its lane becomes the
condition, a disabled element of a lane of EXM keeps its bit, bits N to 15 of those lanes are cleared, other lanes keep Pd,
and P0 takes no write; with every element disabled nothing is written (R323). FCMP is ordered, and its flags are those of
R330. That flags take effect at issue is the model's (assumption 26). R326: VDIV and VREM. With DIVZEN set and a zero divisor
in an enabled element the divide traps DIVZ with no effect, TVAL naming the elements and TMASK the lanes; otherwise quotient
and remainder are those of R302, and arrive after 20 ACLK, 36 for 64-bit elements. -/
def Obligations.VectorComparesAndDivide : Prop :=
  (∀ a : AluArgs,
  let bits (c : Cur) (x z : Group) (cond : Nat → Nat → Bool) : Prop :=
    let some' : Prop := ∃ l e, l < 32 ∧ e < a.ty.count ∧ x.enabled c.slotB a.hd l e = true
    RegsKept x z (dstsOf a.dst) ∧ ∀ k, a.dst = .preg k → k ≠ 0 → ∀ l, l < 32 →
      (Mask.has (x.slot c.slotB).lanes l = false ∨ ¬ some' → z.getP k.toNat l = x.getP k.toNat l) ∧
      (Mask.has (x.slot c.slotB).lanes l = true → some' → ∀ e, e < 16 → (z.getP k.toNat l).toNat.testBit e =
        (decide (e < a.ty.count) &&
          (if x.enabled c.slotB a.hd l e then cond l e else (x.getP k.toNat l).toNat.testBit e)))
  (∀ s c x, Current s c x → ∃ t, exec (.vcmp a) s = .next t ∧
    Outstanding s t c x x (dstsOf a.dst) 4 (lenBytes a.ext.len) fun z => bits c x z fun l e =>
      ccInt a.sub.toNat (srcI x a a.ty a.mods.an a.sa l e) (srcI x a a.ty a.mods.bn a.sb l e)) ∧
  FloatRuns (.fcmp a) (if a.ty = .f64 then 8 else 4) (lenBytes a.ext.len)
    (fun c x => floatRun x (x.enabled c.slotB a.hd) a.ty (fun _ _ => 0)
      fun l e _ _ => (b2n (fCond a.sub.toNat (fA x a l e) (fB x a l e)).1, (fCond a.sub.toNat (fA x a l e) (fB x a l e)).2))
    (fun _ => dstsOf a.dst)
    fun c x _ z => bits c x z fun l e => (fCond a.sub.toNat (fA x a l e) (fB x a l e)).1) ∧
  (∀ (a : AluArgs) s c x, Current s c x →
  let A (l e : Nat) : Int := srcI x a a.ty a.mods.an a.sa l e
  let B (l e : Nat) : Int := srcI x a a.ty a.mods.bn a.sb l e
  let zero (l e : Nat) : Bool := x.enabled c.slotB a.hd l e && decide (B l e = 0)
  let any : Bool := lanes32.any fun l => (List.range a.ty.count).any (zero l)
  let fit (z : Int) : Nat := fitInt (dstTy a.ty a.mods.dn) a.mods.sat z
  let lat := if a.ty.width = 64 then 36 else 20
  let quot (l e : Nat) : Int :=
    if B l e = 0 then
      (if a.ty.kind = .int then
        (if a.mods.sat then (if A l e < 0 then -(2 ^ (a.ty.width - 1) : Nat) else (2 ^ (a.ty.width - 1) : Nat) - 1) else -1)
       else (2 ^ a.ty.width : Nat) - 1)
    else (A l e).tdiv (B l e)
  let rem (l e : Nat) : Int := if B l e = 0 then A l e else (A l e).tmod (B l e)
  let writes (f : Nat → Nat → Int) (z : Group) : Prop := VecWritten x z a.dst a.ty a.mods.dn fun l e =>
    if x.enabled c.slotB a.hd l e then some (fit (f l e)) else none
  (bit64 x.gctl 0 = true → any = true → ∃ m v,
    (∀ l, l < 32 → Mask.has m l = (List.range a.ty.count).any (zero l)) ∧
    (∀ e, e < 64 → bit64 v e = (decide (e < a.ty.count) && lanes32.any fun l => zero l e)) ∧
    exec (.vdiv a) s = .next (s.trapMask c 0x03 0 v m) ∧ exec (.vrem a) s = .next (s.trapMask c 0x03 0 v m)) ∧
  (bit64 x.gctl 0 = false ∨ any = false →
    (∃ t, exec (.vdiv a) s = .next t ∧ Outstanding s t c x x (dstsOf a.dst) lat (lenBytes a.ext.len) (writes quot)) ∧
    (∃ t, exec (.vrem a) s = .next t ∧ Outstanding s t c x x (dstsOf a.dst) lat (lenBytes a.ext.len) (writes rem))))

/-- R329 to R333: every float form of an ALU word with a vector destination rounds its exact result once, with one draw where
it rounds under RSX, and arrives after its latency of R324. That flags and draws take effect at issue, and what draws, is the
model's (assumptions 26, 59, 60). -/
def Obligations.FloatForms : Prop := ∀ a : AluArgs,
  let d1 := if a.mods.rnd = .rsx then 1 else 0
  let lat := if a.ty = .f64 then 8 else 4
  let slow := if a.ty = .f64 then 40 else 24
  let once (i : Instr) (lat : Nat) (f : Group → Nat → Nat → FRes) : Prop :=
    FloatWrites i a lat d1 fun x l e d _ => (fmtOf (dstTy a.ty a.mods.dn)).deliver a.mods.rnd a.mods.sat d (f x l e)
  let special (i : Instr) (f : SFn) : Prop := FloatWrites i a 16 0 fun x l e _ _ => f.elem a (fA x a l e)
  once (.fadd a) lat (fun x l e => fAdd a.mods.rnd (fA x a l e) (fB x a l e)) ∧
  once (.fsub a) lat (fun x l e => fAdd a.mods.rnd (fA x a l e) (fB x a l e).opp) ∧
  once (.fmul a) lat (fun x l e => fMul (fA x a l e) (fB x a l e)) ∧
  once (.ffma a) lat (fun x l e => fFma a.mods.rnd (fA x a l e) (fB x a l e) (fC x a l e)) ∧
  once (.fdiv a) slow (fun x l e => fDiv (fA x a l e) (fB x a l e)) ∧
  once (.fsqrt a) slow (fun x l e => fSqrt (fA x a l e)) ∧
  once (.fscale a) lat (fun x l e => fScale (fA x a l e) (fScaleN x a l e)) ∧
  once (.ffrac a) lat (fun x l e => fFrac (fA x a l e)) ∧
  once (.fdot2 a) 4 (fun x l e =>
    let t : Ty := if a.sub = 0 then .f16 else .bf16
    let p (j : Nat) : FRes :=
      fMul ((fmtOf t).decode (elem 16 (x.srcX a.sa l) j)) ((fmtOf t).decode (elem 16 (x.srcX a.sb l) j))
    fDot a.mods.rnd (fC x a l e) (p (2 * e)) (p (2 * e + 1))) ∧
  FloatWrites (.fmin a) a lat (if a.mods.dn.w = 0 then 0 else d1)
    (fun x l e d _ => fPut a d (fPick false (fA x a l e) (fB x a l e))) ∧
  FloatWrites (.fmax a) a lat (if a.mods.dn.w = 0 then 0 else d1)
    (fun x l e d _ => fPut a d (fPick true (fA x a l e) (fB x a l e))) ∧
  FloatWrites (.fround a) a lat (d1 * (if a.mods.dn.w = 0 then 1 else 2))
    (fun x l e p q => fPut a q (fRound a.mods.rnd p (fA x a l e))) ∧
  FloatWrites (.fclass a) a lat 0 (fun x l e _ _ => (2 ^ fClass a.ty (fA x a l e), 0)) ∧
  special (.frcp a) .rcp ∧ special (.frsq a) .rsq ∧ special (.fexp2 a) .exp2 ∧ special (.flog2 a) .log2 ∧
  special (.fsin a) .sin ∧ special (.fcos a) .cos ∧ special (.ftanh a) .tanh

/-- R229 and R322: a float form runs its enabled elements alone, each lane's in ascending order; an element that draws takes
the next draws of its lane's rounding state, and the state after it is that of the lane's last draw. The flags raised are
those of the enabled elements. -/
def Obligations.FloatElementsInOrder : Prop := ∀ (x : Group) (en : Nat → Nat → Bool) (t : Ty) (n : Nat → Nat → Nat)
    (f : FElemFn), (∀ l e, n l e ≤ 2) →
  let r := floatRun x en t n f
  let drawn (l e : Nat) : Nat := (((List.range e).filter (en l)).map (n l)).sum
  let st (l k : Nat) : W32 := Nat.repeat xorshift k (Tab.getD x.rsx 1 l)
  (∀ l e, l < 32 → e < t.count →
    r.val l e = if en l e then some (f l e (st l (drawn l e + 1)).toNat (st l (drawn l e + 2)).toNat).1 else none) ∧
  (∀ l, l < 32 → Tab.getD r.rsx 1 l = st l (drawn l t.count)) ∧
  (∀ l g, (l, g) ∈ r.flags ↔ l < 32 ∧ ∃ e, e < t.count ∧ en l e = true ∧
    g = (f l e (st l (drawn l e + 1)).toNat (st l (drawn l e + 2)).toNat).2)

/-- R286 to R289: a paired word reads both slots' sources before either writes; X's enabled elements run as the full float
form, and Y's vector result or predicate is outstanding for 4 ACLK beside X's. A compare into P0, or with every element
disabled (R323), writes nothing. That flags take effect at issue is the model's (assumption 26). -/
def Obligations.PairedWord : Prop := ∀ (a : PairArgs) s c x, Current s c x →
  let ax := pairX a
  let ay := pairY a
  let k := a.yd.toNat % 16
  let r := floatRun x (x.enabled c.slotB ax.hd) ax.ty (fun _ _ => xDraws a.xop a.xrnd) fun l e d _ => xElem a.xop x ax l e d
  let both (dy : Dst) (post : Group → Prop) : Prop := ∃ t y p q, exec (.pairedWord a) s = .next t ∧
    GroupAndPosts s t c.g [(xLat a.xop ax.ty, .resultWriteback c.g x.nextTag), (4, .resultWriteback c.g (x.nextTag + 1))] ∧
    HasGroup t c.g y ∧ Moved (((x.afterRun r).addPend p).addPend q) y c.slotB 12 [] ∧
    p.tag = x.nextTag ∧ p.dsts = [.v a.xd.toNat] ∧ q.tag = x.nextTag + 1 ∧ q.dsts = [dy] ∧
    VecWritten x (p.wr.foldl Group.regWr x) (.v a.xd) ax.ty Sel.off r.val ∧ post (q.wr.foldl Group.regWr x)
  (∀ m v, fpxOf x r.flags = some (m, v) → exec (.pairedWord a) s = .next (s.trapMask c 0x0D 0 v m)) ∧
  (fpxOf x r.flags = none → a.yop.isCmp = false → both (.v a.yd.toNat) fun z =>
    VecWritten x z (.v a.yd) ay.ty Sel.off fun l e =>
      if x.enabled c.slotB ay.hd l e then some (yElem a.yop x ay l e) else none) ∧
  (fpxOf x r.flags = none → a.yop.isCmp = true → k ≠ 0 → both (.p k) fun z =>
    let some' : Prop := ∃ l e, l < 32 ∧ e < ay.ty.count ∧ x.enabled c.slotB ay.hd l e = true
    RegsKept x z [.p k] ∧ ∀ l, l < 32 →
      (Mask.has (x.slot c.slotB).lanes l = false ∨ ¬ some' → z.getP k l = x.getP k l) ∧
      (Mask.has (x.slot c.slotB).lanes l = true → some' → ∀ e, e < 16 → (z.getP k l).toNat.testBit e =
        (decide (e < ay.ty.count) &&
          (if x.enabled c.slotB ay.hd l e then decide (yElem a.yop x ay l e = 1) else (x.getP k l).toNat.testBit e)))) ∧
  (fpxOf x r.flags = none → a.yop.isCmp = true → k = 0 → ∃ t, exec (.pairedWord a) s = .next t ∧
    Outstanding s t c x (x.afterRun r) [.v a.xd.toNat] (xLat a.xop ax.ty) 12 fun z =>
      VecWritten x z (.v a.xd) ax.ty Sel.off r.val)

/-- R335 to R339: CVT, PACK, UNPACK and UNPACK.HI, QMX and DQMX write the element ranges their part numbers name. What draws
is the model's (assumption 59). R338 and R236: QMX. Block k of 32 elements has one scale, of its present elements; each
present element is quantised by its block's scale into slot h × N + e of its lane, and, under a true uniform predicate, byte
k of Sc is the scale's code. -/
def Obligations.Conversions : Prop :=
  (∀ a : AluArgs,
  let raw (x : Group) (o : Opnd) (w l i : Nat) : Nat := elem w (x.srcX o l) i
  let plain (i : Instr) (t : Ty) (f : Group → Nat → Nat → Nat) : Prop := ∀ s c x, Current s c x → ∃ u, exec i s = .next u ∧
    Outstanding s u c x x (dstsOf a.dst) 4 (lenBytes a.ext.len) fun z =>
      VecWritten x z a.dst t Sel.off fun l e => if x.enabled c.slotB a.hd l e then some (f x l e) else none
  let st := opTy a.sb
  let half := a.ty.count / 2
  let src (e : Nat) : Option Nat :=
    if a.ty.count < st.count then some (a.sub.toNat * a.ty.count + e)
    else if a.sub.toNat * st.count ≤ e ∧ e < (a.sub.toNat + 1) * st.count then some (e - a.sub.toNat * st.count) else none
  FloatRuns (.cvt a) 4 (lenBytes a.ext.len)
    (fun c x => floatRun x (fun l e => x.enabled c.slotB a.hd l e && (src e).isSome) a.ty
      (fun _ _ => cvtDraws a.ty st a.mods.rnd)
      fun l e d _ => cvtElem a.ty st a.mods (raw x a.sa st.width l ((src e).getD 0)) d)
    (fun _ => dstsOf a.dst) (fun _ x r z => VecWritten x z a.dst a.ty Sel.off r.val) ∧
  plain (.pack a) a.ty (fun x l e => fitInt a.ty a.mods.sat (asInt (wideTy a.ty)
    (if e < half then raw x a.sa (wideTy a.ty).width l e else raw x a.sb (wideTy a.ty).width l (e - half)))) ∧
  plain (.unpack a) (wideTy a.ty) (fun x l e =>
    wrap (wideTy a.ty).width (asInt a.ty (raw x a.sa a.ty.width l e))) ∧
  plain (.unpackHi a) (wideTy a.ty) (fun x l e =>
    wrap (wideTy a.ty).width (asInt a.ty (raw x a.sa a.ty.width l (half + e)))) ∧
  FloatRuns (.dqmx a) 12 (lenBytes a.ext.len)
    (fun c x =>
      let code (l e : Nat) : Nat := elem 8 (x.srcS a.sb) ((a.ty.count * l + e) / 32)
      floatRun x (x.enabled c.slotB a.hd) a.ty (fun l e => if code l e = 255 then 0 else if a.mods.rnd = .rsx then 1 else 0)
        fun l e d _ =>
          if code l e = 255 then ((fmtOf a.ty).canonNan, 0)
          else
            let v := mxValue (opTy a.sc) (raw x a.sa (opTy a.sc).width l (a.sub.toNat * a.ty.count + e))
            (fmtOf a.ty).deliver a.mods.rnd a.mods.sat d (v.scaled ((code l e : Int) - 127)).res)
    (fun _ => dstsOf a.dst) (fun _ x r z => VecWritten x z a.dst a.ty Sel.off r.val)) ∧
  (∀ (a : AluArgs) s c x, Current s c x →
  let st := opTy a.sb
  let n := st.count
  let h := a.sub.toNat
  let en := x.enabled c.slotB a.hd
  let val (l e : Nat) : FVal := (fmtOf st).decode (elem st.width (x.srcX a.sa l) e)
  let block (k : Nat) : List FVal :=
    (List.range 32).filterMap fun i =>
      if en ((32 * k + i) / n) ((32 * k + i) % n) then some (val ((32 * k + i) / n) ((32 * k + i) % n)) else none
  let scale (l e : Nat) : MxScale := if (n * l + e) / 32 < n then mxScale a.ty (block ((n * l + e) / 32)) else .zero
  let draws (l e : Nat) : Nat := match scale l e with | .exp _ => if a.mods.rnd = .rsx then 1 else 0 | _ => 0
  let r := floatRun x en st draws fun l e d _ => mxElem a.ty a.mods.rnd d (scale l e) (val l e)
  let on := x.uniPred a.hd
  (∀ m v, fpxOf x r.flags = some (m, v) → exec (.qmx a) s = .next (s.trapMask c 0x0D 0 v m)) ∧
  (fpxOf x r.flags = none → ∃ t, exec (.qmx a) s = .next t ∧
    Outstanding s t c x (x.afterRun r) (dstsOf a.dst ++ (if on then dstsOf a.sc else [])) 12 (lenBytes a.ext.len) fun z =>
      (∀ k, a.dst = .v k → ∃ u, VecWritten x u a.dst a.ty Sel.off (fun l i =>
          if h * n ≤ i ∧ i < h * n + n then r.val l (i - h * n) else none) ∧
        ∀ l, l < 32 → z.getV k.toNat l = u.getV k.toNat l) ∧
      (∀ k, a.sc = .s k → on = true → ∀ b, b < n → b < 8 →
        elem 8 (z.getS k.toNat) b = (mxScale a.ty (block b)).code % 256) ∧
      RegsKept x z (dstsOf a.dst ++ (if on then dstsOf a.sc else []))))

/-- R340 and R341: the LNX forms. An active lane's element takes the source position its index or distance names, where that
position's lane is active in the span; Pk's bit says whether it did. -/
def Obligations.LaneExchange : Prop := ∀ a : AluArgs,
  let w := (lnxSpan a.sc).1
  let k := (lnxSpan a.sc).2
  let n := a.ty.count
  let form (i : Instr) (src : (rel e x : Nat) → Option (Nat × Nat)) : Prop := ∀ s c x, Current s c x →
    let act := x.active1 c.slotB a.hd
    let pick (l e : Nat) : Option (Nat × Nat) :=
      match src (l % w) e (lnxX x a l) with
      | some p => if act (l - l % w + p.1) then some (l - l % w + p.1, p.2) else none
      | none => none
    let value (l e : Nat) : Option Nat :=
      if act l then some (match pick l e with
        | some p => elem a.ty.width (x.srcX a.sa p.1) p.2
        | none => elem a.ty.width (x.srcX a.dst l) e)
      else none
    ∃ t, exec i s = .next t ∧
      Outstanding s t c x x (dstsOf a.dst ++ (if k = 0 then [] else [.p k])) 8 (lenBytes a.ext.len) fun z =>
        RegsKept x z (dstsOf a.dst ++ [.p k]) ∧
        (∀ d, a.dst = .v d → ∃ u, VecWritten x u a.dst a.ty Sel.off value ∧
          ∀ l, l < 32 → z.getV d.toNat l = u.getV d.toNat l) ∧
        (k ≠ 0 → ∀ l, l < 32 → (act l = false → z.getP k l = x.getP k l) ∧
          (act l = true → ∀ e, e < 16 → (z.getP k l).toNat.testBit e = (decide (e < n) && (pick l e).isSome)))
  let at_ (q : Nat) : Nat × Nat := (q / n, q % n)
  form (.lnxIdx a) (fun _ e x => some (x % w, e)) ∧
  form (.lnxWin a) (fun _ e x => some (at_ ((x + e) % (w * n)))) ∧
  form (.lnxRise a) (fun rel e x => if x ≤ rel * n + e then some (at_ (rel * n + e - x)) else none) ∧
  form (.lnxFall a) (fun rel e x => if rel * n + e + x < w * n then some (at_ (rel * n + e + x)) else none) ∧
  form (.lnxSprd a) (fun _ e x => some (x % w, e)) ∧
  form (.lnxRot a) (fun rel e x => some (at_ ((rel * n + e + x) % (w * n))))

/-- R342 and R343: CENSUS and PEERS over the active lanes, 8 ACLK after issue. -/
def Obligations.CensusAndPeers : Prop := ∀ (a : AluArgs) s c x, Current s c x →
  let act (l : Nat) : Bool := x.active1 c.slotB a.hd l
  let hit (l : Nat) : Bool := act l && censusHit x a.sa l
  let same (l i : Nat) : Bool := act i && decide (elem a.ty.width (x.srcX a.sa i) 0 = elem a.ty.width (x.srcX a.sa l) 0)
  let form (i : Instr) (post : Group → Prop) : Prop := ∃ t, exec i s = .next t ∧
    Outstanding s t c x x (dstsOf a.dst) 8 (lenBytes a.ext.len) fun z => RegsKept x z (dstsOf a.dst) ∧ post z
  let all (b : Bool) (z : Group) : Prop := ∀ k, a.dst = .preg k → k ≠ 0 → ∀ l, l < 32 → z.getP k.toNat l = if b then 1 else 0
  let word (f : Nat → Bool) (v : W64) : Prop := ∀ l, l < 64 → bit64 v l = (decide (l < 32) && f l)
  form (.censusSome a) (all (lanes32.any hit)) ∧
  form (.censusEvery a) (all (lanes32.all fun l => !act l || hit l)) ∧
  form (.censusMask a) (fun z => ∀ n, a.dst = .s n → word hit (z.getS n.toNat)) ∧
  form (.censusCount a) (fun z => ∀ n, a.dst = .s n → z.getS n.toNat = w64 (lanes32.filter hit).length) ∧
  form (.peersMask a) (fun z => ∀ n, a.dst = .v n → ∀ l, l < 32 →
    (act l = true → word (same l) (z.getV n.toNat l)) ∧ (act l = false → z.getV n.toNat l = x.getV n.toNat l)) ∧
  form (.peersUniform a) (all (lanes32.all fun l => lanes32.all fun i => !(act l && act i) || same l i)) ∧
  form (.peersLead a) (fun z => ∀ k, a.dst = .preg k → k ≠ 0 → ∀ l, l < 32 →
    (act l = true → z.getP k.toNat l = if (List.range l).any (same l) then 0 else 1) ∧
    (act l = false → z.getP k.toNat l = x.getP k.toNat l))

/-- R344: REDUCE combines the present elements, in ascending position for an integer, exactly and fitted once, and by the
fixed tree of R239 for a float; with no element present it gives the identity and E = 1. An enabled flag traps FPX. R345:
SCAN and SCAN.EXC. Position p takes the running value of the present elements before it, and of itself for SCAN, exact and
then fitted for an integer and rounded step by step for a float; the first of an exclusive scan takes the identity of R240,
and an absent element keeps its value. An enabled flag traps FPX. -/
def Obligations.ReductionsAndScans : Prop :=
  (∀ (a : AluArgs) s c x, Current s c x →
  let n := a.ty.count
  let op := a.sub.toNat % 8
  let items : List (Option Nat) := (List.range (32 * n)).map fun p =>
    if x.enabled c.slotB a.hd (p / n) (p % n) then some (elem a.ty.width (x.srcX a.sa (p / n)) (p % n)) else none
  let ints : List Int := (items.filterMap id).map (redArg a.ty op)
  let total : Nat := match ints with | [] => redIdent a.ty op | z :: r => redFit a.ty op a.mods.sat (r.foldl (redInt op) z)
  let tree := redTree (redFloat a.ty op a.mods) 8 items 0
  let v : Nat := if a.ty.kind = .float then tree.1.getD (redIdent a.ty op) else total
  let fl : Nat := if a.ty.kind = .float then tree.2 else 0
  (x.trapFlags fl ≠ 0 → ∃ m, (∀ l, l < 32 → Mask.has m l = (List.range n).any fun e => x.enabled c.slotB a.hd l e) ∧
    exec (.reduce a) s = .next (s.trapMask c 0x0D 0 (w64 fl) m)) ∧
  (x.trapFlags fl = 0 → ∃ t, exec (.reduce a) s = .next t ∧
    Outstanding s t c x { x with fpst := x.fpst ||| w64 (fl % 32) } (dstsOf a.dst ++ dstsOf a.sb) 12 (lenBytes a.ext.len)
      fun z => (∀ d, a.dst = .s d → z.getS d.toNat = w64 v) ∧
        (∀ k, a.sb = .preg k → k ≠ 0 → ∀ l, l < 32 → z.getP k.toNat l = if items.all Option.isNone then 1 else 0) ∧
        RegsKept x z (dstsOf a.dst ++ dstsOf a.sb))) ∧
  (∀ (a : AluArgs) s c x, Current s c x →
  let n := a.ty.count
  let op := a.sub.toNat % 8
  let en (p : Nat) : Bool := x.enabled c.slotB a.hd (p / n) (p % n)
  let upTo (p : Nat) : List Nat :=
    ((List.range p).filter en).map fun p => elem a.ty.width (x.srcX a.sa (p / n)) (p % n)
  let fl (l : List Nat) : Nat × Nat :=
    match l with
    | [] => (redIdent a.ty op, 0)
    | b :: r => r.foldl (fun q y => ((redFloat a.ty op a.mods q.1 y).1, flOr q.2 (redFloat a.ty op a.mods q.1 y).2)) (b, 0)
  let int (l : List Nat) : Nat :=
    match l.map (redArg a.ty op) with
    | [] => redIdent a.ty op
    | z :: r => redFit a.ty op a.mods.sat (r.foldl (redInt op) z)
  let run (l : List Nat) : Nat := if a.ty.kind = .float then (fl l).1 else int l
  let flags : Nat := if a.ty.kind = .float then (fl (upTo (32 * n))).2 else 0
  let form (i : Instr) (f : Nat → Nat) : Prop :=
    (x.trapFlags flags ≠ 0 → ∃ m, (∀ l, l < 32 → Mask.has m l = (List.range n).any fun e => x.enabled c.slotB a.hd l e) ∧
      exec i s = .next (s.trapMask c 0x0D 0 (w64 flags) m)) ∧
    (x.trapFlags flags = 0 → ∃ t, exec i s = .next t ∧
      Outstanding s t c x { x with fpst := x.fpst ||| w64 (flags % 32) } (dstsOf a.dst ++ dstsOf a.sb) 12
        (lenBytes a.ext.len) fun z =>
        RegsKept x z (dstsOf a.dst ++ dstsOf a.sb) ∧
        (∀ d, a.dst = .v d → ∃ u, VecWritten x u a.dst a.ty Sel.off
            (fun l e => if en (n * l + e) then some (f (n * l + e)) else none) ∧
          ∀ l, l < 32 → z.getV d.toNat l = u.getV d.toNat l) ∧
        (∀ k, a.sb = .preg k → k ≠ 0 → ∀ l, l < 32 → z.getP k.toNat l = if (upTo (32 * n)).isEmpty then 1 else 0))
  form (.scan a) (fun p => run (upTo (p + 1))) ∧ form (.scanExc a) (fun p => run (upTo p)))

/-- R346 and R203: XSHFL outside a pair-spanning block traps ILLOP; inside one, a group whose partner has not met it waits,
holding the words of its lanes, and writes nothing yet. -/
def Obligations.CrossCoreShuffle : Prop := ∀ (a : AluArgs) s c x, Current s c x →
  ((s.blk x.blk).pair = false →
    exec (.xshfl a) s = .next (s.trapHere c 0x01 0 (w64 (encode (.xshfl a) % 2 ^ 64)))) ∧
  (∀ h y, (s.blk x.blk).pair = true → s.partner x = some h → h ≠ c.g → HasGroup s h y → y.pend.find? Pend.openExch = none →
    ∃ t z p, exec (.xshfl a) s = .next t ∧ OnlyGroup s t c.g ∧ HasGroup t c.g z ∧
      z = (x.addPend p).setSlot c.slotB { x.slot c.slotB with wait := .xshfl p.tag, held := true, wlen := 8 } ∧
      p.kind = .exch ∧ p.dsts = dstsOf a.dst ∧ p.left = 0 ∧
      p.old = (Mask.lanes (x.slot c.slotB).lanes).map fun l => (l, x.srcX a.sa l))

/-! ## Traps and the system range (R186, R315 to R320, R395 to R402) -/

/-- R277, R395, R397: with no register result outstanding, the trap that is due is entered: at level 0 or 1 the group goes up
a level, and at level 2 its context ends with CEC ESCALATE. While one is outstanding nothing changes. The fate of further
faults is the model's (assumption 30). -/
def Obligations.TrapEntry : Prop := ∀ s g x, HasGroup s g x →
  (∀ tr o, x.resultsOut = false → x.trapDue = some (tr, o) → x.level < 2 →
    ∃ t y, exec (.trapEntry g) s = .next t ∧ Entered s t g x y tr o) ∧
  (∀ tr o k, x.resultsOut = false → x.trapDue = some (tr, o) → 2 ≤ x.level → Tab.get? s.ctxs x.ctx = some k →
    k.ending = none →
    ∃ t, exec (.trapEntry g) s = .next t ∧ Ends s t x.ctx 1 (grpid g x.gid) tr.cause.toNat tr.val tr.ipc) ∧
  (x.resultsOut = true → exec (.trapEntry g) s = .next s)

/-- R316, R416, R397: TRAP takes SWTRAP with its operand, and BRK takes BRK with its own address, after themselves: at once,
or when the group's outstanding results are written. In a context with DBGBRK, BRK goes past and stops the context. What BRK
does in such a context is the model's (assumption 51). R317: TRET. At level 0 it traps PRIV. At a level l with no suspended
loop to go on with, both slots, their masks within the lanes that hold threads (R185) and resume records, and JOIN come back
from bank l, one level down; a slot whose PC is JOIN parks (R193); no register changes. With MPROG0.VALID set it traps MATRIX
where the loop's checks fail, and otherwise re-submits the loop and clears VALID. -/
def Obligations.TrapsAndReturn : Prop :=
  (∀ (a : CtlArgs) s c x, Current s c x → x.uniPred a.hd = true →
  let pc := (x.slot c.slotB).ipc
  let tr (cause : BitVec 8) (v : W64) : Trap :=
    { cause := cause, subc := 0, defer := false, val := v, mask := (x.slot c.slotB).exm, slotB := c.slotB,
      pc := x.nextPc c.slotB (lenBytes a.len), ipc := pc, re := none, wph := (x.slot c.slotB).wph, seq := x.seq,
      lvl := x.level }
  let takes (i : Instr) (t0 : Trap) : Prop :=
    (x.resultsOut = true → ∃ t, exec i s = .next t ∧ OnlyGroup s t c.g ∧ HasGroup t c.g { x with trap := some t0 }) ∧
    (x.resultsOut = false → x.faults.filter x.faultDue = [] → x.level < 2 →
      ∃ t y, exec i s = .next t ∧ Entered s t c.g x y t0 none)
  takes (.trap a) (tr 0x0B (x.srcS a.sa)) ∧
  (s.dbgBrk x.ctx = false → takes (.brk a) (tr 0x0A pc)) ∧
  (∀ k, s.dbgBrk x.ctx = true → Tab.get? s.ctxs x.ctx = some k → ∃ t y, exec (.brk a) s = .next t ∧ HasGroup t c.g y ∧
    OthersKept s t c.g ∧ Moved x y c.slotB (lenBytes a.len) [] ∧
    Tab.get? t.ctxs x.ctx = some { k with stop := true } ∧ (t.part k.pid).qstop = (s.part k.pid).qstop ++ [[x.ctx]] ∧
    ∀ b, ¬ TraceByte s (dieOf c.g) 8 b → t.readByte b = s.readByte b)) ∧
  (∀ (a : CtlArgs) s c x, Current s c x → x.uniPred a.hd = true →
  let b := x.bank x.level
  let po := x.poSaved.headD ([], [], 0)
  let slot (live : Bool) (tpc tmsk tres : W64) (re : Nat) (free : List Nat) : Slot :=
    { Slot.empty with
      pc := keep tpc 0xFFFFFFFFFFFFFC, own := .ofNat 32 (fld tmsk 32 32) &&& x.holding,
      exm := .ofNat 32 (fld tmsk 32 32) &&& x.holding &&& .ofNat 32 (fld tmsk 0 32),
      parked := bit64 tpc 63 || (live && decide (keep tpc 0xFFFFFFFFFFFFFC = keep b.tjoin 0xFFFFFFFFFFFFFC)),
      re := if bit64 tres 63 then some (keep tres 0xFFFFFFFFFFFFFC, .ofNat 32 re) else none,
      wph := if bit64 tres 62 then some (.ofNat 16 (fld b.tval 0 16)) else none, readyAt := s.aclk + 4, why := 15,
      free := free }
  let z : Group := { x with
    level := x.level - 1, a := slot (bit64 b.tpcb 62) b.tpca b.tmska b.tresa (fld b.trmsk 0 32) po.1,
    b := slot (bit64 b.tpcb 62) b.tpcb b.tmskb b.tresb (fld b.trmsk 32 32) po.2.1, bLive := bit64 b.tpcb 62,
    join := keep b.tjoin 0xFFFFFFFFFFFFFC, lastB := false, switch := false,
    poSaved := x.poSaved.drop 1, poBase := po.2.2 }
  (x.level = 0 → exec (.tret a) s = .next (s.tickFree.trapHere c 0x02 0 0)) ∧
  (x.level ≠ 0 → s.suspending c.g = false → bit64 x.mprog0 63 = false → x.faults = [] → x.trap = none →
    ∃ t, exec (.tret a) s = .next t ∧ OnlyGroup s t c.g ∧ HasGroup t c.g (Group.reconverge 65 z)) ∧
  (x.level ≠ 0 → s.suspending c.g = false → s.loopRuns c.g = false → bit64 x.mprog0 63 = true →
    (s.progOk c.g x = false → exec (.tret a) s = .next (s.trapHere c 0x0C 0 0)) ∧
    (s.progOk c.g x = true → x.faults = [] → x.trap = none → ∃ t y, exec (.tret a) s = .next t ∧ HasGroup t c.g y ∧
      OthersKept s t c.g ∧ t.mem = s.mem ∧ y.level = x.level - 1 ∧ bit64 y.mprog0 63 = false ∧ RegsKept x y [])))

/-- R318, R34, R186: SYSRD. A number that is not assigned, cannot be read or does not suit the operand traps ILLOP; one above
the group's level traps PRIV with the number. A scalar read writes the register's value; LANEID and THRID give the lane and
its thread in each active lane; SPLITDW, also by SPLITDW_ACCESS, gives the word SPLITIX names and advances it. -/
def Obligations.SpecialReads : Prop := ∀ (a : CtlArgs) s c x, Current s c x →
  let n := srNum a
  (srRead n x.level a.dst = .illop → exec (.sysrd a) s = .next (s.trapHere c 0x01 0 (w64 (encode (.sysrd a) % 2 ^ 64)))) ∧
  (srRead n x.level a.dst = .priv → exec (.sysrd a) s = .next (s.tickFree.trapHere c 0x02 0 (w64 n))) ∧
  (srRead n x.level a.dst = .ok → isV a.dst = false → x.uniPred a.hd = true → srWelt n = false →
    srIn n 0x069 0x06D = false → n ≠ 0x06F → n ≠ 0x042 →
    ∃ t y, exec (.sysrd a) s = .next t ∧ OnlyGroup s t c.g ∧ HasGroup t c.g y ∧
      Moved x y c.slotB (lenBytes a.len) (dstsOf a.dst) ∧ ∀ d, a.dst = .s d → y.getS d.toNat = s.srVal c x n) ∧
  (∀ d, a.dst = .v d → n ≤ 1 → ∃ t y, exec (.sysrd a) s = .next t ∧ OnlyGroup s t c.g ∧ HasGroup t c.g y ∧
    Moved x y c.slotB (lenBytes a.len) [.v d.toNat] ∧ ∀ l, l < 32 → y.getV d.toNat l =
      if x.active1 c.slotB a.hd l then (if n = 0 then w64 l else w64 ((Tab.get? x.thr l).getD 0)) else x.getV d.toNat l) ∧
  (∀ (d : BitVec 7) i len, srRead 0x042 x.level (.s d) = .ok → (i = .splitdwAccess none d ∧ len = 12) ∨
    (i = .sysrd a ∧ n = 0x042 ∧ a.dst = .s d ∧ x.uniPred a.hd = true ∧ len = lenBytes a.len) →
    ∃ t y, exec i s = .next t ∧ OnlyGroup s t c.g ∧ HasGroup t c.g y ∧
      Moved { x with splitIx := x.splitIx + 1 } y c.slotB len [.s d.toNat] ∧ y.getS d.toNat = x.splitWord x.splitIx.toNat) ∧
  s.srVal c x 0x002 = w64 (coreOf c.g * 2 ^ 16 + c.g % 48 / 12 * 2 ^ 14 + c.g % 48 * 2 ^ 8 + x.gid) ∧
  s.srVal c x 0x003 = w64 (s.blk x.blk).lin ∧ s.srVal c x 0x008 = w64 (s.blk x.blk).live ∧
  s.srVal c x 0x040 = x.splitSp.setWidth 64 ∧ s.srVal c x 0x050 = x.wsel.setWidth 64 ∧
  s.srVal c x 0x058 = x.ystate ∧ s.srVal c x 0x05A = x.fpst ∧ s.srVal c x 0x05C = x.gctl ∧ s.srVal c x 0x068 = x.mstat ∧
  s.srVal c x 0x110 = x.bank1.tcause ∧ s.srVal c x 0x11C = x.bank1.trmsk ∧ s.srVal c x 0x123 = x.bank2.tsave ∧
  s.srVal c x 0x300 = (s.ctx x.ctx).pdmask.setWidth 64 ∧ s.srVal c x 0x301 = (s.asidAt x.ctx (coreOf c.g)).setWidth 64 ∧
  s.srVal c x 0x308 = (s.ctx x.ctx).ctxsave ∧ s.srVal c x 0x30B = (s.ctx x.ctx).tvec1 ∧ s.srVal c x 0x402 = s.tick

/-- R318, R63, R168, R217, R224, R260, R304, R397: a write of a register of the group, by SYSWR, SPECIAL_REGISTER_WRITE,
SPLITDW_ACCESS or BATCH_REG_WRITE, gives that register the value's writable bits (a W1C bit clears where the value has a
one), moves past itself and changes no other register. Bits of MSTAT that an event of the same ACLK has set stay (R260).
R318, R230, R320: SYSWR of RSXST seeds the active lanes, zero storing 1. A write the group's level does not reach freezes the
group; a number that takes no write traps ILLOP. PMCRD reads and PMCWR writes a counter of the core's bank. That a false
predicate prevents the freeze is the model's reading (assumption 27). -/
def Obligations.GroupRegisterWrites : Prop :=
  (∀ i n v len s c x, Current s c x → RegWrite x i n v len →
  let gives (k : Nat) (x' : Group) : Prop := n = k → ∃ t y, exec i s = .next t ∧ OnlyGroup s t c.g ∧ HasGroup t c.g y ∧
    Moved x' y c.slotB len []
  gives 0x040 { x with splitSp := .ofNat 7 (min 64 (fld v 0 7)) } ∧
  gives 0x041 { x with splitIx := v.setWidth 8 } ∧
  gives 0x042 { x with split := Tab.set x.split 0 x.splitIx.toNat v, splitIx := x.splitIx + 1 } ∧
  gives 0x050 { x with wsel := v.setWidth 6 } ∧
  gives 0x05A { x with fpst := (x.fpst &&& ~~~(v &&& 0x1F) &&& ~~~0x1F00) ||| (v &&& 0x1F00) } ∧
  gives 0x05C { x with gctl := v &&& 1 } ∧
  (x.msAt ≠ some s.aclk → gives 0x068 { x with mstat := (x.mstat &&& ~~~(v &&& 0x1FF) &&& ~~~0x200) ||| (v &&& 0x200) }) ∧
  (n = 0x068 → x.msAt = some s.aclk → ∃ t y, exec i s = .next t ∧ OnlyGroup s t c.g ∧ HasGroup t c.g y ∧
    Moved { x with mstat := y.mstat } y c.slotB len [] ∧ bit64 y.mstat 9 = bit64 v 9 ∧
    ∀ b, b < 9 → bit64 y.mstat b = (bit64 x.mstat b && !bit64 v b || bit64 x.msNew b)) ∧
  gives 0x06E { x with mxsel := v.setWidth 11 } ∧
  gives 0x074 { x with gategrp := v.setWidth 9 } ∧
  gives 0x104 { x with tbase0 := v } ∧
  gives 0x111 { x with bank1 := { x.bank1 with tval := v } } ∧
  gives 0x113 { x with bank1 := { x.bank1 with tsave := v } } ∧
  gives 0x115 { x with bank1 := { x.bank1 with tpca := v &&& 0x80FFFFFFFFFFFFFC } } ∧
  gives 0x123 { x with bank2 := { x.bank2 with tsave := v } } ∧
  (n = 0x058 → ∃ y t, exec i s = .next t ∧ OnlyGroup s t c.g ∧ HasGroup t c.g y ∧
    Moved { x with ystate := y.ystate } y c.slotB len [] ∧ fld y.ystate 0 16 = fld v 0 16 ∧
    fld y.ystate 32 13 = fld v 32 13 ∧
    (256 ≤ fld v 16 13 → fld v 16 13 ≤ 4096 → fld v 16 13 % 256 = 0 → fld y.ystate 16 13 = fld v 16 13)) ∧
  (∀ k : BitVec 2, n = 0x070 + k.toNat → (x.bat k.toNat).out = 0 → ∃ t y, exec i s = .next t ∧ OnlyGroup s t c.g ∧
    HasGroup t c.g y ∧ Moved (x.setBat k.toNat { x.bat k.toNat with
      closed := .ofNat 16 (fld v 16 16), done := .ofNat 16 (fld v 16 16) }) y c.slotB len [])) ∧
  (∀ (a : CtlArgs) s c x, Current s c x →
  (∀ d, a.sa = .v d → srNum a = 0x060 → ∃ t y, exec (.syswr a) s = .next t ∧ OnlyGroup s t c.g ∧ HasGroup t c.g y ∧
    Moved { x with rsx := y.rsx } y c.slotB (lenBytes a.len) [] ∧ ∀ l, l < 32 → x.active1 c.slotB a.hd l = true →
      Tab.getD y.rsx 0 l = if (x.getV d.toNat l).setWidth 32 = (0 : W32) then 1 else (x.getV d.toNat l).setWidth 32) ∧
  (srWrite (srNum a) x.level a.sa = .illop →
    exec (.syswr a) s = .next (s.trapHere c 0x01 0 (w64 (encode (.syswr a) % 2 ^ 64)))) ∧
  (srWrite (srNum a) x.level a.sa = .freeze → x.uniPred a.hd = true → exec (.syswr a) s = .next (s.freeze c.g 2)) ∧
  (x.uniPred a.hd = true → ∃ t y, exec (.pmcrd a) s = .next t ∧ OnlyGroup s t c.g ∧ HasGroup t c.g y ∧
    Moved x y c.slotB (lenBytes a.len) (dstsOf a.dst) ∧
    ∀ n, a.dst = .s n → y.getS n.toNat = s.pmRead (coreOf c.g) x.ctx a.sub.toNat) ∧
  (x.uniPred a.hd = true → ∃ t y, exec (.pmcwr a) s = .next t ∧ t = { s with groups := t.groups, pms := t.pms } ∧
    OthersKept s t c.g ∧ HasGroup t c.g y ∧ Moved x y c.slotB (lenBytes a.len) [] ∧
    ((∃ p, p ∈ s.pms ∧ p.core = coreOf c.g ∧ p.ctx = x.ctx) → t.pmRead (coreOf c.g) x.ctx a.sub.toNat = x.srcS a.sa)))

/-- R318, R93, R35, R64, R166, R230, R251, R395, R411: a write of a register of the context, by SYSWR,
SPECIAL_REGISTER_WRITE, ASID_WRITE, AGSET_WRITE, WGRANT_WRITE or PMCFG_WRITE, gives that register the value's writable bits
and moves past itself; no other context, group or register changes. ASID traps PRIV when another context has the ASID, AGSET
when the entry cannot be changed, WGRANT when a channel cannot be granted. How the write of ASID reaches other cores, and
that WGRANT's acts at once, is the model's (assumptions 87, 89). -/
def Obligations.ContextRegisterWrites : Prop := ∀ i n v len s c x k, Current s c x → RegWrite x i n v len →
  Tab.get? s.ctxs x.ctx = some k →
  let priv : Prop := exec i s = .next (s.trapHere c 0x02 0 (w64 n))
  let gives (r : Nat) (k' : Ctx) : Prop := n = r → ∃ t y, exec i s = .next t ∧
    t = { s with groups := t.groups, ctxs := t.ctxs } ∧ OthersKept s t c.g ∧ HasGroup t c.g y ∧ Moved x y c.slotB len [] ∧
    Tab.get? t.ctxs x.ctx = some k' ∧ ∀ j, j ≠ x.ctx → Tab.get? t.ctxs j = Tab.get? s.ctxs j
  gives 0x308 { k with ctxsave := v &&& 0xFFFFFFFFFF0000 } ∧
  gives 0x309 { k with rsxseed := v &&& 0xFFFFFFFF } ∧
  gives 0x30A { k with mxctl := v &&& 1 } ∧
  gives 0x30B { k with tvec1 := v &&& 0xFFFFFFFFFFFFFC } ∧
  gives 0x30C { k with tvec2 := v &&& 0xFFFFFFFFFFFFFC } ∧
  (∀ e : BitVec 4, pmEvent (fld v 0 8) = true → gives (0x380 + e.toNat)
    { k with pmcfg := Tab.set k.pmcfg 0 e.toNat (v &&& 0xC0000FFF) }) ∧
  (∀ e : BitVec 5, n = 0x320 + e.toNat → s.agsetRefused x (coreOf c.g) e.toNat v = true → priv) ∧
  (∀ e : BitVec 5, s.agsetRefused x (coreOf c.g) e.toNat v = false → gives (0x320 + e.toNat)
    { k with agset := Tab.set k.agset 0 e.toNat (v &&& 0x81FF) }) ∧
  (n = 0x301 → s.asidTaken x.ctx v = true → priv) ∧
  (n = 0x301 → s.asidTaken x.ctx v = false → ∃ t y, exec i s = .next t ∧ OthersKept s t c.g ∧ HasGroup t c.g y ∧
    Moved x y c.slotB len [] ∧ t.mem = s.mem ∧ Tab.get? t.ctxs x.ctx = some { k with
      asid := v.setWidth 16, asidWas := some (k.asid, coreOf c.g, s.aclk) } ∧
    fld (Tab.getD (t.part k.pid).ctab 0 (8 * k.entry)) 48 16 = fld v 0 16) ∧
  (n = 0x350 → s.grantOk x.ctx (v &&& 0xFFFFFFFFFFFF) = false → priv) ∧
  (n = 0x350 → s.grantOk x.ctx (v &&& 0xFFFFFFFFFFFF) = true → ∃ t y, exec i s = .next t ∧ HasGroup t c.g y ∧
    t.mem = s.mem ∧ RegsKept x y [] ∧ Tab.get? t.ctxs x.ctx = some { k with wgrant := v &&& 0xFFFFFFFFFFFF })

/-- R318, R108, R169, R207, R368, R370, R407, R408: the writes of special registers, by SYSWR or by WCFG_WRITE,
SWBLK_BASE_WRITE, SWBLK_GO, HND_WRITE, GATEST_WRITE, LQDOOR, XMAP and SWPARK_WRITE, that act on the block, a channel, a queue
or a die: what each makes of its object; the group's registers stay. -/
def Obligations.ActingRegisterWrites : Prop := ∀ i n v len s c x b, Current s c x → RegWrite x i n v len →
  Tab.get? s.blocks x.blk = some b →
  let passes (more : State → Prop) : Prop := ∃ t y, exec i s = .next t ∧ OthersKept s t c.g ∧ HasGroup t c.g y ∧
    Moved x y c.slotB len [] ∧ t.mem = s.mem ∧ more t
  let key := if 32 ≤ x.wsel.toNat then 128 + x.wsel.toNat % 32 else dieOf c.g * 32 + x.wsel.toNat % 32
  let granted := bit64 (s.ctx x.ctx).wgrant ((if 32 ≤ x.wsel.toNat then 32 else 0) + x.wsel.toNat % 32) &&
    (s.part (s.ctx x.ctx).pid).holdsChan key
  (n = 0x351 → x.wsel.toNat < 48 → granted = true → passes fun t =>
    t.chan key =
      if (s.chan key).arrived = 0 ∧ fld v 0 14 ≤ (if 128 ≤ key then 12288 else 3072) ∧ fld v 20 4 ≤ 6 then
        { s.chan key with expect := fld v 0 14, op := .ofNat 4 (fld v 20 4) }
      else { s.chan key with cfgerr := true }) ∧
  (n = 0x351 → x.wsel.toNat < 48 → granted = false → exec i s = .next (s.freeze c.g 3)) ∧
  (n = 0x254 → bit64 v 2 = false → passes fun t =>
    Tab.get? t.blocks x.blk = some { b with swBase := v &&& 0xFFFFFFFFFFFC00, swArm := true }) ∧
  (n = 0x254 → bit64 v 2 = true → b.going = false → passes fun t => t.blocks = s.blocks) ∧
  (n = 0x254 → bit64 v 2 = true → b.going = true → ∃ t b', exec i s = .next t ∧ t.mem = s.mem ∧
    Tab.get? t.blocks x.blk = some b' ∧ b'.going = false ∧ b'.ready = true) ∧
  (∀ h : BitVec 4, n = 0x230 + h.toNat → (b.hnd h.toNat).isOp = false → (b.hnd h.toNat).wait = [] → passes fun t =>
    ∃ b', Tab.get? t.blocks x.blk = some b' ∧ b'.hnd h.toNat = { b.hnd h.toNat with
      state := .ofNat 2 (fld v 62 2), holder := fld v 54 7, size := .ofNat 22 (fld v 32 22), base := .ofNat 32 (fld v 0 32) }) ∧
  (∀ k : BitVec 3, n = 0x240 + k.toNat → s.gateWaited b k.toNat = false → fld v 0 7 < b.live → passes fun t =>
    ∃ b', Tab.get? t.blocks x.blk = some b' ∧ b'.gate k.toNat = ⟨.ofNat 16 (fld v 16 16), fld v 0 7⟩) ∧
  (n = 0x360 → s.writesOut c x = false → (s.queue (s.ctx x.ctx).pid (fld v 48 6)).asid = (s.ctx x.ctx).asid →
    passes fun t => (t.queue (s.ctx x.ctx).pid (fld v 48 6)).tail = fld v 0 48) ∧
  (n = 0x360 → s.writesOut c x = false → (s.queue (s.ctx x.ctx).pid (fld v 48 6)).asid ≠ (s.ctx x.ctx).asid →
    exec i s = .next (s.freeze c.g 4)) ∧
  (n = 0x048 → fld v 56 8 ≠ 0 ∨ fld v 0 16 ≠ 0 → ∃ t y, exec i s = .next t ∧ OnlyGroup s t c.g ∧ HasGroup t c.g y ∧
    Moved { x with xmapst := 6 } y c.slotB len []) ∧
  (n = 0x048 → vaCheck s (s.ctx x.ctx) (dieOf c.g) v = .ok → fld v 0 16 = 0 → s.pathDown (dieOf c.g) (vaDie v) = false →
    ∃ t r, exec i s = .next t ∧ OthersKept s t c.g ∧ t.mem = s.mem ∧ r ∈ (t.die (vaDie v)).xmapq ∧ r.g = c.g ∧ r.va = v ∧
      (∃ e, e ∈ t.agenda ∧ e.ev = .xmapServe (vaDie v)) ∧
      HasGroup t c.g (x.setSlot c.slotB { x.slot c.slotB with wait := .xmap, held := true, wlen := len })) ∧
  (n = 0x07C → x.level = 2 ∨ x.bLive = true ∨ x.pend.any Pend.openExch = true ∨ s.opsOut c.g = true →
    ∃ w, exec i s = .next (s.illop c w)) ∧
  (n = 0x07C → x.level = 1 → x.bLive = false → x.pend = [] → s.joined c.g = [] → s.opsOut c.g = false →
    let img := v &&& 0xFFFFFFFFFFFFC0
    (s.parkBehind c x = true → ∃ t, exec i s = .next t ∧ Waits s t c x (.park img) len) ∧
    (s.parkBehind c x = false → ∀ u, s.vwrite (dieOf c.g) (s.ctx x.ctx) img (imageRecord x) = (u, none) →
      (lastUnparked b x.gid = false → ∃ t b', exec i s = .next t ∧ Tab.get? t.groups c.g = none ∧
        Tab.get? t.blocks x.blk = some b' ∧ Tab.get? b'.places x.gid = some (.parked img)) ∧
      (lastUnparked b x.gid = true → b.swArm = false → ∃ t y b', exec i s = .next t ∧ HasGroup t c.g y ∧
        Moved x y c.slotB len [] ∧ Tab.get? t.blocks x.blk = some b' ∧ b'.swLead = some x.gid)))

/-- R319, R402, R403, R218: KILL ends the group's context with CEC KILL and its operand; a group past its deadline ends it
with YIELDOVR; the host's CTXKILL with HOST or, asked to retire an idle context, NORMAL. An end's record then takes away the
context and everything that it held, and tells the partition. The 1,024 ACLK to the record are the model's (assumption 65),
as is RETIRE's idleness (52). -/
def Obligations.ContextEnds : Prop :=
  (∀ (a : CtlArgs) s c x k, Current s c x → x.uniPred a.hd = true → Tab.get? s.ctxs x.ctx = some k → k.ending = none →
    ∃ t, exec (.kill a) s = .next t ∧
      Ends s t x.ctx 3 (grpid c.g x.gid) 0 (x.srcS a.sa) (x.slot c.slotB).ipc) ∧
  (∀ s g x k, HasGroup s g x → Tab.get? s.ctxs x.ctx = some k → k.ending = none →
    ∃ t, exec (.watchdogExpiry g) s = .next t ∧ Ends s t x.ctx 2 (grpid g x.gid) 0 0 (x.slot x.lastB).ipc) ∧
  (∀ s pid x j k, s.ctxOf pid (.ofNat 16 (fld x 48 16)) = some j → Tab.get? s.ctxs j = some k → k.ending = none →
    (∃ t, exec (.ctxkill pid x) s = .next t ∧ Ends s t j 4 0 0 0 0) ∧
    (∃ t, exec (.ctxkillRetire pid x) s = .next t ∧ Ends s t j (if s.ctxIdle j then 0 else 4) 0 0 0 0)) ∧
  (∀ s j k e, Tab.get? s.ctxs j = some k → k.ending = some e → ∃ t, exec (.contextEndRecord j) s = .next t ∧
    Tab.get? t.ctxs j = none ∧ (∀ g x, HasGroup t g x → x.ctx ≠ j) ∧
    (t.part k.pid).cehead = (s.part k.pid).cehead + 1 ∧
    fld (Tab.getD (t.part k.pid).cerec 0 ((s.part k.pid).cehead.toNat % 8 * 4 + 1)) 0 8 = e.1 % 256 ∧
    bit64 (t.part k.pid).pistat 0 = true)

/-! ## Memory forms (R18, R102, R347 to R359) -/

/-- R351, R353, R350: LD, LDW and LDNR. Lanes the core's checks turn away trap XLATE; LDNR's lanes of an absent die do not.
The others' access is outstanding: a line the L1 holds is read from it at issue, unless an earlier load of the line is still
outstanding (R138), and for every other line an RD that names its sector goes out. The order of a lane's checks is the
model's (assumption 29). -/
def Obligations.LoadForms : Prop := ∀ (a : MemArgs) s c x, Current s c x →
  let asid := s.asidAt x.ctx (coreOf c.g)
  let core := s.core (coreOf c.g)
  let on := Mask.lanes (x.actives c.slotB a.hd)
  let addr (l : Nat) : W64 := x.srcX a.sa l + a.e.disp.signExtend 64
  let near := s.before c x
  let hit (l : Nat) : Option L1Line :=
    if touchesLine (near.filter fun p => p.kind = .load) l then none else core.l1Find asid l a.e.ro
  let free (as : List LaneAcc) : Prop := orderWait near (memRel a) a.e.scope.toNat = false ∧
    s.foreignBytes c.g asid (as.filter fun e => e.lines.any fun l => (hit l).isSome) = false
  let goes (i : Instr) (as : List LaneAcc) (ds : List Dst) (ld : Opnd × Ty × Opnd) : Prop :=
    as ≠ [] → free as → ∃ t p, exec i s = .next t ∧ Accesses s t c x p false (memLen a) ∧ p.kind = .load ∧ p.dsts = ds ∧
      p.lanes = as ∧ p.ldst = some ld ∧
      (∀ l k, l ∈ accLines as → hit l = some k → Tab.get? p.got l = some k.data) ∧
      ∀ l, l ∈ accLines as → hit l = none → ∃ (m : BitVec 4) (rdc : Bool), m.toNat.testBit (l % 4) = true ∧
        (near = [] → rdc = true) ∧ Launched t (s.grpPkt c.g x x.nextTag (l / 4 * 512) .r rdc (.read m))
  let n := a.ty.width / 8
  let k := 2 ^ a.sub.toNat
  let each := on.map fun l => (⟨l, addr l, n⟩ : LaneAcc)
  let wide := on.map fun l => (⟨l, addr l + w64 (8 * k * l), 8 * k⟩ : LaneAcc)
  Refused s c x (.ld a) n each ∧ Refused s c x (.ldw a) 8 wide ∧
  (Passes s c x n each → goes (.ld a) each (dstsOf a.dst) (a.dst, a.ty, .none)) ∧
  (Passes s c x 8 wide → ∀ d, a.dst = .v d →
    goes (.ldw a) wide ((List.range k).map fun i => .v (d.toNat + i)) (a.dst, .u0, .none)) ∧
  (Passes s c x n each → goes (.ldnr a) each (dstsOf a.dst ++ dstsOf a.sc) (a.dst, a.ty, a.sc)) ∧
  (accFreezes s (s.ctx x.ctx) (dieOf c.g) n each = false → (∀ b, b ∈ accBad s (s.ctx x.ctx) (dieOf c.g) n each → b.subc = 3) →
    each ≠ [] → free (each.filter fun e => !((accBad s (s.ctx x.ctx) (dieOf c.g) n each).any fun b => b.lane = e.lane)) →
    ∃ t p y, exec (.ldnr a) s = .next t ∧ Sends s t c.g ∧ HasGroup t c.g y ∧ Moved (x.addPend p) y c.slotB (memLen a) [] ∧
      p.tag = x.nextTag ∧ p.kind = .load ∧ p.bad = accBad s (s.ctx x.ctx) (dieOf c.g) n each) ∧
  (on = [] → Skips s c x (.ld a) (memLen a) ∧ Skips s c x (.ldw a) (memLen a) ∧ Skips s c x (.ldnr a) (memLen a))

/-- R352, R350, R50: ST. For each 512-byte line its lanes write, a WR goes out with the line's bytes, a higher lane's over a
lower one's; the L1 of the core keeps none of their old bytes. That an L1 line is kept current so is the model's reading
(assumption 31). -/
def Obligations.StoreForms : Prop := ∀ (a : MemArgs) s c x, Current s c x →
  let asid := s.asidAt x.ctx (coreOf c.g)
  let n := a.ty.width / 8
  let as := (Mask.lanes (x.actives c.slotB a.hd)).map fun l =>
    (⟨l, x.srcX a.sa l + a.e.disp.signExtend 64, n⟩ : LaneAcc)
  Refused s c x (.st a) n as ∧ (as = [] → Skips s c x (.st a) (memLen a)) ∧
  (Passes s c x n as → as ≠ [] → orderWait (s.before c x) (memRel a) a.e.scope.toNat = false →
    ∃ t p, exec (.st a) s = .next t ∧ Accesses s t c x p false (memLen a) ∧ p.kind = .store ∧ p.dsts = [] ∧ p.lanes = as ∧
      ∀ e i, e ∈ as → i < n →
        (∀ f, f ∈ as → e.lane < f.lane → ¬ (f.addr.toNat ≤ e.addr.toNat + i ∧ e.addr.toNat + i < f.addr.toNat + n)) →
        let at' := e.addr.toNat + i
        let b : Byte := .ofNat 8 (memData x a.ty a.sb e.lane / 256 ^ i)
        (∃ bs, Tab.get? bs (at' % 512) = some b ∧
          Launched t (s.grpPkt c.g x x.nextTag (at' / 512 * 512) .w false (.write bs))) ∧
        ∀ k, k ∈ (t.core (coreOf c.g)).l1 → k.asid = asid → k.line = at' / 128 → at' % 128 < k.data.length →
          k.data[at' % 128]? = some b)

/-- R354, R355, R371: ATOM, ATOMR and CAS send one atomic for each active lane, with the lane's operands; ATOMS and CASS one
for the group, as number 32, when a lane is active; SIGSET and SIGADD one .SWAP or .ADD .N64. SIGWAIT waits, its object being
read at its home and its destination outstanding. The first five are switch points (R197). A .REL form that reads drops the
normal L1 first where its scope makes its fence an acquire (R51, R141, R143). SIGSET's and SIGADD's length is the model's
reading (assumption 28). -/
def Obligations.AtomicForms : Prop := ∀ (a : MemArgs) s c x, Current s c x →
  let n := a.ty.width / 8
  let addr (l : Nat) : W64 := x.srcX a.sa l + a.e.disp.signExtend 64
  let on := x.actives c.slotB a.hd
  let each := (Mask.lanes on).map fun l => (⟨l, addr l, n⟩ : LaneAcc)
  let one : List LaneAcc := [⟨32, addr 0, n⟩]
  let sig : List LaneAcc := [⟨32, x.srcS a.sa + a.e.disp.signExtend 64, 8⟩]
  let fences : Prop := memRel a = true ∧ acqInvalidates a.e.scope.toNat (s.blk x.blk).pair = true
  let sends (i : Instr) (rel sw : Bool) (need : Need) (as : List LaneAcc) (ret : Bool) (req : Nat → W64 → AtReq) : Prop :=
    orderWait (s.before c x) rel a.e.scope.toNat = false → (ret = true → ¬ fences) →
    ∃ t p, exec i s = .next t ∧ Accesses s t c x p sw (memLen a) ∧
      p.kind = (if ret then .atomic else .atomicNr) ∧ p.dsts = (if ret then dstsOf a.dst else []) ∧ p.lanes = as ∧
      ∀ e, e ∈ as → Launched t (s.grpPkt c.g x x.nextTag (e.addr.toNat / 512 * 512) need false (.atomic (req e.lane e.addr)))
  let first (i : Instr) : Prop := orderWait (s.before c x) true a.e.scope.toNat = false → fences →
    (x.slot c.slotB).inved = false → ∃ t y, exec i s = .next t ∧ t.mem = s.mem ∧ t.outbox = s.outbox ∧
      (t.core (coreOf c.g)).l1 = (s.core (coreOf c.g)).l1.filter (fun l => l.ro) ∧ HasGroup t c.g y ∧ RegsKept x y [] ∧
      s.aclk + 4 ≤ y.readyAt ∧ y.slot c.slotB = { x.slot c.slotB with held := true, inved := true, wlen := memLen a }
  let at' (ret cas : Bool) (l : Nat) (w : W64) : AtReq :=
    ⟨ret, a.ty, a.e.aop, cas, l, w, w64 (memData x a.ty a.sb (l % 32)),
      if cas then w64 (memData x a.ty a.sc (l % 32)) else 0⟩
  let sg (op : BitVec 4) (l : Nat) (w : W64) : AtReq := ⟨false, .n64, op, false, l, w, w64 (memData x .n64 a.sb 0), 0⟩
  Refused s c x (.atom a) n each ∧ Refused s c x (.atomr a) n each ∧ Refused s c x (.cas a) n each ∧
  (Passes s c x n each → each ≠ [] → first (.atom a) ∧ first (.cas a) ∧
    sends (.atom a) (memRel a) true .rw each true (at' true false) ∧
    sends (.atomr a) (memRel a) true .w each false (at' false false) ∧
    sends (.cas a) (memRel a) true .rw each true (at' true true)) ∧
  (on ≠ 0 → Passes s c x n one → first (.atoms a) ∧ first (.cass a) ∧
    sends (.atoms a) (memRel a) true .rw one true (at' true false) ∧
    sends (.cass a) (memRel a) true .rw one true (at' true true)) ∧
  (on = 0 → Skips s c x (.atoms a) (memLen a) ∧ Skips s c x (.cass a) (memLen a) ∧ Skips s c x (.atom a) (memLen a) ∧
    Skips s c x (.atomr a) (memLen a) ∧ Skips s c x (.cas a) (memLen a)) ∧
  (x.uniPred a.hd = true → Passes s c x 8 sig → sends (.sigset a) true false .rw sig false (sg 6) ∧
    sends (.sigadd a) true false .rw sig false (sg 0) ∧
    (orderWait (s.before c x) false a.e.scope.toNat = false → ∃ t p, exec (.sigwait a) s = .next t ∧ Sends s t c.g ∧
      HasGroup t c.g ((x.addPend p).setSlot c.slotB { x.slot c.slotB with wait := .sig (2 ^ 60), held := true, wlen := memLen a }) ∧
      p.kind = .sigread ∧ p.lanes = sig ∧ p.dsts = dstsOf a.dst ∧
      ∃ m, Launched t (s.grpPkt c.g x x.nextTag ((x.srcS a.sa + a.e.disp.signExtend 64).toNat / 512 * 512) .r false (.read m)))) ∧
  (x.uniPred a.hd = false → Skips s c x (.sigset a) (memLen a) ∧ Skips s c x (.sigadd a) (memLen a) ∧
    Skips s c x (.sigwait a) (memLen a))

/-- R31, R57, R59, R61, R351, R352: LDS and STS in the block's own arrays. A misaligned lane, or one outside the block's
windows, traps XLATE. A load reads its array's bytes at issue; a store is made at issue in arrays that take stores, a higher
lane's bytes over a lower one's, and each is answered 24 ACLK later, one more for each further granule of the busiest array.
No byte of device memory changes. -/
def Obligations.ScratchForms : Prop := ∀ (a : MemArgs) s c x, Current s c x →
  let n := a.ty.width / 8
  let b := s.blk x.blk
  let as := (Mask.lanes (x.actives c.slotB a.hd)).map fun l =>
    (⟨l, x.srcX a.sa l + a.e.disp.signExtend 64, n⟩ : LaneAcc)
  let own : Prop := ∀ e, e ∈ as → ∃ j i, s.scLoc b e.addr = .own j i ∧ (s.arr (b.arrKey j)).writable = true
  (scBad s b as ≠ [] → ∀ i, i = .lds a ∨ i = .sts a → ∃ w, w ∈ scBad s b as ∧
    exec i s = .next (s.trapMask c 0x04 w.subc.toNat w.addr (badMask (scBad s b as)))) ∧
  (as = [] → Skips s c x (.lds a) (memLen a) ∧ Skips s c x (.sts a) (memLen a)) ∧
  (as ≠ [] → scBad s b as = [] → own → orderWait (s.before c x) (memRel a) a.e.scope.toNat = false →
    (∃ t p y, exec (.lds a) s = .next t ∧
      GroupAndPosts s t c.g [(24 + scExtra s b as, .loadDataReturn c.g x.nextTag)] ∧
      HasGroup t c.g y ∧ Moved (x.addPend p) y c.slotB (memLen a) [] ∧ p.tag = x.nextTag ∧ p.kind = .load ∧
      p.dsts = dstsOf a.dst ∧ p.left = 1 ∧
      ∀ d, a.dst = .v d → ∀ e j i, e ∈ as → s.scLoc b e.addr = .own j i →
        .v d.toNat e.lane (extendWord a.ty (natOfBytes (s.arrBytes (b.arrKey j) i n))) ∈ p.wr) ∧
    (∃ t p y, exec (.sts a) s = .next t ∧ t.mem = s.mem ∧ t.dies = s.dies ∧ OthersKept s t c.g ∧
      t.agenda = s.posts [(24 + scExtra s b as, .storeAck c.g x.nextTag)] ∧
      HasGroup t c.g y ∧ Moved (x.addPend p) y c.slotB (memLen a) [] ∧ p.tag = x.nextTag ∧ p.kind = .store ∧ p.left = 1 ∧
      (∀ e j i k, e ∈ as → s.scLoc b e.addr = .own j i → k < n →
        (∀ f j' i', f ∈ as → e.lane < f.lane → s.scLoc b f.addr = .own j' i' →
          ¬ (b.arrKey j' = b.arrKey j ∧ i' ≤ i + k ∧ i + k < i' + n)) →
        t.arrByte (b.arrKey j) (i + k) = .ofNat 8 (memData x a.ty a.sb e.lane / 256 ^ k)) ∧
      ∀ m q, (∀ e j i k, e ∈ as → s.scLoc b e.addr = .own j i → k < n → ¬ (m = b.arrKey j ∧ q = i + k)) →
        t.arrByte m q = s.arrByte m q))

/-- R141, R143, R356 to R359: FENCE goes on once no access it orders is outstanding, invalidating the normal L1 where it is
an acquire of scope PAIR or wider; CFLUSH sends one flush for each 512-byte line; CINV drops the L1 lines of its lanes'
addresses, CINV.RO the read-only partition, CINV.I the context's instruction lines; a prefetch sends reads for lines not held
and never faults. -/
def Obligations.FenceAndCacheForms : Prop := ∀ (a : MemArgs) s c x, Current s c x →
  let asid := s.asidAt x.ctx (coreOf c.g)
  let on := x.actives c.slotB a.hd
  let at' (l : Nat) : W64 := x.srcX a.sa l + a.e.disp.signExtend 64
  let as := (Mask.lanes on).map fun l => (⟨l, at' l, 1⟩ : LaneAcc)
  let near := s.before c x
  let waits := (near.any fun p => p.inPred a.e.pset) && decide (1 ≤ a.e.scope.toNat ∧ a.e.sset ≠ 0)
  let drops (i : Instr) (l1 : List L1Line) (ic : List IcLine) : Prop := ∃ t y, exec i s = .next t ∧
    t = { s with groups := t.groups, cores := t.cores } ∧ OthersKept s t c.g ∧ HasGroup t c.g y ∧
    Moved { x with readyAt := y.readyAt, why := 11 } y c.slotB (memLen a) [] ∧ s.aclk + 4 ≤ y.readyAt ∧
    (t.core (coreOf c.g)).l1 = l1 ∧ (t.core (coreOf c.g)).ic = ic ∧ ∀ k, k ≠ coreOf c.g → t.core k = s.core k
  let old := s.core (coreOf c.g)
  (x.uniPred a.hd = true → waits = true → ∃ t, exec (.fence a) s = .next t ∧ Waits s t c x .acks (memLen a)) ∧
  (x.uniPred a.hd = true → waits = false → orderWait near false 0 = false →
    a.e.sset.toNat % 2 = 0 ∨ acqInvalidates a.e.scope.toNat (s.blk x.blk).pair = false → Skips s c x (.fence a) (memLen a)) ∧
  (x.uniPred a.hd = true → waits = false → orderWait near false 0 = false → a.e.sset.toNat % 2 = 1 →
    2 ≤ a.e.scope.toNat → ∃ t y, exec (.fence a) s = .next t ∧ t.mem = s.mem ∧ HasGroup t c.g y ∧ RegsKept x y [] ∧
      s.aclk + 4 ≤ y.readyAt ∧ (t.core (coreOf c.g)).l1 = old.l1.filter fun l => l.ro) ∧
  (on ≠ 0 → orderWait (s.before c x) (memRel a) a.e.scope.toNat = false →
    drops (.cinv a) (old.l1.filter fun l => !(l.asid = asid && (Mask.lanes on).any fun i => (at' i).toNat / 128 = l.line)) old.ic ∧
    drops (.cinvRo a) (old.l1.filter fun l => !l.ro) old.ic ∧
    drops (.cinvI a) old.l1 (old.ic.filter fun l => l.asid ≠ asid)) ∧
  (∀ inv, let i := if inv then .cflushInv a else .cflush a
    Refused s c x i 1 as ∧ (Passes s c x 1 as → as ≠ [] → orderWait (s.before c x) (memRel a) a.e.scope.toNat = false →
      ∃ t p, exec i s = .next t ∧ Accesses s t c x p false (memLen a) ∧ p.kind = .store ∧ p.dsts = [] ∧
        ∀ e, e ∈ as → Launched t (s.grpPkt c.g x x.nextTag (e.addr.toNat / 512 * 512) .r false (.flush inv)))) ∧
  (∀ i part, (i = .prefL1 a ∧ part = 0) ∨ (i = .prefRo a ∧ part = 1) ∨ (i = .prefL2 a ∧ part = 2) →
    ∃ t y, exec i s = .next t ∧ Sends s t c.g ∧ HasGroup t c.g y ∧ Moved x y c.slotB (memLen a) [] ∧
      ∀ e, e ∈ as → laneCheck s (s.ctx x.ctx) (dieOf c.g) 1 e = none →
        part = 2 ∨ old.l1Find asid (e.addr.toNat / 128) (part = 1) = none → ∃ m, Launched t
          { s.grpPkt c.g x 0 (e.addr.toNat / 512 * 512) .r true (.read m) with src := .pref c.g x.gid old.epoch part })

/-! ## Asynchronous forms, handles and barriers (R144, R360 to R371) -/

/-- R364: COPY. A length past 4 GiB traps ILLOP; a misaligned end traps XLATE, one on a die outside the partition freezes the
group, an invalid one traps XLATE at it; otherwise the copy is issued to the block's copy agent with the handle it names.
R365, R366: COPYG moves one element of 4·2^k bytes for each lane, at the lane's place after the group's base; COPYP moves
between a local range and a peer device. -/
def Obligations.CopyForms : Prop :=
  (∀ (a : MemArgs) s c x, Current s c x → x.uniPred a.hd = true →
  let d := x.srcS a.dst
  let r := x.srcS a.sa
  let m := (x.srcS a.sb).toNat
  let copies (i : Instr) (near far : ELoc) (cons : Bool) : Prop :=
    (2 ^ 32 < m → exec i s = .next (s.trapHere c 0x01 0 (w64 (encode i % 2 ^ 64)))) ∧
    (m ≤ 2 ^ 32 → d.toNat % 4 ≠ 0 ∨ m % 4 ≠ 0 → exec i s = .next (s.trapHere c 0x04 4 d)) ∧
    (m ≤ 2 ^ 32 → d.toNat % 4 = 0 → m % 4 = 0 → r.toNat % 4 ≠ 0 → exec i s = .next (s.trapHere c 0x04 4 r)) ∧
    (m ≤ 2 ^ 32 → d.toNat % 4 = 0 → m % 4 = 0 → r.toNat % 4 = 0 →
      (s.rangeSt x (dieOf c.g) far m = .freeze ∨ s.rangeSt x (dieOf c.g) near m = .freeze → exec i s = .next (s.freeze c.g 1)) ∧
      (∀ sc w, s.rangeSt x (dieOf c.g) far m = .ok → s.rangeSt x (dieOf c.g) near m = .bad sc w →
        exec i s = .next (s.trapHere c 0x04 sc w)) ∧
      (s.rangeSt x (dieOf c.g) far m = .ok → s.rangeSt x (dieOf c.g) near m = .ok →
        Issues s c x i 0 (.move near far m) (hndUse a.sc cons d m) (memLen a)))
  copies (.copyV2s a) (.sc d) (.va r) false ∧ copies (.copyS2v a) (.va d) (.sc r) true ∧
  copies (.copyV2v a) (.va d) (.va r) false ∧ copies (.copyS2s a) (.sc d) (.sc r) false) ∧
  (∀ (a : MemArgs) s c x, Current s c x → x.uniPred a.hd = true →
  let scr := decide (a.e.space = 1)
  let n := 4 * 2 ^ (a.sub.toNat % 8)
  let base := x.srcS a.dst
  let near (w : W64) : ELoc := if scr then .sc w else .va w
  let as := (Mask.lanes (x.slot c.slotB).lanes).map fun l => (⟨l, x.srcX a.sa l, n⟩ : LaneAcc)
  let cut (get : Bool) (e : LaneAcc) : List (ELoc × ELoc × Nat) :=
    if get then elemParts ((near base).plus (e.lane * n)) (.va e.addr) n
    else elemParts (.va e.addr) ((near base).plus (e.lane * n)) n
  let w (k : Nat) : W64 := match a.sa with | .s r => x.getS (r.toNat + k) | _ => 0
  let len := fld (w 2) 0 32
  let ok : Prop := Passes s c x (min n 8) as ∧ base.toNat % 4 = 0 ∧ s.rangeSt x (dieOf c.g) (near base) (32 * n) = .ok
  let okp (put : Bool) : Prop := fld (w 2) 43 21 = 0 ∧ (w 1).toNat % 4 = 0 ∧ len % 4 = 0 ∧ (w 3).toNat % 8 = 0 ∧
    s.rangeSt x (dieOf c.g) (near (w 1)) len = .ok ∧
    (put = true ∨ w 3 = 0 ∨ s.rangeSt x (dieOf c.g) (.va (w 3)) 8 = .ok)
  let peer (put : Bool) (d r : ELoc) : OpKind :=
    .peer put (decide (a.sub.toNat / 2 % 2 = 1)) (bit64 (w 2) 42) d r len (fld (w 2) 32 10) (w 3) (x.srcS a.sb)
  (ok → Issues s c x (.copygG a) 0 (.list (as.flatMap (cut true))) (hndUse a.sc false base (32 * n)) (memLen a) ∧
    Issues s c x (.copygS a) 0 (.list (as.flatMap (cut false))) (hndUse a.sc true base (32 * n)) (memLen a)) ∧
  (okp true → Issues s c x (.copypPut a) 3 (peer true (.remote (w 0)) (near (w 1))) (hndUse a.sc true (w 1) len) (memLen a)) ∧
  (okp false → Issues s c x (.copypGet a) 3 (peer false (near (w 1)) (.remote (w 0))) (hndUse a.sc false (w 1) len) (memLen a)) ∧
  (fld (w 2) 43 21 ≠ 0 → exec (.copypPut a) s = .next (s.trapHere c 0x01 0 (w64 (encode (.copypPut a) % 2 ^ 64))) ∧
    exec (.copypGet a) s = .next (s.trapHere c 0x01 0 (w64 (encode (.copypGet a) % 2 ^ 64)))))

/-- R361 to R363: BATCH closes the class's operations into the next batch and gives its number. WAITB and WAITC go on when
the batches they name are complete, take the first fault kept for them as a deferred trap, wait where they are not, and trap
ILLOP for a batch not closed yet or a count past 32,767. R367, R368: HACQ.DRAIN takes a full handle and gives its base;
HACQ.FILL takes a free one for a range of the block's scratch; HREL, by the group that holds it, makes a filled handle full
and a drained one free; HSTAT reads its word. -/
def Obligations.BatchAndHandleForms : Prop :=
  (∀ (a : MemArgs) s c x, Current s c x → x.uniPred a.hd = true →
  let k := a.e.eng.toNat
  let b := x.bat k
  let v := x.srcS a.sa + a.e.disp.signExtend 64
  let n : BitVec 16 := v.setWidth 16
  let ahead : Prop := 1 ≤ (n - b.closed).toNat ∧ (n - b.closed).toNat < 2 ^ 15
  let behind : Prop := (b.done - n).toNat < 2 ^ 15
  let few : Prop := (b.closed - b.done).toNat ≤ v.toNat
  let goes (i : Instr) : Prop :=
    (b.faults = [] → Skips s c x i (memLen a)) ∧
    (∀ m d r, b.faults = (some m, d) :: r → (b.done - m).toNat < 2 ^ 15 → d.cause ≠ 0x0C → d.mask = none →
      ∃ y, exec i s = .next ((s.setGrp c.g y).raise c.g { x.trapOf c.slotB d.cause.toNat d.subc.toNat d.val
        (x.slot c.slotB).exm with defer := true }) ∧ (y.bat k).closed = b.closed ∧ RegsKept x y [])
  ((b.closed - b.done).toNat ≠ 32767 → ∃ t y, exec (.batch a) s = .next t ∧ t = { s with groups := t.groups, ops := t.ops } ∧
    OthersKept s t c.g ∧ HasGroup t c.g y ∧ RegsKept x y (dstsOf a.dst) ∧ (y.bat k).closed = b.closed + 1 ∧
    (y.bat k).cur = [] ∧ ∀ r, a.dst = .s r → y.getS r.toNat = (b.closed + 1).setWidth 64) ∧
  (ahead → exec (.waitb a) s = .next (s.trapHere c 0x01 0 (w64 (encode (.waitb a) % 2 ^ 64)))) ∧
  (¬ ahead → behind → goes (.waitb a)) ∧
  (¬ ahead → ¬ behind → ∃ t, exec (.waitb a) s = .next t ∧ Waits s t c x (.batch k n.toNat) (memLen a)) ∧
  (32767 < v.toNat → exec (.waitc a) s = .next (s.trapHere c 0x01 0 (w64 (encode (.waitc a) % 2 ^ 64)))) ∧
  (v.toNat ≤ 32767 → few → goes (.waitc a)) ∧
  (v.toNat ≤ 32767 → ¬ few → ∃ t m, exec (.waitc a) s = .next t ∧ Waits s t c x (.batch k m) (memLen a))) ∧
  (∀ (a : MemArgs) (h : BitVec 4) s c x b, Current s c x → x.uniPred a.hd = true →
  a.sa = .hnd h → Tab.get? s.blocks x.blk = some b →
  let q := b.hnd h.toNat
  let goes (i : Instr) (ds : List Dst) (q' : Hnd → Prop) (post : Group → Prop) : Prop :=
    ∃ t y b', exec i s = .next t ∧
      t = { s with groups := t.groups, cores := t.cores, blocks := t.blocks, agenda := t.agenda } ∧ HasGroup t c.g y ∧
      RegsKept x y ds ∧ (y.slot c.slotB).wait = .none ∧
      Tab.get? t.blocks x.blk = some b' ∧ q' (b'.hnd h.toNat) ∧ post y
  (s.hndTurn c x.blk h.toNat true = true → goes (.hacqDrain a) (dstsOf a.dst)
    (fun q' => q'.state = 3 ∧ q'.isOp = false ∧ q'.holder = x.gid ∧ q'.base = q.base ∧ q'.size = q.size)
    (fun y => ∀ r, a.dst = .s r → y.getS r.toNat = q.base.setWidth 64)) ∧
  (s.scRange b (x.srcS a.sb) (x.srcS a.sc).toNat = false →
    exec (.hacqFill a) s = .next (s.trapHere c 0x04 1 (x.srcS a.sb))) ∧
  (s.scRange b (x.srcS a.sb) (x.srcS a.sc).toNat = true → s.hndTurn c x.blk h.toNat false = true → goes (.hacqFill a) []
    (fun q' => q'.state = 1 ∧ q'.isOp = false ∧ q'.holder = x.gid ∧ q'.base = (x.srcS a.sb).setWidth 32 ∧
      q'.size = (x.srcS a.sc).setWidth 22) (fun _ => True)) ∧
  (q.isOp = true ∨ q.holder ≠ x.gid ∨ (q.state ≠ 1 ∧ q.state ≠ 3) →
    exec (.hrel a) s = .next (s.trapHere c 0x01 0 (w64 (encode (.hrel a) % 2 ^ 64)))) ∧
  (q.isOp = false → q.holder = x.gid → q.state = 1 ∨ q.state = 3 → s.before c x = [] → goes (.hrel a) []
    (fun q' => q'.state = (if q.state = 1 then 2 else 0) ∧ q'.isOp = false ∧ q'.base = q.base ∧ q'.size = q.size)
    (fun _ => True)) ∧
  (∃ t y, exec (.hstat a) s = .next t ∧ OnlyGroup s t c.g ∧ HasGroup t c.g y ∧
    Moved x y c.slotB (memLen a) (dstsOf a.dst) ∧ ∀ r, a.dst = .s r → y.getS r.toNat =
      w64 (q.state.toNat * 2 ^ 62 + b2n q.isOp * 2 ^ 61 + q.holder % 128 * 2 ^ 54 + q.size.toNat * 2 ^ 32 + q.base.toNat)))

/-- R369, R141, R143: GATE. A number past 7, or an arrival with slot B live, traps ILLOP; an arrival waits until the accesses
before it are performed, then, in a block of a core pair, invalidates the normal L1 once, and waits behind an arrival of its
own. PASS then arrives and waits for the phase to pass, MARK arrives and goes on with the phase's number, HOLD waits for a
phase that has not passed and goes on past one that has. R370, R200: GGATE. PASS arrives at the gang's barrier and waits,
MARK arrives and goes on with the phase, HOLD waits for its phase; an arrival's fence invalidates the normal L1 first (R141,
R143), and an arrival with slot B live traps ILLOP. R369, R370: a release lets a group go on that waits at the barrier for a
phase that has passed; a straddling gang's message closes its phase, whose release follows 112 ACLK later. The 112 ACLK from
the cross-die message are the model's part of R370's time (assumption 66). -/
def Obligations.BarrierForms : Prop :=
  (∀ (a : MemArgs) s c x b, Current s c x → x.uniPred a.hd = true →
  Tab.get? s.blocks x.blk = some b →
  let n := (x.srcS a.sb).toNat
  let ph := (b.gate n).phase
  let acc := !(s.before c x).isEmpty
  let ill (i : Instr) : Prop := exec i s = .next (s.trapHere c 0x01 0 (w64 (encode i % 2 ^ 64)))
  let waits (i : Instr) (w : Wait) : Prop := ∃ t, exec i s = .next t ∧ Waits s t c x w (memLen a)
  let ready := !b.pair || (x.slot c.slotB).inved
  let alone : Prop := ∀ g z, g ∈ b.resident → HasGroup s g z → z.atRend = false
  let drops (i : Instr) : Prop := ∃ t y, exec i s = .next t ∧ HasGroup t c.g y ∧ RegsKept x y [] ∧
    y.slot c.slotB = { x.slot c.slotB with held := true, inved := true, wlen := memLen a } ∧ s.aclk + 4 ≤ y.readyAt ∧
    (t.core (coreOf c.g)).l1 = (s.core (coreOf c.g)).l1.filter (fun l => l.ro) ∧ t.blocks = s.blocks
  (8 ≤ n → ill (.gatePass a) ∧ ill (.gateMark a) ∧ ill (.gateHold a)) ∧
  (n < 8 → x.bLive = true → ill (.gatePass a) ∧ ill (.gateMark a)) ∧
  (n < 8 → x.bLive = false → (x.slot c.slotB).wph = none → acc = true → waits (.gatePass a) .acks ∧ waits (.gateMark a) .acks) ∧
  (n < 8 → x.bLive = false → (x.slot c.slotB).wph = none → acc = false → ready = false →
    drops (.gatePass a) ∧ drops (.gateMark a)) ∧
  (n < 8 → x.bLive = false → (x.slot c.slotB).wph = none → acc = false → ready = true → alone → x.arrived n = true →
    waits (.gatePass a) (.gateBusy n) ∧ waits (.gateMark a) (.gateBusy n)) ∧
  (n < 8 → x.bLive = false → (x.slot c.slotB).wph = none → acc = false → ready = true → alone → x.arrived n = false →
    (∃ t y, exec (.gatePass a) s = .next t ∧ HasGroup t c.g y ∧ Arrives s t x y b n ∧ RegsKept x y [] ∧
      y.slot c.slotB = { x.slot c.slotB with wait := .gate n ph true, held := true, wlen := memLen a }) ∧
    (∃ t y, exec (.gateMark a) s = .next t ∧ HasGroup t c.g y ∧ Arrives s t x y b n ∧ RegsKept x y (dstsOf a.dst) ∧
      y.slot c.slotB = (x.slot c.slotB).goTo (x.nextPc c.slotB (memLen a)) ∧
      ∀ r, a.dst = .s r → y.getS r.toNat = ph.setWidth 64)) ∧
  (n < 8 → acc = false → alone →
    let p : BitVec 16 := (x.srcS a.sa).setWidth 16
    (ph = p → waits (.gateHold a) (.gate n p false)) ∧
    (ph ≠ p → ∃ t y, exec (.gateHold a) s = .next t ∧ HasGroup t c.g y ∧ t.mem = s.mem ∧ RegsKept x y [] ∧
      (x.bLive = false → y.slot c.slotB = (x.slot c.slotB).goTo (x.nextPc c.slotB (memLen a)))))) ∧
  (∀ (a : MemArgs) s c x b, Current s c x → x.uniPred a.hd = true →
  Tab.get? s.blocks x.blk = some b →
  let g := s.gang b.gang
  let acc := !(s.before c x).isEmpty
  let ill (i : Instr) : Prop := exec i s = .next (s.trapHere c 0x01 0 (w64 (encode i % 2 ^ 64)))
  let waits (i : Instr) (w : Wait) : Prop := ∃ t, exec i s = .next t ∧ Waits s t c x w (memLen a)
  let more : Prop :=
    (if b.rank < 8 then g.arr0 else g.arr1) + 1 < s.gangLive g (b.rank / 8) ∧ b.rank < 16
  let counted (t : State) : Prop := t.gang b.gang =
    if b.rank < 8 then { g with arr0 := g.arr0 + 1 } else { g with arr1 := g.arr1 + 1 }
  (x.bLive = true → ill (.ggatePass a) ∧ ill (.ggateMark a)) ∧
  (x.bLive = false → (x.slot c.slotB).wph = none → acc = true → waits (.ggatePass a) .acks ∧ waits (.ggateMark a) .acks) ∧
  (x.bLive = false → (x.slot c.slotB).wph = none → acc = false → (x.slot c.slotB).inved = false →
    ∀ i, i = .ggatePass a ∨ i = .ggateMark a → ∃ t y, exec i s = .next t ∧ HasGroup t c.g y ∧ RegsKept x y [] ∧
      y.slot c.slotB = { x.slot c.slotB with held := true, inved := true, wlen := memLen a } ∧ s.aclk + 4 ≤ y.readyAt ∧
      (t.core (coreOf c.g)).l1 = (s.core (coreOf c.g)).l1.filter (fun l => l.ro) ∧ t.gangs = s.gangs) ∧
  (x.bLive = false → (x.slot c.slotB).wph = none → acc = false → (x.slot c.slotB).inved = true → x.arrived 8 = false → more →
    (∃ t y, exec (.ggatePass a) s = .next t ∧ counted t ∧ HasGroup t c.g y ∧ y.arrived 8 = true ∧ RegsKept x y [] ∧
      y.slot c.slotB = { x.slot c.slotB with wait := .ggate g.phase true, held := true, wlen := memLen a }) ∧
    (∃ t y, exec (.ggateMark a) s = .next t ∧ counted t ∧ HasGroup t c.g y ∧ y.arrived 8 = true ∧
      RegsKept x y (dstsOf a.dst) ∧ ∀ r, a.dst = .s r → y.getS r.toNat = g.phase.setWidth 64)) ∧
  (acc = false →
    let p : BitVec 16 := (x.srcS a.sa).setWidth 16
    (g.phase = p → waits (.ggateHold a) (.ggate p false)) ∧
    (g.phase ≠ p → ∃ t y, exec (.ggateHold a) s = .next t ∧ HasGroup t c.g y ∧ t.mem = s.mem ∧ RegsKept x y [] ∧
      (x.bLive = false → y.slot c.slotB = (x.slot c.slotB).goTo (x.nextPc c.slotB (memLen a)))))) ∧
  ((∀ s k n b g x p pass, Tab.get? s.blocks k = some b → HasGroup s g x → g ∈ b.resident → x.bLive = false → x.a.re = none →
    x.a.wait = .gate n p pass → p ≠ (b.gate n).phase →
    ∃ t y, exec (.gateRelease k n) s = .next t ∧ HasGroup t g y ∧ RegsKept x y [] ∧ y.a.wait = .none ∧
      y.a.pc = x.a.pc + w64 x.a.wlen) ∧
  (∀ s k b e g x p pass, e ∈ (s.gang k).blks → Tab.get? s.blocks e.2 = some b → HasGroup s g x → g ∈ b.resident →
    x.bLive = false → x.a.re = none → x.a.wait = .ggate p pass → p ≠ (s.gang k).phase →
    ∃ t y, exec (.ggateRelease k) s = .next t ∧ HasGroup t g y ∧ RegsKept x y [] ∧ y.a.wait = .none ∧
      y.a.pc = x.a.pc + w64 x.a.wlen) ∧
  (∀ s k, ∃ t, exec (.ggateCrossDie k) s = .next t ∧
    t.gang k = { s.gang k with phase := (s.gang k).phase + 1, arr0 := 0, arr1 := 0, crossed := false } ∧
    t.agenda = s.posts [(112, .ggateRelease k)] ∧ t.mem = s.mem ∧ t.blocks = s.blocks))

/-! ## Matrix, Agate and Welt forms (R112 to R127, R163 to R182, R372 to R394) -/

/-- R256, R367, R372 to R381: the forms of class MATRIX that issue an operation to their core's sequencer. Where a form's
checks fail it traps with no effect; otherwise it waits for its handle and then behind its group's own running loop, and the
operation is issued. R260, R384, R385: MSTAT reads the status as it was before the ACLK's events and clears the bits its
operand names; what an event of the same ACLK set stays. MPROG traps PRIV at level 0; above it MPROG.RD reads MPROG0 to
MPROG3 into four registers and MPROG.WR writes them, reserved bits apart. TVAL of MPROG's trap is a free value (assumption
18). -/
def Obligations.MatrixForms : Prop :=
  (∀ (a : MatArgs) s c x, Current s c x → x.uniPred a.hd = true →
  Tab.get? s.ops s.nextId = none →
  let b := s.blk x.blk
  let core := coreOf c.g
  let e := a.e
  let n := e.ksm1.toNat + 1
  let t := e.tile.toNat
  let u := e.arr.toNat
  let at' (w : W64) : ELoc := if e.scr then .sc w else .va w
  let w (k : Nat) : W64 := match a.sa with | .s r => x.getS (r.toNat + k) | _ => 0
  let p := x.srcS a.sa
  let q := x.srcS a.sb
  let len := matLen a
  let ok (l : ELoc) (m : Nat) : Prop := s.rangeSt x (dieOf c.g) l m = .ok
  let bad (i : Instr) : Prop := exec i s = .next (s.trapHere c 0x0C 0 0)
  let l := s.loopNow (s.ctx x.ctx) b (loopOf a x)
  let apart : Prop := t = u ∨ t + n ≤ u ∨ u + n ≤ t
  ((p.toNat % 8 = 0 → ok (.va p) 128 → Issues s c x (.mppt a) 1 (.mppt p) none len) ∧
    (cfgLegal (w 1) (w 2) = true → Issues s c x (.mcfg a) 1 (.mcfg (w 0) (w 1) (w 2)) none len) ∧
    (cfgLegal (w 1) (w 2) = false → bad (.mcfg a)) ∧
    (arrHere b core u = true → p.toNat % 4 = 0 → q.toNat % 8 = 0 → ok (at' p) (admitBytes e.bt e.ww).1 →
      ok (at' q) (admitBytes e.bt e.ww).2 →
      Issues s c x (.madmit a) 1 (.madmit u (at' p) (at' q) e.bt e.ww) (hndUse a.sc true 0 0) len) ∧
    (arrHere b core u = true → Issues s c x (.mrelease a) 1 (.mrelease u) none len ∧
      Issues s c x (.mstest a) 1 (.mstest u) none len) ∧
    (arrHere b core u = false → bad (.mrelease a) ∧ bad (.mstest a)) ∧
    (loopFixed b core l = true → loopVaries b core l = true → p.toNat % 4 = 0 → fld q 32 32 % 4 = 0 → fld q 0 32 % 4 = 0 →
      ok l.range.1 l.range.2 → Issues s c x (.mloop a) 1 (.mloop l) (hndUse a.sc true 0 0) len) ∧
    (ok l.range.1 l.range.2 → loopFixed b core l = false ∨ loopVaries b core l = false → bad (.mloop a)) ∧
    (n ≤ 16 → tilesOk b core t n = true → Issues s c x (.maclr a) 1 (.maclr t n) none len) ∧
    (16 < n ∨ tilesOk b core t n = false → bad (.maclr a) ∧ bad (.mamovCpy a) ∧ bad (.mamovAdd a)) ∧
    (n ≤ 16 → tilesOk b core t n = true → tilesOk b core u n = true → apart →
      Issues s c x (.mamovCpy a) 1 (.mamov false t u n) none len ∧ Issues s c x (.mamovAdd a) 1 (.mamov true t u n) none len) ∧
    (¬ apart → bad (.mamovCpy a) ∧ bad (.mamovAdd a)) ∧
    (n ≤ 16 → tilesOk b core t n = true → p.toNat % 4 = 0 → ok (at' p) (4096 * n) →
      Issues s c x (.maload a) 1 (.move (.tile t 0 .f32 .rne false) (at' p) (4096 * n)) none len) ∧
    (n ≤ 16 → tilesOk b core t n = true → storeLegal (Tab.getD (s.ctx x.ctx).ppt 0 e.prof.toNat) = true →
      p.toNat % (a.ty.width / 8) = 0 → ok (at' p) (1024 * (a.ty.width / 8) * n) →
      Issues s c x (.mastore a) 1 (.mastore a.ty (at' p) t n e.prof.toNat) none len))) ∧
  (∀ (a : MatArgs) s c x, Current s c x → x.uniPred a.hd = true →
  (∃ t y, exec (.mstat a) s = .next t ∧ OnlyGroup s t c.g ∧ HasGroup t c.g y ∧
    Moved { x with mstat := y.mstat } y c.slotB 8 (dstsOf a.dst) ∧
    (x.msAt ≠ some s.aclk → y.mstat = x.mstat &&& ~~~(x.srcS a.sa &&& 0x1FF) ∧
      ∀ n, a.dst = .s n → y.getS n.toNat = x.mstat) ∧
    (x.msAt = some s.aclk → (∀ k, k < 9 →
        bit64 y.mstat k = ((bit64 x.mstat k && !bit64 (x.srcS a.sa) k) || bit64 x.msNew k)) ∧
      ∀ n, a.dst = .s n → y.getS n.toNat = x.msOld)) ∧
  (x.level = 0 → exec (.mprogRd a) s = .next (s.tickFree.trapHere c 0x02 0 (Config.privTval s.fresh)) ∧
    exec (.mprogWr a) s = .next (s.tickFree.trapHere c 0x02 0 (Config.privTval s.fresh))) ∧
  (x.level ≠ 0 → s.loopRuns c.g = true → ∀ i, i = .mprogRd a ∨ i = .mprogWr a →
    ∃ t, exec i s = .next t ∧ Waits s t c x .loop 8) ∧
  (∀ n, a.dst = .s n → x.level ≠ 0 → s.loopRuns c.g = false → ∃ t y, exec (.mprogRd a) s = .next t ∧ OnlyGroup s t c.g ∧
    HasGroup t c.g y ∧ Moved x y c.slotB 8 ((List.range 4).map fun i => .s (n.toNat + i)) ∧
    y.getS n.toNat = x.mprog0 ∧ y.getS (n.toNat + 1) = x.mprog1 ∧ y.getS (n.toNat + 2) = x.mprog2 ∧
    y.getS (n.toNat + 3) = x.mprog3) ∧
  (∀ n, a.sa = .s n → x.level ≠ 0 → s.loopRuns c.g = false → ∃ t y, exec (.mprogWr a) s = .next t ∧ OnlyGroup s t c.g ∧
    HasGroup t c.g y ∧ Moved { x with
      mprog0 := x.getS n.toNat &&& 0xC0FFFFFFFFFFFFFF, mprog1 := x.getS (n.toNat + 1),
      mprog2 := x.getS (n.toNat + 2) &&& 0xFFFFFFFFFF80, mprog3 := x.getS (n.toNat + 3) &&& 0xFFFFC0 } y c.slotB 8 []))

/-- R115, R119, R122 to R125, R387 to R391: the Agate forms. Where no active lane's checks fail, one command goes to each
bank its lanes name, that of the lowest of those lanes; a lane whose bank-set index is no valid entry traps XLATE. A bank
outside the context's dies is the model's reading (assumption 96). -/
def Obligations.AgateForms : Prop := ∀ (a : AgtArgs) s c x, Current s c x → Tab.get? s.ops s.nextId = none →
  let on := x.actives c.slotB a.hd
  let e := a.e
  let w := e.wm1.toNat + 1
  let m := mwBits e.mw.toNat
  let ix (l : Nat) : W64 := x.srcX a.sa l
  let b (l : Nat) : W64 := x.srcX a.sb l
  let r (l : Nat) : W64 := x.srcX a.sc l
  let sends (i : Instr) (data : Bool) (ok : Nat → Prop) (cmd : Nat → AgCmd) : Prop :=
    ((∀ l, Mask.has on l = true → s.agIndex x.ctx (coreOf c.g) data (ix l) = none ∧ ok l) →
      ∃ todo, Issues s c x i 2 (.agate todo (todo.map Prod.fst)) none (agtLen a) ∧
        ∀ l, Mask.has on l = true → (∀ k, k < l → Mask.has on k = true → ix k ≠ ix l) →
          ∃ p, (agBank (Tab.getD (s.ctx x.ctx).agset 0 (ix l).toNat), p) ∈ todo ∧ p.cmd = cmd l ∧ p.ctx = x.ctx ∧
            p.ix = (ix l).toNat ∧ ∀ k, Mask.has p.mask k = (Mask.has on k && ix k = ix l))
  let index (i : Instr) : Prop := ∀ l, Mask.has on l = true →
    32 ≤ (ix l).toNat ∨ bit64 (Tab.getD (s.ctx x.ctx).agset 0 (ix l).toNat) 15 = false →
    ∃ v k, exec i s = .next (s.trapMask c 0x04 1 v k) ∧ Mask.has k l = true ∧ ∃ j, Mask.has k j = true ∧ v = ix j
  let moves (l : Nat) : Prop :=
    let l0 := fld (r l) 0 16
    let n := fld (r l) 16 16
    e.hd.toNat + w ≤ 512 ∧ n ≠ 0 ∧ l0 + n ≤ 16384 ∧ (m = 1 → l0 % 8 = 0 ∧ n % 8 = 0) ∧
    (8 ≤ m → (b l).toNat % (m / 8) = 0) ∧ s.rangeIn x.ctx 0 (dieOf c.g) (.va (b l)) ((n * m + 7) / 8) = .ok
  let op (_ : Nat) : Prop :=
    let wd := if a.sub = 7 ∨ a.sub = 8 then 1 else w
    let src := [(e.ha.toNat, w)] ++ (if (agopUses a.sub.toNat).1 then [(e.hb.toNat, w)] else []) ++
      (if (agopUses a.sub.toNat).2.1 then [(e.hm.toNat, 1)] else [])
    e.hd.toNat + wd ≤ 512 ∧ ∀ q, q ∈ src → q.1 + q.2 ≤ 512 ∧
      ((e.hd.toNat = q.1 ∧ wd = q.2) ∨ q.1 + q.2 ≤ e.hd.toNat ∨ e.hd.toNat + wd ≤ q.1)
  sends (.agon a) false (fun _ => True) (fun _ => .on) ∧ sends (.agoff a) false (fun _ => True) (fun _ => .off) ∧
  sends (.agld a) true moves (fun l => .ld e.hd.toNat w e.sgn m (b l) (fld (r l) 0 16) (fld (r l) 16 16)) ∧
  sends (.agst a) true moves (fun l => .st e.hd.toNat w e.sgn m (b l) (fld (r l) 0 16) (fld (r l) 16 16)) ∧
  sends (.agop a) true op
    (fun l => .op a.sub.toNat e.hd.toNat e.ha.toNat e.hb.toNat e.hm.toNat w e.sgn e.k.toNat (b l)) ∧
  sends (.agred a) true (fun l => e.hd.toNat + w ≤ 512 ∧ (b l).toNat % 8 = 0 ∧
    s.rangeIn x.ctx 0 (dieOf c.g) (.va (b l)) 8 = .ok) (fun l => .red e.hd.toNat w e.sgn (b l)) ∧
  index (.agon a) ∧ index (.agoff a)

/-- R163, R167, R171, R175, R182, R392 to R394: Welt. A channel not granted freezes the group, or keeps waiting one whose
wait had begun (R166); one with EXPECT 0, or an arrival with slot B live, traps ILLOP. WBCAST and WRED leave in the ACLK
after issue, WBAR once its fence is done, and until then their destination is outstanding; WWAIT and WRECV wait for a phase
that has not passed, and WRECV gives the phase's result. WTICK reads the tick. -/
def Obligations.WeltForms : Prop := ∀ (a : WltArgs) s c x, Current s c x → x.uniPred a.hd = true →
  let key := if a.pk then 128 + a.ch.toNat else dieOf c.g * 32 + a.ch.toNat
  let ch := s.chan key
  let k := s.ctx x.ctx
  let granted := bit64 k.wgrant ((if a.pk then 32 else 0) + a.ch.toNat) && (s.part k.pid).holdsChan key
  let acc := !(s.before c x).isEmpty
  let ph : BitVec 16 := (x.srcS a.sa).setWidth 16
  let ill (i : Instr) : Prop := exec i s = .next (s.trapHere c 0x01 0 (w64 (encode i % 2 ^ 64)))
  let waits (i : Instr) (w : Wait) : Prop := ∃ t, exec i s = .next t ∧ Waits s t c x w 8
  let out (p : Pend) (k : WKind) : Prop := p.tag = x.nextTag ∧ p.dsts = dstsOf a.dst ∧ p.arrive = some (key, a.dst, k)
  let arrives (i : Instr) (k : WKind) : Prop :=
    ∃ t y p, exec i s = .next t ∧ t = { s with groups := t.groups, agenda := t.agenda, pms := t.pms } ∧ OthersKept s t c.g ∧
      HasGroup t c.g y ∧ Moved (x.addPend p) y c.slotB 8 [] ∧ out p k ∧
      t.agenda = s.posts [(1, .resultWriteback c.g x.nextTag)]
  let recv (i : Instr) (v : W64) : Prop :=
    (ch.cPhase ≠ ph → ∃ t y, exec i s = .next t ∧ OnlyGroup s t c.g ∧ HasGroup t c.g y ∧
      Moved x y c.slotB 8 (dstsOf a.dst) ∧ ∀ d, a.dst = .s d → y.getS d.toNat = v)
  let all : List Instr := [.wbar a, .wbcast a, .wred a, .wwait a, .wrecvB a, .wrecvR a]
  (x.bLive = true → ill (.wbar a) ∧ ill (.wbcast a) ∧ ill (.wred a)) ∧
  (x.bLive = false → granted = false → (x.slot c.slotB).held = false → ∀ i, i ∈ all → exec i s = .next (s.freeze c.g 3)) ∧
  (x.bLive = false → granted = false → (x.slot c.slotB).held = true → ∀ i, i ∈ all → waits i .lost) ∧
  (x.bLive = false → granted = true → ch.expect = 0 → ∀ i, i ∈ all → ill i) ∧
  (x.bLive = false → granted = true → ch.expect ≠ 0 → arrives (.wbcast a) (.bcast (x.srcS a.sa)) ∧
    arrives (.wred a) (.red ((x.srcS a.sa).setWidth 32)) ∧
    ((∀ q, q ∈ x.pend → q.kind ≠ .warr) → ∃ t y p q, exec (.wbar a) s = .next t ∧ t.mem = s.mem ∧ HasGroup t c.g y ∧
      out p .bar ∧ RegsKept x y [] ∧ q ∈ y.pend ∧ q.tag = x.nextTag ∧ q.arrive = p.arrive ∧ q.dsts = p.dsts ∧
      (acc = false → t.agenda = s.posts [(4, .resultWriteback c.g x.nextTag)] ∧ s.aclk + 4 ≤ y.readyAt) ∧
      (acc = true → t.agenda = s.agenda ∧ Moved (x.addPend p) y c.slotB 8 []))) ∧
  (granted = true → ch.expect ≠ 0 → recv (.wrecvB a) ch.cB ∧ recv (.wrecvR a) (ch.cR.setWidth 64) ∧
    (ch.cPhase = ph → waits (.wrecvB a) (.welt key ph (some (a.dst, false))) ∧
      waits (.wrecvR a) (.welt key ph (some (a.dst, true))) ∧ waits (.wwait a) (.welt key ph none)) ∧
    (acc = true → ch.cPhase ≠ ph → waits (.wwait a) .acks) ∧
    (acc = false → ch.cPhase ≠ ph → ∃ t y, exec (.wwait a) s = .next t ∧ t.mem = s.mem ∧ HasGroup t c.g y ∧ RegsKept x y [] ∧
      (x.bLive = false → y.slot c.slotB = (x.slot c.slotB).goTo (x.nextPc c.slotB 8)))) ∧
  (∃ t y, exec (.wtick a) s = .next t ∧ OnlyGroup s t c.g ∧ HasGroup t c.g y ∧ Moved x y c.slotB 8 (dstsOf a.dst) ∧
    ∀ d, a.dst = .s d → y.getS d.toNat = s.tick)

/-! ## Results and groups (R193, R201 to R203, R214, R215, R219, R275, R350, R371, R400) -/

/-- R275, R350: a result that arrives is written and is outstanding no more. The last answer to an access writes what it
returned: a load its bytes, an atomic its old value; an answer before the last is counted. A refusal names its lanes. A Welt
arrival leaves its core, its destination taking the channel's phase (R394). An answer for the host is its response; a
malformed one is discarded and counted (R69). -/
def Obligations.ResultDelivery : Prop := ∀ s g tag x, HasGroup s g x → x.dead = false → x.faults = [] → x.trap = none →
  let wrote (y : Group) (ws : List RegWr) : Prop :=
    y.v = (ws.foldl Group.regWr x).v ∧ y.s = (ws.foldl Group.regWr x).s ∧ y.p = (ws.foldl Group.regWr x).p
  let done (i : Instr) (p q : Pend) : Prop := p.bad = [] → p.acq = none →
    (p.left = 1 → ∃ t y, exec i s = .next t ∧ t.mem = s.mem ∧ HasGroup t g y ∧ wrote y q.writes ∧
      y.pend = x.pend.filter fun r => r.tag ≠ tag) ∧
    (2 ≤ p.left → ∃ t y, exec i s = .next t ∧ t.mem = s.mem ∧ HasGroup t g y ∧ wrote y [] ∧
      ∃ r, r ∈ y.pend ∧ r.tag = tag ∧ r.left = p.left - 1)
  let old (k : Pkt) (p : Pend) (v : W64) : Pend :=
    match k.req with | .atomic a => { p with old := Tab.put p.old a.lane v } | _ => p
  let lost (sc : BitVec 4) (a : LaneAcc) : BadLane := ⟨a.lane, sc, a.addr⟩
  let refused (sc : BitVec 4) (k : Pkt) (p r : Pend) : Pend :=
    let bad := p.bad ++ ((p.lanesOf k).filter fun a => !p.refusedLane a.lane).map (lost sc)
    if r.tag = tag then { p with left := p.left - 1, bad := bad } else r
  let got (k : Pkt) (p : Pend) (b : List Byte) : Pend :=
    let one (t : Tab (List Byte)) (e : Nat × Nat) := Tab.put t (k.line / 128 + e.2) ((b.drop (128 * e.1)).take 128)
    { p with got := (numbered 0 (sectorsOf (Req.sectors k.req))).foldl one p.got }
  (∀ p, x.pend.find? (fun p => p.tag = tag ∧ (p.kind = .alu ∨ p.kind = .warr)) = some p →
    ∃ t y, exec (.resultWriteback g tag) s = .next t ∧ t.mem = s.mem ∧ OthersKept s t g ∧ HasGroup t g y ∧
      y.pend = x.pend.erase p ∧ (p.arrive = none → wrote y p.wr) ∧
      ∀ key d k, p.arrive = some (key, d, k) → p.wr = [] →
        RegsKept x y (dstsOf d) ∧ (∀ n, d = .s n → y.getS n.toNat = (s.chan key).cPhase.setWidth 64) ∧
        ∃ e, e ∈ t.agenda ∧ e.due = s.aclk + (if 128 ≤ key then 52 else 12) ∧
          e.ev = .weltArrival ⟨key, coreOf g, g % 48, k, false⟩) ∧
  (∀ p, x.pend.find? (fun p => p.tag = tag ∧ p.isAcc) = some p →
    done (.loadDataReturn g tag) p p ∧ done (.storeAck g tag) p p ∧
    ∀ k, k.src = .grp g tag → s.inReset k = false → pktBad k = false →
      (∀ v, done (.ack k v) p (old k p v)) ∧
      (∀ b, x.pend.find? (fun p => p.tag = tag) = some p → p.kind = .load → done (.dataRsp k b) p (got k p b)) ∧
      (∀ sc, (∀ bs, k.req ≠ .write bs) → 2 ≤ p.left → ∃ t, exec (.nack k sc) s = .next t ∧ OnlyGroup s t g ∧
        HasGroup t g { x with pend := x.pend.map (refused sc k p) })) ∧
  (∀ k, pktBad k = true → let t := s.modDie k.sdie fun d => { d with xbdisc := d.xbdisc + 1 }
    (∀ v, exec (.ack k v) s = .next t) ∧ (∀ sc, exec (.nack k sc) s = .next t) ∧ ∀ b, exec (.dataRsp k b) s = .next t) ∧
  (∀ k d, k.src = .host d → s.inReset k = false → pktBad k = false → k.rdc = false →
    (∀ v, exec (.ack k v) s = .next { s with resp := .ok }) ∧ (∀ sc, exec (.nack k sc) s = .next { s with resp := .nack sc }) ∧
    ∀ b, exec (.dataRsp k b) s = .next { s with resp := .bytes ((b.drop (k.line % 128)).take (64 - k.line % 64)) }) ∧
  (∀ k id pt o, k.src = .eng id pt → s.inReset k = false → pktBad k = false → Tab.get? s.ops id = some o →
    (∀ v, 2 ≤ o.left → ∃ t, exec (.ack k v) s = .next t ∧ Tab.get? t.ops id = some { o with left := o.left - 1 } ∧
      t.mem = s.mem ∧ t.groups = s.groups) ∧
    ∀ b a n, ((o.kind.granule (pt / 2048)).1)[pt % 2048]? = some (.va a, n) → ∃ t, exec (.dataRsp k b) s = .next t ∧
      Tab.get? t.ops id = some { o with got := Tab.put o.got pt ((b.drop (a.toNat % 128)).take n) } ∧
      t.mem = s.mem ∧ t.groups = s.groups)

/-- R193, R201 to R203, R367, R371, R400, R409: both slots parked merge at JOIN; a fusion gives the survivor the other
group's lanes and result 1, and a release result 0; an exchange gives each group its partner's words in the lanes both have;
a SIGWAIT reads again; a handle and a ready rank let their waits go; a pre-emption flag takes a waiting group to its handler.
Which waits a pre-emption ends is the model's reading (assumption 62). -/
def Obligations.GroupEvents : Prop := ∀ s g x, HasGroup s g x →
  (x.bothParked = false → ∃ t, exec (.reconverge g) s = .next t ∧ OnlyGroup s t g ∧ HasGroup t g x) ∧
  (x.bothParked = true → x.splitSp = 0 → ∃ t, exec (.reconverge g) s = .next t ∧ OnlyGroup s t g ∧ HasGroup t g { x with
    a := { Slot.empty with pc := x.join, own := x.a.own ||| x.b.own, exm := x.a.exm ||| x.b.exm,
                           free := x.a.free.filter fun t => x.b.free.contains t },
    b := Slot.empty, bLive := false, lastB := false }) ∧
  (∀ r d, x.a.wait = .rendezvous r d → x.bLive = false → x.a.re = none → ∃ t y, exec (.regroupRelease g) s = .next t ∧
    t.mem = s.mem ∧ OthersKept s t g ∧ HasGroup t g y ∧ RegsKept x y (dstsOf d) ∧ (∀ n, d = .s n → y.getS n.toNat = 0) ∧
    y.a.wait = .none ∧ y.a.pc = x.a.pc + w64 x.a.wlen) ∧
  (∀ h z r q d e, HasGroup s h z → h ≠ g → x.a.wait = .fusing h r d → z.a.wait = .fusing g q e → x.bLive = false →
    x.dead = false → Mask.count x.a.own + Mask.count z.a.own ≤ 32 → ∃ t y, exec (.regroupFuse g h) s = .next t ∧
      HasGroup t g y ∧ (∀ w, HasGroup t h w → w.dead = true) ∧
      (∀ l, l < 32 → Mask.has y.a.own l = decide (l < Mask.count x.a.own + Mask.count z.a.own)) ∧
      (∀ n i l, n < x.vdecl → ((Mask.lanes x.a.own)[i]? = some l → y.getV n i = x.getV n l) ∧
        ((Mask.lanes z.a.own)[i]? = some l → y.getV n (Mask.count x.a.own + i) = z.getV n l)) ∧
      (∀ n, d = .s n → y.getS n.toNat = 1)) ∧
  (∀ h z p q n m o₁ o₂, s.upsets = [] → HasGroup s h z → h ≠ g → x.exchOn = some p → z.exchOn = some q → x.dead = false →
    z.dead = false →
    x.faults = [] → z.faults = [] → x.trap = none → z.trap = none →
    p.ldst = some (.v n, .u0, o₁) → q.ldst = some (.v m, .u0, o₂) → (p.old.map Prod.fst).Nodup → (q.old.map Prod.fst).Nodup →
    (∀ e, e ∈ p.old → e.1 < 32) → (∀ e, e ∈ q.old → e.1 < 32) →
    ∃ t y w, exec (.xshflExchange g h) s = .next t ∧ t.mem = s.mem ∧ HasGroup t g y ∧ HasGroup t h w ∧
      RegsKept x y [.v n.toNat] ∧ RegsKept z w [.v m.toNat] ∧
      ∀ l a b, (l, a) ∈ p.old → (l, b) ∈ q.old → y.getV n.toNat l = b ∧ w.getV m.toNat l = a) ∧
  (∀ p e, x.pend.filter (fun p => p.kind = .sigread) = [p] → p.lanes = [e] → ∃ t m, exec (.sigwaitReread g) s = .next t ∧
    t.mem = s.mem ∧ HasGroup t g { x with pend := x.pend.map fun q => if q.tag = p.tag then { q with left := q.left + 1 } else q } ∧
    Launched t (s.grpPkt g x p.tag (e.addr.toNat / 512 * 512) .r false (.read m))) ∧
  (x.a.wait = .rank → ∃ t y, exec (.pooledAccessRelease g) s = .next t ∧ OnlyGroup s t g ∧ HasGroup t g y ∧
    RegsKept x y [] ∧ y.a = { x.a with wait := .none }) ∧
  (∀ k h r, hndAdmits ((s.blk k).hnd h).state true = true → s.hndFirst k h true = some r → r.key = 2 * g →
    x.a.wait = .handle h true → ∃ t y, exec (.handleAdmit k h) s = .next t ∧ OnlyGroup s t g ∧ HasGroup t g y ∧
      RegsKept x y [] ∧ y.a = { x.a with wait := .none }) ∧
  (x.preempt = false → exec (.preemptWaitExit g) s = .next s) ∧
  (x.preempt = true → x.level = 0 → x.dead = false → x.frozen = false → x.trap = none → x.faults = [] → x.pend = [] →
    x.bLive = false → x.a.isParked = false → x.canLeave false = true → ∃ t y, exec (.preemptWaitExit g) s = .next t ∧
      OthersKept s t g ∧ HasGroup t g y ∧ RegsKept x y [] ∧ y.level = 1 ∧ y.preempt = false ∧
      y.a.pc = keep (s.ctx x.ctx).tvec1 0xFFFFFFFFFFFFFC ∧ fld y.bank1.tcause 0 8 = 9 ∧
      ∀ n ph, x.a.wait = .gate n ph true → bit64 y.bank1.tresa 62 = true ∧ y.bank1.tval = w64 ph.toNat)

/-- R55, R180, R190, R214, R215, R219: an instruction block that arrives is held by the core's cache, or its refusal is
remembered; a scheduler's swap and fill change the active set alone; the counters count an ACLK in the bin of its eligible
groups; a pre-emption request reaches the groups it names; a block that is over returns its arrays. The whole-line
instruction fill is the model's reading (assumption 20). -/
def Obligations.CoreEvents : Prop :=
  (∀ s core asid b, let die := bitsN (b * 32) 54 2
    (s.pathDown (dieOfCore core) die = true → ∃ t, exec (.ifetchFill core asid b) s = .next t ∧ t.mem = s.mem ∧
      (asid, b / 4, some 3) ∈ (t.core core).icPend) ∧
    ∀ u x, s.pathDown (dieOfCore core) die = false →
      (s.fetchForget core asid b).xlate die asid (b * 32) .x false false = (u, .ok x) →
      ∃ t, exec (.ifetchFill core asid b) s = .next t ∧ t.mem = u.mem ∧
        (t.core core).icBlock asid b = some (u.readBytes (paddr die (x.pa / 128 * 128 + b % 4 * 32)) 32)) ∧
  (∀ s core sched g h x z y w, sched < 4 → Tab.getD (s.core core).swapTill 0 sched ≤ s.aclk →
    s.readyOf (core * 4 + sched) = some (g, y) → s.firstLong (core * 4 + sched) = some (h, w) → g ≠ h →
    HasGroup s g x → HasGroup s h z → ∃ t, exec (.schedulerSwap core sched) s = .next t ∧
      t = { s with groups := t.groups, cores := t.cores } ∧ HasGroup t g { x with active := true } ∧
      HasGroup t h { z with active := false, longSince := none } ∧
      (∀ k, k ≠ g → k ≠ h → Tab.get? t.groups k = Tab.get? s.groups k) ∧
      Tab.getD (t.core core).swapTill 0 sched = s.aclk + 2) ∧
  (∀ s core sched, let n := ((s.onSched (core * 4 + sched)).filter fun e => e.2.active).length
    (8 ≤ n → exec (.activePositionFill core sched) s = .next s) ∧
    ∀ g x y, n < 8 → s.readyOf (core * 4 + sched) = some (g, y) → HasGroup s g x → ∃ t,
      exec (.activePositionFill core sched) s = .next t ∧ t = { s with groups := t.groups } ∧
      HasGroup t g { x with active := true } ∧
      ∀ h z, HasGroup s h z → ∃ b, HasGroup t h { z with active := z.active || b }) ∧
  (∀ s core sched, sched < 4 → s.scheds = [core * 4 + sched] → s.onSched (core * 4 + sched) ≠ [] →
    let n := ((s.onSched (core * 4 + sched)).filter fun e => s.eligible e.1 e.2).length
    ∃ t, exec .issueCounters s = .next t ∧ t = { s with cores := t.cores, pms := t.pms } ∧
      (1 ≤ n → n ≤ 8 → t.cntRead core sched n = s.cntRead core sched n + 1)) ∧
  (∀ s pid die v g x, s.upset (.preempt die) = 0 → HasGroup s g x → dieOf g = die → (s.ctx x.ctx).pid = pid →
    (s.ctx x.ctx).asid.toNat = fld v 48 16 →
    bit64 v (4 + (s.blk x.blk).cls.toNat) = true → x.dead = false → ∃ t, exec (.preemptRequest pid die v) s = .next t ∧
      t = { s with groups := t.groups } ∧ HasGroup t g { x with preempt := !bit64 v 47 }) ∧
  (∀ s k b, Tab.get? s.blocks k = some b →
    (s.blockDone k = false → exec (.blockEnd k) s = .next s) ∧
    (s.blockDone k = true → ∃ t, exec (.blockEnd k) s = .next t ∧ Tab.get? t.blocks k = none ∧
      ∀ e, e ∈ b.arrs → (t.arr e.2).blk = none ∧ (t.arr e.2).cells = [] ∧
        (t.arr e.2).st = if (s.arr e.2).st = .fenced then .fenced else .storage))

/-! ## Requests, caches and links (R61, R65 to R101, R210, R357, R417) -/

/-- R67 to R69, R73, R74, R78, R80, R91, R97 to R101: a malformed request is discarded and counted. At its translating slice
a request whose page the MTLB holds is forwarded, no sooner than 16 ACLK later and behind what was sent before it; any other
waits for a walk, which forwards it or answers with NACK. At its home it waits for a bank on its way into Agate mode, or in
the conflict queue behind other requests of its line, or takes the line's lock, and 16 ACLK later, 32 for an atomic, has what
it needs of the L2 or waits 288 ACLK for HBM4E. A SIG is an atomic that follows its endpoint's writes. The regulators'
budgets gain a flit, up to 32. The times of the stages are the model's, their sums R91's (assumptions 2, 4). -/
def Obligations.RequestArrivals : Prop := ∀ s p, s.upsets = [] →
  let went (t : State) (a : Nat) (nr : Bool) : Prop := t.mem = s.mem ∧ ∃ e w, e ∈ t.agenda ∧ s.aclk + 16 ≤ e.due ∧
    e.ev = reqEv { p with phys := some (paddr p.ddie (a / 512 * 512)), nr := nr, rdc := p.rdc && !nr, wire := w }
  let refused (t : State) (sc : BitVec 4) : Prop := t.mem = s.mem ∧ ∃ e w, e ∈ t.agenda ∧ e.ev = .nack { p with wire := w } sc
  let comes (i : Instr) : Prop := i ∈ [.rd p, .wr p, .atq p, .atr p] ∨
    ∃ set q, i = .sigUpd q set ∧ p = sigReq set q ∧ (s.peerWrites q = false ∨ pktBad q = true)
  let lacks : Bool := match p.req with
    | .flush _ => s.dirtyLine p.ddie (plineOf p)
    | r => (s.holder p.ddie (homeSlice (plineOf p * 512)) (homeBank (plineOf p * 512))).isNone ||
      s.l2Lacks p.ddie (plineOf p) (Req.needs r)
  (∀ i, comes i →
    (pktBad p = true → ∃ t, exec i s = .next t ∧ t = { s with dies := t.dies } ∧
      t.die p.ddie = { s.die p.ddie with xbdisc := (s.die p.ddie).xbdisc + 1 } ∧ ∀ d, d ≠ p.ddie → t.die d = s.die d) ∧
    (pktBad p = false → p.phys = none → ∀ g tag, p.src = .grp g tag →
      (∀ x, s.mtlbHit p.ddie p.asid p.line p.need p.peer = some x → ∃ t, exec i s = .next t ∧ went t x.pa x.nr) ∧
      (s.mtlbHit p.ddie p.asid p.line p.need p.peer = none → ∃ t e, exec i s = .next t ∧ t.mem = s.mem ∧
        e ∈ t.agenda ∧ e.ev = .pageWalkComplete p ∧
        ∃ w, w ∈ (t.die p.ddie).walks ∧ w.asid = p.asid ∧ w.page = p.line % 2 ^ 56 / 2 ^ 16)) ∧
    (∀ a k, pktBad p = false → p.phys = some a → p.held = false → s.homeBusy p.ddie (plineOf p) = some k →
      ∃ t, exec i s = .next t ∧ t = { s with banks := t.banks } ∧ t.bank k = { s.bank k with late := (s.bank k).late ++ [p] }) ∧
    ∀ a, pktBad p = false → p.phys = some a → p.held = false → s.homeBusy p.ddie (plineOf p) = none →
      let first := s.lockFree p && !(s.die p.ddie).confl.any fun q => plineOf q = plineOf p
      (first = false → ∃ t, exec i s = .next t ∧ t = { s with dies := t.dies } ∧
        t.die p.ddie = { s.die p.ddie with confl := (s.die p.ddie).confl ++ [p] }) ∧
      (first = true → ∃ t lk, exec i s = .next t ∧
        t = { s with dies := t.dies, nextId := t.nextId,
                     agenda := s.posts [(match p.req with | .atomic _ => 32 | _ => 16, reqEv { p with held := true })] } ∧
        t.die p.ddie = { s.die p.ddie with locks := (s.die p.ddie).locks ++ [lk] } ∧ lk.pkt = { p with held := true } ∧
        lk.line = plineOf p ∧ lk.left = 0)) ∧
  (∀ i, comes i → ∀ a, pktBad p = false → p.phys = some a → p.held = true → lacks = true →
    ∃ t, exec i s = .next t ∧ t = { s with groups := t.groups, agenda := s.posts [(288, .hbmFill p false)] }) ∧
  (∀ q set, pktBad q = false → s.peerWrites q = true →
    exec (.sigUpd q set) s = .next { s with agenda := s.posts [(2, .sigUpd q set)] }) ∧
  (∀ g tag, p.src = .grp g tag →
    (∀ l, walk s p.ddie p.asid p.line = some (.leaf l) → leafPermits l.bits p.need p.peer = true →
      ∃ t, exec (.pageWalkComplete p) s = .next t ∧ went t (leafPa l.bits l.size p.line) (bit64 l.bits 7) ∧
        ((∀ w, w ∈ (s.die p.ddie).walks → w.dead = false) →
          ((s.die p.ddie).mtlb.filter fun e => e.set = (bitsN p.line 21 8 ^^^ p.asid.toNat % 256)).length < 16 →
          ∃ e, e ∈ (t.die p.ddie).mtlb ∧ e.hits p.asid p.line = true ∧ e.page = fld l.bits 16 21)) ∧
    (∀ l, walk s p.ddie p.asid p.line = some (.leaf l) → leafPermits l.bits p.need p.peer = false →
      ∃ t, exec (.pageWalkComplete p) s = .next t ∧ refused t 2) ∧
    ((∀ l, walk s p.ddie p.asid p.line ≠ some (.leaf l)) →
      ∃ t, exec (.pageWalkComplete p) s = .next t ∧ refused t 1)) ∧
  (∀ bank, (s.die (bank / 128)).confl = [p] → s.lockFree p = true → ∃ t lk, exec (.conflictQueueRelease bank) s = .next t ∧
    t.mem = s.mem ∧ t.groups = s.groups ∧ lk ∈ (t.die p.ddie).locks ∧ lk.pkt = { p with held := true } ∧
    ∃ e, e ∈ t.agenda ∧ e.ev = reqEv { p with held := true }) ∧
  ((∀ d, d < 4 → (s.die d).c0q = [] ∧ ((s.die d).budget.map Prod.fst).Nodup) → ∃ t, exec .class0BudgetGain s = .next t ∧
    t = { s with dies := t.dies, agenda := t.agenda } ∧
    ∀ d cl, d < 4 → (t.die d).budgetOf cl = min 32 ((s.die d).budgetOf cl + 1))

/-- R77 to R79, R83, R91, R354, R355, R357: a request that holds its line's lock, with its sectors present or its fill
arrived, first has the copies of other dies invalidated, when it writes; it is then performed under its line's lock: a read
returns its sectors, a write's bytes and an atomic's result are stored, and nothing else of memory changes. The answer
follows 48 + 56·hops ACLK later. A fill with an uncorrectable error freezes the group that asked and performs nothing. The
times of the stages are the model's, their sums R91's (assumptions 2, 4), and memory is one store (67). -/
def Obligations.RequestsPerformed : Prop := ∀ s p, s.upsets = [] → (∀ q k, fld (Tab.getD (s.part q).wp 0 (3 * k)) 1 3 ≠ 1) →
  let base := pbaseOf p
  let after : Nat := s.aclk + 48 + 56 * hops p.sdie p.ddie
  let last (bs : List (Nat × Byte)) (a : Nat) : Option Byte :=
    (bs.reverse.find? fun e => decide (base + e.1 = a)).map fun e => e.2
  let answered (t : State) (ev : Pkt → Instr) : Prop :=
    ∃ e w, e ∈ t.agenda ∧ e.ev = ev { p with wire := w } ∧ after ≤ e.due
  let performed (t : State) : Prop := match p.req with
    | .read m => t.mem = s.mem ∧
        answered t fun q => .dataRsp q ((sectorsOf m).flatMap fun i => s.readBytes (base + 128 * i) 128)
    | .write bs => (∀ a, t.readByte a = (last bs a).getD (s.readByte a)) ∧ answered t (fun q => .ack q 0)
    | .atomic q =>
      let n := q.ty.width / 8
      let a := base + q.addr.toNat % 512
      let old := s.readNum a n
      (∀ c, c < a ∨ a + n ≤ c → t.readByte c = s.readByte c) ∧
      t.readNum a n = (atomNew q old).getD old % 256 ^ n ∧ answered t fun q => .ack q (w64 old)
    | .flush _ => t.mem = s.mem ∧ answered t (fun q => .ack q 0)
  let present : Prop := match p.req with
    | .flush _ => s.dirtyLine p.ddie (plineOf p) = false
    | r => (∃ k, s.holder p.ddie (homeSlice (plineOf p * 512)) (homeBank (plineOf p * 512)) = some k) ∧
      s.l2Lacks p.ddie (plineOf p) (Req.needs r) = false
  let goes (i : Instr) : Prop := i = .hbmFill p false ∨
    (i ∈ [.rd p, .wr p, .atq p, .atr p] ∧ pktBad p = false ∧ (∃ a, p.phys = some a) ∧ p.held = true ∧ present)
  let v := s.sharersOf p.ddie (plineOf p)
  (∀ i lk, goes i → (s.die p.ddie).locks.find? (fun l => l.pkt = p) = some lk →
    (s.die p.ddie).locks.find? (fun l => l.line = plineOf p) = some lk → Req.invalidates p.req = false ∨ v = 0 →
    ∃ t, exec i s = .next t ∧ performed t) ∧
  (∀ i lk, goes i → Req.invalidates p.req = true → v ≠ 0 → (s.die p.ddie).locks = [lk] → lk.pkt = p → lk.line = plineOf p →
    ∃ t, exec i s = .next t ∧ t.mem = s.mem ∧ t.sharersOf p.ddie (plineOf p) = v ∧
      (t.die p.ddie).locks = [{ lk with left := (sharerDies p.ddie v).length }] ∧
      ∀ d, d ∈ sharerDies p.ddie v → ∃ e w, e ∈ t.agenda ∧ e.ev = .inv { p with wire := w } d lk.id ∧
        s.aclk + 56 * hops p.ddie d ≤ e.due) ∧
  (∀ d hold, pktBad p = false → ∃ t, exec (.inv p d hold) s = .next t ∧
    t = { s with dies := t.dies, agenda := t.agenda, vcs := t.vcs } ∧
    (∀ l, l ∈ (t.die d).rdc ↔ l ∈ (s.die d).rdc ∧ ¬ (l.owner = base / 2 ^ 37 ∧ l.line = base % 2 ^ 37 / 512)) ∧
    ∃ e w, e ∈ t.agenda ∧ e.ev = .invack ⟨{ p with wire := w }, hold⟩ ∧ s.aclk + 56 * hops d p.ddie ≤ e.due) ∧
  (∀ q d lk, d < 4 → p.ddie = d → lk.pkt = p → (s.die d).locks = [lk] → pktBad q = false →
    (∀ k l, k ≠ d → l ∈ (s.die k).locks → l.id ≠ lk.id) →
    (2 ≤ lk.left → ∃ t, exec (.invack ⟨q, lk.id⟩) s = .next t ∧ t = { s with dies := t.dies } ∧
      t.die d = { s.die d with locks := [{ lk with left := lk.left - 1 }] }) ∧
    (lk.left ≤ 1 → ∃ t, exec (.invack ⟨q, lk.id⟩) s = .next t ∧ performed t)) ∧
  (∀ g tag x, p.src = .grp g tag → HasGroup s g x → ∃ t, exec (.hbmFill p true) s = .next t ∧
    HasGroup t g { x with frozen := true } ∧ OthersKept s t g ∧ t.ops = s.ops ∧
    ∀ a, ¬ TraceByte s (dieOf g) 3 a → t.readByte a = s.readByte a)

/-- R61, R68, R69, R75, R88, R91, R108, R189, R439: a pooled read returns its granule, and a pooled write stores its bytes in
an array that takes stores and is acknowledged; a rank whose block has ended refuses both, and a malformed packet is
discarded and counted. A link retrains after its eighth replay in a row is bad, and its third failed retraining takes it down
and ends the contexts that route over it. An XMAP request is served by its owner die, the first to arrive first. The division
of a pooled latency and what a lost link ends are the model's (assumptions 2, 4, 77). -/
def Obligations.PooledAndLinkEvents : Prop := ∀ s, s.upsets = [] →
  (∀ p g tag, p.src = .grp g tag → scpBad p = false → s.poolDropped p = false →
    (s.poolBlk p = none → ∀ i, i = .scr p ∨ i = .scw p → ∃ t k, exec i s = .next t ∧ k.src = p.src ∧
      t = { s with agenda := s.posts [(28, .nack k 1)] }) ∧
    ∀ b, s.poolBlk p = some b →
      let n := (s.blk b).narr
      let at' := interleaved n p.off
      let arr := (s.blk b).arrKey at'.1
      let lands (e j : Nat) (w : Nat × Byte) : Bool :=
        decide ((s.blk b).arrKey (interleaved n w.1).1 = e ∧ (interleaved n w.1).2 = j) && (s.arr e).writable
      let answers (t : State) (ev : Pkt → Instr) : Prop := ∃ e k, e ∈ t.agenda ∧ e.ev = ev k ∧ k.src = p.src ∧
        s.aclk + poolLat (coreOf g) (arr / 24) / 2 ≤ e.due
      (∃ t, exec (.scr p) s = .next t ∧ t.mem = s.mem ∧ t.arrs = s.arrs ∧
        answers t fun k => .dataRsp k (s.arrBytes arr at'.2 128)) ∧
      ∃ t, exec (.scw p) s = .next t ∧ t.mem = s.mem ∧ (answers t fun k => .ack k 0) ∧
        ∀ e j, t.arrByte e j = ((p.bytes.reverse.find? (lands e j)).map fun w => w.2).getD (s.arrByte e j)) ∧
  (∀ p, scpBad p = true → ∀ i, i = .scr p ∨ i = .scw p → ∃ t d, exec i s = .next t ∧
    t = s.modDie d fun k => { k with xbdisc := k.xbdisc + 1 }) ∧
  (∀ k, (s.link k).down = false →
    (∃ t, exec (.linkRetrain k true) s = .next t ∧ t = { s with links := t.links } ∧
      t.link k = { s.link k with fails := 0, trains := 0 }) ∧
    ((s.link k).trains < 2 → ∃ t, exec (.linkRetrain k false) s = .next t ∧ t = { s with links := t.links } ∧
      t.link k = { s.link k with fails := 0, trains := (s.link k).trains + 1 }) ∧
    (2 ≤ (s.link k).trains → ∃ t, exec (.linkRetrain k false) s = .next t ∧ t.mem = s.mem ∧ (t.link k).down = true ∧
      ∀ j c, Tab.get? s.ctxs j = some c → c.ending = none → usesLink (s.part c.pid).mask k = true →
        ∃ e, Tab.get? t.ctxs j = some { c with ending := some e } ∧ e.1 = 6) ∧
    (∃ t, exec (.flitReplay k false) s = .next t ∧ t = { s with links := t.links } ∧
      t.link k = { s.link k with fails := 0 }) ∧
    ((s.link k).fails < 7 → ∃ t, exec (.flitReplay k true) s = .next t ∧ t = { s with links := t.links } ∧
      t.link k = { s.link k with fails := (s.link k).fails + 1 }) ∧
    (7 ≤ (s.link k).fails → ∃ t, exec (.flitReplay k true) s = .next t ∧ t.mem = s.mem ∧ (t.link k).fails = 0)) ∧
  (∀ die r rest x, (s.die die).xmapq = r :: rest → HasGroup s r.g x →
    let asid := r.asid
    let w := walk s die asid r.va.toNat
    let gives (st left : Nat) : Prop := ∃ t y, exec (.xmapServe die) s = .next t ∧ t.mem = s.mem ∧
      (t.die die) = { s.die die with xmapq := rest } ∧ HasGroup t r.g y ∧ RegsKept x y [] ∧ y.xmapst = xmapWord st left
    (s.rootOf die asid = none → gives 4 0) ∧
    ∀ n root, s.rootOf die asid = some (n, root) →
      let pool := Tab.getD (s.die die).xpool 0 n
      let left := fld pool 48 16
      (∀ l, w = some (.leaf l) → gives 2 left) ∧ ((∀ l, w ≠ some (.leaf l)) → (∀ e, w ≠ some (.empty3 e)) → gives 4 left) ∧
      (∀ e, w = some (.empty3 e) → left = 0 → gives 3 0) ∧
      (∀ e, w = some (.empty3 e) → left ≠ 0 → (∀ q k, fld (Tab.getD (s.part q).wp 0 (3 * k)) 1 3 ≠ 1) →
        ∃ t y, exec (.xmapServe die) s = .next t ∧ HasGroup t r.g y ∧ RegsKept x y [] ∧ y.xmapst = xmapWord 1 (left - 1) ∧
          (let a := paddr die e
           t.readNum a 8 = fld pool 16 21 * 2 ^ 16 + b2n (bit64 pool 3) * 8 + b2n (bit64 pool 2) * 4 + 3 ∧
           (∀ c, c < a ∨ a + 8 ≤ c → t.readByte c = s.readByte c)) ∧
          Tab.getD (t.die die).xpool 0 n = setFld (setFld pool 16 21 (fld pool 16 21 + 1)) 48 16 (left - 1)))

/-! ## The engines' events (R112 to R128, R242 to R262, R360, R374 to R381, R449) -/

/-- R242 to R262, R360, R374, R376 to R381: an operation complete leaves its batch and its handle. MACLR's tiles are zero;
MAMOV's hold the source's elements, or the sums; a table read is the context's profile. An admission makes the array compute
on the weights read, a release returns it to storage with its cells, a loop frees its arrays. A step adds to its row's
elements the exact path's sums, or the verification step's, and the loop goes on with the next: by step on the digital path,
by row on the converters, and there by slice where one array is left (R255, R259). At acceptance an array is reserved, and a
fenced one or an illegal profile is reported in MSTAT. A self-test ends with the array as it was, or fenced. Rows at their
end, and the free outcomes of codes and tests, are the model's (assumptions 9, 12, 22). -/
def Obligations.MatrixEvents : Prop :=
  (∀ s id o, Tab.get? s.ops id = some o → o.id = id → o.gone = false →
    (∃ p, p ∈ (s.blk o.blk).places ∧ p.2 ≠ .ended ∧ p.2 ≠ .retired) →
    let b := s.blk o.blk
    let key (j : Nat) := b.arrKey j
    let gone (t : State) : Prop := t.mem = s.mem ∧ Tab.get? t.ops id = none ∧
      (∀ j, j ≠ id → Tab.get? t.ops j = Tab.get? s.ops j) ∧
      ∀ x, HasGroup s o.g x → ∃ y, HasGroup t o.g y ∧ RegsKept x y [] ∧
        (y.bat o.cls).cur = (x.bat o.cls).cur.erase id
    let does (i : Instr) (post : State → Prop) : Prop := ∃ t, exec i s = .next t ∧ gone t ∧ post t
    let apart : Prop := ∀ i j p, b.tileOf o.core i = some p → b.tileOf o.core j = some p → i = j
    let stat (t : State) (bits : List Nat) : Prop := ∀ x, HasGroup s o.g x → ∃ y, HasGroup t o.g y ∧
      RegsKept x y [] ∧ ∀ k, k ∈ bits → bit64 y.mstat k = true
    (o.cls ≠ 1 → (∀ q m k ld a n, o.kind ≠ .agchild q m k ld a n) → (∀ q m k a v, o.kind ≠ .agsum q m k a v) →
      does (.asyncOpComplete id) fun _ => True) ∧
    (o.cls = 1 → o.susp = false →
      (∀ t₀ n, o.kind = .maclr t₀ n → does (.asyncOpComplete id) fun t =>
        ∀ i e, i < n → e < 1024 → t.tileElem b o.core (t₀ + i) e = 0) ∧
      (∀ add t₀ u n, o.kind = .mamov add t₀ u n → apart → t₀ = u ∨ t₀ + n ≤ u ∨ u + n ≤ t₀ →
        tilesOk b o.core t₀ n = true → does (.asyncOpComplete id) fun t => ∀ i e, i < n → e < 1024 →
          t.tileElem b o.core (t₀ + i) e =
            (if add then addF32 (s.tileElem b o.core (t₀ + i) e) ((fmtOf .f32).decode (s.tileElem b o.core (u + i) e)) % 2 ^ 32
             else s.tileElem b o.core (u + i) e)) ∧
      (∀ a c i, o.kind = .mppt a → o.dfr = none → Tab.get? s.ctxs o.ctx = some c →
        i = .asyncOpComplete id ∨ (i = .mpptTakeEffect id ∧ o.readAll = true) → does i fun t => ∀ k, k < 16 →
          Tab.getD (t.ctx o.ctx).ppt 0 k = w64 (natOfBytes (((o.bytes 0 1).drop (8 * k)).take 8)))) ∧
    (∀ j src scl bt ww, o.kind = .madmit j src scl bt ww → does (.madmitComplete id) fun t =>
      let n := (admitBytes bt ww).1 / 128
      let a := t.arr (key j)
      a = (admitted (s.arr (key j)) bt ww (o.bytes 0 n) (o.bytes n o.kind.total)).1 ∧ a.st = .compute ∧ a.ww8 = ww ∧
      a.busy = none ∧ (bt ≠ .u0 → ∀ c, c < (if ww then 128 else 256) → Tab.getD a.ec 0 c =
        .ofNat 8 (admitCol bt (if ww then 8 else 4) c (o.bytes 0 n) (o.bytes n o.kind.total)).1)) ∧
    (∀ j, o.kind = .mrelease j → (s.arr (key j)).st = .switching → does (.mreleaseComplete id) fun t =>
      (t.arr (key j)).st = .storage ∧ (t.arr (key j)).cells = (s.arr (key j)).cells ∧ (t.arr (key j)).ec = [] ∧
      (t.arr (key j)).g = 0) ∧
    (∀ l, o.kind = .mloop l → does (.mloopComplete id) fun t =>
      ∀ j, j ∈ opArrays o.kind → (s.arr (key j)).busy = some id → (t.arr (key j)).busy = none) ∧
    (∀ l, o.kind = .mloop l → l.busy = true → s.opRuns o = true → l.row < l.m → o.dfr = none →
      let n := min (min l.ks (l.step + l.unit)) (o.lim - l.row * l.ks)
      let half := l.bySlice && !l.low
      let d := (o.data l.row).getD []
      let elem (t : State) (c : Nat) : Nat := t.tileElem b o.core (l.t0 + c / 32) (32 * l.row + c % 32)
      let step (post : State → Prop) : Prop := ∃ t q, exec (.mloopStep id) s = .next t ∧ t.mem = s.mem ∧
        Tab.get? t.ops id = some q ∧ post t ∧
        (half = false → n = l.ks → l.m ≤ l.row + 1 → q.fin = true ∧ ⟨s.aclk + 8, .mloopComplete id⟩ ∈ t.agenda) ∧
        ∃ l', q.kind = .mloop l' ∧ l'.row = (if half = false ∧ n = l.ks then l.row + 1 else l.row) ∧
          l'.step = (if half then l.step else if n = l.ks then 0 else n) ∧ l'.low = half
      step (fun _ => True) ∧
      (l.ks = 1 → l.step = 0 → l.row < o.lim → l.row < 32 → apart →
        tilesOk b o.core l.t0 ((if l.exact then l.en else (s.arr (key l.j0)).cols) / 32) = true →
        (l.exact = true → l.en % 32 = 0 → step fun t => ∀ c, c < l.en →
          let ta := pptType l.ppt
          let nb := l.en * 32 * matWidth l.ebt
          let mem := bit64 l.cfg2 63
          let rest := d.drop (l.seg + if matMx ta then 8 else 0)
          let bd := if mem then rest.take nb else s.arrBytes (key l.j0) 0 nb
          let bs := rest.drop (if mem then nb else 0)
          let sc (mx : Bool) (x : List Byte) (i : Nat) : Nat := if mx then ((x[i]?).getD 0).toNat else 127
          let xb := natOfBytes ((bd.drop (c * (32 * matWidth l.ebt))).take (32 * matWidth l.ebt))
          elem t c = (List.range 8).foldl (fun v k => addF32 v (blockSum ta l.ebt (natOfBytes (d.take l.seg)) xb k
            (sc (matMx ta) (d.drop l.seg) k) (sc (matMx l.ebt) bs (8 * c + k))) % 2 ^ 32) (elem s c)) ∧
        (∀ ea zs sat, l.exact = false → l.exactv = true → (s.arr (key l.j0)).st ≠ .fenced →
          l.aligned d = some (ea, zs, sat) → step fun t => ∀ c, c < (s.arr (key l.j0)).cols →
            let a := s.arr (key l.j0)
            let wa : Nat := if bit64 l.ppt 16 then 8 else 4
            let ow : Int := if a.ww8 then 128 else 8
            let sum : Int := (numbered 0 zs).foldl (fun (v : Int) e => v + e.2 * ((a.u e.1 c : Int) - ow)) 0
            let ec := (Tab.getD a.ec 0 c).toNat
            elem t c = addF32 (elem s c) (if ec = 255 then .nan false
              else .fin (decide (sum < 0)) sum.natAbs ((ec : Int) + ea - 254 + a.g + (alignP (pptType l.ppt) - wa + 1))) %
                2 ^ 32))) ∧
    (∀ r, (s.core o.core).mxq = id :: r → (s.core o.core).mxHold = none → s.opWaits o = false → s.tileWait o = false →
      (s.ctx o.ctx).ending = none → (∀ j, j ∈ opArrays (s.atAccept o) → (s.arr (key j)).busy = none ∧
        (s.arr (key j)).test = none ∧ s.testDue o.core (s.arr (key j)) = false) →
      let takes (i : Instr) (post : State → AOp → Prop) : Prop := ∃ t q, exec i s = .next t ∧ t.mem = s.mem ∧
        (t.core o.core).mxq = r ∧ Tab.get? t.ops id = some q ∧ q.started = true ∧ post t q
      (∀ j src scl bt ww, o.kind = .madmit j src scl bt ww → takes (.madmitAccept id) fun t q =>
        ((s.arr (key j)).st = .fenced → q.fin = true ∧ stat t [0, 5]) ∧
        ((s.arr (key j)).st ≠ .fenced →
          t.arr (key j) = { s.arr (key j) with busy := some id, st := .switching } ∧ q = { o with started := true })) ∧
      (∀ ty loc t₀ n prof, o.kind = .mastore ty loc t₀ n prof →
        let e := Tab.getD (s.ctx o.ctx).ppt 0 prof
        takes (.mastoreAccept id) fun t q =>
          (storeLegal e = false → q.fin = true ∧ stat t [0, 6]) ∧
          (storeLegal e = true → ∃ rnd, q.kind = .move loc (.tile t₀ 0 ty rnd (bit64 e 20)) (1024 * (ty.width / 8) * n))) ∧
      (∀ l₀, o.kind = .mloop l₀ →
        let l := s.loopNow (s.ctx o.ctx) b l₀
        loopVaries b o.core l = true → s.rangeIn o.ctx o.blk o.die l.range.1 l.range.2 = .ok → l.row < l.m →
        l.step < l.ks → o.stopReq = false →
        (∀ j, j ∈ opArrays (.mloop l) → if l.exact then (s.arr (key j)).st ≠ .switching ∧ (s.arr (key j)).st ≠ .compute
          else (s.arr (key j)).st = .compute ∧ (s.arr (key j)).ww8 = bit64 l.ppt 17) →
        takes (.mloopAccept id) fun t q => (∃ l', q.kind = .mloop l' ∧ l'.ppt = l.ppt ∧ l'.row = l.row) ∧
          ∀ j, j ∈ opArrays (.mloop l) → (t.arr (key j)).busy = some id))) ∧
  (∀ s k t₀, (s.arr k).test = some (t₀, none) → t₀ ≤ s.aclk → ∃ t, exec (.selfTest k) s = .next t ∧ t.mem = s.mem ∧
    (t.arr k).test = none ∧ (t.arr k).steps = 0 ∧ (t.arr k).cells = (s.arr k).cells ∧
    (((t.arr k).st = (s.arr k).st ∧ t.cores = s.cores) ∨ ((t.arr k).st = .fenced ∧ ∀ c,
      (t.core c).mcap = if c = k / 24 then (s.core c).mcap &&& ~~~ .ofNat 24 (2 ^ (k % 24)) else (s.core c).mcap))) ∧
  (∀ s k, (s.arr k).test = none → s.testDue (k / 24) (s.arr k) = true → (s.arr k).busy = none → ∃ t,
    exec (.selfTest k) s = .next t ∧ t = { s with arrs := t.arrs } ∧
    t.arr k = { s.arr k with test := some (s.aclk + 799, none) })

/-- R112 to R128, R390, R391, R449: AGON and AGOFF take a bank from CACHE through ENTERING and AGATE through LEAVING and
back: its lines go, the redirect holds, its rows are zero, its prefetch entries are disarmed. A bank takes its commands one
at a time, each for its number of row operations; AGOP's additions, subtractions and products are lane by lane, modulo 2^w.
When AGRED frees its bank is the model's reading (assumption 54). -/
def Obligations.AgateEvents : Prop := ∀ s bank, s.upsets = [] →
  let b := s.bank bank
  let goes (i : Instr) (d : Bank) (es : List (Nat × Instr)) : Prop := ∃ t, exec i s = .next t ∧ t.mem = s.mem ∧
    t.groups = s.groups ∧ t.bank bank = d ∧ (∀ k, k ≠ bank → t.bank k = s.bank k) ∧
    ∀ e, e ∈ es → ⟨s.aclk + e.1, e.2⟩ ∈ t.agenda
  let lines := s.bankLines bank
  (∀ u e r, b.coming = (u, e) :: r → e.cmd = .on → b.mode = .cache → goes (.agonAccept bank)
    { b with
      coming := r, mode := .entering, was := some (b.mode, b.ctx, s.aclk), ctx := some e.ctx, switch := some e
      redir := false }
    [(2 * (128 + dirtySectors lines), .agonWritebackDone bank)]) ∧
  (b.mode = .entering → s.bankLocked bank = true → goes (.agonWritebackDone bank) b [(2, .agonWritebackDone bank)]) ∧
  (b.mode = .entering → s.bankLocked bank = false → b.late = [] → goes (.agonWritebackDone bank)
    { b with redir := true } [(2048, .agonComplete bank)] ∧
    ∀ t, exec (.agonWritebackDone bank) s = .next t → ∀ l, l ∈ t.bankLines bank → l.valid = 0) ∧
  (b.mode = .entering → b.hold = [] → goes (.agonComplete bank) { b with
    mode := .agate, was := some (b.mode, b.ctx, s.aclk), rows := [], switch := none } []) ∧
  (∀ u e r, b.coming = (u, e) :: r → e.cmd = .off → b.mode = .agate → b.ctx = some e.ctx → goes (.agoffAccept bank)
    { b with
      coming := r, mode := .leaving, was := some (b.mode, b.ctx, s.aclk), switch := some e, drained := false
      redir := true } []) ∧
  (b.mode = .leaving → goes (.agoffDrainDone bank) { b with rows := [], drained := true }
      [(2 * (128 + dirtySectors (s.heldFor bank)), .agoffComplete bank)] ∧
    ∀ t d e, exec (.agoffDrainDone bank) s = .next t → d < 4 → e ∈ (t.die d).pf → e.bank ≠ bank) ∧
  (b.mode = .leaving → (∀ l h, l ∈ (s.die (bank / 128)).locks → h ∈ s.heldFor bank → h.line ≠ l.line) → b.hold = [] →
    goes (.agoffComplete bank) { b with
      mode := .cache, was := some (b.mode, b.ctx, s.aclk), ctx := none, switch := none, drained := false, redir := false } []) ∧
  (∀ e r, b.queue = e :: r → b.busy = false → b.mode = .agate →
    (∀ sub hd ha hb hm w sg k c, e.cmd = .op sub hd ha hb hm w sg k c → goes (.agateCommandAccept bank)
      { b with busy := true } [(2 * (1 + 2 * agopCost sub w c), .agateCommandComplete bank)]) ∧
    (∀ hd w sg a, e.cmd = .red hd w sg a → goes (.agateCommandAccept bank)
      { b with busy := true } [(2 * (1 + 2 * w + 24), .agateCommandComplete bank)]) ∧
    ∀ hd w sg m a l₀ n o ld, Tab.get? s.ops e.op = some o →
      (ld = true ∧ e.cmd = .ld hd w sg m a l₀ n) ∨ (ld = false ∧ e.cmd = .st hd w sg m a l₀ n) →
      goes (.agateCommandAccept bank) { b with busy := true } [] ∧
      ∃ t q, exec (.agateCommandAccept bank) s = .next t ∧ Tab.get? t.ops s.nextId = some q ∧
        q.kind = .agchild e.op e.mask bank ld a ((n * m + 7) / 8) ∧ q.started = true) ∧
  (∀ e r, b.queue = e :: r → b.busy = true →
    let done (rows : Tab Nat) : Prop := goes (.agateCommandComplete bank) { b with rows := rows, queue := r, busy := false } []
    (∀ sub hd ha hb hm w sg k c, e.cmd = .op sub hd ha hb hm w sg k c →
      let f := agopRows b sub ha hb hm w sg k c
      let lane (rows : List Nat) (l : Nat) : Nat :=
        (numbered 0 rows).foldl (fun v i => v + i.2 / 2 ^ l % 2 * 2 ^ i.1) 0
      done (b.setVar hd f).rows ∧ ∀ l, l < 16384 →
        (sub = 5 → lane f l = (lane (b.var ha w) l + lane (b.var hb w) l) % 2 ^ w) ∧
        (sub = 6 → lane f l = (lane (b.var ha w) l + 2 ^ w - lane (b.var hb w) l) % 2 ^ w) ∧
        (sub = 12 → lane f l = lane (b.var ha w) l * c.toNat % 2 ^ w)) ∧
    (∀ hd w sg a o, e.cmd = .red hd w sg a → Tab.get? s.ops e.op = some o → done b.rows ∧
      ∃ t q, exec (.agateCommandComplete bank) s = .next t ∧ Tab.get? t.ops s.nextId = some q ∧
        q.kind = .agsum e.op e.mask bank a (agredSum b hd w sg)) ∧
    (∀ hd w sg m a l₀ n o, e.cmd = .ld hd w sg m a l₀ n → s.childOf bank = some o → o.dfr = none →
      done (b.place hd w sg m l₀ n ((List.range o.lim).flatMap fun k => (o.data k).getD [])).rows) ∧
    ∀ hd w sg m a l₀ n o, e.cmd = .st hd w sg m a l₀ n → s.childOf bank = some o → o.dfr = none → done b.rows)

/-- R44, R54, R58, R62, R87, R120, R404, R446: what reads that find an error do. An instruction that reads a register with a
double error freezes its group instead of issuing, and so do SPLITDW's read of a split-stack word and LDS's of a word of an
array; a single error is counted at the core, and the instruction goes on as it would. A lookup of an L1 line that fails its
parity loses the line and is counted. An AGOP or AGRED that reads a row in error stops: it leaves its bank's queue with its
batch incomplete, the group that issued it freezes, and of an AGOP's rows each is as it was or holds its result. Which reads
find an error is an input of the machine (assumption 98), and which rows were written is free (assumption 112). -/
def Obligations.ErrorsStop : Prop := ∀ s p n lo hi, s.upsets = [⟨p, lo, hi, n⟩] → lo ≤ s.aclk → s.aclk < hi →
  let counts (t : State) (k : Nat) : Prop :=
    let old := Tab.getD (s.die (dieOfCore k)).cecnt 0 (k % 64)
    Tab.getD (t.die (dieOfCore k)).cecnt 0 (k % 64) = if old = w64 (2 ^ 64 - 1) then old else old + 1
  let stops (c : Cur) (i : Instr) : Prop := n = 2 → exec i s = .next (s.freeze c.g 5)
  (∀ k g x b i len, (∀ f, f ∈ s.agenda → s.aclk < f.due) → s.stopped = false → s.held = false → s.turn ≠ 0 →
    s.nextIssue (s.turn - 1) = some (k, g, x) → HasGroup s g x → s.pickSlot g x = some b →
    ({ s with cur := some ⟨g, b⟩ } : State).slotSt g x b = .go i len → i ≠ .fill →
    ((x.slot b).held && (x.slot b).counted) = false →
    x.level ≠ 0 ∨ icountOf x.ystate + 1 ≤ deadlineOf x.ystate → p ∈ readSpots g x b i →
    let here : State := { s with cur := some ⟨g, b⟩ }
    (n = 2 → step s = .next { (here.freeze g 5) with turn := k + 2 }) ∧
    (n = 1 → ∃ u, step s = exec i u ∧
      u = { here with turn := k + 2, groups := u.groups, pms := u.pms, cores := u.cores, dies := u.dies, parts := u.parts } ∧
      HasGroup u g (x.counted b (endsWindow i) s.aclk) ∧ OthersKept s u g ∧ counts u (coreOf g))) ∧
  (∀ c x, s.cur = some c → HasGroup s c.g x →
    (∀ a : CtlArgs, p = .split c.g x.splitIx.toNat → srNum a = 0x042 → srRead 0x042 x.level a.dst = .ok →
      isV a.dst = false → x.uniPred a.hd = true → stops c (.sysrd a)) ∧
    ∀ a : MemArgs, let size := a.ty.width / 8
      let blk := s.blk x.blk
      let as := (Mask.lanes (x.actives c.slotB a.hd)).map fun l =>
        (⟨l, x.srcX a.sa l + a.e.disp.signExtend 64, size⟩ : LaneAcc)
      (∀ e j i w, e ∈ as → s.scLoc blk e.addr = .own j i → scNotReady s blk as = false → w < (i % 4 + size + 3) / 4 →
        p = .cell (blk.arrKey j) (i / 4 + w) → scBad s blk as = [] →
        orderWait (s.before c x) (memRel a) a.e.scope.toNat = false → stops c (.lds a)) ∧
      ∀ l, l ∈ accLines as → p = .l1 (coreOf c.g) l → n ≠ 0 → Passes s c x size as →
        orderWait (s.before c x) (memRel a) a.e.scope.toNat = false →
        (s.core (coreOf c.g)).l1Find (s.asidAt x.ctx (coreOf c.g)) l true ≠ none → ∃ t, exec (.ld a) s = .next t ∧
          t.mem = s.mem ∧ counts t (coreOf c.g) ∧ (t.core (coreOf c.g)).l1Find (s.asidAt x.ctx (coreOf c.g)) l true = none) ∧
  ∀ bank e r row seg o, p = .row bank row seg → n ≠ 0 → (s.bank bank).queue = e :: r → (s.bank bank).busy = true →
    Tab.get? s.ops e.op = some o → o.cls ≠ 0 → o.cls ≠ 3 → o.gone = false →
    let b := s.bank bank
    let halts (rows : Nat → Nat → Prop) : Prop := ∃ t, exec (.agateCommandComplete bank) s = .next t ∧ t.ops = s.ops ∧
      (t.bank bank).queue = r ∧ (t.bank bank).busy = false ∧
      (∀ x, HasGroup s o.g x → HasGroup t o.g { x with frozen := true }) ∧
      ∀ k, rows k (Tab.getD (t.bank bank).rows 0 k)
    (∀ hd w sg a, e.cmd = .red hd w sg a → hd ≤ row → row < hd + w → halts fun k v => v = Tab.getD b.rows 0 k) ∧
    ∀ sub hd ha hb hm w sg k c q, e.cmd = .op sub hd ha hb hm w sg k c → q < w → row ∈ agopReads sub ha hb hm w sg k q →
      halts fun m v => v = Tab.getD b.rows 0 m ∨
        ∃ i, m = hd + i ∧ row ∉ agopReads sub ha hb hm w sg k i ∧ (agopRows b sub ha hb hm w sg k c)[i]? = some v
end

