-- ==== Sys2Proof/Laws/Tab.lean ====
section
/-! SUPPORT. Tables: what a key reads after a put, a removal, a set or a change, and that each of them keeps the keys
of a table rising. -/

namespace Sys2Proof.Machine

variable {α : Type}

/-! ## Reading -/

theorem Tab.get?_put (t : Tab α) (k j : Nat) (x : α) :
    Tab.get? (Tab.put t k x) j = if j = k then some x else Tab.get? t j := by
  induction t with
  | nil => simp only [Tab.put, Tab.get?, eq_comm]
  | cons e r ih =>
    obtain ⟨i, y⟩ := e
    simp only [Tab.put]
    split
    · rename_i h
      subst h
      simp only [Tab.get?]
      by_cases hj : j = i
      · simp [hj]
      · simp [hj, Ne.symm hj]
    · split
      · simp only [Tab.get?, eq_comm]
      · rename_i h _
        simp only [Tab.get?, ih]
        by_cases hj : j = k
        · subst hj; simp [h]
        · simp [hj]

theorem Tab.get?_put_self (t : Tab α) (k : Nat) (x : α) : Tab.get? (Tab.put t k x) k = some x := by
  simp [Tab.get?_put]

theorem Tab.get?_put_ne (t : Tab α) {k j : Nat} (x : α) (h : j ≠ k) :
    Tab.get? (Tab.put t k x) j = Tab.get? t j := by
  simp [Tab.get?_put, h]

theorem Tab.get?_del (t : Tab α) (k j : Nat) : Tab.get? (Tab.del t k) j = if j = k then none else Tab.get? t j := by
  unfold Tab.del
  induction t with
  | nil => simp [Tab.get?]
  | cons e r ih =>
    obtain ⟨i, y⟩ := e
    by_cases hi : i = k
    · subst hi
      simp only [List.filter_cons, ne_eq, not_true_eq_false, decide_false, Bool.false_eq_true, if_false, ih]
      by_cases hj : j = i
      · simp [hj]
      · simp [hj, Tab.get?, Ne.symm hj]
    · simp only [List.filter_cons, ne_eq, hi, not_false_eq_true, decide_true, if_true, Tab.get?, ih]
      by_cases hj : j = k
      · subst hj; simp [hi]
      · simp [hj]

theorem Tab.get?_mod (t : Tab α) (k j : Nat) (f : α → α) :
    Tab.get? (Tab.mod t k f) j = if j = k then (Tab.get? t k).map f else Tab.get? t j := by
  unfold Tab.mod
  split
  · rename_i x h; rw [Tab.get?_put, h]; rfl
  · rename_i h
    split
    · rename_i hj; rw [hj, h]; rfl
    · rfl

/-- A table restricted to some keys. -/
theorem Tab.getD_filter {α} (t : Tab α) (d : α) (p : Nat → Bool) (k : Nat) :
    Tab.getD (t.filter fun e => p e.1) d k = if p k then Tab.getD t d k else d := by
  unfold Tab.getD
  induction t with
  | nil => simp [Tab.get?]
  | cons e r ih =>
    by_cases he : p e.1 = true <;> by_cases hk : e.1 = k
    · subst hk; simp [he, Tab.get?]
    · simp only [List.filter_cons, he, if_true, Tab.get?, if_neg hk]; exact ih
    · subst hk; simp only [List.filter_cons, he] at ih ⊢; simpa using ih
    · simp only [List.filter_cons, he, Tab.get?, if_neg hk]; simpa using ih

theorem Tab.getD_put (t : Tab α) (d : α) (k j : Nat) (x : α) :
    Tab.getD (Tab.put t k x) d j = if j = k then x else Tab.getD t d j := by
  unfold Tab.getD
  rw [Tab.get?_put]
  split <;> rfl

theorem Tab.getD_set [DecidableEq α] (t : Tab α) (d : α) (k j : Nat) (x : α) :
    Tab.getD (Tab.set t d k x) d j = if j = k then x else Tab.getD t d j := by
  unfold Tab.set
  split
  · rename_i h
    unfold Tab.getD
    rw [Tab.get?_del]
    split
    · exact h.symm
    · rfl
  · exact Tab.getD_put t d k j x

/-! ## Keys rising -/

/-- Every key of a table is above `k`. -/
def Tab.above (t : Tab α) (k : Nat) : Prop := ∀ e ∈ t, k < e.1

theorem Tab.sorted_cons {i : Nat} {x : α} {t : Tab α} :
    Tab.sorted ((i, x) :: t) = true ↔ Tab.above t i ∧ Tab.sorted t = true := by
  induction t generalizing i x with
  | nil => simp [Tab.sorted, Tab.above]
  | cons e r ih =>
    obtain ⟨j, y⟩ := e
    simp only [Tab.sorted, Bool.and_eq_true, decide_eq_true_eq]
    constructor
    · rintro ⟨h, hs⟩
      refine ⟨?_, hs⟩
      intro e he
      rcases List.mem_cons.1 he with rfl | he
      · exact h
      · exact Nat.lt_trans h ((ih.1 hs).1 e he)
    · rintro ⟨h, hs⟩
      exact ⟨h (j, y) List.mem_cons_self, hs⟩

theorem Tab.mem_put {t : Tab α} {k : Nat} {x : α} {e : Nat × α} (h : e ∈ Tab.put t k x) : e = (k, x) ∨ e ∈ t := by
  induction t with
  | nil => left; simpa [Tab.put] using h
  | cons a r ih =>
    obtain ⟨i, y⟩ := a
    simp only [Tab.put] at h
    split at h
    · rcases List.mem_cons.1 h with h | h
      · exact .inl h
      · exact .inr (List.mem_cons_of_mem _ h)
    · split at h
      · rcases List.mem_cons.1 h with h | h
        · exact .inl h
        · exact .inr h
      · rcases List.mem_cons.1 h with h | h
        · exact .inr (h ▸ List.mem_cons_self)
        · rcases ih h with h | h
          · exact .inl h
          · exact .inr (List.mem_cons_of_mem _ h)

theorem Tab.mem_del {t : Tab α} {k : Nat} {e : Nat × α} (h : e ∈ Tab.del t k) : e ∈ t :=
  (List.mem_filter.1 h).1

theorem Tab.sorted_put {t : Tab α} (k : Nat) (x : α) (h : Tab.sorted t = true) : Tab.sorted (Tab.put t k x) = true := by
  induction t with
  | nil => rfl
  | cons e r ih =>
    obtain ⟨i, y⟩ := e
    have hr := Tab.sorted_cons.1 h
    simp only [Tab.put]
    split
    · rename_i h1
      exact Tab.sorted_cons.2 ⟨h1 ▸ hr.1, hr.2⟩
    · split
      · rename_i h1 h2
        refine Tab.sorted_cons.2 ⟨?_, h⟩
        intro e he
        rcases List.mem_cons.1 he with rfl | he
        · exact h2
        · exact Nat.lt_trans h2 (hr.1 e he)
      · rename_i h1 h2
        refine Tab.sorted_cons.2 ⟨?_, ih hr.2⟩
        intro e he
        rcases Tab.mem_put he with rfl | he
        · show i < k; omega
        · exact hr.1 e he

theorem Tab.sorted_del {t : Tab α} (k : Nat) (h : Tab.sorted t = true) : Tab.sorted (Tab.del t k) = true := by
  induction t with
  | nil => rfl
  | cons e r ih =>
    obtain ⟨i, y⟩ := e
    have hr := Tab.sorted_cons.1 h
    have hd := ih hr.2
    by_cases hi : i = k
    · simpa [Tab.del, List.filter_cons, hi] using hd
    · have : Tab.del ((i, y) :: r) k = (i, y) :: Tab.del r k := by simp [Tab.del, List.filter_cons, hi]
      rw [this]
      exact Tab.sorted_cons.2 ⟨fun e he => hr.1 e (Tab.mem_del he), hd⟩

theorem Tab.sorted_set [DecidableEq α] {t : Tab α} (d : α) (k : Nat) (x : α) (h : Tab.sorted t = true) :
    Tab.sorted (Tab.set t d k x) = true := by
  unfold Tab.set
  split
  · exact Tab.sorted_del k h
  · exact Tab.sorted_put k x h

end Sys2Proof.Machine
end

