-- ==== Sys2Proof/Laws/Elem.lean ====
section
/-! SUPPORT. Fields of a word and elements of a lane word: what a write leaves and what a read gives. -/

namespace Sys2Proof.Machine

/-! ## Fields -/

theorem bitsN_testBit (x lo n i : Nat) : (bitsN x lo n).testBit i = (decide (i < n) && x.testBit (lo + i)) := by
  unfold bitsN
  rw [Nat.testBit_mod_two_pow, Nat.testBit_div_two_pow, Nat.add_comm i lo]

/-- Bit `i` of a word with a field replaced. -/
theorem setFld_testBit (x : W64) (lo n v i : Nat) (h : i < 64) :
    (setFld x lo n v).toNat.testBit i = if lo ≤ i ∧ i < lo + n then v.testBit (i - lo) else x.toNat.testBit i := by
  have hx : x.toNat = 2 ^ lo * (2 ^ n * (x.toNat / 2 ^ lo / 2 ^ n) + x.toNat / 2 ^ lo % 2 ^ n) + x.toNat % 2 ^ lo := by
    rw [Nat.div_add_mod, Nat.div_add_mod]
  have e : x.toNat - bitsN x.toNat lo n * 2 ^ lo + v % 2 ^ n * 2 ^ lo =
      2 ^ lo * (2 ^ n * (x.toNat / 2 ^ lo / 2 ^ n) + v % 2 ^ n) + x.toNat % 2 ^ lo := by
    unfold bitsN
    generalize x.toNat / 2 ^ lo / 2 ^ n = a at hx ⊢
    generalize x.toNat / 2 ^ lo % 2 ^ n = b at hx ⊢
    generalize x.toNat % 2 ^ lo = c at hx ⊢
    rw [hx]
    simp only [Nat.mul_add]
    generalize 2 ^ lo * (2 ^ n * a) = q
    rw [Nat.mul_comm b, Nat.mul_comm (v % 2 ^ n)]
    omega
  unfold setFld
  rw [BitVec.toNat_ofNat, Nat.testBit_mod_two_pow, e]
  have hc : x.toNat % 2 ^ lo < 2 ^ lo := Nat.mod_lt _ (Nat.two_pow_pos _)
  have hv : v % 2 ^ n < 2 ^ n := Nat.mod_lt _ (Nat.two_pow_pos _)
  simp only [h, decide_true, Bool.true_and]
  rw [Nat.testBit_two_pow_mul_add _ hc, Nat.testBit_two_pow_mul_add _ hv, Nat.testBit_mod_two_pow]
  by_cases h1 : i < lo
  · have : ¬ (lo ≤ i ∧ i < lo + n) := by omega
    rw [if_pos h1, if_neg this]
    simp [h1]
  · rw [if_neg h1]
    by_cases h2 : i - lo < n
    · rw [if_pos h2, if_pos (by omega)]
      simp [h2]
    · rw [if_neg h2, if_neg (by omega), Nat.testBit_div_two_pow, Nat.testBit_div_two_pow]
      congr 1
      omega

theorem fld_setFld_self (x : W64) (lo n v : Nat) (h : lo + n ≤ 64) : fld (setFld x lo n v) lo n = v % 2 ^ n := by
  apply Nat.eq_of_testBit_eq
  intro i
  unfold fld
  rw [bitsN_testBit, Nat.testBit_mod_two_pow]
  by_cases hi : i < n
  · rw [setFld_testBit _ _ _ _ _ (by omega), if_pos (by omega)]
    simp
  · simp [hi]

theorem fld_setFld_ne (x : W64) (lo n v l m : Nat) (h : l + m ≤ 64) (hd : l + m ≤ lo ∨ lo + n ≤ l) :
    fld (setFld x lo n v) l m = fld x l m := by
  apply Nat.eq_of_testBit_eq
  intro i
  unfold fld
  rw [bitsN_testBit, bitsN_testBit]
  by_cases hi : i < m
  · rw [setFld_testBit _ _ _ _ _ (by omega), if_neg (by omega)]
  · simp [hi]

/-! ## Elements -/

theorem elem_eq_fld (w : Nat) (x : W64) (e : Nat) : elem w x e = fld x (w * e) w := rfl

theorem elem_fits {w k : Nat} (h : k < 64 / w) : w * k + w ≤ 64 := by
  have h1 : k + 1 ≤ 64 / w := h
  have h2 := Nat.mul_le_of_le_div w (k + 1) 64 h1
  rw [Nat.add_mul, Nat.one_mul, Nat.mul_comm] at h2
  exact h2

theorem elem_setElem_self (w : Nat) (x : W64) (e v : Nat) (h : e < 64 / w) : elem w (setElem w x e v) e = v % 2 ^ w :=
  fld_setFld_self _ _ _ _ (elem_fits h)

theorem elem_setElem_ne (w : Nat) (x : W64) (e v k : Nat) (h : k < 64 / w) (hk : k ≠ e) :
    elem w (setElem w x e v) k = elem w x k := by
  refine fld_setFld_ne _ _ _ _ _ _ (elem_fits h) ?_
  rcases Nat.lt_or_gt_of_ne hk with h1 | h1
  · left
    have : w * (k + 1) ≤ w * e := Nat.mul_le_mul_left w h1
    rw [Nat.mul_add, Nat.mul_one] at this; exact this
  · right
    have : w * (e + 1) ≤ w * k := Nat.mul_le_mul_left w h1
    rw [Nat.mul_add, Nat.mul_one] at this; exact this

/-- One destination element (R234). -/
theorem elem_putElem (t : Ty) (sel : Sel) (y : W64) (e v k : Nat) (h : k < 64 / (dstTy t sel).width) :
    elem (dstTy t sel).width (putElem t sel y e v) k =
      if k = dstSlot sel e then v % 2 ^ (dstTy t sel).width else elem (dstTy t sel).width y k := by
  have key : ∀ z : W64, elem (dstTy t sel).width
      (if (dstTy t sel).width = 6 then setFld z 60 4 0 else z) k = elem (dstTy t sel).width z k := by
    intro z
    split
    · rename_i h6
      rw [h6] at h ⊢
      exact fld_setFld_ne _ _ _ _ _ _ (elem_fits h) (by left; omega)
    · rfl
  unfold putElem
  dsimp only
  rw [key]
  change elem _ (setElem _ _ (dstSlot sel e) v) k = _
  split
  · rename_i he; rw [← he]; exact elem_setElem_self _ _ _ _ h
  · rename_i he; exact elem_setElem_ne _ _ _ _ _ h he

theorem dstSlot_inj (sel : Sel) {a b : Nat} (h : dstSlot sel a = dstSlot sel b) : a = b := by
  unfold dstSlot at h
  split at h <;> omega

/-- The new word of a lane. -/
def newWord (t : Ty) (sel : Sel) (f : Nat → Option Nat) (old : W64) (es : List Nat) : W64 :=
  es.foldl (fun y e => match f e with | some v => putElem t sel y e v | none => y) old

theorem newWord_other (t : Ty) (sel : Sel) (f : Nat → Option Nat) (es : List Nat) (old : W64) (k : Nat)
    (h : k < 64 / (dstTy t sel).width) (hk : ∀ e ∈ es, ∀ y, f e = some y → k ≠ dstSlot sel e) :
    elem (dstTy t sel).width (newWord t sel f old es) k = elem (dstTy t sel).width old k := by
  induction es generalizing old with
  | nil => rfl
  | cons e r ih =>
    unfold newWord
    rw [List.foldl_cons]
    change elem _ (newWord t sel f _ r) k = _
    rw [ih _ fun e' he' => hk e' (List.mem_cons_of_mem _ he')]
    split
    · rename_i v hv
      rw [elem_putElem _ _ _ _ _ _ h, if_neg (hk e List.mem_cons_self v hv)]
    · rfl

theorem newWord_self (t : Ty) (sel : Sel) (f : Nat → Option Nat) (es : List Nat) (old : W64) (e v : Nat)
    (h : dstSlot sel e < 64 / (dstTy t sel).width) (he : e ∈ es) (hn : es.Nodup) (hv : f e = some v) :
    elem (dstTy t sel).width (newWord t sel f old es) (dstSlot sel e) = v % 2 ^ (dstTy t sel).width := by
  induction es generalizing old with
  | nil => cases he
  | cons a r ih =>
    unfold newWord
    rw [List.foldl_cons]
    change elem _ (newWord t sel f _ r) _ = _
    rw [List.nodup_cons] at hn
    rcases List.mem_cons.1 he with rfl | hr
    · rw [newWord_other _ _ _ _ _ _ h]
      · simp only [hv]
        rw [elem_putElem _ _ _ _ _ _ h, if_pos rfl]
      · intro e' he' y _ heq
        exact hn.1 (dstSlot_inj sel heq ▸ he')
    · exact ih _ hr hn.2

/-! ## Registers -/

@[simp] theorem Group.getV_setV (x : Group) (n l m k : Nat) (w : W64) (hl : l < 32) (hk : k < 32) :
    (x.setV n l w).getV m k = if m = n ∧ k = l then w else x.getV m k := by
  unfold Group.getV Group.setV
  rw [Tab.getD_set]
  by_cases h : m = n ∧ k = l
  · rw [if_pos h, if_pos (by rw [h.1, h.2])]
  · rw [if_neg h, if_neg (by omega)]

@[simp] theorem Group.getS_setS (x : Group) (n m : Nat) (w : W64) : (x.setS n w).getS m = if m = n then w else x.getS m := by
  unfold Group.getS Group.setS
  rw [Tab.getD_set]

@[simp] theorem Group.getP_setP (x : Group) (n l m k : Nat) (w : BitVec 16) (hl : l < 32) (hk : k < 32) :
    (x.setP n l w).getP m k = if m ≠ 0 ∧ m = n ∧ k = l then w else x.getP m k := by
  unfold Group.getP Group.setP
  by_cases h0 : m = 0
  · simp [h0]
  · by_cases hn : n = 0
    · simp [hn, h0]
    · rw [if_neg h0, if_neg hn, Tab.getD_set]
      by_cases h : m = n ∧ k = l
      · rw [if_pos (by rw [h.1, h.2]), if_pos ⟨h0, h⟩]
      · rw [if_neg (by omega), if_neg (fun e => h e.2), if_neg h0]

@[simp] theorem Group.getS_setV (x : Group) (n l m : Nat) (w : W64) : (x.setV n l w).getS m = x.getS m := rfl
@[simp] theorem Group.getP_setV (x : Group) (n l m k : Nat) (w : W64) : (x.setV n l w).getP m k = x.getP m k := rfl
@[simp] theorem Group.getV_setS (x : Group) (n m k : Nat) (w : W64) : (x.setS n w).getV m k = x.getV m k := rfl
@[simp] theorem Group.getP_setS (x : Group) (n m k : Nat) (w : W64) : (x.setS n w).getP m k = x.getP m k := rfl
@[simp] theorem Group.getV_setP (x : Group) (n l m k : Nat) (w : BitVec 16) : (x.setP n l w).getV m k = x.getV m k := by
  unfold Group.setP; split <;> rfl
@[simp] theorem Group.getS_setP (x : Group) (n l m : Nat) (w : BitVec 16) : (x.setP n l w).getS m = x.getS m := by
  unfold Group.setP; split <;> rfl

theorem RegsKept.refl (x : Group) (ds : List Dst) : RegsKept x x ds := ⟨fun _ _ _ _ => rfl, fun _ _ => rfl, fun _ _ _ _ => rfl⟩

theorem RegsKept.trans {x y z : Group} {ds : List Dst} (h : RegsKept x y ds) (k : RegsKept y z ds) : RegsKept x z ds :=
  ⟨fun n l hl hn => (k.1 n l hl hn).trans (h.1 n l hl hn), fun n hn => (k.2.1 n hn).trans (h.2.1 n hn),
   fun n l hl hn => (k.2.2 n l hl hn).trans (h.2.2 n l hl hn)⟩

theorem RegsKept.mono {x y : Group} {ds es : List Dst} (h : RegsKept x y ds) (hs : ∀ d ∈ ds, d ∈ es) : RegsKept x y es :=
  ⟨fun n l hl hn => h.1 n l hl fun hd => hn (hs _ hd), fun n hn => h.2.1 n fun hd => hn (hs _ hd),
   fun n l hl hn => h.2.2 n l hl fun hd => hn (hs _ hd)⟩

/-- Two groups with the same register tables. -/
theorem RegsKept.of_eq {x y : Group} (hv : y.v = x.v) (hs : y.s = x.s) (hp : y.p = x.p) (ds : List Dst) :
    RegsKept x y ds := by
  refine ⟨fun n l _ _ => ?_, fun n _ => ?_, fun n l _ _ => ?_⟩
  · unfold Group.getV; rw [hv]
  · unfold Group.getS; rw [hs]
  · unfold Group.getP; rw [hp]

/-- The register a write names. -/
def RegWr.dst : RegWr → Dst
  | .v n _ _ => .v n
  | .s n _ => .s n
  | .p n _ _ => .p n

/-- The lane of a write is one of the 32. -/
def RegWr.inLane : RegWr → Prop
  | .v _ l _ => l < 32
  | .p _ l _ => l < 32
  | .s _ _ => True

theorem RegsKept.regWr (x : Group) (w : RegWr) (h : w.inLane) : RegsKept x (x.regWr w) [w.dst] := by
  cases w with
  | v n l y =>
    refine ⟨fun m k hk hm => ?_, fun m _ => rfl, fun m k _ _ => rfl⟩
    have : m ≠ n := fun e => hm (by simp [RegWr.dst, e])
    show (x.setV n l y).getV m k = _
    rw [Group.getV_setV _ _ _ _ _ _ h hk, if_neg (fun e => this (by simp_all))]
  | s n y =>
    refine ⟨fun m k _ _ => rfl, fun m hm => ?_, fun m k _ _ => rfl⟩
    have : m ≠ n := fun e => hm (by simp [RegWr.dst, e])
    show (x.setS n y).getS m = _
    rw [Group.getS_setS, if_neg this]
  | p n l y =>
    refine ⟨fun m k _ _ => Group.getV_setP .., fun m _ => Group.getS_setP .., fun m k hk hm => ?_⟩
    have : m ≠ n := fun e => hm (by simp [RegWr.dst, e])
    show (x.setP n l y).getP m k = _
    rw [Group.getP_setP _ _ _ _ _ _ h hk, if_neg (fun e => this (by simp_all))]

/-- Writes of a result leave every other register alone. -/
theorem RegsKept.writes (ws : List RegWr) (x : Group) (ds : List Dst) (h : ∀ w ∈ ws, w.inLane ∧ w.dst ∈ ds) :
    RegsKept x (ws.foldl Group.regWr x) ds := by
  induction ws generalizing x with
  | nil => exact .refl _ _
  | cons w r ih =>
    rw [List.foldl_cons]
    have hw := h w List.mem_cons_self
    refine .trans (.mono (.regWr x w hw.1) ?_) (ih _ fun w' hw' => h w' (List.mem_cons_of_mem _ hw'))
    intro d hd
    rw [List.mem_singleton] at hd
    exact hd ▸ hw.2

/-! ## Lane writes -/

theorem foldl_v_get (g : Nat → Option W64) (n : Nat) (ls : List Nat) (x : Group) (hl : ∀ l ∈ ls, l < 32) (hn : ls.Nodup)
    (l : Nat) (h : l < 32) :
    ((ls.filterMap fun l => (g l).map (RegWr.v n l)).foldl Group.regWr x).getV n l =
      if l ∈ ls then (g l).getD (x.getV n l) else x.getV n l := by
  induction ls generalizing x with
  | nil => rfl
  | cons a r ih =>
    rw [List.nodup_cons] at hn
    have ha : a < 32 := hl a List.mem_cons_self
    have hr : ∀ l ∈ r, l < 32 := fun l hm => hl l (List.mem_cons_of_mem _ hm)
    cases hg : g a with
    | none =>
      rw [List.filterMap_cons_none (by simp [hg]), ih _ hr hn.2]
      by_cases hla : l = a
      · subst hla; simp [hn.1, hg]
      · simp [hla]
    | some w =>
      rw [List.filterMap_cons_some (by rw [hg]; rfl), List.foldl_cons, ih _ hr hn.2]
      have e : (x.regWr (.v n a w)).getV n l = if l = a then w else x.getV n l := by
        show (x.setV n a w).getV n l = _
        rw [Group.getV_setV _ _ _ _ _ _ ha h]; simp
      rw [e]
      by_cases hla : l = a
      · subst hla; simp [hn.1, hg]
      · simp [hla]

/-- What the writes of a vector result make of the registers (R41, R234, R274). -/
theorem laneWrites_written (x : Group) (o : Opnd) (t : Ty) (sel : Sel) (f : Nat → Nat → Option Nat) :
    VecWritten x ((x.laneWrites o t sel f).foldl Group.regWr x) o t sel f := by
  have wr : ∀ n, o = .v n → x.laneWrites o t sel f = lanes32.filterMap fun l =>
      ((if newWord t sel (f l) (x.getV n.toNat l) (List.range t.count) = x.getV n.toNat l then none
        else some (newWord t sel (f l) (x.getV n.toNat l) (List.range t.count))) : Option W64).map (RegWr.v n.toNat l) := by
    intro n hn
    subst hn
    unfold Group.laneWrites
    dsimp only
    congr 1
    funext l
    change (if newWord t sel (f l) (x.getV n.toNat l) (List.range t.count) = _ then _ else _) = _
    split <;> rfl
  constructor
  · apply RegsKept.writes
    intro w hw
    unfold Group.laneWrites at hw
    split at hw
    · rename_i n
      rw [List.mem_filterMap] at hw
      obtain ⟨l, hl, hw⟩ := hw
      have hl' : l < 32 := List.mem_range.1 hl
      dsimp only at hw
      split at hw
      · cases hw
      · cases hw; exact ⟨hl', List.mem_singleton.2 rfl⟩
    · cases hw
  · intro n hn l hl
    rw [wr n hn]
    have hg := foldl_v_get (fun l => if newWord t sel (f l) (x.getV n.toNat l) (List.range t.count) = x.getV n.toNat l then none
        else some (newWord t sel (f l) (x.getV n.toNat l) (List.range t.count))) n.toNat lanes32 x
        (fun l h => List.mem_range.1 h) List.nodup_range l hl
    rw [if_pos (show l ∈ lanes32 from List.mem_range.2 hl)] at hg
    have hg' : ((lanes32.filterMap fun l =>
      ((if newWord t sel (f l) (x.getV n.toNat l) (List.range t.count) = x.getV n.toNat l then none
        else some (newWord t sel (f l) (x.getV n.toNat l) (List.range t.count))) : Option W64).map
        (RegWr.v n.toNat l)).foldl Group.regWr x).getV n.toNat l =
        newWord t sel (f l) (x.getV n.toNat l) (List.range t.count) := by
      rw [hg]
      split
      · rename_i he; exact he.symm
      · rfl
    rw [hg']
    constructor
    · intro e he hs y hy
      exact newWord_self t sel (f l) _ _ e y hs (List.mem_range.2 he) List.nodup_range hy
    · intro k hk hno
      exact newWord_other t sel (f l) _ _ k hk fun e he y hy => hno e y (List.mem_range.1 he) hy

/-! ## Predicate words -/

theorem setPBit_testBit (p : BitVec 16) (e i : Nat) (b : Bool) (h : i < 16) :
    (setPBit p e b).toNat.testBit i = if i = e then b else p.toNat.testBit i := by
  have := setFld_testBit (p.setWidth 64) e 1 (b2n b) i (by omega)
  have hp := p.isLt
  have e1 : (p.setWidth 64).toNat = p.toNat := by simp; omega
  unfold setFld at this
  rw [e1, BitVec.toNat_ofNat, Nat.testBit_mod_two_pow] at this
  unfold setPBit
  rw [BitVec.toNat_ofNat, Nat.testBit_mod_two_pow]
  have hb : b2n b % 2 ^ 1 = b2n b := by cases b <;> rfl
  rw [hb] at this
  simp only [h, show i < 64 by omega, decide_true, Bool.true_and] at this ⊢
  rw [this]
  by_cases hie : i = e
  · subst hie; simp; cases b <;> rfl
  · rw [if_neg hie, if_neg (by omega)]

/-- Bit `i` of a predicate word built from its bits. -/
theorem pOf_testBit (n : Nat) (f : Nat → Bool) (i : Nat) (h : i < 16) :
    (pOf n f).toNat.testBit i = (decide (i < n) && f i) := by
  have key : ∀ l : List Nat, ∀ p : BitVec 16, l.Nodup → (l.foldl (fun p e => setPBit p e (f e)) p).toNat.testBit i =
      if i ∈ l then f i else p.toNat.testBit i := by
    intro l
    induction l with
    | nil => intro p _; simp
    | cons a r ih =>
      intro p hn
      rw [List.nodup_cons] at hn
      rw [List.foldl_cons, ih _ hn.2, setPBit_testBit _ _ _ _ h]
      by_cases hr : i ∈ r
      · simp [hr]
      · by_cases ha : i = a
        · subst ha; simp [hr]
        · simp [hr, ha]
  unfold pOf
  rw [key _ _ List.nodup_range]
  by_cases hi : i < n <;> simp [hi]

/-- A predicate register written in all lanes (R297). -/
theorem setPall_get (x : Group) (k l : Nat) (p : BitVec 16) (hl : l < 32) (hk : k ≠ 0) : (x.setPall k p).getP k l = p := by
  have key : ∀ ls : List Nat, ∀ x : Group, (∀ m ∈ ls, m < 32) → (ls.foldl (fun x l => x.setP k l p) x).getP k l =
      if l ∈ ls then p else x.getP k l := by
    intro ls
    induction ls with
    | nil => intro x _; simp
    | cons a r ih =>
      intro x hm
      rw [List.foldl_cons, ih _ (fun m h => hm m (List.mem_cons_of_mem _ h)), Group.getP_setP _ _ _ _ _ _ (hm a List.mem_cons_self) hl]
      by_cases hr : l ∈ r
      · simp [hr]
      · by_cases ha : l = a <;> simp [hr, ha, hk]
  unfold Group.setPall
  rw [key lanes32 x (fun m h => List.mem_range.1 h), if_pos (show l ∈ lanes32 from List.mem_range.2 hl)]

theorem setPall_kept (x : Group) (k : Nat) (p : BitVec 16) : RegsKept x (x.setPall k p) [.p k] ∧
    x.setPall k p = { x with v := (x.setPall k p).v, s := (x.setPall k p).s, p := (x.setPall k p).p } := by
  unfold Group.setPall
  have key : ∀ ls : List Nat, ∀ x : Group, (∀ m ∈ ls, m < 32) →
    let y := ls.foldl (fun x l => x.setP k l p) x
    RegsKept x y [.p k] ∧ y = { x with v := y.v, s := y.s, p := y.p } := by
    intro ls
    induction ls with
    | nil => intro x _; exact ⟨.refl _ _, rfl⟩
    | cons a r ih =>
      intro x hm
      obtain ⟨h1, h2⟩ := ih (x.setP k a p) (fun m h => hm m (List.mem_cons_of_mem _ h))
      refine ⟨.trans (RegsKept.regWr x (.p k a p) (hm a List.mem_cons_self)) h1, ?_⟩
      have h3 : x.setP k a p = { x with p := (x.setP k a p).p } := by unfold Group.setP; split <;> rfl
      show List.foldl _ (x.setP k a p) r = _
      dsimp only [List.foldl_cons]
      generalize List.foldl (fun x l => x.setP k l p) (x.setP k a p) r = y at h2 ⊢
      generalize x.setP k a p = x' at h2 h3
      rw [h2, h3]
  exact key lanes32 x (fun m h => List.mem_range.1 h)

/-- P0 takes no write (R40). -/
theorem setPall_zero (x : Group) (p : BitVec 16) : x.setPall 0 p = x := by
  unfold Group.setPall
  generalize lanes32 = ls
  induction ls with
  | nil => rfl
  | cons a r ih => rw [List.foldl_cons]; exact ih

/-! ## Lane masks -/

theorem sum_pow_testBit (p : Nat → Bool) (n i : Nat) :
    (((List.range n).filter p).foldl (fun a l => a + 2 ^ l) 0).testBit i = (decide (i < n) && p i) ∧
    ((List.range n).filter p).foldl (fun a l => a + 2 ^ l) 0 < 2 ^ n := by
  induction n with
  | zero => simp
  | succ n ih =>
    obtain ⟨h1, h2⟩ := ih
    rw [List.range_succ, List.filter_append, List.foldl_append]
    generalize ((List.range n).filter p).foldl (fun a l => a + 2 ^ l) 0 = q at h1 h2
    have hp : 2 ^ (n + 1) = 2 ^ n + 2 ^ n := by omega
    cases hn : p n with
    | false =>
      rw [show List.filter p [n] = [] by simp [hn]]
      refine ⟨?_, by simp only [List.foldl_nil]; omega⟩
      show q.testBit i = _
      rw [h1]
      by_cases h : i = n
      · subst h; simp [hn]
      · have : i < n + 1 ↔ i < n := by omega
        simp [this]
    | true =>
      rw [show List.filter p [n] = [n] by simp [hn]]
      refine ⟨?_, by simp only [List.foldl_cons, List.foldl_nil]; omega⟩
      show (q + 2 ^ n).testBit i = _
      rw [Nat.add_comm, show 2 ^ n + q = 2 ^ n * 1 + q by omega, Nat.testBit_two_pow_mul_add _ h2]
      by_cases h : i < n
      · rw [if_pos h, h1]; simp [h, show i < n + 1 by omega]
      · rw [if_neg h]
        by_cases h' : i = n
        · subst h'; simp [hn]
        · have : ¬ i < n + 1 := by omega
          simp only [this, decide_false, Bool.false_and]
          exact Nat.testBit_lt_two_pow (Nat.lt_of_lt_of_le (by decide : 1 < 2 ^ 1) (Nat.pow_le_pow_right (by decide) (by omega)))

/-- Lane `l` of a mask built from a test. -/
theorem Mask.has_of (f : Nat → Bool) (l : Nat) (h : l < 32) : Mask.has (Mask.of f) l = f l := by
  unfold Mask.has Mask.of
  obtain ⟨h1, h2⟩ := sum_pow_testBit f 32 l
  rw [← Nat.testBit_eq_decide_div_mod_eq, BitVec.toNat_ofNat]
  show ((((List.range 32).filter f).foldl (fun a l => a + 2 ^ l) 0) % 2 ^ 32).testBit l = _
  rw [Nat.mod_eq_of_lt h2]
  rw [h1]; simp [h]

/-- A mask is determined by its 32 lanes. -/
theorem Mask.ext_lanes {m n : Mask} (h : ∀ l, l < 32 → Mask.has m l = Mask.has n l) : m = n := by
  apply BitVec.eq_of_getLsbD_eq
  intro i hi
  have := h i hi
  unfold Mask.has at this
  rw [← Nat.testBit_eq_decide_div_mod_eq, ← Nat.testBit_eq_decide_div_mod_eq] at this
  exact this

theorem Mask.has_and (m n : Mask) (l : Nat) : Mask.has (m &&& n) l = (Mask.has m l && Mask.has n l) := by
  unfold Mask.has
  rw [← Nat.testBit_eq_decide_div_mod_eq, ← Nat.testBit_eq_decide_div_mod_eq, ← Nat.testBit_eq_decide_div_mod_eq, BitVec.toNat_and,
    Nat.testBit_and]

theorem Mask.has_zero (l : Nat) : Mask.has 0 l = false := by unfold Mask.has; simp

theorem Mask.mem_lanes {m : Mask} {l : Nat} : l ∈ Mask.lanes m ↔ l < 32 ∧ Mask.has m l = true := by
  unfold Mask.lanes lanes32
  rw [List.mem_filter, List.mem_range]

/-! ## Bounds -/

theorem wrap_lt (w : Nat) (z : Int) : wrap w z < 2 ^ w := by
  unfold wrap
  have h1 := Int.emod_lt_of_pos z (show (0 : Int) < ((2 ^ w : Nat) : Int) by have := Nat.two_pow_pos w; omega)
  have h2 := Int.emod_nonneg z (show ((2 ^ w : Nat) : Int) ≠ 0 by have := Nat.two_pow_pos w; omega)
  omega

theorem elem_lt (w : Nat) (x : W64) (e : Nat) : elem w x e < 2 ^ w := Nat.mod_lt _ (Nat.two_pow_pos _)

theorem fitInt_lt (t : Ty) (sat : Bool) (z : Int) : fitInt t sat z < 2 ^ t.width := by
  unfold fitInt; dsimp only; split <;> exact wrap_lt _ _

end Sys2Proof.Machine
end

