-- ==== Sys2Proof/Laws/Encoding.lean ====
section
/-! SUPPORT. Every part of an instruction word reads back as it was written: types, rounding modes, selectors, modifier
blocks, operands by their class, the common layout and the extensions. -/

namespace Sys2Proof

/-! ## Fields -/

/-- Packed fields under a further number read back, each at its own width. -/
theorem unpackBits_packBits_add (l : List (Nat × Nat)) (y : Nat) :
    unpackBits (l.map Prod.fst) (packBits l + 2 ^ (l.map Prod.fst).sum * y) = l.map fun f => f.2 % 2 ^ f.1 := by
  induction l generalizing y with
  | nil => rfl
  | cons f r ih =>
    obtain ⟨n, x⟩ := f
    have hp : 0 < 2 ^ n := Nat.two_pow_pos n
    have e : packBits ((n, x) :: r) + 2 ^ (((n, x) :: r).map Prod.fst).sum * y =
        x % 2 ^ n + 2 ^ n * (packBits r + 2 ^ (r.map Prod.fst).sum * y) := by
      simp only [packBits, List.map_cons, List.sum_cons, Nat.pow_add, Nat.mul_add, Nat.mul_assoc, Nat.add_assoc]
    rw [e]
    simp only [List.map_cons, unpackBits, Nat.add_mul_mod_self_left, Nat.mod_mod,
      Nat.add_mul_div_left _ _ hp, Nat.div_eq_of_lt (Nat.mod_lt _ hp), Nat.zero_add, ih]

/-- Packed fields fit in their widths. -/
theorem packBits_lt (l : List (Nat × Nat)) : packBits l < 2 ^ (l.map Prod.fst).sum := by
  induction l with
  | nil => simp [packBits]
  | cons f r ih =>
    obtain ⟨n, x⟩ := f
    have hp : 0 < 2 ^ n := Nat.two_pow_pos n
    have hx := Nat.mod_lt x hp
    simp only [packBits, List.map_cons, List.sum_cons, Nat.pow_add]
    calc x % 2 ^ n + 2 ^ n * packBits r < 2 ^ n + 2 ^ n * packBits r := by omega
      _ = 2 ^ n * (packBits r + 1) := by rw [Nat.mul_add, Nat.mul_one, Nat.add_comm]
      _ ≤ 2 ^ n * 2 ^ (r.map Prod.fst).sum := Nat.mul_le_mul_left _ ih

/-! ## Codes -/

@[simp] theorem bitB_boolN (b : Bool) : bitB (boolN b) = b := by cases b <;> rfl

@[simp] theorem boolN_lt (b : Bool) : boolN b < 2 := by cases b <;> decide

theorem Ty.ofCode_code (t : Ty) : Ty.ofCode t.code = .ok t := by cases t <;> rfl

theorem Ty.code_lt (t : Ty) : t.code < 32 := by cases t <;> decide

theorem Rnd.ofCode_code (r : Rnd) : Rnd.ofCode r.code = .ok r := by cases r <;> rfl

theorem Rnd.code_lt (r : Rnd) : r.code < 8 := by cases r <;> decide

theorem XOp.all_code (x : XOp) : XOp.all[x.code]? = some x := by cases x <;> rfl

theorem YOp.all_code (y : YOp) : YOp.all[y.code]? = some y := by cases y <;> rfl

theorem XOp.code_lt (x : XOp) : x.code < 16 := by cases x <;> decide

theorem YOp.code_lt (y : YOp) : y.code < 32 := by cases y <;> decide

theorem Len.ofCode_code (l : Len) : Len.ofCode l.code = l := by cases l <;> rfl

theorem Len.code_lt (l : Len) : l.code < 3 := by cases l <;> decide

/-- A specifier fits its nine bits. -/
theorem Opnd.code_lt (o : Opnd) : o.code < 512 := by
  cases o <;> simp only [Opnd.code] <;> first
    | omega
    | (rename_i t; have := t.code_lt; omega)

/-! Where each range of specifiers reads. -/

theorem Opnd.ofCode_v (m : Nat) (h1 : m < 0x100) : Opnd.ofCode m = .ok (.v (.ofNat 8 m)) := by
  unfold Opnd.ofCode
  (repeat' split) <;> first | rfl | (exfalso; omega)

theorem Opnd.ofCode_s (m : Nat) (h0 : 0x100 ≤ m) (h1 : m < 0x180) : Opnd.ofCode m = .ok (.s (.ofNat 7 (m - 0x100))) := by
  unfold Opnd.ofCode
  (repeat' split) <;> first | rfl | (exfalso; omega)

theorem Opnd.ofCode_pv (m : Nat) (h0 : 0x190 ≤ m) (h1 : m < 0x1A0) : Opnd.ofCode m = .ok (.pv (.ofNat 4 (m - 0x190))) := by
  unfold Opnd.ofCode
  (repeat' split) <;> first | rfl | (exfalso; omega)

theorem Opnd.ofCode_small (m : Nat) (h0 : 0x1C0 ≤ m) (h1 : m < 0x1E0) : Opnd.ofCode m = .ok (.small (.ofNat 5 (m - 0x1C0))) := by
  unfold Opnd.ofCode
  (repeat' split) <;> first | rfl | (exfalso; omega)

theorem Opnd.ofCode_hnd (m : Nat) (h0 : 0x1E0 ≤ m) (h1 : m < 0x1F0) : Opnd.ofCode m = .ok (.hnd (.ofNat 4 (m - 0x1E0))) := by
  unfold Opnd.ofCode
  (repeat' split) <;> first | rfl | (exfalso; omega)

/-- An operand its class admits reads back from its specifier. -/
theorem Cls.parse_code (c : Cls) (o : Opnd) (h : c.admits o = true) : c.parse o.code = .ok o := by
  have key : ∀ o : Opnd, (match o with | .none | .preg _ | .tyc _ | .lnx _ _ => false | _ => true) = true →
      Opnd.ofCode o.code = .ok o := by
    intro o ho
    cases o with
    | none => simp at ho
    | preg k => simp at ho
    | tyc t => simp at ho
    | lnx k c => simp at ho
    | v n =>
      have := n.isLt
      rw [Opnd.code, Opnd.ofCode_v _ (by omega)]
      simp
    | s n =>
      have := n.isLt
      rw [Opnd.code, Opnd.ofCode_s _ (by omega) (by omega)]
      simp
    | zero => rfl
    | lane => rfl
    | sube => rfl
    | pos => rfl
    | imm32 => rfl
    | imm64 => rfl
    | pv n =>
      have := n.isLt
      rw [Opnd.code, Opnd.ofCode_pv _ (by omega) (by omega)]
      simp
    | small n =>
      have := n.isLt
      rw [Opnd.code, Opnd.ofCode_small _ (by omega) (by omega)]
      simp
    | hnd n =>
      have := n.isLt
      rw [Opnd.code, Opnd.ofCode_hnd _ (by omega) (by omega)]
      simp
  cases c
  case no => cases o <;> simp_all [Cls.admits, Cls.parse, Opnd.code]
  case pd =>
    cases o <;> simp_all [Cls.admits]
    rename_i k
    have : k.toNat < 16 := k.isLt
    simp [Cls.parse, Opnd.code, this]
  case tc =>
    cases o <;> simp_all [Cls.admits]
    rename_i t
    simp [Cls.parse, Opnd.code, Ty.ofCode_code, Except.map]
  case lc =>
    cases o <;> simp_all [Cls.admits]
    rename_i k c
    have h1 := k.isLt
    have h2 := c.isLt
    have h3 : k.toNat + 16 * c.toNat < 128 := by omega
    simp only [Cls.parse, Opnd.code, h3, if_true]
    congr 2
    · apply BitVec.eq_of_toNat_eq; simp only [BitVec.toNat_ofNat]; omega
    · apply BitVec.eq_of_toNat_eq; simp only [BitVec.toNat_ofNat]; omega
  all_goals
    simp only [Cls.parse]
    apply key
    cases o <;> simp_all [Cls.admits]

/-! ## Extensions -/

theorem Sel.ofCode_code (x : Sel) : Sel.ofCode x.code = x := by
  obtain ⟨w, a, k⟩ := x
  have h := unpackBits_packBits [(4, k.toNat), (1, boolN a), (2, w.toNat)]
  simp only [List.map_cons, List.map_nil] at h
  have h1 : k.toNat % 2 ^ 4 = k.toNat := Nat.mod_eq_of_lt k.isLt
  have h2 : boolN a % 2 ^ 1 = boolN a := Nat.mod_eq_of_lt (boolN_lt a)
  have h3 : w.toNat % 2 ^ 2 = w.toNat := Nat.mod_eq_of_lt w.isLt
  rw [h1, h2, h3] at h
  simp [Sel.code, Sel.ofCode, h]

theorem Sel.code_lt (x : Sel) : x.code < 2 ^ 7 := packBits_lt _

theorem Mods.ofCode_code (m : Mods) : Mods.ofCode m.code = .ok m := by
  obtain ⟨sat, rnd, dn, cn, bn, an⟩ := m
  have h := unpackBits_packBits [(7, an.code), (7, bn.code), (7, cn.code), (7, dn.code), (3, rnd.code), (1, boolN sat)]
  simp only [List.map_cons, List.map_nil] at h
  rw [Nat.mod_eq_of_lt an.code_lt, Nat.mod_eq_of_lt bn.code_lt, Nat.mod_eq_of_lt cn.code_lt,
    Nat.mod_eq_of_lt dn.code_lt, Nat.mod_eq_of_lt (show rnd.code < 2 ^ 3 from rnd.code_lt),
    Nat.mod_eq_of_lt (show boolN sat < 2 ^ 1 from boolN_lt sat)] at h
  simp only [Mods.code, Mods.ofCode, h, Rnd.ofCode_code, Sel.ofCode_code, bitB_boolN]
  rfl

theorem Mods.code_lt (m : Mods) : m.code < 2 ^ 32 := by
  have := packBits_lt [(7, m.an.code), (7, m.bn.code), (7, m.cn.code), (7, m.dn.code), (3, m.rnd.code),
    (1, boolN m.sat)]
  simp only [List.map_cons, List.map_nil, List.sum_cons, List.sum_nil] at this
  exact Nat.lt_of_lt_of_le this (by decide)

theorem MemExt.ofCode_code (e : MemExt) : MemExt.ofCode e.code = e := by
  obtain ⟨di, sc, od, ro, sp, ps, ss, aop, eng⟩ := e
  have h := unpackBits_packBits [(4, eng.toNat), (4, aop.toNat), (8, ss.toNat), (8, ps.toNat), (2, sp.toNat),
    (1, boolN ro), (2, od.toNat), (3, sc.toNat), (32, di.toNat)]
  simp only [List.map_cons, List.map_nil] at h
  rw [Nat.mod_eq_of_lt eng.isLt, Nat.mod_eq_of_lt aop.isLt, Nat.mod_eq_of_lt ss.isLt, Nat.mod_eq_of_lt ps.isLt,
    Nat.mod_eq_of_lt sp.isLt, Nat.mod_eq_of_lt (show boolN ro < 2 ^ 1 from boolN_lt ro), Nat.mod_eq_of_lt od.isLt,
    Nat.mod_eq_of_lt sc.isLt, Nat.mod_eq_of_lt di.isLt] at h
  simp [MemExt.code, MemExt.ofCode, h]

theorem MatExt.ofCode_code (e : MatExt) : MatExt.ofCode e.code = .ok e := by
  obtain ⟨pr, ti, ar, ks, mm, scr, bt, ww⟩ := e
  have h := unpackBits_packBits [(33, 0), (1, boolN ww), (5, bt.code), (1, boolN scr), (5, mm.toNat), (5, ks.toNat),
    (6, ar.toNat), (4, ti.toNat), (4, pr.toNat)]
  simp only [List.map_cons, List.map_nil] at h
  rw [Nat.mod_eq_of_lt (show boolN ww < 2 ^ 1 from boolN_lt ww), Nat.mod_eq_of_lt (show bt.code < 2 ^ 5 from bt.code_lt),
    Nat.mod_eq_of_lt (show boolN scr < 2 ^ 1 from boolN_lt scr), Nat.mod_eq_of_lt mm.isLt, Nat.mod_eq_of_lt ks.isLt,
    Nat.mod_eq_of_lt ar.isLt, Nat.mod_eq_of_lt ti.isLt, Nat.mod_eq_of_lt pr.isLt, Nat.zero_mod] at h
  simp only [MatExt.code, MatExt.ofCode, h, Ty.ofCode_code, bitB_boolN]
  simp [Bind.bind, Except.bind]

theorem AgtExt.ofCode_code (e : AgtExt) : AgtExt.ofCode e.code = .ok e := by
  obtain ⟨hd, ha, hb, hm, wm, sg, k, mw⟩ := e
  have h := unpackBits_packBits [(12, 0), (3, mw.toNat), (6, k.toNat), (1, boolN sg), (6, wm.toNat), (9, hm.toNat),
    (9, hb.toNat), (9, ha.toNat), (9, hd.toNat)]
  simp only [List.map_cons, List.map_nil] at h
  rw [Nat.mod_eq_of_lt mw.isLt, Nat.mod_eq_of_lt k.isLt, Nat.mod_eq_of_lt (show boolN sg < 2 ^ 1 from boolN_lt sg),
    Nat.mod_eq_of_lt wm.isLt, Nat.mod_eq_of_lt hm.isLt, Nat.mod_eq_of_lt hb.isLt, Nat.mod_eq_of_lt ha.isLt,
    Nat.mod_eq_of_lt hd.isLt, Nat.zero_mod] at h
  simp [AgtExt.code, AgtExt.ofCode, h]

theorem MemExt.code_lt (e : MemExt) : e.code < 2 ^ 64 := by
  have := packBits_lt [(4, e.eng.toNat), (4, e.aop.toNat), (8, e.sset.toNat), (8, e.pset.toNat), (2, e.space.toNat),
    (1, boolN e.ro), (2, e.ord.toNat), (3, e.scope.toNat), (32, e.disp.toNat)]
  simp only [List.map_cons, List.map_nil, List.sum_cons, List.sum_nil] at this
  exact Nat.lt_of_lt_of_le this (by decide)

theorem MatExt.code_lt (e : MatExt) : e.code < 2 ^ 64 := by
  have := packBits_lt [(33, 0), (1, boolN e.ww), (5, e.bt.code), (1, boolN e.scr), (5, e.mm1.toNat), (5, e.ksm1.toNat),
    (6, e.arr.toNat), (4, e.tile.toNat), (4, e.prof.toNat)]
  simp only [List.map_cons, List.map_nil, List.sum_cons, List.sum_nil] at this
  exact Nat.lt_of_lt_of_le this (by decide)

theorem AgtExt.code_lt (e : AgtExt) : e.code < 2 ^ 64 := by
  have := packBits_lt [(12, 0), (3, e.mw.toNat), (6, e.k.toNat), (1, boolN e.sgn), (6, e.wm1.toNat), (9, e.hm.toNat),
    (9, e.hb.toNat), (9, e.ha.toNat), (9, e.hd.toNat)]
  simp only [List.map_cons, List.map_nil, List.sum_cons, List.sum_nil] at this
  exact Nat.lt_of_lt_of_le this (by decide)

/-! ## The common layout -/

/-- Every field is within its width. -/
def Common.fits (c : Common) : Prop :=
  c.len < 2 ^ 2 ∧ c.opc < 2 ^ 8 ∧ c.pred < 2 ^ 4 ∧ c.pneg < 2 ^ 1 ∧ c.la < 2 ^ 4 ∧ c.dst < 2 ^ 9 ∧ c.sa < 2 ^ 9 ∧
  c.sb < 2 ^ 9 ∧ c.sc < 2 ^ 9 ∧ c.sub < 2 ^ 4 ∧ c.ty < 2 ^ 5

theorem Common.read_word (c : Common) (y : Nat) (h : c.fits) : Common.read (c.word + 2 ^ 64 * y) = c := by
  obtain ⟨a1, a2, a3, a4, a5, a6, a7, a8, a9, a10, a11⟩ := c
  obtain ⟨h1, h2, h3, h4, h5, h6, h7, h8, h9, h10, h11⟩ := h
  have e := unpackBits_packBits_add [(2, a1), (8, a2), (4, a3), (1, a4), (4, a5), (9, a6), (9, a7), (9, a8), (9, a9),
    (4, a10), (5, a11)] y
  simp only [List.map_cons, List.map_nil, List.sum_cons, List.sum_nil, Nat.reduceAdd] at e
  rw [Nat.mod_eq_of_lt h1, Nat.mod_eq_of_lt h2, Nat.mod_eq_of_lt h3, Nat.mod_eq_of_lt h4, Nat.mod_eq_of_lt h5,
    Nat.mod_eq_of_lt h6, Nat.mod_eq_of_lt h7, Nat.mod_eq_of_lt h8, Nat.mod_eq_of_lt h9, Nat.mod_eq_of_lt h10,
    Nat.mod_eq_of_lt h11] at e
  unfold Common.read Common.word
  rw [e]

/-- The common layout is 64 bits. -/
theorem Common.word_lt (c : Common) : c.word < 2 ^ 64 := by
  have := packBits_lt [(2, c.len), (8, c.opc), (4, c.pred), (1, c.pneg), (4, c.la), (9, c.dst), (9, c.sa), (9, c.sb),
    (9, c.sc), (4, c.sub), (5, c.ty)]
  simpa [List.map_cons, Common.word] using this

/-- The two low bits of a word are LEN. -/
theorem Common.word_mod (c : Common) (y : Nat) (h : c.len < 4) : (c.word + 2 ^ 64 * y) % 4 = c.len := by
  unfold Common.word packBits
  have : c.len % 2 ^ 2 = c.len := Nat.mod_eq_of_lt h
  rw [this]
  omega

/-- The extension above the common layout. -/
theorem Common.word_div (c : Common) (y : Nat) : (c.word + 2 ^ 64 * y) / 2 ^ 64 = y := by
  rw [Nat.add_mul_div_left _ _ (by decide), Nat.div_eq_of_lt c.word_lt, Nat.zero_add]

/-- The fields of a word of an instruction fit. -/
theorem Common.of_fits (l : Len) (opc : Nat) (h : Hd) (dst sa sb sc sub ty : Nat) (ho : opc < 2 ^ 8) (hd : dst < 2 ^ 9)
    (ha : sa < 2 ^ 9) (hb : sb < 2 ^ 9) (hc : sc < 2 ^ 9) (hs : sub < 2 ^ 4) (ht : ty < 2 ^ 5) :
    (Common.of l opc h dst sa sb sc sub ty).fits :=
  ⟨Nat.lt_of_lt_of_le l.code_lt (by decide), ho, h.pred.isLt, boolN_lt _, h.la.isLt, hd, ha, hb, hc, hs, ht⟩

@[simp] theorem Common.of_hd (l : Len) (opc : Nat) (h : Hd) (dst sa sb sc sub ty : Nat) :
    (Common.of l opc h dst sa sb sc sub ty).hd = h := by
  obtain ⟨p, n, la⟩ := h
  simp [Common.of, Common.hd]

/-! ## Words of each form -/

/-- The extension a word is read with. -/
theorem wordBits_of (w : Nat) (l : Len) (h : w % 4 = l.code) : wordBits w = l.bits := by
  unfold wordBits; rw [h]; cases l <;> rfl

/-- A word laid out from fields that fit decodes as its row reads them. -/
theorem decode_word (c : Common) (l : Len) (y : Nat) (row : Row) (i : Instr) (hf : c.fits) (hl : c.len = l.code)
    (hy : y < 2 ^ (l.bits - 64)) (ho : ¬ (0x78 ≤ c.opc ∧ c.opc < 0x80)) (hr : rowOf c.opc c.sub c.len = some row)
    (hp : row.parse c y = .ok i) (hw : i.wf = true) : decode (c.word + 2 ^ 64 * y) = .ok i := by
  have hm : (c.word + 2 ^ 64 * y) % 4 = l.code := by
    rw [← hl]; exact c.word_mod y (by have := l.code_lt; omega)
  have h3 : ¬ (c.word + 2 ^ 64 * y) % 4 = 3 := by have := l.code_lt; omega
  unfold decode
  rw [if_neg h3, wordBits_of _ l hm, Common.read_word c y hf, Common.word_div, Nat.mod_eq_of_lt hy]
  simp only [if_neg ho, hr, hp, hw, if_true]

/-- The same for a word with no extension. -/
theorem decode_word64 (c : Common) (row : Row) (i : Instr) (hf : c.fits) (hl : c.len = 0)
    (ho : ¬ (0x78 ≤ c.opc ∧ c.opc < 0x80)) (hr : rowOf c.opc c.sub c.len = some row)
    (hp : row.parse c 0 = .ok i) (hw : i.wf = true) : decode c.word = .ok i := by
  have := decode_word c .b64 0 row i hf hl (by decide) ho hr hp hw
  rwa [Nat.mul_zero, Nat.add_zero] at this

theorem ofNat_toNat_self {n : Nat} (x : BitVec n) : BitVec.ofNat n x.toNat = x := by simp

/-- The extension of an ALU word fits its length. -/
theorem AluExt.code_lt (e : AluExt) : e.code < 2 ^ (e.len.bits - 64) := by
  cases e with
  | none => decide
  | mods m => exact m.code_lt
  | imm32 x => exact x.isLt
  | imm64 x => exact x.isLt
  | modsImm m x =>
    have h1 := m.code_lt
    have h2 := x.isLt
    show m.code + 2 ^ 32 * x.toNat < 2 ^ (128 - 64)
    omega

/-- An ALU word's fields read back. -/
theorem AluForm.parse_write (f : AluForm) (a : AluArgs) (h : f.ok a = true) :
    f.parse (Common.of a.ext.len f.opc a.hd a.dst.code a.sa.code a.sb.code a.sc.code a.sub.toNat a.ty.code)
      a.ext.code = .ok a := by
  obtain ⟨hd, ty, sub, dst, sa, sb, sc, ext⟩ := a
  unfold AluForm.ok at h
  simp only [Bool.and_eq_true] at h
  obtain ⟨⟨⟨⟨⟨⟨⟨⟨⟨⟨⟨-, -⟩, -⟩, h1⟩, h2⟩, h3⟩, h4⟩, -⟩, -⟩, -⟩, hx⟩, -⟩ := h
  unfold AluForm.parse
  rw [Common.of_hd]
  simp only [Common.of, Ty.ofCode_code, Cls.parse_code _ _ h1, Cls.parse_code _ _ h2, Cls.parse_code _ _ h3,
    Cls.parse_code _ _ h4, Len.ofCode_code, ofNat_toNat_self, Bind.bind, Except.bind]
  cases ext with
  | none => rfl
  | mods m =>
    simp only [AluForm.extOk, Bool.and_eq_true, Bool.not_eq_true', AluArgs.names] at hx
    simp only [AluExt.len, AluExt.code, AluArgs.names, hx.1.1.2, Nat.mod_eq_of_lt m.code_lt, Mods.ofCode_code]
    rfl
  | imm32 x =>
    simp only [AluForm.extOk, Bool.and_eq_true, Bool.not_eq_true', AluArgs.names] at hx
    simp [AluExt.len, AluExt.code, AluArgs.names, hx.1.2]
  | imm64 x =>
    simp only [AluForm.extOk, Bool.and_eq_true, Bool.not_eq_true', AluArgs.names] at hx
    simp [AluExt.len, AluExt.code, AluArgs.names, hx.1.2]
  | modsImm m x =>
    simp only [AluForm.extOk, Bool.and_eq_true, Bool.not_eq_true', AluArgs.names] at hx
    have e1 : (m.code + 2 ^ 32 * x.toNat) % 2 ^ 32 = m.code := by have := m.code_lt; omega
    have e2 : (m.code + 2 ^ 32 * x.toNat) / 2 ^ 32 = x.toNat := by have := m.code_lt; omega
    simp only [AluExt.len, AluExt.code, AluArgs.names, hx.1.1.2, e1, e2, Mods.ofCode_code, ofNat_toNat_self]
    rfl

/-- A control or system word's fields read back. -/
theorem CtlForm.parse_write (f : CtlForm) (a : CtlArgs) (h : f.ok a = true) :
    f.parse (Common.of a.len f.opc a.hd a.dst.code a.sa.code a.sb.code 0 a.sub.toNat a.ty.code)
      (a.x1.toNat + 2 ^ 32 * a.x2.toNat) = .ok a := by
  obtain ⟨len, hd, ty, sub, dst, sa, sb, x1, x2⟩ := a
  unfold CtlForm.ok at h
  simp only [Bool.and_eq_true] at h
  obtain ⟨⟨⟨⟨⟨⟨⟨-, h1⟩, h2⟩, h3⟩, -⟩, -⟩, -⟩, -⟩ := h
  have e1 : BitVec.ofNat 32 (x1.toNat + 2 ^ 32 * x2.toNat) = x1 := by
    apply BitVec.eq_of_toNat_eq; have := x1.isLt; simp only [BitVec.toNat_ofNat]; omega
  have e2 : (x1.toNat + 2 ^ 32 * x2.toNat) / 2 ^ 32 = x2.toNat := by have := x1.isLt; omega
  unfold CtlForm.parse
  rw [Common.of_hd]
  simp only [Common.of, Ty.ofCode_code, Cls.parse_code _ _ h1, Cls.parse_code _ _ h2, Cls.parse_code _ _ h3,
    Len.ofCode_code, ofNat_toNat_self, Bind.bind, Except.bind, if_true, e1, e2]

/-- The extension of a control or system word fits its length. -/
theorem CtlForm.ext_lt (f : CtlForm) (a : CtlArgs) (h : f.ok a = true) :
    a.x1.toNat + 2 ^ 32 * a.x2.toNat < 2 ^ (a.len.bits - 64) := by
  unfold CtlForm.ok at h
  simp only [Bool.and_eq_true] at h
  have h1 := h.1.2
  have h2 := h.2
  have := a.x1.isLt
  have := a.x2.isLt
  cases hl : a.len <;> simp [hl] at h1 h2 <;> simp only [Len.bits] <;> (try rw [h1]) <;> (try rw [h2]) <;> simp <;> omega

/-- A YIELD word's fields read back. -/
theorem YieldArgs.parse_write (a : YieldArgs) :
    YieldArgs.parse (Common.of .b64 0x28 a.hd a.d.toNat a.vl.toNat a.sl.toNat 0 0 0) = .ok a := by
  obtain ⟨hd, d, vl, sl⟩ := a
  have h1 : d.toNat < 32 := d.isLt
  have h2 : vl.toNat < 256 := vl.isLt
  have h3 : sl.toNat < 256 := sl.isLt
  unfold YieldArgs.parse
  rw [Common.of_hd]
  simp [Common.of, Len.code, h1, h2, h3]

/-- A memory or asynchronous word's fields read back. -/
theorem MemForm.parse_write (f : MemForm) (a : MemArgs) (h : f.ok a = true) :
    f.parse (Common.of (if a.ext.isSome then .b128 else .b64) f.opc a.hd a.dst.code a.sa.code a.sb.code a.sc.code
      a.sub.toNat a.ty.code) (a.ext.map MemExt.code |>.getD 0) = .ok a := by
  obtain ⟨hd, ty, sub, dst, sa, sb, sc, ext⟩ := a
  unfold MemForm.ok at h
  simp only [Bool.and_eq_true] at h
  obtain ⟨⟨⟨⟨⟨⟨⟨-, h1⟩, h2⟩, h3⟩, h4⟩, -⟩, -⟩, -⟩ := h
  unfold MemForm.parse
  rw [Common.of_hd]
  simp only [Common.of, Ty.ofCode_code, Cls.parse_code _ _ h1, Cls.parse_code _ _ h2, Cls.parse_code _ _ h3,
    Cls.parse_code _ _ h4, ofNat_toNat_self, Bind.bind, Except.bind]
  cases ext <;> simp [Len.code, MemExt.ofCode_code]

/-- A matrix word's fields read back. -/
theorem MatForm.parse_write (f : MatForm) (a : MatArgs) (h : f.ok a = true) :
    f.parse (Common.of (if a.ext.isSome then .b128 else .b64) f.opc a.hd a.dst.code a.sa.code a.sb.code a.sc.code
      a.sub.toNat a.ty.code) (a.ext.map MatExt.code |>.getD 0) = .ok a := by
  obtain ⟨hd, ty, sub, dst, sa, sb, sc, ext⟩ := a
  unfold MatForm.ok at h
  simp only [Bool.and_eq_true] at h
  obtain ⟨⟨⟨⟨⟨⟨⟨⟨⟨⟨⟨⟨⟨⟨-, h1⟩, h2⟩, h3⟩, h4⟩, -⟩, -⟩, -⟩, -⟩, -⟩, -⟩, -⟩, -⟩, -⟩, -⟩ := h
  unfold MatForm.parse
  rw [Common.of_hd]
  simp only [Common.of, Ty.ofCode_code, Cls.parse_code _ _ h1, Cls.parse_code _ _ h2, Cls.parse_code _ _ h3,
    Cls.parse_code _ _ h4, ofNat_toNat_self, Bind.bind, Except.bind]
  cases ext <;> simp [Len.code, MatExt.ofCode_code]

/-- An Agate word's fields read back. -/
theorem AgtForm.parse_write (f : AgtForm) (a : AgtArgs) (h : f.ok a = true) :
    f.parse (Common.of (if a.ext.isSome then .b128 else .b64) f.opc a.hd 0 a.sa.code a.sb.code a.sc.code
      a.sub.toNat 0) (a.ext.map AgtExt.code |>.getD 0) = .ok a := by
  obtain ⟨hd, sub, sa, sb, sc, ext⟩ := a
  unfold AgtForm.ok at h
  simp only [Bool.and_eq_true] at h
  obtain ⟨⟨⟨⟨⟨⟨⟨⟨-, -⟩, h1⟩, h2⟩, -⟩, -⟩, -⟩, -⟩, h3⟩ := h
  have hb : (if f.opc = 0xE4 then (if sub.toNat = 12 then Cls.xs else Cls.no) else f.sb).parse sb.code = .ok sb := by
    apply Cls.parse_code
    split at h3
    · rename_i he
      rw [if_pos he]
      simp only [Bool.and_eq_true] at h3
      have h4 := h3.2
      split
      · rename_i h12; rw [h12] at h4; simpa [agopUses] using h4
      · rename_i h12
        have : (agopUses sub.toNat).2.2.2.2 = false := by
          unfold agopUses; split <;> first | rfl | (exfalso; simp_all)
        rw [this] at h4; simpa using h4
    · rename_i he
      rw [if_neg he]
      simp only [Bool.and_eq_true] at h3
      exact h3.2
  have e : ∀ (c : Common) (x : Nat), c.hd = hd → c.sub = sub.toNat → f.sa.parse c.sa = .ok sa →
      (if f.opc = 0xE4 then (if c.sub = 12 then Cls.xs else Cls.no) else f.sb).parse c.sb = .ok sb →
      f.sc.parse c.sc = .ok sc → c.ty = 0 → c.dst = 0 → c.len = (if ext.isSome then Len.b128 else .b64).code →
      x = (ext.map AgtExt.code |>.getD 0) → f.parse c x = .ok ⟨hd, sub, sa, sb, sc, ext⟩ := by
    intro c x g1 g2 g3 g4 g5 g6 g7 g8 g9
    unfold AgtForm.parse
    rw [g3, g4, g5, g1, g2, g6, g7, g8, g9]
    cases ext <;> simp [Len.code, AgtExt.ofCode_code, Bind.bind, Except.bind]
  exact e _ _ (Common.of_hd ..) rfl (Cls.parse_code _ _ h1) hb (Cls.parse_code _ _ h2) rfl rfl rfl rfl

/-- A Welt word's fields read back. -/
theorem WltForm.parse_write (f : WltForm) (a : WltArgs) (h : f.ok a = true) :
    f.parse (Common.of .b64 f.opc a.hd a.dst.code a.sa.code 0 0 ((a.sub.toNat + 8 * a.ch.toNat + 256 * boolN a.pk) % 16)
      ((a.sub.toNat + 8 * a.ch.toNat + 256 * boolN a.pk) / 16)) = .ok a := by
  obtain ⟨hd, pk, ch, sub, dst, sa⟩ := a
  unfold WltForm.ok at h
  simp only [Bool.and_eq_true] at h
  obtain ⟨⟨⟨⟨-, h1⟩, h2⟩, -⟩, -⟩ := h
  have hs : sub.toNat < 8 := sub.isLt
  have hc : ch.toNat < 32 := ch.isLt
  unfold WltForm.parse
  rw [Common.of_hd]
  simp only [Common.of, Cls.parse_code _ _ h1, Cls.parse_code _ _ h2, Bind.bind, Except.bind]
  rw [Nat.mod_add_div]
  have e1 : bitB ((sub.toNat + 8 * ch.toNat + 256 * boolN pk) / 256) = pk := by
    cases pk <;> simp only [bitB, boolN] <;> simp <;> omega
  have e2 : BitVec.ofNat 5 ((sub.toNat + 8 * ch.toNat + 256 * boolN pk) / 8) = ch := by
    apply BitVec.eq_of_toNat_eq; simp only [BitVec.toNat_ofNat]; omega
  have e3 : BitVec.ofNat 3 (sub.toNat + 8 * ch.toNat + 256 * boolN pk) = sub := by
    apply BitVec.eq_of_toNat_eq; simp only [BitVec.toNat_ofNat]; omega
  simp [e1, e2, e3]

/-- A paired word's fields read back. -/
theorem PairArgs.ofWord_write (a : PairArgs) : PairArgs.ofWord a.write = .ok a := by
  obtain ⟨pred, pneg, ysb, xt, xop, xrnd, xsat, xd, xa, xb, xc, yop, yt, yd, ya, yb⟩ := a
  have e := unpackBits_packBits [(2, 1), (2, xt.toNat), (1, boolN ysb), (5, 0x0F), (4, pred.toNat), (1, boolN pneg), (4, 0),
    (5, 0), (1, boolN xsat), (3, xrnd.code), (4, xop.code), (8, xd.toNat), (8, xa.toNat),
    (8, xb.toNat), (8, xc.toNat), (8, yd.toNat), (8, ya.toNat), (8, yb.toNat), (3, yt.toNat),
    (5, yop.code)]
  simp only [List.map_cons, List.map_nil] at e
  unfold PairArgs.ofWord PairArgs.write
  rw [e]
  rw [Nat.mod_eq_of_lt xt.isLt, Nat.mod_eq_of_lt (show boolN ysb < 2 ^ 1 from boolN_lt ysb), Nat.mod_eq_of_lt pred.isLt,
    Nat.mod_eq_of_lt (show boolN pneg < 2 ^ 1 from boolN_lt pneg), Nat.mod_eq_of_lt (show boolN xsat < 2 ^ 1 from boolN_lt xsat),
    Nat.mod_eq_of_lt (show xrnd.code < 2 ^ 3 from xrnd.code_lt), Nat.mod_eq_of_lt (show xop.code < 2 ^ 4 from xop.code_lt),
    Nat.mod_eq_of_lt (show yop.code < 2 ^ 5 from yop.code_lt), Nat.mod_eq_of_lt xd.isLt, Nat.mod_eq_of_lt xa.isLt,
    Nat.mod_eq_of_lt xb.isLt, Nat.mod_eq_of_lt xc.isLt, Nat.mod_eq_of_lt yd.isLt, Nat.mod_eq_of_lt ya.isLt,
    Nat.mod_eq_of_lt yb.isLt, Nat.mod_eq_of_lt yt.isLt]
  simp [Rnd.ofCode_code, XOp.all_code, YOp.all_code, Bind.bind, Except.bind]

/-! ## A word written by its form decodes to its instruction, once the opcode map names the instruction's row -/

theorem AluForm.decode_write (f : AluForm) (a : AluArgs) (mk : AluArgs → Instr) (h : f.ok a = true)
    (hv : ∀ x, (mk x).view = .alu f x) (ho : f.opc < 2 ^ 8 ∧ ¬ (0x78 ≤ f.opc ∧ f.opc < 0x80))
    (hr : rowOf f.opc a.sub.toNat a.ext.len.code = some (.alu mk)) : decode (f.write a) = .ok (mk a) := by
  refine decode_word _ a.ext.len a.ext.code (.alu mk) _ (Common.of_fits _ _ _ _ _ _ _ _ _ ho.1 a.dst.code_lt a.sa.code_lt
    a.sb.code_lt a.sc.code_lt a.sub.isLt a.ty.code_lt) rfl a.ext.code_lt ho.2 hr ?_ ?_
  · simp only [Row.parse, hv, f.parse_write a h]; rfl
  · simpa only [Instr.wf, hv, View.ok] using h

theorem CtlForm.decode_write (f : CtlForm) (a : CtlArgs) (mk : CtlArgs → Instr) (h : f.ok a = true)
    (hv : ∀ x, (mk x).view = .ctl f x) (ho : f.opc < 2 ^ 8 ∧ ¬ (0x78 ≤ f.opc ∧ f.opc < 0x80))
    (hr : rowOf f.opc a.sub.toNat a.len.code = some (.ctl mk)) : decode (f.write a) = .ok (mk a) := by
  refine decode_word _ a.len _ (.ctl mk) _ (Common.of_fits _ _ _ _ _ _ _ _ _ ho.1 a.dst.code_lt a.sa.code_lt
    a.sb.code_lt (by decide) a.sub.isLt a.ty.code_lt) rfl (f.ext_lt a h) ho.2 hr ?_ ?_
  · simp only [Row.parse, hv, f.parse_write a h]; rfl
  · simpa only [Instr.wf, hv, View.ok] using h

theorem MemForm.decode_write (f : MemForm) (a : MemArgs) (mk : MemArgs → Instr) (h : f.ok a = true)
    (hv : ∀ x, (mk x).view = .mem f x) (ho : f.opc < 2 ^ 8 ∧ ¬ (0x78 ≤ f.opc ∧ f.opc < 0x80))
    (hr : ∀ n, rowOf f.opc a.sub.toNat n = some (.mem mk)) : decode (f.write a) = .ok (mk a) := by
  have hl : ∀ o : Option MemExt, (o.map MemExt.code |>.getD 0) < 2 ^ ((if o.isSome then Len.b128 else .b64).bits - 64) := by
    intro o
    cases o with
    | none => decide
    | some e => exact e.code_lt
  have h1 : (if a.ext.isSome then Len.b128 else .b64).code ≠ 1 := by cases a.ext <;> simp [Len.code]
  refine decode_word _ (if a.ext.isSome then .b128 else .b64) _ (.mem mk) _ (Common.of_fits _ _ _ _ _ _ _ _ _ ho.1
    a.dst.code_lt a.sa.code_lt a.sb.code_lt a.sc.code_lt a.sub.isLt a.ty.code_lt) rfl (hl _) ho.2 (hr _) ?_ ?_
  · simp only [Row.parse, hv, f.parse_write a h, if_neg (show ¬ (Common.of _ _ _ _ _ _ _ _ _).len = 1 from h1)]; rfl
  · simpa only [Instr.wf, hv, View.ok] using h

theorem MatForm.decode_write (f : MatForm) (a : MatArgs) (mk : MatArgs → Instr) (h : f.ok a = true)
    (hv : ∀ x, (mk x).view = .mat f x) (ho : f.opc < 2 ^ 8 ∧ ¬ (0x78 ≤ f.opc ∧ f.opc < 0x80))
    (hr : ∀ n, rowOf f.opc a.sub.toNat n = some (.mat mk)) : decode (f.write a) = .ok (mk a) := by
  have hl : ∀ o : Option MatExt, (o.map MatExt.code |>.getD 0) < 2 ^ ((if o.isSome then Len.b128 else .b64).bits - 64) := by
    intro o
    cases o with
    | none => decide
    | some e => exact e.code_lt
  have h1 : (if a.ext.isSome then Len.b128 else .b64).code ≠ 1 := by cases a.ext <;> simp [Len.code]
  refine decode_word _ (if a.ext.isSome then .b128 else .b64) _ (.mat mk) _ (Common.of_fits _ _ _ _ _ _ _ _ _ ho.1
    a.dst.code_lt a.sa.code_lt a.sb.code_lt a.sc.code_lt a.sub.isLt a.ty.code_lt) rfl (hl _) ho.2 (hr _) ?_ ?_
  · simp only [Row.parse, hv, f.parse_write a h, if_neg (show ¬ (Common.of _ _ _ _ _ _ _ _ _).len = 1 from h1)]; rfl
  · simpa only [Instr.wf, hv, View.ok] using h

theorem AgtForm.decode_write (f : AgtForm) (a : AgtArgs) (mk : AgtArgs → Instr) (h : f.ok a = true)
    (hv : ∀ x, (mk x).view = .agt f x) (ho : f.opc < 2 ^ 8 ∧ ¬ (0x78 ≤ f.opc ∧ f.opc < 0x80))
    (hr : ∀ n, rowOf f.opc a.sub.toNat n = some (.agt mk)) : decode (f.write a) = .ok (mk a) := by
  have hl : ∀ o : Option AgtExt, (o.map AgtExt.code |>.getD 0) < 2 ^ ((if o.isSome then Len.b128 else .b64).bits - 64) := by
    intro o
    cases o with
    | none => decide
    | some e => exact e.code_lt
  have h1 : (if a.ext.isSome then Len.b128 else .b64).code ≠ 1 := by cases a.ext <;> simp [Len.code]
  refine decode_word _ (if a.ext.isSome then .b128 else .b64) _ (.agt mk) _ (Common.of_fits _ _ _ _ _ _ _ _ _ ho.1
    (by decide) a.sa.code_lt a.sb.code_lt a.sc.code_lt a.sub.isLt (by decide)) rfl (hl _) ho.2 (hr _) ?_ ?_
  · simp only [Row.parse, hv, f.parse_write a h, if_neg (show ¬ (Common.of _ _ _ _ _ _ _ _ _).len = 1 from h1)]; rfl
  · simpa only [Instr.wf, hv, View.ok] using h

theorem WltForm.decode_write (f : WltForm) (a : WltArgs) (mk : WltArgs → Instr) (h : f.ok a = true)
    (hv : ∀ x, (mk x).view = .wlt f x) (ho : f.opc < 2 ^ 8 ∧ ¬ (0x78 ≤ f.opc ∧ f.opc < 0x80))
    (hr : ∀ n, n % 8 = a.sub.toNat → rowOf f.opc n 0 = some (.wlt mk)) : decode (f.write a) = .ok (mk a) := by
  have hs : a.sub.toNat < 8 := a.sub.isLt
  have hc : a.ch.toNat < 32 := a.ch.isLt
  have hp := boolN_lt a.pk
  refine decode_word64 _ (.wlt mk) _ (Common.of_fits _ _ _ _ _ _ _ _ _ ho.1
    a.dst.code_lt a.sa.code_lt (by decide) (by decide) ?_ ?_) rfl ho.2 (hr _ ?_) ?_ ?_
  · exact Nat.mod_lt _ (by decide)
  · generalize boolN a.pk = p at *; omega
  · simp only [Common.of]; generalize boolN a.pk = p at *; omega
  · simp only [Row.parse, hv, f.parse_write a h]; rfl
  · simpa only [Instr.wf, hv, View.ok] using h

theorem YieldArgs.decode_write (a : YieldArgs) (h : a.ok = true) : decode a.write = .ok (.yield a) := by
  have h1 : a.d.toNat < 32 := a.d.isLt
  have h2 : a.vl.toNat < 256 := a.vl.isLt
  have h3 : a.sl.toNat < 256 := a.sl.isLt
  refine decode_word64 _ .yield _ (Common.of_fits _ _ _ _ _ _ _ _ _ (by decide) (by omega) (by omega) (by omega)
    (by decide) (by decide) (by decide)) rfl (by simp [Common.of]) rfl ?_ h
  simp only [Row.parse, a.parse_write]; rfl

/-- A paired word begins with LEN 0b01 and an opcode of 0x78 to 0x7F. -/
theorem PairArgs.decode_write (a : PairArgs) (h : a.ok = true) : decode a.write = .ok (.pairedWord a) := by
  have hr := a.ofWord_write
  have key : ∀ r x y : Nat, x < 4 → y < 2 →
      let w := packBits [(2, 1), (2, x), (1, y), (5, 0x0F)] + 2 ^ 10 * r
      w % 4 = 1 ∧ 0x78 ≤ w / 4 % 2 ^ 8 ∧ w / 4 % 2 ^ 8 < 0x80 := by
    intro r x y hx hy
    simp only [packBits]
    omega
  have cut : ∀ (l : List (Nat × Nat)) (p q s : Nat × Nat), packBits ((2, 1) :: p :: q :: s :: l) =
      packBits [(2, 1), p, q, s] + 2 ^ (2 + (p.1 + (q.1 + s.1))) * packBits l := by
    intro l p q s
    simp only [packBits, Nat.pow_add, Nat.mul_add, Nat.mul_assoc, Nat.add_assoc, Nat.mul_zero, Nat.add_zero]
  have hw : ∃ r, a.write = packBits [(2, 1), (2, a.xt.toNat), (1, boolN a.ysb), (5, 0x0F)] + 2 ^ 10 * r := by
    refine ⟨packBits [(4, a.pred.toNat), (1, boolN a.pneg), (4, 0),
    (5, 0), (1, boolN a.xsat), (3, a.xrnd.code), (4, a.xop.code), (8, a.xd.toNat), (8, a.xa.toNat),
    (8, a.xb.toNat), (8, a.xc.toNat), (8, a.yd.toNat), (8, a.ya.toNat), (8, a.yb.toNat), (3, a.yt.toNat),
    (5, a.yop.code)], ?_⟩
    rw [PairArgs.write]
    exact cut _ _ _ _
  obtain ⟨r, hw⟩ := hw
  obtain ⟨h1, h2, h3⟩ := key r _ _ a.xt.isLt (boolN_lt a.ysb)
  rw [← hw] at h1 h2 h3
  have hl : ∀ w, (Common.read w).len = w % 2 ^ 2 := fun _ => rfl
  have hp : ∀ w, (Common.read w).opc = w / 2 ^ 2 % 2 ^ 8 := fun _ => rfl
  have h0 : ¬ a.write % 4 = 3 := by rw [h1]; decide
  have ho : 0x78 ≤ (Common.read a.write).opc ∧ (Common.read a.write).opc < 0x80 := by rw [hp]; exact ⟨h2, h3⟩
  have hn : (Common.read a.write).len = 1 := by rw [hl]; exact h1
  have hwf : (Instr.pairedWord a).wf = true := h
  clear hw
  generalize a.write = w at *
  generalize hc : Common.read w = c at *
  unfold decode
  rw [if_neg h0, hc]
  simp only [ho, hn, hr, and_self, if_true, Except.map, hwf]

end Sys2Proof
end

