-- ==== Sys2Proof/Laws/Exec.lean ====
section
/-! SUPPORT. One lemma per instruction: what `exec` calls. -/

namespace Sys2Proof.Machine

@[simp] theorem exec_sadd (a s) : exec (.sadd a) s = execSadd a s := rfl
@[simp] theorem exec_ssub (a s) : exec (.ssub a) s = execSsub a s := rfl
@[simp] theorem exec_smul (a s) : exec (.smul a) s = execSmul a s := rfl
@[simp] theorem exec_smulh (a s) : exec (.smulh a) s = execSmulh a s := rfl
@[simp] theorem exec_sdiv (a s) : exec (.sdiv a) s = execSdiv a s := rfl
@[simp] theorem exec_srem (a s) : exec (.srem a) s = execSrem a s := rfl
@[simp] theorem exec_sand (a s) : exec (.sand a) s = execSand a s := rfl
@[simp] theorem exec_sor (a s) : exec (.sor a) s = execSor a s := rfl
@[simp] theorem exec_sxor (a s) : exec (.sxor a) s = execSxor a s := rfl
@[simp] theorem exec_sshl (a s) : exec (.sshl a) s = execSshl a s := rfl
@[simp] theorem exec_sshr (a s) : exec (.sshr a) s = execSshr a s := rfl
@[simp] theorem exec_ssra (a s) : exec (.ssra a) s = execSsra a s := rfl
@[simp] theorem exec_smin (a s) : exec (.smin a) s = execSmin a s := rfl
@[simp] theorem exec_smax (a s) : exec (.smax a) s = execSmax a s := rfl
@[simp] theorem exec_scmp (a s) : exec (.scmp a) s = execScmp a s := rfl
@[simp] theorem exec_ssel (a s) : exec (.ssel a) s = execSsel a s := rfl
@[simp] theorem exec_smov (a s) : exec (.smov a) s = execSmov a s := rfl
@[simp] theorem exec_smovi (a s) : exec (.smovi a) s = execSmovi a s := rfl
@[simp] theorem exec_smoviHi (a s) : exec (.smoviHi a) s = execSmoviHi a s := rfl
@[simp] theorem exec_slea (a s) : exec (.slea a) s = execSlea a s := rfl
@[simp] theorem exec_sbfe (a s) : exec (.sbfe a) s = execSbfe a s := rfl
@[simp] theorem exec_sbfi (a s) : exec (.sbfi a) s = execSbfi a s := rfl
@[simp] theorem exec_spopc (a s) : exec (.spopc a) s = execSpopc a s := rfl
@[simp] theorem exec_sclz (a s) : exec (.sclz a) s = execSclz a s := rfl
@[simp] theorem exec_sbrev (a s) : exec (.sbrev a) s = execSbrev a s := rfl
@[simp] theorem exec_bra (a s) : exec (.bra a) s = execBra a s := rfl
@[simp] theorem exec_bras (a s) : exec (.bras a) s = execBras a s := rfl
@[simp] theorem exec_brv (a s) : exec (.brv a) s = execBrv a s := rfl
@[simp] theorem exec_jmp (a s) : exec (.jmp a) s = execJmp a s := rfl
@[simp] theorem exec_jmpv (a s) : exec (.jmpv a) s = execJmpv a s := rfl
@[simp] theorem exec_callLabel (a s) : exec (.callLabel a) s = execCallLabel a s := rfl
@[simp] theorem exec_callReg (a s) : exec (.callReg a) s = execCallReg a s := rfl
@[simp] theorem exec_ret (a s) : exec (.ret a) s = execRet a s := rfl
@[simp] theorem exec_land (a s) : exec (.land a) s = execLand a s := rfl
@[simp] theorem exec_yield (a s) : exec (.yield a) s = execYield a s := rfl
@[simp] theorem exec_exit (a s) : exec (.exit a) s = execExit a s := rfl
@[simp] theorem exec_nop (a s) : exec (.nop a) s = execNop a s := rfl
@[simp] theorem exec_elect (a s) : exec (.elect a) s = execElect a s := rfl
@[simp] theorem exec_exmrd (a s) : exec (.exmrd a) s = execExmrd a s := rfl
@[simp] theorem exec_exmrdOwn (a s) : exec (.exmrdOwn a) s = execExmrdOwn a s := rfl
@[simp] theorem exec_exmwr (a s) : exec (.exmwr a) s = execExmwr a s := rfl
@[simp] theorem exec_exmwrAnd (a s) : exec (.exmwrAnd a) s = execExmwrAnd a s := rfl
@[simp] theorem exec_exmwrOr (a s) : exec (.exmwrOr a) s = execExmwrOr a s := rfl
@[simp] theorem exec_regroup (a s) : exec (.regroup a) s = execRegroup a s := rfl
@[simp] theorem exec_vadd (a s) : exec (.vadd a) s = execVadd a s := rfl
@[simp] theorem exec_vsub (a s) : exec (.vsub a) s = execVsub a s := rfl
@[simp] theorem exec_vmul (a s) : exec (.vmul a) s = execVmul a s := rfl
@[simp] theorem exec_vmulh (a s) : exec (.vmulh a) s = execVmulh a s := rfl
@[simp] theorem exec_vmad (a s) : exec (.vmad a) s = execVmad a s := rfl
@[simp] theorem exec_vdiv (a s) : exec (.vdiv a) s = execVdiv a s := rfl
@[simp] theorem exec_vrem (a s) : exec (.vrem a) s = execVrem a s := rfl
@[simp] theorem exec_vand (a s) : exec (.vand a) s = execVand a s := rfl
@[simp] theorem exec_vor (a s) : exec (.vor a) s = execVor a s := rfl
@[simp] theorem exec_vxor (a s) : exec (.vxor a) s = execVxor a s := rfl
@[simp] theorem exec_vshl (a s) : exec (.vshl a) s = execVshl a s := rfl
@[simp] theorem exec_vshr (a s) : exec (.vshr a) s = execVshr a s := rfl
@[simp] theorem exec_vsra (a s) : exec (.vsra a) s = execVsra a s := rfl
@[simp] theorem exec_vmin (a s) : exec (.vmin a) s = execVmin a s := rfl
@[simp] theorem exec_vmax (a s) : exec (.vmax a) s = execVmax a s := rfl
@[simp] theorem exec_vabs (a s) : exec (.vabs a) s = execVabs a s := rfl
@[simp] theorem exec_vneg (a s) : exec (.vneg a) s = execVneg a s := rfl
@[simp] theorem exec_vcmp (a s) : exec (.vcmp a) s = execVcmp a s := rfl
@[simp] theorem exec_vsel (a s) : exec (.vsel a) s = execVsel a s := rfl
@[simp] theorem exec_vmov (a s) : exec (.vmov a) s = execVmov a s := rfl
@[simp] theorem exec_vmovi (a s) : exec (.vmovi a) s = execVmovi a s := rfl
@[simp] theorem exec_vmoviHi (a s) : exec (.vmoviHi a) s = execVmoviHi a s := rfl
@[simp] theorem exec_vbfe (a s) : exec (.vbfe a) s = execVbfe a s := rfl
@[simp] theorem exec_vbfi (a s) : exec (.vbfi a) s = execVbfi a s := rfl
@[simp] theorem exec_vpopc (a s) : exec (.vpopc a) s = execVpopc a s := rfl
@[simp] theorem exec_vclz (a s) : exec (.vclz a) s = execVclz a s := rfl
@[simp] theorem exec_vdot4 (a s) : exec (.vdot4 a) s = execVdot4 a s := rfl
@[simp] theorem exec_vlea (a s) : exec (.vlea a) s = execVlea a s := rfl
@[simp] theorem exec_fadd (a s) : exec (.fadd a) s = execFadd a s := rfl
@[simp] theorem exec_fsub (a s) : exec (.fsub a) s = execFsub a s := rfl
@[simp] theorem exec_fmul (a s) : exec (.fmul a) s = execFmul a s := rfl
@[simp] theorem exec_ffma (a s) : exec (.ffma a) s = execFfma a s := rfl
@[simp] theorem exec_fmin (a s) : exec (.fmin a) s = execFmin a s := rfl
@[simp] theorem exec_fmax (a s) : exec (.fmax a) s = execFmax a s := rfl
@[simp] theorem exec_fcmp (a s) : exec (.fcmp a) s = execFcmp a s := rfl
@[simp] theorem exec_fclass (a s) : exec (.fclass a) s = execFclass a s := rfl
@[simp] theorem exec_fdiv (a s) : exec (.fdiv a) s = execFdiv a s := rfl
@[simp] theorem exec_fsqrt (a s) : exec (.fsqrt a) s = execFsqrt a s := rfl
@[simp] theorem exec_fscale (a s) : exec (.fscale a) s = execFscale a s := rfl
@[simp] theorem exec_fround (a s) : exec (.fround a) s = execFround a s := rfl
@[simp] theorem exec_ffrac (a s) : exec (.ffrac a) s = execFfrac a s := rfl
@[simp] theorem exec_fdot2 (a s) : exec (.fdot2 a) s = execFdot2 a s := rfl
@[simp] theorem exec_frcp (a s) : exec (.frcp a) s = execFrcp a s := rfl
@[simp] theorem exec_frsq (a s) : exec (.frsq a) s = execFrsq a s := rfl
@[simp] theorem exec_fexp2 (a s) : exec (.fexp2 a) s = execFexp2 a s := rfl
@[simp] theorem exec_flog2 (a s) : exec (.flog2 a) s = execFlog2 a s := rfl
@[simp] theorem exec_fsin (a s) : exec (.fsin a) s = execFsin a s := rfl
@[simp] theorem exec_fcos (a s) : exec (.fcos a) s = execFcos a s := rfl
@[simp] theorem exec_ftanh (a s) : exec (.ftanh a) s = execFtanh a s := rfl
@[simp] theorem exec_pairedWord (a s) : exec (.pairedWord a) s = execPairedWord a s := rfl
@[simp] theorem exec_cvt (a s) : exec (.cvt a) s = execCvt a s := rfl
@[simp] theorem exec_pack (a s) : exec (.pack a) s = execPack a s := rfl
@[simp] theorem exec_unpack (a s) : exec (.unpack a) s = execUnpack a s := rfl
@[simp] theorem exec_unpackHi (a s) : exec (.unpackHi a) s = execUnpackHi a s := rfl
@[simp] theorem exec_qmx (a s) : exec (.qmx a) s = execQmx a s := rfl
@[simp] theorem exec_dqmx (a s) : exec (.dqmx a) s = execDqmx a s := rfl
@[simp] theorem exec_lnxIdx (a s) : exec (.lnxIdx a) s = execLnxIdx a s := rfl
@[simp] theorem exec_lnxWin (a s) : exec (.lnxWin a) s = execLnxWin a s := rfl
@[simp] theorem exec_lnxRise (a s) : exec (.lnxRise a) s = execLnxRise a s := rfl
@[simp] theorem exec_lnxFall (a s) : exec (.lnxFall a) s = execLnxFall a s := rfl
@[simp] theorem exec_lnxSprd (a s) : exec (.lnxSprd a) s = execLnxSprd a s := rfl
@[simp] theorem exec_lnxRot (a s) : exec (.lnxRot a) s = execLnxRot a s := rfl
@[simp] theorem exec_censusSome (a s) : exec (.censusSome a) s = execCensusSome a s := rfl
@[simp] theorem exec_censusEvery (a s) : exec (.censusEvery a) s = execCensusEvery a s := rfl
@[simp] theorem exec_censusMask (a s) : exec (.censusMask a) s = execCensusMask a s := rfl
@[simp] theorem exec_censusCount (a s) : exec (.censusCount a) s = execCensusCount a s := rfl
@[simp] theorem exec_peersMask (a s) : exec (.peersMask a) s = execPeersMask a s := rfl
@[simp] theorem exec_peersUniform (a s) : exec (.peersUniform a) s = execPeersUniform a s := rfl
@[simp] theorem exec_peersLead (a s) : exec (.peersLead a) s = execPeersLead a s := rfl
@[simp] theorem exec_reduce (a s) : exec (.reduce a) s = execReduce a s := rfl
@[simp] theorem exec_scan (a s) : exec (.scan a) s = execScan a s := rfl
@[simp] theorem exec_scanExc (a s) : exec (.scanExc a) s = execScanExc a s := rfl
@[simp] theorem exec_xshfl (a s) : exec (.xshfl a) s = execXshfl a s := rfl
@[simp] theorem exec_ld (a s) : exec (.ld a) s = execLd a s := rfl
@[simp] theorem exec_st (a s) : exec (.st a) s = execSt a s := rfl
@[simp] theorem exec_ldw (a s) : exec (.ldw a) s = execLdw a s := rfl
@[simp] theorem exec_lds (a s) : exec (.lds a) s = execLds a s := rfl
@[simp] theorem exec_sts (a s) : exec (.sts a) s = execSts a s := rfl
@[simp] theorem exec_ldnr (a s) : exec (.ldnr a) s = execLdnr a s := rfl
@[simp] theorem exec_prefL1 (a s) : exec (.prefL1 a) s = execPrefL1 a s := rfl
@[simp] theorem exec_prefRo (a s) : exec (.prefRo a) s = execPrefRo a s := rfl
@[simp] theorem exec_prefL2 (a s) : exec (.prefL2 a) s = execPrefL2 a s := rfl
@[simp] theorem exec_atom (a s) : exec (.atom a) s = execAtom a s := rfl
@[simp] theorem exec_atoms (a s) : exec (.atoms a) s = execAtoms a s := rfl
@[simp] theorem exec_atomr (a s) : exec (.atomr a) s = execAtomr a s := rfl
@[simp] theorem exec_cas (a s) : exec (.cas a) s = execCas a s := rfl
@[simp] theorem exec_cass (a s) : exec (.cass a) s = execCass a s := rfl
@[simp] theorem exec_fence (a s) : exec (.fence a) s = execFence a s := rfl
@[simp] theorem exec_cflush (a s) : exec (.cflush a) s = execCflush a s := rfl
@[simp] theorem exec_cflushInv (a s) : exec (.cflushInv a) s = execCflushInv a s := rfl
@[simp] theorem exec_cinv (a s) : exec (.cinv a) s = execCinv a s := rfl
@[simp] theorem exec_cinvRo (a s) : exec (.cinvRo a) s = execCinvRo a s := rfl
@[simp] theorem exec_cinvI (a s) : exec (.cinvI a) s = execCinvI a s := rfl
@[simp] theorem exec_copyV2s (a s) : exec (.copyV2s a) s = execCopyV2s a s := rfl
@[simp] theorem exec_copyS2v (a s) : exec (.copyS2v a) s = execCopyS2v a s := rfl
@[simp] theorem exec_copyV2v (a s) : exec (.copyV2v a) s = execCopyV2v a s := rfl
@[simp] theorem exec_copyS2s (a s) : exec (.copyS2s a) s = execCopyS2s a s := rfl
@[simp] theorem exec_copygG (a s) : exec (.copygG a) s = execCopygG a s := rfl
@[simp] theorem exec_copygS (a s) : exec (.copygS a) s = execCopygS a s := rfl
@[simp] theorem exec_copypPut (a s) : exec (.copypPut a) s = execCopypPut a s := rfl
@[simp] theorem exec_copypGet (a s) : exec (.copypGet a) s = execCopypGet a s := rfl
@[simp] theorem exec_batch (a s) : exec (.batch a) s = execBatch a s := rfl
@[simp] theorem exec_waitb (a s) : exec (.waitb a) s = execWaitb a s := rfl
@[simp] theorem exec_waitc (a s) : exec (.waitc a) s = execWaitc a s := rfl
@[simp] theorem exec_hacqDrain (a s) : exec (.hacqDrain a) s = execHacqDrain a s := rfl
@[simp] theorem exec_hacqFill (a s) : exec (.hacqFill a) s = execHacqFill a s := rfl
@[simp] theorem exec_hrel (a s) : exec (.hrel a) s = execHrel a s := rfl
@[simp] theorem exec_hstat (a s) : exec (.hstat a) s = execHstat a s := rfl
@[simp] theorem exec_gatePass (a s) : exec (.gatePass a) s = execGatePass a s := rfl
@[simp] theorem exec_gateMark (a s) : exec (.gateMark a) s = execGateMark a s := rfl
@[simp] theorem exec_gateHold (a s) : exec (.gateHold a) s = execGateHold a s := rfl
@[simp] theorem exec_ggatePass (a s) : exec (.ggatePass a) s = execGgatePass a s := rfl
@[simp] theorem exec_ggateMark (a s) : exec (.ggateMark a) s = execGgateMark a s := rfl
@[simp] theorem exec_ggateHold (a s) : exec (.ggateHold a) s = execGgateHold a s := rfl
@[simp] theorem exec_sigset (a s) : exec (.sigset a) s = execSigset a s := rfl
@[simp] theorem exec_sigadd (a s) : exec (.sigadd a) s = execSigadd a s := rfl
@[simp] theorem exec_sigwait (a s) : exec (.sigwait a) s = execSigwait a s := rfl
@[simp] theorem exec_mppt (a s) : exec (.mppt a) s = execMppt a s := rfl
@[simp] theorem exec_mcfg (a s) : exec (.mcfg a) s = execMcfg a s := rfl
@[simp] theorem exec_madmit (a s) : exec (.madmit a) s = execMadmit a s := rfl
@[simp] theorem exec_mrelease (a s) : exec (.mrelease a) s = execMrelease a s := rfl
@[simp] theorem exec_mloop (a s) : exec (.mloop a) s = execMloop a s := rfl
@[simp] theorem exec_maclr (a s) : exec (.maclr a) s = execMaclr a s := rfl
@[simp] theorem exec_mamovCpy (a s) : exec (.mamovCpy a) s = execMamovCpy a s := rfl
@[simp] theorem exec_mamovAdd (a s) : exec (.mamovAdd a) s = execMamovAdd a s := rfl
@[simp] theorem exec_maload (a s) : exec (.maload a) s = execMaload a s := rfl
@[simp] theorem exec_mastore (a s) : exec (.mastore a) s = execMastore a s := rfl
@[simp] theorem exec_mstest (a s) : exec (.mstest a) s = execMstest a s := rfl
@[simp] theorem exec_mprogRd (a s) : exec (.mprogRd a) s = execMprogRd a s := rfl
@[simp] theorem exec_mprogWr (a s) : exec (.mprogWr a) s = execMprogWr a s := rfl
@[simp] theorem exec_mstat (a s) : exec (.mstat a) s = execMstat a s := rfl
@[simp] theorem exec_agon (a s) : exec (.agon a) s = execAgon a s := rfl
@[simp] theorem exec_agoff (a s) : exec (.agoff a) s = execAgoff a s := rfl
@[simp] theorem exec_agld (a s) : exec (.agld a) s = execAgld a s := rfl
@[simp] theorem exec_agst (a s) : exec (.agst a) s = execAgst a s := rfl
@[simp] theorem exec_agop (a s) : exec (.agop a) s = execAgop a s := rfl
@[simp] theorem exec_agred (a s) : exec (.agred a) s = execAgred a s := rfl
@[simp] theorem exec_wbar (a s) : exec (.wbar a) s = execWbar a s := rfl
@[simp] theorem exec_wwait (a s) : exec (.wwait a) s = execWwait a s := rfl
@[simp] theorem exec_wbcast (a s) : exec (.wbcast a) s = execWbcast a s := rfl
@[simp] theorem exec_wrecvB (a s) : exec (.wrecvB a) s = execWrecvB a s := rfl
@[simp] theorem exec_wrecvR (a s) : exec (.wrecvR a) s = execWrecvR a s := rfl
@[simp] theorem exec_wred (a s) : exec (.wred a) s = execWred a s := rfl
@[simp] theorem exec_wtick (a s) : exec (.wtick a) s = execWtick a s := rfl
@[simp] theorem exec_trap (a s) : exec (.trap a) s = execTrap a s := rfl
@[simp] theorem exec_tret (a s) : exec (.tret a) s = execTret a s := rfl
@[simp] theorem exec_sysrd (a s) : exec (.sysrd a) s = execSysrd a s := rfl
@[simp] theorem exec_syswr (a s) : exec (.syswr a) s = execSyswr a s := rfl
@[simp] theorem exec_kill (a s) : exec (.kill a) s = execKill a s := rfl
@[simp] theorem exec_brk (a s) : exec (.brk a) s = execBrk a s := rfl
@[simp] theorem exec_pmcrd (a s) : exec (.pmcrd a) s = execPmcrd a s := rfl
@[simp] theorem exec_pmcwr (a s) : exec (.pmcwr a) s = execPmcwr a s := rfl
@[simp] theorem exec_resultWriteback (g tag s) : exec (.resultWriteback g tag) s = execResultWriteback g tag s := rfl
@[simp] theorem exec_loadDataReturn (g tag s) : exec (.loadDataReturn g tag) s = execLoadDataReturn g tag s := rfl
@[simp] theorem exec_storeAck (g tag s) : exec (.storeAck g tag) s = execStoreAck g tag s := rfl
@[simp] theorem exec_ifetchFill (core asid blk s) : exec (.ifetchFill core asid blk) s = execIfetchFill core asid blk s := rfl
@[simp] theorem exec_regroupFuse (g h s) : exec (.regroupFuse g h) s = execRegroupFuse g h s := rfl
@[simp] theorem exec_xshflExchange (g h s) : exec (.xshflExchange g h) s = execXshflExchange g h s := rfl
@[simp] theorem exec_contextEndRecord (ctx s) : exec (.contextEndRecord ctx) s = execContextEndRecord ctx s := rfl
@[simp] theorem exec_handleAdmit (blk h s) : exec (.handleAdmit blk h) s = execHandleAdmit blk h s := rfl
@[simp] theorem exec_gateRelease (blk gate s) : exec (.gateRelease blk gate) s = execGateRelease blk gate s := rfl
@[simp] theorem exec_ggateCrossDie (gang s) : exec (.ggateCrossDie gang) s = execGgateCrossDie gang s := rfl
@[simp] theorem exec_ggateRelease (gang s) : exec (.ggateRelease gang) s = execGgateRelease gang s := rfl
@[simp] theorem exec_sigwaitReread (g s) : exec (.sigwaitReread g) s = execSigwaitReread g s := rfl
@[simp] theorem exec_madmitComplete (op s) : exec (.madmitComplete op) s = execMadmitComplete op s := rfl
@[simp] theorem exec_mreleaseComplete (op s) : exec (.mreleaseComplete op) s = execMreleaseComplete op s := rfl
@[simp] theorem exec_mloopStep (op s) : exec (.mloopStep op) s = execMloopStep op s := rfl
@[simp] theorem exec_mloopComplete (op s) : exec (.mloopComplete op) s = execMloopComplete op s := rfl
@[simp] theorem exec_asyncOpComplete (op s) : exec (.asyncOpComplete op) s = execAsyncOpComplete op s := rfl
@[simp] theorem exec_agonWritebackDone (bank s) : exec (.agonWritebackDone bank) s = execAgonWritebackDone bank s := rfl
@[simp] theorem exec_agonComplete (bank s) : exec (.agonComplete bank) s = execAgonComplete bank s := rfl
@[simp] theorem exec_agoffDrainDone (bank s) : exec (.agoffDrainDone bank) s = execAgoffDrainDone bank s := rfl
@[simp] theorem exec_agoffComplete (bank s) : exec (.agoffComplete bank) s = execAgoffComplete bank s := rfl
@[simp] theorem exec_agateCommandComplete (bank s) : exec (.agateCommandComplete bank) s = execAgateCommandComplete bank s := rfl
@[simp] theorem exec_weltArrival (m s) : exec (.weltArrival m) s = execWeltArrival m s := rfl
@[simp] theorem exec_weltRelease (ch s) : exec (.weltRelease ch) s = execWeltRelease ch s := rfl
@[simp] theorem exec_preemptRequest (pid die x s) : exec (.preemptRequest pid die x) s = execPreemptRequest pid die x s := rfl
@[simp] theorem exec_tickLoad (x s) : exec (.tickLoad x) s = execTickLoad x s := rfl
@[simp] theorem exec_recordTake (pid q s) : exec (.recordTake pid q) s = execRecordTake pid q s := rfl
@[simp] theorem exec_dependenceReread (pid q s) : exec (.dependenceReread pid q) s = execDependenceReread pid q s := rfl
@[simp] theorem exec_workingSetPrewalk (pid q s) : exec (.workingSetPrewalk pid q) s = execWorkingSetPrewalk pid q s := rfl
@[simp] theorem exec_blockPlace (pid s) : exec (.blockPlace pid) s = execBlockPlace pid s := rfl
@[simp] theorem exec_xmapServe (die s) : exec (.xmapServe die) s = execXmapServe die s := rfl
@[simp] theorem exec_rd (p s) : exec (.rd p) s = execRd p s := rfl
@[simp] theorem exec_wr (p s) : exec (.wr p) s = execWr p s := rfl
@[simp] theorem exec_atq (p s) : exec (.atq p) s = execAtq p s := rfl
@[simp] theorem exec_atr (p s) : exec (.atr p) s = execAtr p s := rfl
@[simp] theorem exec_scr (p s) : exec (.scr p) s = execScr p s := rfl
@[simp] theorem exec_scw (p s) : exec (.scw p) s = execScw p s := rfl
@[simp] theorem exec_inv (p die hold s) : exec (.inv p die hold) s = execInv p die hold s := rfl
@[simp] theorem exec_invack (a s) : exec (.invack a) s = execInvack a s := rfl
@[simp] theorem exec_dataRsp (p bytes s) : exec (.dataRsp p bytes) s = execDataRsp p bytes s := rfl
@[simp] theorem exec_ack (p old s) : exec (.ack p old) s = execAck p old s := rfl
@[simp] theorem exec_nack (p subc s) : exec (.nack p subc) s = execNack p subc s := rfl
@[simp] theorem exec_sigUpd (p set s) : exec (.sigUpd p set) s = execSigUpd p set s := rfl
@[simp] theorem exec_pageWalkComplete (p s) : exec (.pageWalkComplete p) s = execPageWalkComplete p s := rfl
@[simp] theorem exec_hbmFill (p bad s) : exec (.hbmFill p bad) s = execHbmFill p bad s := rfl
@[simp] theorem exec_clusterResetDone (die cluster s) : exec (.clusterResetDone die cluster) s = execClusterResetDone die cluster s := rfl
@[simp] theorem exec_shootdownDone (die s) : exec (.shootdownDone die) s = execShootdownDone die s := rfl
@[simp] theorem exec_imageVerify (die s) : exec (.imageVerify die) s = execImageVerify die s := rfl
@[simp] theorem exec_dieAuthentication (die s) : exec (.dieAuthentication die) s = execDieAuthentication die s := rfl
@[simp] theorem exec_fill (s) : exec .fill s = execFill s := rfl
@[simp] theorem exec_selfTest (arr s) : exec (.selfTest arr) s = execSelfTest arr s := rfl
@[simp] theorem exec_pooledAccessRelease (g s) : exec (.pooledAccessRelease g) s = execPooledAccessRelease g s := rfl
@[simp] theorem exec_agateCommandAccept (bank s) : exec (.agateCommandAccept bank) s = execAgateCommandAccept bank s := rfl
@[simp] theorem exec_madmitAccept (op s) : exec (.madmitAccept op) s = execMadmitAccept op s := rfl
@[simp] theorem exec_mastoreAccept (op s) : exec (.mastoreAccept op) s = execMastoreAccept op s := rfl
@[simp] theorem exec_mloopAccept (op s) : exec (.mloopAccept op) s = execMloopAccept op s := rfl
@[simp] theorem exec_mpptTakeEffect (op s) : exec (.mpptTakeEffect op) s = execMpptTakeEffect op s := rfl
@[simp] theorem exec_traceSample (die s) : exec (.traceSample die) s = execTraceSample die s := rfl
@[simp] theorem exec_tickCheck (crcBad s) : exec (.tickCheck crcBad) s = execTickCheck crcBad s := rfl
@[simp] theorem exec_reconverge (g s) : exec (.reconverge g) s = execReconverge g s := rfl
@[simp] theorem exec_regroupRelease (g s) : exec (.regroupRelease g) s = execRegroupRelease g s := rfl
@[simp] theorem exec_trapEntry (g s) : exec (.trapEntry g) s = execTrapEntry g s := rfl
@[simp] theorem exec_watchdogExpiry (g s) : exec (.watchdogExpiry g) s = execWatchdogExpiry g s := rfl
@[simp] theorem exec_preemptWaitExit (g s) : exec (.preemptWaitExit g) s = execPreemptWaitExit g s := rfl
@[simp] theorem exec_schedulerSwap (core sched s) : exec (.schedulerSwap core sched) s = execSchedulerSwap core sched s := rfl
@[simp] theorem exec_activePositionFill (core sched s) : exec (.activePositionFill core sched) s = execActivePositionFill core sched s := rfl
@[simp] theorem exec_blockEnd (blk s) : exec (.blockEnd blk) s = execBlockEnd blk s := rfl
@[simp] theorem exec_agonAccept (bank s) : exec (.agonAccept bank) s = execAgonAccept bank s := rfl
@[simp] theorem exec_agoffAccept (bank s) : exec (.agoffAccept bank) s = execAgoffAccept bank s := rfl
@[simp] theorem exec_globalTick (s) : exec .globalTick s = execGlobalTick s := rfl
@[simp] theorem exec_tailRegisterWrite (pid q t s) : exec (.tailRegisterWrite pid q t) s = execTailRegisterWrite pid q t s := rfl
@[simp] theorem exec_queueEnable (pid q s) : exec (.queueEnable pid q) s = execQueueEnable pid q s := rfl
@[simp] theorem exec_qheadWrite (pid q x s) : exec (.qheadWrite pid q x) s = execQheadWrite pid q x s := rfl
@[simp] theorem exec_recordComplete (launch s) : exec (.recordComplete launch) s = execRecordComplete launch s := rfl
@[simp] theorem exec_swparkWrite (x s) : exec (.swparkWrite x) s = execSwparkWrite x s := rfl
@[simp] theorem exec_swblkBaseWrite (x s) : exec (.swblkBaseWrite x) s = execSwblkBaseWrite x s := rfl
@[simp] theorem exec_swblkGo (x s) : exec (.swblkGo x) s = execSwblkGo x s := rfl
@[simp] theorem exec_blockRestore (pid s) : exec (.blockRestore pid) s = execBlockRestore pid s := rfl
@[simp] theorem exec_xmap (va s) : exec (.xmap va) s = execXmap va s := rfl
@[simp] theorem exec_lqdoor (x s) : exec (.lqdoor x) s = execLqdoor x s := rfl
@[simp] theorem exec_asidWrite (x s) : exec (.asidWrite x) s = execAsidWrite x s := rfl
@[simp] theorem exec_agsetWrite (n x s) : exec (.agsetWrite n x) s = execAgsetWrite n x s := rfl
@[simp] theorem exec_wgrantWrite (x s) : exec (.wgrantWrite x) s = execWgrantWrite x s := rfl
@[simp] theorem exec_wcfgWrite (x s) : exec (.wcfgWrite x) s = execWcfgWrite x s := rfl
@[simp] theorem exec_splitdwAccess (wr dst s) : exec (.splitdwAccess wr dst) s = execSplitdwAccess wr dst s := rfl
@[simp] theorem exec_batchRegWrite (c x s) : exec (.batchRegWrite c x) s = execBatchRegWrite c x s := rfl
@[simp] theorem exec_gatestWrite (b x s) : exec (.gatestWrite b x) s = execGatestWrite b x s := rfl
@[simp] theorem exec_hndWrite (h x s) : exec (.hndWrite h x) s = execHndWrite h x s := rfl
@[simp] theorem exec_pmcfgWrite (k x s) : exec (.pmcfgWrite k x) s = execPmcfgWrite k x s := rfl
@[simp] theorem exec_specialRegisterWrite (n x s) : exec (.specialRegisterWrite n x) s = execSpecialRegisterWrite n x s := rfl
@[simp] theorem exec_hostRegisterWrite (die off width x s) : exec (.hostRegisterWrite die off width x) s = execHostRegisterWrite die off width x s := rfl
@[simp] theorem exec_conflictQueueRelease (bank s) : exec (.conflictQueueRelease bank) s = execConflictQueueRelease bank s := rfl
@[simp] theorem exec_class0BudgetGain (s) : exec .class0BudgetGain s = execClass0BudgetGain s := rfl
@[simp] theorem exec_linkRetrain (link ok s) : exec (.linkRetrain link ok) s = execLinkRetrain link ok s := rfl
@[simp] theorem exec_clusterReset (die mask s) : exec (.clusterReset die mask) s = execClusterReset die mask s := rfl
@[simp] theorem exec_shootdown (die x s) : exec (.shootdown die x) s = execShootdown die x s := rfl
@[simp] theorem exec_preqRaise (pid x s) : exec (.preqRaise pid x) s = execPreqRaise pid x s := rfl
@[simp] theorem exec_preqCancel (pid x s) : exec (.preqCancel pid x) s = execPreqCancel pid x s := rfl
@[simp] theorem exec_ctxkill (pid x s) : exec (.ctxkill pid x) s = execCtxkill pid x s := rfl
@[simp] theorem exec_ctxkillRetire (pid x s) : exec (.ctxkillRetire pid x) s = execCtxkillRetire pid x s := rfl
@[simp] theorem exec_contextCreate (pid entry x s) : exec (.contextCreate pid entry x) s = execContextCreate pid entry x s := rfl
@[simp] theorem exec_partset (x s) : exec (.partset x) s = execPartset x s := rfl
@[simp] theorem exec_weltPartitionGrant (pid k x s) : exec (.weltPartitionGrant pid k x) s = execWeltPartitionGrant pid k x s := rfl
@[simp] theorem exec_qstop (pid x s) : exec (.qstop pid x) s = execQstop pid x s := rfl
@[simp] theorem exec_qstopDone (pid s) : exec (.qstopDone pid) s = execQstopDone pid s := rfl
@[simp] theorem exec_qrun (pid x s) : exec (.qrun pid x) s = execQrun pid x s := rfl
@[simp] theorem exec_dbgcmdRead (pid c s) : exec (.dbgcmdRead pid c) s = execDbgcmdRead pid c s := rfl
@[simp] theorem exec_dbgcmdWrite (pid c s) : exec (.dbgcmdWrite pid c) s = execDbgcmdWrite pid c s := rfl
@[simp] theorem exec_tstop (x s) : exec (.tstop x) s = execTstop x s := rfl
@[simp] theorem exec_tickStop (s) : exec .tickStop s = execTickStop s := rfl
@[simp] theorem exec_extest (die x s) : exec (.extest die x) s = execExtest die x s := rfl
@[simp] theorem exec_sample (die s) : exec (.sample die) s = execSample die s := rfl
@[simp] theorem exec_scansel (die x s) : exec (.scansel die x) s = execScansel die x s := rfl
@[simp] theorem exec_scanout (die s) : exec (.scanout die) s = execScanout die s := rfl
@[simp] theorem exec_dbgacc (wr c x s) : exec (.dbgacc wr c x) s = execDbgacc wr c x s := rfl
@[simp] theorem exec_tstopnow (x s) : exec (.tstopnow x) s = execTstopnow x s := rfl
@[simp] theorem exec_resume (x s) : exec (.resume x) s = execResume x s := rfl
@[simp] theorem exec_lanemg (die s) : exec (.lanemg die) s = execLanemg die s := rfl
@[simp] theorem exec_idcode (die s) : exec (.idcode die) s = execIdcode die s := rfl
@[simp] theorem exec_bypass (die x s) : exec (.bypass die x) s = execBypass die x s := rfl
@[simp] theorem exec_hostMemRead (die ha len s) : exec (.hostMemRead die ha len) s = execHostMemRead die ha len s := rfl
@[simp] theorem exec_hostMemWrite (die ha xs s) : exec (.hostMemWrite die ha xs) s = execHostMemWrite die ha xs s := rfl
@[simp] theorem exec_hdmCommit (die n base size ways s) : exec (.hdmCommit die n base size ways) s = execHdmCommit die n base size ways s := rfl
@[simp] theorem exec_functionLevelReset (die s) : exec (.functionLevelReset die) s = execFunctionLevelReset die s := rfl
@[simp] theorem exec_spdmRequest (die idx signed s) : exec (.spdmRequest die idx signed) s = execSpdmRequest die idx signed s := rfl
@[simp] theorem exec_peerRequest (r s) : exec (.peerRequest r) s = execPeerRequest r s := rfl
@[simp] theorem exec_portclr (die x s) : exec (.portclr die x) s = execPortclr die x s := rfl
@[simp] theorem exec_coldReset (s) : exec .coldReset s = execColdReset s := rfl
@[simp] theorem exec_bootld (x s) : exec (.bootld x) s = execBootld x s := rfl
@[simp] theorem exec_authTimeout (s) : exec .authTimeout s = execAuthTimeout s := rfl
@[simp] theorem exec_powerEstimate (s) : exec .powerEstimate s = execPowerEstimate s := rfl
@[simp] theorem exec_thermalTrip (s) : exec .thermalTrip s = execThermalTrip s := rfl
@[simp] theorem exec_ageingMonitorRead (s) : exec .ageingMonitorRead s = execAgeingMonitorRead s := rfl
@[simp] theorem exec_setdasa (static dyn s) : exec (.setdasa static dyn) s = execSetdasa static dyn s := rfl
@[simp] theorem exec_i3cSelectorWrite (sel s) : exec (.i3cSelectorWrite sel) s = execI3cSelectorWrite sel s := rfl
@[simp] theorem exec_i3cRead (s) : exec .i3cRead s = execI3cRead s := rfl
@[simp] theorem exec_i3cPwrlimWrite (sel lim s) : exec (.i3cPwrlimWrite sel lim) s = execI3cPwrlimWrite sel lim s := rfl
@[simp] theorem exec_flitReplay (link bad s) : exec (.flitReplay link bad) s = execFlitReplay link bad s := rfl
@[simp] theorem exec_issueCounters (s) : exec .issueCounters s = execIssueCounters s := rfl

end Sys2Proof.Machine
end

