-- ==== Sys2Proof/Laws/Memory.lean ====
section
/-! SUPPORT. Memory: what a byte reads after a write, and that every write keeps the canonical form. -/

namespace Sys2Proof.Machine

theorem Memory.wf_iff (m : Memory) :
    Memory.wf m = true ↔ Tab.sorted m = true ∧ ∀ c ∈ m, c.2 ≠ memDefault := by
  simp [Memory.wf]

/-- Setting a byte keeps the canonical form. -/
theorem Memory.wf_set (m : Memory) (a : Nat) (b : Byte) (h : Memory.wf m = true) :
    Memory.wf (Tab.set m memDefault a b) = true := by
  rw [Memory.wf_iff] at h ⊢
  refine ⟨Tab.sorted_set _ _ _ h.1, fun c hc => ?_⟩
  unfold Tab.set at hc
  split at hc
  · exact h.2 c (Tab.mem_del hc)
  · rename_i hb
    rcases Tab.mem_put hc with rfl | hc
    · exact hb
    · exact h.2 c hc

/-- A byte reads as written, every other as before. -/
@[simp] theorem State.readByte_writeByte (s : State) (a c : Nat) (b : Byte) :
    (s.writeByte a b).readByte c = if c = a then b else s.readByte c := Tab.getD_set _ _ _ _ _

theorem State.writeByte_wf (s : State) (a : Nat) (b : Byte) (h : Memory.wf s.mem = true) :
    Memory.wf (s.writeByte a b).mem = true := Memory.wf_set _ _ _ h

theorem State.writeBytes_wf (l : List Byte) (s : State) (a : Nat) (h : Memory.wf s.mem = true) :
    Memory.wf (s.writeBytes a l).mem = true := by
  induction l generalizing s a with
  | nil => exact h
  | cons b r ih => exact ih _ _ (State.writeByte_wf s a b h)

/-- A byte outside the ones written reads as before. -/
theorem State.readByte_writeBytes_out (l : List Byte) (s : State) (a c : Nat) (hc : c < a ∨ a + l.length ≤ c) :
    (s.writeBytes a l).readByte c = s.readByte c := by
  induction l generalizing s a with
  | nil => rfl
  | cons b r ih =>
    simp only [List.length_cons] at hc
    show ((s.writeByte a b).writeBytes (a + 1) r).readByte c = _
    rw [ih _ _ (by omega), State.readByte_writeByte, if_neg (by omega)]

/-- Byte `i` of the ones written reads back. -/
theorem State.readByte_writeBytes (l : List Byte) (s : State) (a i : Nat) (hi : i < l.length) :
    (s.writeBytes a l).readByte (a + i) = l[i] := by
  induction l generalizing s a i with
  | nil => simp at hi
  | cons b r ih =>
    show ((s.writeByte a b).writeBytes (a + 1) r).readByte (a + i) = _
    cases i with
    | zero =>
      rw [State.readByte_writeBytes_out r _ _ _ (by omega), State.readByte_writeByte]
      simp
    | succ j =>
      have := ih (s.writeByte a b) (a + 1) j (by simpa using hi)
      rw [show a + 1 + j = a + (j + 1) by omega] at this
      simpa using this

/-- Bytes just written read back whole. -/
theorem State.readBytes_writeBytes (l : List Byte) (s : State) (a : Nat) :
    (s.writeBytes a l).readBytes a l.length = l := by
  unfold State.readBytes
  apply List.ext_getElem
  · simp
  · intro i h1 h2
    simp only [List.getElem_map, List.getElem_range]
    exact State.readByte_writeBytes l s a i h2

end Sys2Proof.Machine
end

