-- ==== Sys2Proof/Laws/Keep.lean ====
section
/-! SUPPORT. What keeps memory canonical through the ways the model composes its operations: folds, pairs, options,
outcomes. -/

namespace Sys2Proof.Machine

theorem imp_elim {a b : Prop} (ha : a) (h : a → b) : b := h ha
theorem wf_foldl {β : Type} {f : State → β → State} {l : List β} {s : State} (h : Memory.wf s.mem = true)
    (hf : ∀ t b, Memory.wf t.mem = true → Memory.wf (f t b).mem = true) : Memory.wf (l.foldl f s).mem = true := by
  induction l generalizing s with
  | nil => exact h
  | cons b r ih => exact ih (hf _ _ h)
theorem wf_foldl1 {β γ : Type} {f : State × γ → β → State × γ} {l : List β} {s : State × γ}
    (h : Memory.wf s.1.mem = true) (hf : ∀ t b, Memory.wf t.1.mem = true → Memory.wf (f t b).1.mem = true) :
    Memory.wf (l.foldl f s).1.mem = true := by
  induction l generalizing s with
  | nil => exact h
  | cons b r ih => exact ih (hf _ _ h)
theorem wf_fst {β : Type} {p : State × β} {t : State} {b : β} (h : p = (t, b)) (hp : Memory.wf p.1.mem = true) :
    Memory.wf t.mem = true := by
  rw [h] at hp; exact hp
inductive OptWf : Option State → Prop
  | some {t : State} (h : Memory.wf t.mem = true) : OptWf (some t)
  | none : OptWf none
theorem wf_opt {o : Option State} {t : State} (h : o = some t) (ho : OptWf o) : Memory.wf t.mem = true := by
  rw [h] at ho; cases ho; assumption
inductive OutWf : Out → Prop
  | next {t : State} (h : Memory.wf t.mem = true) : OutWf (.next t)
  | fault (r : Fault) : OutWf (.fault r)
  | refused (r : Refusal) : OutWf (.refused r)
inductive TgtWf : TgtAll → Prop
  | go : TgtWf .go
  | freeze : TgtWf .freeze
  | wait {t : State} (h : Memory.wf t.mem = true) : TgtWf (.wait t)
  | trap {a b c d} {t : State} (h : Memory.wf t.mem = true) : TgtWf (.trap a b c d t)
theorem wf_tgtWait {o : TgtAll} {t : State} (h : o = .wait t) (ho : TgtWf o) : Memory.wf t.mem = true := by
  rw [h] at ho; cases ho; assumption
theorem wf_tgtTrap {o : TgtAll} {a b c d} {t : State} (h : o = .trap a b c d t) (ho : TgtWf o) : Memory.wf t.mem = true := by
  rw [h] at ho; cases ho; assumption
theorem optwf_findSome {β : Type} {f : β → Option State} {l : List β} (h : ∀ b, OptWf (f b)) : OptWf (l.findSome? f) := by
  induction l with
  | nil => exact .none
  | cons b r ih =>
    simp only [List.findSome?]
    have := h b
    cases e : f b with
    | none => exact ih
    | some t => rw [e] at this; exact this
theorem optwf_map {o : Option State} {f : State → State} (h : OptWf o)
    (hf : ∀ t, Memory.wf t.mem = true → Memory.wf (f t).mem = true) : OptWf (o.map f) := by
  cases h with
  | none => exact .none
  | some h => exact .some (hf _ h)
theorem wf_getD {o : Option State} {s : State} (h : OptWf o) (hs : Memory.wf s.mem = true) :
    Memory.wf (o.getD s).mem = true := by
  cases h with
  | none => exact hs
  | some h => exact h
theorem optwf_foldl {β : Type} {f : Option State → β → Option State} {l : List β} {o : Option State} (h : OptWf o)
    (hf : ∀ t b, OptWf t → OptWf (f t b)) : OptWf (l.foldl f o) := by
  induction l generalizing o with
  | nil => exact h
  | cons b r ih => exact ih (hf _ _ h)
theorem ite_wf {c : Prop} [Decidable c] {a b : State} (ha : Memory.wf a.mem = true) (hb : Memory.wf b.mem = true) :
    Memory.wf (if c then a else b).mem = true := by
  split
  · exact ha
  · exact hb

end Sys2Proof.Machine
end

