-- ==== Sys2Proof/Machine/Keep.lean ====
section
/-! DEFINITION. No definition, but theorems: every operation of the model keeps the memory canonical. They stand
here so that whoever mends an operation can mend its theorem. -/

namespace Sys2Proof.Machine

theorem State.modGrp_wf {s : State} {a0 a1} (hs : Memory.wf s.mem = true) :
    Memory.wf (State.modGrp s a0 a1).mem = true := by
  unfold State.modGrp
  repeat' first
    | with_reducible assumption

theorem State.setGrp_wf {s : State} {a0 a1} (hs : Memory.wf s.mem = true) :
    Memory.wf (State.setGrp s a0 a1).mem = true := by
  unfold State.setGrp
  repeat' first
    | with_reducible assumption

theorem State.modCtx_wf {s : State} {a0 a1} (hs : Memory.wf s.mem = true) :
    Memory.wf (State.modCtx s a0 a1).mem = true := by
  unfold State.modCtx
  repeat' first
    | with_reducible assumption

theorem State.modBlk_wf {s : State} {a0 a1} (hs : Memory.wf s.mem = true) :
    Memory.wf (State.modBlk s a0 a1).mem = true := by
  unfold State.modBlk
  repeat' first
    | with_reducible assumption

theorem State.modCore_wf {s : State} {a0 a1} (hs : Memory.wf s.mem = true) :
    Memory.wf (State.modCore s a0 a1).mem = true := by
  unfold State.modCore
  repeat' first
    | with_reducible assumption

theorem State.modDie_wf {s : State} {a0 a1} (hs : Memory.wf s.mem = true) :
    Memory.wf (State.modDie s a0 a1).mem = true := by
  unfold State.modDie
  repeat' first
    | with_reducible assumption

theorem State.modPart_wf {s : State} {a0 a1} (hs : Memory.wf s.mem = true) :
    Memory.wf (State.modPart s a0 a1).mem = true := by
  unfold State.modPart
  repeat' first
    | with_reducible assumption

theorem State.modChan_wf {s : State} {a0 a1} (hs : Memory.wf s.mem = true) :
    Memory.wf (State.modChan s a0 a1).mem = true := by
  unfold State.modChan
  repeat' first
    | with_reducible assumption

theorem State.modBank_wf {s : State} {a0 a1} (hs : Memory.wf s.mem = true) :
    Memory.wf (State.modBank s a0 a1).mem = true := by
  unfold State.modBank
  repeat' first
    | with_reducible assumption

theorem State.modArr_wf {s : State} {a0 a1} (hs : Memory.wf s.mem = true) :
    Memory.wf (State.modArr s a0 a1).mem = true := by
  unfold State.modArr
  repeat' first
    | with_reducible assumption

theorem State.modOp_wf {s : State} {a0 a1} (hs : Memory.wf s.mem = true) :
    Memory.wf (State.modOp s a0 a1).mem = true := by
  unfold State.modOp
  repeat' first
    | with_reducible assumption

theorem State.post_wf {s : State} {a0 a1} (hs : Memory.wf s.mem = true) :
    Memory.wf (State.post s a0 a1).mem = true := by
  unfold State.post
  repeat' first
    | with_reducible assumption

theorem State.raisePi_wf {s : State} {a0 a1} (hs : Memory.wf s.mem = true) :
    Memory.wf (State.raisePi s a0 a1).mem = true := by
  unfold State.raisePi
  repeat' first
    | with_reducible assumption
    | with_reducible apply State.modPart_wf

theorem State.raiseDie_wf {s : State} {a0 a1} (hs : Memory.wf s.mem = true) :
    Memory.wf (State.raiseDie s a0 a1).mem = true := by
  unfold State.raiseDie
  repeat' first
    | with_reducible assumption
    | with_reducible apply State.raisePi_wf
    | split

theorem State.trace_wf {s : State} {a0 a1 a2 a3 a4 a5} (hs : Memory.wf s.mem = true) :
    Memory.wf (State.trace s a0 a1 a2 a3 a4 a5).mem = true := by
  unfold State.trace
  repeat' first
    | with_reducible assumption
    | (intro u; refine imp_elim (a := Memory.wf (State.mem u) = true) ?_ (fun hu => ?_); rotate_left; (try clear_value u); rotate_right)
    | (intro u; clear_value u)
    | with_reducible apply State.modDie_wf
    | with_reducible apply State.writeBytes_wf
    | split
    | lift_lets
    | dsimp only [u]

theorem State.logFreeze_wf {s : State} {a0 a1 a2 a3 a4 a5} (hs : Memory.wf s.mem = true) :
    Memory.wf (State.logFreeze s a0 a1 a2 a3 a4 a5).mem = true := by
  unfold State.logFreeze
  repeat' first
    | with_reducible assumption
    | with_reducible apply State.modDie_wf
    | with_reducible apply State.trace_wf
    | with_reducible apply State.raiseDie_wf

theorem State.freezeAt_wf {s : State} {a0 a1 a2} (hs : Memory.wf s.mem = true) :
    Memory.wf (State.freezeAt s a0 a1 a2).mem = true := by
  unfold State.freezeAt
  repeat' first
    | with_reducible assumption
    | with_reducible apply State.logFreeze_wf
    | with_reducible apply State.modGrp_wf
    | split

theorem State.freeze_wf {s : State} {a0 a1} (hs : Memory.wf s.mem = true) :
    Memory.wf (State.freeze s a0 a1).mem = true := by
  unfold State.freeze
  repeat' first
    | with_reducible assumption
    | with_reducible apply State.freezeAt_wf

theorem State.corrected_wf {s : State} {a0 a1} (hs : Memory.wf s.mem = true) :
    Memory.wf (State.corrected s a0 a1).mem = true := by
  unfold State.corrected
  repeat' first
    | with_reducible assumption
    | (intro u; refine imp_elim (a := Memory.wf (State.mem u) = true) ?_ (fun hu => ?_); rotate_left; (try clear_value u); rotate_right)
    | (intro u; clear_value u)
    | with_reducible apply State.modDie_wf
    | with_reducible apply State.raiseDie_wf
    | split
    | lift_lets

theorem State.countUpsets_wf {s : State} {a0 a1} (hs : Memory.wf s.mem = true) :
    Memory.wf (State.countUpsets s a0 a1).mem = true := by
  unfold State.countUpsets
  repeat' first
    | with_reducible assumption
    | with_reducible apply State.corrected_wf
    | with_reducible refine wf_foldl ?_ (fun _ _ _ => ?_)

theorem State.checked_wf {s : State} {a0 a1} (hs : Memory.wf s.mem = true) :
    OptWf (State.checked s a0 a1) := by
  unfold State.checked
  repeat' first
    | with_reducible assumption
    | with_reducible apply State.countUpsets_wf
    | split
    | with_reducible apply OptWf.some
    | with_reducible exact OptWf.none

theorem State.checkRead_wf {s : State} {a0 a1 f2} (hs : Memory.wf s.mem = true) (hf2 : ∀ y0 : State, Memory.wf (State.mem y0) = true → Memory.wf (f2 y0).mem = true) :
    Memory.wf (State.checkRead s a0 a1 f2).mem = true := by
  unfold State.checkRead
  repeat' first
    | with_reducible assumption
    | with_reducible apply State.checked_wf
    | with_reducible apply State.freeze_wf
    | with_reducible apply hf2
    | (with_reducible apply wf_opt; (focus with_reducible assumption))
    | split

theorem State.tickFree_wf {s : State} (hs : Memory.wf s.mem = true) :
    Memory.wf (State.tickFree s).mem = true := by
  unfold State.tickFree
  repeat' first
    | with_reducible assumption

theorem State.endCtx_wf {s : State} {a0 a1 a2 a3 a4 a5} (hs : Memory.wf s.mem = true) :
    Memory.wf (State.endCtx s a0 a1 a2 a3 a4 a5).mem = true := by
  unfold State.endCtx
  repeat' first
    | with_reducible assumption
    | with_reducible apply State.post_wf
    | with_reducible apply State.modCtx_wf
    | split

theorem State.checkJoin_wf {s : State} {a0} (hs : Memory.wf s.mem = true) :
    Memory.wf (State.checkJoin s a0).mem = true := by
  unfold State.checkJoin
  repeat' first
    | with_reducible assumption
    | with_reducible apply State.checked_wf
    | with_reducible apply State.modGrp_wf
    | with_reducible apply State.freeze_wf
    | (with_reducible apply wf_opt; (focus with_reducible assumption))
    | split

theorem State.retire_wf {s : State} {a0 a1 a2} (hs : Memory.wf s.mem = true) :
    Memory.wf (State.retire s a0 a1 a2).mem = true := by
  unfold State.retire
  repeat' first
    | with_reducible assumption
    | with_reducible apply State.checkJoin_wf
    | with_reducible apply State.setGrp_wf

theorem State.block_wf {s : State} {a0 a1 a2 a3} (hs : Memory.wf s.mem = true) :
    Memory.wf (State.block s a0 a1 a2 a3).mem = true := by
  unfold State.block
  repeat' first
    | with_reducible assumption
    | with_reducible apply State.setGrp_wf

theorem State.wake_wf {s : State} {a0 a1} (hs : Memory.wf s.mem = true) :
    Memory.wf (State.wake s a0 a1).mem = true := by
  unfold State.wake
  repeat' first
    | with_reducible assumption
    | with_reducible apply State.modGrp_wf

theorem State.wakeAll_wf {s : State} {a0} (hs : Memory.wf s.mem = true) :
    Memory.wf (State.wakeAll s a0).mem = true := by
  unfold State.wakeAll
  repeat' first
    | with_reducible assumption
    | with_reducible apply State.wake_wf
    | with_reducible refine wf_foldl ?_ (fun _ _ _ => ?_)

theorem State.release_wf {s : State} {a0 a1 a2} (hs : Memory.wf s.mem = true) :
    Memory.wf (State.release s a0 a1 a2).mem = true := by
  unfold State.release
  repeat' first
    | with_reducible assumption
    | with_reducible apply State.checkJoin_wf
    | with_reducible apply State.setGrp_wf
    | split

theorem State.countEvent_wf {s : State} {a0 a1 a2} (hs : Memory.wf s.mem = true) :
    Memory.wf (State.countEvent s a0 a1 a2).mem = true := by
  unfold State.countEvent
  repeat' first
    | with_reducible assumption
    | split

theorem State.stopLoops_wf {s : State} {a0} (hs : Memory.wf s.mem = true) :
    Memory.wf (State.stopLoops s a0).mem = true := by
  unfold State.stopLoops
  repeat' first
    | with_reducible assumption

theorem State.leaveRend_wf {s : State} {a0} (hs : Memory.wf s.mem = true) :
    Memory.wf (State.leaveRend s a0).mem = true := by
  unfold State.leaveRend
  repeat' first
    | with_reducible assumption
    | with_reducible apply State.modBlk_wf
    | split

theorem State.enterTrap_wf {s : State} {a0 a1 a2} (hs : Memory.wf s.mem = true) :
    Memory.wf (State.enterTrap s a0 a1 a2).mem = true := by
  unfold State.enterTrap
  repeat' first
    | with_reducible assumption
    | with_reducible apply State.endCtx_wf
    | with_reducible apply State.countEvent_wf
    | with_reducible apply State.trace_wf
    | with_reducible apply State.stopLoops_wf
    | with_reducible apply State.modGrp_wf
    | with_reducible apply State.leaveRend_wf
    | split

theorem State.settle_wf {s : State} {a0} (hs : Memory.wf s.mem = true) :
    Memory.wf (State.settle s a0).mem = true := by
  unfold State.settle
  repeat' first
    | with_reducible assumption
    | with_reducible apply State.enterTrap_wf
    | split

theorem State.raise_wf {s : State} {a0 a1} (hs : Memory.wf s.mem = true) :
    Memory.wf (State.raise s a0 a1).mem = true := by
  unfold State.raise
  repeat' first
    | with_reducible assumption
    | with_reducible apply State.settle_wf
    | with_reducible apply State.modGrp_wf

theorem State.trapHere_wf {s : State} {a0 a1 a2 a3} (hs : Memory.wf s.mem = true) :
    Memory.wf (State.trapHere s a0 a1 a2 a3).mem = true := by
  unfold State.trapHere
  repeat' first
    | with_reducible assumption
    | with_reducible apply State.raise_wf
    | split

theorem State.trapMask_wf {s : State} {a0 a1 a2 a3 a4} (hs : Memory.wf s.mem = true) :
    Memory.wf (State.trapMask s a0 a1 a2 a3 a4).mem = true := by
  unfold State.trapMask
  repeat' first
    | with_reducible assumption
    | with_reducible apply State.raise_wf
    | split

theorem State.trapAfter_wf {s : State} {a0 a1 a2 a3} (hs : Memory.wf s.mem = true) :
    Memory.wf (State.trapAfter s a0 a1 a2 a3).mem = true := by
  unfold State.trapAfter
  repeat' first
    | with_reducible assumption
    | with_reducible apply State.raise_wf
    | split

theorem State.illop_wf {s : State} {a0 a1} (hs : Memory.wf s.mem = true) :
    Memory.wf (State.illop s a0 a1).mem = true := by
  unfold State.illop
  repeat' first
    | with_reducible assumption
    | with_reducible apply State.trapHere_wf

theorem withCur_wf {s : State} {f0} (hs : Memory.wf s.mem = true) (hf0 : ∀ y0, ∀ y1, Memory.wf (f0 y0 y1).mem = true) :
    OutWf (withCur s f0) := by
  unfold withCur
  repeat' first
    | with_reducible apply hf0
    | split
    | with_reducible apply OutWf.next
    | with_reducible exact OutWf.fault _

theorem uniform_wf {s : State} {a0 a1 f2} (hs : Memory.wf s.mem = true) (hf2 : ∀ y0, ∀ y1, Memory.wf (f2 y0 y1).mem = true) :
    OutWf (uniform a0 a1 s f2) := by
  unfold uniform
  repeat' first
    | with_reducible assumption
    | intro _
    | with_reducible apply withCur_wf
    | with_reducible apply State.retire_wf
    | with_reducible apply hf2
    | split

theorem State.pendFor_wf {s : State} {a0 a1 a2 a3 a4 a5 a6} (hs : Memory.wf s.mem = true) :
    Memory.wf (State.pendFor s a0 a1 a2 a3 a4 a5 a6).1.mem = true := by
  unfold State.pendFor
  repeat' first
    | with_reducible assumption
    | with_reducible apply State.post_wf
    | split

theorem State.result_wf {s : State} {a0 a1 a2 a3 a4 a5 a6} (hs : Memory.wf s.mem = true) :
    Memory.wf (State.result s a0 a1 a2 a3 a4 a5 a6).mem = true := by
  unfold State.result
  repeat' first
    | with_reducible assumption
    | with_reducible apply State.pendFor_wf
    | with_reducible apply State.retire_wf

theorem State.walkXlate_wf {s : State} {a0 a1 a2 a3 a4 a5 a6} (hs : Memory.wf s.mem = true) :
    Memory.wf (State.walkXlate s a0 a1 a2 a3 a4 a5 a6).1.mem = true := by
  unfold State.walkXlate
  repeat' first
    | with_reducible assumption
    | (intro u; refine imp_elim (a := Memory.wf (State.mem u) = true) ?_ (fun hu => ?_); rotate_left; (try clear_value u); rotate_right)
    | (intro u; clear_value u)
    | with_reducible apply State.modDie_wf
    | with_reducible apply State.tickFree_wf
    | split
    | lift_lets

theorem State.xlate_wf {s : State} {a0 a1 a2 a3 a4 a5} (hs : Memory.wf s.mem = true) :
    Memory.wf (State.xlate s a0 a1 a2 a3 a4 a5).1.mem = true := by
  unfold State.xlate
  repeat' first
    | with_reducible assumption
    | with_reducible apply State.walkXlate_wf
    | split

theorem State.mtlbChecked_wf {s : State} {a0 a1 a2} (hs : Memory.wf s.mem = true) :
    Memory.wf (State.mtlbChecked s a0 a1 a2).mem = true := by
  unfold State.mtlbChecked
  repeat' first
    | with_reducible assumption
    | with_reducible apply State.modDie_wf
    | split

theorem State.mtlbRefused_wf {s : State} {a0 a1 a2} (hs : Memory.wf s.mem = true) :
    Memory.wf (State.mtlbRefused s a0 a1 a2).1.mem = true := by
  unfold State.mtlbRefused
  repeat' first
    | with_reducible assumption
    | with_reducible apply State.modDie_wf

theorem State.walkFor_wf {s : State} {a0 a1 a2 a3 a4 a5} (hs : Memory.wf s.mem = true) :
    Memory.wf (State.walkFor s a0 a1 a2 a3 a4 a5).1.mem = true := by
  unfold State.walkFor
  repeat' first
    | with_reducible assumption
    | (intro u; clear_value u)
    | with_reducible apply State.modDie_wf
    | split
    | lift_lets

theorem State.quiesce_wf {s : State} {a0} (hs : Memory.wf s.mem = true) :
    Memory.wf (State.quiesce s a0).mem = true := by
  unfold State.quiesce
  repeat' first
    | with_reducible assumption
    | with_reducible apply State.modCtx_wf

theorem State.quiesceAll_wf {s : State} {a0} (hs : Memory.wf s.mem = true) :
    Memory.wf (State.quiesceAll s a0).mem = true := by
  unfold State.quiesceAll
  repeat' first
    | with_reducible assumption
    | with_reducible apply State.modPart_wf
    | with_reducible apply State.quiesce_wf
    | with_reducible refine wf_foldl ?_ (fun _ _ _ => ?_)

theorem State.armStop_wf {s : State} {a0} (hs : Memory.wf s.mem = true) :
    Memory.wf (State.armStop s a0).mem = true := by
  unfold State.armStop
  repeat' first
    | with_reducible assumption
    | split

theorem State.fire_wf {s : State} {a0 a1 a2 a3 a4} (hs : Memory.wf s.mem = true) :
    Memory.wf (State.fire s a0 a1 a2 a3 a4).mem = true := by
  unfold State.fire
  repeat' first
    | with_reducible assumption
    | (intro u; refine imp_elim (a := Memory.wf (State.mem u) = true) ?_ (fun hu => ?_); rotate_left; (try clear_value u); rotate_right)
    | (intro u; clear_value u)
    | with_reducible apply State.trace_wf
    | with_reducible apply State.quiesceAll_wf
    | split
    | lift_lets

theorem State.watch_wf {s : State} {a0 a1 a2 a3} (hs : Memory.wf s.mem = true) :
    Memory.wf (State.watch s a0 a1 a2 a3).mem = true := by
  unfold State.watch
  repeat' first
    | with_reducible assumption
    | with_reducible apply State.fire_wf
    | with_reducible refine wf_foldl ?_ (fun _ _ _ => ?_)

theorem State.fireSig_wf {s : State}{s1 : State} {a0 a1 a2 a3} (hs : Memory.wf s.mem = true) (hs1 : Memory.wf s1.mem = true) :
    Memory.wf (State.fireSig s s1 a0 a1 a2 a3).mem = true := by
  unfold State.fireSig
  repeat' first
    | with_reducible assumption
    | (intro u; clear_value u)
    | with_reducible apply State.fire_wf
    | with_reducible refine wf_foldl ?_ (fun _ _ _ => ?_)
    | split
    | lift_lets

theorem State.wakeSig_wf {s : State} {a0} (hs : Memory.wf s.mem = true) :
    Memory.wf (State.wakeSig s a0).mem = true := by
  unfold State.wakeSig
  repeat' first
    | with_reducible assumption
    | with_reducible apply State.post_wf
    | with_reducible refine wf_foldl ?_ (fun _ _ _ => ?_)

theorem State.postOnce_wf {s : State} {a0 a1} (hs : Memory.wf s.mem = true) :
    Memory.wf (State.postOnce s a0 a1).mem = true := by
  unfold State.postOnce
  repeat' first
    | with_reducible assumption
    | with_reducible apply State.post_wf
    | split

theorem State.wakeDeps_wf {s : State} {a0} (hs : Memory.wf s.mem = true) :
    Memory.wf (State.wakeDeps s a0).mem = true := by
  unfold State.wakeDeps
  repeat' first
    | with_reducible assumption
    | intro _
    | with_reducible apply State.postOnce_wf
    | with_reducible refine wf_foldl ?_ (fun _ _ _ => ?_)
    | split
    | lift_lets

theorem State.homeWrite_wf {s : State} {a0 a1 a2} (hs : Memory.wf s.mem = true) :
    Memory.wf (State.homeWrite s a0 a1 a2).mem = true := by
  unfold State.homeWrite
  repeat' first
    | with_reducible assumption
    | with_reducible apply State.writeByte_wf
    | with_reducible apply State.fireSig_wf
    | with_reducible apply State.wakeDeps_wf
    | with_reducible apply State.wakeSig_wf
    | with_reducible refine wf_foldl ?_ (fun _ _ _ => ?_)
    | split

theorem State.vread_wf {s : State} {a0 a1 a2 a3} (hs : Memory.wf s.mem = true) :
    Memory.wf (State.vread s a0 a1 a2 a3).1.mem = true := by
  unfold State.vread
  repeat' first
    | with_reducible assumption
    | with_reducible apply State.xlate_wf
    | (with_reducible apply wf_fst; (focus with_reducible assumption))
    | split

theorem State.vwrite_wf {s : State} {a0 a1 a2 a3} (hs : Memory.wf s.mem = true) :
    Memory.wf (State.vwrite s a0 a1 a2 a3).1.mem = true := by
  unfold State.vwrite
  repeat' first
    | with_reducible assumption
    | with_reducible apply State.xlate_wf
    | with_reducible apply State.homeWrite_wf
    | (with_reducible apply wf_fst; (focus with_reducible assumption))
    | split

theorem State.vadd_wf {s : State} {a0 a1 a2 a3} (hs : Memory.wf s.mem = true) :
    Memory.wf (State.vadd s a0 a1 a2 a3).1.mem = true := by
  unfold State.vadd
  repeat' first
    | with_reducible assumption
    | with_reducible apply State.xlate_wf
    | with_reducible apply State.homeWrite_wf
    | (with_reducible apply wf_fst; (focus with_reducible assumption))
    | split

theorem State.freezeEngine_wf {s : State} {a0 a1} (hs : Memory.wf s.mem = true) :
    Memory.wf (State.freezeEngine s a0 a1).mem = true := by
  unfold State.freezeEngine
  repeat' first
    | with_reducible assumption
    | with_reducible apply State.logFreeze_wf
    | with_reducible apply State.modBlk_wf
    | with_reducible apply State.endCtx_wf
    | with_reducible apply State.freezeAt_wf
    | split

theorem State.freezeMaster_wf {s : State} {a0 a1} (hs : Memory.wf s.mem = true) :
    Memory.wf (State.freezeMaster s a0 a1).mem = true := by
  unfold State.freezeMaster
  repeat' first
    | with_reducible assumption
    | with_reducible apply State.freezeAt_wf
    | with_reducible apply State.freezeEngine_wf
    | with_reducible apply State.logFreeze_wf
    | with_reducible apply State.modDie_wf
    | split

theorem State.invNormal_wf {s : State} {a0} (hs : Memory.wf s.mem = true) :
    Memory.wf (State.invNormal s a0).mem = true := by
  unfold State.invNormal
  repeat' first
    | with_reducible assumption
    | with_reducible apply State.modCore_wf

theorem State.fenceFirst_wf {s : State}{s1 : State} {a0 a1 a2 a3} (hs : Memory.wf s.mem = true) (hs1 : Memory.wf s1.mem = true) :
    Memory.wf (State.fenceFirst s a0 a1 a2 a3 s1).mem = true := by
  unfold State.fenceFirst
  repeat' first
    | with_reducible assumption
    | with_reducible apply State.block_wf
    | with_reducible apply State.modGrp_wf
    | with_reducible apply State.invNormal_wf
    | split

theorem State.modResident_wf {s : State} {a0 a1} (hs : Memory.wf s.mem = true) :
    Memory.wf (State.modResident s a0 a1).mem = true := by
  unfold State.modResident
  repeat' first
    | with_reducible assumption
    | with_reducible apply State.modGrp_wf
    | with_reducible refine wf_foldl ?_ (fun _ _ _ => ?_)

theorem State.closeGate_wf {s : State} {a0 a1 a2} (hs : Memory.wf s.mem = true) :
    Memory.wf (State.closeGate s a0 a1 a2).mem = true := by
  unfold State.closeGate
  repeat' first
    | with_reducible assumption
    | with_reducible apply State.modBlk_wf
    | with_reducible apply State.modResident_wf
    | with_reducible apply State.post_wf

theorem State.tryGate_wf {s : State} {a0 a1 a2} (hs : Memory.wf s.mem = true) :
    Memory.wf (State.tryGate s a0 a1 a2).mem = true := by
  unfold State.tryGate
  repeat' first
    | with_reducible assumption
    | (intro u; clear_value u)
    | with_reducible apply State.closeGate_wf
    | split
    | lift_lets

theorem State.arriveGate_wf {s : State} {a0 a1 a2} (hs : Memory.wf s.mem = true) :
    Memory.wf (State.arriveGate s a0 a1 a2).mem = true := by
  unfold State.arriveGate
  repeat' first
    | with_reducible assumption
    | with_reducible apply State.modBlk_wf
    | with_reducible apply State.modGrp_wf
    | with_reducible apply State.watch_wf
    | with_reducible apply State.tryGate_wf
    | split

theorem State.releaseFence_wf {s : State} {a0 a1 a2} (hs : Memory.wf s.mem = true) :
    Memory.wf (State.releaseFence s a0 a1 a2).1.mem = true := by
  unfold State.releaseFence
  repeat' first
    | with_reducible assumption
    | with_reducible apply State.invNormal_wf
    | split

theorem State.releaseGate_wf {s : State} {a0 a1} (hs : Memory.wf s.mem = true) :
    Memory.wf (State.releaseGate s a0 a1).mem = true := by
  unfold State.releaseGate
  repeat' first
    | with_reducible assumption
    | with_reducible apply State.watch_wf
    | with_reducible apply State.releaseFence_wf
    | with_reducible apply State.release_wf
    | with_reducible apply State.wake_wf
    | with_reducible refine wf_foldl ?_ (fun _ _ _ => ?_)
    | split
    | lift_lets
    | dsimp only

theorem State.closeGang_wf {s : State} {a0 a1} (hs : Memory.wf s.mem = true) :
    Memory.wf (State.closeGang s a0 a1).mem = true := by
  unfold State.closeGang
  repeat' first
    | with_reducible assumption
    | with_reducible apply State.modResident_wf
    | with_reducible apply State.post_wf
    | with_reducible refine wf_foldl ?_ (fun _ _ _ => ?_)

theorem State.tryGang_wf {s : State} {a0 a1} (hs : Memory.wf s.mem = true) :
    Memory.wf (State.tryGang s a0 a1).mem = true := by
  unfold State.tryGang
  repeat' first
    | with_reducible assumption
    | (intro u; clear_value u)
    | with_reducible apply State.closeGang_wf
    | with_reducible apply State.post_wf
    | split
    | lift_lets

theorem State.arriveGang_wf {s : State} {a0 a1} (hs : Memory.wf s.mem = true) :
    Memory.wf (State.arriveGang s a0 a1).mem = true := by
  unfold State.arriveGang
  repeat' first
    | with_reducible assumption
    | with_reducible apply State.modGrp_wf
    | with_reducible apply State.watch_wf
    | with_reducible apply State.tryGang_wf
    | split

theorem State.releaseGang_wf {s : State} {a0} (hs : Memory.wf s.mem = true) :
    Memory.wf (State.releaseGang s a0).mem = true := by
  unfold State.releaseGang
  repeat' first
    | with_reducible assumption
    | with_reducible apply State.release_wf
    | with_reducible apply State.invNormal_wf
    | with_reducible apply State.watch_wf
    | with_reducible apply State.wake_wf
    | with_reducible refine wf_foldl ?_ (fun _ _ _ => ?_)
    | split
    | lift_lets
    | dsimp only

theorem State.l2Touch_wf {s : State} {a0 a1 a2 a3} (hs : Memory.wf s.mem = true) :
    Memory.wf (State.l2Touch s a0 a1 a2 a3).mem = true := by
  unfold State.l2Touch
  repeat' first
    | with_reducible assumption
    | (intro u; clear_value u)
    | with_reducible apply State.tickFree_wf
    | with_reducible apply State.modDie_wf
    | split
    | lift_lets

theorem State.missGo_wf {s : State} {a0 a1 a2 a3} (hs : Memory.wf s.mem = true) :
    Memory.wf (State.missGo s a0 a1 a2 a3).1.mem = true := by
  unfold State.missGo
  repeat' first
    | with_reducible assumption
    | (intro u; refine imp_elim (a := Memory.wf (State.mem u) = true) ?_ (fun hu => ?_); rotate_left; (try clear_value u); rotate_right)
    | (intro u; clear_value u)
    | with_reducible apply State.mtlbChecked_wf
    | with_reducible apply State.mtlbRefused_wf
    | with_reducible apply State.walkFor_wf
    | split
    | lift_lets

theorem State.fetchAsk_wf {s : State} {a0 a1 a2 a3} (hs : Memory.wf s.mem = true) :
    Memory.wf (State.fetchAsk s a0 a1 a2 a3).mem = true := by
  unfold State.fetchAsk
  repeat' first
    | with_reducible assumption
    | with_reducible apply State.modCore_wf

theorem State.fetchGo_wf {s : State} {a0 a1 a2} (hs : Memory.wf s.mem = true) :
    Memory.wf (State.fetchGo s a0 a1 a2).mem = true := by
  unfold State.fetchGo
  repeat' first
    | with_reducible assumption
    | with_reducible apply State.missGo_wf
    | with_reducible apply State.post_wf

theorem State.fetchForget_wf {s : State} {a0 a1 a2} (hs : Memory.wf s.mem = true) :
    Memory.wf (State.fetchForget s a0 a1 a2).mem = true := by
  unfold State.fetchForget
  repeat' first
    | with_reducible assumption
    | with_reducible apply State.modCore_wf

theorem State.fetchFill_wf {s : State} {a0 a1 a2} (hs : Memory.wf s.mem = true) :
    Memory.wf (State.fetchFill s a0 a1 a2).mem = true := by
  unfold State.fetchFill
  repeat' first
    | with_reducible assumption
    | (intro t ht; have _ : Memory.wf (State.mem t) = true := ht)
    | (intro u; refine imp_elim (a := Memory.wf (State.mem u) = true) ?_ (fun hu => ?_); rotate_left; (try clear_value u); rotate_right)
    | (intro u; refine imp_elim (a := ∀ x : State, Memory.wf (State.mem x) = true → ∀ y, Memory.wf (State.mem (u x y)) = true) ?_ (fun hua => ?_); rotate_left; (try clear_value u); rotate_right)
    | (intro u; clear_value u)
    | intro _
    | with_reducible apply State.fetchForget_wf
    | with_reducible apply State.modCore_wf
    | with_reducible apply State.xlate_wf
    | with_reducible apply State.l2Touch_wf
    | with_reducible apply hua
    | (with_reducible apply wf_fst; (focus with_reducible assumption))
    | split
    | lift_lets

theorem scalarOp_wf {s : State} {a0 a1} (hs : Memory.wf s.mem = true) :
    OutWf (scalarOp a0 s a1) := by
  unfold scalarOp
  repeat' first
    | with_reducible assumption
    | intro _
    | with_reducible apply uniform_wf
    | with_reducible apply State.retire_wf

theorem scalarInt_wf {s : State} {a0 a1} (hs : Memory.wf s.mem = true) :
    OutWf (scalarInt a0 s a1) := by
  unfold scalarInt
  repeat' first
    | with_reducible assumption
    | with_reducible apply scalarOp_wf

theorem scalarBits_wf {s : State} {a0 a1} (hs : Memory.wf s.mem = true) :
    OutWf (scalarBits a0 s a1) := by
  unfold scalarBits
  repeat' first
    | with_reducible assumption
    | with_reducible apply scalarOp_wf

theorem scalarMovi_wf {s : State} {a0 a1} (hs : Memory.wf s.mem = true) :
    OutWf (scalarMovi a0 s a1) := by
  unfold scalarMovi
  repeat' first
    | with_reducible assumption
    | intro _
    | with_reducible apply uniform_wf
    | with_reducible apply State.retire_wf

theorem scalarDiv_wf {s : State} {a0 a1} (hs : Memory.wf s.mem = true) :
    OutWf (scalarDiv a0 s a1) := by
  unfold scalarDiv
  repeat' first
    | with_reducible assumption
    | (intro u; clear_value u)
    | intro _
    | with_reducible apply uniform_wf
    | with_reducible apply State.trapHere_wf
    | with_reducible apply State.result_wf
    | split
    | lift_lets

theorem vecOp_wf {s : State} {a0 a1 a2 a3} (hs : Memory.wf s.mem = true) :
    OutWf (vecOp a0 s a1 a2 a3) := by
  unfold vecOp
  repeat' first
    | with_reducible assumption
    | intro _
    | with_reducible apply withCur_wf
    | with_reducible apply State.result_wf

theorem vecInt_wf {s : State} {a0 a1 a2} (hs : Memory.wf s.mem = true) :
    OutWf (vecInt a0 s a1 a2) := by
  unfold vecInt
  repeat' first
    | with_reducible assumption
    | with_reducible apply vecOp_wf

theorem vecBits_wf {s : State} {a0 a1} (hs : Memory.wf s.mem = true) :
    OutWf (vecBits a0 s a1) := by
  unfold vecBits
  repeat' first
    | with_reducible assumption
    | with_reducible apply vecOp_wf

theorem vecMovi_wf {s : State} {a0 a1} (hs : Memory.wf s.mem = true) :
    OutWf (vecMovi a0 s a1) := by
  unfold vecMovi
  repeat' first
    | with_reducible assumption
    | with_reducible apply vecOp_wf

theorem vecDiv_wf {s : State} {a0 a1} (hs : Memory.wf s.mem = true) :
    OutWf (vecDiv a0 s a1) := by
  unfold vecDiv
  repeat' first
    | with_reducible assumption
    | (intro u; clear_value u)
    | intro _
    | with_reducible apply withCur_wf
    | with_reducible apply State.trapMask_wf
    | with_reducible apply State.result_wf
    | split
    | lift_lets

theorem floatForm_wf {s : State} {a0 a1 a2 a3 a4 a5 a6 a7 a8} (hs : Memory.wf s.mem = true) :
    OutWf (floatForm s a0 a1 a2 a3 a4 a5 a6 a7 a8) := by
  unfold floatForm
  repeat' first
    | with_reducible assumption
    | (intro u; clear_value u)
    | intro _
    | with_reducible apply withCur_wf
    | with_reducible apply State.trapMask_wf
    | with_reducible apply State.result_wf
    | split
    | lift_lets

theorem vecFloat_wf {s : State} {a0 a1 a2 a3 a4} (hs : Memory.wf s.mem = true) :
    OutWf (vecFloat a0 s a1 a2 a3 a4) := by
  unfold vecFloat
  repeat' first
    | with_reducible assumption
    | with_reducible apply floatForm_wf

theorem fOnce_wf {s : State} {a0 a1 a2 a3} (hs : Memory.wf s.mem = true) :
    OutWf (fOnce a0 s a1 a2 a3) := by
  unfold fOnce
  repeat' first
    | with_reducible assumption
    | with_reducible apply vecFloat_wf

theorem fPickForm_wf {s : State} {a0 a1} (hs : Memory.wf s.mem = true) :
    OutWf (fPickForm a0 s a1) := by
  unfold fPickForm
  repeat' first
    | with_reducible assumption
    | with_reducible apply vecFloat_wf

theorem State.onVc_wf {s : State} {a0 a1 a2} (hs : Memory.wf s.mem = true) :
    Memory.wf (State.onVc s a0 a1 a2).mem = true := by
  unfold State.onVc
  repeat' first
    | with_reducible assumption
    | with_reducible apply State.post_wf

theorem State.discard_wf {s : State} {a0} (hs : Memory.wf s.mem = true) :
    Memory.wf (State.discard s a0).mem = true := by
  unfold State.discard
  repeat' first
    | with_reducible assumption
    | with_reducible apply State.modDie_wf

theorem State.respond_wf {s : State} {a0 a1 a2 a3 a4 a5 a6} (hs : Memory.wf s.mem = true) :
    Memory.wf (State.respond s a0 a1 a2 a3 a4 a5 a6).mem = true := by
  unfold State.respond
  repeat' first
    | with_reducible assumption
    | with_reducible apply State.onVc_wf

theorem State.respData_wf {s : State} {a0 a1 a2 a3} (hs : Memory.wf s.mem = true) :
    Memory.wf (State.respData s a0 a1 a2 a3).mem = true := by
  unfold State.respData
  repeat' first
    | with_reducible assumption
    | with_reducible apply State.respond_wf

theorem State.respAck_wf {s : State} {a0 a1 a2 a3} (hs : Memory.wf s.mem = true) :
    Memory.wf (State.respAck s a0 a1 a2 a3).mem = true := by
  unfold State.respAck
  repeat' first
    | with_reducible assumption
    | with_reducible apply State.respond_wf

theorem State.respNack_wf {s : State} {a0 a1 a2 a3} (hs : Memory.wf s.mem = true) :
    Memory.wf (State.respNack s a0 a1 a2 a3).mem = true := by
  unfold State.respNack
  repeat' first
    | with_reducible assumption
    | with_reducible apply State.respond_wf

theorem State.rdcChecked_wf {s : State} {a0} (hs : Memory.wf s.mem = true) :
    Memory.wf (State.rdcChecked s a0).mem = true := by
  unfold State.rdcChecked
  repeat' first
    | with_reducible assumption
    | (intro u; clear_value u)
    | with_reducible apply State.corrected_wf
    | with_reducible apply State.modDie_wf
    | with_reducible refine wf_foldl ?_ (fun _ _ _ => ?_)
    | split
    | lift_lets

theorem State.rdcWrite_wf {s : State} {a0} (hs : Memory.wf s.mem = true) :
    Memory.wf (State.rdcWrite s a0).mem = true := by
  unfold State.rdcWrite
  repeat' first
    | with_reducible assumption
    | (intro u; clear_value u)
    | with_reducible apply State.modDie_wf
    | split
    | lift_lets

theorem State.markFills_wf {s : State} {a0} (hs : Memory.wf s.mem = true) :
    Memory.wf (State.markFills s a0).mem = true := by
  unfold State.markFills
  repeat' first
    | with_reducible assumption

theorem State.markReads_wf {s : State} {a0} (hs : Memory.wf s.mem = true) :
    Memory.wf (State.markReads s a0).mem = true := by
  unfold State.markReads
  repeat' first
    | with_reducible assumption

theorem State.setSharers_wf {s : State} {a0 a1 a2} (hs : Memory.wf s.mem = true) :
    Memory.wf (State.setSharers s a0 a1 a2).mem = true := by
  unfold State.setSharers
  repeat' first
    | with_reducible assumption
    | with_reducible apply State.modDie_wf

theorem State.inject_wf {s : State} {a0} (hs : Memory.wf s.mem = true) :
    Memory.wf (State.inject s a0).mem = true := by
  unfold State.inject
  repeat' first
    | with_reducible assumption
    | with_reducible apply State.onVc_wf

theorem State.sendReq_wf {s : State} {a0} (hs : Memory.wf s.mem = true) :
    Memory.wf (State.sendReq s a0).mem = true := by
  unfold State.sendReq
  repeat' first
    | with_reducible assumption
    | (intro u; refine imp_elim (a := Memory.wf (State.mem u) = true) ?_ (fun hu => ?_); rotate_left; (try clear_value u); rotate_right)
    | (intro u; clear_value u)
    | with_reducible apply State.post_wf
    | with_reducible apply State.rdcWrite_wf
    | with_reducible apply State.rdcChecked_wf
    | with_reducible apply State.countEvent_wf
    | with_reducible apply State.inject_wf
    | split
    | lift_lets
    | dsimp only [u]

theorem State.emitSig_wf {s : State} {a0 a1} (hs : Memory.wf s.mem = true) :
    Memory.wf (State.emitSig s a0 a1).mem = true := by
  unfold State.emitSig
  repeat' first
    | with_reducible assumption
    | with_reducible apply State.post_wf
    | with_reducible apply State.onVc_wf
    | split

theorem State.sendSc_wf {s : State} {a0 a1 a2} (hs : Memory.wf s.mem = true) :
    Memory.wf (State.sendSc s a0 a1 a2).mem = true := by
  unfold State.sendSc
  repeat' first
    | with_reducible assumption
    | (intro u; clear_value u)
    | with_reducible apply State.post_wf
    | with_reducible apply State.onVc_wf
    | split
    | lift_lets
    | dsimp only

theorem State.emit_wf {s : State} {a0} (hs : Memory.wf s.mem = true) :
    Memory.wf (State.emit s a0).mem = true := by
  unfold State.emit
  repeat' first
    | with_reducible assumption
    | with_reducible apply State.sendReq_wf
    | with_reducible apply State.emitSig_wf
    | with_reducible apply State.sendSc_wf
    | with_reducible apply State.fetchGo_wf
    | split

theorem State.askGain_wf {s : State} (hs : Memory.wf s.mem = true) :
    Memory.wf (State.askGain s).mem = true := by
  unfold State.askGain
  repeat' first
    | with_reducible assumption
    | with_reducible apply State.post_wf
    | split

theorem State.regulate_wf {s : State} {a0} (hs : Memory.wf s.mem = true) :
    Memory.wf (State.regulate s a0).mem = true := by
  unfold State.regulate
  repeat' first
    | with_reducible assumption
    | (intro u; clear_value u)
    | with_reducible apply State.emit_wf
    | with_reducible apply State.askGain_wf
    | with_reducible apply State.modDie_wf
    | split
    | lift_lets

theorem State.depart_wf {s : State} {a0} (hs : Memory.wf s.mem = true) :
    Memory.wf (State.depart s a0).mem = true := by
  unfold State.depart
  repeat' first
    | with_reducible assumption
    | with_reducible apply State.regulate_wf
    | with_reducible apply State.emit_wf
    | split

theorem State.issueJob_wf {s : State} {a0 a1} (hs : Memory.wf s.mem = true) :
    Memory.wf (State.issueJob s a0 a1).mem = true := by
  unfold State.issueJob
  repeat' first
    | with_reducible assumption

theorem State.launchReq_wf {s : State} {a0 a1} (hs : Memory.wf s.mem = true) :
    Memory.wf (State.launchReq s a0 a1).mem = true := by
  unfold State.launchReq
  repeat' first
    | with_reducible assumption
    | with_reducible apply State.issueJob_wf

theorem State.sendPool_wf {s : State} {a0 a1 a2 a3} (hs : Memory.wf s.mem = true) :
    Memory.wf (State.sendPool s a0 a1 a2 a3).mem = true := by
  unfold State.sendPool
  repeat' first
    | with_reducible assumption
    | with_reducible apply State.issueJob_wf

theorem State.departAll_wf {s : State} (hs : Memory.wf s.mem = true) :
    Memory.wf (State.departAll s).mem = true := by
  unfold State.departAll
  repeat' first
    | with_reducible assumption
    | with_reducible apply State.depart_wf
    | with_reducible refine wf_foldl ?_ (fun _ _ _ => ?_)

theorem State.regulated_wf {s : State} {a0 a1} (hs : Memory.wf s.mem = true) :
    Memory.wf (State.regulated s a0 a1).mem = true := by
  unfold State.regulated
  repeat' first
    | with_reducible assumption
    | (intro u; clear_value u)
    | with_reducible apply State.emit_wf
    | with_reducible apply State.modDie_wf
    | with_reducible refine wf_foldl ?_ (fun _ _ _ => ?_)
    | split
    | lift_lets

theorem State.budgetGain_wf {s : State} (hs : Memory.wf s.mem = true) :
    Memory.wf (State.budgetGain s).mem = true := by
  unfold State.budgetGain
  repeat' first
    | with_reducible assumption
    | (intro t ht; have _ : Memory.wf (State.mem t) = true := ht)
    | (intro u; refine imp_elim (a := Memory.wf (State.mem u) = true) ?_ (fun hu => ?_); rotate_left; (try clear_value u); rotate_right)
    | (intro u; refine imp_elim (a := ∀ x : State, Memory.wf (State.mem x) = true → ∀ y, Memory.wf (State.mem (u x y)) = true) ?_ (fun hua => ?_); rotate_left; (try clear_value u); rotate_right)
    | intro _
    | with_reducible apply State.modDie_wf
    | with_reducible apply State.regulated_wf
    | with_reducible apply State.askGain_wf
    | with_reducible apply hua
    | with_reducible refine wf_foldl ?_ (fun _ _ _ => ?_)
    | split
    | lift_lets

theorem State.lockLine_wf {s : State} {a0} (hs : Memory.wf s.mem = true) :
    Memory.wf (State.lockLine s a0).mem = true := by
  unfold State.lockLine
  repeat' first
    | with_reducible assumption
    | with_reducible apply State.modDie_wf
    | with_reducible apply State.post_wf

theorem State.arriveHome_wf {s : State} {a0} (hs : Memory.wf s.mem = true) :
    Memory.wf (State.arriveHome s a0).mem = true := by
  unfold State.arriveHome
  repeat' first
    | with_reducible assumption
    | with_reducible apply State.modBank_wf
    | with_reducible apply State.lockLine_wf
    | with_reducible apply State.modDie_wf
    | split

theorem State.drainConfl_wf {s : State} {a0} (hs : Memory.wf s.mem = true) :
    Memory.wf (State.drainConfl s a0).mem = true := by
  unfold State.drainConfl
  repeat' first
    | with_reducible assumption
    | with_reducible apply State.lockLine_wf
    | with_reducible apply State.modDie_wf
    | with_reducible refine wf_foldl1 ?_ (fun _ _ _ => ?_)
    | split

theorem State.unlock_wf {s : State} {a0} (hs : Memory.wf s.mem = true) :
    Memory.wf (State.unlock s a0).mem = true := by
  unfold State.unlock
  repeat' first
    | with_reducible assumption
    | with_reducible apply State.modDie_wf
    | with_reducible apply State.post_wf
    | with_reducible apply State.drainConfl_wf
    | split

theorem State.perform_wf {s : State} {a0} (hs : Memory.wf s.mem = true) :
    Memory.wf (State.perform s a0).mem = true := by
  unfold State.perform
  repeat' first
    | with_reducible assumption
    | with_reducible apply State.setSharers_wf
    | with_reducible apply State.l2Touch_wf
    | with_reducible apply State.respData_wf
    | with_reducible apply State.homeWrite_wf
    | with_reducible apply State.respAck_wf
    | with_reducible apply State.modDie_wf
    | with_reducible apply State.unlock_wf
    | split

theorem State.modLock_wf {s : State} {a0 a1 a2} (hs : Memory.wf s.mem = true) :
    Memory.wf (State.modLock s a0 a1 a2).mem = true := by
  unfold State.modLock
  repeat' first
    | with_reducible assumption
    | with_reducible apply State.modDie_wf

theorem State.sendInv_wf {s : State} {a0 a1 a2} (hs : Memory.wf s.mem = true) :
    Memory.wf (State.sendInv s a0 a1 a2).mem = true := by
  unfold State.sendInv
  repeat' first
    | with_reducible assumption
    | with_reducible apply State.onVc_wf

theorem State.sendInvack_wf {s : State} {a0 a1 a2} (hs : Memory.wf s.mem = true) :
    Memory.wf (State.sendInvack s a0 a1 a2).mem = true := by
  unfold State.sendInvack
  repeat' first
    | with_reducible assumption
    | with_reducible apply State.onVc_wf

theorem State.afterFill_wf {s : State} {a0} (hs : Memory.wf s.mem = true) :
    Memory.wf (State.afterFill s a0).mem = true := by
  unfold State.afterFill
  repeat' first
    | with_reducible assumption
    | (intro u; clear_value u)
    | with_reducible apply State.modLock_wf
    | with_reducible apply State.sendInv_wf
    | with_reducible apply State.perform_wf
    | with_reducible refine wf_foldl ?_ (fun _ _ _ => ?_)
    | split
    | lift_lets

theorem State.loseSector_wf {s : State} {a0 a1} (hs : Memory.wf s.mem = true) :
    Memory.wf (State.loseSector s a0 a1).mem = true := by
  unfold State.loseSector
  repeat' first
    | with_reducible assumption
    | with_reducible apply State.modDie_wf
    | with_reducible apply State.tickFree_wf
    | with_reducible apply State.writeBytes_wf
    | with_reducible apply State.endCtx_wf
    | with_reducible apply State.trace_wf
    | with_reducible refine wf_foldl ?_ (fun _ _ _ => ?_)
    | split

theorem State.l2Forget_wf {s : State} {a0 a1} (hs : Memory.wf s.mem = true) :
    Memory.wf (State.l2Forget s a0 a1).mem = true := by
  unfold State.l2Forget
  repeat' first
    | with_reducible assumption
    | with_reducible apply State.corrected_wf
    | with_reducible apply State.modDie_wf

theorem State.l2Checked_wf {s : State} {a0 a1 a2} (hs : Memory.wf s.mem = true) :
    Memory.wf (State.l2Checked s a0 a1 a2).mem = true := by
  unfold State.l2Checked
  repeat' first
    | with_reducible assumption
    | (intro u; clear_value u)
    | with_reducible apply State.corrected_wf
    | with_reducible apply State.loseSector_wf
    | with_reducible apply State.l2Forget_wf
    | with_reducible refine wf_foldl ?_ (fun _ _ _ => ?_)
    | split
    | lift_lets

theorem State.tagDone_wf {s : State} {a0} (hs : Memory.wf s.mem = true) :
    Memory.wf (State.tagDone s a0).mem = true := by
  unfold State.tagDone
  repeat' first
    | with_reducible assumption
    | (intro u; refine imp_elim (a := Memory.wf (State.mem u) = true) ?_ (fun hu => ?_); rotate_left; (try clear_value u); rotate_right)
    | (intro u; clear_value u)
    | with_reducible apply State.l2Checked_wf
    | with_reducible apply State.post_wf
    | with_reducible apply State.afterFill_wf
    | split
    | lift_lets

theorem State.filled_wf {s : State} {a0 a1} (hs : Memory.wf s.mem = true) :
    Memory.wf (State.filled s a0 a1).mem = true := by
  unfold State.filled
  repeat' first
    | with_reducible assumption
    | (intro u; clear_value u)
    | with_reducible apply State.unlock_wf
    | with_reducible apply State.freezeMaster_wf
    | with_reducible apply State.afterFill_wf
    | with_reducible apply State.corrected_wf
    | with_reducible refine wf_foldl ?_ (fun _ _ _ => ?_)
    | split
    | lift_lets

theorem State.invalidate_wf {s : State} {a0 a1 a2} (hs : Memory.wf s.mem = true) :
    Memory.wf (State.invalidate s a0 a1 a2).mem = true := by
  unfold State.invalidate
  repeat' first
    | with_reducible assumption
    | with_reducible apply State.modDie_wf
    | with_reducible apply State.markFills_wf
    | with_reducible apply State.sendInvack_wf

theorem State.invAcked_wf {s : State} {a0} (hs : Memory.wf s.mem = true) :
    Memory.wf (State.invAcked s a0).mem = true := by
  unfold State.invAcked
  repeat' first
    | with_reducible assumption
    | with_reducible apply State.modLock_wf
    | with_reducible apply State.perform_wf
    | split

theorem State.forward_wf {s : State} {a0 a1 a2} (hs : Memory.wf s.mem = true) :
    Memory.wf (State.forward s a0 a1 a2).mem = true := by
  unfold State.forward
  repeat' first
    | with_reducible assumption
    | with_reducible apply State.onVc_wf

theorem State.refuse_wf {s : State} {a0 a1} (hs : Memory.wf s.mem = true) :
    Memory.wf (State.refuse s a0 a1).mem = true := by
  unfold State.refuse
  repeat' first
    | with_reducible assumption
    | with_reducible apply State.modOp_wf
    | with_reducible apply State.respNack_wf
    | split

theorem State.startWalk_wf {s : State} {a0 a1} (hs : Memory.wf s.mem = true) :
    Memory.wf (State.startWalk s a0 a1).mem = true := by
  unfold State.startWalk
  repeat' first
    | with_reducible assumption
    | with_reducible apply State.walkFor_wf
    | with_reducible apply State.post_wf

theorem State.translate_wf {s : State} {a0} (hs : Memory.wf s.mem = true) :
    Memory.wf (State.translate s a0).mem = true := by
  unfold State.translate
  repeat' first
    | with_reducible assumption
    | (intro u; refine imp_elim (a := Memory.wf (State.mem u) = true) ?_ (fun hu => ?_); rotate_left; (try clear_value u); rotate_right)
    | with_reducible apply State.refuse_wf
    | with_reducible apply State.mtlbChecked_wf
    | with_reducible apply State.forward_wf
    | with_reducible apply State.mtlbRefused_wf
    | with_reducible apply State.startWalk_wf
    | split
    | lift_lets

theorem State.walkDone_wf {s : State} {a0} (hs : Memory.wf s.mem = true) :
    Memory.wf (State.walkDone s a0).mem = true := by
  unfold State.walkDone
  repeat' first
    | with_reducible assumption
    | (intro u; refine imp_elim (a := Memory.wf (State.mem u) = true) ?_ (fun hu => ?_); rotate_left; (try clear_value u); rotate_right)
    | (intro u; clear_value u)
    | with_reducible apply State.modDie_wf
    | with_reducible apply State.l2Touch_wf
    | with_reducible apply State.walkXlate_wf
    | with_reducible apply State.forward_wf
    | with_reducible apply State.refuse_wf
    | with_reducible refine wf_foldl ?_ (fun _ _ _ => ?_)
    | (with_reducible apply wf_fst; (focus with_reducible assumption))
    | split
    | lift_lets

theorem State.setArrByte_wf {s : State} {a0 a1 a2} (hs : Memory.wf s.mem = true) :
    Memory.wf (State.setArrByte s a0 a1 a2).mem = true := by
  unfold State.setArrByte
  repeat' first
    | with_reducible assumption
    | with_reducible apply State.modArr_wf

theorem State.spDrop_wf {s : State} {a0 a1} (hs : Memory.wf s.mem = true) :
    Memory.wf (State.spDrop s a0 a1).mem = true := by
  unfold State.spDrop
  repeat' first
    | with_reducible assumption
    | with_reducible apply State.modBlk_wf

theorem State.arrWrite_wf {s : State} {a0 a1} (hs : Memory.wf s.mem = true) :
    Memory.wf (State.arrWrite s a0 a1).mem = true := by
  unfold State.arrWrite
  repeat' first
    | with_reducible assumption
    | (intro u; refine imp_elim (a := Memory.wf (State.mem u) = true) ?_ (fun hu => ?_); rotate_left; (try clear_value u); rotate_right)
    | (intro u; clear_value u)
    | with_reducible apply State.setArrByte_wf
    | with_reducible apply State.spDrop_wf
    | with_reducible refine wf_foldl ?_ (fun _ _ _ => ?_)
    | split
    | lift_lets

theorem State.wakePark_wf {s : State} (hs : Memory.wf s.mem = true) :
    Memory.wf (State.wakePark s).mem = true := by
  unfold State.wakePark
  repeat' first
    | with_reducible assumption
    | with_reducible apply State.wakeAll_wf

theorem State.scRespond_wf {s : State} {a0 a1 a2 a3 a4} (hs : Memory.wf s.mem = true) :
    Memory.wf (State.scRespond s a0 a1 a2 a3 a4).mem = true := by
  unfold State.scRespond
  repeat' first
    | with_reducible assumption
    | with_reducible apply State.onVc_wf

theorem State.scNack_wf {s : State} {a0} (hs : Memory.wf s.mem = true) :
    Memory.wf (State.scNack s a0).mem = true := by
  unfold State.scNack
  repeat' first
    | with_reducible assumption
    | with_reducible apply State.post_wf

theorem State.poolRead_wf {s : State} {a0} (hs : Memory.wf s.mem = true) :
    Memory.wf (State.poolRead s a0).mem = true := by
  unfold State.poolRead
  repeat' first
    | with_reducible assumption
    | (intro u; refine imp_elim (a := Memory.wf (State.mem u) = true) ?_ (fun hu => ?_); rotate_left; (try clear_value u); rotate_right)
    | (intro u; clear_value u)
    | with_reducible apply State.scNack_wf
    | with_reducible apply State.wakePark_wf
    | with_reducible apply State.freezeMaster_wf
    | with_reducible apply State.scRespond_wf
    | with_reducible apply State.countUpsets_wf
    | split
    | lift_lets
    | dsimp only

theorem State.poolWrite_wf {s : State} {a0} (hs : Memory.wf s.mem = true) :
    Memory.wf (State.poolWrite s a0).mem = true := by
  unfold State.poolWrite
  repeat' first
    | with_reducible assumption
    | with_reducible apply State.scNack_wf
    | with_reducible apply State.wakePark_wf
    | with_reducible apply State.scRespond_wf
    | with_reducible apply State.arrWrite_wf
    | split

theorem State.pmSpill_wf {s : State} {a0 a1} (hs : Memory.wf s.mem = true) :
    Memory.wf (State.pmSpill s a0 a1).mem = true := by
  unfold State.pmSpill
  repeat' first
    | with_reducible assumption
    | (intro u; refine imp_elim (a := Memory.wf (State.mem u) = true) ?_ (fun hu => ?_); rotate_left; (try clear_value u); rotate_right)
    | (intro u; clear_value u)
    | with_reducible apply State.vwrite_wf
    | with_reducible apply State.modCtx_wf
    | (with_reducible apply wf_fst; (focus with_reducible assumption))
    | split
    | lift_lets

theorem State.pmLeave_wf {s : State} {a0 a1} (hs : Memory.wf s.mem = true) :
    Memory.wf (State.pmLeave s a0 a1).mem = true := by
  unfold State.pmLeave
  repeat' first
    | with_reducible assumption
    | with_reducible apply State.pmSpill_wf
    | split

theorem State.closeBatch_wf {s : State} {a0 a1} (hs : Memory.wf s.mem = true) :
    Memory.wf (State.closeBatch s a0 a1).mem = true := by
  unfold State.closeBatch
  repeat' first
    | with_reducible assumption
    | with_reducible apply State.modOp_wf
    | with_reducible apply State.modGrp_wf
    | with_reducible refine wf_foldl ?_ (fun _ _ _ => ?_)
    | split

theorem State.freeBlock_wf {s : State} {a0} (hs : Memory.wf s.mem = true) :
    Memory.wf (State.freeBlock s a0).mem = true := by
  unfold State.freeBlock
  repeat' first
    | with_reducible assumption
    | with_reducible apply State.modArr_wf
    | with_reducible refine wf_foldl ?_ (fun _ _ _ => ?_)

theorem State.unpin_wf {s : State} {a0 a1} (hs : Memory.wf s.mem = true) :
    Memory.wf (State.unpin s a0 a1).mem = true := by
  unfold State.unpin
  repeat' first
    | with_reducible assumption
    | with_reducible apply State.modDie_wf
    | with_reducible refine wf_foldl ?_ (fun _ _ _ => ?_)

theorem State.completeRecord_wf {s : State} {a0 a1} (hs : Memory.wf s.mem = true) :
    Memory.wf (State.completeRecord s a0 a1).mem = true := by
  unfold State.completeRecord
  repeat' first
    | with_reducible assumption
    | with_reducible apply State.vwrite_wf
    | with_reducible apply State.vadd_wf
    | with_reducible apply State.raisePi_wf
    | with_reducible apply State.trace_wf
    | with_reducible apply State.unpin_wf
    | with_reducible apply State.post_wf
    | split

theorem State.checkLaunch_wf {s : State} {a0} (hs : Memory.wf s.mem = true) :
    Memory.wf (State.checkLaunch s a0).mem = true := by
  unfold State.checkLaunch
  repeat' first
    | with_reducible assumption
    | with_reducible apply State.completeRecord_wf
    | split

theorem State.checkLate_wf {s : State} (hs : Memory.wf s.mem = true) :
    Memory.wf (State.checkLate s).mem = true := by
  unfold State.checkLate
  repeat' first
    | with_reducible assumption
    | with_reducible apply State.checkLaunch_wf
    | with_reducible refine wf_foldl ?_ (fun _ _ _ => ?_)

theorem State.endBlock_wf {s : State} {a0} (hs : Memory.wf s.mem = true) :
    Memory.wf (State.endBlock s a0).mem = true := by
  unfold State.endBlock
  repeat' first
    | with_reducible assumption
    | (intro u; refine imp_elim (a := Memory.wf (State.mem u) = true) ?_ (fun hu => ?_); rotate_left; (try clear_value u); rotate_right)
    | (intro u; clear_value u)
    | with_reducible apply State.freeBlock_wf
    | with_reducible apply State.tryGang_wf
    | with_reducible apply State.checkLaunch_wf
    | split
    | lift_lets
    | dsimp only [u]

theorem State.checkBlock_wf {s : State} {a0} (hs : Memory.wf s.mem = true) :
    Memory.wf (State.checkBlock s a0).mem = true := by
  unfold State.checkBlock
  repeat' first
    | with_reducible assumption
    | with_reducible apply State.endBlock_wf
    | split

theorem State.regroupDone_wf {s : State} {a0 a1} (hs : Memory.wf s.mem = true) :
    Memory.wf (State.regroupDone s a0 a1).mem = true := by
  unfold State.regroupDone
  repeat' first
    | with_reducible assumption
    | with_reducible apply State.release_wf
    | with_reducible apply State.setGrp_wf
    | with_reducible apply State.leaveRend_wf
    | split

theorem State.checkRend_wf {s : State} {a0 a1} (hs : Memory.wf s.mem = true) :
    Memory.wf (State.checkRend s a0 a1).mem = true := by
  unfold State.checkRend
  repeat' first
    | with_reducible assumption
    | (intro u; clear_value u)
    | with_reducible apply State.regroupDone_wf
    | with_reducible refine wf_foldl ?_ (fun _ _ _ => ?_)
    | split
    | lift_lets

theorem State.tryFuse_wf {s : State} {a0} (hs : Memory.wf s.mem = true) :
    Memory.wf (State.tryFuse s a0).mem = true := by
  unfold State.tryFuse
  repeat' first
    | with_reducible assumption
    | with_reducible apply State.post_wf
    | split

theorem State.rendArrive_wf {s : State} {a0 a1 a2} (hs : Memory.wf s.mem = true) :
    Memory.wf (State.rendArrive s a0 a1 a2).mem = true := by
  unfold State.rendArrive
  repeat' first
    | with_reducible assumption
    | (intro t ht; have _ : Memory.wf (State.mem t) = true := ht)
    | (intro u; refine imp_elim (a := Memory.wf (State.mem u) = true) ?_ (fun hu => ?_); rotate_left; (try clear_value u); rotate_right)
    | (intro u; refine imp_elim (a := ∀ x : State, Memory.wf (State.mem x) = true → ∀ y z, Memory.wf (State.mem (u x y z)) = true) ?_ (fun hub => ?_); rotate_left; (try clear_value u); rotate_right)
    | (intro u; clear_value u)
    | intro _
    | with_reducible apply State.modGrp_wf
    | with_reducible apply State.modBlk_wf
    | with_reducible apply State.checkRend_wf
    | with_reducible apply State.tryFuse_wf
    | with_reducible apply State.regroupDone_wf
    | with_reducible apply hub
    | split
    | lift_lets

theorem State.dropArrivals_wf {s : State} {a0} (hs : Memory.wf s.mem = true) :
    Memory.wf (State.dropArrivals s a0).mem = true := by
  unfold State.dropArrivals
  repeat' first
    | with_reducible assumption
    | with_reducible apply State.modBlk_wf
    | with_reducible refine wf_foldl ?_ (fun _ _ _ => ?_)
    | split

theorem State.tryGates_wf {s : State} {a0} (hs : Memory.wf s.mem = true) :
    Memory.wf (State.tryGates s a0).mem = true := by
  unfold State.tryGates
  repeat' first
    | with_reducible assumption
    | with_reducible apply State.tryGang_wf
    | with_reducible apply State.tryGate_wf
    | with_reducible refine wf_foldl ?_ (fun _ _ _ => ?_)

theorem State.reap_wf {s : State} {a0 a1} (hs : Memory.wf s.mem = true) :
    Memory.wf (State.reap s a0 a1).mem = true := by
  unfold State.reap
  repeat' first
    | with_reducible assumption
    | split

theorem State.ghostCut_wf {s : State} {a0 a1 a2} (hs : Memory.wf s.mem = true) :
    Memory.wf (State.ghostCut s a0 a1 a2).mem = true := by
  unfold State.ghostCut
  repeat' first
    | with_reducible assumption
    | (intro u; refine imp_elim (a := Memory.wf (State.mem u) = true) ?_ (fun hu => ?_); rotate_left; (try clear_value u); rotate_right)
    | (intro u; clear_value u)
    | with_reducible apply State.checkLate_wf
    | with_reducible apply State.wakeAll_wf
    | split
    | lift_lets

theorem State.ghostAnswer_wf {s : State} {a0 a1} (hs : Memory.wf s.mem = true) :
    Memory.wf (State.ghostAnswer s a0 a1).mem = true := by
  unfold State.ghostAnswer
  repeat' first
    | with_reducible assumption
    | with_reducible apply State.ghostCut_wf

theorem State.orphanOps_wf {s : State} {a0} (hs : Memory.wf s.mem = true) :
    Memory.wf (State.orphanOps s a0).mem = true := by
  unfold State.orphanOps
  repeat' first
    | with_reducible assumption
    | with_reducible apply State.closeBatch_wf
    | with_reducible apply State.post_wf
    | with_reducible refine wf_foldl ?_ (fun _ _ _ => ?_)
    | split

theorem State.pokeHandles_wf {s : State} {a0} (hs : Memory.wf s.mem = true) :
    Memory.wf (State.pokeHandles s a0).mem = true := by
  unfold State.pokeHandles
  repeat' first
    | with_reducible assumption
    | with_reducible apply State.post_wf
    | with_reducible refine wf_foldl ?_ (fun _ _ _ => ?_)
    | split

theorem State.endXshfl_wf {s : State} {a0} (hs : Memory.wf s.mem = true) :
    Memory.wf (State.endXshfl s a0).mem = true := by
  unfold State.endXshfl
  repeat' first
    | with_reducible assumption
    | with_reducible apply State.post_wf
    | with_reducible apply State.modGrp_wf
    | with_reducible refine wf_foldl ?_ (fun _ _ _ => ?_)
    | split

theorem State.endGroup_wf {s : State} {a0 a1} (hs : Memory.wf s.mem = true) :
    Memory.wf (State.endGroup s a0 a1).mem = true := by
  unfold State.endGroup
  repeat' first
    | with_reducible assumption
    | with_reducible apply State.orphanOps_wf
    | with_reducible apply State.dropArrivals_wf
    | with_reducible apply State.modBlk_wf
    | with_reducible apply State.modGrp_wf
    | with_reducible apply State.endXshfl_wf
    | with_reducible apply State.pmLeave_wf
    | with_reducible apply State.reap_wf
    | with_reducible apply State.pokeHandles_wf
    | with_reducible apply State.tryGates_wf
    | with_reducible apply State.checkBlock_wf
    | with_reducible apply State.checkRend_wf
    | split

theorem State.fuse_wf {s : State} {a0 a1} (hs : Memory.wf s.mem = true) :
    Memory.wf (State.fuse s a0 a1).mem = true := by
  unfold State.fuse
  repeat' first
    | with_reducible assumption
    | with_reducible apply State.dropArrivals_wf
    | with_reducible apply State.setGrp_wf
    | with_reducible apply State.regroupDone_wf
    | with_reducible apply State.endGroup_wf
    | split

theorem State.preemptWait_wf {s : State} {a0} (hs : Memory.wf s.mem = true) :
    Memory.wf (State.preemptWait s a0).mem = true := by
  unfold State.preemptWait
  repeat' first
    | with_reducible assumption
    | with_reducible apply State.modGrp_wf
    | with_reducible apply State.leaveRend_wf
    | with_reducible apply State.raise_wf
    | split

theorem State.afterResult_wf {s : State} {a0} (hs : Memory.wf s.mem = true) :
    Memory.wf (State.afterResult s a0).mem = true := by
  unfold State.afterResult
  repeat' first
    | with_reducible assumption
    | (intro u; refine imp_elim (a := Memory.wf (State.mem u) = true) ?_ (fun hu => ?_); rotate_left; (try clear_value u); rotate_right)
    | with_reducible apply State.checkLate_wf
    | with_reducible apply State.reap_wf
    | with_reducible apply State.settle_wf
    | with_reducible apply State.rendArrive_wf
    | with_reducible apply State.tryFuse_wf
    | with_reducible apply State.wake_wf
    | split
    | lift_lets

theorem State.trapLanes_wf {s : State} {a0 a1} (hs : Memory.wf s.mem = true) :
    Memory.wf (State.trapLanes s a0 a1).mem = true := by
  unfold State.trapLanes
  repeat' first
    | with_reducible assumption
    | with_reducible apply State.trapMask_wf
    | split

theorem State.ordered_wf {s : State}{s1 : State} {a0 a1 a2 a3} (hs : Memory.wf s.mem = true) (hs1 : Memory.wf s1.mem = true) :
    Memory.wf (State.ordered s a0 a1 a2 a3 s1).mem = true := by
  unfold State.ordered
  repeat' first
    | with_reducible assumption
    | with_reducible apply State.block_wf
    | with_reducible apply State.fenceFirst_wf
    | split

theorem State.l1Scrub_wf {s : State} {a0 a1 a2} (hs : Memory.wf s.mem = true) :
    Memory.wf (State.l1Scrub s a0 a1 a2).mem = true := by
  unfold State.l1Scrub
  repeat' first
    | with_reducible assumption
    | with_reducible apply State.corrected_wf
    | with_reducible apply State.modCore_wf
    | with_reducible refine wf_foldl ?_ (fun _ _ _ => ?_)
    | split

theorem State.markLines_wf {s : State} {a0 a1 a2} (hs : Memory.wf s.mem = true) :
    Memory.wf (State.markLines s a0 a1 a2).mem = true := by
  unfold State.markLines
  repeat' first
    | with_reducible assumption
    | with_reducible apply State.modCore_wf

theorem State.sendReads_wf {s : State} {a0 a1 a2 a3 a4} (hs : Memory.wf s.mem = true) :
    Memory.wf (State.sendReads s a0 a1 a2 a3 a4).mem = true := by
  unfold State.sendReads
  repeat' first
    | with_reducible assumption
    | with_reducible apply State.launchReq_wf
    | with_reducible refine wf_foldl ?_ (fun _ _ _ => ?_)

theorem State.sendWrites_wf {s : State} {a0 a1 a2 a3 a4 a5} (hs : Memory.wf s.mem = true) :
    Memory.wf (State.sendWrites s a0 a1 a2 a3 a4 a5).mem = true := by
  unfold State.sendWrites
  repeat' first
    | with_reducible assumption
    | with_reducible apply State.modCore_wf
    | with_reducible apply State.l1Scrub_wf
    | with_reducible apply State.launchReq_wf
    | with_reducible refine wf_foldl ?_ (fun _ _ _ => ?_)

theorem State.learn_wf {s : State} {a0 a1} (hs : Memory.wf s.mem = true) :
    Memory.wf (State.learn s a0 a1).mem = true := by
  unfold State.learn
  repeat' first
    | with_reducible assumption
    | with_reducible apply State.modCore_wf
    | split

theorem State.acquire_wf {s : State} {a0 a1} (hs : Memory.wf s.mem = true) :
    Memory.wf (State.acquire s a0 a1).mem = true := by
  unfold State.acquire
  repeat' first
    | with_reducible assumption
    | with_reducible apply State.modGrp_wf
    | with_reducible apply State.invNormal_wf
    | split

theorem State.accDone_wf {s : State} {a0 a1} (hs : Memory.wf s.mem = true) :
    Memory.wf (State.accDone s a0 a1).mem = true := by
  unfold State.accDone
  repeat' first
    | with_reducible assumption
    | with_reducible apply State.learn_wf
    | with_reducible apply State.setGrp_wf
    | with_reducible apply State.acquire_wf
    | with_reducible apply State.wake_wf
    | with_reducible apply State.afterResult_wf
    | with_reducible refine wf_foldl ?_ (fun _ _ _ => ?_)
    | split

theorem State.answered_wf {s : State} {a0 a1 a2} (hs : Memory.wf s.mem = true) :
    Memory.wf (State.answered s a0 a1 a2).mem = true := by
  unfold State.answered
  repeat' first
    | with_reducible assumption
    | (intro u; clear_value u)
    | with_reducible apply State.ghostAnswer_wf
    | with_reducible apply State.accDone_wf
    | with_reducible apply State.setGrp_wf
    | split
    | lift_lets

theorem State.grpData_wf {s : State} {a0 a1 a2 a3} (hs : Memory.wf s.mem = true) :
    Memory.wf (State.grpData s a0 a1 a2 a3).mem = true := by
  unfold State.grpData
  repeat' first
    | with_reducible assumption
    | with_reducible apply State.modCore_wf
    | with_reducible apply State.answered_wf
    | with_reducible refine wf_foldl ?_ (fun _ _ _ => ?_)
    | split

theorem State.grpAck_wf {s : State} {a0 a1 a2 a3} (hs : Memory.wf s.mem = true) :
    Memory.wf (State.grpAck s a0 a1 a2 a3).mem = true := by
  unfold State.grpAck
  repeat' first
    | with_reducible assumption
    | with_reducible apply State.answered_wf

theorem State.grpNack_wf {s : State} {a0 a1 a2 a3} (hs : Memory.wf s.mem = true) :
    Memory.wf (State.grpNack s a0 a1 a2 a3).mem = true := by
  unfold State.grpNack
  repeat' first
    | with_reducible assumption
    | with_reducible apply State.modCore_wf
    | with_reducible apply State.answered_wf
    | split

theorem State.ownPart_wf {s : State} {a0 a1} (hs : Memory.wf s.mem = true) :
    Memory.wf (State.ownPart s a0 a1).mem = true := by
  unfold State.ownPart
  repeat' first
    | with_reducible assumption
    | with_reducible apply State.answered_wf

theorem State.setTile_wf {s : State} {a0 a1 a2 a3 a4} (hs : Memory.wf s.mem = true) :
    Memory.wf (State.setTile s a0 a1 a2 a3 a4).mem = true := by
  unfold State.setTile
  repeat' first
    | with_reducible assumption
    | split

theorem State.putTiles_wf {s : State} {a0 a1 a2 a3 a4} (hs : Memory.wf s.mem = true) :
    Memory.wf (State.putTiles s a0 a1 a2 a3 a4).mem = true := by
  unfold State.putTiles
  repeat' first
    | with_reducible assumption
    | with_reducible apply State.setTile_wf
    | with_reducible refine wf_foldl ?_ (fun _ _ _ => ?_)

theorem State.ownRead_wf {s : State} {a0 a1 a2 a3 a4} (hs : Memory.wf s.mem = true) :
    Memory.wf (State.ownRead s a0 a1 a2 a3 a4).mem = true := by
  unfold State.ownRead
  repeat' first
    | with_reducible assumption
    | (intro u; clear_value u)
    | with_reducible apply State.freezeEngine_wf
    | with_reducible apply State.post_wf
    | with_reducible apply State.countUpsets_wf
    | split
    | lift_lets

theorem State.sendPeer_wf {s : State} {a0 a1 a2 a3} (hs : Memory.wf s.mem = true) :
    Memory.wf (State.sendPeer s a0 a1 a2 a3).mem = true := by
  unfold State.sendPeer
  repeat' first
    | with_reducible assumption
    | with_reducible apply State.post_wf
    | split

theorem State.sendRead_wf {s : State} {a0 a1 a2} (hs : Memory.wf s.mem = true) :
    Memory.wf (State.sendRead s a0 a1 a2).mem = true := by
  unfold State.sendRead
  repeat' first
    | with_reducible assumption
    | (intro u; clear_value u)
    | with_reducible apply State.launchReq_wf
    | with_reducible apply State.freeze_wf
    | with_reducible apply State.post_wf
    | with_reducible apply State.sendPool_wf
    | with_reducible apply State.ownRead_wf
    | with_reducible apply State.modOp_wf
    | with_reducible apply State.sendPeer_wf
    | split
    | lift_lets

theorem State.sendScratch_wf {s : State} {a0 a1 a2 a3 a4} (hs : Memory.wf s.mem = true) :
    Memory.wf (State.sendScratch s a0 a1 a2 a3 a4).mem = true := by
  unfold State.sendScratch
  repeat' first
    | with_reducible assumption
    | (intro u; refine imp_elim (a := Memory.wf (State.mem u) = true) ?_ (fun hu => ?_); rotate_left; (try clear_value u); rotate_right)
    | (intro u; clear_value u)
    | with_reducible apply State.modOp_wf
    | with_reducible apply State.sendPool_wf
    | with_reducible apply State.post_wf
    | with_reducible apply State.arrWrite_wf
    | with_reducible refine wf_foldl ?_ (fun _ _ _ => ?_)
    | split
    | lift_lets

theorem State.sendWrite_wf {s : State} {a0 a1 a2 a3} (hs : Memory.wf s.mem = true) :
    Memory.wf (State.sendWrite s a0 a1 a2 a3).mem = true := by
  unfold State.sendWrite
  repeat' first
    | with_reducible assumption
    | with_reducible apply State.modOp_wf
    | with_reducible apply State.launchReq_wf
    | with_reducible apply State.putTiles_wf
    | with_reducible apply State.sendPeer_wf
    | split

theorem State.readNext_wf {s : State} {a0} (hs : Memory.wf s.mem = true) :
    Memory.wf (State.readNext s a0).mem = true := by
  unfold State.readNext
  repeat' first
    | with_reducible assumption
    | with_reducible apply State.sendRead_wf
    | with_reducible apply State.modOp_wf
    | with_reducible refine wf_foldl ?_ (fun _ _ _ => ?_)

theorem State.writeNext_wf {s : State} {a0} (hs : Memory.wf s.mem = true) :
    Memory.wf (State.writeNext s a0).mem = true := by
  unfold State.writeNext
  dsimp only
  split
  · exact State.sendScratch_wf (State.modOp_wf hs)
  · exact wf_foldl1 (State.modOp_wf hs) (fun _ _ h => State.sendWrite_wf h)

theorem State.finish_wf {s : State} {a0 a1} (hs : Memory.wf s.mem = true) :
    Memory.wf (State.finish s a0 a1).mem = true := by
  unfold State.finish
  repeat' first
    | with_reducible assumption
    | with_reducible apply State.post_wf
    | with_reducible apply State.modOp_wf

theorem State.peerNext_wf {s : State} {a0} (hs : Memory.wf s.mem = true) :
    Memory.wf (State.peerNext s a0).mem = true := by
  unfold State.peerNext
  repeat' first
    | with_reducible assumption
    | with_reducible apply State.finish_wf
    | with_reducible apply State.modOp_wf
    | with_reducible apply State.sendPeer_wf
    | with_reducible apply State.launchReq_wf
    | split

theorem State.checkMoved_wf {s : State} {a0} (hs : Memory.wf s.mem = true) :
    Memory.wf (State.checkMoved s a0).mem = true := by
  unfold State.checkMoved
  repeat' first
    | with_reducible assumption
    | with_reducible apply State.peerNext_wf
    | with_reducible apply State.finish_wf
    | split

theorem State.engNack_wf {s : State} {a0 a1 a2 a3} (hs : Memory.wf s.mem = true) :
    Memory.wf (State.engNack s a0 a1 a2 a3).mem = true := by
  unfold State.engNack
  repeat' first
    | with_reducible assumption
    | with_reducible apply State.checkMoved_wf
    | split

theorem State.issueLoad_wf {s : State} {a0 a1 a2 a3 a4 a5 a6} (hs : Memory.wf s.mem = true) :
    Memory.wf (State.issueLoad s a0 a1 a2 a3 a4 a5 a6).mem = true := by
  unfold State.issueLoad
  repeat' first
    | with_reducible assumption
    | (intro u; refine imp_elim (a := Memory.wf (State.mem u) = true) ?_ (fun hu => ?_); rotate_left; (try clear_value u); rotate_right)
    | (intro u; clear_value u)
    | intro _
    | with_reducible apply State.l1Scrub_wf
    | with_reducible apply State.block_wf
    | with_reducible apply State.modCore_wf
    | with_reducible apply State.retire_wf
    | with_reducible apply State.post_wf
    | with_reducible apply State.countEvent_wf
    | with_reducible apply State.sendReads_wf
    | split
    | lift_lets
    | dsimp only [u]

theorem vectorLoad_wf {s : State} {a0 a1 a2 a3} (hs : Memory.wf s.mem = true) :
    OutWf (vectorLoad a0 s a1 a2 a3) := by
  unfold vectorLoad
  repeat' first
    | with_reducible assumption
    | (intro u; clear_value u)
    | intro _
    | with_reducible apply withCur_wf
    | with_reducible apply State.freeze_wf
    | with_reducible apply State.trapLanes_wf
    | with_reducible apply State.retire_wf
    | with_reducible apply State.ordered_wf
    | with_reducible apply State.issueLoad_wf
    | split
    | lift_lets

theorem scratchForm_wf {s : State} {a0 f1} (hs : Memory.wf s.mem = true) (hf1 : ∀ y0, ∀ y1, ∀ y2, ∀ y3, Memory.wf (f1 y0 y1 y2 y3).mem = true) :
    OutWf (scratchForm a0 s f1) := by
  unfold scratchForm
  repeat' first
    | with_reducible assumption
    | (intro u; clear_value u)
    | intro _
    | with_reducible apply withCur_wf
    | with_reducible apply State.trapLanes_wf
    | with_reducible apply State.retire_wf
    | with_reducible apply State.block_wf
    | with_reducible apply State.ordered_wf
    | with_reducible apply hf1
    | split
    | lift_lets

theorem State.sendSts_wf {s : State} {a0 a1 a2 a3 a4} (hs : Memory.wf s.mem = true) :
    Memory.wf (State.sendSts s a0 a1 a2 a3 a4).mem = true := by
  unfold State.sendSts
  repeat' first
    | with_reducible assumption
    | with_reducible apply State.sendPool_wf
    | with_reducible refine wf_foldl ?_ (fun _ _ _ => ?_)

theorem State.sendAtomics_wf {s : State} {a0 a1 a2 a3 a4} (hs : Memory.wf s.mem = true) :
    Memory.wf (State.sendAtomics s a0 a1 a2 a3 a4).mem = true := by
  unfold State.sendAtomics
  repeat' first
    | with_reducible assumption
    | with_reducible apply State.modCore_wf
    | with_reducible apply State.l1Scrub_wf
    | with_reducible apply State.launchReq_wf
    | with_reducible refine wf_foldl ?_ (fun _ _ _ => ?_)

theorem State.issueAtomics_wf {s : State} {a0 a1 a2 a3 a4 a5 a6 a7 a8 a9} (hs : Memory.wf s.mem = true) :
    Memory.wf (State.issueAtomics s a0 a1 a2 a3 a4 a5 a6 a7 a8 a9).mem = true := by
  unfold State.issueAtomics
  repeat' first
    | with_reducible assumption
    | with_reducible apply State.markLines_wf
    | with_reducible apply State.countEvent_wf
    | with_reducible apply State.retire_wf
    | with_reducible apply State.sendAtomics_wf

theorem vectorAtomic_wf {s : State} {a0 a1 a2} (hs : Memory.wf s.mem = true) :
    OutWf (vectorAtomic a0 s a1 a2) := by
  unfold vectorAtomic
  repeat' first
    | with_reducible assumption
    | (intro u; clear_value u)
    | intro _
    | with_reducible apply withCur_wf
    | with_reducible apply State.freeze_wf
    | with_reducible apply State.trapLanes_wf
    | with_reducible apply State.retire_wf
    | with_reducible apply State.ordered_wf
    | with_reducible apply State.issueAtomics_wf
    | split
    | lift_lets

theorem groupAtomic_wf {s : State} {a0 a1} (hs : Memory.wf s.mem = true) :
    OutWf (groupAtomic a0 s a1) := by
  unfold groupAtomic
  repeat' first
    | with_reducible assumption
    | (intro u; clear_value u)
    | intro _
    | with_reducible apply withCur_wf
    | with_reducible apply State.retire_wf
    | with_reducible apply State.freeze_wf
    | with_reducible apply State.trapMask_wf
    | with_reducible apply State.ordered_wf
    | with_reducible apply State.issueAtomics_wf
    | split
    | lift_lets

theorem cflushForm_wf {s : State} {a0 a1} (hs : Memory.wf s.mem = true) :
    OutWf (cflushForm a0 s a1) := by
  unfold cflushForm
  repeat' first
    | with_reducible assumption
    | (intro u; refine imp_elim (a := Memory.wf (State.mem u) = true) ?_ (fun hu => ?_); rotate_left; (try clear_value u); rotate_right)
    | (intro u; clear_value u)
    | intro _
    | with_reducible apply withCur_wf
    | with_reducible apply State.freeze_wf
    | with_reducible apply State.trapLanes_wf
    | with_reducible apply State.retire_wf
    | with_reducible apply State.ordered_wf
    | with_reducible apply State.modCore_wf
    | with_reducible apply State.launchReq_wf
    | with_reducible refine wf_foldl ?_ (fun _ _ _ => ?_)
    | split
    | lift_lets

theorem cinvForm_wf {s : State} {a0 a1} (hs : Memory.wf s.mem = true) :
    OutWf (cinvForm a0 s a1) := by
  unfold cinvForm
  repeat' first
    | with_reducible assumption
    | (intro u; refine imp_elim (a := Memory.wf (State.mem u) = true) ?_ (fun hu => ?_); rotate_left; (try clear_value u); rotate_right)
    | (intro u; clear_value u)
    | intro _
    | with_reducible apply withCur_wf
    | with_reducible apply State.retire_wf
    | with_reducible apply State.ordered_wf
    | with_reducible apply State.modCore_wf
    | split
    | lift_lets

theorem prefForm_wf {s : State} {a0 a1} (hs : Memory.wf s.mem = true) :
    OutWf (prefForm a0 s a1) := by
  unfold prefForm
  repeat' first
    | with_reducible assumption
    | intro _
    | with_reducible apply withCur_wf
    | with_reducible apply State.l1Scrub_wf
    | with_reducible apply State.retire_wf
    | with_reducible apply State.launchReq_wf
    | with_reducible refine wf_foldl ?_ (fun _ _ _ => ?_)

theorem State.prefData_wf {s : State} {a0 a1 a2 a3 a4} (hs : Memory.wf s.mem = true) :
    Memory.wf (State.prefData s a0 a1 a2 a3 a4).mem = true := by
  unfold State.prefData
  repeat' first
    | with_reducible assumption
    | with_reducible apply State.modCore_wf
    | with_reducible refine wf_foldl ?_ (fun _ _ _ => ?_)
    | split

theorem State.modHnd_wf {s : State} {a0 a1 a2} (hs : Memory.wf s.mem = true) :
    Memory.wf (State.modHnd s a0 a1 a2).mem = true := by
  unfold State.modHnd
  repeat' first
    | with_reducible assumption
    | with_reducible apply State.modBlk_wf

theorem State.hndAdmit_wf {s : State} {a0 a1} (hs : Memory.wf s.mem = true) :
    Memory.wf (State.hndAdmit s a0 a1).mem = true := by
  unfold State.hndAdmit
  repeat' first
    | with_reducible assumption
    | (intro t ht; have _ : Memory.wf (State.mem t) = true := ht)
    | (intro u; refine imp_elim (a := ∀ x : State, Memory.wf (State.mem x) = true → ∀ y, Memory.wf (State.mem (u x y)) = true) ?_ (fun hua => ?_); rotate_left; (try clear_value u); rotate_right)
    | (intro u; clear_value u)
    | intro _
    | with_reducible apply State.modGrp_wf
    | with_reducible apply hua
    | split
    | lift_lets
    | dsimp only [u]

theorem State.hndWait_wf {s : State} {a0 a1 a2 a3 a4} (hs : Memory.wf s.mem = true) :
    Memory.wf (State.hndWait s a0 a1 a2 a3 a4).mem = true := by
  unfold State.hndWait
  repeat' first
    | with_reducible assumption
    | with_reducible apply State.modHnd_wf
    | with_reducible apply State.block_wf

theorem State.hndSet_wf {s : State} {a0 a1 a2 a3} (hs : Memory.wf s.mem = true) :
    Memory.wf (State.hndSet s a0 a1 a2 a3).mem = true := by
  unfold State.hndSet
  repeat' first
    | with_reducible assumption
    | (intro u; refine imp_elim (a := Memory.wf (State.mem u) = true) ?_ (fun hu => ?_); rotate_left; (try clear_value u); rotate_right)
    | with_reducible apply State.modHnd_wf
    | with_reducible apply State.post_wf
    | split
    | lift_lets

theorem State.hndDelay_wf {s : State} {a0 a1} (hs : Memory.wf s.mem = true) :
    Memory.wf (State.hndDelay s a0 a1).mem = true := by
  unfold State.hndDelay
  repeat' first
    | with_reducible assumption
    | with_reducible apply State.modGrp_wf
    | split

theorem State.hndEdge_wf {s : State} {a0} (hs : Memory.wf s.mem = true) :
    Memory.wf (State.hndEdge s a0).mem = true := by
  unfold State.hndEdge
  repeat' first
    | with_reducible assumption
    | with_reducible apply State.invNormal_wf

theorem State.issueOp_wf {s : State} {a0 a1 a2 a3 a4 a5} (hs : Memory.wf s.mem = true) :
    Memory.wf (State.issueOp s a0 a1 a2 a3 a4 a5).mem = true := by
  unfold State.issueOp
  repeat' first
    | with_reducible assumption
    | with_reducible apply State.retire_wf
    | with_reducible apply State.hndDelay_wf
    | with_reducible apply State.hndSet_wf
    | with_reducible apply State.hndWait_wf
    | with_reducible apply State.block_wf
    | split

theorem State.pushFault_wf {s : State} {a0 a1} (hs : Memory.wf s.mem = true) :
    Memory.wf (State.pushFault s a0 a1).mem = true := by
  unfold State.pushFault
  repeat' first
    | with_reducible assumption
    | with_reducible apply State.modGrp_wf
    | split

theorem State.opGone_wf {s : State} {a0} (hs : Memory.wf s.mem = true) :
    Memory.wf (State.opGone s a0).mem = true := by
  unfold State.opGone
  repeat' first
    | with_reducible assumption
    | with_reducible apply State.hndSet_wf
    | with_reducible apply State.pushFault_wf
    | with_reducible apply State.modGrp_wf
    | with_reducible apply State.wake_wf
    | with_reducible apply State.checkBlock_wf
    | split

theorem State.ifRanges_wf {s : State}{s1 : State} {a0 a1} (hs : Memory.wf s.mem = true) (hs1 : Memory.wf s1.mem = true) :
    Memory.wf (State.ifRanges s a0 a1 s1).mem = true := by
  unfold State.ifRanges
  repeat' first
    | with_reducible assumption
    | with_reducible apply State.freeze_wf
    | with_reducible apply State.trapHere_wf
    | split

theorem copyForm_wf {s : State} {a0 a1 a2 a3 a4} (hs : Memory.wf s.mem = true) :
    OutWf (copyForm a0 a1 s a2 a3 a4) := by
  unfold copyForm
  repeat' first
    | with_reducible assumption
    | (intro u; clear_value u)
    | intro _
    | with_reducible apply uniform_wf
    | with_reducible apply State.illop_wf
    | with_reducible apply State.trapHere_wf
    | with_reducible apply State.ifRanges_wf
    | with_reducible apply State.issueOp_wf
    | split
    | lift_lets

theorem copygForm_wf {s : State} {a0 a1} (hs : Memory.wf s.mem = true) :
    OutWf (copygForm a0 s a1) := by
  unfold copygForm
  repeat' first
    | with_reducible assumption
    | (intro u; clear_value u)
    | intro _
    | with_reducible apply uniform_wf
    | with_reducible apply State.freeze_wf
    | with_reducible apply State.trapLanes_wf
    | with_reducible apply State.trapHere_wf
    | with_reducible apply State.ifRanges_wf
    | with_reducible apply State.issueOp_wf
    | split
    | lift_lets

theorem copypForm_wf {s : State} {a0 a1 a2} (hs : Memory.wf s.mem = true) :
    OutWf (copypForm a0 a1 s a2) := by
  unfold copypForm
  repeat' first
    | with_reducible assumption
    | (intro u; clear_value u)
    | intro _
    | with_reducible apply uniform_wf
    | with_reducible apply State.illop_wf
    | with_reducible apply State.trapHere_wf
    | with_reducible apply State.ifRanges_wf
    | with_reducible apply State.issueOp_wf
    | split
    | lift_lets

theorem State.observe_wf {s : State} {a0 a1 a2 a3} (hs : Memory.wf s.mem = true) :
    Memory.wf (State.observe s a0 a1 a2 a3).mem = true := by
  unfold State.observe
  repeat' first
    | with_reducible assumption
    | (intro u; clear_value u)
    | with_reducible apply State.retire_wf
    | with_reducible apply State.raise_wf
    | with_reducible apply State.setGrp_wf
    | split
    | lift_lets

theorem State.fenced_wf {s : State} {a0 a1 a2 a3} (hs : Memory.wf s.mem = true) :
    Memory.wf (State.fenced s a0 a1 a2 a3).mem = true := by
  unfold State.fenced
  repeat' first
    | with_reducible assumption
    | with_reducible apply State.releaseFence_wf
    | with_reducible apply State.retire_wf

theorem gateForm_wf {s : State} {a0 a1 a2 f3} (hs : Memory.wf s.mem = true) (hf3 : ∀ y0, ∀ y1, ∀ y2, Memory.wf (f3 y0 y1 y2).mem = true) :
    OutWf (gateForm a0 a1 s a2 f3) := by
  unfold gateForm
  repeat' first
    | with_reducible assumption
    | (intro u; clear_value u)
    | intro _
    | with_reducible apply uniform_wf
    | with_reducible apply State.illop_wf
    | with_reducible apply hf3
    | split
    | lift_lets

theorem State.holdGate_wf {s : State} {a0 a1 a2 a3 a4 a5} (hs : Memory.wf s.mem = true) :
    Memory.wf (State.holdGate s a0 a1 a2 a3 a4 a5).mem = true := by
  unfold State.holdGate
  repeat' first
    | with_reducible assumption
    | with_reducible apply State.block_wf
    | with_reducible apply State.checkRend_wf
    | with_reducible apply State.fenced_wf
    | split

theorem ggateForm_wf {s : State} {a0 a1 f2} (hs : Memory.wf s.mem = true) (hf2 : ∀ y0, ∀ y1, Memory.wf (f2 y0 y1).mem = true) :
    OutWf (ggateForm a0 a1 s f2) := by
  unfold ggateForm
  repeat' first
    | with_reducible assumption
    | intro _
    | with_reducible apply uniform_wf
    | with_reducible apply State.illop_wf
    | with_reducible apply hf2
    | split

theorem State.holdGang_wf {s : State} {a0 a1 a2 a3 a4} (hs : Memory.wf s.mem = true) :
    Memory.wf (State.holdGang s a0 a1 a2 a3 a4).mem = true := by
  unfold State.holdGang
  repeat' first
    | with_reducible assumption
    | with_reducible apply State.block_wf
    | with_reducible apply State.fenced_wf
    | split

theorem sigForm_wf {s : State} {a0 a1 f2} (hs : Memory.wf s.mem = true) (hf2 : ∀ y0, ∀ y1, ∀ y2, Memory.wf (f2 y0 y1 y2).mem = true) :
    OutWf (sigForm a0 s a1 f2) := by
  unfold sigForm
  repeat' first
    | with_reducible assumption
    | (intro u; clear_value u)
    | intro _
    | with_reducible apply uniform_wf
    | with_reducible apply State.freeze_wf
    | with_reducible apply State.trapHere_wf
    | with_reducible apply State.block_wf
    | with_reducible apply hf2
    | split
    | lift_lets

theorem sigAtomic_wf {s : State} {a0 a1} (hs : Memory.wf s.mem = true) :
    OutWf (sigAtomic a0 s a1) := by
  unfold sigAtomic
  repeat' first
    | with_reducible assumption
    | intro _
    | with_reducible apply sigForm_wf
    | with_reducible apply State.issueAtomics_wf

theorem State.sendSig_wf {s : State} {a0 a1 a2} (hs : Memory.wf s.mem = true) :
    Memory.wf (State.sendSig s a0 a1 a2).mem = true := by
  unfold State.sendSig
  repeat' first
    | with_reducible assumption
    | with_reducible apply State.launchReq_wf
    | split

theorem State.sigAt_wf {s : State} {a0} (hs : Memory.wf s.mem = true) :
    Memory.wf (State.sigAt s a0).mem = true := by
  unfold State.sigAt
  repeat' first
    | with_reducible assumption
    | with_reducible apply State.modGrp_wf
    | split

theorem State.sigTimer_wf {s : State} {a0} (hs : Memory.wf s.mem = true) :
    Memory.wf (State.sigTimer s a0).mem = true := by
  unfold State.sigTimer
  repeat' first
    | with_reducible assumption
    | with_reducible apply State.post_wf
    | split

theorem State.sigData_wf {s : State} {a0 a1 a2 a3 a4} (hs : Memory.wf s.mem = true) :
    Memory.wf (State.sigData s a0 a1 a2 a3 a4).mem = true := by
  unfold State.sigData
  repeat' first
    | with_reducible assumption
    | (intro u; refine imp_elim (a := Memory.wf (State.mem u) = true) ?_ (fun hu => ?_); rotate_left; (try clear_value u); rotate_right)
    | (intro u; clear_value u)
    | with_reducible apply State.acquire_wf
    | with_reducible apply State.setGrp_wf
    | with_reducible apply State.afterResult_wf
    | with_reducible apply State.wake_wf
    | with_reducible apply State.release_wf
    | with_reducible apply State.sigTimer_wf
    | with_reducible apply State.sigAt_wf
    | split
    | lift_lets

theorem State.sigReread_wf {s : State} {a0} (hs : Memory.wf s.mem = true) :
    Memory.wf (State.sigReread s a0).mem = true := by
  unfold State.sigReread
  repeat' first
    | with_reducible assumption
    | with_reducible apply State.sendSig_wf
    | with_reducible apply State.modGrp_wf
    | with_reducible refine wf_foldl ?_ (fun _ _ _ => ?_)
    | split

theorem State.bankDone_wf {s : State} {a0 a1} (hs : Memory.wf s.mem = true) :
    Memory.wf (State.bankDone s a0 a1).mem = true := by
  unfold State.bankDone
  repeat' first
    | with_reducible assumption
    | (intro u; refine imp_elim (a := Memory.wf (State.mem u) = true) ?_ (fun hu => ?_); rotate_left; (try clear_value u); rotate_right)
    | (intro u; clear_value u)
    | with_reducible apply State.modOp_wf
    | with_reducible apply State.finish_wf
    | split
    | lift_lets

theorem State.agFault_wf {s : State} {a0 a1} (hs : Memory.wf s.mem = true) :
    Memory.wf (State.agFault s a0 a1).mem = true := by
  unfold State.agFault
  repeat' first
    | with_reducible assumption
    | with_reducible apply State.pushFault_wf
    | split

theorem State.agRefuse_wf {s : State} {a0 a1} (hs : Memory.wf s.mem = true) :
    Memory.wf (State.agRefuse s a0 a1).mem = true := by
  unfold State.agRefuse
  repeat' first
    | with_reducible assumption
    | with_reducible apply State.bankDone_wf
    | with_reducible apply State.agFault_wf

theorem State.pfDisarm_wf {s : State} {a0} (hs : Memory.wf s.mem = true) :
    Memory.wf (State.pfDisarm s a0).mem = true := by
  unfold State.pfDisarm
  repeat' first
    | with_reducible assumption
    | with_reducible apply State.modDie_wf
    | with_reducible refine wf_foldl ?_ (fun _ _ _ => ?_)
    | split

theorem State.pfArm_wf {s : State} {a0 a1 a2 a3} (hs : Memory.wf s.mem = true) :
    Memory.wf (State.pfArm s a0 a1 a2 a3).mem = true := by
  unfold State.pfArm
  repeat' first
    | with_reducible assumption
    | with_reducible apply State.modDie_wf

theorem State.sweep_wf {s : State} {a0 a1} (hs : Memory.wf s.mem = true) :
    Memory.wf (State.sweep s a0 a1).mem = true := by
  unfold State.sweep
  repeat' first
    | with_reducible assumption
    | with_reducible apply State.modDie_wf

theorem State.agonAccept_wf {s : State} {a0 a1} (hs : Memory.wf s.mem = true) :
    Memory.wf (State.agonAccept s a0 a1).mem = true := by
  unfold State.agonAccept
  repeat' first
    | with_reducible assumption
    | with_reducible apply State.post_wf
    | with_reducible apply State.modBank_wf

theorem State.agoffAccept_wf {s : State} {a0 a1} (hs : Memory.wf s.mem = true) :
    Memory.wf (State.agoffAccept s a0 a1).mem = true := by
  unfold State.agoffAccept
  repeat' first
    | with_reducible assumption
    | with_reducible apply State.modBank_wf

theorem State.agArrive_wf {s : State} {a0 a1} (hs : Memory.wf s.mem = true) :
    Memory.wf (State.agArrive s a0 a1).mem = true := by
  unfold State.agArrive
  dsimp only
  cases a1.cmd <;> dsimp only <;> (repeat' first
    | with_reducible assumption
    | with_reducible apply State.agRefuse_wf
    | with_reducible apply State.agonAccept_wf
    | with_reducible apply State.agoffAccept_wf
    | with_reducible apply State.bankDone_wf
    | with_reducible apply State.modBank_wf
    | split)

theorem State.agHeld_wf {s : State} {a0} (hs : Memory.wf s.mem = true) :
    Memory.wf (State.agHeld s a0).mem = true := by
  unfold State.agHeld
  repeat' first
    | with_reducible assumption
    | with_reducible apply State.agArrive_wf
    | with_reducible apply State.modBank_wf
    | with_reducible refine wf_foldl ?_ (fun _ _ _ => ?_)

theorem State.agonWritten_wf {s : State} {a0} (hs : Memory.wf s.mem = true) :
    Memory.wf (State.agonWritten s a0).mem = true := by
  unfold State.agonWritten
  repeat' first
    | with_reducible assumption
    | with_reducible apply State.post_wf
    | with_reducible apply State.sweep_wf
    | with_reducible apply State.modBank_wf
    | with_reducible apply State.arriveHome_wf
    | with_reducible refine wf_foldl ?_ (fun _ _ _ => ?_)
    | split

theorem State.agonDone_wf {s : State} {a0} (hs : Memory.wf s.mem = true) :
    Memory.wf (State.agonDone s a0).mem = true := by
  unfold State.agonDone
  repeat' first
    | with_reducible assumption
    | (intro u; refine imp_elim (a := Memory.wf (State.mem u) = true) ?_ (fun hu => ?_); rotate_left; (try clear_value u); rotate_right)
    | (intro u; clear_value u)
    | with_reducible apply State.modBank_wf
    | with_reducible apply State.bankDone_wf
    | with_reducible apply State.agHeld_wf
    | split
    | lift_lets
    | dsimp only [u]

theorem State.agoffDrained_wf {s : State} {a0} (hs : Memory.wf s.mem = true) :
    Memory.wf (State.agoffDrained s a0).mem = true := by
  unfold State.agoffDrained
  repeat' first
    | with_reducible assumption
    | with_reducible apply State.post_wf
    | with_reducible apply State.pfDisarm_wf
    | with_reducible apply State.modBank_wf
    | split

theorem State.agoffDone_wf {s : State} {a0} (hs : Memory.wf s.mem = true) :
    Memory.wf (State.agoffDone s a0).mem = true := by
  unfold State.agoffDone
  repeat' first
    | with_reducible assumption
    | (intro u; refine imp_elim (a := Memory.wf (State.mem u) = true) ?_ (fun hu => ?_); rotate_left; (try clear_value u); rotate_right)
    | (intro u; clear_value u)
    | with_reducible apply State.post_wf
    | with_reducible apply State.sweep_wf
    | with_reducible apply State.modBank_wf
    | with_reducible apply State.bankDone_wf
    | with_reducible apply State.agHeld_wf
    | split
    | lift_lets
    | dsimp only [u]

theorem State.agStop_wf {s : State} {a0 a1} (hs : Memory.wf s.mem = true) :
    Memory.wf (State.agStop s a0 a1).mem = true := by
  unfold State.agStop
  repeat' first
    | with_reducible assumption
    | with_reducible apply State.freezeEngine_wf
    | with_reducible apply State.modBank_wf

theorem State.agPartial_wf {s : State} {a0 a1} (hs : Memory.wf s.mem = true) :
    Memory.wf (State.agPartial s a0 a1).mem = true := by
  unfold State.agPartial
  repeat' first
    | with_reducible assumption
    | with_reducible apply State.tickFree_wf
    | with_reducible apply State.modBank_wf
    | split

theorem State.agChild_wf {s : State} {a0 a1 a2} (hs : Memory.wf s.mem = true) :
    Memory.wf (State.agChild s a0 a1 a2).mem = true := by
  unfold State.agChild
  repeat' first
    | with_reducible assumption
    | split

theorem State.agBegin_wf {s : State} {a0} (hs : Memory.wf s.mem = true) :
    Memory.wf (State.agBegin s a0).mem = true := by
  unfold State.agBegin
  repeat' first
    | with_reducible assumption
    | (intro u; refine imp_elim (a := Memory.wf (State.mem u) = true) ?_ (fun hu => ?_); rotate_left; (try clear_value u); rotate_right)
    | (intro u; clear_value u)
    | intro _
    | with_reducible apply State.modBank_wf
    | with_reducible apply State.post_wf
    | with_reducible apply State.agChild_wf
    | with_reducible apply State.pfArm_wf
    | with_reducible apply State.agStop_wf
    | split
    | lift_lets
    | dsimp only

theorem State.agReport_wf {s : State} {a0 a1 a2} (hs : Memory.wf s.mem = true) :
    Memory.wf (State.agReport s a0 a1 a2).mem = true := by
  unfold State.agReport
  repeat' first
    | with_reducible assumption
    | with_reducible apply State.agFault_wf
    | split

theorem State.agComplete_wf {s : State} {a0} (hs : Memory.wf s.mem = true) :
    Memory.wf (State.agComplete s a0).mem = true := by
  unfold State.agComplete
  repeat' first
    | with_reducible assumption
    | (intro t ht; have _ : Memory.wf (State.mem t) = true := ht)
    | (intro u; refine imp_elim (a := ∀ x : State, Memory.wf (State.mem x) = true → Memory.wf (State.mem (u x)) = true) ?_ (fun huc => ?_); rotate_left; (try clear_value u); rotate_right)
    | (intro u; clear_value u)
    | with_reducible apply State.agStop_wf
    | with_reducible apply State.agPartial_wf
    | with_reducible apply State.modBank_wf
    | with_reducible apply State.agReport_wf
    | with_reducible apply State.bankDone_wf
    | with_reducible apply State.agChild_wf
    | with_reducible apply State.pfDisarm_wf
    | with_reducible apply huc
    | split
    | lift_lets
    | dsimp only

theorem State.agMoved_wf {s : State} {a0 a1} (hs : Memory.wf s.mem = true) :
    Memory.wf (State.agMoved s a0 a1).mem = true := by
  unfold State.agMoved
  repeat' first
    | with_reducible assumption
    | with_reducible apply State.post_wf
    | with_reducible apply State.modOp_wf
    | split

theorem State.agStage_wf {s : State} {a0} (hs : Memory.wf s.mem = true) :
    Memory.wf (State.agStage s a0).mem = true := by
  unfold State.agStage
  repeat' first
    | with_reducible assumption
    | with_reducible apply State.agMoved_wf
    | split

theorem State.agSummed_wf {s : State} {a0} (hs : Memory.wf s.mem = true) :
    Memory.wf (State.agSummed s a0).mem = true := by
  unfold State.agSummed
  repeat' first
    | with_reducible assumption
    | with_reducible apply State.bankDone_wf
    | with_reducible apply State.agReport_wf
    | split

theorem State.bankTick_wf {s : State} {a0} (hs : Memory.wf s.mem = true) :
    Memory.wf (State.bankTick s a0).mem = true := by
  unfold State.bankTick
  repeat' first
    | with_reducible assumption
    | with_reducible apply State.agArrive_wf
    | with_reducible apply State.modBank_wf
    | with_reducible apply State.post_wf
    | with_reducible apply State.agBegin_wf
    | with_reducible refine wf_foldl ?_ (fun _ _ _ => ?_)
    | split

theorem State.agSend_wf {s : State} {a0} (hs : Memory.wf s.mem = true) :
    Memory.wf (State.agSend s a0).mem = true := by
  unfold State.agSend
  repeat' first
    | with_reducible assumption
    | with_reducible apply State.modOp_wf
    | with_reducible apply State.modBank_wf
    | with_reducible refine wf_foldl ?_ (fun _ _ _ => ?_)
    | split

theorem State.agIssue_wf {s : State} {a0 a1 a2 a3} (hs : Memory.wf s.mem = true) :
    Memory.wf (State.agIssue s a0 a1 a2 a3).mem = true := by
  unfold State.agIssue
  repeat' first
    | with_reducible assumption
    | (intro u; refine imp_elim (a := Memory.wf (State.mem u) = true) ?_ (fun hu => ?_); rotate_left; (try clear_value u); rotate_right)
    | (intro u; clear_value u)
    | with_reducible apply State.freeze_wf
    | with_reducible apply State.trapLanes_wf
    | with_reducible apply State.issueOp_wf
    | with_reducible apply State.countEvent_wf
    | split
    | lift_lets

theorem agForm_wf {s : State} {a0 a1 a2} (hs : Memory.wf s.mem = true) :
    OutWf (agForm a0 s a1 a2) := by
  unfold agForm
  repeat' first
    | with_reducible assumption
    | intro _
    | with_reducible apply withCur_wf
    | with_reducible apply State.agIssue_wf

theorem agMoveForm_wf {s : State} {a0 a1} (hs : Memory.wf s.mem = true) :
    OutWf (agMoveForm a0 s a1) := by
  unfold agMoveForm
  repeat' first
    | with_reducible assumption
    | with_reducible apply agForm_wf

theorem State.transfer_wf {s : State} {a0 a1 a2} (hs : Memory.wf s.mem = true) :
    Memory.wf (State.transfer s a0 a1 a2).mem = true := by
  unfold State.transfer
  repeat' first
    | with_reducible assumption
    | with_reducible apply State.checkJoin_wf
    | with_reducible apply State.setGrp_wf

theorem State.targets_wf {s : State} {a0 a1 a2 a3} (hs : Memory.wf s.mem = true) :
    TgtWf (State.targets s a0 a1 a2 a3) := by
  unfold State.targets
  repeat' first
    | with_reducible assumption
    | (intro u; refine imp_elim (a := Memory.wf (State.mem u) = true) ?_ (fun hu => ?_); rotate_left; (try clear_value u); rotate_right)
    | (intro u; clear_value u)
    | with_reducible apply State.fetchAsk_wf
    | with_reducible apply State.fetchForget_wf
    | with_reducible refine wf_foldl ?_ (fun _ _ _ => ?_)
    | split
    | lift_lets
    | with_reducible apply TgtWf.wait
    | with_reducible apply TgtWf.trap
    | with_reducible exact TgtWf.go
    | with_reducible exact TgtWf.freeze

theorem State.goChecked_wf {s : State} {a0 a1 a2 a3 a4 a5} (hs : Memory.wf s.mem = true) :
    Memory.wf (State.goChecked s a0 a1 a2 a3 a4 a5).mem = true := by
  unfold State.goChecked
  repeat' first
    | with_reducible assumption
    | with_reducible apply State.targets_wf
    | with_reducible apply State.transfer_wf
    | with_reducible apply State.block_wf
    | with_reducible apply State.freeze_wf
    | with_reducible apply State.trapHere_wf
    | (apply wf_tgtWait; (focus with_reducible assumption))
    | (apply wf_tgtTrap; (focus with_reducible assumption))
    | split

theorem State.split_wf {s : State} {a0 a1 a2 a3 a4 a5} (hs : Memory.wf s.mem = true) :
    Memory.wf (State.split s a0 a1 a2 a3 a4 a5).mem = true := by
  unfold State.split
  repeat' first
    | with_reducible assumption
    | with_reducible apply State.trapHere_wf
    | with_reducible apply State.checkJoin_wf
    | with_reducible apply State.setGrp_wf
    | split

theorem exmWrite_wf {s : State} {a0 a1} (hs : Memory.wf s.mem = true) :
    OutWf (exmWrite a0 s a1) := by
  unfold exmWrite
  repeat' first
    | with_reducible assumption
    | intro _
    | with_reducible apply uniform_wf
    | with_reducible apply State.retire_wf

theorem State.privTrap_wf {s : State} {a0 a1} (hs : Memory.wf s.mem = true) :
    Memory.wf (State.privTrap s a0 a1).mem = true := by
  unfold State.privTrap
  repeat' first
    | with_reducible assumption
    | with_reducible apply State.trapHere_wf
    | with_reducible apply State.tickFree_wf

theorem State.useUnit_wf {s : State} {a0 a1} (hs : Memory.wf s.mem = true) :
    Memory.wf (State.useUnit s a0 a1).mem = true := by
  unfold State.useUnit
  repeat' first
    | with_reducible assumption
    | with_reducible apply State.modCore_wf
    | split

theorem State.watchdog_wf {s : State} {a0} (hs : Memory.wf s.mem = true) :
    Memory.wf (State.watchdog s a0).mem = true := by
  unfold State.watchdog
  repeat' first
    | with_reducible assumption
    | with_reducible apply State.endCtx_wf
    | split

theorem State.countIssue_wf {s : State} {a0} (hs : Memory.wf s.mem = true) :
    Memory.wf (State.countIssue s a0).mem = true := by
  unfold State.countIssue
  repeat' first
    | with_reducible assumption
    | with_reducible apply State.countEvent_wf

theorem State.preIssue_wf {s : State} {a0 a1} (hs : Memory.wf s.mem = true) :
    Memory.wf (State.preIssue s a0 a1).1.mem = true := by
  unfold State.preIssue
  repeat' first
    | with_reducible assumption
    | (intro u; refine imp_elim (a := Memory.wf (State.mem u) = true) ?_ (fun hu => ?_); rotate_left; (try clear_value u); rotate_right)
    | (intro u; clear_value u)
    | with_reducible apply State.freeze_wf
    | with_reducible apply State.trapHere_wf
    | with_reducible apply State.fetchForget_wf
    | with_reducible apply State.illop_wf
    | with_reducible apply State.privTrap_wf
    | with_reducible apply State.watchdog_wf
    | with_reducible apply State.modGrp_wf
    | with_reducible apply State.checked_wf
    | with_reducible apply State.useUnit_wf
    | with_reducible apply State.countIssue_wf
    | (with_reducible apply wf_opt; (focus with_reducible assumption))
    | split
    | lift_lets

theorem State.fillOne_wf {s : State} {a0} (hs : Memory.wf s.mem = true) :
    Memory.wf (State.fillOne s a0).mem = true := by
  unfold State.fillOne
  repeat' first
    | with_reducible assumption
    | with_reducible apply State.modGrp_wf
    | split

theorem State.fillActive_wf {s : State} {a0} (hs : Memory.wf s.mem = true) :
    Memory.wf (State.fillActive s a0).mem = true := by
  unfold State.fillActive
  repeat' first
    | with_reducible assumption
    | with_reducible apply State.fillOne_wf
    | with_reducible refine wf_foldl ?_ (fun _ _ _ => ?_)

theorem State.swapSched_wf {s : State} {a0} (hs : Memory.wf s.mem = true) :
    Memory.wf (State.swapSched s a0).mem = true := by
  unfold State.swapSched
  repeat' first
    | with_reducible assumption
    | with_reducible apply State.modGrp_wf
    | with_reducible apply State.modCore_wf
    | split

theorem State.cntAdd_wf {s : State} {a0 a1 a2 a3} (hs : Memory.wf s.mem = true) :
    Memory.wf (State.cntAdd s a0 a1 a2 a3).mem = true := by
  unfold State.cntAdd
  repeat' first
    | with_reducible assumption
    | with_reducible apply State.modCore_wf

theorem State.countSched_wf {s : State} {a0} (hs : Memory.wf s.mem = true) :
    Memory.wf (State.countSched s a0).mem = true := by
  unfold State.countSched
  repeat' first
    | with_reducible assumption
    | (intro u; clear_value u)
    | with_reducible apply State.cntAdd_wf
    | split
    | lift_lets

theorem State.countAll_wf {s : State} (hs : Memory.wf s.mem = true) :
    Memory.wf (State.countAll s).mem = true := by
  unfold State.countAll
  repeat' first
    | with_reducible assumption
    | with_reducible apply State.countSched_wf
    | with_reducible refine wf_foldl ?_ (fun _ _ _ => ?_)

theorem State.markSince_wf {s : State} (hs : Memory.wf s.mem = true) :
    Memory.wf (State.markSince s).mem = true := by
  unfold State.markSince
  repeat' first
    | with_reducible assumption

theorem State.fetchAll_wf {s : State} (hs : Memory.wf s.mem = true) :
    Memory.wf (State.fetchAll s).mem = true := by
  unfold State.fetchAll
  repeat' first
    | with_reducible assumption
    | (intro t ht; have _ : Memory.wf (State.mem t) = true := ht)
    | (intro u; refine imp_elim (a := ∀ x : State, Memory.wf (State.mem x) = true → ∀ y, Memory.wf (State.mem (u x y)) = true) ?_ (fun hua => ?_); rotate_left; (try clear_value u); rotate_right)
    | intro _
    | with_reducible apply State.fetchAsk_wf
    | with_reducible apply hua
    | with_reducible refine wf_foldl ?_ (fun _ _ _ => ?_)
    | split
    | lift_lets
    | dsimp only [u]

theorem State.unfetched_wf {s : State} {a0} (hs : Memory.wf s.mem = true) :
    Memory.wf (State.unfetched s a0).mem = true := by
  unfold State.unfetched
  repeat' first
    | with_reducible assumption
    | with_reducible apply State.preIssue_wf
    | split

theorem State.openAclk_wf {s : State} (hs : Memory.wf s.mem = true) :
    Memory.wf (State.openAclk s).mem = true := by
  unfold State.openAclk
  repeat' first
    | with_reducible assumption
    | with_reducible apply State.settle_wf
    | with_reducible apply State.fetchAll_wf
    | with_reducible apply State.preemptWait_wf
    | with_reducible apply State.unfetched_wf
    | with_reducible refine wf_foldl ?_ (fun _ _ _ => ?_)

theorem State.survey_wf {s : State} (hs : Memory.wf s.mem = true) :
    Memory.wf (State.survey s).mem = true := by
  unfold State.survey
  repeat' first
    | with_reducible assumption
    | with_reducible apply State.markSince_wf
    | with_reducible apply State.countAll_wf
    | with_reducible apply State.swapSched_wf
    | with_reducible refine wf_foldl ?_ (fun _ _ _ => ?_)

theorem State.fillAll_wf {s : State} (hs : Memory.wf s.mem = true) :
    Memory.wf (State.fillAll s).mem = true := by
  unfold State.fillAll
  repeat' first
    | with_reducible assumption
    | with_reducible apply State.fillActive_wf
    | with_reducible refine wf_foldl ?_ (fun _ _ _ => ?_)

theorem plainVec_wf {s : State} {a0 a1 a2 a3} (hs : Memory.wf s.mem = true) :
    OutWf (plainVec a0 s a1 a2 a3) := by
  unfold plainVec
  repeat' first
    | with_reducible assumption
    | intro _
    | with_reducible apply withCur_wf
    | with_reducible apply State.result_wf

theorem unpackForm_wf {s : State} {a0 a1} (hs : Memory.wf s.mem = true) :
    OutWf (unpackForm a0 s a1) := by
  unfold unpackForm
  repeat' first
    | with_reducible assumption
    | with_reducible apply plainVec_wf

theorem State.mstatSet_wf {s : State} {a0 a1 a2} (hs : Memory.wf s.mem = true) :
    Memory.wf (State.mstatSet s a0 a1 a2).mem = true := by
  unfold State.mstatSet
  repeat' first
    | with_reducible assumption
    | (intro u; refine imp_elim (a := Memory.wf (State.mem u) = true) ?_ (fun hu => ?_); rotate_left; (try clear_value u); rotate_right)
    | (intro u; clear_value u)
    | with_reducible apply State.modGrp_wf
    | with_reducible apply State.pushFault_wf
    | split
    | lift_lets

theorem matForm_wf {s : State} {a0 f1} (hs : Memory.wf s.mem = true) (hf1 : ∀ y0, ∀ y1, Memory.wf (f1 y0 y1).mem = true) :
    OutWf (matForm a0 s f1) := by
  unfold matForm
  repeat' first
    | with_reducible assumption
    | with_reducible apply uniform_wf

theorem State.trapMatrix_wf {s : State} {a0} (hs : Memory.wf s.mem = true) :
    Memory.wf (State.trapMatrix s a0).mem = true := by
  unfold State.trapMatrix
  repeat' first
    | with_reducible assumption
    | with_reducible apply State.trapHere_wf

theorem State.issueMat_wf {s : State} {a0 a1 a2 a3 a4} (hs : Memory.wf s.mem = true) :
    Memory.wf (State.issueMat s a0 a1 a2 a3 a4).mem = true := by
  unfold State.issueMat
  repeat' first
    | with_reducible assumption
    | (intro u; refine imp_elim (a := Memory.wf (State.mem u) = true) ?_ (fun hu => ?_); rotate_left; (try clear_value u); rotate_right)
    | (intro u; clear_value u)
    | with_reducible apply State.issueOp_wf
    | with_reducible apply State.modCore_wf
    | split
    | lift_lets

theorem mamovForm_wf {s : State} {a0 a1} (hs : Memory.wf s.mem = true) :
    OutWf (mamovForm a0 s a1) := by
  unfold mamovForm
  repeat' first
    | with_reducible assumption
    | (intro u; clear_value u)
    | intro _
    | with_reducible apply matForm_wf
    | with_reducible apply State.issueMat_wf
    | with_reducible apply State.trapMatrix_wf
    | split
    | lift_lets

theorem imageForm_wf {s : State} {a0 a1 a2 f3} (hs : Memory.wf s.mem = true) (hf3 : ∀ y0, ∀ y1, ∀ y2, ∀ y3, Memory.wf (f3 y0 y1 y2 y3).mem = true) :
    OutWf (imageForm a0 s a1 a2 f3) := by
  unfold imageForm
  repeat' first
    | with_reducible assumption
    | (intro u; clear_value u)
    | intro _
    | with_reducible apply matForm_wf
    | with_reducible apply State.freeze_wf
    | with_reducible apply State.trapMatrix_wf
    | with_reducible apply State.trapHere_wf
    | with_reducible apply State.ifRanges_wf
    | with_reducible apply hf3
    | split
    | lift_lets

theorem State.freeArrays_wf {s : State} {a0} (hs : Memory.wf s.mem = true) :
    Memory.wf (State.freeArrays s a0).mem = true := by
  unfold State.freeArrays
  repeat' first
    | with_reducible assumption
    | with_reducible apply State.modArr_wf
    | with_reducible refine wf_foldl ?_ (fun _ _ _ => ?_)

theorem State.matGone_wf {s : State} {a0} (hs : Memory.wf s.mem = true) :
    Memory.wf (State.matGone s a0).mem = true := by
  unfold State.matGone
  repeat' first
    | with_reducible assumption
    | (intro u; refine imp_elim (a := Memory.wf (State.mem u) = true) ?_ (fun hu => ?_); rotate_left; (try clear_value u); rotate_right)
    | (intro u; clear_value u)
    | with_reducible apply State.modCore_wf
    | with_reducible apply State.freeArrays_wf
    | with_reducible apply State.opGone_wf
    | with_reducible apply State.wake_wf
    | split
    | lift_lets

theorem State.reportLoop_wf {s : State} {a0} (hs : Memory.wf s.mem = true) :
    Memory.wf (State.reportLoop s a0).mem = true := by
  unfold State.reportLoop
  repeat' first
    | with_reducible assumption
    | with_reducible apply State.raise_wf
    | with_reducible apply State.modOp_wf
    | split

theorem State.suspend_wf {s : State} {a0 a1 a2} (hs : Memory.wf s.mem = true) :
    Memory.wf (State.suspend s a0 a1 a2).mem = true := by
  unfold State.suspend
  repeat' first
    | with_reducible assumption
    | with_reducible apply State.matGone_wf
    | with_reducible apply State.modOp_wf
    | with_reducible apply State.freeArrays_wf
    | with_reducible apply State.modCore_wf
    | with_reducible apply State.modGrp_wf
    | with_reducible apply State.wake_wf
    | with_reducible apply State.reportLoop_wf
    | split

theorem State.resubmit_wf {s : State} {a0} (hs : Memory.wf s.mem = true) :
    Memory.wf (State.resubmit s a0).mem = true := by
  unfold State.resubmit
  repeat' first
    | with_reducible assumption
    | (intro t ht; have _ : Memory.wf (State.mem t) = true := ht)
    | (intro u; refine imp_elim (a := Memory.wf (State.mem u) = true) ?_ (fun hu => ?_); rotate_left; (try clear_value u); rotate_right)
    | (intro u; refine imp_elim (a := ∀ x : State, Memory.wf (State.mem x) = true → ∀ y, Memory.wf (State.mem (u x y)) = true) ?_ (fun hua => ?_); rotate_left; (try clear_value u); rotate_right)
    | (intro u; clear_value u)
    | intro _
    | with_reducible apply State.setGrp_wf
    | with_reducible apply State.modCore_wf
    | with_reducible apply State.modOp_wf
    | with_reducible apply State.modGrp_wf
    | with_reducible apply hua
    | split
    | lift_lets

theorem State.admitDone_wf {s : State} {a0} (hs : Memory.wf s.mem = true) :
    Memory.wf (State.admitDone s a0).mem = true := by
  unfold State.admitDone
  repeat' first
    | with_reducible assumption
    | with_reducible apply State.modArr_wf
    | with_reducible apply State.matGone_wf
    | with_reducible apply State.mstatSet_wf
    | split

theorem State.releaseDone_wf {s : State} {a0} (hs : Memory.wf s.mem = true) :
    Memory.wf (State.releaseDone s a0).mem = true := by
  unfold State.releaseDone
  repeat' first
    | with_reducible assumption
    | with_reducible apply State.matGone_wf
    | with_reducible apply State.modArr_wf
    | split

theorem State.fenceArr_wf {s : State} {a0} (hs : Memory.wf s.mem = true) :
    Memory.wf (State.fenceArr s a0).mem = true := by
  unfold State.fenceArr
  repeat' first
    | with_reducible assumption
    | with_reducible apply State.modArr_wf
    | with_reducible apply State.modCore_wf

theorem State.startTest_wf {s : State} {a0 a1} (hs : Memory.wf s.mem = true) :
    Memory.wf (State.startTest s a0 a1).mem = true := by
  unfold State.startTest
  repeat' first
    | with_reducible assumption
    | with_reducible apply State.modArr_wf

theorem State.accAdd_wf {s : State} {a0 a1 a2 a3 a4 a5} (hs : Memory.wf s.mem = true) :
    Memory.wf (State.accAdd s a0 a1 a2 a3 a4 a5).mem = true := by
  unfold State.accAdd
  repeat' first
    | with_reducible assumption
    | with_reducible apply State.setTile_wf

theorem State.endTest_wf {s : State} {a0} (hs : Memory.wf s.mem = true) :
    Memory.wf (State.endTest s a0).mem = true := by
  unfold State.endTest
  split
  · exact hs
  · have h : ∀ f, Memory.wf ((s.modArr a0 f).tickFree).mem = true := fun f => State.tickFree_wf (State.modArr_wf hs)
    dsimp only
    split
    · exact ite_wf (State.fenceArr_wf (h _)) (h _)
    · split
      · exact ite_wf (State.fenceArr_wf (h _)) (h _)
      · exact State.matGone_wf (ite_wf (State.mstatSet_wf (ite_wf (State.fenceArr_wf (h _)) (h _))) (ite_wf (State.fenceArr_wf (h _)) (h _)))

theorem State.analogSlice_wf {s : State} {a0 a1 a2 a3 a4 a5 a6 a7} (hs : Memory.wf s.mem = true) :
    Memory.wf (State.analogSlice s a0 a1 a2 a3 a4 a5 a6 a7).1.mem = true := by
  unfold State.analogSlice
  repeat' first
    | with_reducible assumption
    | (intro u; clear_value u)
    | with_reducible apply State.accAdd_wf
    | with_reducible refine wf_foldl ?_ (fun _ _ _ => ?_)
    | split
    | lift_lets

theorem State.verifyStep_wf {s : State} {a0 a1 a2 a3 a4 a5 a6} (hs : Memory.wf s.mem = true) :
    Memory.wf (State.verifyStep s a0 a1 a2 a3 a4 a5 a6).mem = true := by
  unfold State.verifyStep
  repeat' first
    | with_reducible assumption
    | (intro u; clear_value u)
    | with_reducible apply State.accAdd_wf
    | with_reducible refine wf_foldl ?_ (fun _ _ _ => ?_)
    | split
    | lift_lets

theorem State.analogStep_wf {s : State} {a0 a1 a2 a3 a4 a5 a6} (hs : Memory.wf s.mem = true) :
    Memory.wf (State.analogStep s a0 a1 a2 a3 a4 a5 a6).mem = true := by
  unfold State.analogStep
  repeat' first
    | with_reducible assumption
    | (intro t ht; have _ : Memory.wf (State.mem t) = true := ht)
    | (intro u; refine imp_elim (a := Memory.wf (State.mem u) = true) ?_ (fun hu => ?_); rotate_left; (try clear_value u); rotate_right)
    | (intro u; refine imp_elim (a := ∀ x : State, Memory.wf (State.mem x) = true → Memory.wf (State.mem (u x)) = true) ?_ (fun huc => ?_); rotate_left; (try clear_value u); rotate_right)
    | (intro u; clear_value u)
    | with_reducible apply State.countEvent_wf
    | with_reducible apply State.modArr_wf
    | with_reducible apply State.accAdd_wf
    | with_reducible apply State.mstatSet_wf
    | with_reducible apply State.verifyStep_wf
    | with_reducible apply State.analogSlice_wf
    | with_reducible apply huc
    | with_reducible refine wf_foldl ?_ (fun _ _ _ => ?_)
    | (with_reducible apply wf_fst; (focus with_reducible assumption))
    | split
    | lift_lets
    | dsimp only [u]
    | dsimp only

theorem State.exactStep_wf {s : State} {a0 a1 a2 a3 a4} (hs : Memory.wf s.mem = true) :
    Memory.wf (State.exactStep s a0 a1 a2 a3 a4).mem = true := by
  unfold State.exactStep
  repeat' first
    | with_reducible assumption
    | with_reducible apply State.accAdd_wf
    | with_reducible apply State.countEvent_wf
    | with_reducible refine wf_foldl ?_ (fun _ _ _ => ?_)

theorem State.modLoop_wf {s : State} {a0 a1} (hs : Memory.wf s.mem = true) :
    Memory.wf (State.modLoop s a0 a1).mem = true := by
  unfold State.modLoop
  repeat' first
    | with_reducible assumption
    | with_reducible apply State.modOp_wf

theorem State.loopGo_wf {s : State} {a0} (hs : Memory.wf s.mem = true) :
    Memory.wf (State.loopGo s a0).mem = true := by
  unfold State.loopGo
  repeat' first
    | with_reducible assumption
    | with_reducible apply State.suspend_wf
    | with_reducible apply State.modCore_wf
    | with_reducible apply State.post_wf
    | with_reducible apply State.modLoop_wf
    | split

theorem State.loopRow_wf {s : State} {a0} (hs : Memory.wf s.mem = true) :
    Memory.wf (State.loopRow s a0).mem = true := by
  unfold State.loopRow
  repeat' first
    | with_reducible assumption
    | (intro u; refine imp_elim (a := Memory.wf (State.mem u) = true) ?_ (fun hu => ?_); rotate_left; (try clear_value u); rotate_right)
    | (intro u; clear_value u)
    | with_reducible apply State.exactStep_wf
    | with_reducible apply State.analogStep_wf
    | with_reducible apply State.modOp_wf
    | with_reducible apply State.post_wf
    | with_reducible apply State.loopGo_wf
    | with_reducible refine wf_foldl ?_ (fun _ _ _ => ?_)
    | split
    | lift_lets

theorem State.acceptLoop_wf {s : State} {a0 a1} (hs : Memory.wf s.mem = true) :
    Memory.wf (State.acceptLoop s a0 a1).mem = true := by
  unfold State.acceptLoop
  repeat' first
    | with_reducible assumption
    | (intro u; refine imp_elim (a := Memory.wf (State.mem u) = true) ?_ (fun hu => ?_); rotate_left; (try clear_value u); rotate_right)
    | (intro u; refine imp_elim (a := ∀ x y, Memory.wf (State.mem (u x y)) = true) ?_ (fun huf => ?_); rotate_left; (try clear_value u); rotate_right)
    | (intro u; clear_value u)
    | intro _
    | with_reducible apply State.finish_wf
    | with_reducible apply State.mstatSet_wf
    | with_reducible apply State.modArr_wf
    | with_reducible apply State.loopGo_wf
    | with_reducible apply State.modOp_wf
    | with_reducible apply huf
    | with_reducible refine wf_foldl ?_ (fun _ _ _ => ?_)
    | split
    | lift_lets
    | dsimp only [u]

theorem State.accept_wf {s : State} {a0} (hs : Memory.wf s.mem = true) :
    Memory.wf (State.accept s a0).mem = true := by
  unfold State.accept
  repeat' first
    | with_reducible assumption
    | (intro t ht; have _ : Memory.wf (State.mem t) = true := ht)
    | (intro u; refine imp_elim (a := ∀ x : State, Memory.wf (State.mem x) = true → ∀ y z, Memory.wf (State.mem (u x y z)) = true) ?_ (fun hub => ?_); rotate_left; (try clear_value u); rotate_right)
    | (intro u; refine imp_elim (a := ∀ x : State, Memory.wf (State.mem x) = true → Memory.wf (State.mem (u x)) = true) ?_ (fun huc => ?_); rotate_left; (try clear_value u); rotate_right)
    | (intro u; clear_value u)
    | intro _
    | with_reducible apply State.modOp_wf
    | with_reducible apply State.modArr_wf
    | with_reducible apply State.modCore_wf
    | with_reducible apply State.finish_wf
    | with_reducible apply State.modBlk_wf
    | with_reducible apply State.mstatSet_wf
    | with_reducible apply State.post_wf
    | with_reducible apply State.startTest_wf
    | with_reducible apply State.acceptLoop_wf
    | with_reducible apply hub
    | with_reducible apply huc
    | split
    | lift_lets

theorem State.tryAccept_wf {s : State} {a0} (hs : Memory.wf s.mem = true) :
    Memory.wf (State.tryAccept s a0).1.mem = true := by
  unfold State.tryAccept
  repeat' first
    | with_reducible assumption
    | (intro u; clear_value u)
    | with_reducible apply State.modCore_wf
    | with_reducible apply State.accept_wf
    | with_reducible apply State.startTest_wf
    | with_reducible refine wf_foldl ?_ (fun _ _ _ => ?_)
    | split
    | lift_lets

theorem State.acceptAll_wf {s : State} {a0 a1} (hs : Memory.wf s.mem = true) :
    Memory.wf (State.acceptAll a0 s a1).mem = true := by
  induction a0 generalizing s with
  | zero => exact hs
  | succ n ih =>
    unfold State.acceptAll
    split
    · rename_i h; exact ih (wf_fst h (State.tryAccept_wf hs))
    · rename_i h; exact wf_fst h (State.tryAccept_wf hs)

theorem State.matStage_wf {s : State} {a0} (hs : Memory.wf s.mem = true) :
    Memory.wf (State.matStage s a0).mem = true := by
  unfold State.matStage
  repeat' first
    | with_reducible assumption
    | with_reducible apply State.finish_wf
    | with_reducible apply State.modArr_wf
    | with_reducible apply State.mstatSet_wf
    | with_reducible apply State.post_wf
    | with_reducible apply State.modOp_wf
    | with_reducible apply State.loopGo_wf
    | split

theorem State.matEffect_wf {s : State} {a0} (hs : Memory.wf s.mem = true) :
    Memory.wf (State.matEffect s a0).mem = true := by
  unfold State.matEffect
  repeat' first
    | with_reducible assumption
    | with_reducible apply State.modCtx_wf
    | with_reducible apply State.setTile_wf
    | with_reducible refine wf_foldl ?_ (fun _ _ _ => ?_)
    | split

theorem State.startOp_wf {s : State} {a0} (hs : Memory.wf s.mem = true) :
    Memory.wf (State.startOp s a0).mem = true := by
  unfold State.startOp
  repeat' first
    | with_reducible assumption
    | with_reducible apply State.finish_wf
    | with_reducible apply State.modOp_wf
    | with_reducible apply State.agSend_wf
    | split

theorem State.eachOp_wf {s : State} {f0} (hs : Memory.wf s.mem = true) (hf0 : ∀ y0 : State, Memory.wf (State.mem y0) = true → ∀ y1, Memory.wf (f0 y0 y1).mem = true) :
    Memory.wf (State.eachOp s f0).mem = true := by
  unfold State.eachOp
  repeat' first
    | with_reducible assumption
    | with_reducible apply hf0
    | with_reducible refine wf_foldl ?_ (fun _ _ _ => ?_)
    | split

theorem State.endTests_wf {s : State} (hs : Memory.wf s.mem = true) :
    Memory.wf (State.endTests s).mem = true := by
  unfold State.endTests
  repeat' first
    | with_reducible assumption
    | with_reducible apply State.endTest_wf
    | with_reducible refine wf_foldl ?_ (fun _ _ _ => ?_)
    | split

theorem State.pump_wf {s : State} (hs : Memory.wf s.mem = true) :
    Memory.wf (State.pump s).mem = true := by
  unfold State.pump
  repeat' first
    | with_reducible assumption
    | (intro t ht; have _ : Memory.wf (State.mem t) = true := ht)
    | intro _
    | with_reducible apply State.eachOp_wf
    | with_reducible apply State.departAll_wf
    | with_reducible apply State.startOp_wf
    | with_reducible apply State.acceptAll_wf
    | with_reducible apply State.endTests_wf
    | with_reducible apply State.readNext_wf
    | with_reducible apply State.writeNext_wf
    | with_reducible apply State.checkMoved_wf
    | with_reducible apply State.reportLoop_wf
    | with_reducible apply State.agStage_wf
    | with_reducible apply State.matStage_wf
    | with_reducible apply State.bankTick_wf
    | with_reducible refine wf_foldl ?_ (fun _ _ _ => ?_)
    | split

theorem State.opDone_wf {s : State} {a0} (hs : Memory.wf s.mem = true) :
    Memory.wf (State.opDone s a0).mem = true := by
  unfold State.opDone
  repeat' first
    | with_reducible assumption
    | with_reducible apply State.agMoved_wf
    | with_reducible apply State.agSummed_wf
    | with_reducible apply State.matGone_wf
    | with_reducible apply State.matEffect_wf
    | with_reducible apply State.opGone_wf
    | split

theorem State.reqArrives_wf {s : State} {a0} (hs : Memory.wf s.mem = true) :
    Memory.wf (State.reqArrives s a0).mem = true := by
  unfold State.reqArrives
  repeat' first
    | with_reducible assumption
    | with_reducible apply State.discard_wf
    | with_reducible apply State.translate_wf
    | with_reducible apply State.tagDone_wf
    | with_reducible apply State.sigAt_wf
    | with_reducible apply State.arriveHome_wf
    | split

theorem State.scArrives_wf {s : State} {a0 f1} (hs : Memory.wf s.mem = true) (hf1 : ∀ y0 : State, Memory.wf (State.mem y0) = true → Memory.wf (f1 y0).mem = true) :
    Memory.wf (State.scArrives s a0 f1).mem = true := by
  unfold State.scArrives
  repeat' first
    | with_reducible assumption
    | with_reducible apply State.discard_wf
    | with_reducible apply hf1
    | split

theorem State.rdcFill_wf {s : State} {a0} (hs : Memory.wf s.mem = true) :
    Memory.wf (State.rdcFill s a0).mem = true := by
  unfold State.rdcFill
  repeat' first
    | with_reducible assumption
    | with_reducible apply State.modDie_wf
    | split

theorem State.peerAnswered_wf {s : State} {a0 a1} (hs : Memory.wf s.mem = true) :
    Memory.wf (State.peerAnswered s a0 a1).mem = true := by
  unfold State.peerAnswered
  repeat' first
    | with_reducible assumption

theorem State.engData_wf {s : State} {a0 a1 a2} (hs : Memory.wf s.mem = true) :
    Memory.wf (State.engData s a0 a1 a2).mem = true := by
  unfold State.engData
  repeat' first
    | with_reducible assumption
    | with_reducible apply State.modOp_wf
    | with_reducible apply State.peerAnswered_wf
    | split

theorem State.grpAnswer_wf {s : State} {a0 a1 a2 a3} (hs : Memory.wf s.mem = true) :
    Memory.wf (State.grpAnswer s a0 a1 a2 a3).mem = true := by
  unfold State.grpAnswer
  repeat' first
    | with_reducible assumption
    | with_reducible apply State.sigData_wf
    | with_reducible apply State.grpData_wf
    | split

theorem State.acceptNow_wf {s : State} {a0} (hs : Memory.wf s.mem = true) :
    Memory.wf (State.acceptNow s a0).mem = true := by
  unfold State.acceptNow
  repeat' first
    | with_reducible assumption
    | with_reducible apply State.tryAccept_wf
    | split

theorem State.agNow_wf {s : State} {a0 a1} (hs : Memory.wf s.mem = true) :
    Memory.wf (State.agNow s a0 a1).mem = true := by
  unfold State.agNow
  repeat' first
    | with_reducible assumption
    | with_reducible apply State.agArrive_wf
    | with_reducible apply State.modBank_wf
    | split

theorem State.chanReset_wf {s : State} {a0} (hs : Memory.wf s.mem = true) :
    Memory.wf (State.chanReset s a0).mem = true := by
  unfold State.chanReset
  repeat' first
    | with_reducible assumption

theorem State.chanLost_wf {s : State} {a0 a1} (hs : Memory.wf s.mem = true) :
    Memory.wf (State.chanLost s a0 a1).mem = true := by
  unfold State.chanLost
  repeat' first
    | with_reducible assumption

theorem State.cfgChan_wf {s : State} {a0 a1} (hs : Memory.wf s.mem = true) :
    Memory.wf (State.cfgChan s a0 a1).mem = true := by
  unfold State.cfgChan
  repeat' first
    | with_reducible assumption
    | with_reducible apply State.modChan_wf

theorem State.watchChan_wf {s : State} {a0 a1 a2} (hs : Memory.wf s.mem = true) :
    Memory.wf (State.watchChan s a0 a1 a2).mem = true := by
  unfold State.watchChan
  repeat' first
    | with_reducible assumption
    | with_reducible apply State.watch_wf
    | with_reducible refine wf_foldl ?_ (fun _ _ _ => ?_)
    | split

theorem State.weltError_wf {s : State} {a0} (hs : Memory.wf s.mem = true) :
    Memory.wf (State.weltError s a0).mem = true := by
  unfold State.weltError
  repeat' first
    | with_reducible assumption
    | (intro u; clear_value u)
    | with_reducible apply State.raisePi_wf
    | with_reducible apply State.endCtx_wf
    | with_reducible refine wf_foldl ?_ (fun _ _ _ => ?_)
    | split
    | lift_lets

theorem State.weltArrive_wf {s : State} {a0} (hs : Memory.wf s.mem = true) :
    Memory.wf (State.weltArrive s a0).mem = true := by
  unfold State.weltArrive
  repeat' first
    | with_reducible assumption
    | (intro u; refine imp_elim (a := Memory.wf (State.mem u) = true) ?_ (fun hu => ?_); rotate_left; (try clear_value u); rotate_right)
    | (intro u; clear_value u)
    | with_reducible apply State.weltError_wf
    | with_reducible apply State.watchChan_wf
    | with_reducible apply State.modChan_wf
    | with_reducible apply State.post_wf
    | split
    | lift_lets

theorem State.weltFree_wf {s : State} {a0 a1 a2} (hs : Memory.wf s.mem = true) :
    Memory.wf (State.weltFree s a0 a1 a2).mem = true := by
  unfold State.weltFree
  repeat' first
    | with_reducible assumption
    | with_reducible apply State.release_wf
    | with_reducible apply State.releaseFence_wf
    | with_reducible apply State.setGrp_wf
    | with_reducible apply State.modGrp_wf
    | split

theorem State.weltReleased_wf {s : State} {a0} (hs : Memory.wf s.mem = true) :
    Memory.wf (State.weltReleased s a0).mem = true := by
  unfold State.weltReleased
  repeat' first
    | with_reducible assumption
    | with_reducible apply State.weltError_wf
    | with_reducible apply State.modChan_wf
    | with_reducible apply State.watchChan_wf
    | with_reducible apply State.weltFree_wf
    | with_reducible refine wf_foldl ?_ (fun _ _ _ => ?_)
    | split

theorem weltForm_wf {s : State} {a0 a1 a2 f3} (hs : Memory.wf s.mem = true) (hf3 : ∀ y0, ∀ y1, ∀ y2, Memory.wf (f3 y0 y1 y2).mem = true) :
    OutWf (weltForm a0 a1 s a2 f3) := by
  unfold weltForm
  repeat' first
    | with_reducible assumption
    | (intro u; clear_value u)
    | intro _
    | with_reducible apply uniform_wf
    | with_reducible apply State.illop_wf
    | with_reducible apply State.block_wf
    | with_reducible apply State.freeze_wf
    | with_reducible apply hf3
    | split
    | lift_lets

theorem State.weltLeaves_wf {s : State} {a0 a1 a2 a3} (hs : Memory.wf s.mem = true) :
    Memory.wf (State.weltLeaves s a0 a1 a2 a3).mem = true := by
  unfold State.weltLeaves
  repeat' first
    | with_reducible assumption
    | with_reducible apply State.post_wf
    | with_reducible apply State.modGrp_wf

theorem State.weltSend_wf {s : State} {a0 a1 a2 a3 a4} (hs : Memory.wf s.mem = true) :
    Memory.wf (State.weltSend s a0 a1 a2 a3 a4).mem = true := by
  unfold State.weltSend
  repeat' first
    | with_reducible assumption
    | with_reducible apply State.post_wf
    | with_reducible apply State.countEvent_wf
    | with_reducible apply State.retire_wf

theorem State.warrGhosts_wf {s : State} (hs : Memory.wf s.mem = true) :
    Memory.wf (State.warrGhosts s).mem = true := by
  unfold State.warrGhosts
  repeat' first
    | with_reducible assumption
    | with_reducible apply State.post_wf
    | with_reducible apply State.invNormal_wf
    | with_reducible refine wf_foldl ?_ (fun _ _ _ => ?_)

theorem State.warrGo_wf {s : State} {a0} (hs : Memory.wf s.mem = true) :
    Memory.wf (State.warrGo s a0).mem = true := by
  unfold State.warrGo
  repeat' first
    | with_reducible assumption
    | with_reducible apply State.post_wf
    | with_reducible apply State.modGrp_wf
    | with_reducible apply State.invNormal_wf
    | with_reducible refine wf_foldl ?_ (fun _ _ _ => ?_)
    | split

theorem wrecvForm_wf {s : State} {a0 a1 a2} (hs : Memory.wf s.mem = true) :
    OutWf (wrecvForm a0 a1 s a2) := by
  unfold wrecvForm
  repeat' first
    | with_reducible assumption
    | (intro u; clear_value u)
    | intro _
    | with_reducible apply weltForm_wf
    | with_reducible apply State.block_wf
    | with_reducible apply State.retire_wf
    | split
    | lift_lets

theorem State.dropChans_wf {s : State} {a0 a1} (hs : Memory.wf s.mem = true) :
    Memory.wf (State.dropChans s a0 a1).mem = true := by
  unfold State.dropChans
  repeat' first
    | with_reducible assumption
    | with_reducible apply State.chanReset_wf
    | with_reducible apply State.chanLost_wf
    | with_reducible refine wf_foldl ?_ (fun _ _ _ => ?_)

theorem State.setGrant_wf {s : State} {a0 a1} (hs : Memory.wf s.mem = true) :
    Memory.wf (State.setGrant s a0 a1).mem = true := by
  unfold State.setGrant
  repeat' first
    | with_reducible assumption
    | with_reducible apply State.modCtx_wf
    | with_reducible apply State.dropChans_wf

theorem State.partGrant_wf {s : State} {a0 a1 a2} (hs : Memory.wf s.mem = true) :
    Memory.wf (State.partGrant s a0 a1 a2).mem = true := by
  unfold State.partGrant
  repeat' first
    | with_reducible assumption
    | with_reducible apply State.dropChans_wf
    | with_reducible apply State.modPart_wf
    | split

theorem State.flagGroups_wf {s : State} {a0 a1} (hs : Memory.wf s.mem = true) :
    Memory.wf (State.flagGroups s a0 a1).mem = true := by
  unfold State.flagGroups
  repeat' first
    | with_reducible assumption

theorem State.preqArrives_wf {s : State} {a0 a1 a2} (hs : Memory.wf s.mem = true) :
    Memory.wf (State.preqArrives s a0 a1 a2).mem = true := by
  unfold State.preqArrives
  repeat' first
    | with_reducible assumption
    | with_reducible apply State.weltError_wf
    | with_reducible apply State.flagGroups_wf
    | split

theorem State.preq_wf {s : State} {a0 a1} (hs : Memory.wf s.mem = true) :
    Memory.wf (State.preq s a0 a1).mem = true := by
  unfold State.preq
  repeat' first
    | with_reducible assumption
    | with_reducible apply State.post_wf
    | with_reducible refine wf_foldl ?_ (fun _ _ _ => ?_)

theorem State.ghostLeaves_wf {s : State} {a0 a1} (hs : Memory.wf s.mem = true) :
    Memory.wf (State.ghostLeaves s a0 a1).mem = true := by
  unfold State.ghostLeaves
  repeat' first
    | with_reducible assumption
    | with_reducible apply State.weltLeaves_wf
    | with_reducible apply State.ghostCut_wf
    | split

theorem State.writeback_wf {s : State} {a0 a1} (hs : Memory.wf s.mem = true) :
    Memory.wf (State.writeback s a0 a1).mem = true := by
  unfold State.writeback
  repeat' first
    | with_reducible assumption
    | with_reducible apply State.ghostLeaves_wf
    | with_reducible apply State.setGrp_wf
    | with_reducible apply State.wake_wf
    | with_reducible apply State.weltLeaves_wf
    | with_reducible apply State.afterResult_wf
    | split

theorem State.modQueue_wf {s : State} {a0 a1 a2} (hs : Memory.wf s.mem = true) :
    Memory.wf (State.modQueue s a0 a1 a2).mem = true := by
  unfold State.modQueue
  repeat' first
    | with_reducible assumption

theorem State.stopQueue_wf {s : State} {a0 a1 a2} (hs : Memory.wf s.mem = true) :
    Memory.wf (State.stopQueue s a0 a1 a2).mem = true := by
  unfold State.stopQueue
  repeat' first
    | with_reducible assumption
    | with_reducible apply State.modQueue_wf

theorem State.tailServe_wf {s : State} {a0 a1} (hs : Memory.wf s.mem = true) :
    Memory.wf (State.tailServe s a0 a1).mem = true := by
  unfold State.tailServe
  dsimp only
  split
  · exact State.stopQueue_wf hs
  · refine ite_wf (State.stopQueue_wf hs) ?_
    split
    · rename_i h; exact State.stopQueue_wf (wf_fst h (State.vread_wf hs))
    · rename_i h
      have h := wf_fst h (State.vread_wf hs)
      exact ite_wf (State.stopQueue_wf h) (State.postOnce_wf (State.modQueue_wf h))

theorem State.tailWrite_wf {s : State} {a0 a1 a2} (hs : Memory.wf s.mem = true) :
    Memory.wf (State.tailWrite s a0 a1 a2).mem = true := by
  unfold State.tailWrite
  repeat' first
    | with_reducible assumption
    | (intro u; refine imp_elim (a := Memory.wf (State.mem u) = true) ?_ (fun hu => ?_); rotate_left; (try clear_value u); rotate_right)
    | with_reducible apply State.modQueue_wf
    | with_reducible apply State.tailServe_wf
    | split
    | lift_lets

theorem State.enableQueue_wf {s : State} {a0 a1} (hs : Memory.wf s.mem = true) :
    Memory.wf (State.enableQueue s a0 a1).mem = true := by
  unfold State.enableQueue
  repeat' first
    | with_reducible assumption
    | (intro u; refine imp_elim (a := Memory.wf (State.mem u) = true) ?_ (fun hu => ?_); rotate_left; (try clear_value u); rotate_right)
    | (intro u; clear_value u)
    | with_reducible apply State.stopQueue_wf
    | with_reducible apply State.modQueue_wf
    | with_reducible apply State.postOnce_wf
    | with_reducible apply State.tailServe_wf
    | split
    | lift_lets

theorem State.headWrite_wf {s : State} {a0 a1 a2} (hs : Memory.wf s.mem = true) :
    Memory.wf (State.headWrite s a0 a1 a2).mem = true := by
  unfold State.headWrite
  repeat' first
    | with_reducible assumption
    | with_reducible apply State.modQueue_wf

theorem State.modLaunch_wf {s : State} {a0 a1} (hs : Memory.wf s.mem = true) :
    Memory.wf (State.modLaunch s a0 a1).mem = true := by
  unfold State.modLaunch
  repeat' first
    | with_reducible assumption

theorem State.headOn_wf {s : State} {a0} (hs : Memory.wf s.mem = true) :
    Memory.wf (State.headOn s a0).mem = true := by
  unfold State.headOn
  repeat' first
    | with_reducible assumption
    | with_reducible apply State.postOnce_wf
    | with_reducible apply State.modQueue_wf

theorem State.failRecord_wf {s : State} {a0 a1} (hs : Memory.wf s.mem = true) :
    Memory.wf (State.failRecord s a0 a1).mem = true := by
  unfold State.failRecord
  repeat' first
    | with_reducible assumption
    | with_reducible apply State.completeRecord_wf
    | with_reducible apply State.headOn_wf

theorem State.recordGo_wf {s : State} {a0} (hs : Memory.wf s.mem = true) :
    Memory.wf (State.recordGo s a0).mem = true := by
  unfold State.recordGo
  repeat' first
    | with_reducible assumption
    | (intro u; clear_value u)
    | with_reducible apply State.failRecord_wf
    | with_reducible apply State.modLaunch_wf
    | with_reducible apply State.postOnce_wf
    | split
    | lift_lets

theorem State.takeNext_wf {s : State} {a0 a1 a2} (hs : Memory.wf s.mem = true) :
    Memory.wf (State.takeNext s a0 a1 a2).mem = true := by
  unfold State.takeNext
  repeat' first
    | with_reducible assumption
    | (intro u; clear_value u)
    | with_reducible apply State.vread_wf
    | with_reducible apply State.stopQueue_wf
    | with_reducible apply State.post_wf
    | with_reducible apply State.modQueue_wf
    | (with_reducible apply wf_fst; (focus with_reducible assumption))
    | split
    | lift_lets
    | dsimp only

theorem State.postPlace_wf {s : State} {a0 a1} (hs : Memory.wf s.mem = true) :
    Memory.wf (State.postPlace s a0 a1).mem = true := by
  unfold State.postPlace
  repeat' first
    | with_reducible assumption
    | with_reducible apply State.post_wf
    | split

theorem State.takeRecord_wf {s : State} {a0 a1} (hs : Memory.wf s.mem = true) :
    Memory.wf (State.takeRecord s a0 a1).mem = true := by
  unfold State.takeRecord
  repeat' first
    | with_reducible assumption
    | (intro u; clear_value u)
    | with_reducible apply State.recordGo_wf
    | with_reducible apply State.postOnce_wf
    | with_reducible apply State.postPlace_wf
    | with_reducible apply State.stopQueue_wf
    | with_reducible apply State.takeNext_wf
    | split
    | lift_lets

theorem State.readDeps_wf {s : State} {a0} (hs : Memory.wf s.mem = true) :
    Memory.wf (State.readDeps s a0).1.mem = true := by
  unfold State.readDeps
  repeat' first
    | with_reducible assumption
    | with_reducible apply State.vread_wf
    | with_reducible refine wf_foldl1 ?_ (fun _ _ _ => ?_)
    | (with_reducible apply wf_fst; (focus with_reducible assumption))
    | split

theorem State.rereadDeps_wf {s : State} {a0 a1} (hs : Memory.wf s.mem = true) :
    Memory.wf (State.rereadDeps s a0 a1).mem = true := by
  unfold State.rereadDeps
  repeat' first
    | with_reducible assumption
    | (intro u; clear_value u)
    | with_reducible apply State.readDeps_wf
    | with_reducible apply State.failRecord_wf
    | with_reducible apply State.postOnce_wf
    | with_reducible apply State.modLaunch_wf
    | (with_reducible apply wf_fst; (focus with_reducible assumption))
    | split
    | lift_lets

theorem State.walkPages_wf {s : State} {a0 a1 a2 a3 a4 a5} (hs : Memory.wf s.mem = true) :
    Memory.wf (State.walkPages s a0 a1 a2 a3 a4 a5).1.mem = true := by
  induction a3 generalizing s a4 a5 with
  | zero => exact hs
  | succ n ih =>
    unfold State.walkPages
    split
    · split
      · split
        rename_i h
        exact ih (State.walkXlate_wf (wf_fst h (State.walkFor_wf hs)))
      · exact hs
    · exact hs

theorem State.walkEntry_wf {s : State} {a0 a1 a2} (hs : Memory.wf s.mem = true) :
    Memory.wf (State.walkEntry s a0 a1 a2).1.mem = true := by
  unfold State.walkEntry
  repeat' first
    | with_reducible assumption
    | (intro u; clear_value u)
    | with_reducible apply State.walkPages_wf
    | split
    | lift_lets

theorem State.walkSet_wf {s : State} {a0} (hs : Memory.wf s.mem = true) :
    Memory.wf (State.walkSet s a0).1.mem = true := by
  unfold State.walkSet
  repeat' first
    | with_reducible assumption
    | (intro u; clear_value u)
    | with_reducible apply State.vread_wf
    | with_reducible apply State.walkEntry_wf
    | with_reducible refine wf_foldl1 ?_ (fun _ _ _ => ?_)
    | (with_reducible apply wf_fst; (focus with_reducible assumption))
    | split
    | lift_lets

theorem State.prewalk_wf {s : State} {a0 a1} (hs : Memory.wf s.mem = true) :
    Memory.wf (State.prewalk s a0 a1).mem = true := by
  unfold State.prewalk
  repeat' first
    | with_reducible assumption
    | with_reducible apply State.walkSet_wf
    | with_reducible apply State.failRecord_wf
    | with_reducible apply State.postPlace_wf
    | with_reducible apply State.modLaunch_wf
    | (with_reducible apply wf_fst; (focus with_reducible assumption))
    | split

theorem State.grantArrs_wf {s : State} {a0 a1 a2} (hs : Memory.wf s.mem = true) :
    Memory.wf (State.grantArrs s a0 a1 a2).1.mem = true := by
  unfold State.grantArrs
  repeat' first
    | with_reducible assumption
    | with_reducible apply State.modArr_wf
    | with_reducible apply State.tickFree_wf
    | with_reducible refine wf_foldl ?_ (fun _ _ _ => ?_)

theorem State.grantTiles_wf {s : State} {a0 a1 a2} (hs : Memory.wf s.mem = true) :
    Memory.wf (State.grantTiles s a0 a1 a2).1.mem = true := by
  unfold State.grantTiles
  repeat' first
    | with_reducible assumption
    | with_reducible apply State.tickFree_wf

theorem State.grantCore_wf {s : State} {a0 a1} (hs : Memory.wf s.mem = true) :
    Memory.wf (State.grantCore s a0 a1).1.mem = true := by
  unfold State.grantCore
  repeat' first
    | with_reducible assumption
    | with_reducible apply State.grantArrs_wf
    | with_reducible apply State.grantTiles_wf

theorem State.pmBind_wf {s : State} {a0 a1} (hs : Memory.wf s.mem = true) :
    Memory.wf (State.pmBind s a0 a1).mem = true := by
  unfold State.pmBind
  repeat' first
    | with_reducible assumption
    | (intro u; clear_value u)
    | with_reducible apply State.vread_wf
    | with_reducible apply State.modCtx_wf
    | (with_reducible apply wf_fst; (focus with_reducible assumption))
    | split
    | lift_lets
    | dsimp only

theorem State.addGroup_wf {s : State} {a0 a1} (hs : Memory.wf s.mem = true) :
    Memory.wf (State.addGroup s a0 a1).mem = true := by
  unfold State.addGroup
  repeat' first
    | with_reducible assumption
    | with_reducible apply State.pmBind_wf
    | with_reducible apply State.setGrp_wf

theorem State.addGroups_wf {s : State} {a0 a1 a2} (hs : Memory.wf s.mem = true) :
    Memory.wf (State.addGroups s a0 a1 a2).1.mem = true := by
  unfold State.addGroups
  repeat' first
    | with_reducible assumption
    | (intro u; clear_value u)
    | with_reducible apply State.addGroup_wf
    | with_reducible apply State.tickFree_wf
    | with_reducible refine wf_foldl1 ?_ (fun _ _ _ => ?_)
    | split
    | lift_lets

theorem State.startOn_wf {s : State} {a0 a1 a2} (hs : Memory.wf s.mem = true) :
    Memory.wf (State.startOn s a0 a1 a2).mem = true := by
  unfold State.startOn
  repeat' first
    | with_reducible assumption
    | with_reducible apply State.modLaunch_wf
    | with_reducible apply State.modCore_wf
    | with_reducible apply State.invNormal_wf
    | split

theorem State.placeAt_wf {s : State} {a0 a1 a2 a3} (hs : Memory.wf s.mem = true) :
    Memory.wf (State.placeAt s a0 a1 a2 a3).mem = true := by
  unfold State.placeAt
  repeat' first
    | with_reducible assumption
    | with_reducible apply State.startOn_wf
    | with_reducible apply State.grantCore_wf
    | with_reducible apply State.addGroups_wf
    | split

theorem State.placeOn_wf {s : State} {a0 a1 a2 a3} (hs : Memory.wf s.mem = true) :
    OptWf (State.placeOn s a0 a1 a2 a3) := by
  unfold State.placeOn
  repeat' first
    | with_reducible assumption
    | with_reducible apply State.placeAt_wf
    | with_reducible apply State.tickFree_wf
    | split
    | with_reducible apply OptWf.some
    | with_reducible exact OptWf.none

theorem State.placeGang_wf {s : State} {a0 a1 a2 a3} (hs : Memory.wf s.mem = true) :
    OptWf (State.placeGang s a0 a1 a2 a3) := by
  unfold State.placeGang
  dsimp only
  refine optwf_foldl (.some hs) (fun r k hr => ?_)
  cases hr with
  | none => exact .none
  | some h => exact optwf_map (State.placeOn_wf h) (fun _ h => h)

theorem State.placeNext_wf {s : State} {a0} (hs : Memory.wf s.mem = true) :
    OptWf (State.placeNext s a0) := by
  unfold State.placeNext
  repeat' first
    | with_reducible assumption
    | (intro u; refine imp_elim (a := Memory.wf (State.mem u) = true) ?_ (fun hu => ?_); rotate_left; (try clear_value u); rotate_right)
    | (intro u; clear_value u)
    | with_reducible apply State.placeGang_wf
    | with_reducible apply State.trace_wf
    | with_reducible apply State.modLaunch_wf
    | with_reducible apply State.headOn_wf
    | (with_reducible apply wf_opt; (focus with_reducible assumption))
    | with_reducible refine optwf_findSome (fun _ => ?_)
    | split
    | lift_lets
    | with_reducible apply OptWf.some
    | with_reducible exact OptWf.none

theorem State.restoreFence_wf {s : State} {a0} (hs : Memory.wf s.mem = true) :
    Memory.wf (State.restoreFence s a0).mem = true := by
  unfold State.restoreFence
  repeat' first
    | with_reducible assumption
    | with_reducible apply State.invNormal_wf
    | split

theorem State.restoreOn_wf {s : State} {a0 a1} (hs : Memory.wf s.mem = true) :
    OptWf (State.restoreOn s a0 a1) := by
  unfold State.restoreOn
  repeat' first
    | with_reducible assumption
    | (intro u; clear_value u)
    | with_reducible apply State.vread_wf
    | with_reducible apply State.restoreFence_wf
    | with_reducible apply State.placeOn_wf
    | (with_reducible apply wf_fst; (focus with_reducible assumption))
    | with_reducible refine optwf_map ?_ (fun _ _ => ?_)
    | split
    | lift_lets
    | dsimp only
    | with_reducible exact OptWf.none

theorem State.restoreGang_wf {s : State} {a0 a1} (hs : Memory.wf s.mem = true) :
    OptWf (State.restoreGang s a0 a1) := by
  unfold State.restoreGang
  dsimp only
  split
  · exact .none
  · rename_i t h
    have : OptWf (some t) := by
      rw [← h]
      refine optwf_findSome (fun k => optwf_map (optwf_foldl (.some hs) (fun r e hr => ?_)) (fun _ h => h))
      cases hr with
      | none => exact .none
      | some h => exact State.restoreOn_wf h
    cases this with
    | some h => exact .some (State.wakePark_wf (State.modPart_wf h))

theorem State.birth_wf {s : State} {a0} (hs : Memory.wf s.mem = true) :
    Memory.wf (State.birth s a0).mem = true := by
  unfold State.birth
  repeat' first
    | with_reducible assumption
    | with_reducible apply State.modBlk_wf
    | with_reducible apply State.vread_wf
    | with_reducible apply State.setGrp_wf
    | with_reducible apply State.wakeAll_wf
    | with_reducible apply State.restoreFence_wf
    | with_reducible refine wf_foldl ?_ (fun _ _ _ => ?_)
    | (with_reducible apply wf_fst; (focus with_reducible assumption))
    | split

theorem State.without_wf {s : State} {a0} (hs : Memory.wf s.mem = true) :
    Memory.wf (State.without s a0).mem = true := by
  unfold State.without
  repeat' first
    | with_reducible assumption
    | with_reducible apply State.freeBlock_wf

theorem State.flagBlocks_wf {s : State} {a0} (hs : Memory.wf s.mem = true) :
    Memory.wf (State.flagBlocks s a0).mem = true := by
  unfold State.flagBlocks
  repeat' first
    | with_reducible assumption
    | with_reducible apply State.flagGroups_wf

theorem State.askLaunch_wf {s : State} {a0} (hs : Memory.wf s.mem = true) :
    Memory.wf (State.askLaunch s a0).mem = true := by
  unfold State.askLaunch
  repeat' first
    | with_reducible assumption
    | with_reducible apply State.tickFree_wf
    | with_reducible apply State.flagBlocks_wf
    | with_reducible apply State.modLaunch_wf
    | split

theorem State.askSaved_wf {s : State} {a0 a1} (hs : Memory.wf s.mem = true) :
    Memory.wf (State.askSaved s a0 a1).mem = true := by
  unfold State.askSaved
  repeat' first
    | with_reducible assumption
    | with_reducible apply State.tickFree_wf
    | with_reducible apply State.flagBlocks_wf
    | with_reducible apply State.modBlk_wf
    | with_reducible refine wf_foldl ?_ (fun _ _ _ => ?_)
    | split

theorem State.placeClass_wf {s : State} {a0 a1} (hs : Memory.wf s.mem = true) :
    OptWf (State.placeClass s a0 a1) := by
  unfold State.placeClass
  repeat' first
    | with_reducible assumption
    | with_reducible apply State.restoreGang_wf
    | with_reducible apply State.modPart_wf
    | with_reducible apply State.placeNext_wf
    | (with_reducible apply wf_opt; (focus with_reducible assumption))
    | with_reducible refine optwf_findSome (fun _ => ?_)
    | with_reducible refine optwf_map ?_ (fun _ _ => ?_)
    | split
    | with_reducible apply OptWf.some

theorem State.askClass0_wf {s : State} {a0} (hs : Memory.wf s.mem = true) :
    Memory.wf (State.askClass0 s a0).mem = true := by
  unfold State.askClass0
  repeat' first
    | with_reducible assumption
    | with_reducible apply State.askSaved_wf
    | with_reducible apply State.askLaunch_wf
    | with_reducible refine wf_foldl ?_ (fun _ _ _ => ?_)

theorem State.place_wf {s : State} {a0} (hs : Memory.wf s.mem = true) :
    Memory.wf (State.place s a0).mem = true := by
  unfold State.place
  repeat' first
    | with_reducible assumption
    | (intro u; refine imp_elim (a := Memory.wf (State.mem u) = true) ?_ (fun hu => ?_); rotate_left; (try clear_value u); rotate_right)
    | with_reducible apply State.placeClass_wf
    | with_reducible apply State.askClass0_wf
    | with_reducible apply State.postPlace_wf
    | (with_reducible apply wf_opt; (focus with_reducible assumption))
    | with_reducible refine optwf_findSome (fun _ => ?_)
    | with_reducible apply wf_getD
    | split
    | lift_lets
    | dsimp only [u]

theorem State.bankEnd_wf {s : State} {a0 a1} (hs : Memory.wf s.mem = true) :
    Memory.wf (State.bankEnd s a0 a1).mem = true := by
  unfold State.bankEnd
  repeat' first
    | with_reducible assumption
    | (intro u; refine imp_elim (a := Memory.wf (State.mem u) = true) ?_ (fun hu => ?_); rotate_left; (try clear_value u); rotate_right)
    | with_reducible apply State.modBank_wf
    | with_reducible apply State.agoffAccept_wf
    | split
    | lift_lets

theorem State.banksEnd_wf {s : State} {a0} (hs : Memory.wf s.mem = true) :
    Memory.wf (State.banksEnd s a0).mem = true := by
  unfold State.banksEnd
  repeat' first
    | with_reducible assumption
    | with_reducible apply State.bankEnd_wf
    | with_reducible apply State.modBank_wf
    | with_reducible refine wf_foldl ?_ (fun _ _ _ => ?_)
    | split

theorem State.pfEnd_wf {s : State} {a0 a1} (hs : Memory.wf s.mem = true) :
    Memory.wf (State.pfEnd s a0 a1).mem = true := by
  unfold State.pfEnd
  repeat' first
    | with_reducible assumption
    | with_reducible apply State.modDie_wf
    | with_reducible refine wf_foldl ?_ (fun _ _ _ => ?_)

theorem State.opsEnd_wf {s : State} {a0} (hs : Memory.wf s.mem = true) :
    Memory.wf (State.opsEnd s a0).mem = true := by
  unfold State.opsEnd
  repeat' first
    | with_reducible assumption

theorem State.blocksEnd_wf {s : State} {a0} (hs : Memory.wf s.mem = true) :
    Memory.wf (State.blocksEnd s a0).mem = true := by
  unfold State.blocksEnd
  repeat' first
    | with_reducible assumption
    | with_reducible apply State.freeBlock_wf
    | with_reducible apply State.wakePark_wf
    | with_reducible apply State.modPart_wf
    | with_reducible refine wf_foldl ?_ (fun _ _ _ => ?_)

theorem State.queuesEnd_wf {s : State} {a0 a1} (hs : Memory.wf s.mem = true) :
    Memory.wf (State.queuesEnd s a0 a1).mem = true := by
  unfold State.queuesEnd
  repeat' first
    | with_reducible assumption
    | with_reducible apply State.modQueue_wf
    | with_reducible apply State.stopQueue_wf
    | with_reducible refine wf_foldl ?_ (fun _ _ _ => ?_)
    | split

theorem State.pmsEnd_wf {s : State} {a0} (hs : Memory.wf s.mem = true) :
    Memory.wf (State.pmsEnd s a0).mem = true := by
  unfold State.pmsEnd
  repeat' first
    | with_reducible assumption
    | with_reducible apply State.pmSpill_wf
    | with_reducible refine wf_foldl ?_ (fun _ _ _ => ?_)

theorem State.teardown_wf {s : State} {a0 a1} (hs : Memory.wf s.mem = true) :
    Memory.wf (State.teardown s a0 a1).mem = true := by
  unfold State.teardown
  repeat' first
    | with_reducible assumption
    | with_reducible apply State.pmsEnd_wf
    | with_reducible apply State.blocksEnd_wf
    | with_reducible apply State.opsEnd_wf
    | with_reducible apply State.chanReset_wf
    | with_reducible apply State.pfEnd_wf
    | with_reducible apply State.banksEnd_wf
    | with_reducible apply State.queuesEnd_wf
    | with_reducible apply State.unpin_wf
    | with_reducible apply State.modPart_wf
    | with_reducible refine wf_foldl ?_ (fun _ _ _ => ?_)
    | split

theorem State.recordEnd_wf {s : State} {a0 a1} (hs : Memory.wf s.mem = true) :
    Memory.wf (State.recordEnd s a0 a1).mem = true := by
  unfold State.recordEnd
  repeat' first
    | with_reducible assumption
    | with_reducible apply State.modPart_wf
    | with_reducible apply State.trace_wf
    | with_reducible apply State.raisePi_wf

theorem State.ctxKill_wf {s : State} {a0 a1} (hs : Memory.wf s.mem = true) :
    Memory.wf (State.ctxKill s a0 a1).mem = true := by
  unfold State.ctxKill
  repeat' first
    | with_reducible assumption
    | with_reducible apply State.endCtx_wf
    | split

theorem State.leaveSlot_wf {s : State} {a0 a1 a2} (hs : Memory.wf s.mem = true) :
    Memory.wf (State.leaveSlot s a0 a1 a2).mem = true := by
  unfold State.leaveSlot
  repeat' first
    | with_reducible assumption
    | with_reducible apply State.pmLeave_wf
    | with_reducible apply State.modBlk_wf
    | with_reducible apply State.postPlace_wf

theorem State.saveBlock_wf {s : State} {a0 a1} (hs : Memory.wf s.mem = true) :
    Memory.wf (State.saveBlock s a0 a1).mem = true := by
  unfold State.saveBlock
  repeat' first
    | with_reducible assumption
    | with_reducible apply State.freeBlock_wf
    | with_reducible apply State.modBlk_wf
    | with_reducible apply State.postPlace_wf
    | with_reducible apply State.modPart_wf

theorem State.parkRefused_wf {s : State} {a0 a1 a2} (hs : Memory.wf s.mem = true) :
    Memory.wf (State.parkRefused s a0 a1 a2).mem = true := by
  unfold State.parkRefused
  repeat' first
    | with_reducible assumption
    | with_reducible apply State.trapHere_wf

theorem State.parkRecord_wf {s : State} {a0 a1 a2 f3} (hs : Memory.wf s.mem = true) (hf3 : ∀ y0 : State, Memory.wf (State.mem y0) = true → Memory.wf (f3 y0).mem = true) :
    Memory.wf (State.parkRecord s a0 a1 a2 f3).mem = true := by
  unfold State.parkRecord
  repeat' first
    | with_reducible assumption
    | with_reducible apply State.vwrite_wf
    | with_reducible apply State.parkRefused_wf
    | with_reducible apply hf3
    | (with_reducible apply wf_fst; (focus with_reducible assumption))
    | split

theorem State.parkGo_wf {s : State} {a0 a1 a2 a3} (hs : Memory.wf s.mem = true) :
    Memory.wf (State.parkGo s a0 a1 a2 a3).mem = true := by
  unfold State.parkGo
  repeat' first
    | with_reducible assumption
    | (intro t ht; have _ : Memory.wf (State.mem t) = true := ht)
    | (intro u; clear_value u)
    | with_reducible apply State.parkRecord_wf
    | with_reducible apply State.leaveSlot_wf
    | with_reducible apply State.retire_wf
    | with_reducible apply State.modBlk_wf
    | with_reducible apply State.block_wf
    | with_reducible apply State.vwrite_wf
    | with_reducible apply State.saveBlock_wf
    | with_reducible apply State.parkRefused_wf
    | (with_reducible apply wf_fst; (focus with_reducible assumption))
    | split
    | lift_lets

theorem State.park_wf {s : State} {a0 a1 a2 a3 a4 a5} (hs : Memory.wf s.mem = true) :
    Memory.wf (State.park s a0 a1 a2 a3 a4 a5).mem = true := by
  unfold State.park
  repeat' first
    | with_reducible assumption
    | with_reducible apply State.illop_wf
    | with_reducible apply State.block_wf
    | with_reducible apply State.parkGo_wf
    | split

theorem State.parkOne_wf {s : State} {a0} (hs : Memory.wf s.mem = true) :
    Memory.wf (State.parkOne s a0).mem = true := by
  unfold State.parkOne
  repeat' first
    | with_reducible assumption
    | with_reducible apply State.parkGo_wf
    | split

theorem State.parkAll_wf {s : State} (hs : Memory.wf s.mem = true) :
    Memory.wf (State.parkAll s).mem = true := by
  unfold State.parkAll
  repeat' first
    | with_reducible assumption
    | with_reducible apply State.parkOne_wf
    | with_reducible refine wf_foldl ?_ (fun _ _ _ => ?_)

theorem State.swblkBase_wf {s : State} {a0 a1} (hs : Memory.wf s.mem = true) :
    Memory.wf (State.swblkBase s a0 a1).mem = true := by
  unfold State.swblkBase
  repeat' first
    | with_reducible assumption
    | with_reducible apply State.modBlk_wf

theorem State.swblkGoes_wf {s : State} {a0} (hs : Memory.wf s.mem = true) :
    Memory.wf (State.swblkGoes s a0).mem = true := by
  unfold State.swblkGoes
  repeat' first
    | with_reducible assumption
    | with_reducible apply State.birth_wf
    | split

theorem State.swblk_wf {s : State} {a0 a1} (hs : Memory.wf s.mem = true) :
    Memory.wf (State.swblk s a0 a1).mem = true := by
  unfold State.swblk
  repeat' first
    | with_reducible assumption
    | with_reducible apply State.swblkGoes_wf
    | with_reducible apply State.swblkBase_wf
    | split

theorem State.xmapWrite_wf {s : State} {a0 a1 a2 a3} (hs : Memory.wf s.mem = true) :
    Memory.wf (State.xmapWrite s a0 a1 a2 a3).mem = true := by
  unfold State.xmapWrite
  repeat' first
    | with_reducible assumption
    | (intro u; refine imp_elim (a := ∀ x, Memory.wf (State.mem (u x)) = true) ?_ (fun hug => ?_); rotate_left; (try clear_value u); rotate_right)
    | (intro u; clear_value u)
    | intro _
    | with_reducible apply State.retire_wf
    | with_reducible apply State.freeze_wf
    | with_reducible apply State.walkFor_wf
    | with_reducible apply State.block_wf
    | with_reducible apply State.post_wf
    | with_reducible apply State.modDie_wf
    | with_reducible apply hug
    | split
    | lift_lets

theorem State.xmapDo_wf {s : State} {a0 a1 a2} (hs : Memory.wf s.mem = true) :
    Memory.wf (State.xmapDo s a0 a1 a2).1.mem = true := by
  unfold State.xmapDo
  repeat' first
    | with_reducible assumption
    | (intro u; refine imp_elim (a := Memory.wf (State.mem u) = true) ?_ (fun hu => ?_); rotate_left; (try clear_value u); rotate_right)
    | (intro u; clear_value u)
    | with_reducible apply State.homeWrite_wf
    | with_reducible apply State.modDie_wf
    | split
    | lift_lets

theorem State.xmapFree_wf {s : State} {a0 a1} (hs : Memory.wf s.mem = true) :
    Memory.wf (State.xmapFree s a0 a1).mem = true := by
  unfold State.xmapFree
  repeat' first
    | with_reducible assumption
    | with_reducible apply State.release_wf
    | split

theorem State.xmapServeOne_wf {s : State} {a0} (hs : Memory.wf s.mem = true) :
    Memory.wf (State.xmapServeOne s a0).mem = true := by
  unfold State.xmapServeOne
  repeat' first
    | with_reducible assumption
    | (intro u; refine imp_elim (a := Memory.wf (State.mem u) = true) ?_ (fun hu => ?_); rotate_left; (try clear_value u); rotate_right)
    | with_reducible apply State.modDie_wf
    | with_reducible apply State.xmapDo_wf
    | with_reducible apply State.modGrp_wf
    | with_reducible apply State.xmapFree_wf
    | split
    | lift_lets

theorem State.qstopCheck_wf {s : State} {a0} (hs : Memory.wf s.mem = true) :
    Memory.wf (State.qstopCheck s a0).mem = true := by
  unfold State.qstopCheck
  repeat' first
    | with_reducible assumption
    | (intro u; clear_value u)
    | with_reducible apply State.modPart_wf
    | split
    | lift_lets

theorem State.qstopCtx_wf {s : State} {a0} (hs : Memory.wf s.mem = true) :
    Memory.wf (State.qstopCtx s a0).mem = true := by
  unfold State.qstopCtx
  repeat' first
    | with_reducible assumption
    | with_reducible apply State.modPart_wf
    | with_reducible apply State.quiesce_wf

theorem State.qrun_wf {s : State} {a0 a1} (hs : Memory.wf s.mem = true) :
    Memory.wf (State.qrun s a0 a1).mem = true := by
  unfold State.qrun
  repeat' first
    | with_reducible assumption
    | with_reducible apply State.modPart_wf
    | with_reducible apply State.modCtx_wf
    | split

theorem State.traceStop_wf {s : State} (hs : Memory.wf s.mem = true) :
    Memory.wf (State.traceStop s).mem = true := by
  unfold State.traceStop
  repeat' first
    | with_reducible assumption
    | with_reducible apply State.trace_wf
    | with_reducible refine wf_foldl ?_ (fun _ _ _ => ?_)

theorem State.tickStopNow_wf {s : State} (hs : Memory.wf s.mem = true) :
    Memory.wf (State.tickStopNow s).mem = true := by
  unfold State.tickStopNow
  repeat' first
    | with_reducible assumption
    | with_reducible apply State.traceStop_wf

theorem State.sampleDie_wf {s : State} {a0} (hs : Memory.wf s.mem = true) :
    Memory.wf (State.sampleDie s a0).mem = true := by
  unfold State.sampleDie
  repeat' first
    | with_reducible assumption
    | (intro u; clear_value u)
    | with_reducible apply State.trace_wf
    | with_reducible apply State.modDie_wf
    | with_reducible refine wf_foldl ?_ (fun _ _ _ => ?_)
    | split
    | lift_lets

theorem State.powerEstimate_wf {s : State} (hs : Memory.wf s.mem = true) :
    Memory.wf (State.powerEstimate s).mem = true := by
  unfold State.powerEstimate
  repeat' first
    | with_reducible assumption
    | (intro u; refine imp_elim (a := Memory.wf (State.mem u) = true) ?_ (fun hu => ?_); rotate_left; (try clear_value u); rotate_right)
    | (intro u; clear_value u)
    | with_reducible apply State.tickFree_wf
    | with_reducible apply State.raiseDie_wf
    | split
    | lift_lets

theorem State.unfence_wf {s : State} {a0} (hs : Memory.wf s.mem = true) :
    Memory.wf (State.unfence s a0).mem = true := by
  unfold State.unfence
  repeat' first
    | with_reducible assumption
    | with_reducible apply State.modCore_wf
    | with_reducible apply State.modArr_wf

theorem State.recalibrate_wf {s : State} {a0} (hs : Memory.wf s.mem = true) :
    Memory.wf (State.recalibrate s a0).mem = true := by
  unfold State.recalibrate
  repeat' first
    | with_reducible assumption
    | (intro u; refine imp_elim (a := Memory.wf (State.mem u) = true) ?_ (fun hu => ?_); rotate_left; (try clear_value u); rotate_right)
    | with_reducible apply State.modArr_wf
    | with_reducible apply State.tickFree_wf
    | with_reducible apply State.unfence_wf
    | split
    | lift_lets

theorem State.ageing_wf {s : State} (hs : Memory.wf s.mem = true) :
    Memory.wf (State.ageing s).mem = true := by
  unfold State.ageing
  repeat' first
    | with_reducible assumption
    | with_reducible apply State.recalibrate_wf
    | with_reducible refine wf_foldl ?_ (fun _ _ _ => ?_)

theorem State.tickWork_wf {s : State} (hs : Memory.wf s.mem = true) :
    Memory.wf (State.tickWork s).mem = true := by
  unfold State.tickWork
  repeat' first
    | with_reducible assumption
    | with_reducible apply State.powerEstimate_wf
    | with_reducible apply State.ageing_wf
    | with_reducible apply State.sampleDie_wf
    | with_reducible refine wf_foldl ?_ (fun _ _ _ => ?_)
    | split

theorem State.tickEdge_wf {s : State} (hs : Memory.wf s.mem = true) :
    Memory.wf (State.tickEdge s).mem = true := by
  unfold State.tickEdge
  repeat' first
    | with_reducible assumption
    | with_reducible apply State.tickWork_wf

theorem State.tickUp_wf {s : State} (hs : Memory.wf s.mem = true) :
    Memory.wf (State.tickUp s).mem = true := by
  unfold State.tickUp
  repeat' first
    | with_reducible assumption
    | with_reducible apply State.tickStopNow_wf
    | with_reducible apply State.tickEdge_wf
    | split

theorem State.endAclk_wf {s : State} (hs : Memory.wf s.mem = true) :
    Memory.wf (State.endAclk s).mem = true := by
  unfold State.endAclk
  repeat' first
    | with_reducible assumption
    | (intro u; refine imp_elim (a := Memory.wf (State.mem u) = true) ?_ (fun hu => ?_); rotate_left; (try clear_value u); rotate_right)
    | with_reducible apply State.pump_wf
    | with_reducible apply State.fillAll_wf
    | with_reducible apply State.parkAll_wf
    | with_reducible apply State.qstopCheck_wf
    | with_reducible apply State.tickUp_wf
    | with_reducible refine wf_foldl ?_ (fun _ _ _ => ?_)
    | split
    | lift_lets

theorem State.coldStart_wf {s : State} (hs : Memory.wf s.mem = true) :
    Memory.wf (State.coldStart s).mem = true := by
  unfold State.coldStart
  repeat' first
    | with_reducible assumption
    | with_reducible apply State.post_wf
    | with_reducible refine wf_foldl ?_ (fun _ _ _ => ?_)

theorem State.failBoot_wf {s : State} {a0} (hs : Memory.wf s.mem = true) :
    Memory.wf (State.failBoot s a0).mem = true := by
  unfold State.failBoot
  repeat' first
    | with_reducible assumption
    | with_reducible apply State.modDie_wf
    | with_reducible refine wf_foldl ?_ (fun _ _ _ => ?_)
    | split

theorem State.enumerate_wf {s : State} (hs : Memory.wf s.mem = true) :
    Memory.wf (State.enumerate s).mem = true := by
  unfold State.enumerate
  repeat' first
    | with_reducible assumption
    | with_reducible apply State.modDie_wf
    | with_reducible apply State.post_wf
    | with_reducible refine wf_foldl ?_ (fun _ _ _ => ?_)

theorem State.checkBoot_wf {s : State} (hs : Memory.wf s.mem = true) :
    Memory.wf (State.checkBoot s).mem = true := by
  unfold State.checkBoot
  repeat' first
    | with_reducible assumption
    | with_reducible apply State.enumerate_wf
    | split

theorem State.authenticate_wf {s : State} {a0} (hs : Memory.wf s.mem = true) :
    Memory.wf (State.authenticate s a0).mem = true := by
  unfold State.authenticate
  repeat' first
    | with_reducible assumption
    | with_reducible apply State.modDie_wf
    | with_reducible apply State.tickFree_wf
    | with_reducible apply State.checkBoot_wf
    | with_reducible apply State.failBoot_wf
    | split

theorem State.askAuth_wf {s : State} (hs : Memory.wf s.mem = true) :
    Memory.wf (State.askAuth s).mem = true := by
  unfold State.askAuth
  repeat' first
    | with_reducible assumption
    | with_reducible apply State.authenticate_wf
    | with_reducible refine wf_foldl ?_ (fun _ _ _ => ?_)

theorem State.verifyImage_wf {s : State} {a0} (hs : Memory.wf s.mem = true) :
    Memory.wf (State.verifyImage s a0).mem = true := by
  unfold State.verifyImage
  repeat' first
    | with_reducible assumption
    | (intro u; clear_value u)
    | with_reducible apply State.askAuth_wf
    | with_reducible apply State.modDie_wf
    | with_reducible apply State.tickFree_wf
    | split
    | lift_lets

theorem State.closeBoot_wf {s : State} (hs : Memory.wf s.mem = true) :
    Memory.wf (State.closeBoot s).mem = true := by
  unfold State.closeBoot
  repeat' first
    | with_reducible assumption
    | with_reducible apply State.failBoot_wf
    | with_reducible apply State.enumerate_wf
    | with_reducible refine wf_foldl ?_ (fun _ _ _ => ?_)
    | split

theorem State.bootLoad_wf {s : State} {a0} (hs : Memory.wf s.mem = true) :
    Memory.wf (State.bootLoad s a0).mem = true := by
  unfold State.bootLoad
  repeat' first
    | with_reducible assumption
    | (intro u; clear_value u)
    | with_reducible apply State.postOnce_wf
    | split
    | lift_lets

theorem State.spdm_wf {s : State} {a0 a1 a2} (hs : Memory.wf s.mem = true) :
    Memory.wf (State.spdm s a0 a1 a2).mem = true := by
  unfold State.spdm
  repeat' first
    | with_reducible assumption
    | with_reducible apply State.tickFree_wf
    | with_reducible apply State.modDie_wf
    | split

theorem State.endNow_wf {s : State} {a0 a1} (hs : Memory.wf s.mem = true) :
    Memory.wf (State.endNow s a0 a1).mem = true := by
  unfold State.endNow
  repeat' first
    | with_reducible assumption
    | (intro u; refine imp_elim (a := Memory.wf (State.mem u) = true) ?_ (fun hu => ?_); rotate_left; (try clear_value u); rotate_right)
    | with_reducible apply State.endCtx_wf
    | with_reducible apply State.recordEnd_wf
    | with_reducible apply State.teardown_wf
    | split
    | lift_lets

theorem State.thermal_wf {s : State} (hs : Memory.wf s.mem = true) :
    Memory.wf (State.thermal s).mem = true := by
  unfold State.thermal
  repeat' first
    | with_reducible assumption
    | with_reducible apply State.endNow_wf
    | with_reducible refine wf_foldl ?_ (fun _ _ _ => ?_)

theorem State.modLink_wf {s : State} {a0 a1} (hs : Memory.wf s.mem = true) :
    Memory.wf (State.modLink s a0 a1).mem = true := by
  unfold State.modLink
  repeat' first
    | with_reducible assumption

theorem State.linkDown_wf {s : State} {a0} (hs : Memory.wf s.mem = true) :
    Memory.wf (State.linkDown s a0).mem = true := by
  unfold State.linkDown
  repeat' first
    | with_reducible assumption
    | with_reducible apply State.modLink_wf
    | with_reducible apply State.raiseDie_wf
    | with_reducible apply State.endCtx_wf
    | with_reducible refine wf_foldl ?_ (fun _ _ _ => ?_)
    | split

theorem State.retrained_wf {s : State} {a0 a1} (hs : Memory.wf s.mem = true) :
    Memory.wf (State.retrained s a0 a1).mem = true := by
  unfold State.retrained
  repeat' first
    | with_reducible assumption
    | (intro u; refine imp_elim (a := Memory.wf (State.mem u) = true) ?_ (fun hu => ?_); rotate_left; (try clear_value u); rotate_right)
    | (intro u; clear_value u)
    | with_reducible apply State.modLink_wf
    | with_reducible apply State.linkDown_wf
    | split
    | lift_lets

theorem State.replayed_wf {s : State} {a0 a1} (hs : Memory.wf s.mem = true) :
    Memory.wf (State.replayed s a0 a1).mem = true := by
  unfold State.replayed
  repeat' first
    | with_reducible assumption
    | (intro u; clear_value u)
    | with_reducible apply State.modLink_wf
    | with_reducible apply State.retrained_wf
    | with_reducible apply State.tickFree_wf
    | split
    | lift_lets

theorem State.dropOps_wf {s : State} {a0 a1} (hs : Memory.wf s.mem = true) :
    Memory.wf (State.dropOps s a0 a1).mem = true := by
  unfold State.dropOps
  repeat' first
    | with_reducible assumption
    | with_reducible apply State.modDie_wf

theorem State.truncate_wf {s : State} {a0 a1} (hs : Memory.wf s.mem = true) :
    Memory.wf (State.truncate s a0 a1).mem = true := by
  unfold State.truncate
  repeat' first
    | with_reducible assumption

theorem State.clusterReset_wf {s : State} {a0 a1} (hs : Memory.wf s.mem = true) :
    Memory.wf (State.clusterReset s a0 a1).mem = true := by
  unfold State.clusterReset
  repeat' first
    | with_reducible assumption
    | with_reducible apply State.endCtx_wf
    | with_reducible apply State.modDie_wf
    | with_reducible apply State.truncate_wf
    | with_reducible apply State.dropOps_wf
    | with_reducible apply State.post_wf
    | with_reducible refine wf_foldl ?_ (fun _ _ _ => ?_)

theorem State.clusterDone_wf {s : State} {a0 a1} (hs : Memory.wf s.mem = true) :
    Memory.wf (State.clusterDone s a0 a1).mem = true := by
  unfold State.clusterDone
  repeat' first
    | with_reducible assumption
    | with_reducible apply State.modCore_wf
    | with_reducible apply State.modDie_wf
    | with_reducible apply State.raiseDie_wf

theorem State.shootAll_wf {s : State} {a0 a1} (hs : Memory.wf s.mem = true) :
    Memory.wf (State.shootAll s a0 a1).mem = true := by
  unfold State.shootAll
  repeat' first
    | with_reducible assumption
    | with_reducible apply State.modDie_wf
    | with_reducible apply State.markReads_wf
    | with_reducible refine wf_foldl ?_ (fun _ _ _ => ?_)

theorem State.shootdown_wf {s : State} {a0 a1} (hs : Memory.wf s.mem = true) :
    Memory.wf (State.shootdown s a0 a1).mem = true := by
  unfold State.shootdown
  repeat' first
    | with_reducible assumption
    | (intro u; refine imp_elim (a := Memory.wf (State.mem u) = true) ?_ (fun hu => ?_); rotate_left; (try clear_value u); rotate_right)
    | (intro u; clear_value u)
    | with_reducible apply State.modDie_wf
    | with_reducible apply State.shootAll_wf
    | with_reducible apply State.post_wf
    | split
    | lift_lets

theorem State.shootCheck_wf {s : State} {a0} (hs : Memory.wf s.mem = true) :
    Memory.wf (State.shootCheck s a0).mem = true := by
  unfold State.shootCheck
  repeat' first
    | with_reducible assumption
    | with_reducible apply State.post_wf
    | with_reducible apply State.modDie_wf
    | with_reducible apply State.raiseDie_wf
    | split

theorem State.freezePort_wf {s : State} {a0 a1 a2} (hs : Memory.wf s.mem = true) :
    Memory.wf (State.freezePort s a0 a1 a2).mem = true := by
  unfold State.freezePort
  repeat' first
    | with_reducible assumption
    | with_reducible apply State.modDie_wf
    | with_reducible apply State.logFreeze_wf

theorem State.peerSend_wf {s : State} {a0 a1} (hs : Memory.wf s.mem = true) :
    Memory.wf (State.peerSend s a0 a1).mem = true := by
  unfold State.peerSend
  repeat' first
    | with_reducible assumption
    | with_reducible apply State.launchReq_wf
    | with_reducible refine wf_foldl ?_ (fun _ _ _ => ?_)
    | split

theorem State.peerSig_wf {s : State} {a0 a1 a2} (hs : Memory.wf s.mem = true) :
    Memory.wf (State.peerSig s a0 a1 a2).mem = true := by
  unfold State.peerSig
  repeat' first
    | with_reducible assumption
    | with_reducible apply State.issueJob_wf

theorem State.peerPool_wf {s : State} {a0 a1 a2 a3} (hs : Memory.wf s.mem = true) :
    Memory.wf (State.peerPool s a0 a1 a2 a3).mem = true := by
  unfold State.peerPool
  repeat' first
    | with_reducible assumption
    | with_reducible apply State.issueJob_wf
    | with_reducible refine wf_foldl ?_ (fun _ _ _ => ?_)

theorem State.peerAccepted_wf {s : State} {a0 a1} (hs : Memory.wf s.mem = true) :
    Memory.wf (State.peerAccepted s a0 a1).mem = true := by
  unfold State.peerAccepted
  repeat' first
    | with_reducible assumption
    | (intro t ht; have _ : Memory.wf (State.mem t) = true := ht)
    | (intro u; refine imp_elim (a := ∀ x : State, Memory.wf (State.mem x) = true → Memory.wf (State.mem (u x)) = true) ?_ (fun huc => ?_); rotate_left; (try clear_value u); rotate_right)
    | (intro u; clear_value u)
    | with_reducible apply State.peerSig_wf
    | with_reducible apply State.peerPool_wf
    | with_reducible apply State.peerSend_wf
    | with_reducible apply huc
    | split
    | lift_lets

theorem State.peerArrives_wf {s : State} {a0} (hs : Memory.wf s.mem = true) :
    Memory.wf (State.peerArrives s a0).mem = true := by
  unfold State.peerArrives
  repeat' first
    | with_reducible assumption
    | (intro u; clear_value u)
    | with_reducible apply State.freezePort_wf
    | with_reducible apply State.peerAccepted_wf
    | split
    | lift_lets

theorem State.portClear_wf {s : State} {a0 a1} (hs : Memory.wf s.mem = true) :
    Memory.wf (State.portClear s a0 a1).mem = true := by
  unfold State.portClear
  repeat' first
    | with_reducible assumption
    | with_reducible apply State.modDie_wf
    | with_reducible refine wf_foldl ?_ (fun _ _ _ => ?_)
    | split

theorem State.pmWrite_wf {s : State} {a0 a1 a2 a3} (hs : Memory.wf s.mem = true) :
    Memory.wf (State.pmWrite s a0 a1 a2 a3).mem = true := by
  unfold State.pmWrite
  repeat' first
    | with_reducible assumption

theorem State.sysRead_wf {s : State} {a0 a1 a2 a3 a4 a5} (hs : Memory.wf s.mem = true) :
    Memory.wf (State.sysRead s a0 a1 a2 a3 a4 a5).mem = true := by
  unfold State.sysRead
  repeat' first
    | with_reducible assumption
    | (intro t ht; have _ : Memory.wf (State.mem t) = true := ht)
    | with_reducible apply State.retire_wf
    | with_reducible apply State.illop_wf
    | with_reducible apply State.trapHere_wf
    | with_reducible apply State.block_wf
    | with_reducible apply State.trapMatrix_wf
    | with_reducible apply State.checkRead_wf
    | split

theorem State.gateWrite_wf {s : State} {a0 a1 a2} (hs : Memory.wf s.mem = true) :
    Memory.wf (State.gateWrite s a0 a1 a2).mem = true := by
  unfold State.gateWrite
  repeat' first
    | with_reducible assumption
    | (intro u; clear_value u)
    | with_reducible apply State.tryGate_wf
    | with_reducible apply State.modBlk_wf
    | split
    | lift_lets

theorem State.hndWrite_wf {s : State} {a0 a1 a2} (hs : Memory.wf s.mem = true) :
    Memory.wf (State.hndWrite s a0 a1 a2).mem = true := by
  unfold State.hndWrite
  repeat' first
    | with_reducible assumption
    | (intro u; clear_value u)
    | with_reducible apply State.modHnd_wf
    | split
    | lift_lets

theorem State.cntWrite_wf {s : State} {a0 a1} (hs : Memory.wf s.mem = true) :
    Memory.wf (State.cntWrite s a0 a1).mem = true := by
  unfold State.cntWrite
  repeat' first
    | with_reducible assumption
    | (intro u; clear_value u)
    | with_reducible apply State.cntAdd_wf
    | split
    | lift_lets

theorem State.srBlockWrite_wf {s : State} {a0 a1 a2 a3} (hs : Memory.wf s.mem = true) :
    Memory.wf (State.srBlockWrite s a0 a1 a2 a3).mem = true := by
  unfold State.srBlockWrite
  repeat' first
    | with_reducible assumption
    | with_reducible apply State.modBlk_wf
    | with_reducible apply State.modCore_wf
    | with_reducible apply State.cntWrite_wf
    | with_reducible apply State.swblk_wf
    | with_reducible apply State.hndWrite_wf
    | with_reducible apply State.gateWrite_wf
    | split

theorem State.setAsid_wf {s : State} {a0 a1 a2} (hs : Memory.wf s.mem = true) :
    Memory.wf (State.setAsid s a0 a1 a2).mem = true := by
  unfold State.setAsid
  repeat' first
    | with_reducible assumption
    | with_reducible apply State.unpin_wf
    | with_reducible apply State.modCtx_wf
    | with_reducible apply State.modPart_wf

theorem State.sysWrite_wf {s : State} {a0 a1 a2 a3 a4 a5} (hs : Memory.wf s.mem = true) :
    Memory.wf (State.sysWrite s a0 a1 a2 a3 a4 a5).mem = true := by
  unfold State.sysWrite
  dsimp only
  have priv := State.trapHere_wf (a0 := a0) (a1 := 0x02) (a2 := 0) (a3 := w64 a2) hs
  refine ite_wf (ite_wf (State.illop_wf hs) (ite_wf (State.freeze_wf hs) (ite_wf (State.retire_wf (State.cfgChan_wf hs))
    (State.retire_wf (ite_wf (State.modChan_wf hs) hs))))) (ite_wf (State.xmapWrite_wf hs) (ite_wf (State.park_wf hs)
    (ite_wf (State.block_wf hs) (ite_wf (State.retire_wf hs) (ite_wf (State.retire_wf hs) (ite_wf
    (State.srBlockWrite_wf (State.retire_wf hs)) (ite_wf (ite_wf priv (State.retire_wf (State.setAsid_wf hs))) (ite_wf
    (ite_wf priv (State.retire_wf (State.modCtx_wf hs))) (ite_wf (ite_wf (State.retire_wf (State.setGrant_wf hs)) priv)
    (ite_wf (State.retire_wf (State.preq_wf hs)) (ite_wf (ite_wf (State.block_wf hs) (ite_wf (State.freeze_wf hs)
    (State.retire_wf (State.tailWrite_wf hs)))) (State.retire_wf (State.modCtx_wf hs)))))))))))))

theorem sysEvent_wf {s : State} {a0 a1} (hs : Memory.wf s.mem = true) :
    OutWf (sysEvent a0 a1 s) := by
  unfold sysEvent
  repeat' first
    | with_reducible assumption
    | intro _
    | with_reducible apply withCur_wf
    | with_reducible apply State.sysWrite_wf

theorem State.bind_wf {s : State} {a0} (hs : Memory.wf s.mem = true) :
    Memory.wf (State.bind s a0).mem = true := by
  unfold State.bind
  repeat' first
    | with_reducible assumption
    | with_reducible apply State.modDie_wf
    | with_reducible apply State.modPart_wf
    | split

theorem State.poolWrite8_wf {s : State} {a0 a1 a2 a3} (hs : Memory.wf s.mem = true) :
    Memory.wf (State.poolWrite8 s a0 a1 a2 a3).mem = true := by
  unfold State.poolWrite8
  repeat' first
    | with_reducible assumption
    | with_reducible apply State.xmapServeOne_wf
    | with_reducible apply State.modDie_wf
    | with_reducible refine wf_foldl ?_ (fun _ _ _ => ?_)

theorem State.tstopWrite_wf {s : State} {a0} (hs : Memory.wf s.mem = true) :
    Memory.wf (State.tstopWrite s a0).mem = true := by
  unfold State.tstopWrite
  repeat' first
    | with_reducible assumption
    | with_reducible apply State.armStop_wf

theorem State.svcWrite_wf {s : State} {a0 a1 a2 a3} (hs : Memory.wf s.mem = true) :
    Memory.wf (State.svcWrite s a0 a1 a2 a3).mem = true := by
  unfold State.svcWrite
  repeat' first
    | with_reducible assumption
    | (intro t ht; have _ : Memory.wf (State.mem t) = true := ht)
    | (intro u; refine imp_elim (a := ∀ x : State, Memory.wf (State.mem x) = true → Memory.wf (State.mem (u x)) = true) ?_ (fun huc => ?_); rotate_left; (try clear_value u); rotate_right)
    | (intro u; clear_value u)
    | with_reducible apply State.bootLoad_wf
    | with_reducible apply State.bind_wf
    | with_reducible apply State.portClear_wf
    | with_reducible apply State.clusterReset_wf
    | with_reducible apply State.shootdown_wf
    | with_reducible apply State.tstopWrite_wf
    | with_reducible apply State.poolWrite8_wf
    | with_reducible apply State.modDie_wf
    | with_reducible apply huc
    | split
    | lift_lets
    | dsimp only [u]

theorem State.ctabWord0_wf {s : State} {a0 a1 a2} (hs : Memory.wf s.mem = true) :
    Memory.wf (State.ctabWord0 s a0 a1 a2).mem = true := by
  unfold State.ctabWord0
  repeat' first
    | with_reducible assumption
    | (intro u; refine imp_elim (a := Memory.wf (State.mem u) = true) ?_ (fun hu => ?_); rotate_left; (try clear_value u); rotate_right)
    | (intro u; refine imp_elim (a := ∀ x, Memory.wf (State.mem (u x)) = true) ?_ (fun hug => ?_); rotate_left; (try clear_value u); rotate_right)
    | (intro u; clear_value u)
    | intro _
    | with_reducible apply State.modPart_wf
    | with_reducible apply State.raisePi_wf
    | with_reducible apply hug
    | split
    | lift_lets

theorem State.ctabWrite_wf {s : State} {a0 a1 a2 a3} (hs : Memory.wf s.mem = true) :
    Memory.wf (State.ctabWrite s a0 a1 a2 a3).mem = true := by
  unfold State.ctabWrite
  repeat' first
    | with_reducible assumption
    | with_reducible apply State.modPart_wf
    | split

theorem State.queueWrite_wf {s : State} {a0 a1 a2 a3 a4} (hs : Memory.wf s.mem = true) :
    Memory.wf (State.queueWrite s a0 a1 a2 a3 a4).mem = true := by
  unfold State.queueWrite
  repeat' first
    | with_reducible assumption
    | (intro u; refine imp_elim (a := Memory.wf (State.mem u) = true) ?_ (fun hu => ?_); rotate_left; (try clear_value u); rotate_right)
    | (intro u; clear_value u)
    | with_reducible apply State.modQueue_wf
    | with_reducible apply State.enableQueue_wf
    | with_reducible apply State.headWrite_wf
    | split
    | lift_lets

theorem State.dbgGet_wf {s : State} {a0 a1} (hs : Memory.wf s.mem = true) :
    Memory.wf (State.dbgGet s a0 a1).1.mem = true := by
  unfold State.dbgGet
  repeat' first
    | with_reducible assumption
    | with_reducible apply State.modGrp_wf
    | split

theorem State.dbgSr_wf {s : State} {a0 a1 a2} (hs : Memory.wf s.mem = true) :
    Memory.wf (State.dbgSr s a0 a1 a2).mem = true := by
  unfold State.dbgSr
  dsimp only
  refine ite_wf (State.modGrp_wf hs) (ite_wf (State.cfgChan_wf hs) (ite_wf (ite_wf (State.modChan_wf hs) hs) (ite_wf
    (State.modGrp_wf hs) (ite_wf (State.modGrp_wf hs) (ite_wf (State.srBlockWrite_wf hs) (ite_wf (State.setAsid_wf hs)
    (ite_wf (State.modCtx_wf hs) (ite_wf (State.setGrant_wf hs) (State.modCtx_wf hs)))))))))

theorem State.dbgSet_wf {s : State} {a0 a1 a2} (hs : Memory.wf s.mem = true) :
    Memory.wf (State.dbgSet s a0 a1 a2).mem = true := by
  unfold State.dbgSet
  repeat' first
    | with_reducible assumption
    | with_reducible apply State.modGrp_wf
    | with_reducible apply State.dbgSr_wf
    | split

theorem State.dbgDo_wf {s : State} {a0 a1 a2 a3} (hs : Memory.wf s.mem = true) :
    Memory.wf (State.dbgDo s a0 a1 a2 a3).1.mem = true := by
  unfold State.dbgDo
  repeat' first
    | with_reducible assumption
    | with_reducible apply State.dbgGet_wf
    | with_reducible apply State.dbgSet_wf
    | split

theorem State.dbgCmd_wf {s : State} {a0 a1 a2} (hs : Memory.wf s.mem = true) :
    Memory.wf (State.dbgCmd s a0 a1 a2).mem = true := by
  unfold State.dbgCmd
  repeat' first
    | with_reducible assumption
    | with_reducible apply State.dbgDo_wf
    | with_reducible apply State.modPart_wf
    | split

theorem State.dbgWrite_wf {s : State} {a0 a1} (hs : Memory.wf s.mem = true) :
    Memory.wf (State.dbgWrite s a0 a1).mem = true := by
  unfold State.dbgWrite
  repeat' first
    | with_reducible assumption
    | with_reducible apply State.dbgCmd_wf
    | with_reducible apply State.modPart_wf
    | split

theorem State.partWrite_wf {s : State} {a0 a1 a2 a3} (hs : Memory.wf s.mem = true) :
    Memory.wf (State.partWrite s a0 a1 a2 a3).mem = true := by
  unfold State.partWrite
  dsimp only
  have act : ∀ {t : State}, Memory.wf t.mem = true →
      Memory.wf (if (decide (a3 = w64 (2 ^ 64 - 1))) = true then t else s).mem = true := fun h => ite_wf h hs
  refine ite_wf (act (State.ctxKill_wf hs)) (ite_wf (State.partGrant_wf hs) (ite_wf (act (State.preq_wf hs)) (ite_wf
    (act ?_) (ite_wf (act (State.qrun_wf hs)) (ite_wf (act (State.dbgWrite_wf hs)) (ite_wf (act (State.tailWrite_wf hs))
    (ite_wf (State.queueWrite_wf hs) (ite_wf (State.partGrant_wf hs) (ite_wf (ite_wf (act (State.ctabWord0_wf hs))
    (State.ctabWrite_wf hs)) (State.modPart_wf hs))))))))))
  split
  · exact State.qstopCtx_wf hs
  · exact hs

theorem State.barWrite_wf {s : State} {a0 a1 a2 a3} (hs : Memory.wf s.mem = true) :
    Memory.wf (State.barWrite s a0 a1 a2 a3).mem = true := by
  unfold State.barWrite
  repeat' first
    | with_reducible assumption
    | (intro u; refine imp_elim (a := Memory.wf (State.mem u) = true) ?_ (fun hu => ?_); rotate_left; (try clear_value u); rotate_right)
    | (intro u; clear_value u)
    | with_reducible apply State.partWrite_wf
    | with_reducible apply State.svcWrite_wf
    | split
    | lift_lets

theorem State.commit_wf {s : State} {a0 a1 a2 a3 a4} (hs : Memory.wf s.mem = true) :
    Memory.wf (State.commit s a0 a1 a2 a3 a4).mem = true := by
  unfold State.commit
  repeat' first
    | with_reducible assumption
    | with_reducible apply State.modDie_wf
    | split

theorem State.freezeHost_wf {s : State} {a0 a1} (hs : Memory.wf s.mem = true) :
    Memory.wf (State.freezeHost s a0 a1).mem = true := by
  unfold State.freezeHost
  repeat' first
    | with_reducible assumption
    | with_reducible apply State.logFreeze_wf
    | with_reducible apply State.modDie_wf

theorem State.hostSend_wf {s : State} {a0 a1 a2 a3} (hs : Memory.wf s.mem = true) :
    Memory.wf (State.hostSend s a0 a1 a2 a3).mem = true := by
  unfold State.hostSend
  repeat' first
    | with_reducible assumption
    | with_reducible apply State.freezeHost_wf
    | with_reducible apply State.launchReq_wf
    | split

theorem State.functionReset_wf {s : State} {a0} (hs : Memory.wf s.mem = true) :
    Memory.wf (State.functionReset s a0).mem = true := by
  unfold State.functionReset
  repeat' first
    | with_reducible assumption
    | with_reducible apply State.endCtx_wf
    | with_reducible apply State.modDie_wf
    | with_reducible refine wf_foldl ?_ (fun _ _ _ => ?_)
    | split

theorem State.tapDo_wf {s : State} {a0 a1 a2} (hs : Memory.wf s.mem = true) :
    Memory.wf (State.tapDo s a0 a1 a2).mem = true := by
  unfold State.tapDo
  repeat' first
    | with_reducible assumption
    | with_reducible apply State.modDie_wf

theorem lnxForm_wf {s : State} {a0 a1} (hs : Memory.wf s.mem = true) :
    OutWf (lnxForm a0 s a1) := by
  unfold lnxForm
  repeat' first
    | with_reducible assumption
    | intro _
    | with_reducible apply withCur_wf
    | with_reducible apply State.result_wf

theorem censusForm_wf {s : State} {a0 a1} (hs : Memory.wf s.mem = true) :
    OutWf (censusForm a0 s a1) := by
  unfold censusForm
  repeat' first
    | with_reducible assumption
    | intro _
    | with_reducible apply withCur_wf
    | with_reducible apply State.result_wf

theorem scanForm_wf {s : State} {a0 a1} (hs : Memory.wf s.mem = true) :
    OutWf (scanForm a0 s a1) := by
  unfold scanForm
  repeat' first
    | with_reducible assumption
    | (intro u; clear_value u)
    | intro _
    | with_reducible apply withCur_wf
    | with_reducible apply State.trapMask_wf
    | with_reducible apply State.result_wf
    | split
    | lift_lets
    | dsimp only

theorem State.takeExch_wf {s : State} {a0 a1 a2} (hs : Memory.wf s.mem = true) :
    Memory.wf (State.takeExch s a0 a1 a2).mem = true := by
  unfold State.takeExch
  repeat' first
    | with_reducible assumption
    | with_reducible apply State.afterResult_wf
    | with_reducible apply State.release_wf
    | with_reducible apply State.setGrp_wf
    | split

theorem specialForm_wf {s : State} {a0 a1} (hs : Memory.wf s.mem = true) :
    OutWf (specialForm a0 a1 s) := by
  unfold specialForm
  repeat' first
    | with_reducible assumption
    | with_reducible apply vecFloat_wf

theorem State.withFetchWord_wf {s : State} {a0 a1} (hs : Memory.wf s.mem = true) :
    Memory.wf (State.withFetchWord s a0 a1).mem = true := by
  unfold State.withFetchWord
  repeat' first
    | with_reducible assumption

end Sys2Proof.Machine
end

