-- ==== Sys2Proof/Machine/KeepExec.lean ====
section
/-! DEFINITION. No definition, but theorems: every meaning keeps the memory canonical. They stand here so that whoever
mends a meaning can mend its theorem. -/

namespace Sys2Proof.Machine

theorem execSadd_wf {s : State} {a0} (hs : Memory.wf s.mem = true) :
    OutWf (execSadd a0 s) := by
  unfold execSadd
  repeat' first
    | with_reducible assumption
    | with_reducible apply scalarInt_wf

theorem execSsub_wf {s : State} {a0} (hs : Memory.wf s.mem = true) :
    OutWf (execSsub a0 s) := by
  unfold execSsub
  repeat' first
    | with_reducible assumption
    | with_reducible apply scalarInt_wf

theorem execSmul_wf {s : State} {a0} (hs : Memory.wf s.mem = true) :
    OutWf (execSmul a0 s) := by
  unfold execSmul
  repeat' first
    | with_reducible assumption
    | with_reducible apply scalarInt_wf

theorem execSmulh_wf {s : State} {a0} (hs : Memory.wf s.mem = true) :
    OutWf (execSmulh a0 s) := by
  unfold execSmulh
  repeat' first
    | with_reducible assumption
    | with_reducible apply scalarInt_wf

theorem execSand_wf {s : State} {a0} (hs : Memory.wf s.mem = true) :
    OutWf (execSand a0 s) := by
  unfold execSand
  repeat' first
    | with_reducible assumption
    | with_reducible apply scalarBits_wf

theorem execSor_wf {s : State} {a0} (hs : Memory.wf s.mem = true) :
    OutWf (execSor a0 s) := by
  unfold execSor
  repeat' first
    | with_reducible assumption
    | with_reducible apply scalarBits_wf

theorem execSxor_wf {s : State} {a0} (hs : Memory.wf s.mem = true) :
    OutWf (execSxor a0 s) := by
  unfold execSxor
  repeat' first
    | with_reducible assumption
    | with_reducible apply scalarBits_wf

theorem execSshl_wf {s : State} {a0} (hs : Memory.wf s.mem = true) :
    OutWf (execSshl a0 s) := by
  unfold execSshl
  repeat' first
    | with_reducible assumption
    | with_reducible apply scalarBits_wf

theorem execSshr_wf {s : State} {a0} (hs : Memory.wf s.mem = true) :
    OutWf (execSshr a0 s) := by
  unfold execSshr
  repeat' first
    | with_reducible assumption
    | with_reducible apply scalarBits_wf

theorem execSsra_wf {s : State} {a0} (hs : Memory.wf s.mem = true) :
    OutWf (execSsra a0 s) := by
  unfold execSsra
  repeat' first
    | with_reducible assumption
    | with_reducible apply scalarBits_wf

theorem execSmin_wf {s : State} {a0} (hs : Memory.wf s.mem = true) :
    OutWf (execSmin a0 s) := by
  unfold execSmin
  repeat' first
    | with_reducible assumption
    | with_reducible apply scalarInt_wf

theorem execSmax_wf {s : State} {a0} (hs : Memory.wf s.mem = true) :
    OutWf (execSmax a0 s) := by
  unfold execSmax
  repeat' first
    | with_reducible assumption
    | with_reducible apply scalarInt_wf

theorem execScmp_wf {s : State} {a0} (hs : Memory.wf s.mem = true) :
    OutWf (execScmp a0 s) := by
  unfold execScmp
  repeat' first
    | with_reducible assumption
    | intro _
    | with_reducible apply uniform_wf
    | with_reducible apply State.retire_wf

theorem execSsel_wf {s : State} {a0} (hs : Memory.wf s.mem = true) :
    OutWf (execSsel a0 s) := by
  unfold execSsel
  repeat' first
    | with_reducible assumption
    | with_reducible apply scalarOp_wf

theorem execSmov_wf {s : State} {a0} (hs : Memory.wf s.mem = true) :
    OutWf (execSmov a0 s) := by
  unfold execSmov
  repeat' first
    | with_reducible assumption
    | with_reducible apply scalarBits_wf

theorem execSmovi_wf {s : State} {a0} (hs : Memory.wf s.mem = true) :
    OutWf (execSmovi a0 s) := by
  unfold execSmovi
  repeat' first
    | with_reducible assumption
    | with_reducible apply scalarMovi_wf

theorem execSmoviHi_wf {s : State} {a0} (hs : Memory.wf s.mem = true) :
    OutWf (execSmoviHi a0 s) := by
  unfold execSmoviHi
  repeat' first
    | with_reducible assumption
    | with_reducible apply scalarMovi_wf

theorem execSlea_wf {s : State} {a0} (hs : Memory.wf s.mem = true) :
    OutWf (execSlea a0 s) := by
  unfold execSlea
  repeat' first
    | with_reducible assumption
    | with_reducible apply scalarBits_wf

theorem execSbfe_wf {s : State} {a0} (hs : Memory.wf s.mem = true) :
    OutWf (execSbfe a0 s) := by
  unfold execSbfe
  repeat' first
    | with_reducible assumption
    | with_reducible apply scalarBits_wf

theorem execSbfi_wf {s : State} {a0} (hs : Memory.wf s.mem = true) :
    OutWf (execSbfi a0 s) := by
  unfold execSbfi
  repeat' first
    | with_reducible assumption
    | with_reducible apply scalarOp_wf

theorem execSpopc_wf {s : State} {a0} (hs : Memory.wf s.mem = true) :
    OutWf (execSpopc a0 s) := by
  unfold execSpopc
  repeat' first
    | with_reducible assumption
    | with_reducible apply scalarBits_wf

theorem execSclz_wf {s : State} {a0} (hs : Memory.wf s.mem = true) :
    OutWf (execSclz a0 s) := by
  unfold execSclz
  repeat' first
    | with_reducible assumption
    | with_reducible apply scalarBits_wf

theorem execSbrev_wf {s : State} {a0} (hs : Memory.wf s.mem = true) :
    OutWf (execSbrev a0 s) := by
  unfold execSbrev
  repeat' first
    | with_reducible assumption
    | with_reducible apply scalarBits_wf

theorem execSdiv_wf {s : State} {a0} (hs : Memory.wf s.mem = true) :
    OutWf (execSdiv a0 s) := by
  unfold execSdiv
  repeat' first
    | with_reducible assumption
    | with_reducible apply scalarDiv_wf

theorem execSrem_wf {s : State} {a0} (hs : Memory.wf s.mem = true) :
    OutWf (execSrem a0 s) := by
  unfold execSrem
  repeat' first
    | with_reducible assumption
    | with_reducible apply scalarDiv_wf

theorem execVadd_wf {s : State} {a0} (hs : Memory.wf s.mem = true) :
    OutWf (execVadd a0 s) := by
  unfold execVadd
  repeat' first
    | with_reducible assumption
    | with_reducible apply vecInt_wf

theorem execVsub_wf {s : State} {a0} (hs : Memory.wf s.mem = true) :
    OutWf (execVsub a0 s) := by
  unfold execVsub
  repeat' first
    | with_reducible assumption
    | with_reducible apply vecInt_wf

theorem execVmul_wf {s : State} {a0} (hs : Memory.wf s.mem = true) :
    OutWf (execVmul a0 s) := by
  unfold execVmul
  repeat' first
    | with_reducible assumption
    | with_reducible apply vecInt_wf

theorem execVmulh_wf {s : State} {a0} (hs : Memory.wf s.mem = true) :
    OutWf (execVmulh a0 s) := by
  unfold execVmulh
  repeat' first
    | with_reducible assumption
    | with_reducible apply vecInt_wf

theorem execVmad_wf {s : State} {a0} (hs : Memory.wf s.mem = true) :
    OutWf (execVmad a0 s) := by
  unfold execVmad
  repeat' first
    | with_reducible assumption
    | with_reducible apply vecInt_wf

theorem execVand_wf {s : State} {a0} (hs : Memory.wf s.mem = true) :
    OutWf (execVand a0 s) := by
  unfold execVand
  repeat' first
    | with_reducible assumption
    | with_reducible apply vecBits_wf

theorem execVor_wf {s : State} {a0} (hs : Memory.wf s.mem = true) :
    OutWf (execVor a0 s) := by
  unfold execVor
  repeat' first
    | with_reducible assumption
    | with_reducible apply vecBits_wf

theorem execVxor_wf {s : State} {a0} (hs : Memory.wf s.mem = true) :
    OutWf (execVxor a0 s) := by
  unfold execVxor
  repeat' first
    | with_reducible assumption
    | with_reducible apply vecBits_wf

theorem execVshl_wf {s : State} {a0} (hs : Memory.wf s.mem = true) :
    OutWf (execVshl a0 s) := by
  unfold execVshl
  repeat' first
    | with_reducible assumption
    | with_reducible apply vecBits_wf

theorem execVshr_wf {s : State} {a0} (hs : Memory.wf s.mem = true) :
    OutWf (execVshr a0 s) := by
  unfold execVshr
  repeat' first
    | with_reducible assumption
    | with_reducible apply vecBits_wf

theorem execVsra_wf {s : State} {a0} (hs : Memory.wf s.mem = true) :
    OutWf (execVsra a0 s) := by
  unfold execVsra
  repeat' first
    | with_reducible assumption
    | with_reducible apply vecBits_wf

theorem execVmin_wf {s : State} {a0} (hs : Memory.wf s.mem = true) :
    OutWf (execVmin a0 s) := by
  unfold execVmin
  repeat' first
    | with_reducible assumption
    | with_reducible apply vecInt_wf

theorem execVmax_wf {s : State} {a0} (hs : Memory.wf s.mem = true) :
    OutWf (execVmax a0 s) := by
  unfold execVmax
  repeat' first
    | with_reducible assumption
    | with_reducible apply vecInt_wf

theorem execVabs_wf {s : State} {a0} (hs : Memory.wf s.mem = true) :
    OutWf (execVabs a0 s) := by
  unfold execVabs
  repeat' first
    | with_reducible assumption
    | with_reducible apply vecInt_wf

theorem execVneg_wf {s : State} {a0} (hs : Memory.wf s.mem = true) :
    OutWf (execVneg a0 s) := by
  unfold execVneg
  repeat' first
    | with_reducible assumption
    | with_reducible apply vecInt_wf

theorem execVpopc_wf {s : State} {a0} (hs : Memory.wf s.mem = true) :
    OutWf (execVpopc a0 s) := by
  unfold execVpopc
  repeat' first
    | with_reducible assumption
    | with_reducible apply vecBits_wf

theorem execVclz_wf {s : State} {a0} (hs : Memory.wf s.mem = true) :
    OutWf (execVclz a0 s) := by
  unfold execVclz
  repeat' first
    | with_reducible assumption
    | with_reducible apply vecBits_wf

theorem execVbfe_wf {s : State} {a0} (hs : Memory.wf s.mem = true) :
    OutWf (execVbfe a0 s) := by
  unfold execVbfe
  repeat' first
    | with_reducible assumption
    | with_reducible apply vecBits_wf

theorem execVbfi_wf {s : State} {a0} (hs : Memory.wf s.mem = true) :
    OutWf (execVbfi a0 s) := by
  unfold execVbfi
  repeat' first
    | with_reducible assumption
    | with_reducible apply vecOp_wf

theorem execVlea_wf {s : State} {a0} (hs : Memory.wf s.mem = true) :
    OutWf (execVlea a0 s) := by
  unfold execVlea
  repeat' first
    | with_reducible assumption
    | with_reducible apply vecBits_wf

theorem execVmovi_wf {s : State} {a0} (hs : Memory.wf s.mem = true) :
    OutWf (execVmovi a0 s) := by
  unfold execVmovi
  repeat' first
    | with_reducible assumption
    | with_reducible apply vecMovi_wf

theorem execVmoviHi_wf {s : State} {a0} (hs : Memory.wf s.mem = true) :
    OutWf (execVmoviHi a0 s) := by
  unfold execVmoviHi
  repeat' first
    | with_reducible assumption
    | with_reducible apply vecMovi_wf

theorem execVsel_wf {s : State} {a0} (hs : Memory.wf s.mem = true) :
    OutWf (execVsel a0 s) := by
  unfold execVsel
  repeat' first
    | with_reducible assumption
    | with_reducible apply vecOp_wf

theorem execVcmp_wf {s : State} {a0} (hs : Memory.wf s.mem = true) :
    OutWf (execVcmp a0 s) := by
  unfold execVcmp
  repeat' first
    | with_reducible assumption
    | intro _
    | with_reducible apply withCur_wf
    | with_reducible apply State.result_wf

theorem execVdiv_wf {s : State} {a0} (hs : Memory.wf s.mem = true) :
    OutWf (execVdiv a0 s) := by
  unfold execVdiv
  repeat' first
    | with_reducible assumption
    | with_reducible apply vecDiv_wf

theorem execVrem_wf {s : State} {a0} (hs : Memory.wf s.mem = true) :
    OutWf (execVrem a0 s) := by
  unfold execVrem
  repeat' first
    | with_reducible assumption
    | with_reducible apply vecDiv_wf

theorem execVdot4_wf {s : State} {a0} (hs : Memory.wf s.mem = true) :
    OutWf (execVdot4 a0 s) := by
  unfold execVdot4
  repeat' first
    | with_reducible assumption
    | with_reducible apply vecInt_wf

theorem execFadd_wf {s : State} {a0} (hs : Memory.wf s.mem = true) :
    OutWf (execFadd a0 s) := by
  unfold execFadd
  repeat' first
    | with_reducible assumption
    | with_reducible apply fOnce_wf

theorem execFsub_wf {s : State} {a0} (hs : Memory.wf s.mem = true) :
    OutWf (execFsub a0 s) := by
  unfold execFsub
  repeat' first
    | with_reducible assumption
    | with_reducible apply fOnce_wf

theorem execFmul_wf {s : State} {a0} (hs : Memory.wf s.mem = true) :
    OutWf (execFmul a0 s) := by
  unfold execFmul
  repeat' first
    | with_reducible assumption
    | with_reducible apply fOnce_wf

theorem execFfma_wf {s : State} {a0} (hs : Memory.wf s.mem = true) :
    OutWf (execFfma a0 s) := by
  unfold execFfma
  repeat' first
    | with_reducible assumption
    | with_reducible apply fOnce_wf

theorem execFdiv_wf {s : State} {a0} (hs : Memory.wf s.mem = true) :
    OutWf (execFdiv a0 s) := by
  unfold execFdiv
  repeat' first
    | with_reducible assumption
    | with_reducible apply fOnce_wf

theorem execFsqrt_wf {s : State} {a0} (hs : Memory.wf s.mem = true) :
    OutWf (execFsqrt a0 s) := by
  unfold execFsqrt
  repeat' first
    | with_reducible assumption
    | with_reducible apply fOnce_wf

theorem execFmin_wf {s : State} {a0} (hs : Memory.wf s.mem = true) :
    OutWf (execFmin a0 s) := by
  unfold execFmin
  repeat' first
    | with_reducible assumption
    | with_reducible apply fPickForm_wf

theorem execFmax_wf {s : State} {a0} (hs : Memory.wf s.mem = true) :
    OutWf (execFmax a0 s) := by
  unfold execFmax
  repeat' first
    | with_reducible assumption
    | with_reducible apply fPickForm_wf

theorem execFcmp_wf {s : State} {a0} (hs : Memory.wf s.mem = true) :
    OutWf (execFcmp a0 s) := by
  unfold execFcmp
  repeat' first
    | with_reducible assumption
    | with_reducible apply floatForm_wf

theorem execFclass_wf {s : State} {a0} (hs : Memory.wf s.mem = true) :
    OutWf (execFclass a0 s) := by
  unfold execFclass
  repeat' first
    | with_reducible assumption
    | with_reducible apply vecFloat_wf

theorem execFscale_wf {s : State} {a0} (hs : Memory.wf s.mem = true) :
    OutWf (execFscale a0 s) := by
  unfold execFscale
  repeat' first
    | with_reducible assumption
    | with_reducible apply fOnce_wf

theorem execFround_wf {s : State} {a0} (hs : Memory.wf s.mem = true) :
    OutWf (execFround a0 s) := by
  unfold execFround
  repeat' first
    | with_reducible assumption
    | with_reducible apply vecFloat_wf

theorem execFfrac_wf {s : State} {a0} (hs : Memory.wf s.mem = true) :
    OutWf (execFfrac a0 s) := by
  unfold execFfrac
  repeat' first
    | with_reducible assumption
    | with_reducible apply fOnce_wf

theorem execFdot2_wf {s : State} {a0} (hs : Memory.wf s.mem = true) :
    OutWf (execFdot2 a0 s) := by
  unfold execFdot2
  repeat' first
    | with_reducible assumption
    | with_reducible apply fOnce_wf

theorem execVmov_wf {s : State} {a0} (hs : Memory.wf s.mem = true) :
    OutWf (execVmov a0 s) := by
  unfold execVmov
  repeat' first
    | with_reducible assumption
    | with_reducible apply fOnce_wf
    | with_reducible apply vecOp_wf
    | split

theorem execPairedWord_wf {s : State} {a0} (hs : Memory.wf s.mem = true) :
    OutWf (execPairedWord a0 s) := by
  unfold execPairedWord
  repeat' first
    | with_reducible assumption
    | (intro u; clear_value u)
    | intro _
    | with_reducible apply withCur_wf
    | with_reducible apply State.trapMask_wf
    | with_reducible apply State.pendFor_wf
    | with_reducible apply State.retire_wf
    | split
    | lift_lets

theorem execLd_wf {s : State} {a0} (hs : Memory.wf s.mem = true) :
    OutWf (execLd a0 s) := by
  unfold execLd
  repeat' first
    | with_reducible assumption
    | with_reducible apply vectorLoad_wf

theorem execLdw_wf {s : State} {a0} (hs : Memory.wf s.mem = true) :
    OutWf (execLdw a0 s) := by
  unfold execLdw
  repeat' first
    | with_reducible assumption
    | (intro u; clear_value u)
    | intro _
    | with_reducible apply withCur_wf
    | with_reducible apply State.freeze_wf
    | with_reducible apply State.trapLanes_wf
    | with_reducible apply State.retire_wf
    | with_reducible apply State.ordered_wf
    | with_reducible apply State.issueLoad_wf
    | split
    | lift_lets

theorem execLdnr_wf {s : State} {a0} (hs : Memory.wf s.mem = true) :
    OutWf (execLdnr a0 s) := by
  unfold execLdnr
  repeat' first
    | with_reducible assumption
    | (intro u; clear_value u)
    | intro _
    | with_reducible apply withCur_wf
    | with_reducible apply State.freeze_wf
    | with_reducible apply State.trapLanes_wf
    | with_reducible apply State.retire_wf
    | with_reducible apply State.ordered_wf
    | with_reducible apply State.issueLoad_wf
    | split
    | lift_lets

theorem execSt_wf {s : State} {a0} (hs : Memory.wf s.mem = true) :
    OutWf (execSt a0 s) := by
  unfold execSt
  repeat' first
    | with_reducible assumption
    | (intro u; refine imp_elim (a := Memory.wf (State.mem u) = true) ?_ (fun hu => ?_); rotate_left; (try clear_value u); rotate_right)
    | (intro u; clear_value u)
    | intro _
    | with_reducible apply withCur_wf
    | with_reducible apply State.freeze_wf
    | with_reducible apply State.trapLanes_wf
    | with_reducible apply State.retire_wf
    | with_reducible apply State.ordered_wf
    | with_reducible apply State.markLines_wf
    | with_reducible apply State.countEvent_wf
    | with_reducible apply State.sendWrites_wf
    | split
    | lift_lets

theorem execLds_wf {s : State} {a0} (hs : Memory.wf s.mem = true) :
    OutWf (execLds a0 s) := by
  unfold execLds
  repeat' first
    | with_reducible assumption
    | (intro t ht; have _ : Memory.wf (State.mem t) = true := ht)
    | intro _
    | with_reducible apply scratchForm_wf
    | with_reducible apply State.checkRead_wf
    | with_reducible apply State.retire_wf
    | with_reducible apply State.post_wf
    | with_reducible apply State.sendPool_wf
    | with_reducible refine wf_foldl ?_ (fun _ _ _ => ?_)
    | split

theorem execSts.go_wf {s : State} {a0 a1 a2 a3 a4} (hs : Memory.wf s.mem = true) :
    Memory.wf (execSts.go a0 s a1 a2 a3 a4).mem = true := by
  unfold execSts.go
  repeat' first
    | with_reducible assumption
    | with_reducible apply State.countEvent_wf
    | with_reducible apply State.retire_wf
    | with_reducible apply State.arrWrite_wf
    | with_reducible apply State.post_wf
    | with_reducible apply State.sendSts_wf
    | split

theorem execSts_wf {s : State} {a0} (hs : Memory.wf s.mem = true) :
    OutWf (execSts a0 s) := by
  unfold execSts
  repeat' first
    | with_reducible assumption
    | (intro u; clear_value u)
    | intro _
    | with_reducible apply scratchForm_wf
    | with_reducible apply State.trapMask_wf
    | with_reducible apply execSts.go_wf
    | split
    | lift_lets

theorem execAtom_wf {s : State} {a0} (hs : Memory.wf s.mem = true) :
    OutWf (execAtom a0 s) := by
  unfold execAtom
  repeat' first
    | with_reducible assumption
    | with_reducible apply vectorAtomic_wf

theorem execAtomr_wf {s : State} {a0} (hs : Memory.wf s.mem = true) :
    OutWf (execAtomr a0 s) := by
  unfold execAtomr
  repeat' first
    | with_reducible assumption
    | with_reducible apply vectorAtomic_wf

theorem execCas_wf {s : State} {a0} (hs : Memory.wf s.mem = true) :
    OutWf (execCas a0 s) := by
  unfold execCas
  repeat' first
    | with_reducible assumption
    | with_reducible apply vectorAtomic_wf

theorem execAtoms_wf {s : State} {a0} (hs : Memory.wf s.mem = true) :
    OutWf (execAtoms a0 s) := by
  unfold execAtoms
  repeat' first
    | with_reducible assumption
    | with_reducible apply groupAtomic_wf

theorem execCass_wf {s : State} {a0} (hs : Memory.wf s.mem = true) :
    OutWf (execCass a0 s) := by
  unfold execCass
  repeat' first
    | with_reducible assumption
    | with_reducible apply groupAtomic_wf

theorem execFence_wf {s : State} {a0} (hs : Memory.wf s.mem = true) :
    OutWf (execFence a0 s) := by
  unfold execFence
  repeat' first
    | with_reducible assumption
    | (intro u; refine imp_elim (a := Memory.wf (State.mem u) = true) ?_ (fun hu => ?_); rotate_left; (try clear_value u); rotate_right)
    | (intro u; clear_value u)
    | intro _
    | with_reducible apply uniform_wf
    | with_reducible apply State.block_wf
    | with_reducible apply State.retire_wf
    | with_reducible apply State.acquire_wf
    | split
    | lift_lets

theorem execCflush_wf {s : State} {a0} (hs : Memory.wf s.mem = true) :
    OutWf (execCflush a0 s) := by
  unfold execCflush
  repeat' first
    | with_reducible assumption
    | with_reducible apply cflushForm_wf

theorem execCflushInv_wf {s : State} {a0} (hs : Memory.wf s.mem = true) :
    OutWf (execCflushInv a0 s) := by
  unfold execCflushInv
  repeat' first
    | with_reducible assumption
    | with_reducible apply cflushForm_wf

theorem execCinv_wf {s : State} {a0} (hs : Memory.wf s.mem = true) :
    OutWf (execCinv a0 s) := by
  unfold execCinv
  repeat' first
    | with_reducible assumption
    | with_reducible apply cinvForm_wf

theorem execCinvRo_wf {s : State} {a0} (hs : Memory.wf s.mem = true) :
    OutWf (execCinvRo a0 s) := by
  unfold execCinvRo
  repeat' first
    | with_reducible assumption
    | with_reducible apply cinvForm_wf

theorem execCinvI_wf {s : State} {a0} (hs : Memory.wf s.mem = true) :
    OutWf (execCinvI a0 s) := by
  unfold execCinvI
  repeat' first
    | with_reducible assumption
    | with_reducible apply cinvForm_wf

theorem execPrefL1_wf {s : State} {a0} (hs : Memory.wf s.mem = true) :
    OutWf (execPrefL1 a0 s) := by
  unfold execPrefL1
  repeat' first
    | with_reducible assumption
    | with_reducible apply prefForm_wf

theorem execPrefRo_wf {s : State} {a0} (hs : Memory.wf s.mem = true) :
    OutWf (execPrefRo a0 s) := by
  unfold execPrefRo
  repeat' first
    | with_reducible assumption
    | with_reducible apply prefForm_wf

theorem execPrefL2_wf {s : State} {a0} (hs : Memory.wf s.mem = true) :
    OutWf (execPrefL2 a0 s) := by
  unfold execPrefL2
  repeat' first
    | with_reducible assumption
    | with_reducible apply prefForm_wf

theorem execHacqDrain_wf {s : State} {a0} (hs : Memory.wf s.mem = true) :
    OutWf (execHacqDrain a0 s) := by
  unfold execHacqDrain
  repeat' first
    | with_reducible assumption
    | (intro u; refine imp_elim (a := Memory.wf (State.mem u) = true) ?_ (fun hu => ?_); rotate_left; (try clear_value u); rotate_right)
    | (intro u; clear_value u)
    | intro _
    | with_reducible apply uniform_wf
    | with_reducible apply State.hndEdge_wf
    | with_reducible apply State.hndSet_wf
    | with_reducible apply State.hndDelay_wf
    | with_reducible apply State.retire_wf
    | with_reducible apply State.hndWait_wf
    | split
    | lift_lets

theorem execHacqFill_wf {s : State} {a0} (hs : Memory.wf s.mem = true) :
    OutWf (execHacqFill a0 s) := by
  unfold execHacqFill
  repeat' first
    | with_reducible assumption
    | (intro u; refine imp_elim (a := Memory.wf (State.mem u) = true) ?_ (fun hu => ?_); rotate_left; (try clear_value u); rotate_right)
    | (intro u; clear_value u)
    | intro _
    | with_reducible apply uniform_wf
    | with_reducible apply State.trapHere_wf
    | with_reducible apply State.hndEdge_wf
    | with_reducible apply State.hndSet_wf
    | with_reducible apply State.hndDelay_wf
    | with_reducible apply State.retire_wf
    | with_reducible apply State.hndWait_wf
    | split
    | lift_lets

theorem execHrel_wf {s : State} {a0} (hs : Memory.wf s.mem = true) :
    OutWf (execHrel a0 s) := by
  unfold execHrel
  repeat' first
    | with_reducible assumption
    | (intro u; clear_value u)
    | intro _
    | with_reducible apply uniform_wf
    | with_reducible apply State.illop_wf
    | with_reducible apply State.block_wf
    | with_reducible apply State.hndDelay_wf
    | with_reducible apply State.retire_wf
    | with_reducible apply State.hndSet_wf
    | split
    | lift_lets

theorem execHstat_wf {s : State} {a0} (hs : Memory.wf s.mem = true) :
    OutWf (execHstat a0 s) := by
  unfold execHstat
  repeat' first
    | with_reducible assumption
    | intro _
    | with_reducible apply uniform_wf
    | with_reducible apply State.retire_wf

theorem execCopyV2s_wf {s : State} {a0} (hs : Memory.wf s.mem = true) :
    OutWf (execCopyV2s a0 s) := by
  unfold execCopyV2s
  repeat' first
    | with_reducible assumption
    | with_reducible apply copyForm_wf

theorem execCopyS2v_wf {s : State} {a0} (hs : Memory.wf s.mem = true) :
    OutWf (execCopyS2v a0 s) := by
  unfold execCopyS2v
  repeat' first
    | with_reducible assumption
    | with_reducible apply copyForm_wf

theorem execCopyV2v_wf {s : State} {a0} (hs : Memory.wf s.mem = true) :
    OutWf (execCopyV2v a0 s) := by
  unfold execCopyV2v
  repeat' first
    | with_reducible assumption
    | with_reducible apply copyForm_wf

theorem execCopyS2s_wf {s : State} {a0} (hs : Memory.wf s.mem = true) :
    OutWf (execCopyS2s a0 s) := by
  unfold execCopyS2s
  repeat' first
    | with_reducible assumption
    | with_reducible apply copyForm_wf

theorem execCopygG_wf {s : State} {a0} (hs : Memory.wf s.mem = true) :
    OutWf (execCopygG a0 s) := by
  unfold execCopygG
  repeat' first
    | with_reducible assumption
    | with_reducible apply copygForm_wf

theorem execCopygS_wf {s : State} {a0} (hs : Memory.wf s.mem = true) :
    OutWf (execCopygS a0 s) := by
  unfold execCopygS
  repeat' first
    | with_reducible assumption
    | with_reducible apply copygForm_wf

theorem execCopypPut_wf {s : State} {a0} (hs : Memory.wf s.mem = true) :
    OutWf (execCopypPut a0 s) := by
  unfold execCopypPut
  repeat' first
    | with_reducible assumption
    | with_reducible apply copypForm_wf

theorem execCopypGet_wf {s : State} {a0} (hs : Memory.wf s.mem = true) :
    OutWf (execCopypGet a0 s) := by
  unfold execCopypGet
  repeat' first
    | with_reducible assumption
    | with_reducible apply copypForm_wf

theorem execBatch_wf {s : State} {a0} (hs : Memory.wf s.mem = true) :
    OutWf (execBatch a0 s) := by
  unfold execBatch
  repeat' first
    | with_reducible assumption
    | (intro u; refine imp_elim (a := Memory.wf (State.mem u) = true) ?_ (fun hu => ?_); rotate_left; (try clear_value u); rotate_right)
    | (intro u; clear_value u)
    | intro _
    | with_reducible apply uniform_wf
    | with_reducible apply State.block_wf
    | with_reducible apply State.closeBatch_wf
    | with_reducible apply State.retire_wf
    | split
    | lift_lets

theorem execWaitb_wf {s : State} {a0} (hs : Memory.wf s.mem = true) :
    OutWf (execWaitb a0 s) := by
  unfold execWaitb
  repeat' first
    | with_reducible assumption
    | (intro u; clear_value u)
    | intro _
    | with_reducible apply uniform_wf
    | with_reducible apply State.illop_wf
    | with_reducible apply State.observe_wf
    | with_reducible apply State.block_wf
    | split
    | lift_lets

theorem execWaitc_wf {s : State} {a0} (hs : Memory.wf s.mem = true) :
    OutWf (execWaitc a0 s) := by
  unfold execWaitc
  repeat' first
    | with_reducible assumption
    | (intro u; clear_value u)
    | intro _
    | with_reducible apply uniform_wf
    | with_reducible apply State.illop_wf
    | with_reducible apply State.observe_wf
    | with_reducible apply State.block_wf
    | split
    | lift_lets

theorem execGatePass_wf {s : State} {a0} (hs : Memory.wf s.mem = true) :
    OutWf (execGatePass a0 s) := by
  unfold execGatePass
  repeat' first
    | with_reducible assumption
    | intro _
    | with_reducible apply gateForm_wf
    | with_reducible apply State.holdGate_wf
    | with_reducible apply State.fenceFirst_wf
    | with_reducible apply State.checkRend_wf
    | with_reducible apply State.block_wf
    | with_reducible apply State.arriveGate_wf
    | split

theorem execGateMark_wf {s : State} {a0} (hs : Memory.wf s.mem = true) :
    OutWf (execGateMark a0 s) := by
  unfold execGateMark
  repeat' first
    | with_reducible assumption
    | intro _
    | with_reducible apply gateForm_wf
    | with_reducible apply State.fenceFirst_wf
    | with_reducible apply State.checkRend_wf
    | with_reducible apply State.block_wf
    | with_reducible apply State.arriveGate_wf
    | with_reducible apply State.retire_wf
    | split

theorem execGateHold_wf {s : State} {a0} (hs : Memory.wf s.mem = true) :
    OutWf (execGateHold a0 s) := by
  unfold execGateHold
  repeat' first
    | with_reducible assumption
    | intro _
    | with_reducible apply gateForm_wf
    | with_reducible apply State.holdGate_wf

theorem execGgatePass_wf {s : State} {a0} (hs : Memory.wf s.mem = true) :
    OutWf (execGgatePass a0 s) := by
  unfold execGgatePass
  repeat' first
    | with_reducible assumption
    | intro _
    | with_reducible apply ggateForm_wf
    | with_reducible apply State.holdGang_wf
    | with_reducible apply State.fenceFirst_wf
    | with_reducible apply State.block_wf
    | with_reducible apply State.arriveGang_wf
    | split

theorem execGgateMark_wf {s : State} {a0} (hs : Memory.wf s.mem = true) :
    OutWf (execGgateMark a0 s) := by
  unfold execGgateMark
  repeat' first
    | with_reducible assumption
    | intro _
    | with_reducible apply ggateForm_wf
    | with_reducible apply State.fenceFirst_wf
    | with_reducible apply State.block_wf
    | with_reducible apply State.arriveGang_wf
    | with_reducible apply State.retire_wf
    | split

theorem execGgateHold_wf {s : State} {a0} (hs : Memory.wf s.mem = true) :
    OutWf (execGgateHold a0 s) := by
  unfold execGgateHold
  repeat' first
    | with_reducible assumption
    | intro _
    | with_reducible apply uniform_wf
    | with_reducible apply State.holdGang_wf

theorem execSigset_wf {s : State} {a0} (hs : Memory.wf s.mem = true) :
    OutWf (execSigset a0 s) := by
  unfold execSigset
  repeat' first
    | with_reducible assumption
    | with_reducible apply sigAtomic_wf

theorem execSigadd_wf {s : State} {a0} (hs : Memory.wf s.mem = true) :
    OutWf (execSigadd a0 s) := by
  unfold execSigadd
  repeat' first
    | with_reducible assumption
    | with_reducible apply sigAtomic_wf

theorem execSigwait_wf {s : State} {a0} (hs : Memory.wf s.mem = true) :
    OutWf (execSigwait a0 s) := by
  unfold execSigwait
  repeat' first
    | with_reducible assumption
    | intro _
    | with_reducible apply sigForm_wf
    | with_reducible apply State.sendSig_wf
    | with_reducible apply State.block_wf

theorem execAgon_wf {s : State} {a0} (hs : Memory.wf s.mem = true) :
    OutWf (execAgon a0 s) := by
  unfold execAgon
  repeat' first
    | with_reducible assumption
    | with_reducible apply agForm_wf

theorem execAgoff_wf {s : State} {a0} (hs : Memory.wf s.mem = true) :
    OutWf (execAgoff a0 s) := by
  unfold execAgoff
  repeat' first
    | with_reducible assumption
    | with_reducible apply agForm_wf

theorem execAgld_wf {s : State} {a0} (hs : Memory.wf s.mem = true) :
    OutWf (execAgld a0 s) := by
  unfold execAgld
  repeat' first
    | with_reducible assumption
    | with_reducible apply agMoveForm_wf

theorem execAgst_wf {s : State} {a0} (hs : Memory.wf s.mem = true) :
    OutWf (execAgst a0 s) := by
  unfold execAgst
  repeat' first
    | with_reducible assumption
    | with_reducible apply agMoveForm_wf

theorem execAgop_wf {s : State} {a0} (hs : Memory.wf s.mem = true) :
    OutWf (execAgop a0 s) := by
  unfold execAgop
  repeat' first
    | with_reducible assumption
    | with_reducible apply agForm_wf

theorem execAgred_wf {s : State} {a0} (hs : Memory.wf s.mem = true) :
    OutWf (execAgred a0 s) := by
  unfold execAgred
  repeat' first
    | with_reducible assumption
    | with_reducible apply agForm_wf

theorem execBra_wf {s : State} {a0} (hs : Memory.wf s.mem = true) :
    OutWf (execBra a0 s) := by
  unfold execBra
  repeat' first
    | with_reducible assumption
    | intro _
    | with_reducible apply uniform_wf
    | with_reducible apply State.transfer_wf

theorem execBras_wf {s : State} {a0} (hs : Memory.wf s.mem = true) :
    OutWf (execBras a0 s) := by
  unfold execBras
  repeat' first
    | with_reducible assumption
    | intro _
    | with_reducible apply uniform_wf
    | with_reducible apply State.transfer_wf
    | with_reducible apply State.retire_wf
    | split

theorem execJmp_wf {s : State} {a0} (hs : Memory.wf s.mem = true) :
    OutWf (execJmp a0 s) := by
  unfold execJmp
  repeat' first
    | with_reducible assumption
    | intro _
    | with_reducible apply uniform_wf
    | with_reducible apply State.goChecked_wf

theorem execCallLabel_wf {s : State} {a0} (hs : Memory.wf s.mem = true) :
    OutWf (execCallLabel a0 s) := by
  unfold execCallLabel
  repeat' first
    | with_reducible assumption
    | intro _
    | with_reducible apply uniform_wf
    | with_reducible apply State.goChecked_wf

theorem execCallReg_wf {s : State} {a0} (hs : Memory.wf s.mem = true) :
    OutWf (execCallReg a0 s) := by
  unfold execCallReg
  repeat' first
    | with_reducible assumption
    | intro _
    | with_reducible apply uniform_wf
    | with_reducible apply State.goChecked_wf

theorem execRet_wf {s : State} {a0} (hs : Memory.wf s.mem = true) :
    OutWf (execRet a0 s) := by
  unfold execRet
  repeat' first
    | with_reducible assumption
    | intro _
    | with_reducible apply uniform_wf
    | with_reducible apply State.goChecked_wf

theorem execLand_wf {s : State} {a0} (hs : Memory.wf s.mem = true) :
    OutWf (execLand a0 s) := by
  unfold execLand
  repeat' first
    | with_reducible assumption
    | intro _
    | with_reducible apply uniform_wf
    | with_reducible apply State.retire_wf

theorem execNop_wf {s : State} {a0} (hs : Memory.wf s.mem = true) :
    OutWf (execNop a0 s) := by
  unfold execNop
  repeat' first
    | with_reducible assumption
    | intro _
    | with_reducible apply uniform_wf
    | with_reducible apply State.retire_wf

theorem execFill_wf {s : State} (hs : Memory.wf s.mem = true) :
    OutWf (execFill s) := by
  unfold execFill
  repeat' first
    | with_reducible assumption
    | intro _
    | with_reducible apply withCur_wf
    | with_reducible apply State.retire_wf

theorem execBrv_wf {s : State} {a0} (hs : Memory.wf s.mem = true) :
    OutWf (execBrv a0 s) := by
  unfold execBrv
  repeat' first
    | with_reducible assumption
    | (intro u; clear_value u)
    | intro _
    | with_reducible apply withCur_wf
    | with_reducible apply State.retire_wf
    | with_reducible apply State.transfer_wf
    | with_reducible apply State.split_wf
    | split
    | lift_lets

theorem execJmpv_wf {s : State} {a0} (hs : Memory.wf s.mem = true) :
    OutWf (execJmpv a0 s) := by
  unfold execJmpv
  repeat' first
    | with_reducible assumption
    | (intro u; clear_value u)
    | intro _
    | with_reducible apply withCur_wf
    | with_reducible apply State.retire_wf
    | with_reducible apply State.targets_wf
    | with_reducible apply State.block_wf
    | with_reducible apply State.freeze_wf
    | with_reducible apply State.trapMask_wf
    | with_reducible apply State.transfer_wf
    | with_reducible apply State.split_wf
    | (apply wf_tgtWait; (focus with_reducible assumption))
    | (apply wf_tgtTrap; (focus with_reducible assumption))
    | split
    | lift_lets

theorem execYield_wf {s : State} {a0} (hs : Memory.wf s.mem = true) :
    OutWf (execYield a0 s) := by
  unfold execYield
  repeat' first
    | with_reducible assumption
    | (intro u; clear_value u)
    | intro _
    | with_reducible apply withCur_wf
    | with_reducible apply State.illop_wf
    | with_reducible apply State.retire_wf
    | with_reducible apply State.block_wf
    | with_reducible apply State.trapAfter_wf
    | with_reducible apply State.setGrp_wf
    | with_reducible apply State.tickFree_wf
    | split
    | lift_lets

theorem execExit_wf {s : State} {a0} (hs : Memory.wf s.mem = true) :
    OutWf (execExit a0 s) := by
  unfold execExit
  repeat' first
    | with_reducible assumption
    | (intro u; clear_value u)
    | intro _
    | with_reducible apply uniform_wf
    | with_reducible apply State.endGroup_wf
    | with_reducible apply State.setGrp_wf
    | with_reducible apply State.retire_wf
    | split
    | lift_lets

theorem execElect_wf {s : State} {a0} (hs : Memory.wf s.mem = true) :
    OutWf (execElect a0 s) := by
  unfold execElect
  repeat' first
    | with_reducible assumption
    | intro _
    | with_reducible apply uniform_wf
    | with_reducible apply State.retire_wf

theorem execExmrd_wf {s : State} {a0} (hs : Memory.wf s.mem = true) :
    OutWf (execExmrd a0 s) := by
  unfold execExmrd
  repeat' first
    | with_reducible assumption
    | intro _
    | with_reducible apply uniform_wf
    | with_reducible apply State.retire_wf

theorem execExmrdOwn_wf {s : State} {a0} (hs : Memory.wf s.mem = true) :
    OutWf (execExmrdOwn a0 s) := by
  unfold execExmrdOwn
  repeat' first
    | with_reducible assumption
    | intro _
    | with_reducible apply uniform_wf
    | with_reducible apply State.retire_wf

theorem execExmwr_wf {s : State} {a0} (hs : Memory.wf s.mem = true) :
    OutWf (execExmwr a0 s) := by
  unfold execExmwr
  repeat' first
    | with_reducible assumption
    | with_reducible apply exmWrite_wf

theorem execExmwrAnd_wf {s : State} {a0} (hs : Memory.wf s.mem = true) :
    OutWf (execExmwrAnd a0 s) := by
  unfold execExmwrAnd
  repeat' first
    | with_reducible assumption
    | with_reducible apply exmWrite_wf

theorem execExmwrOr_wf {s : State} {a0} (hs : Memory.wf s.mem = true) :
    OutWf (execExmwrOr a0 s) := by
  unfold execExmwrOr
  repeat' first
    | with_reducible assumption
    | with_reducible apply exmWrite_wf

theorem execRegroup_wf {s : State} {a0} (hs : Memory.wf s.mem = true) :
    OutWf (execRegroup a0 s) := by
  unfold execRegroup
  repeat' first
    | with_reducible assumption
    | intro _
    | with_reducible apply uniform_wf
    | with_reducible apply State.illop_wf
    | with_reducible apply State.preemptWait_wf
    | with_reducible apply State.rendArrive_wf
    | with_reducible apply State.block_wf
    | split

theorem execCvt_wf {s : State} {a0} (hs : Memory.wf s.mem = true) :
    OutWf (execCvt a0 s) := by
  unfold execCvt
  repeat' first
    | with_reducible assumption
    | (intro u; clear_value u)
    | intro _
    | with_reducible apply withCur_wf
    | with_reducible apply State.trapMask_wf
    | with_reducible apply State.result_wf
    | split
    | lift_lets

theorem execPack_wf {s : State} {a0} (hs : Memory.wf s.mem = true) :
    OutWf (execPack a0 s) := by
  unfold execPack
  repeat' first
    | with_reducible assumption
    | with_reducible apply plainVec_wf

theorem execUnpack_wf {s : State} {a0} (hs : Memory.wf s.mem = true) :
    OutWf (execUnpack a0 s) := by
  unfold execUnpack
  repeat' first
    | with_reducible assumption
    | with_reducible apply unpackForm_wf

theorem execUnpackHi_wf {s : State} {a0} (hs : Memory.wf s.mem = true) :
    OutWf (execUnpackHi a0 s) := by
  unfold execUnpackHi
  repeat' first
    | with_reducible assumption
    | with_reducible apply unpackForm_wf

theorem execQmx_wf {s : State} {a0} (hs : Memory.wf s.mem = true) :
    OutWf (execQmx a0 s) := by
  unfold execQmx
  repeat' first
    | with_reducible assumption
    | (intro u; clear_value u)
    | intro _
    | with_reducible apply withCur_wf
    | with_reducible apply State.trapMask_wf
    | with_reducible apply State.result_wf
    | split
    | lift_lets

theorem execDqmx_wf {s : State} {a0} (hs : Memory.wf s.mem = true) :
    OutWf (execDqmx a0 s) := by
  unfold execDqmx
  repeat' first
    | with_reducible assumption
    | (intro u; clear_value u)
    | intro _
    | with_reducible apply withCur_wf
    | with_reducible apply State.trapMask_wf
    | with_reducible apply State.result_wf
    | split
    | lift_lets

theorem execMstat_wf {s : State} {a0} (hs : Memory.wf s.mem = true) :
    OutWf (execMstat a0 s) := by
  unfold execMstat
  repeat' first
    | with_reducible assumption
    | intro _
    | with_reducible apply uniform_wf
    | with_reducible apply State.retire_wf

theorem execMppt_wf {s : State} {a0} (hs : Memory.wf s.mem = true) :
    OutWf (execMppt a0 s) := by
  unfold execMppt
  repeat' first
    | with_reducible assumption
    | (intro u; clear_value u)
    | intro _
    | with_reducible apply matForm_wf
    | with_reducible apply State.freeze_wf
    | with_reducible apply State.trapHere_wf
    | with_reducible apply State.ifRanges_wf
    | with_reducible apply State.issueMat_wf
    | split
    | lift_lets

theorem execMcfg_wf {s : State} {a0} (hs : Memory.wf s.mem = true) :
    OutWf (execMcfg a0 s) := by
  unfold execMcfg
  repeat' first
    | with_reducible assumption
    | (intro u; clear_value u)
    | intro _
    | with_reducible apply matForm_wf
    | with_reducible apply State.issueMat_wf
    | with_reducible apply State.trapMatrix_wf
    | split
    | lift_lets

theorem execMadmit_wf {s : State} {a0} (hs : Memory.wf s.mem = true) :
    OutWf (execMadmit a0 s) := by
  unfold execMadmit
  repeat' first
    | with_reducible assumption
    | (intro u; clear_value u)
    | intro _
    | with_reducible apply matForm_wf
    | with_reducible apply State.freeze_wf
    | with_reducible apply State.trapMatrix_wf
    | with_reducible apply State.trapHere_wf
    | with_reducible apply State.ifRanges_wf
    | with_reducible apply State.issueMat_wf
    | split
    | lift_lets

theorem execMrelease_wf {s : State} {a0} (hs : Memory.wf s.mem = true) :
    OutWf (execMrelease a0 s) := by
  unfold execMrelease
  repeat' first
    | with_reducible assumption
    | intro _
    | with_reducible apply matForm_wf
    | with_reducible apply State.issueMat_wf
    | with_reducible apply State.trapMatrix_wf
    | split

theorem execMstest_wf {s : State} {a0} (hs : Memory.wf s.mem = true) :
    OutWf (execMstest a0 s) := by
  unfold execMstest
  repeat' first
    | with_reducible assumption
    | intro _
    | with_reducible apply matForm_wf
    | with_reducible apply State.issueMat_wf
    | with_reducible apply State.trapMatrix_wf
    | split

theorem execMloop_wf {s : State} {a0} (hs : Memory.wf s.mem = true) :
    OutWf (execMloop a0 s) := by
  unfold execMloop
  repeat' first
    | with_reducible assumption
    | (intro u; clear_value u)
    | intro _
    | with_reducible apply matForm_wf
    | with_reducible apply State.freeze_wf
    | with_reducible apply State.trapMatrix_wf
    | with_reducible apply State.trapHere_wf
    | with_reducible apply State.ifRanges_wf
    | with_reducible apply State.issueMat_wf
    | split
    | lift_lets

theorem execMaclr_wf {s : State} {a0} (hs : Memory.wf s.mem = true) :
    OutWf (execMaclr a0 s) := by
  unfold execMaclr
  repeat' first
    | with_reducible assumption
    | (intro u; clear_value u)
    | intro _
    | with_reducible apply matForm_wf
    | with_reducible apply State.issueMat_wf
    | with_reducible apply State.trapMatrix_wf
    | split
    | lift_lets

theorem execMamovCpy_wf {s : State} {a0} (hs : Memory.wf s.mem = true) :
    OutWf (execMamovCpy a0 s) := by
  unfold execMamovCpy
  repeat' first
    | with_reducible assumption
    | with_reducible apply mamovForm_wf

theorem execMamovAdd_wf {s : State} {a0} (hs : Memory.wf s.mem = true) :
    OutWf (execMamovAdd a0 s) := by
  unfold execMamovAdd
  repeat' first
    | with_reducible assumption
    | with_reducible apply mamovForm_wf

theorem execMaload_wf {s : State} {a0} (hs : Memory.wf s.mem = true) :
    OutWf (execMaload a0 s) := by
  unfold execMaload
  repeat' first
    | with_reducible assumption
    | intro _
    | with_reducible apply imageForm_wf
    | with_reducible apply State.issueMat_wf

theorem execMastore_wf {s : State} {a0} (hs : Memory.wf s.mem = true) :
    OutWf (execMastore a0 s) := by
  unfold execMastore
  repeat' first
    | with_reducible assumption
    | intro _
    | with_reducible apply imageForm_wf
    | with_reducible apply State.issueMat_wf

theorem execMprogRd_wf {s : State} {a0} (hs : Memory.wf s.mem = true) :
    OutWf (execMprogRd a0 s) := by
  unfold execMprogRd
  repeat' first
    | with_reducible assumption
    | intro _
    | with_reducible apply uniform_wf
    | with_reducible apply State.privTrap_wf
    | with_reducible apply State.block_wf
    | with_reducible apply State.retire_wf
    | split

theorem execMprogWr_wf {s : State} {a0} (hs : Memory.wf s.mem = true) :
    OutWf (execMprogWr a0 s) := by
  unfold execMprogWr
  repeat' first
    | with_reducible assumption
    | intro _
    | with_reducible apply uniform_wf
    | with_reducible apply State.privTrap_wf
    | with_reducible apply State.block_wf
    | with_reducible apply State.retire_wf
    | split

theorem execRd_wf {s : State} {a0} (hs : Memory.wf s.mem = true) :
    OutWf (execRd a0 s) := by
  unfold execRd
  repeat' first
    | with_reducible assumption
    | with_reducible apply State.reqArrives_wf
    | with_reducible apply OutWf.next

theorem execWr_wf {s : State} {a0} (hs : Memory.wf s.mem = true) :
    OutWf (execWr a0 s) := by
  unfold execWr
  repeat' first
    | with_reducible assumption
    | with_reducible apply State.reqArrives_wf
    | with_reducible apply OutWf.next

theorem execAtq_wf {s : State} {a0} (hs : Memory.wf s.mem = true) :
    OutWf (execAtq a0 s) := by
  unfold execAtq
  repeat' first
    | with_reducible assumption
    | with_reducible apply State.reqArrives_wf
    | with_reducible apply OutWf.next

theorem execAtr_wf {s : State} {a0} (hs : Memory.wf s.mem = true) :
    OutWf (execAtr a0 s) := by
  unfold execAtr
  repeat' first
    | with_reducible assumption
    | with_reducible apply State.reqArrives_wf
    | with_reducible apply OutWf.next

theorem execScr_wf {s : State} {a0} (hs : Memory.wf s.mem = true) :
    OutWf (execScr a0 s) := by
  unfold execScr
  repeat' first
    | with_reducible assumption
    | (intro t ht; have _ : Memory.wf (State.mem t) = true := ht)
    | with_reducible apply State.scArrives_wf
    | with_reducible apply State.poolRead_wf
    | with_reducible apply OutWf.next

theorem execScw_wf {s : State} {a0} (hs : Memory.wf s.mem = true) :
    OutWf (execScw a0 s) := by
  unfold execScw
  repeat' first
    | with_reducible assumption
    | (intro t ht; have _ : Memory.wf (State.mem t) = true := ht)
    | with_reducible apply State.scArrives_wf
    | with_reducible apply State.poolWrite_wf
    | with_reducible apply OutWf.next

theorem execInv_wf {s : State} {a0 a1 a2} (hs : Memory.wf s.mem = true) :
    OutWf (execInv a0 a1 a2 s) := by
  unfold execInv
  repeat' first
    | with_reducible assumption
    | with_reducible apply State.discard_wf
    | with_reducible apply State.invalidate_wf
    | split
    | with_reducible apply OutWf.next

theorem execInvack_wf {s : State} {a0} (hs : Memory.wf s.mem = true) :
    OutWf (execInvack a0 s) := by
  unfold execInvack
  repeat' first
    | with_reducible assumption
    | with_reducible apply State.discard_wf
    | with_reducible apply State.invAcked_wf
    | split
    | with_reducible apply OutWf.next

theorem execSigUpd_wf {s : State} {a0 a1} (hs : Memory.wf s.mem = true) :
    OutWf (execSigUpd a0 a1 s) := by
  unfold execSigUpd
  repeat' first
    | with_reducible assumption
    | with_reducible apply State.discard_wf
    | with_reducible apply State.post_wf
    | with_reducible apply State.reqArrives_wf
    | split
    | with_reducible apply OutWf.next

theorem execPageWalkComplete_wf {s : State} {a0} (hs : Memory.wf s.mem = true) :
    OutWf (execPageWalkComplete a0 s) := by
  unfold execPageWalkComplete
  repeat' first
    | with_reducible assumption
    | with_reducible apply State.walkDone_wf
    | with_reducible apply OutWf.next

theorem execHbmFill_wf {s : State} {a0 a1} (hs : Memory.wf s.mem = true) :
    OutWf (execHbmFill a0 a1 s) := by
  unfold execHbmFill
  repeat' first
    | with_reducible assumption
    | with_reducible apply State.filled_wf
    | with_reducible apply OutWf.next

theorem execConflictQueueRelease_wf {s : State} {a0} (hs : Memory.wf s.mem = true) :
    OutWf (execConflictQueueRelease a0 s) := by
  unfold execConflictQueueRelease
  repeat' first
    | with_reducible assumption
    | with_reducible apply State.drainConfl_wf
    | with_reducible apply OutWf.next

theorem execClass0BudgetGain_wf {s : State} (hs : Memory.wf s.mem = true) :
    OutWf (execClass0BudgetGain s) := by
  unfold execClass0BudgetGain
  repeat' first
    | with_reducible assumption
    | with_reducible apply State.budgetGain_wf
    | with_reducible apply OutWf.next

theorem execDataRsp_wf {s : State} {a0 a1} (hs : Memory.wf s.mem = true) :
    OutWf (execDataRsp a0 a1 s) := by
  unfold execDataRsp
  repeat' first
    | with_reducible assumption
    | (intro u; refine imp_elim (a := Memory.wf (State.mem u) = true) ?_ (fun hu => ?_); rotate_left; (try clear_value u); rotate_right)
    | with_reducible apply State.discard_wf
    | with_reducible apply State.rdcFill_wf
    | with_reducible apply State.grpAnswer_wf
    | with_reducible apply State.engData_wf
    | with_reducible apply State.prefData_wf
    | split
    | lift_lets
    | with_reducible apply OutWf.next

theorem execAck_wf {s : State} {a0 a1} (hs : Memory.wf s.mem = true) :
    OutWf (execAck a0 a1 s) := by
  unfold execAck
  repeat' first
    | with_reducible assumption
    | with_reducible apply State.discard_wf
    | with_reducible apply State.grpAck_wf
    | with_reducible apply State.checkMoved_wf
    | with_reducible apply State.modOp_wf
    | with_reducible apply State.peerAnswered_wf
    | split
    | with_reducible apply OutWf.next

theorem execNack_wf {s : State} {a0 a1} (hs : Memory.wf s.mem = true) :
    OutWf (execNack a0 a1 s) := by
  unfold execNack
  repeat' first
    | with_reducible assumption
    | with_reducible apply State.discard_wf
    | with_reducible apply State.grpNack_wf
    | with_reducible apply State.engNack_wf
    | with_reducible apply State.peerAnswered_wf
    | split
    | with_reducible apply OutWf.next

theorem execLoadDataReturn_wf {s : State} {a0 a1} (hs : Memory.wf s.mem = true) :
    OutWf (execLoadDataReturn a0 a1 s) := by
  unfold execLoadDataReturn
  repeat' first
    | with_reducible assumption
    | with_reducible apply State.ownPart_wf
    | with_reducible apply OutWf.next

theorem execStoreAck_wf {s : State} {a0 a1} (hs : Memory.wf s.mem = true) :
    OutWf (execStoreAck a0 a1 s) := by
  unfold execStoreAck
  repeat' first
    | with_reducible assumption
    | with_reducible apply State.ownPart_wf
    | with_reducible apply OutWf.next

theorem execPooledAccessRelease_wf {s : State} {a0} (hs : Memory.wf s.mem = true) :
    OutWf (execPooledAccessRelease a0 s) := by
  unfold execPooledAccessRelease
  repeat' first
    | with_reducible assumption
    | with_reducible apply State.wake_wf
    | with_reducible apply OutWf.next

theorem execSigwaitReread_wf {s : State} {a0} (hs : Memory.wf s.mem = true) :
    OutWf (execSigwaitReread a0 s) := by
  unfold execSigwaitReread
  repeat' first
    | with_reducible assumption
    | with_reducible apply State.sigReread_wf
    | with_reducible apply OutWf.next

theorem execHandleAdmit_wf {s : State} {a0 a1} (hs : Memory.wf s.mem = true) :
    OutWf (execHandleAdmit a0 a1 s) := by
  unfold execHandleAdmit
  repeat' first
    | with_reducible assumption
    | with_reducible apply State.hndAdmit_wf
    | with_reducible apply OutWf.next

theorem execAsyncOpComplete_wf {s : State} {a0} (hs : Memory.wf s.mem = true) :
    OutWf (execAsyncOpComplete a0 s) := by
  unfold execAsyncOpComplete
  repeat' first
    | with_reducible assumption
    | with_reducible apply State.opDone_wf
    | with_reducible apply OutWf.next

theorem execMadmitAccept_wf {s : State} {a0} (hs : Memory.wf s.mem = true) :
    OutWf (execMadmitAccept a0 s) := by
  unfold execMadmitAccept
  repeat' first
    | with_reducible assumption
    | with_reducible apply State.acceptNow_wf
    | with_reducible apply OutWf.next

theorem execMadmitComplete_wf {s : State} {a0} (hs : Memory.wf s.mem = true) :
    OutWf (execMadmitComplete a0 s) := by
  unfold execMadmitComplete
  repeat' first
    | with_reducible assumption
    | with_reducible apply State.admitDone_wf
    | with_reducible apply OutWf.next

theorem execMreleaseComplete_wf {s : State} {a0} (hs : Memory.wf s.mem = true) :
    OutWf (execMreleaseComplete a0 s) := by
  unfold execMreleaseComplete
  repeat' first
    | with_reducible assumption
    | with_reducible apply State.releaseDone_wf
    | with_reducible apply OutWf.next

theorem execMastoreAccept_wf {s : State} {a0} (hs : Memory.wf s.mem = true) :
    OutWf (execMastoreAccept a0 s) := by
  unfold execMastoreAccept
  repeat' first
    | with_reducible assumption
    | with_reducible apply State.acceptNow_wf
    | with_reducible apply OutWf.next

theorem execMloopAccept_wf {s : State} {a0} (hs : Memory.wf s.mem = true) :
    OutWf (execMloopAccept a0 s) := by
  unfold execMloopAccept
  repeat' first
    | with_reducible assumption
    | with_reducible apply State.acceptNow_wf
    | with_reducible apply OutWf.next

theorem execMloopStep_wf {s : State} {a0} (hs : Memory.wf s.mem = true) :
    OutWf (execMloopStep a0 s) := by
  unfold execMloopStep
  repeat' first
    | with_reducible assumption
    | with_reducible apply State.loopRow_wf
    | with_reducible apply OutWf.next

theorem execMloopComplete_wf {s : State} {a0} (hs : Memory.wf s.mem = true) :
    OutWf (execMloopComplete a0 s) := by
  unfold execMloopComplete
  repeat' first
    | with_reducible assumption
    | with_reducible apply State.matGone_wf
    | with_reducible apply OutWf.next

theorem execMpptTakeEffect_wf {s : State} {a0} (hs : Memory.wf s.mem = true) :
    OutWf (execMpptTakeEffect a0 s) := by
  unfold execMpptTakeEffect
  repeat' first
    | with_reducible assumption
    | with_reducible apply State.opDone_wf
    | split
    | with_reducible apply OutWf.next

theorem execSelfTest_wf {s : State} {a0} (hs : Memory.wf s.mem = true) :
    OutWf (execSelfTest a0 s) := by
  unfold execSelfTest
  repeat' first
    | with_reducible assumption
    | with_reducible apply State.endTest_wf
    | with_reducible apply State.startTest_wf
    | split
    | with_reducible apply OutWf.next

theorem execAgonAccept_wf {s : State} {a0} (hs : Memory.wf s.mem = true) :
    OutWf (execAgonAccept a0 s) := by
  unfold execAgonAccept
  repeat' first
    | with_reducible assumption
    | with_reducible apply State.agNow_wf
    | with_reducible apply OutWf.next

theorem execAgonWritebackDone_wf {s : State} {a0} (hs : Memory.wf s.mem = true) :
    OutWf (execAgonWritebackDone a0 s) := by
  unfold execAgonWritebackDone
  repeat' first
    | with_reducible assumption
    | with_reducible apply State.agonWritten_wf
    | with_reducible apply OutWf.next

theorem execAgonComplete_wf {s : State} {a0} (hs : Memory.wf s.mem = true) :
    OutWf (execAgonComplete a0 s) := by
  unfold execAgonComplete
  repeat' first
    | with_reducible assumption
    | with_reducible apply State.agonDone_wf
    | with_reducible apply OutWf.next

theorem execAgoffAccept_wf {s : State} {a0} (hs : Memory.wf s.mem = true) :
    OutWf (execAgoffAccept a0 s) := by
  unfold execAgoffAccept
  repeat' first
    | with_reducible assumption
    | with_reducible apply State.agNow_wf
    | with_reducible apply OutWf.next

theorem execAgoffDrainDone_wf {s : State} {a0} (hs : Memory.wf s.mem = true) :
    OutWf (execAgoffDrainDone a0 s) := by
  unfold execAgoffDrainDone
  repeat' first
    | with_reducible assumption
    | with_reducible apply State.agoffDrained_wf
    | with_reducible apply OutWf.next

theorem execAgoffComplete_wf {s : State} {a0} (hs : Memory.wf s.mem = true) :
    OutWf (execAgoffComplete a0 s) := by
  unfold execAgoffComplete
  repeat' first
    | with_reducible assumption
    | with_reducible apply State.agoffDone_wf
    | with_reducible apply OutWf.next

theorem execAgateCommandAccept_wf {s : State} {a0} (hs : Memory.wf s.mem = true) :
    OutWf (execAgateCommandAccept a0 s) := by
  unfold execAgateCommandAccept
  repeat' first
    | with_reducible assumption
    | with_reducible apply State.agBegin_wf
    | with_reducible apply OutWf.next

theorem execAgateCommandComplete_wf {s : State} {a0} (hs : Memory.wf s.mem = true) :
    OutWf (execAgateCommandComplete a0 s) := by
  unfold execAgateCommandComplete
  repeat' first
    | with_reducible assumption
    | with_reducible apply State.agComplete_wf
    | with_reducible apply OutWf.next

theorem execWeltArrival_wf {s : State} {a0} (hs : Memory.wf s.mem = true) :
    OutWf (execWeltArrival a0 s) := by
  unfold execWeltArrival
  repeat' first
    | with_reducible assumption
    | with_reducible apply State.weltArrive_wf
    | with_reducible apply OutWf.next

theorem execWeltRelease_wf {s : State} {a0} (hs : Memory.wf s.mem = true) :
    OutWf (execWeltRelease a0 s) := by
  unfold execWeltRelease
  repeat' first
    | with_reducible assumption
    | with_reducible apply State.weltReleased_wf
    | with_reducible apply OutWf.next

theorem execWbar_wf {s : State} {a0} (hs : Memory.wf s.mem = true) :
    OutWf (execWbar a0 s) := by
  unfold execWbar
  repeat' first
    | with_reducible assumption
    | intro _
    | with_reducible apply weltForm_wf
    | with_reducible apply State.warrGo_wf
    | with_reducible apply State.countEvent_wf
    | with_reducible apply State.retire_wf

theorem execWbcast_wf {s : State} {a0} (hs : Memory.wf s.mem = true) :
    OutWf (execWbcast a0 s) := by
  unfold execWbcast
  repeat' first
    | with_reducible assumption
    | intro _
    | with_reducible apply weltForm_wf
    | with_reducible apply State.weltSend_wf

theorem execWred_wf {s : State} {a0} (hs : Memory.wf s.mem = true) :
    OutWf (execWred a0 s) := by
  unfold execWred
  repeat' first
    | with_reducible assumption
    | intro _
    | with_reducible apply weltForm_wf
    | with_reducible apply State.weltSend_wf

theorem execWwait_wf {s : State} {a0} (hs : Memory.wf s.mem = true) :
    OutWf (execWwait a0 s) := by
  unfold execWwait
  repeat' first
    | with_reducible assumption
    | (intro u; clear_value u)
    | intro _
    | with_reducible apply weltForm_wf
    | with_reducible apply State.block_wf
    | with_reducible apply State.fenced_wf
    | split
    | lift_lets

theorem execWrecvB_wf {s : State} {a0} (hs : Memory.wf s.mem = true) :
    OutWf (execWrecvB a0 s) := by
  unfold execWrecvB
  repeat' first
    | with_reducible assumption
    | with_reducible apply wrecvForm_wf

theorem execWrecvR_wf {s : State} {a0} (hs : Memory.wf s.mem = true) :
    OutWf (execWrecvR a0 s) := by
  unfold execWrecvR
  repeat' first
    | with_reducible assumption
    | with_reducible apply wrecvForm_wf

theorem execWtick_wf {s : State} {a0} (hs : Memory.wf s.mem = true) :
    OutWf (execWtick a0 s) := by
  unfold execWtick
  repeat' first
    | with_reducible assumption
    | intro _
    | with_reducible apply uniform_wf
    | with_reducible apply State.retire_wf

theorem execWeltPartitionGrant_wf {s : State} {a0 a1 a2} (hs : Memory.wf s.mem = true) :
    OutWf (execWeltPartitionGrant a0 a1 a2 s) := by
  unfold execWeltPartitionGrant
  repeat' first
    | with_reducible assumption
    | with_reducible apply State.partGrant_wf
    | with_reducible apply OutWf.next

theorem execPreemptRequest_wf {s : State} {a0 a1 a2} (hs : Memory.wf s.mem = true) :
    OutWf (execPreemptRequest a0 a1 a2 s) := by
  unfold execPreemptRequest
  repeat' first
    | with_reducible assumption
    | with_reducible apply State.preqArrives_wf
    | with_reducible apply OutWf.next

theorem execPreqRaise_wf {s : State} {a0 a1} (hs : Memory.wf s.mem = true) :
    OutWf (execPreqRaise a0 a1 s) := by
  unfold execPreqRaise
  repeat' first
    | with_reducible assumption
    | with_reducible apply State.preq_wf
    | with_reducible apply OutWf.next

theorem execPreqCancel_wf {s : State} {a0 a1} (hs : Memory.wf s.mem = true) :
    OutWf (execPreqCancel a0 a1 s) := by
  unfold execPreqCancel
  repeat' first
    | with_reducible assumption
    | with_reducible apply State.preq_wf
    | with_reducible apply OutWf.next

theorem execTickLoad_wf {s : State} {a0} (hs : Memory.wf s.mem = true) :
    OutWf (execTickLoad a0 s) := by
  unfold execTickLoad
  repeat' first
    | with_reducible assumption
    | with_reducible apply State.weltError_wf
    | split
    | with_reducible apply OutWf.next

theorem execTickCheck_wf {s : State} {a0} (hs : Memory.wf s.mem = true) :
    OutWf (execTickCheck a0 s) := by
  unfold execTickCheck
  repeat' first
    | with_reducible assumption
    | with_reducible apply State.weltError_wf
    | split
    | with_reducible apply OutWf.next

theorem execResultWriteback_wf {s : State} {a0 a1} (hs : Memory.wf s.mem = true) :
    OutWf (execResultWriteback a0 a1 s) := by
  unfold execResultWriteback
  repeat' first
    | with_reducible assumption
    | with_reducible apply State.writeback_wf
    | with_reducible apply OutWf.next

theorem execIfetchFill_wf {s : State} {a0 a1 a2} (hs : Memory.wf s.mem = true) :
    OutWf (execIfetchFill a0 a1 a2 s) := by
  unfold execIfetchFill
  repeat' first
    | with_reducible assumption
    | (intro u; refine imp_elim (a := Memory.wf (State.mem u) = true) ?_ (fun hu => ?_); rotate_left; (try clear_value u); rotate_right)
    | with_reducible apply State.fetchFill_wf
    | with_reducible apply State.wake_wf
    | with_reducible refine wf_foldl ?_ (fun _ _ _ => ?_)
    | split
    | lift_lets
    | with_reducible apply OutWf.next

theorem execReconverge_wf {s : State} {a0} (hs : Memory.wf s.mem = true) :
    OutWf (execReconverge a0 s) := by
  unfold execReconverge
  repeat' first
    | with_reducible assumption
    | with_reducible apply State.checkJoin_wf
    | with_reducible apply OutWf.next

theorem execRegroupFuse_wf {s : State} {a0 a1} (hs : Memory.wf s.mem = true) :
    OutWf (execRegroupFuse a0 a1 s) := by
  unfold execRegroupFuse
  repeat' first
    | with_reducible assumption
    | with_reducible apply State.fuse_wf
    | split
    | with_reducible apply OutWf.next

theorem execRegroupRelease_wf {s : State} {a0} (hs : Memory.wf s.mem = true) :
    OutWf (execRegroupRelease a0 s) := by
  unfold execRegroupRelease
  repeat' first
    | with_reducible assumption
    | with_reducible apply State.regroupDone_wf
    | split
    | with_reducible apply OutWf.next

theorem execTrapEntry_wf {s : State} {a0} (hs : Memory.wf s.mem = true) :
    OutWf (execTrapEntry a0 s) := by
  unfold execTrapEntry
  repeat' first
    | with_reducible assumption
    | with_reducible apply State.settle_wf
    | with_reducible apply OutWf.next

theorem execWatchdogExpiry_wf {s : State} {a0} (hs : Memory.wf s.mem = true) :
    OutWf (execWatchdogExpiry a0 s) := by
  unfold execWatchdogExpiry
  repeat' first
    | with_reducible assumption
    | with_reducible apply State.watchdog_wf
    | with_reducible apply OutWf.next

theorem execSchedulerSwap_wf {s : State} {a0 a1} (hs : Memory.wf s.mem = true) :
    OutWf (execSchedulerSwap a0 a1 s) := by
  unfold execSchedulerSwap
  repeat' first
    | with_reducible assumption
    | with_reducible apply State.swapSched_wf
    | with_reducible apply OutWf.next

theorem execActivePositionFill_wf {s : State} {a0 a1} (hs : Memory.wf s.mem = true) :
    OutWf (execActivePositionFill a0 a1 s) := by
  unfold execActivePositionFill
  repeat' first
    | with_reducible assumption
    | with_reducible apply State.fillActive_wf
    | with_reducible apply OutWf.next

theorem execPreemptWaitExit_wf {s : State} {a0} (hs : Memory.wf s.mem = true) :
    OutWf (execPreemptWaitExit a0 s) := by
  unfold execPreemptWaitExit
  repeat' first
    | with_reducible assumption
    | with_reducible apply State.preemptWait_wf
    | with_reducible apply OutWf.next

theorem execIssueCounters_wf {s : State} (hs : Memory.wf s.mem = true) :
    OutWf (execIssueCounters s) := by
  unfold execIssueCounters
  repeat' first
    | with_reducible assumption
    | with_reducible apply State.countAll_wf
    | with_reducible apply OutWf.next

theorem execBlockEnd_wf {s : State} {a0} (hs : Memory.wf s.mem = true) :
    OutWf (execBlockEnd a0 s) := by
  unfold execBlockEnd
  repeat' first
    | with_reducible assumption
    | with_reducible apply State.checkBlock_wf
    | with_reducible apply OutWf.next

theorem execGateRelease_wf {s : State} {a0 a1} (hs : Memory.wf s.mem = true) :
    OutWf (execGateRelease a0 a1 s) := by
  unfold execGateRelease
  repeat' first
    | with_reducible assumption
    | with_reducible apply State.releaseGate_wf
    | with_reducible apply OutWf.next

theorem execGgateCrossDie_wf {s : State} {a0} (hs : Memory.wf s.mem = true) :
    OutWf (execGgateCrossDie a0 s) := by
  unfold execGgateCrossDie
  repeat' first
    | with_reducible assumption
    | with_reducible apply State.closeGang_wf
    | with_reducible apply OutWf.next

theorem execGgateRelease_wf {s : State} {a0} (hs : Memory.wf s.mem = true) :
    OutWf (execGgateRelease a0 s) := by
  unfold execGgateRelease
  repeat' first
    | with_reducible assumption
    | with_reducible apply State.releaseGang_wf
    | with_reducible apply OutWf.next

theorem execTailRegisterWrite_wf {s : State} {a0 a1 a2} (hs : Memory.wf s.mem = true) :
    OutWf (execTailRegisterWrite a0 a1 a2 s) := by
  unfold execTailRegisterWrite
  repeat' first
    | with_reducible assumption
    | with_reducible apply State.tailWrite_wf
    | with_reducible apply OutWf.next

theorem execQueueEnable_wf {s : State} {a0 a1} (hs : Memory.wf s.mem = true) :
    OutWf (execQueueEnable a0 a1 s) := by
  unfold execQueueEnable
  repeat' first
    | with_reducible assumption
    | with_reducible apply State.enableQueue_wf
    | with_reducible apply OutWf.next

theorem execQheadWrite_wf {s : State} {a0 a1 a2} (hs : Memory.wf s.mem = true) :
    OutWf (execQheadWrite a0 a1 a2 s) := by
  unfold execQheadWrite
  repeat' first
    | with_reducible assumption
    | with_reducible apply State.headWrite_wf
    | with_reducible apply OutWf.next

theorem execRecordTake_wf {s : State} {a0 a1} (hs : Memory.wf s.mem = true) :
    OutWf (execRecordTake a0 a1 s) := by
  unfold execRecordTake
  repeat' first
    | with_reducible assumption
    | with_reducible apply State.takeRecord_wf
    | with_reducible apply OutWf.next

theorem execDependenceReread_wf {s : State} {a0 a1} (hs : Memory.wf s.mem = true) :
    OutWf (execDependenceReread a0 a1 s) := by
  unfold execDependenceReread
  repeat' first
    | with_reducible assumption
    | with_reducible apply State.rereadDeps_wf
    | with_reducible apply OutWf.next

theorem execWorkingSetPrewalk_wf {s : State} {a0 a1} (hs : Memory.wf s.mem = true) :
    OutWf (execWorkingSetPrewalk a0 a1 s) := by
  unfold execWorkingSetPrewalk
  repeat' first
    | with_reducible assumption
    | with_reducible apply State.prewalk_wf
    | with_reducible apply OutWf.next

theorem execRecordComplete_wf {s : State} {a0} (hs : Memory.wf s.mem = true) :
    OutWf (execRecordComplete a0 s) := by
  unfold execRecordComplete
  repeat' first
    | with_reducible assumption
    | with_reducible apply State.completeRecord_wf
    | split
    | with_reducible apply OutWf.next

theorem execBlockPlace_wf {s : State} {a0} (hs : Memory.wf s.mem = true) :
    OutWf (execBlockPlace a0 s) := by
  unfold execBlockPlace
  repeat' first
    | with_reducible assumption
    | with_reducible apply State.place_wf
    | with_reducible apply OutWf.next

theorem execBlockRestore_wf {s : State} {a0} (hs : Memory.wf s.mem = true) :
    OutWf (execBlockRestore a0 s) := by
  unfold execBlockRestore
  repeat' first
    | with_reducible assumption
    | with_reducible apply State.restoreGang_wf
    | with_reducible refine optwf_findSome (fun _ => ?_)
    | with_reducible apply wf_getD
    | with_reducible apply OutWf.next

theorem execContextEndRecord_wf {s : State} {a0} (hs : Memory.wf s.mem = true) :
    OutWf (execContextEndRecord a0 s) := by
  unfold execContextEndRecord
  repeat' first
    | with_reducible assumption
    | with_reducible apply State.postPlace_wf
    | with_reducible apply State.recordEnd_wf
    | with_reducible apply State.teardown_wf
    | split
    | with_reducible apply OutWf.next

theorem execCtxkill_wf {s : State} {a0 a1} (hs : Memory.wf s.mem = true) :
    OutWf (execCtxkill a0 a1 s) := by
  unfold execCtxkill
  repeat' first
    | with_reducible assumption
    | with_reducible apply State.ctxKill_wf
    | with_reducible apply OutWf.next

theorem execCtxkillRetire_wf {s : State} {a0 a1} (hs : Memory.wf s.mem = true) :
    OutWf (execCtxkillRetire a0 a1 s) := by
  unfold execCtxkillRetire
  repeat' first
    | with_reducible assumption
    | with_reducible apply State.ctxKill_wf
    | with_reducible apply OutWf.next

theorem execXmapServe_wf {s : State} {a0} (hs : Memory.wf s.mem = true) :
    OutWf (execXmapServe a0 s) := by
  unfold execXmapServe
  repeat' first
    | with_reducible assumption
    | with_reducible apply State.xmapServeOne_wf
    | with_reducible apply OutWf.next

theorem execQstop_wf {s : State} {a0 a1} (hs : Memory.wf s.mem = true) :
    OutWf (execQstop a0 a1 s) := by
  unfold execQstop
  repeat' first
    | with_reducible assumption
    | with_reducible apply State.qstopCtx_wf
    | split
    | with_reducible apply OutWf.next

theorem execQstopDone_wf {s : State} {a0} (hs : Memory.wf s.mem = true) :
    OutWf (execQstopDone a0 s) := by
  unfold execQstopDone
  repeat' first
    | with_reducible assumption
    | with_reducible apply State.qstopCheck_wf
    | with_reducible apply OutWf.next

theorem execQrun_wf {s : State} {a0 a1} (hs : Memory.wf s.mem = true) :
    OutWf (execQrun a0 a1 s) := by
  unfold execQrun
  repeat' first
    | with_reducible assumption
    | with_reducible apply State.qrun_wf
    | with_reducible apply OutWf.next

theorem execPowerEstimate_wf {s : State} (hs : Memory.wf s.mem = true) :
    OutWf (execPowerEstimate s) := by
  unfold execPowerEstimate
  repeat' first
    | with_reducible assumption
    | with_reducible apply State.powerEstimate_wf
    | with_reducible apply OutWf.next

theorem execAgeingMonitorRead_wf {s : State} (hs : Memory.wf s.mem = true) :
    OutWf (execAgeingMonitorRead s) := by
  unfold execAgeingMonitorRead
  repeat' first
    | with_reducible assumption
    | with_reducible apply State.ageing_wf
    | with_reducible apply OutWf.next

theorem execGlobalTick_wf {s : State} (hs : Memory.wf s.mem = true) :
    OutWf (execGlobalTick s) := by
  unfold execGlobalTick
  repeat' first
    | with_reducible assumption
    | with_reducible apply State.tickUp_wf
    | with_reducible apply OutWf.next

theorem execTickStop_wf {s : State} (hs : Memory.wf s.mem = true) :
    OutWf (execTickStop s) := by
  unfold execTickStop
  repeat' first
    | with_reducible assumption
    | with_reducible apply State.tickStopNow_wf
    | with_reducible apply OutWf.next

theorem execTraceSample_wf {s : State} {a0} (hs : Memory.wf s.mem = true) :
    OutWf (execTraceSample a0 s) := by
  unfold execTraceSample
  repeat' first
    | with_reducible assumption
    | with_reducible apply State.sampleDie_wf
    | with_reducible apply OutWf.next

theorem execColdReset_wf {s : State} (hs : Memory.wf s.mem = true) :
    OutWf (execColdReset s) := by
  unfold execColdReset
  repeat' first
    | with_reducible assumption
    | with_reducible apply State.coldStart_wf
    | with_reducible apply OutWf.next

theorem execDieAuthentication_wf {s : State} {a0} (hs : Memory.wf s.mem = true) :
    OutWf (execDieAuthentication a0 s) := by
  unfold execDieAuthentication
  repeat' first
    | with_reducible assumption
    | with_reducible apply State.authenticate_wf
    | with_reducible apply OutWf.next

theorem execImageVerify_wf {s : State} {a0} (hs : Memory.wf s.mem = true) :
    OutWf (execImageVerify a0 s) := by
  unfold execImageVerify
  repeat' first
    | with_reducible assumption
    | with_reducible apply State.verifyImage_wf
    | with_reducible apply OutWf.next

theorem execAuthTimeout_wf {s : State} (hs : Memory.wf s.mem = true) :
    OutWf (execAuthTimeout s) := by
  unfold execAuthTimeout
  repeat' first
    | with_reducible assumption
    | with_reducible apply State.closeBoot_wf
    | with_reducible apply OutWf.next

theorem execBootld_wf {s : State} {a0} (hs : Memory.wf s.mem = true) :
    OutWf (execBootld a0 s) := by
  unfold execBootld
  repeat' first
    | with_reducible assumption
    | with_reducible apply State.bootLoad_wf
    | with_reducible apply OutWf.next

theorem execSpdmRequest_wf {s : State} {a0 a1 a2} (hs : Memory.wf s.mem = true) :
    OutWf (execSpdmRequest a0 a1 a2 s) := by
  unfold execSpdmRequest
  repeat' first
    | with_reducible assumption
    | with_reducible apply State.spdm_wf
    | with_reducible apply OutWf.next

theorem execThermalTrip_wf {s : State} (hs : Memory.wf s.mem = true) :
    OutWf (execThermalTrip s) := by
  unfold execThermalTrip
  repeat' first
    | with_reducible assumption
    | with_reducible apply State.thermal_wf
    | with_reducible apply OutWf.next

theorem execFlitReplay_wf {s : State} {a0 a1} (hs : Memory.wf s.mem = true) :
    OutWf (execFlitReplay a0 a1 s) := by
  unfold execFlitReplay
  repeat' first
    | with_reducible assumption
    | with_reducible apply State.replayed_wf
    | with_reducible apply OutWf.next

theorem execLinkRetrain_wf {s : State} {a0 a1} (hs : Memory.wf s.mem = true) :
    OutWf (execLinkRetrain a0 a1 s) := by
  unfold execLinkRetrain
  repeat' first
    | with_reducible assumption
    | with_reducible apply State.retrained_wf
    | with_reducible apply OutWf.next

theorem execClusterReset_wf {s : State} {a0 a1} (hs : Memory.wf s.mem = true) :
    OutWf (execClusterReset a0 a1 s) := by
  unfold execClusterReset
  repeat' first
    | with_reducible assumption
    | with_reducible apply State.clusterReset_wf
    | with_reducible apply OutWf.next

theorem execClusterResetDone_wf {s : State} {a0 a1} (hs : Memory.wf s.mem = true) :
    OutWf (execClusterResetDone a0 a1 s) := by
  unfold execClusterResetDone
  repeat' first
    | with_reducible assumption
    | with_reducible apply State.clusterDone_wf
    | with_reducible apply OutWf.next

theorem execShootdown_wf {s : State} {a0 a1} (hs : Memory.wf s.mem = true) :
    OutWf (execShootdown a0 a1 s) := by
  unfold execShootdown
  repeat' first
    | with_reducible assumption
    | with_reducible apply State.shootdown_wf
    | with_reducible apply OutWf.next

theorem execShootdownDone_wf {s : State} {a0} (hs : Memory.wf s.mem = true) :
    OutWf (execShootdownDone a0 s) := by
  unfold execShootdownDone
  repeat' first
    | with_reducible assumption
    | with_reducible apply State.shootCheck_wf
    | with_reducible apply OutWf.next

theorem execPeerRequest_wf {s : State} {a0} (hs : Memory.wf s.mem = true) :
    OutWf (execPeerRequest a0 s) := by
  unfold execPeerRequest
  repeat' first
    | with_reducible assumption
    | with_reducible apply State.peerArrives_wf
    | with_reducible apply OutWf.next

theorem execPortclr_wf {s : State} {a0 a1} (hs : Memory.wf s.mem = true) :
    OutWf (execPortclr a0 a1 s) := by
  unfold execPortclr
  repeat' first
    | with_reducible assumption
    | with_reducible apply State.portClear_wf
    | with_reducible apply OutWf.next

theorem execTrap_wf {s : State} {a0} (hs : Memory.wf s.mem = true) :
    OutWf (execTrap a0 s) := by
  unfold execTrap
  repeat' first
    | with_reducible assumption
    | intro _
    | with_reducible apply uniform_wf
    | with_reducible apply State.trapAfter_wf

theorem execTret_wf {s : State} {a0} (hs : Memory.wf s.mem = true) :
    OutWf (execTret a0 s) := by
  unfold execTret
  repeat' first
    | with_reducible assumption
    | (intro u; refine imp_elim (a := Memory.wf (State.mem u) = true) ?_ (fun hu => ?_); rotate_left; (try clear_value u); rotate_right)
    | (intro u; clear_value u)
    | intro _
    | with_reducible apply uniform_wf
    | with_reducible apply State.privTrap_wf
    | with_reducible apply State.block_wf
    | with_reducible apply State.trapMatrix_wf
    | with_reducible apply State.setGrp_wf
    | with_reducible apply State.resubmit_wf
    | with_reducible apply State.settle_wf
    | with_reducible apply State.checkJoin_wf
    | split
    | lift_lets
    | dsimp only [u]

theorem execKill_wf {s : State} {a0} (hs : Memory.wf s.mem = true) :
    OutWf (execKill a0 s) := by
  unfold execKill
  repeat' first
    | with_reducible assumption
    | intro _
    | with_reducible apply uniform_wf
    | with_reducible apply State.endCtx_wf

theorem execBrk_wf {s : State} {a0} (hs : Memory.wf s.mem = true) :
    OutWf (execBrk a0 s) := by
  unfold execBrk
  repeat' first
    | with_reducible assumption
    | intro _
    | with_reducible apply uniform_wf
    | with_reducible apply State.trace_wf
    | with_reducible apply State.qstopCtx_wf
    | with_reducible apply State.retire_wf
    | with_reducible apply State.trapAfter_wf
    | split

theorem execPmcrd_wf {s : State} {a0} (hs : Memory.wf s.mem = true) :
    OutWf (execPmcrd a0 s) := by
  unfold execPmcrd
  repeat' first
    | with_reducible assumption
    | intro _
    | with_reducible apply uniform_wf
    | with_reducible apply State.retire_wf

theorem execPmcwr_wf {s : State} {a0} (hs : Memory.wf s.mem = true) :
    OutWf (execPmcwr a0 s) := by
  unfold execPmcwr
  repeat' first
    | with_reducible assumption
    | intro _
    | with_reducible apply uniform_wf
    | with_reducible apply State.retire_wf
    | with_reducible apply State.pmWrite_wf

theorem execSysrd_wf {s : State} {a0} (hs : Memory.wf s.mem = true) :
    OutWf (execSysrd a0 s) := by
  unfold execSysrd
  repeat' first
    | with_reducible assumption
    | (intro u; clear_value u)
    | intro _
    | with_reducible apply withCur_wf
    | with_reducible apply State.illop_wf
    | with_reducible apply State.privTrap_wf
    | with_reducible apply State.retire_wf
    | with_reducible apply State.sysRead_wf
    | split
    | lift_lets

theorem execSyswr_wf {s : State} {a0} (hs : Memory.wf s.mem = true) :
    OutWf (execSyswr a0 s) := by
  unfold execSyswr
  repeat' first
    | with_reducible assumption
    | (intro u; clear_value u)
    | intro _
    | with_reducible apply withCur_wf
    | with_reducible apply State.illop_wf
    | with_reducible apply State.freeze_wf
    | with_reducible apply State.retire_wf
    | with_reducible apply State.sysWrite_wf
    | split
    | lift_lets

theorem execSwparkWrite_wf {s : State} {a0} (hs : Memory.wf s.mem = true) :
    OutWf (execSwparkWrite a0 s) := by
  unfold execSwparkWrite
  repeat' first
    | with_reducible assumption
    | with_reducible apply sysEvent_wf

theorem execSwblkBaseWrite_wf {s : State} {a0} (hs : Memory.wf s.mem = true) :
    OutWf (execSwblkBaseWrite a0 s) := by
  unfold execSwblkBaseWrite
  repeat' first
    | with_reducible assumption
    | with_reducible apply sysEvent_wf

theorem execSwblkGo_wf {s : State} {a0} (hs : Memory.wf s.mem = true) :
    OutWf (execSwblkGo a0 s) := by
  unfold execSwblkGo
  repeat' first
    | with_reducible assumption
    | with_reducible apply sysEvent_wf

theorem execXmap_wf {s : State} {a0} (hs : Memory.wf s.mem = true) :
    OutWf (execXmap a0 s) := by
  unfold execXmap
  repeat' first
    | with_reducible assumption
    | with_reducible apply sysEvent_wf

theorem execLqdoor_wf {s : State} {a0} (hs : Memory.wf s.mem = true) :
    OutWf (execLqdoor a0 s) := by
  unfold execLqdoor
  repeat' first
    | with_reducible assumption
    | with_reducible apply sysEvent_wf

theorem execAsidWrite_wf {s : State} {a0} (hs : Memory.wf s.mem = true) :
    OutWf (execAsidWrite a0 s) := by
  unfold execAsidWrite
  repeat' first
    | with_reducible assumption
    | with_reducible apply sysEvent_wf

theorem execAgsetWrite_wf {s : State} {a0 a1} (hs : Memory.wf s.mem = true) :
    OutWf (execAgsetWrite a0 a1 s) := by
  unfold execAgsetWrite
  repeat' first
    | with_reducible assumption
    | with_reducible apply sysEvent_wf

theorem execWgrantWrite_wf {s : State} {a0} (hs : Memory.wf s.mem = true) :
    OutWf (execWgrantWrite a0 s) := by
  unfold execWgrantWrite
  repeat' first
    | with_reducible assumption
    | with_reducible apply sysEvent_wf

theorem execWcfgWrite_wf {s : State} {a0} (hs : Memory.wf s.mem = true) :
    OutWf (execWcfgWrite a0 s) := by
  unfold execWcfgWrite
  repeat' first
    | with_reducible assumption
    | with_reducible apply sysEvent_wf

theorem execSplitdwAccess_wf {s : State} {a0 a1} (hs : Memory.wf s.mem = true) :
    OutWf (execSplitdwAccess a0 a1 s) := by
  unfold execSplitdwAccess
  repeat' first
    | with_reducible assumption
    | intro _
    | with_reducible apply sysEvent_wf
    | with_reducible apply withCur_wf
    | with_reducible apply State.sysRead_wf
    | with_reducible apply State.trapHere_wf
    | split

theorem execBatchRegWrite_wf {s : State} {a0 a1} (hs : Memory.wf s.mem = true) :
    OutWf (execBatchRegWrite a0 a1 s) := by
  unfold execBatchRegWrite
  repeat' first
    | with_reducible assumption
    | with_reducible apply sysEvent_wf

theorem execGatestWrite_wf {s : State} {a0 a1} (hs : Memory.wf s.mem = true) :
    OutWf (execGatestWrite a0 a1 s) := by
  unfold execGatestWrite
  repeat' first
    | with_reducible assumption
    | with_reducible apply sysEvent_wf

theorem execHndWrite_wf {s : State} {a0 a1} (hs : Memory.wf s.mem = true) :
    OutWf (execHndWrite a0 a1 s) := by
  unfold execHndWrite
  repeat' first
    | with_reducible assumption
    | with_reducible apply sysEvent_wf

theorem execPmcfgWrite_wf {s : State} {a0 a1} (hs : Memory.wf s.mem = true) :
    OutWf (execPmcfgWrite a0 a1 s) := by
  unfold execPmcfgWrite
  repeat' first
    | with_reducible assumption
    | with_reducible apply sysEvent_wf

theorem execSpecialRegisterWrite_wf {s : State} {a0 a1} (hs : Memory.wf s.mem = true) :
    OutWf (execSpecialRegisterWrite a0 a1 s) := by
  unfold execSpecialRegisterWrite
  repeat' first
    | with_reducible assumption
    | intro _
    | with_reducible apply withCur_wf
    | with_reducible apply State.illop_wf
    | with_reducible apply State.freeze_wf
    | with_reducible apply State.sysWrite_wf
    | split

theorem execPartset_wf {s : State} {a0} (hs : Memory.wf s.mem = true) :
    OutWf (execPartset a0 s) := by
  unfold execPartset
  repeat' first
    | with_reducible assumption
    | with_reducible apply State.bind_wf
    | with_reducible apply OutWf.next

theorem execTstop_wf {s : State} {a0} (hs : Memory.wf s.mem = true) :
    OutWf (execTstop a0 s) := by
  unfold execTstop
  repeat' first
    | with_reducible assumption
    | with_reducible apply State.tstopWrite_wf
    | with_reducible apply OutWf.next

theorem execContextCreate_wf {s : State} {a0 a1 a2} (hs : Memory.wf s.mem = true) :
    OutWf (execContextCreate a0 a1 a2 s) := by
  unfold execContextCreate
  repeat' first
    | with_reducible assumption
    | with_reducible apply State.ctabWord0_wf
    | with_reducible apply OutWf.next

theorem execDbgcmdRead_wf {s : State} {a0 a1} (hs : Memory.wf s.mem = true) :
    OutWf (execDbgcmdRead a0 a1 s) := by
  unfold execDbgcmdRead
  repeat' first
    | with_reducible assumption
    | with_reducible apply State.dbgCmd_wf
    | with_reducible apply OutWf.next

theorem execDbgcmdWrite_wf {s : State} {a0 a1} (hs : Memory.wf s.mem = true) :
    OutWf (execDbgcmdWrite a0 a1 s) := by
  unfold execDbgcmdWrite
  repeat' first
    | with_reducible assumption
    | with_reducible apply State.dbgCmd_wf
    | with_reducible apply OutWf.next

theorem execHostRegisterWrite_wf {s : State} {a0 a1 a2 a3} (hs : Memory.wf s.mem = true) :
    OutWf (execHostRegisterWrite a0 a1 a2 a3 s) := by
  unfold execHostRegisterWrite
  repeat' first
    | with_reducible assumption
    | with_reducible apply State.barWrite_wf
    | with_reducible apply OutWf.next

theorem execHdmCommit_wf {s : State} {a0 a1 a2 a3 a4} (hs : Memory.wf s.mem = true) :
    OutWf (execHdmCommit a0 a1 a2 a3 a4 s) := by
  unfold execHdmCommit
  repeat' first
    | with_reducible assumption
    | with_reducible apply State.commit_wf
    | with_reducible apply OutWf.next

theorem execHostMemRead_wf {s : State} {a0 a1 a2} (hs : Memory.wf s.mem = true) :
    OutWf (execHostMemRead a0 a1 a2 s) := by
  unfold execHostMemRead
  repeat' first
    | with_reducible assumption
    | with_reducible apply State.hostSend_wf
    | with_reducible apply OutWf.next

theorem execHostMemWrite_wf {s : State} {a0 a1 a2} (hs : Memory.wf s.mem = true) :
    OutWf (execHostMemWrite a0 a1 a2 s) := by
  unfold execHostMemWrite
  repeat' first
    | with_reducible assumption
    | with_reducible apply State.hostSend_wf
    | with_reducible apply OutWf.next

theorem execFunctionLevelReset_wf {s : State} {a0} (hs : Memory.wf s.mem = true) :
    OutWf (execFunctionLevelReset a0 s) := by
  unfold execFunctionLevelReset
  repeat' first
    | with_reducible assumption
    | with_reducible apply State.functionReset_wf
    | with_reducible apply OutWf.next

theorem execSetdasa_wf {s : State} {a0 a1} (hs : Memory.wf s.mem = true) :
    OutWf (execSetdasa a0 a1 s) := by
  unfold execSetdasa
  repeat' first
    | with_reducible assumption
    | split
    | with_reducible apply OutWf.next

theorem execI3cSelectorWrite_wf {s : State} {a0} (hs : Memory.wf s.mem = true) :
    OutWf (execI3cSelectorWrite a0 s) := by
  unfold execI3cSelectorWrite
  repeat' first
    | with_reducible assumption
    | split
    | with_reducible apply OutWf.next

theorem execI3cRead_wf {s : State} (hs : Memory.wf s.mem = true) :
    OutWf (execI3cRead s) := by
  unfold execI3cRead
  repeat' first
    | with_reducible assumption
    | with_reducible apply OutWf.next

theorem execI3cPwrlimWrite_wf {s : State} {a0 a1} (hs : Memory.wf s.mem = true) :
    OutWf (execI3cPwrlimWrite a0 a1 s) := by
  unfold execI3cPwrlimWrite
  repeat' first
    | with_reducible assumption
    | split
    | with_reducible apply OutWf.next

theorem execExtest_wf {s : State} {a0 a1} (hs : Memory.wf s.mem = true) :
    OutWf (execExtest a0 a1 s) := by
  unfold execExtest
  repeat' first
    | with_reducible assumption
    | with_reducible apply State.tapDo_wf
    | with_reducible apply State.tickFree_wf
    | with_reducible apply OutWf.next

theorem execSample_wf {s : State} {a0} (hs : Memory.wf s.mem = true) :
    OutWf (execSample a0 s) := by
  unfold execSample
  repeat' first
    | with_reducible assumption
    | with_reducible apply State.tapDo_wf
    | with_reducible apply State.tickFree_wf
    | with_reducible apply OutWf.next

theorem execScansel_wf {s : State} {a0 a1} (hs : Memory.wf s.mem = true) :
    OutWf (execScansel a0 a1 s) := by
  unfold execScansel
  repeat' first
    | with_reducible assumption
    | (intro u; refine imp_elim (a := Memory.wf (State.mem u) = true) ?_ (fun hu => ?_); rotate_left; (try clear_value u); rotate_right)
    | with_reducible apply State.tapDo_wf
    | with_reducible apply State.modDie_wf
    | split
    | lift_lets
    | dsimp only
    | with_reducible apply OutWf.next

theorem execScanout_wf {s : State} {a0} (hs : Memory.wf s.mem = true) :
    OutWf (execScanout a0 s) := by
  unfold execScanout
  repeat' first
    | with_reducible assumption
    | with_reducible apply State.tapDo_wf
    | with_reducible apply State.tickFree_wf
    | split
    | with_reducible apply OutWf.next

theorem execDbgacc_wf {s : State} {a0 a1 a2} (hs : Memory.wf s.mem = true) :
    OutWf (execDbgacc a0 a1 a2 s) := by
  unfold execDbgacc
  repeat' first
    | with_reducible assumption
    | with_reducible apply State.tapDo_wf
    | with_reducible apply State.dbgDo_wf
    | (with_reducible apply wf_fst; (focus with_reducible assumption))
    | split
    | with_reducible apply OutWf.next

theorem execTstopnow_wf {s : State} {a0} (hs : Memory.wf s.mem = true) :
    OutWf (execTstopnow a0 s) := by
  unfold execTstopnow
  repeat' first
    | with_reducible assumption
    | with_reducible apply State.armStop_wf
    | split
    | with_reducible apply OutWf.next

theorem execResume_wf {s : State} {a0} (hs : Memory.wf s.mem = true) :
    OutWf (execResume a0 s) := by
  unfold execResume
  repeat' first
    | with_reducible assumption
    | with_reducible apply State.tickEdge_wf
    | split
    | with_reducible apply OutWf.next

theorem execLanemg_wf {s : State} {a0} (hs : Memory.wf s.mem = true) :
    OutWf (execLanemg a0 s) := by
  unfold execLanemg
  repeat' first
    | with_reducible assumption
    | with_reducible apply State.tapDo_wf
    | with_reducible apply State.tickFree_wf
    | with_reducible apply OutWf.next

theorem execIdcode_wf {s : State} {a0} (hs : Memory.wf s.mem = true) :
    OutWf (execIdcode a0 s) := by
  unfold execIdcode
  repeat' first
    | with_reducible assumption
    | with_reducible apply State.tapDo_wf
    | with_reducible apply OutWf.next

theorem execBypass_wf {s : State} {a0 a1} (hs : Memory.wf s.mem = true) :
    OutWf (execBypass a0 a1 s) := by
  unfold execBypass
  repeat' first
    | with_reducible assumption
    | with_reducible apply State.tapDo_wf
    | with_reducible apply OutWf.next

theorem execLnxIdx_wf {s : State} {a0} (hs : Memory.wf s.mem = true) :
    OutWf (execLnxIdx a0 s) := by
  unfold execLnxIdx
  repeat' first
    | with_reducible assumption
    | with_reducible apply lnxForm_wf

theorem execLnxWin_wf {s : State} {a0} (hs : Memory.wf s.mem = true) :
    OutWf (execLnxWin a0 s) := by
  unfold execLnxWin
  repeat' first
    | with_reducible assumption
    | with_reducible apply lnxForm_wf

theorem execLnxRise_wf {s : State} {a0} (hs : Memory.wf s.mem = true) :
    OutWf (execLnxRise a0 s) := by
  unfold execLnxRise
  repeat' first
    | with_reducible assumption
    | with_reducible apply lnxForm_wf

theorem execLnxFall_wf {s : State} {a0} (hs : Memory.wf s.mem = true) :
    OutWf (execLnxFall a0 s) := by
  unfold execLnxFall
  repeat' first
    | with_reducible assumption
    | with_reducible apply lnxForm_wf

theorem execLnxSprd_wf {s : State} {a0} (hs : Memory.wf s.mem = true) :
    OutWf (execLnxSprd a0 s) := by
  unfold execLnxSprd
  repeat' first
    | with_reducible assumption
    | with_reducible apply lnxForm_wf

theorem execLnxRot_wf {s : State} {a0} (hs : Memory.wf s.mem = true) :
    OutWf (execLnxRot a0 s) := by
  unfold execLnxRot
  repeat' first
    | with_reducible assumption
    | with_reducible apply lnxForm_wf

theorem execCensusSome_wf {s : State} {a0} (hs : Memory.wf s.mem = true) :
    OutWf (execCensusSome a0 s) := by
  unfold execCensusSome
  repeat' first
    | with_reducible assumption
    | with_reducible apply censusForm_wf

theorem execCensusEvery_wf {s : State} {a0} (hs : Memory.wf s.mem = true) :
    OutWf (execCensusEvery a0 s) := by
  unfold execCensusEvery
  repeat' first
    | with_reducible assumption
    | with_reducible apply censusForm_wf

theorem execCensusMask_wf {s : State} {a0} (hs : Memory.wf s.mem = true) :
    OutWf (execCensusMask a0 s) := by
  unfold execCensusMask
  repeat' first
    | with_reducible assumption
    | with_reducible apply censusForm_wf

theorem execCensusCount_wf {s : State} {a0} (hs : Memory.wf s.mem = true) :
    OutWf (execCensusCount a0 s) := by
  unfold execCensusCount
  repeat' first
    | with_reducible assumption
    | with_reducible apply censusForm_wf

theorem execPeersMask_wf {s : State} {a0} (hs : Memory.wf s.mem = true) :
    OutWf (execPeersMask a0 s) := by
  unfold execPeersMask
  repeat' first
    | with_reducible assumption
    | intro _
    | with_reducible apply withCur_wf
    | with_reducible apply State.result_wf

theorem execPeersUniform_wf {s : State} {a0} (hs : Memory.wf s.mem = true) :
    OutWf (execPeersUniform a0 s) := by
  unfold execPeersUniform
  repeat' first
    | with_reducible assumption
    | intro _
    | with_reducible apply withCur_wf
    | with_reducible apply State.result_wf

theorem execPeersLead_wf {s : State} {a0} (hs : Memory.wf s.mem = true) :
    OutWf (execPeersLead a0 s) := by
  unfold execPeersLead
  repeat' first
    | with_reducible assumption
    | intro _
    | with_reducible apply withCur_wf
    | with_reducible apply State.result_wf

theorem execReduce_wf {s : State} {a0} (hs : Memory.wf s.mem = true) :
    OutWf (execReduce a0 s) := by
  unfold execReduce
  repeat' first
    | with_reducible assumption
    | (intro u; clear_value u)
    | intro _
    | with_reducible apply withCur_wf
    | with_reducible apply State.trapMask_wf
    | with_reducible apply State.result_wf
    | split
    | lift_lets

theorem execScan_wf {s : State} {a0} (hs : Memory.wf s.mem = true) :
    OutWf (execScan a0 s) := by
  unfold execScan
  repeat' first
    | with_reducible assumption
    | with_reducible apply scanForm_wf

theorem execScanExc_wf {s : State} {a0} (hs : Memory.wf s.mem = true) :
    OutWf (execScanExc a0 s) := by
  unfold execScanExc
  repeat' first
    | with_reducible assumption
    | with_reducible apply scanForm_wf

theorem execXshfl_wf {s : State} {a0} (hs : Memory.wf s.mem = true) :
    OutWf (execXshfl a0 s) := by
  unfold execXshfl
  repeat' first
    | with_reducible assumption
    | (intro u; refine imp_elim (a := Memory.wf (State.mem u) = true) ?_ (fun hu => ?_); rotate_left; (try clear_value u); rotate_right)
    | (intro u; clear_value u)
    | intro _
    | with_reducible apply withCur_wf
    | with_reducible apply State.illop_wf
    | with_reducible apply State.block_wf
    | with_reducible apply State.post_wf
    | with_reducible apply State.modGrp_wf
    | split
    | lift_lets

theorem execXshflExchange_wf {s : State} {a0 a1} (hs : Memory.wf s.mem = true) :
    OutWf (execXshflExchange a0 a1 s) := by
  unfold execXshflExchange
  repeat' first
    | with_reducible assumption
    | with_reducible apply State.takeExch_wf
    | split
    | with_reducible apply OutWf.next

theorem execFrcp_wf {s : State} {a0} (hs : Memory.wf s.mem = true) :
    OutWf (execFrcp a0 s) := by
  unfold execFrcp
  repeat' first
    | with_reducible assumption
    | with_reducible apply specialForm_wf

theorem execFrsq_wf {s : State} {a0} (hs : Memory.wf s.mem = true) :
    OutWf (execFrsq a0 s) := by
  unfold execFrsq
  repeat' first
    | with_reducible assumption
    | with_reducible apply specialForm_wf

theorem execFexp2_wf {s : State} {a0} (hs : Memory.wf s.mem = true) :
    OutWf (execFexp2 a0 s) := by
  unfold execFexp2
  repeat' first
    | with_reducible assumption
    | with_reducible apply specialForm_wf

theorem execFlog2_wf {s : State} {a0} (hs : Memory.wf s.mem = true) :
    OutWf (execFlog2 a0 s) := by
  unfold execFlog2
  repeat' first
    | with_reducible assumption
    | with_reducible apply specialForm_wf

theorem execFsin_wf {s : State} {a0} (hs : Memory.wf s.mem = true) :
    OutWf (execFsin a0 s) := by
  unfold execFsin
  repeat' first
    | with_reducible assumption
    | with_reducible apply specialForm_wf

theorem execFcos_wf {s : State} {a0} (hs : Memory.wf s.mem = true) :
    OutWf (execFcos a0 s) := by
  unfold execFcos
  repeat' first
    | with_reducible assumption
    | with_reducible apply specialForm_wf

theorem execFtanh_wf {s : State} {a0} (hs : Memory.wf s.mem = true) :
    OutWf (execFtanh a0 s) := by
  unfold execFtanh
  repeat' first
    | with_reducible assumption
    | with_reducible apply specialForm_wf

end Sys2Proof.Machine
end

