-- ==== Sys2Proof/Laws/KeepAll.lean ====
section
/-! SUPPORT. Every instruction keeps the memory canonical. -/

namespace Sys2Proof.Machine

theorem exec_wf (i : Instr) {s : State} (hs : Memory.wf s.mem = true) : OutWf (exec i s) := by
  cases i with
  | sadd a => rw [exec_sadd]; exact execSadd_wf hs
  | ssub a => rw [exec_ssub]; exact execSsub_wf hs
  | smul a => rw [exec_smul]; exact execSmul_wf hs
  | smulh a => rw [exec_smulh]; exact execSmulh_wf hs
  | sdiv a => rw [exec_sdiv]; exact execSdiv_wf hs
  | srem a => rw [exec_srem]; exact execSrem_wf hs
  | sand a => rw [exec_sand]; exact execSand_wf hs
  | sor a => rw [exec_sor]; exact execSor_wf hs
  | sxor a => rw [exec_sxor]; exact execSxor_wf hs
  | sshl a => rw [exec_sshl]; exact execSshl_wf hs
  | sshr a => rw [exec_sshr]; exact execSshr_wf hs
  | ssra a => rw [exec_ssra]; exact execSsra_wf hs
  | smin a => rw [exec_smin]; exact execSmin_wf hs
  | smax a => rw [exec_smax]; exact execSmax_wf hs
  | scmp a => rw [exec_scmp]; exact execScmp_wf hs
  | ssel a => rw [exec_ssel]; exact execSsel_wf hs
  | smov a => rw [exec_smov]; exact execSmov_wf hs
  | smovi a => rw [exec_smovi]; exact execSmovi_wf hs
  | smoviHi a => rw [exec_smoviHi]; exact execSmoviHi_wf hs
  | slea a => rw [exec_slea]; exact execSlea_wf hs
  | sbfe a => rw [exec_sbfe]; exact execSbfe_wf hs
  | sbfi a => rw [exec_sbfi]; exact execSbfi_wf hs
  | spopc a => rw [exec_spopc]; exact execSpopc_wf hs
  | sclz a => rw [exec_sclz]; exact execSclz_wf hs
  | sbrev a => rw [exec_sbrev]; exact execSbrev_wf hs
  | bra a => rw [exec_bra]; exact execBra_wf hs
  | bras a => rw [exec_bras]; exact execBras_wf hs
  | brv a => rw [exec_brv]; exact execBrv_wf hs
  | jmp a => rw [exec_jmp]; exact execJmp_wf hs
  | jmpv a => rw [exec_jmpv]; exact execJmpv_wf hs
  | callLabel a => rw [exec_callLabel]; exact execCallLabel_wf hs
  | callReg a => rw [exec_callReg]; exact execCallReg_wf hs
  | ret a => rw [exec_ret]; exact execRet_wf hs
  | land a => rw [exec_land]; exact execLand_wf hs
  | yield a => rw [exec_yield]; exact execYield_wf hs
  | exit a => rw [exec_exit]; exact execExit_wf hs
  | nop a => rw [exec_nop]; exact execNop_wf hs
  | elect a => rw [exec_elect]; exact execElect_wf hs
  | exmrd a => rw [exec_exmrd]; exact execExmrd_wf hs
  | exmrdOwn a => rw [exec_exmrdOwn]; exact execExmrdOwn_wf hs
  | exmwr a => rw [exec_exmwr]; exact execExmwr_wf hs
  | exmwrAnd a => rw [exec_exmwrAnd]; exact execExmwrAnd_wf hs
  | exmwrOr a => rw [exec_exmwrOr]; exact execExmwrOr_wf hs
  | regroup a => rw [exec_regroup]; exact execRegroup_wf hs
  | vadd a => rw [exec_vadd]; exact execVadd_wf hs
  | vsub a => rw [exec_vsub]; exact execVsub_wf hs
  | vmul a => rw [exec_vmul]; exact execVmul_wf hs
  | vmulh a => rw [exec_vmulh]; exact execVmulh_wf hs
  | vmad a => rw [exec_vmad]; exact execVmad_wf hs
  | vdiv a => rw [exec_vdiv]; exact execVdiv_wf hs
  | vrem a => rw [exec_vrem]; exact execVrem_wf hs
  | vand a => rw [exec_vand]; exact execVand_wf hs
  | vor a => rw [exec_vor]; exact execVor_wf hs
  | vxor a => rw [exec_vxor]; exact execVxor_wf hs
  | vshl a => rw [exec_vshl]; exact execVshl_wf hs
  | vshr a => rw [exec_vshr]; exact execVshr_wf hs
  | vsra a => rw [exec_vsra]; exact execVsra_wf hs
  | vmin a => rw [exec_vmin]; exact execVmin_wf hs
  | vmax a => rw [exec_vmax]; exact execVmax_wf hs
  | vabs a => rw [exec_vabs]; exact execVabs_wf hs
  | vneg a => rw [exec_vneg]; exact execVneg_wf hs
  | vcmp a => rw [exec_vcmp]; exact execVcmp_wf hs
  | vsel a => rw [exec_vsel]; exact execVsel_wf hs
  | vmov a => rw [exec_vmov]; exact execVmov_wf hs
  | vmovi a => rw [exec_vmovi]; exact execVmovi_wf hs
  | vmoviHi a => rw [exec_vmoviHi]; exact execVmoviHi_wf hs
  | vbfe a => rw [exec_vbfe]; exact execVbfe_wf hs
  | vbfi a => rw [exec_vbfi]; exact execVbfi_wf hs
  | vpopc a => rw [exec_vpopc]; exact execVpopc_wf hs
  | vclz a => rw [exec_vclz]; exact execVclz_wf hs
  | vdot4 a => rw [exec_vdot4]; exact execVdot4_wf hs
  | vlea a => rw [exec_vlea]; exact execVlea_wf hs
  | fadd a => rw [exec_fadd]; exact execFadd_wf hs
  | fsub a => rw [exec_fsub]; exact execFsub_wf hs
  | fmul a => rw [exec_fmul]; exact execFmul_wf hs
  | ffma a => rw [exec_ffma]; exact execFfma_wf hs
  | fmin a => rw [exec_fmin]; exact execFmin_wf hs
  | fmax a => rw [exec_fmax]; exact execFmax_wf hs
  | fcmp a => rw [exec_fcmp]; exact execFcmp_wf hs
  | fclass a => rw [exec_fclass]; exact execFclass_wf hs
  | fdiv a => rw [exec_fdiv]; exact execFdiv_wf hs
  | fsqrt a => rw [exec_fsqrt]; exact execFsqrt_wf hs
  | fscale a => rw [exec_fscale]; exact execFscale_wf hs
  | fround a => rw [exec_fround]; exact execFround_wf hs
  | ffrac a => rw [exec_ffrac]; exact execFfrac_wf hs
  | fdot2 a => rw [exec_fdot2]; exact execFdot2_wf hs
  | frcp a => rw [exec_frcp]; exact execFrcp_wf hs
  | frsq a => rw [exec_frsq]; exact execFrsq_wf hs
  | fexp2 a => rw [exec_fexp2]; exact execFexp2_wf hs
  | flog2 a => rw [exec_flog2]; exact execFlog2_wf hs
  | fsin a => rw [exec_fsin]; exact execFsin_wf hs
  | fcos a => rw [exec_fcos]; exact execFcos_wf hs
  | ftanh a => rw [exec_ftanh]; exact execFtanh_wf hs
  | pairedWord a => rw [exec_pairedWord]; exact execPairedWord_wf hs
  | cvt a => rw [exec_cvt]; exact execCvt_wf hs
  | pack a => rw [exec_pack]; exact execPack_wf hs
  | unpack a => rw [exec_unpack]; exact execUnpack_wf hs
  | unpackHi a => rw [exec_unpackHi]; exact execUnpackHi_wf hs
  | qmx a => rw [exec_qmx]; exact execQmx_wf hs
  | dqmx a => rw [exec_dqmx]; exact execDqmx_wf hs
  | lnxIdx a => rw [exec_lnxIdx]; exact execLnxIdx_wf hs
  | lnxWin a => rw [exec_lnxWin]; exact execLnxWin_wf hs
  | lnxRise a => rw [exec_lnxRise]; exact execLnxRise_wf hs
  | lnxFall a => rw [exec_lnxFall]; exact execLnxFall_wf hs
  | lnxSprd a => rw [exec_lnxSprd]; exact execLnxSprd_wf hs
  | lnxRot a => rw [exec_lnxRot]; exact execLnxRot_wf hs
  | censusSome a => rw [exec_censusSome]; exact execCensusSome_wf hs
  | censusEvery a => rw [exec_censusEvery]; exact execCensusEvery_wf hs
  | censusMask a => rw [exec_censusMask]; exact execCensusMask_wf hs
  | censusCount a => rw [exec_censusCount]; exact execCensusCount_wf hs
  | peersMask a => rw [exec_peersMask]; exact execPeersMask_wf hs
  | peersUniform a => rw [exec_peersUniform]; exact execPeersUniform_wf hs
  | peersLead a => rw [exec_peersLead]; exact execPeersLead_wf hs
  | reduce a => rw [exec_reduce]; exact execReduce_wf hs
  | scan a => rw [exec_scan]; exact execScan_wf hs
  | scanExc a => rw [exec_scanExc]; exact execScanExc_wf hs
  | xshfl a => rw [exec_xshfl]; exact execXshfl_wf hs
  | ld a => rw [exec_ld]; exact execLd_wf hs
  | st a => rw [exec_st]; exact execSt_wf hs
  | ldw a => rw [exec_ldw]; exact execLdw_wf hs
  | lds a => rw [exec_lds]; exact execLds_wf hs
  | sts a => rw [exec_sts]; exact execSts_wf hs
  | ldnr a => rw [exec_ldnr]; exact execLdnr_wf hs
  | prefL1 a => rw [exec_prefL1]; exact execPrefL1_wf hs
  | prefRo a => rw [exec_prefRo]; exact execPrefRo_wf hs
  | prefL2 a => rw [exec_prefL2]; exact execPrefL2_wf hs
  | atom a => rw [exec_atom]; exact execAtom_wf hs
  | atoms a => rw [exec_atoms]; exact execAtoms_wf hs
  | atomr a => rw [exec_atomr]; exact execAtomr_wf hs
  | cas a => rw [exec_cas]; exact execCas_wf hs
  | cass a => rw [exec_cass]; exact execCass_wf hs
  | fence a => rw [exec_fence]; exact execFence_wf hs
  | cflush a => rw [exec_cflush]; exact execCflush_wf hs
  | cflushInv a => rw [exec_cflushInv]; exact execCflushInv_wf hs
  | cinv a => rw [exec_cinv]; exact execCinv_wf hs
  | cinvRo a => rw [exec_cinvRo]; exact execCinvRo_wf hs
  | cinvI a => rw [exec_cinvI]; exact execCinvI_wf hs
  | copyV2s a => rw [exec_copyV2s]; exact execCopyV2s_wf hs
  | copyS2v a => rw [exec_copyS2v]; exact execCopyS2v_wf hs
  | copyV2v a => rw [exec_copyV2v]; exact execCopyV2v_wf hs
  | copyS2s a => rw [exec_copyS2s]; exact execCopyS2s_wf hs
  | copygG a => rw [exec_copygG]; exact execCopygG_wf hs
  | copygS a => rw [exec_copygS]; exact execCopygS_wf hs
  | copypPut a => rw [exec_copypPut]; exact execCopypPut_wf hs
  | copypGet a => rw [exec_copypGet]; exact execCopypGet_wf hs
  | batch a => rw [exec_batch]; exact execBatch_wf hs
  | waitb a => rw [exec_waitb]; exact execWaitb_wf hs
  | waitc a => rw [exec_waitc]; exact execWaitc_wf hs
  | hacqDrain a => rw [exec_hacqDrain]; exact execHacqDrain_wf hs
  | hacqFill a => rw [exec_hacqFill]; exact execHacqFill_wf hs
  | hrel a => rw [exec_hrel]; exact execHrel_wf hs
  | hstat a => rw [exec_hstat]; exact execHstat_wf hs
  | gatePass a => rw [exec_gatePass]; exact execGatePass_wf hs
  | gateMark a => rw [exec_gateMark]; exact execGateMark_wf hs
  | gateHold a => rw [exec_gateHold]; exact execGateHold_wf hs
  | ggatePass a => rw [exec_ggatePass]; exact execGgatePass_wf hs
  | ggateMark a => rw [exec_ggateMark]; exact execGgateMark_wf hs
  | ggateHold a => rw [exec_ggateHold]; exact execGgateHold_wf hs
  | sigset a => rw [exec_sigset]; exact execSigset_wf hs
  | sigadd a => rw [exec_sigadd]; exact execSigadd_wf hs
  | sigwait a => rw [exec_sigwait]; exact execSigwait_wf hs
  | mppt a => rw [exec_mppt]; exact execMppt_wf hs
  | mcfg a => rw [exec_mcfg]; exact execMcfg_wf hs
  | madmit a => rw [exec_madmit]; exact execMadmit_wf hs
  | mrelease a => rw [exec_mrelease]; exact execMrelease_wf hs
  | mloop a => rw [exec_mloop]; exact execMloop_wf hs
  | maclr a => rw [exec_maclr]; exact execMaclr_wf hs
  | mamovCpy a => rw [exec_mamovCpy]; exact execMamovCpy_wf hs
  | mamovAdd a => rw [exec_mamovAdd]; exact execMamovAdd_wf hs
  | maload a => rw [exec_maload]; exact execMaload_wf hs
  | mastore a => rw [exec_mastore]; exact execMastore_wf hs
  | mstest a => rw [exec_mstest]; exact execMstest_wf hs
  | mprogRd a => rw [exec_mprogRd]; exact execMprogRd_wf hs
  | mprogWr a => rw [exec_mprogWr]; exact execMprogWr_wf hs
  | mstat a => rw [exec_mstat]; exact execMstat_wf hs
  | agon a => rw [exec_agon]; exact execAgon_wf hs
  | agoff a => rw [exec_agoff]; exact execAgoff_wf hs
  | agld a => rw [exec_agld]; exact execAgld_wf hs
  | agst a => rw [exec_agst]; exact execAgst_wf hs
  | agop a => rw [exec_agop]; exact execAgop_wf hs
  | agred a => rw [exec_agred]; exact execAgred_wf hs
  | wbar a => rw [exec_wbar]; exact execWbar_wf hs
  | wwait a => rw [exec_wwait]; exact execWwait_wf hs
  | wbcast a => rw [exec_wbcast]; exact execWbcast_wf hs
  | wrecvB a => rw [exec_wrecvB]; exact execWrecvB_wf hs
  | wrecvR a => rw [exec_wrecvR]; exact execWrecvR_wf hs
  | wred a => rw [exec_wred]; exact execWred_wf hs
  | wtick a => rw [exec_wtick]; exact execWtick_wf hs
  | trap a => rw [exec_trap]; exact execTrap_wf hs
  | tret a => rw [exec_tret]; exact execTret_wf hs
  | sysrd a => rw [exec_sysrd]; exact execSysrd_wf hs
  | syswr a => rw [exec_syswr]; exact execSyswr_wf hs
  | kill a => rw [exec_kill]; exact execKill_wf hs
  | brk a => rw [exec_brk]; exact execBrk_wf hs
  | pmcrd a => rw [exec_pmcrd]; exact execPmcrd_wf hs
  | pmcwr a => rw [exec_pmcwr]; exact execPmcwr_wf hs
  | resultWriteback g tag => rw [exec_resultWriteback]; exact execResultWriteback_wf hs
  | loadDataReturn g tag => rw [exec_loadDataReturn]; exact execLoadDataReturn_wf hs
  | storeAck g tag => rw [exec_storeAck]; exact execStoreAck_wf hs
  | ifetchFill core asid blk => rw [exec_ifetchFill]; exact execIfetchFill_wf hs
  | regroupFuse g h => rw [exec_regroupFuse]; exact execRegroupFuse_wf hs
  | xshflExchange g h => rw [exec_xshflExchange]; exact execXshflExchange_wf hs
  | contextEndRecord ctx => rw [exec_contextEndRecord]; exact execContextEndRecord_wf hs
  | handleAdmit blk h => rw [exec_handleAdmit]; exact execHandleAdmit_wf hs
  | gateRelease blk gate => rw [exec_gateRelease]; exact execGateRelease_wf hs
  | ggateCrossDie gang => rw [exec_ggateCrossDie]; exact execGgateCrossDie_wf hs
  | ggateRelease gang => rw [exec_ggateRelease]; exact execGgateRelease_wf hs
  | sigwaitReread g => rw [exec_sigwaitReread]; exact execSigwaitReread_wf hs
  | madmitComplete op => rw [exec_madmitComplete]; exact execMadmitComplete_wf hs
  | mreleaseComplete op => rw [exec_mreleaseComplete]; exact execMreleaseComplete_wf hs
  | mloopStep op => rw [exec_mloopStep]; exact execMloopStep_wf hs
  | mloopComplete op => rw [exec_mloopComplete]; exact execMloopComplete_wf hs
  | asyncOpComplete op => rw [exec_asyncOpComplete]; exact execAsyncOpComplete_wf hs
  | agonWritebackDone bank => rw [exec_agonWritebackDone]; exact execAgonWritebackDone_wf hs
  | agonComplete bank => rw [exec_agonComplete]; exact execAgonComplete_wf hs
  | agoffDrainDone bank => rw [exec_agoffDrainDone]; exact execAgoffDrainDone_wf hs
  | agoffComplete bank => rw [exec_agoffComplete]; exact execAgoffComplete_wf hs
  | agateCommandComplete bank => rw [exec_agateCommandComplete]; exact execAgateCommandComplete_wf hs
  | weltArrival m => rw [exec_weltArrival]; exact execWeltArrival_wf hs
  | weltRelease ch => rw [exec_weltRelease]; exact execWeltRelease_wf hs
  | preemptRequest pid die x => rw [exec_preemptRequest]; exact execPreemptRequest_wf hs
  | tickLoad x => rw [exec_tickLoad]; exact execTickLoad_wf hs
  | recordTake pid q => rw [exec_recordTake]; exact execRecordTake_wf hs
  | dependenceReread pid q => rw [exec_dependenceReread]; exact execDependenceReread_wf hs
  | workingSetPrewalk pid q => rw [exec_workingSetPrewalk]; exact execWorkingSetPrewalk_wf hs
  | blockPlace pid => rw [exec_blockPlace]; exact execBlockPlace_wf hs
  | xmapServe die => rw [exec_xmapServe]; exact execXmapServe_wf hs
  | rd p => rw [exec_rd]; exact execRd_wf hs
  | wr p => rw [exec_wr]; exact execWr_wf hs
  | atq p => rw [exec_atq]; exact execAtq_wf hs
  | atr p => rw [exec_atr]; exact execAtr_wf hs
  | scr p => rw [exec_scr]; exact execScr_wf hs
  | scw p => rw [exec_scw]; exact execScw_wf hs
  | inv p die hold => rw [exec_inv]; exact execInv_wf hs
  | invack a => rw [exec_invack]; exact execInvack_wf hs
  | dataRsp p bytes => rw [exec_dataRsp]; exact execDataRsp_wf hs
  | ack p old => rw [exec_ack]; exact execAck_wf hs
  | nack p subc => rw [exec_nack]; exact execNack_wf hs
  | sigUpd p set => rw [exec_sigUpd]; exact execSigUpd_wf hs
  | pageWalkComplete p => rw [exec_pageWalkComplete]; exact execPageWalkComplete_wf hs
  | hbmFill p bad => rw [exec_hbmFill]; exact execHbmFill_wf hs
  | clusterResetDone die cluster => rw [exec_clusterResetDone]; exact execClusterResetDone_wf hs
  | shootdownDone die => rw [exec_shootdownDone]; exact execShootdownDone_wf hs
  | imageVerify die => rw [exec_imageVerify]; exact execImageVerify_wf hs
  | dieAuthentication die => rw [exec_dieAuthentication]; exact execDieAuthentication_wf hs
  | fill => rw [exec_fill]; exact execFill_wf hs
  | selfTest arr => rw [exec_selfTest]; exact execSelfTest_wf hs
  | pooledAccessRelease g => rw [exec_pooledAccessRelease]; exact execPooledAccessRelease_wf hs
  | agateCommandAccept bank => rw [exec_agateCommandAccept]; exact execAgateCommandAccept_wf hs
  | madmitAccept op => rw [exec_madmitAccept]; exact execMadmitAccept_wf hs
  | mastoreAccept op => rw [exec_mastoreAccept]; exact execMastoreAccept_wf hs
  | mloopAccept op => rw [exec_mloopAccept]; exact execMloopAccept_wf hs
  | mpptTakeEffect op => rw [exec_mpptTakeEffect]; exact execMpptTakeEffect_wf hs
  | traceSample die => rw [exec_traceSample]; exact execTraceSample_wf hs
  | tickCheck crcBad => rw [exec_tickCheck]; exact execTickCheck_wf hs
  | reconverge g => rw [exec_reconverge]; exact execReconverge_wf hs
  | regroupRelease g => rw [exec_regroupRelease]; exact execRegroupRelease_wf hs
  | trapEntry g => rw [exec_trapEntry]; exact execTrapEntry_wf hs
  | watchdogExpiry g => rw [exec_watchdogExpiry]; exact execWatchdogExpiry_wf hs
  | preemptWaitExit g => rw [exec_preemptWaitExit]; exact execPreemptWaitExit_wf hs
  | schedulerSwap core sched => rw [exec_schedulerSwap]; exact execSchedulerSwap_wf hs
  | activePositionFill core sched => rw [exec_activePositionFill]; exact execActivePositionFill_wf hs
  | blockEnd blk => rw [exec_blockEnd]; exact execBlockEnd_wf hs
  | agonAccept bank => rw [exec_agonAccept]; exact execAgonAccept_wf hs
  | agoffAccept bank => rw [exec_agoffAccept]; exact execAgoffAccept_wf hs
  | globalTick => rw [exec_globalTick]; exact execGlobalTick_wf hs
  | tailRegisterWrite pid q t => rw [exec_tailRegisterWrite]; exact execTailRegisterWrite_wf hs
  | queueEnable pid q => rw [exec_queueEnable]; exact execQueueEnable_wf hs
  | qheadWrite pid q x => rw [exec_qheadWrite]; exact execQheadWrite_wf hs
  | recordComplete launch => rw [exec_recordComplete]; exact execRecordComplete_wf hs
  | swparkWrite x => rw [exec_swparkWrite]; exact execSwparkWrite_wf hs
  | swblkBaseWrite x => rw [exec_swblkBaseWrite]; exact execSwblkBaseWrite_wf hs
  | swblkGo x => rw [exec_swblkGo]; exact execSwblkGo_wf hs
  | blockRestore pid => rw [exec_blockRestore]; exact execBlockRestore_wf hs
  | xmap va => rw [exec_xmap]; exact execXmap_wf hs
  | lqdoor x => rw [exec_lqdoor]; exact execLqdoor_wf hs
  | asidWrite x => rw [exec_asidWrite]; exact execAsidWrite_wf hs
  | agsetWrite n x => rw [exec_agsetWrite]; exact execAgsetWrite_wf hs
  | wgrantWrite x => rw [exec_wgrantWrite]; exact execWgrantWrite_wf hs
  | wcfgWrite x => rw [exec_wcfgWrite]; exact execWcfgWrite_wf hs
  | splitdwAccess wr dst => rw [exec_splitdwAccess]; exact execSplitdwAccess_wf hs
  | batchRegWrite c x => rw [exec_batchRegWrite]; exact execBatchRegWrite_wf hs
  | gatestWrite b x => rw [exec_gatestWrite]; exact execGatestWrite_wf hs
  | hndWrite h x => rw [exec_hndWrite]; exact execHndWrite_wf hs
  | pmcfgWrite k x => rw [exec_pmcfgWrite]; exact execPmcfgWrite_wf hs
  | specialRegisterWrite n x => rw [exec_specialRegisterWrite]; exact execSpecialRegisterWrite_wf hs
  | hostRegisterWrite die off width x => rw [exec_hostRegisterWrite]; exact execHostRegisterWrite_wf hs
  | conflictQueueRelease bank => rw [exec_conflictQueueRelease]; exact execConflictQueueRelease_wf hs
  | class0BudgetGain => rw [exec_class0BudgetGain]; exact execClass0BudgetGain_wf hs
  | linkRetrain link ok => rw [exec_linkRetrain]; exact execLinkRetrain_wf hs
  | clusterReset die mask => rw [exec_clusterReset]; exact execClusterReset_wf hs
  | shootdown die x => rw [exec_shootdown]; exact execShootdown_wf hs
  | preqRaise pid x => rw [exec_preqRaise]; exact execPreqRaise_wf hs
  | preqCancel pid x => rw [exec_preqCancel]; exact execPreqCancel_wf hs
  | ctxkill pid x => rw [exec_ctxkill]; exact execCtxkill_wf hs
  | ctxkillRetire pid x => rw [exec_ctxkillRetire]; exact execCtxkillRetire_wf hs
  | contextCreate pid entry x => rw [exec_contextCreate]; exact execContextCreate_wf hs
  | partset x => rw [exec_partset]; exact execPartset_wf hs
  | weltPartitionGrant pid k x => rw [exec_weltPartitionGrant]; exact execWeltPartitionGrant_wf hs
  | qstop pid x => rw [exec_qstop]; exact execQstop_wf hs
  | qstopDone pid => rw [exec_qstopDone]; exact execQstopDone_wf hs
  | qrun pid x => rw [exec_qrun]; exact execQrun_wf hs
  | dbgcmdRead pid c => rw [exec_dbgcmdRead]; exact execDbgcmdRead_wf hs
  | dbgcmdWrite pid c => rw [exec_dbgcmdWrite]; exact execDbgcmdWrite_wf hs
  | tstop x => rw [exec_tstop]; exact execTstop_wf hs
  | tickStop => rw [exec_tickStop]; exact execTickStop_wf hs
  | extest die x => rw [exec_extest]; exact execExtest_wf hs
  | sample die => rw [exec_sample]; exact execSample_wf hs
  | scansel die x => rw [exec_scansel]; exact execScansel_wf hs
  | scanout die => rw [exec_scanout]; exact execScanout_wf hs
  | dbgacc wr c x => rw [exec_dbgacc]; exact execDbgacc_wf hs
  | tstopnow x => rw [exec_tstopnow]; exact execTstopnow_wf hs
  | resume x => rw [exec_resume]; exact execResume_wf hs
  | lanemg die => rw [exec_lanemg]; exact execLanemg_wf hs
  | idcode die => rw [exec_idcode]; exact execIdcode_wf hs
  | bypass die x => rw [exec_bypass]; exact execBypass_wf hs
  | hostMemRead die ha len => rw [exec_hostMemRead]; exact execHostMemRead_wf hs
  | hostMemWrite die ha xs => rw [exec_hostMemWrite]; exact execHostMemWrite_wf hs
  | hdmCommit die n base size ways => rw [exec_hdmCommit]; exact execHdmCommit_wf hs
  | functionLevelReset die => rw [exec_functionLevelReset]; exact execFunctionLevelReset_wf hs
  | spdmRequest die idx signed => rw [exec_spdmRequest]; exact execSpdmRequest_wf hs
  | peerRequest r => rw [exec_peerRequest]; exact execPeerRequest_wf hs
  | portclr die x => rw [exec_portclr]; exact execPortclr_wf hs
  | coldReset => rw [exec_coldReset]; exact execColdReset_wf hs
  | bootld x => rw [exec_bootld]; exact execBootld_wf hs
  | authTimeout => rw [exec_authTimeout]; exact execAuthTimeout_wf hs
  | powerEstimate => rw [exec_powerEstimate]; exact execPowerEstimate_wf hs
  | thermalTrip => rw [exec_thermalTrip]; exact execThermalTrip_wf hs
  | ageingMonitorRead => rw [exec_ageingMonitorRead]; exact execAgeingMonitorRead_wf hs
  | setdasa static dyn => rw [exec_setdasa]; exact execSetdasa_wf hs
  | i3cSelectorWrite sel => rw [exec_i3cSelectorWrite]; exact execI3cSelectorWrite_wf hs
  | i3cRead => rw [exec_i3cRead]; exact execI3cRead_wf hs
  | i3cPwrlimWrite sel lim => rw [exec_i3cPwrlimWrite]; exact execI3cPwrlimWrite_wf hs
  | flitReplay link bad => rw [exec_flitReplay]; exact execFlitReplay_wf hs
  | issueCounters => rw [exec_issueCounters]; exact execIssueCounters_wf hs

theorem outWf_next {o : Out} {t : State} (h : o = .next t) (ho : OutWf o) : Memory.wf t.mem = true := by
  rw [h] at ho; cases ho; assumption

theorem State.holdBack_wf {s : State} {g b} (hs : Memory.wf s.mem = true) : Memory.wf (s.holdBack g b).mem = true := by
  unfold State.holdBack
  repeat' split
  all_goals first
    | exact hs
    | (dsimp only; refine outWf_next (by assumption) (exec_wf _ ?_); exact hs)

theorem State.pastFills_wf {s : State} {g b} (hs : Memory.wf s.mem = true) : Memory.wf (s.pastFills g b).mem = true := by
  unfold State.pastFills
  refine wf_foldl hs (fun t _ ht => ?_)
  repeat' split
  all_goals first
    | exact ht
    | (dsimp only; refine outWf_next (by assumption) (execFill_wf ?_); exact ht)

theorem State.startAclk_wf {s : State} (hs : Memory.wf s.mem = true) : Memory.wf s.startAclk.mem = true := by
  have both {t : State} (f : State → Nat → Bool → State) (hf : ∀ t g b, Memory.wf t.mem = true → Memory.wf (f t g b).mem = true)
      (ht : Memory.wf t.mem = true) :
      Memory.wf (t.groups.foldl (fun s e => f (f s e.1 false) e.1 true) t).mem = true :=
    wf_foldl ht (fun _ _ h => hf _ _ _ (hf _ _ _ h))
  unfold State.startAclk
  exact State.survey_wf (both _ (fun _ _ _ => State.holdBack_wf)
    (State.openAclk_wf (both _ (fun _ _ _ => State.pastFills_wf)
      (State.warrGhosts_wf (wf_foldl hs (fun _ _ => State.warrGo_wf))))))

end Sys2Proof.Machine
end

