-- ==== Sys2Proof/Laws/Ops.lean ====
section
/-! SUPPORT. What the shared operations that end an instruction can do: moving past it, making a result outstanding,
writing a scalar register, raising a trap. -/

namespace Sys2Proof.Machine

/-! ## Moving a group's slots -/

/-- `y` is `x` but for its PC slots, JOIN and the split stack's depth. -/
def PathOnly (x y : Group) : Prop :=
  y = { x with a := y.a, b := y.b, bLive := y.bLive, join := y.join, splitSp := y.splitSp, lastB := y.lastB }

theorem PathOnly.refl (x : Group) : PathOnly x x := rfl

theorem PathOnly.trans {x y z : Group} (h : PathOnly x y) (k : PathOnly y z) : PathOnly x z := by
  unfold PathOnly at *; rw [k, h]

theorem PathOnly.setSlot (x : Group) (b : Bool) (t : Slot) : PathOnly x (x.setSlot b t) := by
  cases b <;> rfl

theorem PathOnly.parkAt (x : Group) (b : Bool) : PathOnly x (x.parkAt b) := by
  unfold Group.parkAt; dsimp only; split
  · exact .setSlot ..
  · exact .refl _

theorem PathOnly.moveTo (x : Group) (b : Bool) (pc : W64) : PathOnly x (x.moveTo b pc) :=
  .trans (.setSlot ..) (.parkAt ..)

theorem PathOnly.reconverged (x : Group) : PathOnly x x.reconverged := by
  unfold Group.reconverged; dsimp only; split
  · rfl
  · refine PathOnly.trans ?_ (.parkAt _ _)
    rfl

theorem PathOnly.reconverge (n : Nat) (x : Group) : PathOnly x (Group.reconverge n x) := by
  induction n generalizing x with
  | zero => exact .refl _
  | succ n ih =>
    unfold Group.reconverge
    split
    · exact .trans (.reconverged x) (ih _)
    · exact .refl _

theorem PathOnly.regs {x y : Group} (h : PathOnly x y) (ds : List Dst) : RegsKept x y ds := by
  rw [h]; exact .of_eq rfl rfl rfl ds

theorem PathOnly.pathAndRegs {x y : Group} (h : PathOnly x y) : PathAndRegs x y := by
  unfold PathAndRegs; rw [h]

@[simp] theorem Group.slot_setSlot (x : Group) (b : Bool) (t : Slot) : (x.setSlot b t).slot b = t := by cases b <;> rfl

@[simp] theorem Group.slot_setSlot_not (x : Group) (b : Bool) (t : Slot) : (x.setSlot b t).slot (!b) = x.slot (!b) := by
  cases b <;> rfl

@[simp] theorem Group.bLive_setSlot (x : Group) (b : Bool) (t : Slot) : (x.setSlot b t).bLive = x.bLive := by
  cases b <;> rfl

@[simp] theorem Group.join_setSlot (x : Group) (b : Bool) (t : Slot) : (x.setSlot b t).join = x.join := by cases b <;> rfl

@[simp] theorem Group.splitSp_setSlot (x : Group) (b : Bool) (t : Slot) : (x.setSlot b t).splitSp = x.splitSp := by
  cases b <;> rfl

/-- A group whose slot B is not live does not park or reconverge (R193). -/
theorem Group.moveTo_alone (x : Group) (b : Bool) (pc : W64) (h : x.bLive = false) :
    x.moveTo b pc = x.setSlot b ((x.slot b).goTo pc) := by
  unfold Group.moveTo Group.parkAt
  dsimp only
  rw [if_neg]
  simp [h]

theorem Group.reconverge_alone (n : Nat) (x : Group) (h : x.bLive = false) : Group.reconverge n x = x := by
  cases n with
  | zero => rfl
  | succ n => unfold Group.reconverge Group.bothParked; simp [h]

/-- A group moved past its slot's instruction, and reconverged. -/
theorem Moved.passed (x : Group) (b : Bool) (len n : Nat) (ds : List Dst) :
    Moved x (Group.reconverge n (x.moveTo b (x.nextPc b len))) b len ds := by
  have hp := PathOnly.trans (.moveTo x b (x.nextPc b len)) (.reconverge n _)
  refine ⟨hp.pathAndRegs, hp.regs ds, fun h => ?_⟩
  rw [Group.moveTo_alone _ _ _ h, Group.reconverge_alone _ _ (by simpa using h)]
  simp [h]

/-- The same seen from the group before register writes. -/
theorem Moved.after_regs {x z y : Group} {b : Bool} {len : Nat} {ds es : List Dst}
    (hz : z = { x with v := z.v, s := z.s, p := z.p }) (hr : RegsKept x z ds) (h : Moved z y b len es)
    (hs : ∀ d ∈ es, d ∈ ds) : Moved x y b len ds := by
  obtain ⟨h1, h2, h3⟩ := h
  refine ⟨?_, hr.trans (h2.mono hs), fun hb => ?_⟩
  · unfold PathAndRegs at *
    rw [h1, hz]
  · have e1 : z.bLive = x.bLive := by rw [hz]
    have e2 : z.slot = x.slot := by rw [hz]; rfl
    have e3 : z.nextPc b len = x.nextPc b len := by rw [hz]; rfl
    have e4 : z.join = x.join := by rw [hz]
    have e5 : z.splitSp = x.splitSp := by rw [hz]
    have := h3 (e1.trans hb)
    rw [e2, e3, e4, e5] at this
    exact this

/-! ## States that differ in one group -/

theorem OnlyGroup.refl (s : State) (g : Nat) : OnlyGroup s s g := ⟨rfl, fun _ _ => rfl⟩

theorem OnlyGroup.trans {s t u : State} {g : Nat} (h : OnlyGroup s t g) (k : OnlyGroup t u g) : OnlyGroup s u g := by
  refine ⟨?_, fun i hi => (k.2 i hi).trans (h.2 i hi)⟩
  rw [k.1, h.1]

theorem OnlyGroup.setGrp (s : State) (g : Nat) (x : Group) : OnlyGroup s (s.setGrp g x) g :=
  ⟨rfl, fun h hh => by simp [State.setGrp, Tab.get?_put, hh]⟩

theorem OnlyGroup.modGrp (s : State) (g : Nat) (f : Group → Group) : OnlyGroup s (s.modGrp g f) g :=
  ⟨rfl, fun h hh => by simp [State.modGrp, Tab.get?_mod, hh]⟩

theorem HasGroup.setGrp (s : State) (g : Nat) (x : Group) : HasGroup (s.setGrp g x) g x := by
  simp [HasGroup, State.setGrp, Tab.get?_put]

theorem HasGroup.modGrp {s : State} {g : Nat} {x : Group} (f : Group → Group) (h : HasGroup s g x) :
    HasGroup (s.modGrp g f) g (f x) := by
  unfold HasGroup at *
  simp [State.modGrp, Tab.get?_mod, h]

/-- With no protected word in error a reconvergence pops its words unhindered (R62, R193). -/
theorem checkJoin_quiet {s : State} (h : s.upsets = []) (g : Nat) : s.checkJoin g = s.modGrp g fun x => Group.reconverge 65 x := by
  unfold State.checkJoin State.checked
  rw [h]; rfl

/-- A stored group, its slots joined where both are parked. -/
theorem join_spec {s : State} (hu : s.upsets = []) (g : Nat) (x : Group) :
    OnlyGroup s ((s.setGrp g x).checkJoin g) g ∧ HasGroup ((s.setGrp g x).checkJoin g) g (Group.reconverge 65 x) := by
  rw [checkJoin_quiet (s := s.setGrp g x) hu]
  exact ⟨.trans (.setGrp ..) (.modGrp ..), .modGrp _ (.setGrp ..)⟩

/-- What `retire` does: it stores a group and moves its slot past the instruction. -/
theorem retire_spec {s : State} (hu : s.upsets = []) (c : Cur) (x : Group) (len : Nat) :
    OnlyGroup s (s.retire c x len) c.g ∧ ∃ y, HasGroup (s.retire c x len) c.g y ∧ Moved x y c.slotB len [] :=
  ⟨(join_spec hu ..).1, _, (join_spec hu ..).2, .passed x c.slotB len 65 []⟩

/-- What `block` does: the slot holds its instruction. -/
theorem block_spec (s : State) (c : Cur) (x : Group) (w : Wait) (len : Nat) :
    OnlyGroup s (s.block c x w len) c.g ∧
      HasGroup (s.block c x w len) c.g (x.setSlot c.slotB { x.slot c.slotB with wait := w, held := true, wlen := len }) :=
  ⟨.setGrp .., .setGrp ..⟩

/-! ## Results to come -/

/-- What `result` does: the destinations are outstanding until their writes are made. -/
theorem result_spec {s : State} (hu : s.upsets = []) (c : Cur) (x x' : Group) (ds : List Dst) (wr : List RegWr) (lat len : Nat)
    (la : Option Nat) (P : Group → Prop) (ht : x'.nextTag = x.nextTag)
    (hi : (x'.slot c.slotB).ipc = (x.slot c.slotB).ipc) (hP : P (wr.foldl Group.regWr x)) :
    Outstanding s (s.result c x' ds wr lat la len) c x x' ds lat len P := by
  unfold Outstanding
  cases ds with
  | nil => rw [if_pos rfl]; exact retire_spec hu c x' len
  | cons d r =>
    rw [if_neg (by simp)]
    let p : Pend := { x'.newPend c.slotB .alu len la s.aclk (d :: r) with wr := wr }
    obtain ⟨⟨h1, h2⟩, y, h3, h4⟩ := retire_spec (s := s.post lat (.resultWriteback c.g p.tag)) hu c (x'.addPend p) len
    refine ⟨⟨?_, h2⟩, y, p, h3, h4, ht, rfl, rfl, rfl, hi, hP⟩
    show State.retire _ c (x'.addPend p) len = _
    rw [h1, ← ht]; rfl

/-! ## Scalar destinations -/

/-- A scalar destination's write: the register, and nothing else (R272). -/
theorem dstS_kept (x : Group) (o : Opnd) (w : W64) : RegsKept x (x.dstS o w) (match o with | .s n => [.s n.toNat] | _ => []) := by
  cases o <;> first | exact .refl _ _ | exact .regWr x (.s _ w) trivial

theorem dstS_regs (x : Group) (o : Opnd) (w : W64) :
    x.dstS o w = { x with v := (x.dstS o w).v, s := (x.dstS o w).s, p := (x.dstS o w).p } := by
  cases o <;> rfl

@[simp] theorem dstS_get (x : Group) (n : BitVec 7) (w : W64) : (x.dstS (.s n) w).getS n.toNat = w := by
  simp [Group.dstS]

theorem packElems_elem (w : Nat) (l : List Nat) (e : Nat) (hl : w * l.length ≤ 64) (he : e < l.length) :
    elem w (packElems w l) e = l[e] % 2 ^ w := by
  have hlt : ∀ l : List Nat, l.foldr (fun v a => v % 2 ^ w + 2 ^ w * a) 0 < 2 ^ (w * l.length) := by
    intro l
    induction l with
    | nil => simp
    | cons a r ih =>
      rw [List.foldr_cons, List.length_cons, Nat.mul_add, Nat.mul_one, Nat.add_comm (w * r.length), Nat.pow_add]
      have h1 := Nat.mod_lt a (Nat.two_pow_pos w)
      calc a % 2 ^ w + 2 ^ w * r.foldr (fun v a => v % 2 ^ w + 2 ^ w * a) 0
          < 2 ^ w + 2 ^ w * r.foldr (fun v a => v % 2 ^ w + 2 ^ w * a) 0 := by omega
        _ = 2 ^ w * (r.foldr (fun v a => v % 2 ^ w + 2 ^ w * a) 0 + 1) := by rw [Nat.mul_add, Nat.mul_one, Nat.add_comm]
        _ ≤ 2 ^ w * 2 ^ (w * r.length) := Nat.mul_le_mul_left _ ih
  have hval : ∀ l : List Nat, ∀ e, (h : e < l.length) →
      l.foldr (fun v a => v % 2 ^ w + 2 ^ w * a) 0 / 2 ^ (w * e) % 2 ^ w = l[e] % 2 ^ w := by
    intro l
    induction l with
    | nil => intro e h; exact absurd h (Nat.not_lt_zero e)
    | cons a r ih =>
      intro e h
      have hp := Nat.two_pow_pos w
      cases e with
      | zero => simp [Nat.add_mul_mod_self_left]
      | succ e =>
        rw [List.foldr_cons, Nat.mul_add, Nat.mul_one, Nat.add_comm (w * e), Nat.pow_add, ← Nat.div_div_eq_div_mul,
          Nat.add_mul_div_left _ _ hp, Nat.div_eq_of_lt (Nat.mod_lt a hp), Nat.zero_add]
        simpa using ih e (by simpa using h)
  unfold elem bitsN packElems w64
  rw [BitVec.toNat_ofNat, Nat.mod_eq_of_lt (Nat.lt_of_lt_of_le (hlt l) (Nat.pow_le_pow_right (by decide) hl))]
  exact hval l e he

/-- Element `e` of a packed scalar result (R300). -/
theorem sPack_elem (a : AluArgs) (f : Nat → Nat) (e : Nat) (h : e < a.ty.count) :
    elem a.ty.width (sPack a f) e = f e % 2 ^ a.ty.width := by
  unfold sPack elemsOf
  rw [packElems_elem _ _ e (by
    rw [List.length_map, List.length_range]; cases a.ty <;> decide) (by simpa using h)]
  simp

/-! ## Uniform, scalar and vector forms -/

/-- A uniform form runs as its body does under a true predicate. -/
theorem uniform_runs {i : Instr} {h : Hd} {len : Nat} {ds : List Dst} {post : Group → Group → Prop}
    {f : State → Cur → Group → State} (hi : ∀ s, exec i s = uniform h len s (f s))
    (hf : ∀ s c x, Current s c x → OnlyGroup s (f s c x) c.g ∧
      ∃ y, HasGroup (f s c x) c.g y ∧ Moved x y c.slotB len ds ∧ post x y) : UniformRuns i h len ds post := by
  intro s c x hc
  rw [hi]
  unfold uniform withCur
  simp only [hc.1, hc.2.1]
  constructor
  · intro hp
    rw [if_pos hp]
    obtain ⟨h1, y, h2, h3, h4⟩ := hf s c x hc
    exact ⟨_, y, rfl, h1, h2, h3, h4⟩
  · intro hp
    rw [if_neg (by simp [hp])]
    obtain ⟨h1, y, h2, h3⟩ := retire_spec hc.2.2 c x len
    exact ⟨_, y, rfl, h1, h2, h3⟩

/-- What `scalarOp` does. -/
theorem scalarOp_spec {i : Instr} {a : AluArgs} {f : Group → Nat → Nat} (hi : ∀ s, exec i s = scalarOp a s f) :
    ScalarWrites i a f := by
  refine uniform_runs hi fun s c x hc => ?_
  obtain ⟨g1, y, g2, g3⟩ := retire_spec hc.2.2 c (x.dstS a.dst (sPack a (f x))) (lenBytes a.ext.len)
  refine ⟨g1, y, g2, Moved.after_regs (dstS_regs ..) ((dstS_kept ..).mono ?_) g3 (by simp), ?_⟩
  · intro d hd; cases hh : a.dst <;> simp_all [dstsOf]
  · intro n hn e he
    have := g3.2.1.2.1 n.toNat (by simp)
    rw [this, hn, dstS_get, sPack_elem _ _ _ he]

/-- What `vecOp` does. -/
theorem vecOp_spec {i : Instr} {a : AluArgs} {lat : Nat} {la : Option Nat} {f : Group → Nat → Nat → Nat}
    (hi : ∀ s, exec i s = vecOp a s lat la f) : VectorWrites i a lat f := by
  intro s c x hc
  rw [hi]
  unfold vecOp withCur
  simp only [hc.1, hc.2.1]
  exact ⟨_, rfl, result_spec hc.2.2 c x x _ _ _ _ _ _ rfl rfl (laneWrites_written ..)⟩

/-- What `vecFloat` does. -/
theorem vecFloat_spec {i : Instr} {a : AluArgs} {n lat : Nat} {la : Option Nat} {f : Group → FElemFn}
    (hi : ∀ s, exec i s = vecFloat a s n lat la f) : FloatWrites i a lat n f := by
  intro s c x hc
  rw [hi]
  unfold vecFloat floatForm withCur
  simp only [hc.1, hc.2.1]
  constructor
  · intro h
    simp only [h]
    exact ⟨_, rfl, result_spec hc.2.2 c x _ _ _ _ _ _ _ rfl rfl (laneWrites_written ..)⟩
  · intro m v h
    simp only [h]

/-! ## Transfers -/

/-- What `transfer` does. -/
theorem transfer_spec {s : State} (hu : s.upsets = []) (c : Cur) (x : Group) (t : W64) :
    OnlyGroup s (s.transfer c x t) c.g ∧
      ∃ y, HasGroup (s.transfer c x t) c.g y ∧ Went x y c.slotB t s.aclk [] := by
  refine ⟨(join_spec hu ..).1, _, (join_spec hu ..).2, ?_⟩
  have hp : PathOnly x ((x.moveTo c.slotB t).setSlot c.slotB
      { (x.moveTo c.slotB t).slot c.slotB with readyAt := s.aclk + 4, why := 9 }) := .trans (.moveTo ..) (.setSlot ..)
  generalize hz : (x.moveTo c.slotB t).setSlot c.slotB
      { (x.moveTo c.slotB t).slot c.slotB with readyAt := s.aclk + 4, why := 9 } = z at *
  have hq : PathOnly { x with switch := x.switch || decide (t.toNat ≤ (x.slot c.slotB).ipc.toNat) }
      (if t.toNat ≤ (x.slot c.slotB).ipc.toNat then z.switchPoint else z) := by
    unfold PathOnly at *
    split
    · rename_i h; rw [hp]; simp [h, Group.switchPoint]
    · rename_i h; rw [hp]; simp [h]
  have hr := hq.trans (.reconverge 65 _)
  refine ⟨hr.pathAndRegs, ?_, fun h => ?_⟩
  · exact RegsKept.trans (.of_eq rfl rfl rfl _) (hr.regs [])
  · have hb : z.bLive = false := by
      rw [← hz, Group.bLive_setSlot, Group.moveTo_alone _ _ _ h, Group.bLive_setSlot, h]
    have e : ∀ y : Group, y.switchPoint.slot = y.slot := fun _ => rfl
    have hs : (if t.toNat ≤ (x.slot c.slotB).ipc.toNat then z.switchPoint else z).slot = z.slot := by
      split <;> rfl
    have hl : (if t.toNat ≤ (x.slot c.slotB).ipc.toNat then z.switchPoint else z).bLive = false := by
      split <;> exact hb
    rw [Group.reconverge_alone _ _ hl, hs, hl, ← hz, Group.moveTo_alone _ _ _ h]
    simp

/-- The same seen from the group before register writes. -/
theorem Went.after_regs {x z y : Group} {b : Bool} {t : W64} {now : Nat} {ds : List Dst}
    (hz : z = { x with v := z.v, s := z.s, p := z.p }) (hr : RegsKept x z ds) (h : Went z y b t now []) : Went x y b t now ds := by
  obtain ⟨h1, h2, h3⟩ := h
  have e2 : z.slot = x.slot := by rw [hz]; rfl
  have e3 : z.switch = x.switch := by rw [hz]
  refine ⟨?_, hr.trans (h2.mono (by simp)), fun hb => ?_⟩
  · unfold PathAndRegs at *
    rw [e2, e3] at h1
    rw [h1, hz]
  · have e1 : z.bLive = x.bLive := by rw [hz]
    have := h3 (e1.trans hb)
    rw [e2] at this
    exact this

/-- What `split` does where it needs no 65th entry (R192). -/
theorem split_spec {s : State} (hu : s.upsets = []) (c : Cur) (x : Group) (d : Mask) (fall target join : W64) (hd : d ≠ 0)
    (hs : x.bLive = false ∨ x.splitSp.toNat < 64) (hj : target ≠ join) :
    OnlyGroup s (s.split c x d fall target join) c.g ∧ ∃ y, HasGroup (s.split c x d fall target join) c.g y ∧
      SplitInto x y c.slotB d fall target join s.aclk := by
  unfold State.split
  rw [if_neg (by rintro ⟨h1, h2⟩; rcases hs with h | h; simp [h] at h1; omega)]
  refine ⟨(join_spec hu ..).1, _, (join_spec hu ..).2, ?_⟩
  let z : Group := if x.bLive then x.push (x.slot !c.slotB) else x
  let w : Group := { z with
    a := { Slot.empty with pc := fall, own := (x.slot c.slotB).own &&& ~~~d, exm := (x.slot c.slotB).exm &&& ~~~d, parked := decide (fall = join), free := (x.slot c.slotB).free }
    b := { Slot.empty with pc := target, own := d, exm := d, readyAt := s.aclk + 4, free := (x.slot c.slotB).free }
    bLive := true, join := join }
  have hsp : x.splitTo c.slotB d fall target join s.aclk = w := by
    unfold Group.splitTo
    dsimp only
    have hp : ∀ y : Group, y.bLive = true → y.join = join → y.b.pc = target → y.parkAt true = y := by
      intro y h1 h2 h3
      unfold Group.parkAt
      dsimp only
      rw [if_neg]
      rintro ⟨_, h4⟩
      apply hj
      rw [← h3, ← h2, ← h4]; rfl
    by_cases hf : fall = join
    · have : ∀ y : Group, y.bLive = true → y.a.pc = y.join → y.parkAt false = { y with a := { y.a with parked := true } } := by
        intro y h1 h2
        unfold Group.parkAt
        dsimp only
        rw [if_pos ⟨h1, h2⟩]; rfl
      rw [this _ rfl hf]
      rw [hp]
      · simp only [w, z, hf, decide_true]
      · rfl
      · rfl
      · rfl
    · have : ∀ y : Group, y.a.pc ≠ y.join → y.parkAt false = y := by
        intro y h2
        unfold Group.parkAt
        dsimp only
        rw [if_neg]
        rintro ⟨_, h3⟩; exact h2 h3
      rw [this _ hf, hp _ rfl rfl rfl]
      simp only [w, z, hf, decide_false]
      rfl
  rw [hsp]
  have hrec : ∀ y : Group, y.b = w.b → Group.reconverge 65 y = y := by
    intro y h2
    unfold Group.reconverge
    rw [if_neg]
    unfold Group.bothParked Slot.isParked
    rw [h2]
    have hd' : ¬ d = 0#32 := hd
    simp [w, hd', Slot.empty]
  rw [hrec _ (by split <;> rfl)]
  have hz : z = { x with split := z.split, splitSp := z.splitSp, stackFree := z.stackFree } := by
    simp only [z]; split <;> rfl
  have hsw : (if target.toNat ≤ (x.slot c.slotB).ipc.toNat then w.switchPoint else w) =
     { w with switch := x.switch || decide (target.toNat ≤ (x.slot c.slotB).ipc.toNat) } := by
    have : w.switch = x.switch := by simp only [w]; rw [hz]
    split
    · rename_i h; simp [h, Group.switchPoint]
    · rename_i h; simp [h, ← this]
  rw [hsw]
  refine ⟨?_, rfl, rfl, ?_, ?_⟩
  · simp only [w]
    generalize z = z' at hz
    rw [hz]
  · intro h; simp [w, z, h]
  · intro h
    have hzz : z = x.push (x.slot !c.slotB) := by simp [z, h]
    have hw : ∀ k, ({ w with switch := x.switch || decide (target.toNat ≤ (x.slot c.slotB).ipc.toNat) } : Group).splitWord k = (x.push (x.slot !c.slotB)).splitWord k := by
      intro k; rw [← hzz]; rfl
    refine ⟨?_, ?_, ?_, ?_, ?_, ?_⟩
    · show z.splitSp = _; rw [hzz]; rfl
    all_goals
      try intro k hk
      rw [hw]
      unfold Group.push Group.splitWord splitEntry
      simp only [numbered, List.foldl_cons, List.foldl_nil, Tab.getD_set]
    · rw [if_neg (by omega), if_neg (by omega), if_neg (by omega), if_pos trivial]
    · rw [if_neg (by omega), if_neg (by omega), if_pos trivial]
    · rw [if_neg (by omega), if_pos trivial]
    · rw [if_pos trivial]
    · rw [if_neg (by omega), if_neg (by omega), if_neg (by omega), if_neg (by omega)]

end Sys2Proof.Machine
end

