-- ==== Sys2Proof/Laws/State.lean ====
section
/-! SUPPORT. One lemma per field per named update of the state, so that no proof unfolds an update. -/

namespace Sys2Proof.Machine

/-! ## modGrp -/

@[simp] theorem State.modGrp_aclk (s : State) (g : Nat) (f : Group → Group) : (s.modGrp g f).aclk = s.aclk := rfl
@[simp] theorem State.modGrp_tick (s : State) (g : Nat) (f : Group → Group) : (s.modGrp g f).tick = s.tick := rfl
@[simp] theorem State.modGrp_tickOn (s : State) (g : Nat) (f : Group → Group) :
    (s.modGrp g f).tickOn = s.tickOn := rfl
@[simp] theorem State.modGrp_stopped (s : State) (g : Nat) (f : Group → Group) :
    (s.modGrp g f).stopped = s.stopped := rfl
@[simp] theorem State.modGrp_held (s : State) (g : Nat) (f : Group → Group) : (s.modGrp g f).held = s.held := rfl
@[simp] theorem State.modGrp_tstop (s : State) (g : Nat) (f : Group → Group) : (s.modGrp g f).tstop = s.tstop := rfl
@[simp] theorem State.modGrp_tstopAt (s : State) (g : Nat) (f : Group → Group) :
    (s.modGrp g f).tstopAt = s.tstopAt := rfl
@[simp] theorem State.modGrp_tstopArm (s : State) (g : Nat) (f : Group → Group) :
    (s.modGrp g f).tstopArm = s.tstopArm := rfl
@[simp] theorem State.modGrp_tstopErr (s : State) (g : Nat) (f : Group → Group) :
    (s.modGrp g f).tstopErr = s.tstopErr := rfl
@[simp] theorem State.modGrp_pwrlim (s : State) (g : Nat) (f : Group → Group) :
    (s.modGrp g f).pwrlim = s.pwrlim := rfl
@[simp] theorem State.modGrp_pwrstat (s : State) (g : Nat) (f : Group → Group) :
    (s.modGrp g f).pwrstat = s.pwrstat := rfl
@[simp] theorem State.modGrp_hotPwr (s : State) (g : Nat) (f : Group → Group) :
    (s.modGrp g f).hotPwr = s.hotPwr := rfl
@[simp] theorem State.modGrp_i3cDyn (s : State) (g : Nat) (f : Group → Group) :
    (s.modGrp g f).i3cDyn = s.i3cDyn := rfl
@[simp] theorem State.modGrp_i3cSel (s : State) (g : Nat) (f : Group → Group) :
    (s.modGrp g f).i3cSel = s.i3cSel := rfl
@[simp] theorem State.modGrp_agenda (s : State) (g : Nat) (f : Group → Group) :
    (s.modGrp g f).agenda = s.agenda := rfl
@[simp] theorem State.modGrp_turn (s : State) (g : Nat) (f : Group → Group) : (s.modGrp g f).turn = s.turn := rfl
@[simp] theorem State.modGrp_cur (s : State) (g : Nat) (f : Group → Group) : (s.modGrp g f).cur = s.cur := rfl
@[simp] theorem State.modGrp_fresh (s : State) (g : Nat) (f : Group → Group) : (s.modGrp g f).fresh = s.fresh := rfl
@[simp] theorem State.modGrp_nextId (s : State) (g : Nat) (f : Group → Group) :
    (s.modGrp g f).nextId = s.nextId := rfl
@[simp] theorem State.modGrp_groups (s : State) (g : Nat) (f : Group → Group) :
    (s.modGrp g f).groups = Tab.mod s.groups g f := rfl
@[simp] theorem State.modGrp_blocks (s : State) (g : Nat) (f : Group → Group) :
    (s.modGrp g f).blocks = s.blocks := rfl
@[simp] theorem State.modGrp_gangs (s : State) (g : Nat) (f : Group → Group) : (s.modGrp g f).gangs = s.gangs := rfl
@[simp] theorem State.modGrp_launches (s : State) (g : Nat) (f : Group → Group) :
    (s.modGrp g f).launches = s.launches := rfl
@[simp] theorem State.modGrp_queues (s : State) (g : Nat) (f : Group → Group) :
    (s.modGrp g f).queues = s.queues := rfl
@[simp] theorem State.modGrp_ctxs (s : State) (g : Nat) (f : Group → Group) : (s.modGrp g f).ctxs = s.ctxs := rfl
@[simp] theorem State.modGrp_parts (s : State) (g : Nat) (f : Group → Group) : (s.modGrp g f).parts = s.parts := rfl
@[simp] theorem State.modGrp_ops (s : State) (g : Nat) (f : Group → Group) : (s.modGrp g f).ops = s.ops := rfl
@[simp] theorem State.modGrp_cores (s : State) (g : Nat) (f : Group → Group) : (s.modGrp g f).cores = s.cores := rfl
@[simp] theorem State.modGrp_dies (s : State) (g : Nat) (f : Group → Group) : (s.modGrp g f).dies = s.dies := rfl
@[simp] theorem State.modGrp_links (s : State) (g : Nat) (f : Group → Group) : (s.modGrp g f).links = s.links := rfl
@[simp] theorem State.modGrp_vcs (s : State) (g : Nat) (f : Group → Group) : (s.modGrp g f).vcs = s.vcs := rfl
@[simp] theorem State.modGrp_chans (s : State) (g : Nat) (f : Group → Group) : (s.modGrp g f).chans = s.chans := rfl
@[simp] theorem State.modGrp_banks (s : State) (g : Nat) (f : Group → Group) : (s.modGrp g f).banks = s.banks := rfl
@[simp] theorem State.modGrp_arrs (s : State) (g : Nat) (f : Group → Group) : (s.modGrp g f).arrs = s.arrs := rfl
@[simp] theorem State.modGrp_tiles (s : State) (g : Nat) (f : Group → Group) : (s.modGrp g f).tiles = s.tiles := rfl
@[simp] theorem State.modGrp_tileOwn (s : State) (g : Nat) (f : Group → Group) :
    (s.modGrp g f).tileOwn = s.tileOwn := rfl
@[simp] theorem State.modGrp_pms (s : State) (g : Nat) (f : Group → Group) : (s.modGrp g f).pms = s.pms := rfl
@[simp] theorem State.modGrp_peerOut (s : State) (g : Nat) (f : Group → Group) :
    (s.modGrp g f).peerOut = s.peerOut := rfl
@[simp] theorem State.modGrp_outbox (s : State) (g : Nat) (f : Group → Group) :
    (s.modGrp g f).outbox = s.outbox := rfl
@[simp] theorem State.modGrp_ghosts (s : State) (g : Nat) (f : Group → Group) :
    (s.modGrp g f).ghosts = s.ghosts := rfl
@[simp] theorem State.modGrp_upsets (s : State) (g : Nat) (f : Group → Group) :
    (s.modGrp g f).upsets = s.upsets := rfl
@[simp] theorem State.modGrp_coldAt (s : State) (g : Nat) (f : Group → Group) :
    (s.modGrp g f).coldAt = s.coldAt := rfl
@[simp] theorem State.modGrp_mem (s : State) (g : Nat) (f : Group → Group) : (s.modGrp g f).mem = s.mem := rfl
@[simp] theorem State.modGrp_resp (s : State) (g : Nat) (f : Group → Group) : (s.modGrp g f).resp = s.resp := rfl

/-! ## setGrp -/

@[simp] theorem State.setGrp_aclk (s : State) (g : Nat) (x : Group) : (s.setGrp g x).aclk = s.aclk := rfl
@[simp] theorem State.setGrp_tick (s : State) (g : Nat) (x : Group) : (s.setGrp g x).tick = s.tick := rfl
@[simp] theorem State.setGrp_tickOn (s : State) (g : Nat) (x : Group) : (s.setGrp g x).tickOn = s.tickOn := rfl
@[simp] theorem State.setGrp_stopped (s : State) (g : Nat) (x : Group) : (s.setGrp g x).stopped = s.stopped := rfl
@[simp] theorem State.setGrp_held (s : State) (g : Nat) (x : Group) : (s.setGrp g x).held = s.held := rfl
@[simp] theorem State.setGrp_tstop (s : State) (g : Nat) (x : Group) : (s.setGrp g x).tstop = s.tstop := rfl
@[simp] theorem State.setGrp_tstopAt (s : State) (g : Nat) (x : Group) : (s.setGrp g x).tstopAt = s.tstopAt := rfl
@[simp] theorem State.setGrp_tstopArm (s : State) (g : Nat) (x : Group) : (s.setGrp g x).tstopArm = s.tstopArm := rfl
@[simp] theorem State.setGrp_tstopErr (s : State) (g : Nat) (x : Group) : (s.setGrp g x).tstopErr = s.tstopErr := rfl
@[simp] theorem State.setGrp_pwrlim (s : State) (g : Nat) (x : Group) : (s.setGrp g x).pwrlim = s.pwrlim := rfl
@[simp] theorem State.setGrp_pwrstat (s : State) (g : Nat) (x : Group) : (s.setGrp g x).pwrstat = s.pwrstat := rfl
@[simp] theorem State.setGrp_hotPwr (s : State) (g : Nat) (x : Group) : (s.setGrp g x).hotPwr = s.hotPwr := rfl
@[simp] theorem State.setGrp_i3cDyn (s : State) (g : Nat) (x : Group) : (s.setGrp g x).i3cDyn = s.i3cDyn := rfl
@[simp] theorem State.setGrp_i3cSel (s : State) (g : Nat) (x : Group) : (s.setGrp g x).i3cSel = s.i3cSel := rfl
@[simp] theorem State.setGrp_agenda (s : State) (g : Nat) (x : Group) : (s.setGrp g x).agenda = s.agenda := rfl
@[simp] theorem State.setGrp_turn (s : State) (g : Nat) (x : Group) : (s.setGrp g x).turn = s.turn := rfl
@[simp] theorem State.setGrp_cur (s : State) (g : Nat) (x : Group) : (s.setGrp g x).cur = s.cur := rfl
@[simp] theorem State.setGrp_fresh (s : State) (g : Nat) (x : Group) : (s.setGrp g x).fresh = s.fresh := rfl
@[simp] theorem State.setGrp_nextId (s : State) (g : Nat) (x : Group) : (s.setGrp g x).nextId = s.nextId := rfl
@[simp] theorem State.setGrp_groups (s : State) (g : Nat) (x : Group) :
    (s.setGrp g x).groups = Tab.put s.groups g x := rfl
@[simp] theorem State.setGrp_blocks (s : State) (g : Nat) (x : Group) : (s.setGrp g x).blocks = s.blocks := rfl
@[simp] theorem State.setGrp_gangs (s : State) (g : Nat) (x : Group) : (s.setGrp g x).gangs = s.gangs := rfl
@[simp] theorem State.setGrp_launches (s : State) (g : Nat) (x : Group) : (s.setGrp g x).launches = s.launches := rfl
@[simp] theorem State.setGrp_queues (s : State) (g : Nat) (x : Group) : (s.setGrp g x).queues = s.queues := rfl
@[simp] theorem State.setGrp_ctxs (s : State) (g : Nat) (x : Group) : (s.setGrp g x).ctxs = s.ctxs := rfl
@[simp] theorem State.setGrp_parts (s : State) (g : Nat) (x : Group) : (s.setGrp g x).parts = s.parts := rfl
@[simp] theorem State.setGrp_ops (s : State) (g : Nat) (x : Group) : (s.setGrp g x).ops = s.ops := rfl
@[simp] theorem State.setGrp_cores (s : State) (g : Nat) (x : Group) : (s.setGrp g x).cores = s.cores := rfl
@[simp] theorem State.setGrp_dies (s : State) (g : Nat) (x : Group) : (s.setGrp g x).dies = s.dies := rfl
@[simp] theorem State.setGrp_links (s : State) (g : Nat) (x : Group) : (s.setGrp g x).links = s.links := rfl
@[simp] theorem State.setGrp_vcs (s : State) (g : Nat) (x : Group) : (s.setGrp g x).vcs = s.vcs := rfl
@[simp] theorem State.setGrp_chans (s : State) (g : Nat) (x : Group) : (s.setGrp g x).chans = s.chans := rfl
@[simp] theorem State.setGrp_banks (s : State) (g : Nat) (x : Group) : (s.setGrp g x).banks = s.banks := rfl
@[simp] theorem State.setGrp_arrs (s : State) (g : Nat) (x : Group) : (s.setGrp g x).arrs = s.arrs := rfl
@[simp] theorem State.setGrp_tiles (s : State) (g : Nat) (x : Group) : (s.setGrp g x).tiles = s.tiles := rfl
@[simp] theorem State.setGrp_tileOwn (s : State) (g : Nat) (x : Group) : (s.setGrp g x).tileOwn = s.tileOwn := rfl
@[simp] theorem State.setGrp_pms (s : State) (g : Nat) (x : Group) : (s.setGrp g x).pms = s.pms := rfl
@[simp] theorem State.setGrp_peerOut (s : State) (g : Nat) (x : Group) : (s.setGrp g x).peerOut = s.peerOut := rfl
@[simp] theorem State.setGrp_outbox (s : State) (g : Nat) (x : Group) : (s.setGrp g x).outbox = s.outbox := rfl
@[simp] theorem State.setGrp_ghosts (s : State) (g : Nat) (x : Group) : (s.setGrp g x).ghosts = s.ghosts := rfl
@[simp] theorem State.setGrp_upsets (s : State) (g : Nat) (x : Group) : (s.setGrp g x).upsets = s.upsets := rfl
@[simp] theorem State.setGrp_coldAt (s : State) (g : Nat) (x : Group) : (s.setGrp g x).coldAt = s.coldAt := rfl
@[simp] theorem State.setGrp_mem (s : State) (g : Nat) (x : Group) : (s.setGrp g x).mem = s.mem := rfl
@[simp] theorem State.setGrp_resp (s : State) (g : Nat) (x : Group) : (s.setGrp g x).resp = s.resp := rfl

/-! ## modCtx -/

@[simp] theorem State.modCtx_aclk (s : State) (k : Nat) (f : Ctx → Ctx) : (s.modCtx k f).aclk = s.aclk := rfl
@[simp] theorem State.modCtx_tick (s : State) (k : Nat) (f : Ctx → Ctx) : (s.modCtx k f).tick = s.tick := rfl
@[simp] theorem State.modCtx_tickOn (s : State) (k : Nat) (f : Ctx → Ctx) : (s.modCtx k f).tickOn = s.tickOn := rfl
@[simp] theorem State.modCtx_stopped (s : State) (k : Nat) (f : Ctx → Ctx) : (s.modCtx k f).stopped = s.stopped := rfl
@[simp] theorem State.modCtx_held (s : State) (k : Nat) (f : Ctx → Ctx) : (s.modCtx k f).held = s.held := rfl
@[simp] theorem State.modCtx_tstop (s : State) (k : Nat) (f : Ctx → Ctx) : (s.modCtx k f).tstop = s.tstop := rfl
@[simp] theorem State.modCtx_tstopAt (s : State) (k : Nat) (f : Ctx → Ctx) : (s.modCtx k f).tstopAt = s.tstopAt := rfl
@[simp] theorem State.modCtx_tstopArm (s : State) (k : Nat) (f : Ctx → Ctx) :
    (s.modCtx k f).tstopArm = s.tstopArm := rfl
@[simp] theorem State.modCtx_tstopErr (s : State) (k : Nat) (f : Ctx → Ctx) :
    (s.modCtx k f).tstopErr = s.tstopErr := rfl
@[simp] theorem State.modCtx_pwrlim (s : State) (k : Nat) (f : Ctx → Ctx) : (s.modCtx k f).pwrlim = s.pwrlim := rfl
@[simp] theorem State.modCtx_pwrstat (s : State) (k : Nat) (f : Ctx → Ctx) : (s.modCtx k f).pwrstat = s.pwrstat := rfl
@[simp] theorem State.modCtx_hotPwr (s : State) (k : Nat) (f : Ctx → Ctx) : (s.modCtx k f).hotPwr = s.hotPwr := rfl
@[simp] theorem State.modCtx_i3cDyn (s : State) (k : Nat) (f : Ctx → Ctx) : (s.modCtx k f).i3cDyn = s.i3cDyn := rfl
@[simp] theorem State.modCtx_i3cSel (s : State) (k : Nat) (f : Ctx → Ctx) : (s.modCtx k f).i3cSel = s.i3cSel := rfl
@[simp] theorem State.modCtx_agenda (s : State) (k : Nat) (f : Ctx → Ctx) : (s.modCtx k f).agenda = s.agenda := rfl
@[simp] theorem State.modCtx_turn (s : State) (k : Nat) (f : Ctx → Ctx) : (s.modCtx k f).turn = s.turn := rfl
@[simp] theorem State.modCtx_cur (s : State) (k : Nat) (f : Ctx → Ctx) : (s.modCtx k f).cur = s.cur := rfl
@[simp] theorem State.modCtx_fresh (s : State) (k : Nat) (f : Ctx → Ctx) : (s.modCtx k f).fresh = s.fresh := rfl
@[simp] theorem State.modCtx_nextId (s : State) (k : Nat) (f : Ctx → Ctx) : (s.modCtx k f).nextId = s.nextId := rfl
@[simp] theorem State.modCtx_groups (s : State) (k : Nat) (f : Ctx → Ctx) : (s.modCtx k f).groups = s.groups := rfl
@[simp] theorem State.modCtx_blocks (s : State) (k : Nat) (f : Ctx → Ctx) : (s.modCtx k f).blocks = s.blocks := rfl
@[simp] theorem State.modCtx_gangs (s : State) (k : Nat) (f : Ctx → Ctx) : (s.modCtx k f).gangs = s.gangs := rfl
@[simp] theorem State.modCtx_launches (s : State) (k : Nat) (f : Ctx → Ctx) :
    (s.modCtx k f).launches = s.launches := rfl
@[simp] theorem State.modCtx_queues (s : State) (k : Nat) (f : Ctx → Ctx) : (s.modCtx k f).queues = s.queues := rfl
@[simp] theorem State.modCtx_ctxs (s : State) (k : Nat) (f : Ctx → Ctx) :
    (s.modCtx k f).ctxs = Tab.mod s.ctxs k f := rfl
@[simp] theorem State.modCtx_parts (s : State) (k : Nat) (f : Ctx → Ctx) : (s.modCtx k f).parts = s.parts := rfl
@[simp] theorem State.modCtx_ops (s : State) (k : Nat) (f : Ctx → Ctx) : (s.modCtx k f).ops = s.ops := rfl
@[simp] theorem State.modCtx_cores (s : State) (k : Nat) (f : Ctx → Ctx) : (s.modCtx k f).cores = s.cores := rfl
@[simp] theorem State.modCtx_dies (s : State) (k : Nat) (f : Ctx → Ctx) : (s.modCtx k f).dies = s.dies := rfl
@[simp] theorem State.modCtx_links (s : State) (k : Nat) (f : Ctx → Ctx) : (s.modCtx k f).links = s.links := rfl
@[simp] theorem State.modCtx_vcs (s : State) (k : Nat) (f : Ctx → Ctx) : (s.modCtx k f).vcs = s.vcs := rfl
@[simp] theorem State.modCtx_chans (s : State) (k : Nat) (f : Ctx → Ctx) : (s.modCtx k f).chans = s.chans := rfl
@[simp] theorem State.modCtx_banks (s : State) (k : Nat) (f : Ctx → Ctx) : (s.modCtx k f).banks = s.banks := rfl
@[simp] theorem State.modCtx_arrs (s : State) (k : Nat) (f : Ctx → Ctx) : (s.modCtx k f).arrs = s.arrs := rfl
@[simp] theorem State.modCtx_tiles (s : State) (k : Nat) (f : Ctx → Ctx) : (s.modCtx k f).tiles = s.tiles := rfl
@[simp] theorem State.modCtx_tileOwn (s : State) (k : Nat) (f : Ctx → Ctx) : (s.modCtx k f).tileOwn = s.tileOwn := rfl
@[simp] theorem State.modCtx_pms (s : State) (k : Nat) (f : Ctx → Ctx) : (s.modCtx k f).pms = s.pms := rfl
@[simp] theorem State.modCtx_peerOut (s : State) (k : Nat) (f : Ctx → Ctx) : (s.modCtx k f).peerOut = s.peerOut := rfl
@[simp] theorem State.modCtx_outbox (s : State) (k : Nat) (f : Ctx → Ctx) : (s.modCtx k f).outbox = s.outbox := rfl
@[simp] theorem State.modCtx_ghosts (s : State) (k : Nat) (f : Ctx → Ctx) : (s.modCtx k f).ghosts = s.ghosts := rfl
@[simp] theorem State.modCtx_upsets (s : State) (k : Nat) (f : Ctx → Ctx) : (s.modCtx k f).upsets = s.upsets := rfl
@[simp] theorem State.modCtx_coldAt (s : State) (k : Nat) (f : Ctx → Ctx) : (s.modCtx k f).coldAt = s.coldAt := rfl
@[simp] theorem State.modCtx_mem (s : State) (k : Nat) (f : Ctx → Ctx) : (s.modCtx k f).mem = s.mem := rfl
@[simp] theorem State.modCtx_resp (s : State) (k : Nat) (f : Ctx → Ctx) : (s.modCtx k f).resp = s.resp := rfl

/-! ## modBlk -/

@[simp] theorem State.modBlk_aclk (s : State) (k : Nat) (f : Block → Block) : (s.modBlk k f).aclk = s.aclk := rfl
@[simp] theorem State.modBlk_tick (s : State) (k : Nat) (f : Block → Block) : (s.modBlk k f).tick = s.tick := rfl
@[simp] theorem State.modBlk_tickOn (s : State) (k : Nat) (f : Block → Block) :
    (s.modBlk k f).tickOn = s.tickOn := rfl
@[simp] theorem State.modBlk_stopped (s : State) (k : Nat) (f : Block → Block) :
    (s.modBlk k f).stopped = s.stopped := rfl
@[simp] theorem State.modBlk_held (s : State) (k : Nat) (f : Block → Block) : (s.modBlk k f).held = s.held := rfl
@[simp] theorem State.modBlk_tstop (s : State) (k : Nat) (f : Block → Block) : (s.modBlk k f).tstop = s.tstop := rfl
@[simp] theorem State.modBlk_tstopAt (s : State) (k : Nat) (f : Block → Block) :
    (s.modBlk k f).tstopAt = s.tstopAt := rfl
@[simp] theorem State.modBlk_tstopArm (s : State) (k : Nat) (f : Block → Block) :
    (s.modBlk k f).tstopArm = s.tstopArm := rfl
@[simp] theorem State.modBlk_tstopErr (s : State) (k : Nat) (f : Block → Block) :
    (s.modBlk k f).tstopErr = s.tstopErr := rfl
@[simp] theorem State.modBlk_pwrlim (s : State) (k : Nat) (f : Block → Block) :
    (s.modBlk k f).pwrlim = s.pwrlim := rfl
@[simp] theorem State.modBlk_pwrstat (s : State) (k : Nat) (f : Block → Block) :
    (s.modBlk k f).pwrstat = s.pwrstat := rfl
@[simp] theorem State.modBlk_hotPwr (s : State) (k : Nat) (f : Block → Block) :
    (s.modBlk k f).hotPwr = s.hotPwr := rfl
@[simp] theorem State.modBlk_i3cDyn (s : State) (k : Nat) (f : Block → Block) :
    (s.modBlk k f).i3cDyn = s.i3cDyn := rfl
@[simp] theorem State.modBlk_i3cSel (s : State) (k : Nat) (f : Block → Block) :
    (s.modBlk k f).i3cSel = s.i3cSel := rfl
@[simp] theorem State.modBlk_agenda (s : State) (k : Nat) (f : Block → Block) :
    (s.modBlk k f).agenda = s.agenda := rfl
@[simp] theorem State.modBlk_turn (s : State) (k : Nat) (f : Block → Block) : (s.modBlk k f).turn = s.turn := rfl
@[simp] theorem State.modBlk_cur (s : State) (k : Nat) (f : Block → Block) : (s.modBlk k f).cur = s.cur := rfl
@[simp] theorem State.modBlk_fresh (s : State) (k : Nat) (f : Block → Block) : (s.modBlk k f).fresh = s.fresh := rfl
@[simp] theorem State.modBlk_nextId (s : State) (k : Nat) (f : Block → Block) :
    (s.modBlk k f).nextId = s.nextId := rfl
@[simp] theorem State.modBlk_groups (s : State) (k : Nat) (f : Block → Block) :
    (s.modBlk k f).groups = s.groups := rfl
@[simp] theorem State.modBlk_blocks (s : State) (k : Nat) (f : Block → Block) :
    (s.modBlk k f).blocks = Tab.mod s.blocks k f := rfl
@[simp] theorem State.modBlk_gangs (s : State) (k : Nat) (f : Block → Block) : (s.modBlk k f).gangs = s.gangs := rfl
@[simp] theorem State.modBlk_launches (s : State) (k : Nat) (f : Block → Block) :
    (s.modBlk k f).launches = s.launches := rfl
@[simp] theorem State.modBlk_queues (s : State) (k : Nat) (f : Block → Block) :
    (s.modBlk k f).queues = s.queues := rfl
@[simp] theorem State.modBlk_ctxs (s : State) (k : Nat) (f : Block → Block) : (s.modBlk k f).ctxs = s.ctxs := rfl
@[simp] theorem State.modBlk_parts (s : State) (k : Nat) (f : Block → Block) : (s.modBlk k f).parts = s.parts := rfl
@[simp] theorem State.modBlk_ops (s : State) (k : Nat) (f : Block → Block) : (s.modBlk k f).ops = s.ops := rfl
@[simp] theorem State.modBlk_cores (s : State) (k : Nat) (f : Block → Block) : (s.modBlk k f).cores = s.cores := rfl
@[simp] theorem State.modBlk_dies (s : State) (k : Nat) (f : Block → Block) : (s.modBlk k f).dies = s.dies := rfl
@[simp] theorem State.modBlk_links (s : State) (k : Nat) (f : Block → Block) : (s.modBlk k f).links = s.links := rfl
@[simp] theorem State.modBlk_vcs (s : State) (k : Nat) (f : Block → Block) : (s.modBlk k f).vcs = s.vcs := rfl
@[simp] theorem State.modBlk_chans (s : State) (k : Nat) (f : Block → Block) : (s.modBlk k f).chans = s.chans := rfl
@[simp] theorem State.modBlk_banks (s : State) (k : Nat) (f : Block → Block) : (s.modBlk k f).banks = s.banks := rfl
@[simp] theorem State.modBlk_arrs (s : State) (k : Nat) (f : Block → Block) : (s.modBlk k f).arrs = s.arrs := rfl
@[simp] theorem State.modBlk_tiles (s : State) (k : Nat) (f : Block → Block) : (s.modBlk k f).tiles = s.tiles := rfl
@[simp] theorem State.modBlk_tileOwn (s : State) (k : Nat) (f : Block → Block) :
    (s.modBlk k f).tileOwn = s.tileOwn := rfl
@[simp] theorem State.modBlk_pms (s : State) (k : Nat) (f : Block → Block) : (s.modBlk k f).pms = s.pms := rfl
@[simp] theorem State.modBlk_peerOut (s : State) (k : Nat) (f : Block → Block) :
    (s.modBlk k f).peerOut = s.peerOut := rfl
@[simp] theorem State.modBlk_outbox (s : State) (k : Nat) (f : Block → Block) :
    (s.modBlk k f).outbox = s.outbox := rfl
@[simp] theorem State.modBlk_ghosts (s : State) (k : Nat) (f : Block → Block) :
    (s.modBlk k f).ghosts = s.ghosts := rfl
@[simp] theorem State.modBlk_upsets (s : State) (k : Nat) (f : Block → Block) :
    (s.modBlk k f).upsets = s.upsets := rfl
@[simp] theorem State.modBlk_coldAt (s : State) (k : Nat) (f : Block → Block) :
    (s.modBlk k f).coldAt = s.coldAt := rfl
@[simp] theorem State.modBlk_mem (s : State) (k : Nat) (f : Block → Block) : (s.modBlk k f).mem = s.mem := rfl
@[simp] theorem State.modBlk_resp (s : State) (k : Nat) (f : Block → Block) : (s.modBlk k f).resp = s.resp := rfl

/-! ## modCore -/

@[simp] theorem State.modCore_aclk (s : State) (c : Nat) (f : Core → Core) : (s.modCore c f).aclk = s.aclk := rfl
@[simp] theorem State.modCore_tick (s : State) (c : Nat) (f : Core → Core) : (s.modCore c f).tick = s.tick := rfl
@[simp] theorem State.modCore_tickOn (s : State) (c : Nat) (f : Core → Core) :
    (s.modCore c f).tickOn = s.tickOn := rfl
@[simp] theorem State.modCore_stopped (s : State) (c : Nat) (f : Core → Core) :
    (s.modCore c f).stopped = s.stopped := rfl
@[simp] theorem State.modCore_held (s : State) (c : Nat) (f : Core → Core) : (s.modCore c f).held = s.held := rfl
@[simp] theorem State.modCore_tstop (s : State) (c : Nat) (f : Core → Core) : (s.modCore c f).tstop = s.tstop := rfl
@[simp] theorem State.modCore_tstopAt (s : State) (c : Nat) (f : Core → Core) :
    (s.modCore c f).tstopAt = s.tstopAt := rfl
@[simp] theorem State.modCore_tstopArm (s : State) (c : Nat) (f : Core → Core) :
    (s.modCore c f).tstopArm = s.tstopArm := rfl
@[simp] theorem State.modCore_tstopErr (s : State) (c : Nat) (f : Core → Core) :
    (s.modCore c f).tstopErr = s.tstopErr := rfl
@[simp] theorem State.modCore_pwrlim (s : State) (c : Nat) (f : Core → Core) :
    (s.modCore c f).pwrlim = s.pwrlim := rfl
@[simp] theorem State.modCore_pwrstat (s : State) (c : Nat) (f : Core → Core) :
    (s.modCore c f).pwrstat = s.pwrstat := rfl
@[simp] theorem State.modCore_hotPwr (s : State) (c : Nat) (f : Core → Core) :
    (s.modCore c f).hotPwr = s.hotPwr := rfl
@[simp] theorem State.modCore_i3cDyn (s : State) (c : Nat) (f : Core → Core) :
    (s.modCore c f).i3cDyn = s.i3cDyn := rfl
@[simp] theorem State.modCore_i3cSel (s : State) (c : Nat) (f : Core → Core) :
    (s.modCore c f).i3cSel = s.i3cSel := rfl
@[simp] theorem State.modCore_agenda (s : State) (c : Nat) (f : Core → Core) :
    (s.modCore c f).agenda = s.agenda := rfl
@[simp] theorem State.modCore_turn (s : State) (c : Nat) (f : Core → Core) : (s.modCore c f).turn = s.turn := rfl
@[simp] theorem State.modCore_cur (s : State) (c : Nat) (f : Core → Core) : (s.modCore c f).cur = s.cur := rfl
@[simp] theorem State.modCore_fresh (s : State) (c : Nat) (f : Core → Core) : (s.modCore c f).fresh = s.fresh := rfl
@[simp] theorem State.modCore_nextId (s : State) (c : Nat) (f : Core → Core) :
    (s.modCore c f).nextId = s.nextId := rfl
@[simp] theorem State.modCore_groups (s : State) (c : Nat) (f : Core → Core) :
    (s.modCore c f).groups = s.groups := rfl
@[simp] theorem State.modCore_blocks (s : State) (c : Nat) (f : Core → Core) :
    (s.modCore c f).blocks = s.blocks := rfl
@[simp] theorem State.modCore_gangs (s : State) (c : Nat) (f : Core → Core) : (s.modCore c f).gangs = s.gangs := rfl
@[simp] theorem State.modCore_launches (s : State) (c : Nat) (f : Core → Core) :
    (s.modCore c f).launches = s.launches := rfl
@[simp] theorem State.modCore_queues (s : State) (c : Nat) (f : Core → Core) :
    (s.modCore c f).queues = s.queues := rfl
@[simp] theorem State.modCore_ctxs (s : State) (c : Nat) (f : Core → Core) : (s.modCore c f).ctxs = s.ctxs := rfl
@[simp] theorem State.modCore_parts (s : State) (c : Nat) (f : Core → Core) : (s.modCore c f).parts = s.parts := rfl
@[simp] theorem State.modCore_ops (s : State) (c : Nat) (f : Core → Core) : (s.modCore c f).ops = s.ops := rfl
@[simp] theorem State.modCore_cores (s : State) (c : Nat) (f : Core → Core) :
    (s.modCore c f).cores = Tab.put s.cores c (f (s.core c)) := rfl
@[simp] theorem State.modCore_dies (s : State) (c : Nat) (f : Core → Core) : (s.modCore c f).dies = s.dies := rfl
@[simp] theorem State.modCore_links (s : State) (c : Nat) (f : Core → Core) : (s.modCore c f).links = s.links := rfl
@[simp] theorem State.modCore_vcs (s : State) (c : Nat) (f : Core → Core) : (s.modCore c f).vcs = s.vcs := rfl
@[simp] theorem State.modCore_chans (s : State) (c : Nat) (f : Core → Core) : (s.modCore c f).chans = s.chans := rfl
@[simp] theorem State.modCore_banks (s : State) (c : Nat) (f : Core → Core) : (s.modCore c f).banks = s.banks := rfl
@[simp] theorem State.modCore_arrs (s : State) (c : Nat) (f : Core → Core) : (s.modCore c f).arrs = s.arrs := rfl
@[simp] theorem State.modCore_tiles (s : State) (c : Nat) (f : Core → Core) : (s.modCore c f).tiles = s.tiles := rfl
@[simp] theorem State.modCore_tileOwn (s : State) (c : Nat) (f : Core → Core) :
    (s.modCore c f).tileOwn = s.tileOwn := rfl
@[simp] theorem State.modCore_pms (s : State) (c : Nat) (f : Core → Core) : (s.modCore c f).pms = s.pms := rfl
@[simp] theorem State.modCore_peerOut (s : State) (c : Nat) (f : Core → Core) :
    (s.modCore c f).peerOut = s.peerOut := rfl
@[simp] theorem State.modCore_outbox (s : State) (c : Nat) (f : Core → Core) :
    (s.modCore c f).outbox = s.outbox := rfl
@[simp] theorem State.modCore_ghosts (s : State) (c : Nat) (f : Core → Core) :
    (s.modCore c f).ghosts = s.ghosts := rfl
@[simp] theorem State.modCore_upsets (s : State) (c : Nat) (f : Core → Core) :
    (s.modCore c f).upsets = s.upsets := rfl
@[simp] theorem State.modCore_coldAt (s : State) (c : Nat) (f : Core → Core) :
    (s.modCore c f).coldAt = s.coldAt := rfl
@[simp] theorem State.modCore_mem (s : State) (c : Nat) (f : Core → Core) : (s.modCore c f).mem = s.mem := rfl
@[simp] theorem State.modCore_resp (s : State) (c : Nat) (f : Core → Core) : (s.modCore c f).resp = s.resp := rfl

/-! ## modDie -/

@[simp] theorem State.modDie_aclk (s : State) (d : Nat) (f : Die → Die) : (s.modDie d f).aclk = s.aclk := rfl
@[simp] theorem State.modDie_tick (s : State) (d : Nat) (f : Die → Die) : (s.modDie d f).tick = s.tick := rfl
@[simp] theorem State.modDie_tickOn (s : State) (d : Nat) (f : Die → Die) : (s.modDie d f).tickOn = s.tickOn := rfl
@[simp] theorem State.modDie_stopped (s : State) (d : Nat) (f : Die → Die) : (s.modDie d f).stopped = s.stopped := rfl
@[simp] theorem State.modDie_held (s : State) (d : Nat) (f : Die → Die) : (s.modDie d f).held = s.held := rfl
@[simp] theorem State.modDie_tstop (s : State) (d : Nat) (f : Die → Die) : (s.modDie d f).tstop = s.tstop := rfl
@[simp] theorem State.modDie_tstopAt (s : State) (d : Nat) (f : Die → Die) : (s.modDie d f).tstopAt = s.tstopAt := rfl
@[simp] theorem State.modDie_tstopArm (s : State) (d : Nat) (f : Die → Die) :
    (s.modDie d f).tstopArm = s.tstopArm := rfl
@[simp] theorem State.modDie_tstopErr (s : State) (d : Nat) (f : Die → Die) :
    (s.modDie d f).tstopErr = s.tstopErr := rfl
@[simp] theorem State.modDie_pwrlim (s : State) (d : Nat) (f : Die → Die) : (s.modDie d f).pwrlim = s.pwrlim := rfl
@[simp] theorem State.modDie_pwrstat (s : State) (d : Nat) (f : Die → Die) : (s.modDie d f).pwrstat = s.pwrstat := rfl
@[simp] theorem State.modDie_hotPwr (s : State) (d : Nat) (f : Die → Die) : (s.modDie d f).hotPwr = s.hotPwr := rfl
@[simp] theorem State.modDie_i3cDyn (s : State) (d : Nat) (f : Die → Die) : (s.modDie d f).i3cDyn = s.i3cDyn := rfl
@[simp] theorem State.modDie_i3cSel (s : State) (d : Nat) (f : Die → Die) : (s.modDie d f).i3cSel = s.i3cSel := rfl
@[simp] theorem State.modDie_agenda (s : State) (d : Nat) (f : Die → Die) : (s.modDie d f).agenda = s.agenda := rfl
@[simp] theorem State.modDie_turn (s : State) (d : Nat) (f : Die → Die) : (s.modDie d f).turn = s.turn := rfl
@[simp] theorem State.modDie_cur (s : State) (d : Nat) (f : Die → Die) : (s.modDie d f).cur = s.cur := rfl
@[simp] theorem State.modDie_fresh (s : State) (d : Nat) (f : Die → Die) : (s.modDie d f).fresh = s.fresh := rfl
@[simp] theorem State.modDie_nextId (s : State) (d : Nat) (f : Die → Die) : (s.modDie d f).nextId = s.nextId := rfl
@[simp] theorem State.modDie_groups (s : State) (d : Nat) (f : Die → Die) : (s.modDie d f).groups = s.groups := rfl
@[simp] theorem State.modDie_blocks (s : State) (d : Nat) (f : Die → Die) : (s.modDie d f).blocks = s.blocks := rfl
@[simp] theorem State.modDie_gangs (s : State) (d : Nat) (f : Die → Die) : (s.modDie d f).gangs = s.gangs := rfl
@[simp] theorem State.modDie_launches (s : State) (d : Nat) (f : Die → Die) :
    (s.modDie d f).launches = s.launches := rfl
@[simp] theorem State.modDie_queues (s : State) (d : Nat) (f : Die → Die) : (s.modDie d f).queues = s.queues := rfl
@[simp] theorem State.modDie_ctxs (s : State) (d : Nat) (f : Die → Die) : (s.modDie d f).ctxs = s.ctxs := rfl
@[simp] theorem State.modDie_parts (s : State) (d : Nat) (f : Die → Die) : (s.modDie d f).parts = s.parts := rfl
@[simp] theorem State.modDie_ops (s : State) (d : Nat) (f : Die → Die) : (s.modDie d f).ops = s.ops := rfl
@[simp] theorem State.modDie_cores (s : State) (d : Nat) (f : Die → Die) : (s.modDie d f).cores = s.cores := rfl
@[simp] theorem State.modDie_dies (s : State) (d : Nat) (f : Die → Die) :
    (s.modDie d f).dies = Tab.put s.dies d (f (s.die d)) := rfl
@[simp] theorem State.modDie_links (s : State) (d : Nat) (f : Die → Die) : (s.modDie d f).links = s.links := rfl
@[simp] theorem State.modDie_vcs (s : State) (d : Nat) (f : Die → Die) : (s.modDie d f).vcs = s.vcs := rfl
@[simp] theorem State.modDie_chans (s : State) (d : Nat) (f : Die → Die) : (s.modDie d f).chans = s.chans := rfl
@[simp] theorem State.modDie_banks (s : State) (d : Nat) (f : Die → Die) : (s.modDie d f).banks = s.banks := rfl
@[simp] theorem State.modDie_arrs (s : State) (d : Nat) (f : Die → Die) : (s.modDie d f).arrs = s.arrs := rfl
@[simp] theorem State.modDie_tiles (s : State) (d : Nat) (f : Die → Die) : (s.modDie d f).tiles = s.tiles := rfl
@[simp] theorem State.modDie_tileOwn (s : State) (d : Nat) (f : Die → Die) : (s.modDie d f).tileOwn = s.tileOwn := rfl
@[simp] theorem State.modDie_pms (s : State) (d : Nat) (f : Die → Die) : (s.modDie d f).pms = s.pms := rfl
@[simp] theorem State.modDie_peerOut (s : State) (d : Nat) (f : Die → Die) : (s.modDie d f).peerOut = s.peerOut := rfl
@[simp] theorem State.modDie_outbox (s : State) (d : Nat) (f : Die → Die) : (s.modDie d f).outbox = s.outbox := rfl
@[simp] theorem State.modDie_ghosts (s : State) (d : Nat) (f : Die → Die) : (s.modDie d f).ghosts = s.ghosts := rfl
@[simp] theorem State.modDie_upsets (s : State) (d : Nat) (f : Die → Die) : (s.modDie d f).upsets = s.upsets := rfl
@[simp] theorem State.modDie_coldAt (s : State) (d : Nat) (f : Die → Die) : (s.modDie d f).coldAt = s.coldAt := rfl
@[simp] theorem State.modDie_mem (s : State) (d : Nat) (f : Die → Die) : (s.modDie d f).mem = s.mem := rfl
@[simp] theorem State.modDie_resp (s : State) (d : Nat) (f : Die → Die) : (s.modDie d f).resp = s.resp := rfl

/-! ## modPart -/

@[simp] theorem State.modPart_aclk (s : State) (p : Nat) (f : Part → Part) : (s.modPart p f).aclk = s.aclk := rfl
@[simp] theorem State.modPart_tick (s : State) (p : Nat) (f : Part → Part) : (s.modPart p f).tick = s.tick := rfl
@[simp] theorem State.modPart_tickOn (s : State) (p : Nat) (f : Part → Part) :
    (s.modPart p f).tickOn = s.tickOn := rfl
@[simp] theorem State.modPart_stopped (s : State) (p : Nat) (f : Part → Part) :
    (s.modPart p f).stopped = s.stopped := rfl
@[simp] theorem State.modPart_held (s : State) (p : Nat) (f : Part → Part) : (s.modPart p f).held = s.held := rfl
@[simp] theorem State.modPart_tstop (s : State) (p : Nat) (f : Part → Part) : (s.modPart p f).tstop = s.tstop := rfl
@[simp] theorem State.modPart_tstopAt (s : State) (p : Nat) (f : Part → Part) :
    (s.modPart p f).tstopAt = s.tstopAt := rfl
@[simp] theorem State.modPart_tstopArm (s : State) (p : Nat) (f : Part → Part) :
    (s.modPart p f).tstopArm = s.tstopArm := rfl
@[simp] theorem State.modPart_tstopErr (s : State) (p : Nat) (f : Part → Part) :
    (s.modPart p f).tstopErr = s.tstopErr := rfl
@[simp] theorem State.modPart_pwrlim (s : State) (p : Nat) (f : Part → Part) :
    (s.modPart p f).pwrlim = s.pwrlim := rfl
@[simp] theorem State.modPart_pwrstat (s : State) (p : Nat) (f : Part → Part) :
    (s.modPart p f).pwrstat = s.pwrstat := rfl
@[simp] theorem State.modPart_hotPwr (s : State) (p : Nat) (f : Part → Part) :
    (s.modPart p f).hotPwr = s.hotPwr := rfl
@[simp] theorem State.modPart_i3cDyn (s : State) (p : Nat) (f : Part → Part) :
    (s.modPart p f).i3cDyn = s.i3cDyn := rfl
@[simp] theorem State.modPart_i3cSel (s : State) (p : Nat) (f : Part → Part) :
    (s.modPart p f).i3cSel = s.i3cSel := rfl
@[simp] theorem State.modPart_agenda (s : State) (p : Nat) (f : Part → Part) :
    (s.modPart p f).agenda = s.agenda := rfl
@[simp] theorem State.modPart_turn (s : State) (p : Nat) (f : Part → Part) : (s.modPart p f).turn = s.turn := rfl
@[simp] theorem State.modPart_cur (s : State) (p : Nat) (f : Part → Part) : (s.modPart p f).cur = s.cur := rfl
@[simp] theorem State.modPart_fresh (s : State) (p : Nat) (f : Part → Part) : (s.modPart p f).fresh = s.fresh := rfl
@[simp] theorem State.modPart_nextId (s : State) (p : Nat) (f : Part → Part) :
    (s.modPart p f).nextId = s.nextId := rfl
@[simp] theorem State.modPart_groups (s : State) (p : Nat) (f : Part → Part) :
    (s.modPart p f).groups = s.groups := rfl
@[simp] theorem State.modPart_blocks (s : State) (p : Nat) (f : Part → Part) :
    (s.modPart p f).blocks = s.blocks := rfl
@[simp] theorem State.modPart_gangs (s : State) (p : Nat) (f : Part → Part) : (s.modPart p f).gangs = s.gangs := rfl
@[simp] theorem State.modPart_launches (s : State) (p : Nat) (f : Part → Part) :
    (s.modPart p f).launches = s.launches := rfl
@[simp] theorem State.modPart_queues (s : State) (p : Nat) (f : Part → Part) :
    (s.modPart p f).queues = s.queues := rfl
@[simp] theorem State.modPart_ctxs (s : State) (p : Nat) (f : Part → Part) : (s.modPart p f).ctxs = s.ctxs := rfl
@[simp] theorem State.modPart_parts (s : State) (p : Nat) (f : Part → Part) :
    (s.modPart p f).parts = Tab.put s.parts p (f (s.part p)) := rfl
@[simp] theorem State.modPart_ops (s : State) (p : Nat) (f : Part → Part) : (s.modPart p f).ops = s.ops := rfl
@[simp] theorem State.modPart_cores (s : State) (p : Nat) (f : Part → Part) : (s.modPart p f).cores = s.cores := rfl
@[simp] theorem State.modPart_dies (s : State) (p : Nat) (f : Part → Part) : (s.modPart p f).dies = s.dies := rfl
@[simp] theorem State.modPart_links (s : State) (p : Nat) (f : Part → Part) : (s.modPart p f).links = s.links := rfl
@[simp] theorem State.modPart_vcs (s : State) (p : Nat) (f : Part → Part) : (s.modPart p f).vcs = s.vcs := rfl
@[simp] theorem State.modPart_chans (s : State) (p : Nat) (f : Part → Part) : (s.modPart p f).chans = s.chans := rfl
@[simp] theorem State.modPart_banks (s : State) (p : Nat) (f : Part → Part) : (s.modPart p f).banks = s.banks := rfl
@[simp] theorem State.modPart_arrs (s : State) (p : Nat) (f : Part → Part) : (s.modPart p f).arrs = s.arrs := rfl
@[simp] theorem State.modPart_tiles (s : State) (p : Nat) (f : Part → Part) : (s.modPart p f).tiles = s.tiles := rfl
@[simp] theorem State.modPart_tileOwn (s : State) (p : Nat) (f : Part → Part) :
    (s.modPart p f).tileOwn = s.tileOwn := rfl
@[simp] theorem State.modPart_pms (s : State) (p : Nat) (f : Part → Part) : (s.modPart p f).pms = s.pms := rfl
@[simp] theorem State.modPart_peerOut (s : State) (p : Nat) (f : Part → Part) :
    (s.modPart p f).peerOut = s.peerOut := rfl
@[simp] theorem State.modPart_outbox (s : State) (p : Nat) (f : Part → Part) :
    (s.modPart p f).outbox = s.outbox := rfl
@[simp] theorem State.modPart_ghosts (s : State) (p : Nat) (f : Part → Part) :
    (s.modPart p f).ghosts = s.ghosts := rfl
@[simp] theorem State.modPart_upsets (s : State) (p : Nat) (f : Part → Part) :
    (s.modPart p f).upsets = s.upsets := rfl
@[simp] theorem State.modPart_coldAt (s : State) (p : Nat) (f : Part → Part) :
    (s.modPart p f).coldAt = s.coldAt := rfl
@[simp] theorem State.modPart_mem (s : State) (p : Nat) (f : Part → Part) : (s.modPart p f).mem = s.mem := rfl
@[simp] theorem State.modPart_resp (s : State) (p : Nat) (f : Part → Part) : (s.modPart p f).resp = s.resp := rfl

/-! ## modChan -/

@[simp] theorem State.modChan_aclk (s : State) (c : Nat) (f : Chan → Chan) : (s.modChan c f).aclk = s.aclk := rfl
@[simp] theorem State.modChan_tick (s : State) (c : Nat) (f : Chan → Chan) : (s.modChan c f).tick = s.tick := rfl
@[simp] theorem State.modChan_tickOn (s : State) (c : Nat) (f : Chan → Chan) :
    (s.modChan c f).tickOn = s.tickOn := rfl
@[simp] theorem State.modChan_stopped (s : State) (c : Nat) (f : Chan → Chan) :
    (s.modChan c f).stopped = s.stopped := rfl
@[simp] theorem State.modChan_held (s : State) (c : Nat) (f : Chan → Chan) : (s.modChan c f).held = s.held := rfl
@[simp] theorem State.modChan_tstop (s : State) (c : Nat) (f : Chan → Chan) : (s.modChan c f).tstop = s.tstop := rfl
@[simp] theorem State.modChan_tstopAt (s : State) (c : Nat) (f : Chan → Chan) :
    (s.modChan c f).tstopAt = s.tstopAt := rfl
@[simp] theorem State.modChan_tstopArm (s : State) (c : Nat) (f : Chan → Chan) :
    (s.modChan c f).tstopArm = s.tstopArm := rfl
@[simp] theorem State.modChan_tstopErr (s : State) (c : Nat) (f : Chan → Chan) :
    (s.modChan c f).tstopErr = s.tstopErr := rfl
@[simp] theorem State.modChan_pwrlim (s : State) (c : Nat) (f : Chan → Chan) :
    (s.modChan c f).pwrlim = s.pwrlim := rfl
@[simp] theorem State.modChan_pwrstat (s : State) (c : Nat) (f : Chan → Chan) :
    (s.modChan c f).pwrstat = s.pwrstat := rfl
@[simp] theorem State.modChan_hotPwr (s : State) (c : Nat) (f : Chan → Chan) :
    (s.modChan c f).hotPwr = s.hotPwr := rfl
@[simp] theorem State.modChan_i3cDyn (s : State) (c : Nat) (f : Chan → Chan) :
    (s.modChan c f).i3cDyn = s.i3cDyn := rfl
@[simp] theorem State.modChan_i3cSel (s : State) (c : Nat) (f : Chan → Chan) :
    (s.modChan c f).i3cSel = s.i3cSel := rfl
@[simp] theorem State.modChan_agenda (s : State) (c : Nat) (f : Chan → Chan) :
    (s.modChan c f).agenda = s.agenda := rfl
@[simp] theorem State.modChan_turn (s : State) (c : Nat) (f : Chan → Chan) : (s.modChan c f).turn = s.turn := rfl
@[simp] theorem State.modChan_cur (s : State) (c : Nat) (f : Chan → Chan) : (s.modChan c f).cur = s.cur := rfl
@[simp] theorem State.modChan_fresh (s : State) (c : Nat) (f : Chan → Chan) : (s.modChan c f).fresh = s.fresh := rfl
@[simp] theorem State.modChan_nextId (s : State) (c : Nat) (f : Chan → Chan) :
    (s.modChan c f).nextId = s.nextId := rfl
@[simp] theorem State.modChan_groups (s : State) (c : Nat) (f : Chan → Chan) :
    (s.modChan c f).groups = s.groups := rfl
@[simp] theorem State.modChan_blocks (s : State) (c : Nat) (f : Chan → Chan) :
    (s.modChan c f).blocks = s.blocks := rfl
@[simp] theorem State.modChan_gangs (s : State) (c : Nat) (f : Chan → Chan) : (s.modChan c f).gangs = s.gangs := rfl
@[simp] theorem State.modChan_launches (s : State) (c : Nat) (f : Chan → Chan) :
    (s.modChan c f).launches = s.launches := rfl
@[simp] theorem State.modChan_queues (s : State) (c : Nat) (f : Chan → Chan) :
    (s.modChan c f).queues = s.queues := rfl
@[simp] theorem State.modChan_ctxs (s : State) (c : Nat) (f : Chan → Chan) : (s.modChan c f).ctxs = s.ctxs := rfl
@[simp] theorem State.modChan_parts (s : State) (c : Nat) (f : Chan → Chan) : (s.modChan c f).parts = s.parts := rfl
@[simp] theorem State.modChan_ops (s : State) (c : Nat) (f : Chan → Chan) : (s.modChan c f).ops = s.ops := rfl
@[simp] theorem State.modChan_cores (s : State) (c : Nat) (f : Chan → Chan) : (s.modChan c f).cores = s.cores := rfl
@[simp] theorem State.modChan_dies (s : State) (c : Nat) (f : Chan → Chan) : (s.modChan c f).dies = s.dies := rfl
@[simp] theorem State.modChan_links (s : State) (c : Nat) (f : Chan → Chan) : (s.modChan c f).links = s.links := rfl
@[simp] theorem State.modChan_vcs (s : State) (c : Nat) (f : Chan → Chan) : (s.modChan c f).vcs = s.vcs := rfl
@[simp] theorem State.modChan_chans (s : State) (c : Nat) (f : Chan → Chan) :
    (s.modChan c f).chans = Tab.put s.chans c (f (s.chan c)) := rfl
@[simp] theorem State.modChan_banks (s : State) (c : Nat) (f : Chan → Chan) : (s.modChan c f).banks = s.banks := rfl
@[simp] theorem State.modChan_arrs (s : State) (c : Nat) (f : Chan → Chan) : (s.modChan c f).arrs = s.arrs := rfl
@[simp] theorem State.modChan_tiles (s : State) (c : Nat) (f : Chan → Chan) : (s.modChan c f).tiles = s.tiles := rfl
@[simp] theorem State.modChan_tileOwn (s : State) (c : Nat) (f : Chan → Chan) :
    (s.modChan c f).tileOwn = s.tileOwn := rfl
@[simp] theorem State.modChan_pms (s : State) (c : Nat) (f : Chan → Chan) : (s.modChan c f).pms = s.pms := rfl
@[simp] theorem State.modChan_peerOut (s : State) (c : Nat) (f : Chan → Chan) :
    (s.modChan c f).peerOut = s.peerOut := rfl
@[simp] theorem State.modChan_outbox (s : State) (c : Nat) (f : Chan → Chan) :
    (s.modChan c f).outbox = s.outbox := rfl
@[simp] theorem State.modChan_ghosts (s : State) (c : Nat) (f : Chan → Chan) :
    (s.modChan c f).ghosts = s.ghosts := rfl
@[simp] theorem State.modChan_upsets (s : State) (c : Nat) (f : Chan → Chan) :
    (s.modChan c f).upsets = s.upsets := rfl
@[simp] theorem State.modChan_coldAt (s : State) (c : Nat) (f : Chan → Chan) :
    (s.modChan c f).coldAt = s.coldAt := rfl
@[simp] theorem State.modChan_mem (s : State) (c : Nat) (f : Chan → Chan) : (s.modChan c f).mem = s.mem := rfl
@[simp] theorem State.modChan_resp (s : State) (c : Nat) (f : Chan → Chan) : (s.modChan c f).resp = s.resp := rfl

/-! ## modBank -/

@[simp] theorem State.modBank_aclk (s : State) (b : Nat) (f : Bank → Bank) : (s.modBank b f).aclk = s.aclk := rfl
@[simp] theorem State.modBank_tick (s : State) (b : Nat) (f : Bank → Bank) : (s.modBank b f).tick = s.tick := rfl
@[simp] theorem State.modBank_tickOn (s : State) (b : Nat) (f : Bank → Bank) :
    (s.modBank b f).tickOn = s.tickOn := rfl
@[simp] theorem State.modBank_stopped (s : State) (b : Nat) (f : Bank → Bank) :
    (s.modBank b f).stopped = s.stopped := rfl
@[simp] theorem State.modBank_held (s : State) (b : Nat) (f : Bank → Bank) : (s.modBank b f).held = s.held := rfl
@[simp] theorem State.modBank_tstop (s : State) (b : Nat) (f : Bank → Bank) : (s.modBank b f).tstop = s.tstop := rfl
@[simp] theorem State.modBank_tstopAt (s : State) (b : Nat) (f : Bank → Bank) :
    (s.modBank b f).tstopAt = s.tstopAt := rfl
@[simp] theorem State.modBank_tstopArm (s : State) (b : Nat) (f : Bank → Bank) :
    (s.modBank b f).tstopArm = s.tstopArm := rfl
@[simp] theorem State.modBank_tstopErr (s : State) (b : Nat) (f : Bank → Bank) :
    (s.modBank b f).tstopErr = s.tstopErr := rfl
@[simp] theorem State.modBank_pwrlim (s : State) (b : Nat) (f : Bank → Bank) :
    (s.modBank b f).pwrlim = s.pwrlim := rfl
@[simp] theorem State.modBank_pwrstat (s : State) (b : Nat) (f : Bank → Bank) :
    (s.modBank b f).pwrstat = s.pwrstat := rfl
@[simp] theorem State.modBank_hotPwr (s : State) (b : Nat) (f : Bank → Bank) :
    (s.modBank b f).hotPwr = s.hotPwr := rfl
@[simp] theorem State.modBank_i3cDyn (s : State) (b : Nat) (f : Bank → Bank) :
    (s.modBank b f).i3cDyn = s.i3cDyn := rfl
@[simp] theorem State.modBank_i3cSel (s : State) (b : Nat) (f : Bank → Bank) :
    (s.modBank b f).i3cSel = s.i3cSel := rfl
@[simp] theorem State.modBank_agenda (s : State) (b : Nat) (f : Bank → Bank) :
    (s.modBank b f).agenda = s.agenda := rfl
@[simp] theorem State.modBank_turn (s : State) (b : Nat) (f : Bank → Bank) : (s.modBank b f).turn = s.turn := rfl
@[simp] theorem State.modBank_cur (s : State) (b : Nat) (f : Bank → Bank) : (s.modBank b f).cur = s.cur := rfl
@[simp] theorem State.modBank_fresh (s : State) (b : Nat) (f : Bank → Bank) : (s.modBank b f).fresh = s.fresh := rfl
@[simp] theorem State.modBank_nextId (s : State) (b : Nat) (f : Bank → Bank) :
    (s.modBank b f).nextId = s.nextId := rfl
@[simp] theorem State.modBank_groups (s : State) (b : Nat) (f : Bank → Bank) :
    (s.modBank b f).groups = s.groups := rfl
@[simp] theorem State.modBank_blocks (s : State) (b : Nat) (f : Bank → Bank) :
    (s.modBank b f).blocks = s.blocks := rfl
@[simp] theorem State.modBank_gangs (s : State) (b : Nat) (f : Bank → Bank) : (s.modBank b f).gangs = s.gangs := rfl
@[simp] theorem State.modBank_launches (s : State) (b : Nat) (f : Bank → Bank) :
    (s.modBank b f).launches = s.launches := rfl
@[simp] theorem State.modBank_queues (s : State) (b : Nat) (f : Bank → Bank) :
    (s.modBank b f).queues = s.queues := rfl
@[simp] theorem State.modBank_ctxs (s : State) (b : Nat) (f : Bank → Bank) : (s.modBank b f).ctxs = s.ctxs := rfl
@[simp] theorem State.modBank_parts (s : State) (b : Nat) (f : Bank → Bank) : (s.modBank b f).parts = s.parts := rfl
@[simp] theorem State.modBank_ops (s : State) (b : Nat) (f : Bank → Bank) : (s.modBank b f).ops = s.ops := rfl
@[simp] theorem State.modBank_cores (s : State) (b : Nat) (f : Bank → Bank) : (s.modBank b f).cores = s.cores := rfl
@[simp] theorem State.modBank_dies (s : State) (b : Nat) (f : Bank → Bank) : (s.modBank b f).dies = s.dies := rfl
@[simp] theorem State.modBank_links (s : State) (b : Nat) (f : Bank → Bank) : (s.modBank b f).links = s.links := rfl
@[simp] theorem State.modBank_vcs (s : State) (b : Nat) (f : Bank → Bank) : (s.modBank b f).vcs = s.vcs := rfl
@[simp] theorem State.modBank_chans (s : State) (b : Nat) (f : Bank → Bank) : (s.modBank b f).chans = s.chans := rfl
@[simp] theorem State.modBank_banks (s : State) (b : Nat) (f : Bank → Bank) :
    (s.modBank b f).banks = Tab.put s.banks b (f (s.bank b)) := rfl
@[simp] theorem State.modBank_arrs (s : State) (b : Nat) (f : Bank → Bank) : (s.modBank b f).arrs = s.arrs := rfl
@[simp] theorem State.modBank_tiles (s : State) (b : Nat) (f : Bank → Bank) : (s.modBank b f).tiles = s.tiles := rfl
@[simp] theorem State.modBank_tileOwn (s : State) (b : Nat) (f : Bank → Bank) :
    (s.modBank b f).tileOwn = s.tileOwn := rfl
@[simp] theorem State.modBank_pms (s : State) (b : Nat) (f : Bank → Bank) : (s.modBank b f).pms = s.pms := rfl
@[simp] theorem State.modBank_peerOut (s : State) (b : Nat) (f : Bank → Bank) :
    (s.modBank b f).peerOut = s.peerOut := rfl
@[simp] theorem State.modBank_outbox (s : State) (b : Nat) (f : Bank → Bank) :
    (s.modBank b f).outbox = s.outbox := rfl
@[simp] theorem State.modBank_ghosts (s : State) (b : Nat) (f : Bank → Bank) :
    (s.modBank b f).ghosts = s.ghosts := rfl
@[simp] theorem State.modBank_upsets (s : State) (b : Nat) (f : Bank → Bank) :
    (s.modBank b f).upsets = s.upsets := rfl
@[simp] theorem State.modBank_coldAt (s : State) (b : Nat) (f : Bank → Bank) :
    (s.modBank b f).coldAt = s.coldAt := rfl
@[simp] theorem State.modBank_mem (s : State) (b : Nat) (f : Bank → Bank) : (s.modBank b f).mem = s.mem := rfl
@[simp] theorem State.modBank_resp (s : State) (b : Nat) (f : Bank → Bank) : (s.modBank b f).resp = s.resp := rfl

/-! ## modArr -/

@[simp] theorem State.modArr_aclk (s : State) (a : Nat) (f : Arr → Arr) : (s.modArr a f).aclk = s.aclk := rfl
@[simp] theorem State.modArr_tick (s : State) (a : Nat) (f : Arr → Arr) : (s.modArr a f).tick = s.tick := rfl
@[simp] theorem State.modArr_tickOn (s : State) (a : Nat) (f : Arr → Arr) : (s.modArr a f).tickOn = s.tickOn := rfl
@[simp] theorem State.modArr_stopped (s : State) (a : Nat) (f : Arr → Arr) : (s.modArr a f).stopped = s.stopped := rfl
@[simp] theorem State.modArr_held (s : State) (a : Nat) (f : Arr → Arr) : (s.modArr a f).held = s.held := rfl
@[simp] theorem State.modArr_tstop (s : State) (a : Nat) (f : Arr → Arr) : (s.modArr a f).tstop = s.tstop := rfl
@[simp] theorem State.modArr_tstopAt (s : State) (a : Nat) (f : Arr → Arr) : (s.modArr a f).tstopAt = s.tstopAt := rfl
@[simp] theorem State.modArr_tstopArm (s : State) (a : Nat) (f : Arr → Arr) :
    (s.modArr a f).tstopArm = s.tstopArm := rfl
@[simp] theorem State.modArr_tstopErr (s : State) (a : Nat) (f : Arr → Arr) :
    (s.modArr a f).tstopErr = s.tstopErr := rfl
@[simp] theorem State.modArr_pwrlim (s : State) (a : Nat) (f : Arr → Arr) : (s.modArr a f).pwrlim = s.pwrlim := rfl
@[simp] theorem State.modArr_pwrstat (s : State) (a : Nat) (f : Arr → Arr) : (s.modArr a f).pwrstat = s.pwrstat := rfl
@[simp] theorem State.modArr_hotPwr (s : State) (a : Nat) (f : Arr → Arr) : (s.modArr a f).hotPwr = s.hotPwr := rfl
@[simp] theorem State.modArr_i3cDyn (s : State) (a : Nat) (f : Arr → Arr) : (s.modArr a f).i3cDyn = s.i3cDyn := rfl
@[simp] theorem State.modArr_i3cSel (s : State) (a : Nat) (f : Arr → Arr) : (s.modArr a f).i3cSel = s.i3cSel := rfl
@[simp] theorem State.modArr_agenda (s : State) (a : Nat) (f : Arr → Arr) : (s.modArr a f).agenda = s.agenda := rfl
@[simp] theorem State.modArr_turn (s : State) (a : Nat) (f : Arr → Arr) : (s.modArr a f).turn = s.turn := rfl
@[simp] theorem State.modArr_cur (s : State) (a : Nat) (f : Arr → Arr) : (s.modArr a f).cur = s.cur := rfl
@[simp] theorem State.modArr_fresh (s : State) (a : Nat) (f : Arr → Arr) : (s.modArr a f).fresh = s.fresh := rfl
@[simp] theorem State.modArr_nextId (s : State) (a : Nat) (f : Arr → Arr) : (s.modArr a f).nextId = s.nextId := rfl
@[simp] theorem State.modArr_groups (s : State) (a : Nat) (f : Arr → Arr) : (s.modArr a f).groups = s.groups := rfl
@[simp] theorem State.modArr_blocks (s : State) (a : Nat) (f : Arr → Arr) : (s.modArr a f).blocks = s.blocks := rfl
@[simp] theorem State.modArr_gangs (s : State) (a : Nat) (f : Arr → Arr) : (s.modArr a f).gangs = s.gangs := rfl
@[simp] theorem State.modArr_launches (s : State) (a : Nat) (f : Arr → Arr) :
    (s.modArr a f).launches = s.launches := rfl
@[simp] theorem State.modArr_queues (s : State) (a : Nat) (f : Arr → Arr) : (s.modArr a f).queues = s.queues := rfl
@[simp] theorem State.modArr_ctxs (s : State) (a : Nat) (f : Arr → Arr) : (s.modArr a f).ctxs = s.ctxs := rfl
@[simp] theorem State.modArr_parts (s : State) (a : Nat) (f : Arr → Arr) : (s.modArr a f).parts = s.parts := rfl
@[simp] theorem State.modArr_ops (s : State) (a : Nat) (f : Arr → Arr) : (s.modArr a f).ops = s.ops := rfl
@[simp] theorem State.modArr_cores (s : State) (a : Nat) (f : Arr → Arr) : (s.modArr a f).cores = s.cores := rfl
@[simp] theorem State.modArr_dies (s : State) (a : Nat) (f : Arr → Arr) : (s.modArr a f).dies = s.dies := rfl
@[simp] theorem State.modArr_links (s : State) (a : Nat) (f : Arr → Arr) : (s.modArr a f).links = s.links := rfl
@[simp] theorem State.modArr_vcs (s : State) (a : Nat) (f : Arr → Arr) : (s.modArr a f).vcs = s.vcs := rfl
@[simp] theorem State.modArr_chans (s : State) (a : Nat) (f : Arr → Arr) : (s.modArr a f).chans = s.chans := rfl
@[simp] theorem State.modArr_banks (s : State) (a : Nat) (f : Arr → Arr) : (s.modArr a f).banks = s.banks := rfl
@[simp] theorem State.modArr_arrs (s : State) (a : Nat) (f : Arr → Arr) :
    (s.modArr a f).arrs = Tab.put s.arrs a (f (s.arr a)) := rfl
@[simp] theorem State.modArr_tiles (s : State) (a : Nat) (f : Arr → Arr) : (s.modArr a f).tiles = s.tiles := rfl
@[simp] theorem State.modArr_tileOwn (s : State) (a : Nat) (f : Arr → Arr) : (s.modArr a f).tileOwn = s.tileOwn := rfl
@[simp] theorem State.modArr_pms (s : State) (a : Nat) (f : Arr → Arr) : (s.modArr a f).pms = s.pms := rfl
@[simp] theorem State.modArr_peerOut (s : State) (a : Nat) (f : Arr → Arr) : (s.modArr a f).peerOut = s.peerOut := rfl
@[simp] theorem State.modArr_outbox (s : State) (a : Nat) (f : Arr → Arr) : (s.modArr a f).outbox = s.outbox := rfl
@[simp] theorem State.modArr_ghosts (s : State) (a : Nat) (f : Arr → Arr) : (s.modArr a f).ghosts = s.ghosts := rfl
@[simp] theorem State.modArr_upsets (s : State) (a : Nat) (f : Arr → Arr) : (s.modArr a f).upsets = s.upsets := rfl
@[simp] theorem State.modArr_coldAt (s : State) (a : Nat) (f : Arr → Arr) : (s.modArr a f).coldAt = s.coldAt := rfl
@[simp] theorem State.modArr_mem (s : State) (a : Nat) (f : Arr → Arr) : (s.modArr a f).mem = s.mem := rfl
@[simp] theorem State.modArr_resp (s : State) (a : Nat) (f : Arr → Arr) : (s.modArr a f).resp = s.resp := rfl

/-! ## modOp -/

@[simp] theorem State.modOp_aclk (s : State) (k : Nat) (f : AOp → AOp) : (s.modOp k f).aclk = s.aclk := rfl
@[simp] theorem State.modOp_tick (s : State) (k : Nat) (f : AOp → AOp) : (s.modOp k f).tick = s.tick := rfl
@[simp] theorem State.modOp_tickOn (s : State) (k : Nat) (f : AOp → AOp) : (s.modOp k f).tickOn = s.tickOn := rfl
@[simp] theorem State.modOp_stopped (s : State) (k : Nat) (f : AOp → AOp) : (s.modOp k f).stopped = s.stopped := rfl
@[simp] theorem State.modOp_held (s : State) (k : Nat) (f : AOp → AOp) : (s.modOp k f).held = s.held := rfl
@[simp] theorem State.modOp_tstop (s : State) (k : Nat) (f : AOp → AOp) : (s.modOp k f).tstop = s.tstop := rfl
@[simp] theorem State.modOp_tstopAt (s : State) (k : Nat) (f : AOp → AOp) : (s.modOp k f).tstopAt = s.tstopAt := rfl
@[simp] theorem State.modOp_tstopArm (s : State) (k : Nat) (f : AOp → AOp) :
    (s.modOp k f).tstopArm = s.tstopArm := rfl
@[simp] theorem State.modOp_tstopErr (s : State) (k : Nat) (f : AOp → AOp) :
    (s.modOp k f).tstopErr = s.tstopErr := rfl
@[simp] theorem State.modOp_pwrlim (s : State) (k : Nat) (f : AOp → AOp) : (s.modOp k f).pwrlim = s.pwrlim := rfl
@[simp] theorem State.modOp_pwrstat (s : State) (k : Nat) (f : AOp → AOp) : (s.modOp k f).pwrstat = s.pwrstat := rfl
@[simp] theorem State.modOp_hotPwr (s : State) (k : Nat) (f : AOp → AOp) : (s.modOp k f).hotPwr = s.hotPwr := rfl
@[simp] theorem State.modOp_i3cDyn (s : State) (k : Nat) (f : AOp → AOp) : (s.modOp k f).i3cDyn = s.i3cDyn := rfl
@[simp] theorem State.modOp_i3cSel (s : State) (k : Nat) (f : AOp → AOp) : (s.modOp k f).i3cSel = s.i3cSel := rfl
@[simp] theorem State.modOp_agenda (s : State) (k : Nat) (f : AOp → AOp) : (s.modOp k f).agenda = s.agenda := rfl
@[simp] theorem State.modOp_turn (s : State) (k : Nat) (f : AOp → AOp) : (s.modOp k f).turn = s.turn := rfl
@[simp] theorem State.modOp_cur (s : State) (k : Nat) (f : AOp → AOp) : (s.modOp k f).cur = s.cur := rfl
@[simp] theorem State.modOp_fresh (s : State) (k : Nat) (f : AOp → AOp) : (s.modOp k f).fresh = s.fresh := rfl
@[simp] theorem State.modOp_nextId (s : State) (k : Nat) (f : AOp → AOp) : (s.modOp k f).nextId = s.nextId := rfl
@[simp] theorem State.modOp_groups (s : State) (k : Nat) (f : AOp → AOp) : (s.modOp k f).groups = s.groups := rfl
@[simp] theorem State.modOp_blocks (s : State) (k : Nat) (f : AOp → AOp) : (s.modOp k f).blocks = s.blocks := rfl
@[simp] theorem State.modOp_gangs (s : State) (k : Nat) (f : AOp → AOp) : (s.modOp k f).gangs = s.gangs := rfl
@[simp] theorem State.modOp_launches (s : State) (k : Nat) (f : AOp → AOp) :
    (s.modOp k f).launches = s.launches := rfl
@[simp] theorem State.modOp_queues (s : State) (k : Nat) (f : AOp → AOp) : (s.modOp k f).queues = s.queues := rfl
@[simp] theorem State.modOp_ctxs (s : State) (k : Nat) (f : AOp → AOp) : (s.modOp k f).ctxs = s.ctxs := rfl
@[simp] theorem State.modOp_parts (s : State) (k : Nat) (f : AOp → AOp) : (s.modOp k f).parts = s.parts := rfl
@[simp] theorem State.modOp_ops (s : State) (k : Nat) (f : AOp → AOp) : (s.modOp k f).ops = Tab.mod s.ops k f := rfl
@[simp] theorem State.modOp_cores (s : State) (k : Nat) (f : AOp → AOp) : (s.modOp k f).cores = s.cores := rfl
@[simp] theorem State.modOp_dies (s : State) (k : Nat) (f : AOp → AOp) : (s.modOp k f).dies = s.dies := rfl
@[simp] theorem State.modOp_links (s : State) (k : Nat) (f : AOp → AOp) : (s.modOp k f).links = s.links := rfl
@[simp] theorem State.modOp_vcs (s : State) (k : Nat) (f : AOp → AOp) : (s.modOp k f).vcs = s.vcs := rfl
@[simp] theorem State.modOp_chans (s : State) (k : Nat) (f : AOp → AOp) : (s.modOp k f).chans = s.chans := rfl
@[simp] theorem State.modOp_banks (s : State) (k : Nat) (f : AOp → AOp) : (s.modOp k f).banks = s.banks := rfl
@[simp] theorem State.modOp_arrs (s : State) (k : Nat) (f : AOp → AOp) : (s.modOp k f).arrs = s.arrs := rfl
@[simp] theorem State.modOp_tiles (s : State) (k : Nat) (f : AOp → AOp) : (s.modOp k f).tiles = s.tiles := rfl
@[simp] theorem State.modOp_tileOwn (s : State) (k : Nat) (f : AOp → AOp) : (s.modOp k f).tileOwn = s.tileOwn := rfl
@[simp] theorem State.modOp_pms (s : State) (k : Nat) (f : AOp → AOp) : (s.modOp k f).pms = s.pms := rfl
@[simp] theorem State.modOp_peerOut (s : State) (k : Nat) (f : AOp → AOp) : (s.modOp k f).peerOut = s.peerOut := rfl
@[simp] theorem State.modOp_outbox (s : State) (k : Nat) (f : AOp → AOp) : (s.modOp k f).outbox = s.outbox := rfl
@[simp] theorem State.modOp_ghosts (s : State) (k : Nat) (f : AOp → AOp) : (s.modOp k f).ghosts = s.ghosts := rfl
@[simp] theorem State.modOp_upsets (s : State) (k : Nat) (f : AOp → AOp) : (s.modOp k f).upsets = s.upsets := rfl
@[simp] theorem State.modOp_coldAt (s : State) (k : Nat) (f : AOp → AOp) : (s.modOp k f).coldAt = s.coldAt := rfl
@[simp] theorem State.modOp_mem (s : State) (k : Nat) (f : AOp → AOp) : (s.modOp k f).mem = s.mem := rfl
@[simp] theorem State.modOp_resp (s : State) (k : Nat) (f : AOp → AOp) : (s.modOp k f).resp = s.resp := rfl

/-! ## post -/

@[simp] theorem State.post_aclk (s : State) (dt : Nat) (e : Instr) : (s.post dt e).aclk = s.aclk := rfl
@[simp] theorem State.post_tick (s : State) (dt : Nat) (e : Instr) : (s.post dt e).tick = s.tick := rfl
@[simp] theorem State.post_tickOn (s : State) (dt : Nat) (e : Instr) : (s.post dt e).tickOn = s.tickOn := rfl
@[simp] theorem State.post_stopped (s : State) (dt : Nat) (e : Instr) : (s.post dt e).stopped = s.stopped := rfl
@[simp] theorem State.post_held (s : State) (dt : Nat) (e : Instr) : (s.post dt e).held = s.held := rfl
@[simp] theorem State.post_tstop (s : State) (dt : Nat) (e : Instr) : (s.post dt e).tstop = s.tstop := rfl
@[simp] theorem State.post_tstopAt (s : State) (dt : Nat) (e : Instr) : (s.post dt e).tstopAt = s.tstopAt := rfl
@[simp] theorem State.post_tstopArm (s : State) (dt : Nat) (e : Instr) : (s.post dt e).tstopArm = s.tstopArm := rfl
@[simp] theorem State.post_tstopErr (s : State) (dt : Nat) (e : Instr) : (s.post dt e).tstopErr = s.tstopErr := rfl
@[simp] theorem State.post_pwrlim (s : State) (dt : Nat) (e : Instr) : (s.post dt e).pwrlim = s.pwrlim := rfl
@[simp] theorem State.post_pwrstat (s : State) (dt : Nat) (e : Instr) : (s.post dt e).pwrstat = s.pwrstat := rfl
@[simp] theorem State.post_hotPwr (s : State) (dt : Nat) (e : Instr) : (s.post dt e).hotPwr = s.hotPwr := rfl
@[simp] theorem State.post_i3cDyn (s : State) (dt : Nat) (e : Instr) : (s.post dt e).i3cDyn = s.i3cDyn := rfl
@[simp] theorem State.post_i3cSel (s : State) (dt : Nat) (e : Instr) : (s.post dt e).i3cSel = s.i3cSel := rfl
@[simp] theorem State.post_agenda (s : State) (dt : Nat) (e : Instr) :
    (s.post dt e).agenda = insBy Timed.due ⟨s.aclk + dt, e⟩ s.agenda := rfl
@[simp] theorem State.post_turn (s : State) (dt : Nat) (e : Instr) : (s.post dt e).turn = s.turn := rfl
@[simp] theorem State.post_cur (s : State) (dt : Nat) (e : Instr) : (s.post dt e).cur = s.cur := rfl
@[simp] theorem State.post_fresh (s : State) (dt : Nat) (e : Instr) : (s.post dt e).fresh = s.fresh := rfl
@[simp] theorem State.post_nextId (s : State) (dt : Nat) (e : Instr) : (s.post dt e).nextId = s.nextId := rfl
@[simp] theorem State.post_groups (s : State) (dt : Nat) (e : Instr) : (s.post dt e).groups = s.groups := rfl
@[simp] theorem State.post_blocks (s : State) (dt : Nat) (e : Instr) : (s.post dt e).blocks = s.blocks := rfl
@[simp] theorem State.post_gangs (s : State) (dt : Nat) (e : Instr) : (s.post dt e).gangs = s.gangs := rfl
@[simp] theorem State.post_launches (s : State) (dt : Nat) (e : Instr) : (s.post dt e).launches = s.launches := rfl
@[simp] theorem State.post_queues (s : State) (dt : Nat) (e : Instr) : (s.post dt e).queues = s.queues := rfl
@[simp] theorem State.post_ctxs (s : State) (dt : Nat) (e : Instr) : (s.post dt e).ctxs = s.ctxs := rfl
@[simp] theorem State.post_parts (s : State) (dt : Nat) (e : Instr) : (s.post dt e).parts = s.parts := rfl
@[simp] theorem State.post_ops (s : State) (dt : Nat) (e : Instr) : (s.post dt e).ops = s.ops := rfl
@[simp] theorem State.post_cores (s : State) (dt : Nat) (e : Instr) : (s.post dt e).cores = s.cores := rfl
@[simp] theorem State.post_dies (s : State) (dt : Nat) (e : Instr) : (s.post dt e).dies = s.dies := rfl
@[simp] theorem State.post_links (s : State) (dt : Nat) (e : Instr) : (s.post dt e).links = s.links := rfl
@[simp] theorem State.post_vcs (s : State) (dt : Nat) (e : Instr) : (s.post dt e).vcs = s.vcs := rfl
@[simp] theorem State.post_chans (s : State) (dt : Nat) (e : Instr) : (s.post dt e).chans = s.chans := rfl
@[simp] theorem State.post_banks (s : State) (dt : Nat) (e : Instr) : (s.post dt e).banks = s.banks := rfl
@[simp] theorem State.post_arrs (s : State) (dt : Nat) (e : Instr) : (s.post dt e).arrs = s.arrs := rfl
@[simp] theorem State.post_tiles (s : State) (dt : Nat) (e : Instr) : (s.post dt e).tiles = s.tiles := rfl
@[simp] theorem State.post_tileOwn (s : State) (dt : Nat) (e : Instr) : (s.post dt e).tileOwn = s.tileOwn := rfl
@[simp] theorem State.post_pms (s : State) (dt : Nat) (e : Instr) : (s.post dt e).pms = s.pms := rfl
@[simp] theorem State.post_peerOut (s : State) (dt : Nat) (e : Instr) : (s.post dt e).peerOut = s.peerOut := rfl
@[simp] theorem State.post_outbox (s : State) (dt : Nat) (e : Instr) : (s.post dt e).outbox = s.outbox := rfl
@[simp] theorem State.post_ghosts (s : State) (dt : Nat) (e : Instr) : (s.post dt e).ghosts = s.ghosts := rfl
@[simp] theorem State.post_upsets (s : State) (dt : Nat) (e : Instr) : (s.post dt e).upsets = s.upsets := rfl
@[simp] theorem State.post_coldAt (s : State) (dt : Nat) (e : Instr) : (s.post dt e).coldAt = s.coldAt := rfl
@[simp] theorem State.post_mem (s : State) (dt : Nat) (e : Instr) : (s.post dt e).mem = s.mem := rfl
@[simp] theorem State.post_resp (s : State) (dt : Nat) (e : Instr) : (s.post dt e).resp = s.resp := rfl

/-! ## writeByte -/

@[simp] theorem State.writeByte_aclk (s : State) (a : Nat) (b : Byte) : (s.writeByte a b).aclk = s.aclk := rfl
@[simp] theorem State.writeByte_tick (s : State) (a : Nat) (b : Byte) : (s.writeByte a b).tick = s.tick := rfl
@[simp] theorem State.writeByte_tickOn (s : State) (a : Nat) (b : Byte) : (s.writeByte a b).tickOn = s.tickOn := rfl
@[simp] theorem State.writeByte_stopped (s : State) (a : Nat) (b : Byte) :
    (s.writeByte a b).stopped = s.stopped := rfl
@[simp] theorem State.writeByte_held (s : State) (a : Nat) (b : Byte) : (s.writeByte a b).held = s.held := rfl
@[simp] theorem State.writeByte_tstop (s : State) (a : Nat) (b : Byte) : (s.writeByte a b).tstop = s.tstop := rfl
@[simp] theorem State.writeByte_tstopAt (s : State) (a : Nat) (b : Byte) :
    (s.writeByte a b).tstopAt = s.tstopAt := rfl
@[simp] theorem State.writeByte_tstopArm (s : State) (a : Nat) (b : Byte) :
    (s.writeByte a b).tstopArm = s.tstopArm := rfl
@[simp] theorem State.writeByte_tstopErr (s : State) (a : Nat) (b : Byte) :
    (s.writeByte a b).tstopErr = s.tstopErr := rfl
@[simp] theorem State.writeByte_pwrlim (s : State) (a : Nat) (b : Byte) : (s.writeByte a b).pwrlim = s.pwrlim := rfl
@[simp] theorem State.writeByte_pwrstat (s : State) (a : Nat) (b : Byte) :
    (s.writeByte a b).pwrstat = s.pwrstat := rfl
@[simp] theorem State.writeByte_hotPwr (s : State) (a : Nat) (b : Byte) : (s.writeByte a b).hotPwr = s.hotPwr := rfl
@[simp] theorem State.writeByte_i3cDyn (s : State) (a : Nat) (b : Byte) : (s.writeByte a b).i3cDyn = s.i3cDyn := rfl
@[simp] theorem State.writeByte_i3cSel (s : State) (a : Nat) (b : Byte) : (s.writeByte a b).i3cSel = s.i3cSel := rfl
@[simp] theorem State.writeByte_agenda (s : State) (a : Nat) (b : Byte) : (s.writeByte a b).agenda = s.agenda := rfl
@[simp] theorem State.writeByte_turn (s : State) (a : Nat) (b : Byte) : (s.writeByte a b).turn = s.turn := rfl
@[simp] theorem State.writeByte_cur (s : State) (a : Nat) (b : Byte) : (s.writeByte a b).cur = s.cur := rfl
@[simp] theorem State.writeByte_fresh (s : State) (a : Nat) (b : Byte) : (s.writeByte a b).fresh = s.fresh := rfl
@[simp] theorem State.writeByte_nextId (s : State) (a : Nat) (b : Byte) : (s.writeByte a b).nextId = s.nextId := rfl
@[simp] theorem State.writeByte_groups (s : State) (a : Nat) (b : Byte) : (s.writeByte a b).groups = s.groups := rfl
@[simp] theorem State.writeByte_blocks (s : State) (a : Nat) (b : Byte) : (s.writeByte a b).blocks = s.blocks := rfl
@[simp] theorem State.writeByte_gangs (s : State) (a : Nat) (b : Byte) : (s.writeByte a b).gangs = s.gangs := rfl
@[simp] theorem State.writeByte_launches (s : State) (a : Nat) (b : Byte) :
    (s.writeByte a b).launches = s.launches := rfl
@[simp] theorem State.writeByte_queues (s : State) (a : Nat) (b : Byte) : (s.writeByte a b).queues = s.queues := rfl
@[simp] theorem State.writeByte_ctxs (s : State) (a : Nat) (b : Byte) : (s.writeByte a b).ctxs = s.ctxs := rfl
@[simp] theorem State.writeByte_parts (s : State) (a : Nat) (b : Byte) : (s.writeByte a b).parts = s.parts := rfl
@[simp] theorem State.writeByte_ops (s : State) (a : Nat) (b : Byte) : (s.writeByte a b).ops = s.ops := rfl
@[simp] theorem State.writeByte_cores (s : State) (a : Nat) (b : Byte) : (s.writeByte a b).cores = s.cores := rfl
@[simp] theorem State.writeByte_dies (s : State) (a : Nat) (b : Byte) : (s.writeByte a b).dies = s.dies := rfl
@[simp] theorem State.writeByte_links (s : State) (a : Nat) (b : Byte) : (s.writeByte a b).links = s.links := rfl
@[simp] theorem State.writeByte_vcs (s : State) (a : Nat) (b : Byte) : (s.writeByte a b).vcs = s.vcs := rfl
@[simp] theorem State.writeByte_chans (s : State) (a : Nat) (b : Byte) : (s.writeByte a b).chans = s.chans := rfl
@[simp] theorem State.writeByte_banks (s : State) (a : Nat) (b : Byte) : (s.writeByte a b).banks = s.banks := rfl
@[simp] theorem State.writeByte_arrs (s : State) (a : Nat) (b : Byte) : (s.writeByte a b).arrs = s.arrs := rfl
@[simp] theorem State.writeByte_tiles (s : State) (a : Nat) (b : Byte) : (s.writeByte a b).tiles = s.tiles := rfl
@[simp] theorem State.writeByte_tileOwn (s : State) (a : Nat) (b : Byte) :
    (s.writeByte a b).tileOwn = s.tileOwn := rfl
@[simp] theorem State.writeByte_pms (s : State) (a : Nat) (b : Byte) : (s.writeByte a b).pms = s.pms := rfl
@[simp] theorem State.writeByte_peerOut (s : State) (a : Nat) (b : Byte) :
    (s.writeByte a b).peerOut = s.peerOut := rfl
@[simp] theorem State.writeByte_outbox (s : State) (a : Nat) (b : Byte) : (s.writeByte a b).outbox = s.outbox := rfl
@[simp] theorem State.writeByte_ghosts (s : State) (a : Nat) (b : Byte) : (s.writeByte a b).ghosts = s.ghosts := rfl
@[simp] theorem State.writeByte_upsets (s : State) (a : Nat) (b : Byte) : (s.writeByte a b).upsets = s.upsets := rfl
@[simp] theorem State.writeByte_coldAt (s : State) (a : Nat) (b : Byte) : (s.writeByte a b).coldAt = s.coldAt := rfl
@[simp] theorem State.writeByte_mem (s : State) (a : Nat) (b : Byte) :
    (s.writeByte a b).mem = Tab.set s.mem memDefault a b := rfl
@[simp] theorem State.writeByte_resp (s : State) (a : Nat) (b : Byte) : (s.writeByte a b).resp = s.resp := rfl

/-! ## tickFree -/

@[simp] theorem State.tickFree_aclk (s : State) : (s.tickFree).aclk = s.aclk := rfl
@[simp] theorem State.tickFree_tick (s : State) : (s.tickFree).tick = s.tick := rfl
@[simp] theorem State.tickFree_tickOn (s : State) : (s.tickFree).tickOn = s.tickOn := rfl
@[simp] theorem State.tickFree_stopped (s : State) : (s.tickFree).stopped = s.stopped := rfl
@[simp] theorem State.tickFree_held (s : State) : (s.tickFree).held = s.held := rfl
@[simp] theorem State.tickFree_tstop (s : State) : (s.tickFree).tstop = s.tstop := rfl
@[simp] theorem State.tickFree_tstopAt (s : State) : (s.tickFree).tstopAt = s.tstopAt := rfl
@[simp] theorem State.tickFree_tstopArm (s : State) : (s.tickFree).tstopArm = s.tstopArm := rfl
@[simp] theorem State.tickFree_tstopErr (s : State) : (s.tickFree).tstopErr = s.tstopErr := rfl
@[simp] theorem State.tickFree_pwrlim (s : State) : (s.tickFree).pwrlim = s.pwrlim := rfl
@[simp] theorem State.tickFree_pwrstat (s : State) : (s.tickFree).pwrstat = s.pwrstat := rfl
@[simp] theorem State.tickFree_hotPwr (s : State) : (s.tickFree).hotPwr = s.hotPwr := rfl
@[simp] theorem State.tickFree_i3cDyn (s : State) : (s.tickFree).i3cDyn = s.i3cDyn := rfl
@[simp] theorem State.tickFree_i3cSel (s : State) : (s.tickFree).i3cSel = s.i3cSel := rfl
@[simp] theorem State.tickFree_agenda (s : State) : (s.tickFree).agenda = s.agenda := rfl
@[simp] theorem State.tickFree_turn (s : State) : (s.tickFree).turn = s.turn := rfl
@[simp] theorem State.tickFree_cur (s : State) : (s.tickFree).cur = s.cur := rfl
@[simp] theorem State.tickFree_fresh (s : State) : (s.tickFree).fresh = s.fresh + 1 := rfl
@[simp] theorem State.tickFree_nextId (s : State) : (s.tickFree).nextId = s.nextId := rfl
@[simp] theorem State.tickFree_groups (s : State) : (s.tickFree).groups = s.groups := rfl
@[simp] theorem State.tickFree_blocks (s : State) : (s.tickFree).blocks = s.blocks := rfl
@[simp] theorem State.tickFree_gangs (s : State) : (s.tickFree).gangs = s.gangs := rfl
@[simp] theorem State.tickFree_launches (s : State) : (s.tickFree).launches = s.launches := rfl
@[simp] theorem State.tickFree_queues (s : State) : (s.tickFree).queues = s.queues := rfl
@[simp] theorem State.tickFree_ctxs (s : State) : (s.tickFree).ctxs = s.ctxs := rfl
@[simp] theorem State.tickFree_parts (s : State) : (s.tickFree).parts = s.parts := rfl
@[simp] theorem State.tickFree_ops (s : State) : (s.tickFree).ops = s.ops := rfl
@[simp] theorem State.tickFree_cores (s : State) : (s.tickFree).cores = s.cores := rfl
@[simp] theorem State.tickFree_dies (s : State) : (s.tickFree).dies = s.dies := rfl
@[simp] theorem State.tickFree_links (s : State) : (s.tickFree).links = s.links := rfl
@[simp] theorem State.tickFree_vcs (s : State) : (s.tickFree).vcs = s.vcs := rfl
@[simp] theorem State.tickFree_chans (s : State) : (s.tickFree).chans = s.chans := rfl
@[simp] theorem State.tickFree_banks (s : State) : (s.tickFree).banks = s.banks := rfl
@[simp] theorem State.tickFree_arrs (s : State) : (s.tickFree).arrs = s.arrs := rfl
@[simp] theorem State.tickFree_tiles (s : State) : (s.tickFree).tiles = s.tiles := rfl
@[simp] theorem State.tickFree_tileOwn (s : State) : (s.tickFree).tileOwn = s.tileOwn := rfl
@[simp] theorem State.tickFree_pms (s : State) : (s.tickFree).pms = s.pms := rfl
@[simp] theorem State.tickFree_peerOut (s : State) : (s.tickFree).peerOut = s.peerOut := rfl
@[simp] theorem State.tickFree_outbox (s : State) : (s.tickFree).outbox = s.outbox := rfl
@[simp] theorem State.tickFree_ghosts (s : State) : (s.tickFree).ghosts = s.ghosts := rfl
@[simp] theorem State.tickFree_upsets (s : State) : (s.tickFree).upsets = s.upsets := rfl
@[simp] theorem State.tickFree_coldAt (s : State) : (s.tickFree).coldAt = s.coldAt := rfl
@[simp] theorem State.tickFree_mem (s : State) : (s.tickFree).mem = s.mem := rfl
@[simp] theorem State.tickFree_resp (s : State) : (s.tickFree).resp = s.resp := rfl

end Sys2Proof.Machine
end

