-- ==== Sys2Proof/Tests/Slice0.lean ====
section
/-! SUPPORT. Tests: ill-formed terms that the checks refuse, words decoded, single steps, and for every statement with
hypotheses a state and operands that meet them. Expected values come from the spec. -/

namespace Sys2Proof.Tests
open Sys2Proof Sys2Proof.Machine

set_option Elab.async false

/-! ## Small terms and states -/

def hd0 : Hd := ⟨0, false, 0⟩
/-- Predicated on P1, which is false. -/
def hd1 : Hd := ⟨1, false, 0⟩
def alu (ty : Ty) (dst sa sb : Opnd) (sub : BitVec 4 := 0) (ext : AluExt := .none) (sc : Opnd := .none) : AluArgs :=
  ⟨hd0, ty, sub, dst, sa, sb, sc, ext⟩
def ctl (len : Len) (dst sa sb : Opnd) (sub : BitVec 4 := 0) (x1 x2 : W32 := 0) (ty : Ty := .u0) : CtlArgs :=
  ⟨len, hd0, ty, sub, dst, sa, sb, x1, x2⟩
def mem (ty : Ty) (dst sa sb : Opnd) (sc : Opnd := .none) (sub : BitVec 4 := 0) (ext : Option MemExt := none) : MemArgs :=
  ⟨hd0, ty, sub, dst, sa, sb, sc, ext⟩
def mx : MemExt := MemExt.none
def mods (sat : Bool) (rnd : Rnd) (dn : Sel := ⟨0, false, 0⟩) : AluExt :=
  .mods ⟨sat, rnd, dn, ⟨0, false, 0⟩, ⟨0, false, 0⟩, ⟨0, false, 0⟩⟩

def c0 : Cur := ⟨0, false⟩
def x0 : Group := loadGroup
/-- A state in which a group, in slot 0 of core 0, is executing from slot A; `h` sets up the rest of the package. -/
def on (f : Group → Group) (h : State → State := id) (more : Tab Group := []) : State :=
  { h (State.reset.withFetchWord 64 0) with cur := some c0, groups := (0, f x0) :: more, upsets := [] }

theorem cur_on (f : Group → Group) (h : State → State := id) (more : Tab Group := []) : Current (on f h more) c0 (f x0) :=
  ⟨rfl, rfl, rfl⟩
theorem has_on (f : Group → Group) (h : State → State := id) (more : Tab Group := []) : HasGroup (on f h more) 0 (f x0) := rfl

/-- The next state of an outcome, or the state itself. -/
def after (o : Out) : State := match o with | .next t => t | _ => State.reset
/-- The group after an outcome. -/
def grp (o : Out) : Group := (Tab.get? (after o).groups 0).getD x0
/-- Run a program instruction on the state, then its pending writes. -/
def runs (i : Instr) (s : State) : Group :=
  let y := grp (exec i s)
  y.pend.foldl (fun z p => p.wr.foldl Group.regWr z) y

/-! ## Well-formedness refuses -/

theorem wf_pneg : (Instr.sadd { alu .i32 (.s 1) (.s 2) (.s 3) with hd := ⟨0, true, 0⟩ }).wf = false := by decide +kernel
theorem wf_lookahead : (Instr.vadd { alu .i32 (.v 1) (.v 2) (.v 3) with hd := ⟨0, false, 1⟩ }).wf = false := by decide +kernel
theorem wf_type : (Instr.sadd (alu .f32 (.s 1) (.s 2) (.s 3))).wf = false := by decide +kernel
theorem wf_sub : (Instr.sadd (alu .i32 (.s 1) (.s 2) (.s 3) 1)).wf = false := by decide +kernel
theorem wf_dst : (Instr.sadd (alu .i32 (.v 1) (.s 2) (.s 3))).wf = false := by decide +kernel
theorem wf_sa : (Instr.sadd (alu .i32 (.s 1) (.v 2) (.s 3))).wf = false := by decide +kernel
theorem wf_sb : (Instr.sadd (alu .i32 (.s 1) (.s 2) .lane)).wf = false := by decide +kernel
theorem wf_sc : (Instr.sadd (alu .i32 (.s 1) (.s 2) (.s 3) 0 .none (.s 4))).wf = false := by decide +kernel
theorem wf_lane_type : (Instr.fadd (alu .f32 (.v 1) .lane (.v 3))).wf = false := by decide +kernel
theorem wf_small_float : (Instr.vmov (alu .e4m3 (.v 1) (.small 1) .none)).wf = false := by decide +kernel
theorem wf_no_immediate : (Instr.sadd (alu .i32 (.s 1) .imm32 (.s 3))).wf = false := by decide +kernel
theorem wf_idle_immediate : (Instr.sadd (alu .i32 (.s 1) (.s 2) (.s 3) 0 (.imm32 5))).wf = false := by decide +kernel
theorem wf_both_immediates : (Instr.sadd (alu .i32 (.s 1) .imm32 .imm64 0 (.imm32 5))).wf = false := by decide +kernel
theorem wf_sat_not_listed : (Instr.vand (alu .u0 (.v 1) (.v 2) (.v 3) 0 (mods true .rne))).wf = false := by decide +kernel
theorem wf_rnd_not_listed : (Instr.vadd (alu .i32 (.v 1) (.v 2) (.v 3) 0 (mods false .rtz))).wf = false := by decide +kernel
theorem wf_rsx_scan : (Instr.scan (alu .f32 (.v 1) (.v 2) (.preg 0) 0 (mods false .rsx))).wf = false := by decide +kernel
theorem wf_selector_off : (Instr.vadd (alu .i32 (.v 1) (.v 2) (.v 3) 0 (mods false .rne ⟨0, true, 0⟩))).wf = false := by decide +kernel
theorem wf_selector_slot : (Instr.vadd (alu .i16 (.v 1) (.v 2) (.v 3) 0 (mods false .rne ⟨1, false, 5⟩))).wf = false := by decide +kernel
theorem wf_selector_type : (Instr.vadd (alu .i8 (.v 1) (.v 2) (.v 3) 0 (mods false .rne ⟨1, false, 0⟩))).wf = false := by decide +kernel
theorem wf_cvt_part : (Instr.cvt (alu .f16 (.v 1) (.v 2) (.tyc .f32) 2)).wf = false := by decide +kernel
theorem wf_cvt_untyped : (Instr.cvt (alu .u0 (.v 1) (.v 2) (.tyc .f32))).wf = false := by decide +kernel
theorem wf_qmx_source : (Instr.qmx (alu .e4m3 (.v 1) (.v 2) (.tyc .f64) 0 .none (.s 1))).wf = false := by decide +kernel
theorem wf_dqmx_part : (Instr.dqmx (alu .f32 (.v 1) (.v 2) (.s 1) 4 .none (.tyc .e4m3))).wf = false := by decide +kernel
theorem wf_float_reduce : (Instr.reduce (alu .f32 (.s 1) (.v 2) (.preg 0) 5)).wf = false := by decide +kernel
theorem wf_lnx_span : (Instr.lnxIdx (alu .n32 (.v 1) (.v 2) (.v 3) 0 .none (.lnx 0 5))).wf = false := by decide +kernel
theorem wf_sprd_vector : (Instr.lnxSprd (alu .n32 (.v 1) (.v 2) (.v 3) 4 .none (.lnx 0 0))).wf = false := by decide +kernel
theorem wf_xshfl_predicate : (Instr.xshfl { alu .u0 (.v 1) (.v 2) .none with hd := hd1 }).wf = false := by decide +kernel
theorem wf_ctl_length : (Instr.elect (ctl .b96 (.s 1) .none .none)).wf = false := by decide +kernel
theorem wf_ctl_extension : (Instr.exit (ctl .b64 .none .none .none 0 1)).wf = false := by decide +kernel
theorem wf_sysreg_number : (Instr.sysrd (ctl .b96 (.s 1) .none .none 0 0x1000)).wf = false := by decide +kernel
theorem wf_yield_deadline : (Instr.yield ⟨hd0, 0, 0, 0⟩).wf = false ∧ (Instr.yield ⟨hd0, 17, 0, 0⟩).wf = false := by decide +kernel
theorem wf_mem_scope : (Instr.fence (mem .u0 .none .none .none .none 0 (some { mx with scope := 6, pset := 1, sset := 1 }))).wf
    = false := by decide +kernel
theorem wf_mem_order : (Instr.ld (mem .n32 (.v 1) (.v 2) .none .none 0 (some { mx with ord := 2, scope := 1 }))).wf = false := by
  decide +kernel
theorem wf_mem_displacement : (Instr.copyV2s (mem .u0 (.s 1) (.s 2) (.s 3) (.hnd 0) 0 (some { mx with disp := 4 }))).wf = false := by
  decide +kernel
theorem wf_mem_ro_acquire : (Instr.ld (mem .n32 (.v 1) (.v 2) .none .none 0 (some { mx with ro := true, ord := 1, scope := 1 }))).wf
    = false := by decide +kernel
theorem wf_float_atomic : (Instr.atom (mem .f32 (.v 1) (.v 2) (.v 3) .none 0 (some { mx with aop := 3 }))).wf = false := by decide +kernel
theorem wf_atomic_op : (Instr.atom (mem .n32 (.v 1) (.v 2) (.v 3) .none 0 (some { mx with aop := 9 }))).wf = false := by decide +kernel
theorem wf_gate_number : (Instr.gateMark (mem .u0 (.s 1) .none (.small 24) .none 1)).wf = false := by decide +kernel
theorem wf_matrix_length : (Instr.mloop ⟨hd0, .u0, 0, .none, .s 4, .s 5, .zero, none⟩).wf = false := by decide +kernel
theorem wf_matrix_field : (Instr.mstest ⟨hd0, .u0, 0, .none, .none, .none, .none, some { MatExt.none with tile := 1 }⟩).wf = false := by
  decide +kernel
theorem wf_agate_field : (Instr.agop ⟨hd0, 0, .v 1, .none, .none, some { AgtExt.none with k := 1 }⟩).wf = false := by decide +kernel
theorem wf_welt_channel : (Instr.wbar ⟨hd0, true, 16, 0, .s 1, .none⟩).wf = false := by decide +kernel
theorem wf_pair_banks : (Instr.pairedWord ⟨0, false, false, 2, .fadd, .rne, false, 4, 1, 2, 0, .vadd, 2, 8, 1, 3⟩).wf = false := by
  decide +kernel
theorem wf_pair_reads : (Instr.pairedWord ⟨0, false, false, 2, .ffma, .rne, false, 4, 1, 2, 3, .vadd, 2, 9, 5, 6⟩).wf = false := by
  decide +kernel

/-! ## Words the spec prints, decoded (R265 to R290) -/

theorem decode_zero : decode 0 = .error (.form 0) := rfl
theorem decode_fill : decode 0xFFFFFFFF = .ok .fill ∧ decode 0x7FFFFFFF = .error .fill := ⟨rfl, rfl⟩
/-- SADD.I32 S1, S2, S3: TYPE 3, SB 0x103, SA 0x102, DST 0x101, OPC 0 and LEN 0 (R269). -/
theorem decode_scalar : decode (3 * 2 ^ 59 + 0x103 * 2 ^ 37 + 0x102 * 2 ^ 28 + 0x101 * 2 ^ 19) =
    .ok (.sadd (alu .i32 (.s 1) (.s 2) (.s 3))) := rfl
theorem decode_divergent : decode 0x120000000D_41003B001000008A =
    .ok (.brv (ctl .b128 .none (.v 1) (.small 0x18) 2 13 18 .n64)) := rfl
theorem decode_divergent_zero : decode 0x600000030_198030001000008A =
    .ok (.brv (ctl .b128 .none (.v 1) .zero 3 0x30 6 .i32)) := rfl
theorem decode_group_control : decode 0x00800000082000B8 = .ok (.regroup (ctl .b64 (.s 4) .none .none 1)) := rfl
/-- SYSRD S4, BLKID: register 3 in bits [75:64], DST 0x104, OPC 0xF2, LEN 1 (R282, R315). -/
theorem decode_system : decode (3 * 2 ^ 64 + 0x104 * 2 ^ 19 + 0xF2 * 4 + 1) =
    .ok (.sysrd (ctl .b96 (.s 4) .none .none 0 3)) := rfl
theorem decode_vector_integer : decode 0x80000000_1800006010200115 =
    .ok (.vdiv (alu .i32 (.v 4) (.v 1) (.v 3) 0 (mods true .rne))) := rfl
theorem decode_vector_float : decode 0x10000000_584140401040018D =
    .ok (.ffma (alu .f32 (.v 8) (.v 1) (.v 2) 0 (mods false .rtz) (.s 5))) := rfl
/-- CVT.F32.F16 V2, V1: TYPE 0x0B, SB the source type 0x09, OPC 0x80 (R335). -/
theorem decode_conversion : decode (0xB * 2 ^ 59 + 9 * 2 ^ 37 + 1 * 2 ^ 28 + 2 * 2 ^ 19 + 0x80 * 4) =
    .ok (.cvt (alu .f32 (.v 2) (.v 1) (.tyc .f16))) := rfl
theorem decode_cross_lane : decode 0x3808406020200220 = .ok (.lnxIdx (alu .n32 (.v 4) (.v 2) (.v 3) 0 .none (.lnx 1 2))) := rfl
theorem decode_census : decode 0x0100000058280234 = .ok (.censusMask (alu .u0 (.s 5) (.v 5) .none 2)) := rfl
theorem decode_memory : decode 0x20000000000_40002190F0000286 =
    .ok (.st (mem .n64 .none (.s 15) (.s 12) .none 0 (some { mx with disp := 0x200 }))) := rfl
theorem decode_wide_load : decode 0x0400000000800010A000028A =
    .ok (.ldw (mem .u0 (.v 0) (.s 10) .none .none 1 (some { mx with ro := true }))) := rfl
theorem decode_atomic : decode 0x580001A0E00012A8 = .ok (.atomr { mem .f32 .none (.v 14) (.v 13) with hd := ⟨4, false, 0⟩ }) := rfl
theorem decode_copy : decode 0x0078219008400300 = .ok (.copyV2s (mem .u0 (.s 8) (.s 0) (.s 12) (.hnd 0))) := rfl
theorem decode_matrix : decode 0x12104F0000000000_006020B040000352 =
    .ok (.mloop ⟨hd0, .u0, 0, .none, .s 4, .s 5, .zero, some ⟨1, 2, 4, 2, 15, false, .u0, false⟩⟩) := rfl
theorem decode_agate : decode 0x1000020003C00000_0280000010000392 =
    .ok (.agop ⟨hd0, 5, .v 1, .none, .none, some ⟨32, 0, 16, 0, 15, false, 0, 0⟩⟩) := rfl
theorem decode_welt : decode 0x8C000010181003B0 = .ok (.wred ⟨hd0, true, 3, 0, .s 2, .s 1⟩) := rfl
theorem decode_welt_barrier : decode 0x14000000082803A0 = .ok (.wbar ⟨hd0, false, 5, 0, .s 5, .none⟩) := rfl
theorem decode_paired : decode 0x2030109_03020104300001F9 =
    .ok (.pairedWord ⟨0, false, true, 2, .ffma, .rne, false, 4, 1, 2, 3, .vadd, 2, 9, 1, 3⟩) := rfl
/-- An unassigned OPC (0x18), a reserved type code and a package channel above 15 do not decode (R291). -/
theorem decode_refuses : (decode (0x18 * 4)).toOption = none ∧ (decode (31 * 2 ^ 59 + 0x101 * 2 ^ 19)).toOption = none ∧
    (decode (0x82000010181003B0 + 0x1F * 2 ^ 58)).toOption = none := ⟨rfl, rfl, rfl⟩

/-! ## Places (R2, R26, R27, R64) -/

theorem line_hash : homeSlice 0x1234567B80 = 15 ∧ homeBank 0x1234567B80 = 2 ∧ pseudoChannel 0x1234567B80 = 181 := by decide +kernel
theorem save_area : tbaseOf 0x400000000 (187 * 48 + 13) = 0x400D2AE00 := by decide +kernel
theorem scratch_interleaved : (on id).scLoc { loadBlock with narr := 5 } 0xA40 = .own 0 576 := by decide +kernel

/-! ## Scalar steps -/

def s12 (a b : W64) (x : Group) : Group := { x with s := [(1, a), (2, b)] }

theorem sadd_wraps : (runs (.sadd (alu .i8 (.s 3) (.s 1) (.s 2))) (on (s12 0x7F 1))).getS 3 = 0x80 := by decide +kernel
theorem sadd_clamps : (runs (.sadd (alu .i8 (.s 3) (.s 1) (.s 2) 0 (mods true .rne))) (on (s12 0x7F 1))).getS 3 = 0x7F := by decide +kernel
theorem smulh_upper : (runs (.smulh (alu .n64 (.s 3) (.s 1) (.s 2))) (on (s12 0x8000000000000000 2))).getS 3 = 1 := by decide +kernel
theorem sdiv_truncates : (runs (.sdiv (alu .i64 (.s 3) (.s 1) (.s 2))) (on (s12 (-7) 2))).getS 3 = -3 := by decide +kernel
theorem srem_dividend_sign : (runs (.srem (alu .i64 (.s 3) (.s 1) (.s 2))) (on (s12 (-7) 2))).getS 3 = -1 := by decide +kernel
theorem sdiv_by_zero : (runs (.sdiv (alu .n32 (.s 3) (.s 1) (.s 2))) (on (s12 5 0))).getS 3 = 0xFFFFFFFFFFFFFFFF := by decide +kernel
theorem sdiv_traps : (grp (exec (.sdiv (alu .n64 (.s 3) (.s 1) (.s 2))) (on fun x => { s12 5 0 x with gctl := 1 }))).bank1.tcause = 3 := by
  decide +kernel
theorem sshr_past_width : (runs (.sshr (alu .n32 (.s 3) (.s 1) (.s 2))) (on (s12 0xFFFFFFFFFFFFFFFF 32))).getS 3 =
    0xFFFFFFFF00000000 := by decide +kernel
theorem ssra_sign : (runs (.ssra (alu .i64 (.s 3) (.s 1) (.s 2))) (on (s12 0x8000000000000000 64))).getS 3 = -1 := by decide +kernel
theorem sbfe_signed : (runs (.sbfe (alu .i64 (.s 3) (.s 1) (.s 2))) (on (s12 0xF0 0x404))).getS 3 = -1 := by decide +kernel
theorem sbfi_edge : (runs (.sbfi (alu .u0 (.s 3) .zero (.s 1) 0 .none (.s 2))) (on (s12 0xFF 0x83C))).getS 3 =
    0xF000000000000000 := by decide +kernel
theorem smovi_high : (runs (.smoviHi (alu .u0 (.s 1) .imm32 .none 1 (.imm32 0xABCD))) (on (s12 5 0))).getS 1 =
    0xABCD00000005 := by decide +kernel
theorem scmp_every_lane : (runs (.scmp (alu .i32 (.preg 2) (.s 1) (.s 2) 2)) (on (s12 1 2))).getP 2 31 = 1 := by decide +kernel
theorem p0_takes_no_write : (runs (.scmp (alu .i32 (.preg 0) (.s 1) (.s 2) 4)) (on (s12 1 2))).getP 0 5 = 0xFFFF := by decide +kernel
theorem false_predicate_keeps : (runs (.sadd { alu .i64 (.s 1) (.s 2) (.s 2) with hd := hd1 }) (on (s12 9 1))).getS 1 = 9 := by decide +kernel

/-! ## Control steps -/

theorem bra_target : (grp (exec (.bra (ctl .b96 .none .none .none 0 8)) (on id))).a.pc = 32 := by decide +kernel
theorem call_link : (grp (exec (.callLabel (ctl .b96 (.s 9) .none .none 0 8)) (on id))).getS 9 = 12 := by decide +kernel
theorem jmp_misaligned : let y := grp (exec (.jmp (ctl .b64 .none (.s 1) .none)) (on (s12 6 0)))
    y.bank1.tcause = 5 ∧ y.bank1.tval = 6 ∧ y.bank1.tpca = 0 ∧ y.level = 1 := by decide +kernel
/-- The split of the spec's example route, at address 0x0C (R192, R309). -/
theorem brv_route :
    let y := grp (exec (.brv (ctl .b128 .none (.v 1) (.small 0x18) 2 13 18 .n64))
      (on fun x => { x with a := { x.a with pc := 0xC }, v := lanes32.map fun l => (32 + l, w64 l) }))
    y.a.pc = 0x1C ∧ y.a.own = 0xFFFFFF00 ∧ y.b.pc = 0x40 ∧ y.b.exm = 0xFF ∧ y.join = 0x54 ∧ y.bLive = true ∧ y.splitSp = 0 := by
  decide +kernel
theorem elect_lowest : let y := grp (exec (.elect (ctl .b64 (.s 5) .none .none 1)) (on fun x => { x with a := { x.a with exm := 0xC } }))
    y.getS 5 = 2 ∧ y.getP 1 2 = 1 ∧ y.getP 1 0 = 0 := by decide +kernel
theorem elect_none : (grp (exec (.elect (ctl .b64 (.s 5) .none .none 1)) (on fun x => { x with a := { x.a with exm := 0 } }))).getS 5 = 32 := by
  decide +kernel
theorem exmwr_within_own : (grp (exec (.exmwr (ctl .b64 .none (.s 1) .none))
    (on fun x => { s12 0xFF 0 x with a := { x.a with own := 0xF0 } }))).a.exm = 0xF0 := by decide +kernel
theorem yield_sets_deadline : (grp (exec (.yield ⟨hd0, 4, 24, 10⟩) (on id))).ystate = 0x04000A18 := by decide +kernel
theorem yield_watermark : (grp (exec (.yield ⟨hd0, 4, 24, 129⟩) (on id))).bank1.tcause = 1 := by decide +kernel
theorem trap_resumes_after : let y := grp (exec (.trap (ctl .b64 .none (.s 1) .none)) (on (s12 77 0)))
    y.bank1.tcause = 0xB ∧ y.bank1.tval = 77 ∧ y.bank1.tpca = 8 ∧ y.bank1.tmask = 0xFFFFFFFF := by decide +kernel
theorem tret_at_level_zero : (grp (exec (.tret (ctl .b64 .none .none .none)) (on id))).bank1.tcause = 2 := by decide +kernel
theorem tret_restores : let y := grp (exec (.tret (ctl .b64 .none .none .none)) (on fun x =>
      { x with level := 1, bank1 := { TrapBank.reset with tpca := 0x2018, tmska := 0xFF_0000_000F } }))
    y.level = 0 ∧ y.a.pc = 0x2018 ∧ y.a.own = 0xFF ∧ y.a.exm = 0xF := by decide +kernel
theorem grpid_reads : (grp (exec (.sysrd (ctl .b96 (.s 4) .none .none 0 2)) (on fun x => { x with gid := 3 }))).getS 4 = 3 := by decide +kernel
theorem laneid_reads : (grp (exec (.sysrd (ctl .b96 (.v 4) .none .none)) (on id))).getV 4 31 = 31 := by decide +kernel
theorem syswr_write_one_clears : (grp (exec (.syswr (ctl .b96 .none (.s 1) .none 0 0x5A)) (on fun x => { s12 0x1001 0 x with fpst := 3 }))).fpst =
    0x1002 := by decide +kernel
theorem syswr_below_level_freezes : (grp (exec (.syswr (ctl .b96 .none (.s 1) .none 0 0x308)) (on (s12 0 0)))).frozen = true := by decide +kernel
theorem kill_ends : ((after (exec (.kill (ctl .b64 .none (.s 1) .none)) (on (s12 5 0)))).ctx 0).ending.isSome = true := by decide +kernel

/-! ## Vector steps -/

def lanesOf (r : Nat) (f : Nat → Nat) : Tab W64 := lanes32.map fun l => (r * 32 + l, w64 (f l))
def vs (f g : Nat → Nat) (x : Group) : Group := { x with v := lanesOf 1 f ++ lanesOf 2 g }

theorem vadd_clamps : (runs (.vadd (alu .i32 (.v 3) (.v 1) (.v 2) 0 (mods true .rne))) (on (vs (fun _ => 0x7FFFFFFF) fun _ => 1))).getV 3 7 =
    0x7FFFFFFF := by decide +kernel
theorem vsub_wraps : (runs (.vsub (alu .n16 (.v 3) (.v 1) (.v 2))) (on (vs (fun _ => 0) fun _ => 1))).getV 3 0 = 0xFFFF := by decide +kernel
theorem vadd_inactive_keeps : (runs (.vadd (alu .n64 (.v 1) (.v 1) (.v 2))) (on fun x =>
    { vs (fun l => l) (fun _ => 100) x with a := { x.a with exm := 2 } })).getV 1 2 = 2 := by decide +kernel
theorem vdiv_by_zero : (runs (.vdiv (alu .i32 (.v 3) (.v 1) (.v 2))) (on (vs (fun _ => 5) fun _ => 0))).getV 3 1 =
    0xFFFFFFFFFFFFFFFF := by decide +kernel
theorem vdot4_signs : (runs (.vdot4 (alu .i32 (.v 3) (.v 1) (.v 2) 1 .none .zero)) (on (vs (fun _ => 0xFF) fun _ => 0xFF))).getV 3 0 =
    0xFFFFFF01 := by decide +kernel
theorem vcmp_keeps_other_lanes : let y := runs (.vcmp (alu .i64 (.preg 3) (.v 1) (.v 2) 2)) (on fun x =>
      { vs (fun l => l) (fun _ => 4) x with a := { x.a with exm := 0xFE }, p := [(96, 5)] })
    y.getP 3 0 = 5 ∧ y.getP 3 3 = 1 ∧ y.getP 3 4 = 0 := by decide +kernel
theorem fadd_one_two : (runs (.fadd (alu .f32 (.v 3) (.v 1) (.v 2))) (on (vs (fun _ => 0x3F800000) fun _ => 0x40000000))).getV 3 0 =
    0x40400000 := by decide +kernel
theorem fmul_overflows : let y := runs (.fmul (alu .f32 (.v 3) (.v 1) (.v 2))) (on (vs (fun _ => 0x7F000000) fun _ => 0x7F000000))
    y.getV 3 0 = 0x7F800000 ∧ y.fpst = 5 := by decide +kernel
theorem fdiv_by_zero : let y := runs (.fdiv (alu .f64 (.v 3) (.v 1) (.v 2))) (on (vs (fun _ => 0x3FF0000000000000) fun _ => 0))
    y.getV 3 9 = 0x7FF0000000000000 ∧ y.fpst = 8 := by decide +kernel
theorem fcmp_nan_unordered : let y := runs (.fcmp (alu .f32 (.preg 2) (.v 1) (.v 2) 6)) (on (vs (fun _ => 0x7FC00000) fun _ => 0))
    y.getP 2 0 = 1 ∧ y.fpst = 0 := by decide +kernel
theorem fpx_precise : let y := grp (exec (.fdiv (alu .f32 (.v 3) (.v 1) (.v 2))) (on fun x => { vs (fun _ => 0x3F800000) (fun _ => 0) x with fpst := 0x800 }))
    y.bank1.tcause = 0xD ∧ y.bank1.tpca = 0 ∧ y.pend = [] := by decide +kernel
theorem cvt_saturates : (runs (.cvt (alu .i32 (.v 3) (.v 1) (.tyc .f32))) (on (vs (fun _ => 0x4F800000) fun _ => 0))).getV 3 0 =
    0x7FFFFFFF := by decide +kernel
/-- 300 rounds to 288 in E4M3, inexactly (R221, R227). -/
theorem cvt_e4m3 : let y := runs (.cvt (alu .e4m3 (.v 3) (.v 1) (.tyc .f32))) (on (vs (fun _ => 0x43960000) fun _ => 0))
    elem 8 (y.getV 3 0) 0 = 0x79 ∧ y.fpst = 1 := by decide +kernel
theorem census_counts : (runs (.censusCount (alu .u0 (.s 5) (.v 1) .none 3)) (on (vs (fun l => l % 2) fun _ => 0))).getS 5 = 16 := by decide +kernel
theorem peers_lead : let y := runs (.peersLead (alu .n64 (.preg 1) (.v 1) .none 2)) (on (vs (fun l => l / 8) fun _ => 0))
    y.getP 1 8 = 1 ∧ y.getP 1 9 = 0 := by decide +kernel
theorem lnx_index : (runs (.lnxIdx (alu .n64 (.v 3) (.v 1) (.v 2) 0 .none (.lnx 0 4))) (on (vs (fun l => 100 + l) fun _ => 5))).getV 3 31 =
    105 := by decide +kernel
theorem reduce_adds : (runs (.reduce (alu .n64 (.s 4) (.v 1) (.preg 0))) (on (vs (fun l => l) fun _ => 0))).getS 4 = 496 := by decide +kernel
theorem scan_exclusive : (runs (.scanExc (alu .n64 (.v 3) (.v 1) (.preg 0) 8)) (on (vs (fun l => l) fun _ => 0))).getV 3 4 = 6 := by decide +kernel
def pairRun : Group := runs (.pairedWord ⟨0, false, false, 2, .fadd, .rne, false, 4, 1, 2, 0, .vadd, 2, 1, 1, 2⟩)
  (on (vs (fun _ => 0x3F800000) fun _ => 0x40000000))
/-- X reads V1 before Y writes it (R286). -/
theorem paired_word : pairRun.getV 4 0 = 0x40400000 ∧ pairRun.getV 1 0 = 0x7F800000 := by decide +kernel

/-! ## Memory, barriers and registers of blocks -/

theorem ld_unmapped : (grp (exec (.ld (mem .n32 (.v 1) (.s 1) .none)) (on (s12 0x100000000000000 0)))).bank1.tcause = 0x100004 := by decide +kernel
theorem ld_other_partition_freezes : (grp (exec (.ld (mem .n32 (.v 1) (.s 1) .none)) (on (s12 0x40000000000000 0)))).frozen = true := by decide +kernel
theorem ld_misaligned : let y := grp (exec (.ld (mem .n32 (.v 1) (.s 1) .none)) (on (s12 2 0)))
    y.bank1.tcause = 0x400004 ∧ y.bank1.tval = 2 ∧ y.bank1.tmask = 0xFFFFFFFF := by decide +kernel
theorem gate_number : (grp (exec (.gatePass (mem .u0 .none .none (.s 1))) (on (s12 8 0)))).bank1.tcause = 1 := by decide +kernel
def gateRun : Block := (after (exec (.gateMark (mem .u0 (.s 3) .none (.s 1) .none 1)) (on (s12 2 0)))).blk 0
theorem gate_last_closes : (gateRun.gate 2).phase = 1 := by decide +kernel
theorem wtick_reads : (runs (.wtick ⟨hd0, false, 0, 0, .s 2, .none⟩) (on id fun s => { s with tick := 109 })).getS 2 = 109 := by decide +kernel
theorem batch_numbers : (grp (exec (.batch (mem .u0 (.s 2) .none .none)) (on id))).getS 2 = 1 := by decide +kernel
theorem waitb_ahead : (grp (exec (.waitb (mem .u0 .none (.s 1) .none)) (on (s12 1 0)))).bank1.tcause = 1 := by decide +kernel


/-! ## Every statement's hypotheses are met

`witness_<statement>` gives, for each clause, a state and operands that meet its hypotheses together. In a state `on f h more`
the group `f x0` is the current one (cur_on). -/

/-- Serves ScalarArithmetic, ScalarBits and ScalarFieldsAndHalves, whose hypotheses are those of UniformRuns, and, with their own
clauses below, every other statement on uniform forms; its Current serves VectorArithmetic, VectorBitsAndMoves, LaneExchange and
CensusAndPeers, which ask for no more. A predicate that is true, and one that is not. -/
theorem witness_uniform : Current (on id) c0 x0 ∧ x0.uniPred hd0 = true ∧ x0.uniPred hd1 = false := ⟨cur_on id, by decide +kernel⟩

def fetches (n w : Nat) (f : Group → Group) : State := { State.reset.withFetchWord n w with groups := [(0, f x0)] }
def canIssue (s : State) (x : Group) (n w : Nat) : Prop :=
  s.agenda = [] ∧ s.stopped = false ∧ s.held = false ∧ s.turn ≠ 0 ∧ s.nextIssue (s.turn - 1) = some (0, 0, x) ∧
  HasGroup s 0 x ∧ s.pickSlot 0 x = some false ∧ vaCheck s (s.ctx x.ctx) 0 (x.slot false).ipc = .ok ∧
  s.fetchSt 0 (s.asidAt x.ctx 0) (blkOf (x.slot false).ipc) = .hit (bytesOf 32 (w % 2 ^ n))
def saddWord : Nat := 3 * 2 ^ 59 + 0x103 * 2 ^ 37 + 0x102 * 2 ^ 28 + 0x101 * 2 ^ 19
def tretWord : Nat := encode (.tret (ctl .b64 .none .none .none))
def pcAt (n : Nat) (x : Group) : Group := { x with a := { x.a with pc := w64 n } }

theorem witness_StepRunsDecoded_event : State.reset.agenda = [] ++ ⟨0, .coldReset⟩ :: [] ∧ 0 ≤ State.reset.aclk ∧
    State.reset.stopped = false ∧ State.reset.held = false := by decide
theorem witness_StepRunsDecoded_held : let s : State := { State.reset with agenda := [⟨1, .coldReset⟩], held := true }
    (∀ f, f ∈ s.agenda → s.aclk < f.due) ∧ (s.stopped = true ∨ s.held = true) := by decide
theorem witness_StepRunsDecoded_start : let s : State := { State.reset with agenda := [] }
    (∀ f, f ∈ s.agenda → s.aclk < f.due) ∧ s.stopped = false ∧ s.held = false ∧ s.turn = 0 := by decide
def yieldWord : Nat := encode (.yield ⟨hd0, 4, 24, 129⟩)
/-- A word of 8 bytes at address 28, of which 4 are in its block; one of zeros; FILL; SADD by a group that declares S0 and S1
alone; SADD held; YIELD with a watermark of 129; TRET at level 0; SADD. -/
theorem witness_StepRunsDecoded_issue :
    (canIssue (fetches 64 0 (pcAt 28)) (pcAt 28 x0) 64 0 ∧ ((bytesOf 32 0).drop 28).length < wordBits 0 / 8) ∧
    (canIssue (fetches 64 0 id) x0 64 0 ∧ decode 0 = .error (.form 0)) ∧
    (canIssue (fetches 32 0xFFFFFFFF id) x0 32 0xFFFFFFFF ∧ decode 0xFFFFFFFF = .ok .fill) ∧
    (let y : Group := { x0 with sdecl := 2 }
     canIssue (fetches 64 saddWord fun _ => y) y 64 saddWord ∧ decode saddWord = .ok (.sadd (alu .i32 (.s 1) (.s 2) (.s 3))) ∧
     ∃ r, r ∈ named (.sadd (alu .i32 (.s 1) (.s 2) (.s 3))) ∧ y.declares r = false) ∧
    (let y : Group := { x0 with a := { x0.a with held := true, counted := true } }
     canIssue (fetches 64 saddWord fun _ => y) y 64 saddWord ∧ ((y.slot false).held && (y.slot false).counted) = true ∧
     ∀ r, r ∈ named (.sadd (alu .i32 (.s 1) (.s 2) (.s 3))) → y.declares r = true) ∧
    (let i : Instr := .yield ⟨hd0, 4, 24, 129⟩
     canIssue (fetches 64 yieldWord id) x0 64 yieldWord ∧ decode yieldWord = .ok i ∧
     ((x0.slot false).held && (x0.slot false).counted) = false ∧ markIllop x0 i = true ∧
     ∀ r, r ∈ named i → x0.declares r = true) ∧
    (let i : Instr := .tret (ctl .b64 .none .none .none)
     canIssue (fetches 64 tretWord id) x0 64 tretWord ∧ decode tretWord = .ok i ∧ (x0.slot false).held = false ∧
     srIllop i = false ∧ markIllop x0 i = false ∧ privAt x0.level i = true) ∧
    (let i : Instr := .sadd (alu .i32 (.s 1) (.s 2) (.s 3))
     canIssue (fetches 64 saddWord id) x0 64 saddWord ∧ (x0.slot false).held = false ∧ srIllop i = false ∧
     markIllop x0 i = false ∧ (fetches 64 saddWord id).upsets = [] ∧ privAt x0.level i = false ∧ x0.pend = [] ∧
     icountOf x0.ystate + 1 ≤ deadlineOf x0.ystate) := by
  refine ⟨⟨?_, ?_⟩, ⟨?_, rfl⟩, ⟨?_, rfl⟩, ⟨?_, rfl, .s 3, ?_⟩, ⟨?_, ?_⟩, ⟨?_, rfl, ?_⟩, ⟨?_, rfl, ?_⟩, ⟨?_, ?_⟩⟩ <;>
    (try unfold canIssue HasGroup) <;> decide +kernel
theorem witness_DecodeEncode : let i : Instr := .sadd (alu .i32 (.s 127) (.s 2) (.s 3))
    i.isProgram = true ∧ i.wf = true ∧ decode saddWord = .ok (.sadd (alu .i32 (.s 1) (.s 2) (.s 3))) :=
  ⟨by decide, by decide +kernel, rfl⟩
theorem witness_StepKeepsMemory : let s : State := { State.reset with agenda := [] }
    Memory.wf s.mem = true ∧ ∃ t, step s = .next t := ⟨by decide, _, rfl⟩

/-! ### Scalar and control forms -/

def zeroIn (x : Group) (a : AluArgs) : List Nat := (List.range a.ty.count).filter fun e => decide (sBits x a a.sb e = 0)
theorem witness_ScalarCompareAndDivide : let a := alu .n32 (.s 3) (.s 1) (.s 2)
    let y : Group := { s12 5 7 x0 with gctl := 1 }
    (Current (on fun _ => y) c0 y ∧ y.uniPred hd0 = true ∧ bit64 y.gctl 0 = true ∧ zeroIn y a ≠ []) ∧
    (x0.uniPred hd0 = true ∧ bit64 x0.gctl 0 = false) ∧
    (let z : Group := { s12 5 0x100000001 x0 with gctl := 1 }
     z.uniPred hd0 = true ∧ zeroIn z a = []) ∧ x0.uniPred hd1 = false := ⟨⟨cur_on _, by decide +kernel⟩, by decide +kernel⟩
def goes (r : TgtAll) : Bool := match r with | .go => true | _ => false
/-- BRAS with a condition that fails; a target at address 6, misaligned; one at 8, which holds LAND; one of die 1, which is not
the partition's. -/
theorem witness_UniformTransfers : let y := s12 6 8 x0
    let s := on (fun _ => y) fun _ => State.reset.withFetchWord 128 (encode (.land (ctl .b64 .none .none .none)) * 2 ^ 64)
    Current s c0 y ∧ y.uniPred hd0 = true ∧ y.uniPred hd1 = false ∧
    ccInt 0 (ctlInt y .i64 (.s 1) 0) (ctlInt y .i64 (.s 2) 0) = false ∧ ccInt 2 (ctlInt y .i64 (.s 1) 0) (ctlInt y .i64 (.s 2) 0) = true ∧
    fld (y.srcS (.s 1)) 0 2 ≠ 0 ∧ vaCheck s (s.ctx y.ctx) 0 (y.srcS (.s 1)) ≠ .frozen ∧
    vaCheck s (s.ctx y.ctx) 0 ((s12 (2 ^ 54) 8 x0).srcS (.s 1)) = .frozen ∧ goes (s.targets 0 y true [(0, y.srcS (.s 2))]) = true ∧
    goes (s.targets 0 y false [(0, y.srcS (.s 2))]) = true := ⟨cur_on _ _, by decide +kernel⟩

/-- BRV's lanes: none, all, some with slot B not live, some with the split stack full. JMPV's: none; all to one target; the
lowest lane's alone, free to split; with the stack full. -/
def brvLanes (x : Group) (a : CtlArgs) : Mask := Mask.of fun l => x.active1 false a.hd l &&
  ccInt a.sub.toNat (ctlInt x a.ty a.sa l) (ctlInt x a.ty a.sb l)
def brvArgs : CtlArgs := ctl .b128 .none (.v 1) (.small 0x18) 2 5 9 .n64
def below (k : Nat) (x : Group) : Group := vs (fun l => if l < k then 0 else 64) (fun _ => 8) x
def full (x : Group) : Group := { x with bLive := true, splitSp := 64 }
theorem witness_DivergentTransfers_brv :
    (Current (on (below 0)) c0 (below 0 x0) ∧ brvLanes (below 0 x0) brvArgs = 0) ∧
    (brvLanes (below 32 x0) brvArgs ≠ 0 ∧ brvLanes (below 32 x0) brvArgs = ((below 32 x0).slot false).lanes) ∧
    (brvLanes (below 31 x0) brvArgs ≠ 0 ∧ brvLanes (below 31 x0) brvArgs ≠ ((below 31 x0).slot false).lanes ∧
      (below 31 x0).bLive = false ∧ brvArgs.x1 ≠ brvArgs.x2) ∧
    (let y := full (below 1 x0)
     brvLanes y brvArgs ≠ 0 ∧ brvLanes y brvArgs ≠ (y.slot false).lanes ∧ y.bLive = true ∧ y.splitSp.toNat = 64) :=
  ⟨⟨cur_on _, by decide +kernel⟩, by decide +kernel⟩
def jmpvPart (x : Group) (h : Hd) : List (Nat × W64) := (Mask.lanes (x.actives false h)).map fun l => (l, x.srcX (.v 1) l)
theorem witness_DivergentTransfers_jmpv :
    let land (n : Nat) (_ : State) : State := State.reset.withFetchWord (64 + 8 * n) (encode (.land (ctl .b64 .none .none .none)) * 2 ^ (8 * n))
    let two (_ : State) : State := State.reset.withFetchWord 608
      (encode (.land (ctl .b64 .none .none .none)) * (1 + 2 ^ 512))
    (Current (on id) c0 x0 ∧ jmpvPart x0 hd1 = []) ∧
    (let y := below 32 x0
     (jmpvPart y hd0).head? = some (0, 0) ∧ goes ((on (fun _ => y) (land 0)).targets 0 y true (jmpvPart y hd0)) = true ∧
     (Mask.of fun l => (jmpvPart y hd0).any fun p => p.1 = l && p.2 = 0) = (y.slot false).lanes) ∧
    (let y := below 1 x0
     (jmpvPart y hd0).head? = some (0, 0) ∧ goes ((on (fun _ => y) two).targets 0 y true (jmpvPart y hd0)) = true ∧
     (Mask.of fun l => (jmpvPart y hd0).any fun p => p.1 = l && p.2 = 0) ≠ (y.slot false).lanes ∧ y.bLive = false ∧
     (0 : W64) ≠ 64) ∧
    (let y := full (below 1 x0)
     goes ((on (fun _ => y) two).targets 0 y true (jmpvPart y hd0)) = true ∧ y.bLive = true ∧ y.splitSp.toNat = 64) :=
  ⟨⟨cur_on _, by decide +kernel⟩, by decide +kernel⟩
/-- ELECT is well formed; no lane of EXM, and lane 31 alone. -/
theorem witness_ElectLowestLane : (Instr.elect (ctl .b64 (.s 5) .none .none 15)).wf = true ∧
    Current (on id) c0 x0 ∧ x0.uniPred hd0 = true ∧ x0.uniPred hd1 = false ∧
    (let y : Group := { x0 with a := { x0.a with exm := 0 } }; (y.slot false).lanes = 0) ∧
    (let y : Group := { x0 with a := { x0.a with exm := 0x80000000 } }
     Mask.has (y.slot false).lanes 31 = true ∧ ∀ l, l < 31 → Mask.has (y.slot false).lanes l = false) :=
  ⟨by decide +kernel, cur_on _, by decide +kernel⟩
theorem witness_ExecutionMasks : (0x2C * 4 + 2 * 2 ^ 55) % 4 ≠ 3 ∧ (0x2C * 4 + 2 * 2 ^ 55) / 4 % 256 = 0x2C ∧
    2 ≤ (0x2C * 4 + 2 * 2 ^ 55) / 2 ^ 55 % 16 ∧ (Instr.exmrdOwn (ctl .b64 (.s 5) .none .none 1)).wf = true ∧
    (Instr.exmwrOr (ctl .b64 .none (.s 5) .none 2)).wf = true ∧ Current (on id) c0 x0 ∧ x0.uniPred hd0 = true ∧
    x0.uniPred hd1 = false := ⟨by decide, by decide, by decide, by decide +kernel, by decide +kernel, cur_on _, by decide +kernel⟩
/-- YIELD with a watermark of 255 that fits and of 129 S registers that does not; its predicate false; at level 1; the flag set
with nothing outstanding, and with a result outstanding. -/
def outs : Pend :=
  { tag := 0, kind := .alu, slotB := false, pc := 0, next := 8, issue := 0, long := false, win := none, taken := 0,
    dsts := [.s 9], wr := [.s 9 4], lanes := [], got := [], old := [], left := 0, bad := [], ldst := none, missed := false,
    acq := none, noInst := false, ro := false, lvl := 0, seq := 0, exm := 0xFFFFFFFF, re := false, bars := false }
theorem witness_PassingAndYieldForms : Current (on id) c0 x0 ∧ x0.uniPred hd0 = true ∧ x0.uniPred hd1 = false ∧ (255 ≤ x0.vdecl ∧ 128 ≤ x0.sdecl) ∧
    ¬ (255 ≤ x0.vdecl ∧ 129 ≤ x0.sdecl) ∧ x0.level = 0 ∧ x0.preempt = false ∧
    (let y : Group := { x0 with level := 1 }; y.uniPred hd0 = true ∧ y.level ≠ 0) ∧
    (let y : Group := { x0 with preempt := true }; y.level = 0 ∧ y.preempt = true ∧ y.resultsOut = false) ∧
    (let y : Group := { x0 with preempt := true, pend := [outs] }; y.level = 0 ∧ y.preempt = true ∧ y.resultsOut = true) :=
  ⟨cur_on _, by decide +kernel⟩
/-- EXIT by some lanes, by the last, and at level 1. REGROUP at level 1; and at an empty point beside a group that runs. -/
theorem witness_ExitAndRegroup :
    let left (x : Group) : Mask :=
      let t := x.slot false
      let y := x.setSlot false { t with own := t.own &&& ~~~t.lanes, exm := t.exm &&& ~~~t.lanes }
      y.allOwn ||| y.stackOwn
    (let y : Group := { x0 with a := { x0.a with exm := 0x7FFFFFFF } }
     Current (on fun _ => y) c0 y ∧ y.uniPred hd0 = true ∧ y.level = 0 ∧ (y.slot false).lanes ≠ 0 ∧ left y ≠ 0) ∧
    (x0.level = 0 ∧ (x0.slot false).lanes ≠ 0 ∧ left x0 = 0) ∧
    (let y : Group := { x0 with level := 1 }; y.uniPred hd0 = true ∧ y.level ≠ 0) ∧
    (let b : Block := { loadBlock with live := 2, places := [(0, .slot 0), (1, .slot 1)] }
     let s := on id (fun s => { s with blocks := [(0, b)] }) [(1, x0)]
     Current s c0 x0 ∧ Tab.get? s.blocks x0.blk = some b ∧ x0.level = 0 ∧ x0.bLive = false ∧ x0.splitSp = 0 ∧ x0.preempt = false ∧
     Tab.get? b.rend (rendKey b 0 15) = none ∧ 1 ∈ b.resident ∧ coreOf 1 = coreOf 0 ∧ HasGroup s 1 x0 ∧ x0.atRendOrGate = false) :=
  ⟨⟨cur_on _, by decide +kernel⟩, by decide +kernel, by decide +kernel, cur_on _ _ _, by decide +kernel, by decide +kernel,
    by decide +kernel, by decide +kernel, by decide +kernel, by decide +kernel, by decide +kernel, by decide +kernel, rfl,
    by decide +kernel⟩

/-! ### Vector forms -/

/-- Division: DIVZEN with a zero divisor in lane 31, and without DIVZEN. Serves PairedWord's compare too: an element enabled, and
none in a slot with EXM zero. -/
theorem witness_VectorComparesAndDivide :
    let y : Group := { vs (fun _ => 7) (fun l => 31 - l) x0 with gctl := 1 }
    let zero (x : Group) (l e : Nat) : Bool := x.enabled false hd0 l e &&
      decide (srcI x (alu .i32 (.v 3) (.v 1) (.v 2)) .i32 ⟨0, false, 0⟩ (.v 2) l e = 0)
    (Current (on fun _ => y) c0 y ∧ bit64 y.gctl 0 = true ∧ (lanes32.any fun l => (List.range 1).any (zero y l)) = true) ∧
    bit64 x0.gctl 0 = false ∧ (∃ l e, l < 32 ∧ e < Ty.count .i32 ∧ x0.enabled false hd0 l e = true) ∧
    (let z : Group := { x0 with a := { x0.a with exm := 0 } }; ∀ l, l < 32 → ∀ e, e < 16 → z.enabled false hd0 l e = false) :=
  ⟨⟨cur_on _, by decide +kernel⟩, by decide +kernel, ⟨31, 0, by decide +kernel⟩, by decide +kernel⟩
/-- Serves FloatForms, Conversions, PairedWord, VectorComparesAndDivide's FCMP and VectorBitsAndMoves' float clause: no enabled flag is raised; and, INVALID's
trap enabled, lane 31 raises it (the sum of infinities of two signs, the conversion of a signalling NaN, a paired FADD). -/
theorem witness_float_traps : let a := alu .f32 (.v 3) (.v 1) (.v 2)
    let sum (x : Group) := floatRun x (x.enabled false a.hd) a.ty (fun _ _ => 0)
      fun l e d _ => (fmtOf .f32).deliver .rne false d (fAdd .rne (fA x a l e) (fB x a l e))
    let inf (x : Group) : Group := { vs (fun l => if l = 31 then 0x7F800000 else 0) (fun _ => 0xFF800000) x with fpst := 0x1F00 }
    let pr : PairArgs := ⟨0, false, false, 2, .fadd, .rne, false, 4, 1, 2, 0, .vadd, 2, 9, 1, 2⟩
    let px (x : Group) := floatRun x (x.enabled false (pairX pr).hd) (pairX pr).ty (fun _ _ => xDraws pr.xop pr.xrnd)
      fun l e d _ => xElem pr.xop x (pairX pr) l e d
    (Current (on inf) c0 (inf x0) ∧ fpxOf (inf x0) (sum (inf x0)).flags = some (0x80000000, 16) ∧
      fpxOf (inf x0) (px (inf x0)).flags = some (0x80000000, 16)) ∧ fpxOf x0 (sum x0).flags = none ∧ fpxOf x0 (px x0).flags = none ∧
    ((alu .f32 (.v 3) (.v 1) .none 0 (mods false .rtz ⟨2, false, 0⟩)).mods.dn.w ≠ 0 ∧ Ty.kind .f32 = .float ∧ Ty.kind .i32 ≠ .float) ∧
    PairArgs.yop pr = .vadd ∧ ({ pr with yop := .lt, yd := 1 } : PairArgs).yop.isCmp = true := ⟨⟨cur_on _, by decide +kernel⟩, by decide +kernel⟩
/-- An element draws at most twice. -/
theorem witness_FloatElementsInOrder : let n (_ _ : Nat) : Nat := 2; ∀ l e, n l e ≤ 2 := fun _ _ => Nat.le_refl 2
/-- Trap enabled and disabled: the sum of infinities of two signs in one REDUCE or SCAN. -/
theorem witness_ReductionsAndScans : let y : Group := { x0 with fpst := 0x1F00 }
    Current (on fun _ => y) c0 y ∧ y.trapFlags 16 ≠ 0 ∧ y.trapFlags 0 = 0 ∧ x0.trapFlags 31 = 0 := ⟨cur_on _, by decide +kernel⟩
/-- A block on one core; and a group of a block on a core pair whose partner, on the other core, has not come yet. -/
theorem witness_CrossCoreShuffle :
    (Current (on id) c0 x0 ∧ ((on id).blk x0.blk).pair = false) ∧
    (let b : Block := { loadBlock with pair := true, live := 2, places := [(0, .slot 0), (1, .slot 48)] }
     let z : Group := { x0 with gid := 1 }
     let s := on id (fun s => { s with blocks := [(0, b)] }) [(48, z)]
     Current s c0 x0 ∧ (s.blk x0.blk).pair = true ∧ s.partner x0 = some 48 ∧ HasGroup s 48 z ∧
       z.pend.find? Pend.openExch = none) :=
  ⟨⟨cur_on _, by decide +kernel⟩, cur_on _ _ _, by decide +kernel, by decide +kernel, rfl, by decide +kernel⟩

/-! ### Traps and the system range -/

def trapOf (c : BitVec 8) : Trap :=
  { cause := c, subc := 0, defer := false, val := 7, mask := 1, slotB := false, pc := 8, ipc := 0, re := none, wph := none,
    seq := 0, lvl := 0 }
/-- A trap raised at levels 0 and 1, a fault of a result due at level 0, a trap at level 2, and one behind a result. -/
theorem witness_TrapEntry :
    (let y : Group := { x0 with trap := some (trapOf 11) }
     HasGroup (on fun _ => y) 0 y ∧ y.resultsOut = false ∧ y.trapDue = some (trapOf 11, none) ∧ y.level < 2) ∧
    (let y : Group := { x0 with faults := [trapOf 4] }
     y.resultsOut = false ∧ y.trapDue = some (trapOf 4, none) ∧ y.level < 2) ∧
    (let y : Group := { x0 with trap := some (trapOf 11), level := 1 }
     y.resultsOut = false ∧ y.trapDue = some (trapOf 11, none) ∧ y.level < 2) ∧
    (let y : Group := { x0 with trap := some (trapOf 11), level := 2 }
     y.resultsOut = false ∧ y.trapDue = some (trapOf 11, none) ∧ 2 ≤ y.level ∧ Tab.get? (on fun _ => y).ctxs y.ctx = some loadCtx ∧
     loadCtx.ending = none) ∧
    ({ x0 with pend := [outs] } : Group).resultsOut = true :=
  ⟨⟨has_on _, by decide +kernel⟩, by decide +kernel, by decide +kernel, by decide +kernel, by decide +kernel⟩
/-- The group has 24 arrays and 16 tiles of core 0. -/
def mb : Block :=
  { loadBlock with narr := 24, arrs := (List.range 24).map fun i => (i, i), tiles0 := (List.range 16).map fun i => (i, i) }
/-- A block of two groups, of which group 1 still runs. -/
def mb2 : Block := { loadBlock with live := 2, places := [(0, .slot 0), (1, .slot 1)] }
def withMb (s : State) : State := { s with blocks := [(0, mb)] }
def brkOn (s : State) : State := s.modPart 0 fun p => { p with ctab := [(0, 3)] }
/-- A loop of 24 arrays and 32 rows in MPROG0 to MPROG3, and one of no array. -/
def prog (ks : Nat) (x : Group) : Group :=
  { x with level := 2, mprog0 := 0x8000000000000000, mprog2 := w64 (ks * 2 ^ 13 + 32 * 2 ^ 7) }
theorem witness_TrapsAndReturn :
    (Current (on id) c0 x0 ∧ x0.uniPred hd0 = true ∧ x0.resultsOut = false ∧ x0.faults.filter x0.faultDue = [] ∧ x0.level < 2 ∧
      (on id).dbgBrk x0.ctx = false) ∧
    ({ x0 with pend := [outs] } : Group).resultsOut = true ∧
    (on id brkOn).dbgBrk x0.ctx = true ∧ Tab.get? (on id brkOn).ctxs x0.ctx = some loadCtx ∧ x0.level = 0 ∧
    (let y : Group := { x0 with level := 2 }
     y.uniPred hd0 = true ∧ y.level ≠ 0 ∧ (on fun _ => y).suspending 0 = false ∧ bit64 y.mprog0 63 = false ∧ y.faults = [] ∧
     y.trap = none) ∧
    (let s := on (prog 24) withMb
     (prog 24 x0).level ≠ 0 ∧ s.suspending 0 = false ∧ s.loopRuns 0 = false ∧ bit64 (prog 24 x0).mprog0 63 = true ∧
     s.progOk 0 (prog 24 x0) = true ∧ (prog 24 x0).faults = [] ∧ (prog 24 x0).trap = none ∧ s.progOk 0 (prog 0 x0) = false) :=
  ⟨⟨cur_on _, by decide +kernel⟩, by decide +kernel⟩
/-- Registers 0x005, which has no number; TCAUSE1 at level 0; the last of level 0's; LANEID and THRID. -/
theorem witness_SpecialReads :
    (Current (on id) c0 x0 ∧ srRead 0xFFF x0.level (.s 4) = .illop ∧ srRead 0x110 x0.level (.s 4) = .priv) ∧
    (∀ n, n ∈ [0x002, 0x058, 0x05A, 0x068, 0x402] → srRead n x0.level (.s 4) = .ok ∧ isV (.s 4) = false ∧ srWelt n = false ∧
      srIn n 0x069 0x06D = false ∧ n ≠ 0x06F ∧ n ≠ 0x042) ∧ x0.uniPred hd0 = true ∧ srNum (ctl .b96 (.v 255) .none .none 0 1) ≤ 1 ∧
    srRead 0x042 ({ x0 with level := 1 } : Group).level (.s 127) = .ok :=
  ⟨⟨cur_on _, by decide +kernel⟩, by decide +kernel⟩

def up (k : Nat) (x : Group) : Group := { x with level := k, s := [(1, 0x400)] }
def wr (n : Nat) : CtlArgs := ⟨.b96, hd0, .u0, 0, .none, .s 1, .none, .ofNat 32 n, 0⟩
theorem reg_write (x : Group) (n : Nat) (h : x.uniPred hd0 = true) (e : srNum (wr n) = n) (k : srWrite n x.level (.s 1) = .ok) :
    RegWrite x (.syswr (wr n)) n (x.srcS (.s 1)) 12 := .inl ⟨wr n, rfl, h, e, k, rfl, rfl, by simp [wr, lenBytes, Len.bits]⟩
def canWrite (x : Group) (n : Nat) : Bool := x.uniPred hd0 && srNum (wr n) = n && srWrite n x.level (.s 1) = .ok
theorem reg_writes {x : Group} {ns : List Nat} (h : ∀ n, n ∈ ns → canWrite x n = true) :
    ∀ n, n ∈ ns → RegWrite x (.syswr (wr n)) n (x.srcS (.s 1)) 12 := fun n m => by
  have := h n m
  simp only [canWrite, Bool.and_eq_true, decide_eq_true_eq] at this
  exact reg_write x n this.1.1 this.1.2 this.2
theorem witness_GroupRegisterWrites : Current (on (up 2)) c0 (up 2 x0) ∧
    (∀ n, n ∈ [0x040, 0x041, 0x042, 0x050, 0x05A, 0x05C, 0x068, 0x06E, 0x074, 0x104, 0x111, 0x113, 0x115, 0x123, 0x058, 0x070,
      0x073] → RegWrite (up 2 x0) (.syswr (wr n)) n ((up 2 x0).srcS (.s 1)) 12) ∧ ((up 2 x0).bat 3).out = 0 ∧ (up 2 x0).msAt ≠ some (on (up 2)).aclk ∧
    (let y : Group := { up 2 x0 with msAt := some (on (up 2)).aclk }
     Current (on fun _ => y) c0 y ∧ RegWrite y (.syswr (wr 0x068)) 0x068 (y.srcS (.s 1)) 12 ∧ y.msAt = some (on fun _ => y).aclk) :=
  ⟨cur_on _, reg_writes (by decide +kernel), by decide +kernel, by decide +kernel, cur_on _,
    reg_write _ _ (by decide +kernel) (by decide +kernel) (by decide +kernel), by decide +kernel⟩
/-- YSTATE's deadline 256 and 4,096; RSXST from V1; a number above the level, one that takes no write. -/
theorem witness_GroupRegisterWrites_rest : fld (256 * 2 ^ 16) 16 13 = 256 ∧ fld (4096 * 2 ^ 16) 16 13 = 4096 ∧
    srNum (ctl .b96 .none (.v 1) .none 0 0x060) = 0x060 ∧ x0.active1 false hd0 31 = true ∧
    srWrite 0x308 x0.level (.s 1) = .freeze ∧ srWrite 0x002 x0.level (.s 1) = .illop ∧ x0.uniPred hd0 = true := by decide +kernel
def other : Ctx := { loadCtx with asid := 9, entry := 1 }
def two (s : State) : State := { s with ctxs := [(0, loadCtx), (1, other)] }
theorem witness_ContextRegisterWrites : Current (on (up 2) two) c0 (up 2 x0) ∧
    (∀ n, n ∈ [0x308, 0x309, 0x30A, 0x30B, 0x30C, 0x380, 0x38F, 0x320, 0x33F, 0x301, 0x350] →
      RegWrite (up 2 x0) (.syswr (wr n)) n ((up 2 x0).srcS (.s 1)) 12) ∧
    Tab.get? (on (up 2) two).ctxs (up 2 x0).ctx = some loadCtx ∧ pmEvent (fld 0x400 0 8) = true ∧
    (on (up 2) two).agsetRefused (up 2 x0) 0 31 0x400 = false ∧ (on (up 1) two).agsetRefused (up 1 x0) 0 31 0x8180 = true ∧
    (on (up 2) two).asidTaken 0 9 = true ∧ (on (up 2) two).asidTaken 0 0x400 = false ∧
    (on (up 2) two).grantOk 0 (1 &&& 0xFFFFFFFFFFFF) = false ∧ (on (up 2) two).grantOk 0 (0 &&& 0xFFFFFFFFFFFF) = true :=
  ⟨cur_on _ _, reg_writes (by decide +kernel), by decide +kernel⟩
/-- Virtual page 0 of die 0 is held in the MTLB, with every permission. -/
def mapped (s : State) : State := s.modDie 0 fun d => { d with mtlb := [mtlbEntry 0 0 ⟨0x1007F, 0, 4⟩ false 0] }
def grants (s : State) : State :=
  mapped ((s.modCtx 0 fun c => { c with wgrant := 0x800000000000 }).modPart 0 fun p => { p with wppkg := 0x8000 })
def wsel (n : BitVec 6) (x : Group) : Group := { up 2 x with wsel := n }
theorem witness_ActingRegisterWrites :
    let s := on (up 2) grants
    (Current s c0 (up 2 x0) ∧ Tab.get? s.blocks (up 2 x0).blk = some loadBlock) ∧
    (∀ n, n ∈ [0x351, 0x254, 0x230, 0x23F, 0x240, 0x247, 0x360, 0x048] →
      RegWrite (up 2 x0) (.syswr (wr n)) n ((up 2 x0).srcS (.s 1)) 12) ∧
    (∀ n, n ∈ [0x07C] → RegWrite (up 1 x0) (.syswr (wr n)) n ((up 1 x0).srcS (.s 1)) 12) ∧
    ((wsel 47 x0).wsel.toNat < 48 ∧ bit64 (s.ctx 0).wgrant (32 + (wsel 47 x0).wsel.toNat % 32) = true ∧
      (s.part (s.ctx 0).pid).holdsChan (128 + (wsel 47 x0).wsel.toNat % 32) = true ∧
      (wsel 0 x0).wsel.toNat < 48 ∧ bit64 (s.ctx 0).wgrant ((wsel 0 x0).wsel.toNat % 32) = false) ∧
    (bit64 0x400 2 = false ∧ bit64 4 2 = true ∧ loadBlock.going = false ∧ ({ loadBlock with going := true } : Block).going = true) ∧
    ((loadBlock.hnd 15).isOp = false ∧ (loadBlock.hnd 15).wait = []) ∧
    (s.gateWaited loadBlock 7 = false ∧ fld 0x400 0 7 < loadBlock.live) ∧
    (s.writesOut c0 (up 2 x0) = false ∧ (s.queue (s.ctx 0).pid 63).asid = (s.ctx 0).asid ∧
      ((grants (two s)).queue 0 63).asid ≠ ((two s).ctx 1).asid) ∧
    (fld 0x0100000000000000 56 8 ≠ 0 ∧ fld 0x400 0 16 ≠ 0 ∧ vaCheck s (s.ctx 0) 0 0x10000 = .ok ∧ fld 0x10000 0 16 = 0 ∧
      s.pathDown 0 (vaDie 0x10000) = false) ∧
    (let y := up 1 x0
     let p : Group := { y with a := { y.a with wait := .park 0x400 } }
     y.level = 1 ∧ y.bLive = false ∧ y.pend = [] ∧ s.joined 0 = [] ∧ s.opsOut 0 = false ∧ lastUnparked loadBlock y.gid = true ∧
     loadBlock.swArm = false ∧ lastUnparked mb2 y.gid = false ∧ s.parkBehind c0 y = false ∧ (up 2 x0).level = 2 ∧
     (s.setGrp 48 p).parkBehind c0 { y with gid := 1 } = true ∧
     (s.vwrite 0 (s.ctx 0) (0x400 &&& 0xFFFFFFFFFFFFC0) (imageRecord y)).2 = none) :=
  ⟨⟨cur_on _ _, by decide +kernel⟩, reg_writes (by decide +kernel), reg_writes (by decide +kernel), by decide +kernel⟩
theorem witness_ContextEnds : Current (on id) c0 x0 ∧ x0.uniPred hd0 = true ∧ Tab.get? (on id).ctxs x0.ctx = some loadCtx ∧
    loadCtx.ending = none ∧ (on id).ctxOf 0 (.ofNat 16 (fld 0 48 16)) = some 0 ∧
    (let k : Ctx := { loadCtx with ending := some (3, 0, 0, 0, 5, 0) }
     let s := on id fun s => { s with ctxs := [(0, k)] }
     Tab.get? s.ctxs 0 = some k ∧ k.ending = some (3, 0, 0, 0, 5, 0)) := ⟨cur_on _, by decide +kernel⟩

/-! ### Memory forms -/

/-- Addresses of lane `l`: `f l`. -/
def at1 (f : Nat → Nat) (x : Group) : Group := vs f (fun _ => 3) x
def accs (x : Group) (n : Nat) : List LaneAcc := (Mask.lanes (x.actives false hd0)).map fun l => ⟨l, x.srcX (.v 1) l + 0, n⟩
def bad (s : State) (n : Nat) (as : List LaneAcc) : List BadLane := accBad s (s.ctx 0) 0 n as
def frz (s : State) (n : Nat) (as : List LaneAcc) : Bool := accFreezes s (s.ctx 0) 0 n as
/-- Serves LoadForms, StoreForms, AtomicForms, FenceAndCacheForms and COPYG: another partition's die freezes; a misaligned lane 31
and an address past the die numbers are refused; aligned addresses, the last of the die's, pass; no lane is active. -/
theorem witness_accesses :
    Current (on (at1 fun l => 4 * l)) c0 (at1 (fun l => 4 * l) x0) ∧
    (let s := on id
     (frz s 4 (accs (at1 (fun _ => 2 ^ 54) x0) 4) = true) ∧
     (frz s 4 (accs (at1 (fun l => if l = 31 then 2 else 0) x0) 4) = false ∧
       bad s 4 (accs (at1 (fun l => if l = 31 then 2 else 0) x0) 4) = [⟨31, 4, 2⟩]) ∧
     (frz s 4 (accs (at1 (fun _ => 2 ^ 56) x0) 4) = false ∧ bad s 4 (accs (at1 (fun _ => 2 ^ 56) x0) 4) ≠ []) ∧
     (let as := accs (at1 (fun l => 2 ^ 54 - 4 - 4 * l) x0) 4
      frz s 4 as = false ∧ bad s 4 as = [] ∧ as ≠ [] ∧ orderWait (s.before c0 x0) false 0 = false ∧ s.foreignBytes 0 0 as = false) ∧
     Mask.lanes (x0.actives false hd1) = [] ∧ x0.actives false hd1 = 0) := ⟨cur_on _, by decide +kernel⟩
/-- A load of lane 0's line that the group still waits for. -/
def nearOut : Pend := { outs with lanes := [⟨0, 0, 4⟩], kind := .load, dsts := [], wr := [], left := 1 }
/-- A line of the L1 that a load finds, found no more while an earlier load of it is outstanding, and one it does not; lanes of
an absent die for LDNR. -/
theorem witness_LoadForms :
    let l1 : L1Line := ⟨0, 0, false, bytesOf 128 5, 0⟩
    let y := at1 (fun l => 128 * (l % 2)) x0
    let s := on (fun _ => y) fun s => s.modCore 0 fun c => { c with l1 := [l1] }
    (Current s c0 y ∧ frz s 4 (accs y 4) = false ∧ bad s 4 (accs y 4) = [] ∧ accs y 4 ≠ [] ∧ 0 ∈ accLines (accs y 4) ∧
      (s.core 0).l1Find 0 0 false = some l1 ∧ 1 ∈ accLines (accs y 4) ∧ (s.core 0).l1Find 0 1 false = none ∧
      s.before c0 y = [] ∧ orderWait (s.before c0 y) false 0 = false ∧ s.foreignBytes 0 0 (accs y 4) = false) ∧
    (let z : Group := { y with pend := [nearOut] }
     let s := on fun _ => z
     orderWait (s.before c0 z) false 0 = false ∧ touchesLine ((s.before c0 z).filter fun p => p.kind = .load) 0 = true ∧
       touchesLine ((s.before c0 z).filter fun p => p.kind = .load) 1 = false) ∧
    (let s := on id fun s => s.modDie 0 fun d => { d with absdie := 8 }
     let as := accs (at1 (fun l => if l = 0 then 3 * 2 ^ 54 else 0) x0) 4
     frz s 4 as = false ∧ (∀ b, b ∈ bad s 4 as → b.subc = 3) ∧ bad s 4 as ≠ [] ∧ as ≠ [] ∧
     orderWait (s.before c0 x0) false 0 = false ∧
     s.foreignBytes 0 0 (as.filter fun e => !((bad s 4 as).any fun b => b.lane = e.lane)) = false) :=
  ⟨⟨cur_on _ _, by decide +kernel⟩, by decide +kernel, by decide +kernel⟩
/-- Bytes of two lanes at one address: the higher lane's stand, the lower's do not; and lane 31's first and last byte. -/
theorem witness_StoreForms : let y := at1 (fun l => 8 * (l / 2)) x0
    Current (on fun _ => y) c0 y ∧ bad (on id) 8 (accs y 8) = [] ∧ frz (on id) 8 (accs y 8) = false ∧
    orderWait ((on fun _ => y).before c0 y) false 0 = false ∧
    ∃ e, e ∈ accs y 8 ∧ e.lane = 31 ∧ (∀ f, f ∈ accs y 8 → e.lane < f.lane →
      ¬ (f.addr.toNat ≤ e.addr.toNat + 7 ∧ e.addr.toNat + 7 < f.addr.toNat + 8)) :=
  ⟨cur_on _, by decide +kernel, by decide +kernel, by decide +kernel, ⟨31, 120, 8⟩, by decide +kernel⟩
theorem witness_AtomicForms : let y : Group := { x0 with s := [(1, 0x40)] }
    Current (on fun _ => y) c0 y ∧ y.actives false hd0 ≠ 0 ∧ bad (on id) 8 [⟨32, y.srcX (.s 1) 0, 8⟩] = [] ∧
    frz (on id) 8 [⟨32, y.srcX (.s 1) 0, 8⟩] = false ∧ y.uniPred hd0 = true ∧ y.uniPred hd1 = false ∧
    orderWait ((on fun _ => y).before c0 y) true 4 = false ∧ y.actives false hd1 = 0 ∧
    (memRel (mem .n64 (.v 1) (.s 1) (.v 3) .none 0 (some { mx with ord := 2, scope := 4 })) = true ∧
      acqInvalidates 4 loadBlock.pair = true ∧ acqInvalidates 1 loadBlock.pair = false ∧ (y.slot false).inved = false) := ⟨cur_on _, by decide +kernel⟩
/-- Scratch of five arrays: lane 31 misaligned; one past the window's end; the last word of both windows. -/
theorem witness_ScratchForms :
    let b : Block := { mb with narr := 5 }
    let s (y : Group) := on (fun _ => y) fun s => { s with blocks := [(0, b)] }
    (let y := at1 (fun l => if l = 31 then 2 else 0) x0; Current (s y) c0 y ∧ scBad (s y) b (accs y 4) ≠ []) ∧
    (let y := at1 (fun _ => 5 * 32768) x0; scBad (s y) b (accs y 4) ≠ []) ∧ Mask.lanes (x0.actives false hd1) = [] ∧
    (let y := at1 (fun l => (l % 2) * 2 ^ 30 + 5 * 32768 - 4) x0
     accs y 4 ≠ [] ∧ scBad (s y) b (accs y 4) = [] ∧ orderWait ((s y).before c0 y) false 0 = false ∧
     ∀ e, e ∈ accs y 4 → (s y).scLoc b e.addr = .own 4 32764 ∧ ((s y).arr (b.arrKey 4)).writable = true) :=
  ⟨⟨cur_on _ _, by decide +kernel⟩, by decide +kernel⟩
/-- FENCE behind a store in its predecessor set; with none, as an acquire of scope PAIR, and with no acquire; the caches' lines. -/
def stOut : Pend := { outs with kind := .store, dsts := [], wr := [], left := 1 }
theorem witness_FenceAndCacheForms :
    (let y : Group := { x0 with pend := [stOut] }
     Current (on fun _ => y) c0 y ∧ y.uniPred hd0 = true ∧
       ((((on fun _ => y).before c0 y).any fun p => p.inPred 2) && decide (1 ≤ (2 : BitVec 3).toNat ∧ (1 : BitVec 8) ≠ 0)) = true) ∧
    (x0.uniPred hd0 = true ∧ ((((on id).before c0 x0).any fun p => p.inPred 2) && decide (1 ≤ (2 : BitVec 3).toNat ∧ (1 : BitVec 8) ≠ 0)) = false ∧
      orderWait ((on id).before c0 x0) false 0 = false ∧ (1 : BitVec 8).toNat % 2 = 1 ∧ 2 ≤ (2 : BitVec 3).toNat ∧ (2 : BitVec 8).toNat % 2 = 0 ∧
      acqInvalidates 1 ((on id).blk 0).pair = false) ∧
    x0.actives false hd0 ≠ 0 ∧ (on id).die 0 = Die.reset ∧ ((on id).core 0).l1Find 0 0 false = none ∧
    laneCheck (on id) ((on id).ctx 0) 0 1 ⟨0, 0x40, 1⟩ = none :=
  ⟨⟨cur_on _, by decide +kernel⟩, by decide +kernel⟩

/-! ### Asynchronous forms and barriers -/

def ss (l : Tab W64) (x : Group) : Group := { x with s := l }
def rg (s : State) (l : ELoc) (n : Nat) : RangeSt := s.rangeSt x0 0 l n
/-- Lengths of 2^32 + 1, 2^32 and 6; ends at 2 and 4, and on a die of another partition; a scratch end past the block's arrays,
and the last granule of them. -/
theorem witness_CopyForms : let s := on id withMb
    Current s c0 x0 ∧ x0.uniPred hd0 = true ∧ 2 ^ 32 < ((2 ^ 32 + 1 : Nat)) ∧ (6 : Nat) % 4 ≠ 0 ∧ (2 : W64).toNat % 4 ≠ 0 ∧
    (4 : W64).toNat % 4 = 0 ∧ (2 ^ 32 : Nat) % 4 = 0 ∧ rg s (.va 0x40000000) (2 ^ 32) = .ok ∧
    rg s (.va 0x40000000000000) 4 = .freeze ∧
    rg s (.sc (w64 (24 * 32768 - 4))) 8 = .bad 1 (w64 (24 * 32768 - 4)) ∧ rg s (.sc (w64 (24 * 32768 - 4))) 4 = .ok ∧
    (x0.bat 0).out < 32 ∧ s.hndTurn c0 x0.blk 15 false = true ∧ s.hndTurn c0 x0.blk 15 true = false ∧
    (let b : Block := { mb with hnds := [(15, { Hnd.reset with state := 2 })] }
     (on id fun s => { s with blocks := [(0, b)] }).hndTurn c0 0 15 true = true) := ⟨cur_on _ _, by decide +kernel⟩
/-- A class with 32 operations outstanding. -/
theorem witness_Issues_full : 32 ≤ (x0.setBat 0 { BatchCls.reset with cur := List.range 32 } |>.bat 0).out := by decide +kernel
theorem witness_CopyForms_lists : let s := on id withMb
    let y := ss [(4, 0x200), (5, 0x100), (6, 0x41300000080), (7, 0)] x0
    let w (k : Nat) : W64 := y.getS (4 + k)
    Current (on (ss [(4, 0x200), (5, 0x100), (6, 0x41300000080), (7, 0)]) withMb) c0 y ∧ y.uniPred hd0 = true ∧
    (frz s 4 (accs (at1 (fun l => 4 * l) x0) 4) = false ∧ bad s 4 (accs (at1 (fun l => 4 * l) x0) 4) = [] ∧
      rg s (.sc 0) (32 * 4) = .ok) ∧
    (fld (w 2) 43 21 = 0 ∧ (w 1).toNat % 4 = 0 ∧ fld (w 2) 0 32 = 128 ∧ (w 3).toNat % 8 = 0 ∧ rg s (.va (w 1)) 128 = .ok ∧ w 3 = 0 ∧
      rg s (.va 0x1000) 8 = .ok) ∧ fld (0x80000000000 : W64) 43 21 ≠ 0 := ⟨cur_on _ _, by decide +kernel⟩
/-- A class at its first batch and with 32,767 open; waits one ahead, at the last done, for one closed; counts 0 and 32,768;
a fault kept. -/
def bat (c d : BitVec 16) (f : List (Option (BitVec 16) × Deferred)) (x : Group) : Group :=
  x.setBat 0 { BatchCls.reset with closed := c, done := d, faults := f }
theorem witness_BatchAndHandleForms_batches :
    let y := bat 5 3 [] x0
    (Current (on (bat 5 3 [])) c0 y ∧ y.uniPred hd0 = true ∧ ((y.bat 0).closed - (y.bat 0).done).toNat ≠ 32767) ∧
    (let n : BitVec 16 := 6; 1 ≤ (n - (y.bat 0).closed).toNat ∧ (n - (y.bat 0).closed).toNat < 2 ^ 15) ∧
    (let n : BitVec 16 := 3; ¬ (1 ≤ (n - (y.bat 0).closed).toNat ∧ (n - (y.bat 0).closed).toNat < 2 ^ 15) ∧
      ((y.bat 0).done - n).toNat < 2 ^ 15 ∧ (y.bat 0).faults = []) ∧
    (let n : BitVec 16 := 5; ¬ (1 ≤ (n - (y.bat 0).closed).toNat ∧ (n - (y.bat 0).closed).toNat < 2 ^ 15) ∧
      ¬ ((y.bat 0).done - n).toNat < 2 ^ 15) ∧
    (((y.bat 0).closed - (y.bat 0).done).toNat ≤ 2 ∧ ¬ ((y.bat 0).closed - (y.bat 0).done).toNat ≤ 1 ∧
      32767 < (32768 : W64).toNat ∧ (1 : W64).toNat ≤ 32767) ∧
    (let z := bat 5 3 [(some 2, ⟨4, 2, 7, none⟩)] x0
     (z.bat 0).faults = (some 2, ⟨4, 2, 7, none⟩) :: [] ∧ ((z.bat 0).done - 2).toNat < 2 ^ 15 ∧ (4 : BitVec 8) ≠ 0x0C) :=
  ⟨⟨cur_on _, by decide +kernel⟩, by decide +kernel⟩
/-- Handle 15: free, full, filled and drained by this group, held by an operation, by group 1; a range of the block and one past. -/
theorem witness_BatchAndHandleForms_handles :
    let b (q : Hnd) : Block := { mb with hnds := [(15, q)] }
    let s (q : Hnd) : State := on id fun s => { s with blocks := [(0, b q)] }
    let h (st : BitVec 2) (o : Bool) (g : Nat) : Hnd := { Hnd.reset with state := st, isOp := o, holder := g }
    (Current (s (h 2 false 0)) c0 x0 ∧ x0.uniPred hd0 = true ∧ Tab.get? (s (h 2 false 0)).blocks x0.blk = some (b (h 2 false 0)) ∧
      (s (h 2 false 0)).hndTurn c0 0 15 true = true) ∧
    (s Hnd.reset).scRange mb 0 (24 * 32768 + 1) = false ∧ (s Hnd.reset).scRange mb 0 (24 * 32768) = true ∧
    (s Hnd.reset).hndTurn c0 0 15 false = true ∧
    ((h 1 true 0).isOp = true ∧ (h 1 false 1).holder ≠ x0.gid ∧ (h 0 false 0).state ≠ 1 ∧ (h 2 false 0).state ≠ 3) ∧
    ((h 1 false 0).holder = x0.gid ∧ (h 1 false 0).isOp = false ∧ (h 3 false 0).state = 3 ∧ (s (h 1 false 0)).before c0 x0 = []) :=
  ⟨⟨cur_on _ _, by decide +kernel⟩, by decide +kernel⟩
/-- Gates 7 and 8; slot B live; an access outstanding; a block of a core pair before and after the arrival's fence; a group that
has arrived, and no group at a rendezvous; a phase that has and has not passed. -/
theorem witness_BarrierForms_gates :
    let s := on id (fun s => { s with blocks := [(0, mb2)] })
    (Current s c0 x0 ∧ x0.uniPred hd0 = true ∧ Tab.get? s.blocks x0.blk = some mb2) ∧ 8 ≤ (8 : Nat) ∧ 7 < (8 : Nat) ∧
    ({ x0 with bLive := true } : Group).bLive = true ∧ x0.bLive = false ∧ (x0.slot false).wph = none ∧
    (let y : Group := { x0 with pend := [stOut] }; ((on fun _ => y).before c0 y).isEmpty = false) ∧ (s.before c0 x0).isEmpty = true ∧
    mb2.pair = false ∧ ({ mb2 with pair := true } : Block).pair = true ∧ (x0.slot false).inved = false ∧
    ({ x0.slot false with inved := true } : Slot).inved = true ∧ (∀ e, e ∈ s.groups → e.2.atRend = false) ∧
    ({ x0 with gategrp := 0x80 } : Group).arrived 7 = true ∧ x0.arrived 7 = false ∧ (mb2.gate 7).phase = 0 ∧ (mb2.gate 7).phase ≠ 1 :=
  ⟨⟨cur_on _ _, by decide +kernel⟩, by decide +kernel⟩
/-- A gang of one block of two groups, of rank 0 and of rank 15; before and after an arrival's fence. -/
theorem witness_BarrierForms_gangs :
    let g (r : Nat) : Gang := ⟨0, 0, 0, 16, 0, [(r, 0)], 0, 0, 0, false⟩
    let b (r : Nat) : Block := { mb2 with rank := r }
    let s (r : Nat) := on id fun s => { s with blocks := [(0, b r)], gangs := [(0, g r)] }
    (Current (s 15) c0 x0 ∧ Tab.get? (s 15).blocks x0.blk = some (b 15) ∧
      (if (b 15).rank < 8 then ((s 15).gang 0).arr0 else ((s 15).gang 0).arr1) + 1 < (s 15).gangLive ((s 15).gang 0) ((b 15).rank / 8) ∧
      (b 15).rank < 16) ∧
    (((s 0).gang 0).arr0 + 1 < (s 0).gangLive ((s 0).gang 0) 0 ∧ x0.arrived 8 = false ∧ x0.bLive = false ∧
      (x0.slot false).wph = none ∧ (s 0).before c0 x0 = [] ∧ (x0.slot false).inved = false ∧
      (let y : Group := { x0 with a := { x0.a with inved := true } }; (y.slot false).inved = true ∧ (s 0).before c0 y = []) ∧
      ((s 0).gang 0).phase = 0 ∧
      ((s 0).gang 0).phase ≠ 1) := ⟨⟨cur_on _ _, by decide +kernel⟩, by decide +kernel⟩
theorem witness_BarrierForms_releases :
    let at' (w : Wait) : Group := { x0 with a := { x0.a with wait := w, held := true, wlen := 8 } }
    let g : Gang := ⟨0, 0, 0, 16, 0, [(0, 0)], 3, 0, 0, false⟩
    let b : Block := { loadBlock with gates := [(7, ⟨3, 0⟩)] }
    let s (w : Wait) := on (fun _ => at' w) fun s => { s with blocks := [(0, b)], gangs := [(0, g)] }
    (Tab.get? (s (.gate 7 2 true)).blocks 0 = some b ∧ (at' (.gate 7 2 true)).a.re = none ∧ 0 ∈ b.resident ∧
      (at' (.gate 7 2 true)).bLive = false ∧ (2 : BitVec 16) ≠ (b.gate 7).phase) ∧
    ((0, 0) ∈ ((s (.ggate 2 false)).gang 0).blks ∧ (2 : BitVec 16) ≠ ((s (.ggate 2 false)).gang 0).phase) ∧
    HasGroup (s (.ggate 2 false)) 0 (at' (.ggate 2 false)) := by
  refine ⟨?_, ?_, rfl⟩ <;> decide +kernel

/-! ### Matrix, Agate and Welt forms -/

def mat (o : Opnd) (e : MatExt) : MatArgs := ⟨hd0, .f32, 0, .none, o, .s 5, .none, some e⟩
def looping (s : State) : State := { s with ops := [(9, { (on id).mkOp c0 x0 1 (.mloop (loopOf (mat (.s 4) MatExt.none) x0)) none with id := 9 })] }
/-- The last array and the sixteenth tile; one of each past them; an MCFG of every legal and of an illegal EBT; partial overlap;
a loop of 24 arrays and 32 rows; a group whose loop runs. -/
theorem witness_MatrixForms :
    let s := on id withMb
    let e : MatExt := { MatExt.none with ksm1 := 23, mm1 := 31 }
    let l := s.loopNow (s.ctx 0) mb (loopOf (mat (.s 4) e) x0)
    (Current s c0 x0 ∧ x0.uniPred hd0 = true ∧ Tab.get? s.ops s.nextId = none ∧ s.loopRuns 0 = false) ∧
    ((on id looping).loopRuns 0 = true ∧ Tab.get? (on id looping).ops (on id looping).nextId = none) ∧
    ((0x1000 : W64).toNat % 8 = 0 ∧ rg s (.va 0x1000) 128 = .ok) ∧ (cfgLegal 0 0 = true ∧ cfgLegal (2 * 2 ^ 59) 0 = false) ∧
    (arrHere mb 0 23 = true ∧ arrHere mb 0 24 = false ∧ rg s (.va 0x1000) (admitBytes .u0 false).1 = .ok ∧
      rg s (.va 0x1000) (admitBytes .u0 false).2 = .ok) ∧
    (loopFixed mb 0 l = true ∧ loopVaries mb 0 l = true ∧ (x0.srcS (.s 4)).toNat % 4 = 0 ∧ fld (x0.srcS (.s 5)) 32 32 % 4 = 0 ∧
      rg s l.range.1 l.range.2 = .ok ∧ loopFixed loadBlock 0 l = false ∧ loopVaries loadBlock 0 l = false) ∧
    (tilesOk mb 0 0 16 = true ∧ tilesOk mb 0 15 1 = true ∧ tilesOk mb 0 15 2 = false ∧ 16 < (17 : Nat)) ∧
    ((0 : Nat) + 8 ≤ 8 ∧ ¬ ((0 : Nat) = 4 ∨ 0 + 8 ≤ 4 ∨ 4 + 8 ≤ (0 : Nat))) ∧
    (storeLegal (Tab.getD (s.ctx 0).ppt 0 15) = true ∧ rg s (.va 0x1000) (4096 * 16) = .ok ∧ (0x1000 : Nat) % (Ty.f32.width / 8) = 0) ∧
    (x0.level = 0 ∧ (up 1 x0).level ≠ 0) ∧ x0.msAt ≠ some s.aclk ∧ ({ x0 with msAt := some s.aclk } : Group).msAt = some s.aclk := ⟨⟨cur_on _ _, by decide +kernel⟩, by decide +kernel⟩
/-- Bank-set entry 31 is bank 0 of slice 1, in mode AGATE for the context; index 32; one with no entry. -/
def agated (s : State) : State :=
  { s.modCtx 0 fun c => { c with agset := [(31, 0x8004)] } with banks := [(4, { Bank.reset with mode := .agate, ctx := some 0 })] }
theorem witness_AgateForms :
    let y := { at1 (fun _ => 31) x0 with v := lanesOf 1 (fun _ => 31) ++ lanesOf 2 (fun _ => 0x1000) ++ lanesOf 3 fun _ => 8 * 2 ^ 16 + 16376 }
    let s := on (fun _ => y) agated
    let r : W64 := y.srcX (.v 3) 0
    (Current s c0 y ∧ Tab.get? s.ops s.nextId = none ∧ Mask.has (y.actives false hd0) 31 = true ∧
      ∀ l, l < 32 → s.agIndex y.ctx 0 false (y.srcX (.v 1) l) = none ∧ s.agIndex y.ctx 0 true (y.srcX (.v 1) l) = none) ∧
    (497 - 1 + 16 ≤ 512 ∧ fld r 16 16 ≠ 0 ∧ fld r 0 16 + fld r 16 16 ≤ 16384 ∧ fld r 0 16 % 8 = 0 ∧ fld r 16 16 % 8 = 0 ∧
      s.rangeIn y.ctx 0 0 (.va (y.srcX (.v 2) 0)) ((fld r 16 16 * mwBits 0 + 7) / 8) = .ok) ∧
    (32 ≤ (32 : W64).toNat ∧ bit64 (Tab.getD (s.ctx y.ctx).agset 0 0) 15 = false ∧ Mask.has (x0.actives false hd0) 0 = true) :=
  ⟨⟨cur_on _ _, by decide +kernel⟩, by decide +kernel⟩
/-- Die channel 31, granted, expecting arrivals; not granted, and taken from the partition since, a wait begun or not; expecting
none; a phase that has and has not passed. -/
def channel (n : Nat) (s : State) : State :=
  { (s.modCtx 0 fun c => { c with wgrant := 0x80000000 }).modPart 0 fun p => { p with wpdie := [(0, 0x80000000)] } with chans := [(31, { Chan.reset with expect := n, cPhase := 3 })] }
theorem witness_WeltForms :
    let s := on id (channel 12288)
    (Current s c0 x0 ∧ x0.uniPred hd0 = true ∧ x0.bLive = false ∧ bit64 (s.ctx x0.ctx).wgrant 31 = true ∧
      (s.part (s.ctx x0.ctx).pid).holdsChan 31 = true ∧ (s.chan 31).expect ≠ 0) ∧
    ({ x0 with bLive := true } : Group).bLive = true ∧ bit64 (s.ctx x0.ctx).wgrant 30 = false ∧
    ((s.modPart 0 fun p => { p with wpdie := [] }).part 0).holdsChan 31 = false ∧ (x0.slot false).held = false ∧
    ({ x0.slot false with held := true } : Slot).held = true ∧ (∀ q, q ∈ x0.pend → q.kind ≠ .warr) ∧
    ((on id (channel 0)).chan 31).expect = 0 ∧ (s.before c0 x0).isEmpty = true ∧
    (let y : Group := { x0 with pend := [stOut] }; ((on fun _ => y).before c0 y).isEmpty = false) ∧ (s.chan 31).cPhase = 3 ∧ (s.chan 31).cPhase ≠ 4 ∧
    (s.chan 31).rel = [] := ⟨⟨cur_on _ _, by decide +kernel⟩, by decide +kernel⟩

/-! ### Results, groups and cores -/

def ldOut (n : Nat) : Pend := { outs with kind := .load, left := n, lanes := [⟨0, 0, 4⟩], ldst := some (.v 3, .n32, .none), dsts := [.v 3] }
def rdPkt : Pkt := (on id).grpPkt 0 x0 0 0 .r true (.read 1)
def engOp : AOp := { (on id).mkOp c0 x0 1 (.mppt 0x1000) none with id := 9, started := true, left := 2 }
/-- A Welt arrival on channel 31 on its way out of its core, before its ACLK. -/
def warr : Pend := { outs with kind := .warr, dsts := [.s 4], wr := [], arrive := some (31, .s 4, .bar) }
/-- A computed result, and a Welt arrival; an access with one answer to come and with two; an answer for the host and for an
engine's read, and one with a bad header. -/
theorem witness_ResultDelivery :
    (let y : Group := { x0 with pend := [outs] }
     HasGroup (on fun _ => y) 0 y ∧ y.dead = false ∧ y.faults = [] ∧ y.trap = none ∧
       y.pend.find? (fun p => p.tag = 0 ∧ (p.kind = .alu ∨ p.kind = .warr)) = some outs ∧ outs.arrive = none) ∧
    (let y : Group := { x0 with pend := [warr] }
     y.pend.find? (fun p => p.tag = 0 ∧ (p.kind = .alu ∨ p.kind = .warr)) = some warr ∧ warr.arrive = some (31, .s 4, .bar) ∧
       warr.wr = []) ∧
    (∀ n, n ∈ [1, 2] → ({ x0 with pend := [ldOut n] } : Group).pend.find? (fun p => p.tag = 0 ∧ p.isAcc) = some (ldOut n) ∧
      (ldOut n).bad = [] ∧ (ldOut n).acq = none ∧ (ldOut n).left = n ∧ (ldOut n).kind = .load) ∧
    (rdPkt.src = .grp 0 0 ∧ (on id).inReset rdPkt = false ∧ pktBad rdPkt = false ∧ pktBad { rdPkt with trunc := true } = true ∧
      rdPkt.req = .read 1) ∧
    (let k : Pkt := { rdPkt with src := .host 0, rdc := false, core := 256 }; k.src = .host 0 ∧ (on id).inReset k = false ∧ pktBad k = false ∧
      k.rdc = false) ∧
    (let k : Pkt := { rdPkt with src := .eng 9 0 }
     let s := on id fun s => { s with ops := [(9, engOp)] }
     k.src = .eng 9 0 ∧ s.inReset k = false ∧ pktBad k = false ∧ Tab.get? s.ops 9 = some engOp ∧ 2 ≤ engOp.left ∧
     ((engOp.kind.granule 0).1)[0]? = some (.va 0x1000, 128)) :=
  ⟨⟨has_on _, by decide +kernel⟩, by decide +kernel⟩
def waiting (w : Wait) (x : Group) : Group := { x with a := { x.a with wait := w, held := true, wlen := 8 } }
def xg (n : BitVec 8) (x : Group) : Group :=
  { x with pend := [{ outs with kind := .exch, left := 1, dsts := [.v n.toNat], ldst := some (.v n, .u0, .none), old := [(0, 5), (31, 6)] }] }
/-- Both slots parked, and not; a released rendezvous; two groups of 16 lanes; an exchange; SIGWAIT's read; a rank; handle 15;
the flag set at a gate of phase 2. -/
theorem witness_GroupEvents :
    (let y : Group := { x0 with bLive := true, a := { x0.a with parked := true }, b := { x0.a with parked := true } }
     HasGroup (on fun _ => y) 0 y ∧ y.bothParked = true ∧ y.splitSp = 0 ∧ x0.bothParked = false) ∧
    ((waiting (.rendezvous 3 (.s 4)) x0).a.wait = .rendezvous 3 (.s 4) ∧ x0.bLive = false ∧ x0.a.re = none) ∧
    (let half (h : Nat) (d : Opnd) : Group := waiting (.fusing h 0 d) { x0 with a := { x0.a with own := 0xFFFF, exm := 0xFFFF } }
     let s := on (fun _ => half 1 (.s 4)) id [(1, half 0 .zero)]
     HasGroup s 1 (half 0 .zero) ∧ (half 1 (.s 4)).a.wait = .fusing 1 0 (.s 4) ∧ (half 0 .zero).a.wait = .fusing 0 0 .zero ∧
     (half 1 (.s 4)).bLive = false ∧ (half 1 (.s 4)).dead = false ∧
     Mask.count (half 1 (.s 4)).a.own + Mask.count (half 0 .zero).a.own ≤ 32) ∧
    (let s := on (xg 5) id [(48, xg 6 x0)]
     s.upsets = [] ∧ HasGroup s 48 (xg 6 x0) ∧ (∃ p, (xg 5 x0).exchOn = some p ∧ p.ldst = some (.v 5, .u0, .none) ∧ (p.old.map Prod.fst).Nodup ∧
       ∀ e, e ∈ p.old → e.1 < 32) ∧ (xg 5 x0).dead = false ∧ (xg 5 x0).faults = [] ∧ (xg 5 x0).trap = none) ∧
    (let p : Pend := { outs with kind := .sigread, lanes := [⟨32, 0x40, 8⟩] }
     ({ x0 with pend := [p] } : Group).pend.filter (fun p => p.kind = .sigread) = [p] ∧ p.lanes = [⟨32, 0x40, 8⟩]) ∧
    (waiting .rank x0).a.wait = .rank ∧
    (let b : Block := { mb with hnds := [(15, { Hnd.reset with state := 2, wait := [⟨0, 0, 0, true⟩] })] }
     let y := waiting (.handle 15 true) x0
     let s := on (fun _ => y) fun s => { s with blocks := [(0, b)] }
     hndAdmits ((s.blk 0).hnd 15).state true = true ∧ s.hndFirst 0 15 true = some ⟨0, 0, 0, true⟩ ∧ y.a.wait = .handle 15 true) ∧
    (let y : Group := { waiting (.gate 7 2 true) x0 with preempt := true }
     y.preempt = true ∧ y.level = 0 ∧ y.dead = false ∧ y.frozen = false ∧ y.trap = none ∧ y.faults = [] ∧ y.pend = [] ∧
     y.bLive = false ∧ y.a.isParked = false ∧ y.canLeave false = true) ∧ x0.preempt = false := by
  refine ⟨⟨rfl, by decide +kernel⟩, by decide +kernel, ⟨rfl, by decide +kernel⟩,
    ⟨rfl, rfl, ⟨{ outs with kind := .exch, left := 1, dsts := [.v 5], ldst := some (.v 5, .u0, .none), old := [(0, 5), (31, 6)] },
      by decide +kernel⟩, by decide +kernel⟩, by decide +kernel, by decide +kernel, by decide +kernel, by decide +kernel,
    by decide +kernel⟩
/-- A block whose die is cut off and one that is mapped; a scheduler with a ready and a long-waiting group, and one whose eight
positions are filled; eight eligible groups; a request that names the group; a block that runs and one that is over. -/
theorem witness_CoreEvents :
    (let s := on id fun s => { s with links := [(0, { Link.reset with down := true })] }
     s.pathDown (dieOfCore 0) (bitsN (2 ^ 49 * 32) 54 2) = true) ∧
    (let s := on id mapped
     s.pathDown (dieOfCore 0) (bitsN (0 * 32) 54 2) = false ∧
     ((s.fetchForget 0 0 0).xlate 0 0 0 .x false false).2.toOption.isSome = true) ∧
    (let y : Group := { x0 with active := false }
     let z : Group := { x0 with longSince := some 0 }
     let s := on (fun _ => y) id [(1, z)]
     0 < 4 ∧ Tab.getD (s.core 0).swapTill 0 0 ≤ s.aclk ∧ s.readyOf 0 = some (0, y) ∧ s.firstLong 0 = some (1, z) ∧ HasGroup s 0 y ∧
     HasGroup s 1 z ∧ ((s.onSched 0).filter fun e => e.2.active).length < 8) ∧
    (let s := on id id ((List.range 7).map fun i => (i + 1, x0))
     s.scheds = [0] ∧ s.onSched 0 ≠ [] ∧ ((s.onSched 0).filter fun e => s.eligible e.1 e.2).length = 8 ∧
       8 ≤ ((s.onSched 0).filter fun e => e.2.active).length) ∧
    ((on id).upset (.preempt 0) = 0 ∧ dieOf 0 = 0 ∧ ((on id).ctx 0).pid = 0 ∧ ((on id).ctx 0).asid.toNat = fld 0x10 48 16 ∧
      bit64 0x10 (4 + ((on id).blk 0).cls.toNat) = true ∧ x0.dead = false) ∧
    ((on id).blockDone 0 = false ∧
      (on id fun s => { s with blocks := [(0, { loadBlock with places := [(0, .ended)] })] }).blockDone 0 = true) := by
  refine ⟨by decide +kernel, by decide +kernel, ⟨by decide, by decide +kernel, by decide +kernel, by decide +kernel, rfl, rfl,
    by decide +kernel⟩, by decide +kernel, by decide +kernel, by decide +kernel⟩

/-! ### Requests and links -/

theorem unwatched {s : State} (h : s.parts = []) : ∀ q k, fld (Tab.getD (s.part q).wp 0 (3 * k)) 1 3 ≠ 1 := fun q k => by
  have : s.part q = Part.reset := by rw [State.part, h]; rfl
  rw [this]
  show fld (0 : W64) 1 3 ≠ 1
  decide
def rooted (pool : W64) (m : Memory) (s : State) : State :=
  { s.modDie 0 fun d => { d with xroot := [(0, 0x8001)], xpool := [(0, pool)] } with mem := m }
/-- A 1 GiB leaf with every permission, and a walk that ends in an empty level-3 entry. -/
def leafMem : Memory := [(0x8000, 1), (0x8002, 1), (0x10000, 0x7F)]
def emptyMem : Memory := [(0x8000, 1), (0x8002, 1), (0x10000, 1), (0x10001, 0x20), (0x10002, 1), (0x12000, 1), (0x12001, 0x30), (0x12002, 1)]
def home : Pkt := { rdPkt with phys := some 0 }
def lock (p : Pkt) (n : Nat) : LineLock := ⟨3, 0, 0, p, n, false⟩
def locked (l : List LineLock) (s : State) : State := s.modDie 0 fun d => { d with locks := l }
/-- A request truncated; one at its translating slice with its page held, and not; at its home, its bank entering Agate mode, its
line free, locked, asked for before, its sector absent; a flush of a dirty line; a SIG behind a write of its endpoint; a walk with a leaf that permits, one that does not, and none; a queue. -/
theorem witness_RequestArrivals :
    (on id).upsets = [] ∧ pktBad { rdPkt with trunc := true } = true ∧
    (pktBad rdPkt = false ∧ rdPkt.phys = none ∧ rdPkt.src = .grp 0 0 ∧
      ((on id mapped).mtlbHit rdPkt.ddie rdPkt.asid rdPkt.line rdPkt.need rdPkt.peer).isSome = true ∧
      (on id).mtlbHit rdPkt.ddie rdPkt.asid rdPkt.line rdPkt.need rdPkt.peer = none) ∧
    (home.phys = some 0 ∧ home.held = false ∧ pktBad home = false ∧ (on id).homeBusy home.ddie (plineOf home) = none ∧ (on id).lockFree home = true ∧
      (on id (locked [lock { home with src := .grp 1 0, req := .write [(0, 1)] } 0])).lockFree home = false) ∧
    (on id fun s => { s with banks := [(0, { Bank.reset with mode := .entering })] }).homeBusy home.ddie (plineOf home) = some 0 ∧
    (let s := on id fun s => s.modDie 0 fun d => { d with confl := [{ home with src := .grp 1 0 }] }
     s.lockFree home = true ∧ ((s.die home.ddie).confl.any fun q => plineOf q = plineOf home) = true) ∧
    (on id fun s => s.modDie 0 fun d => { d with l2 := [⟨0, 0, 1, 1, 0, false, 0⟩] }).dirtyLine 0 (plineOf home) = true ∧
    (let p : Pkt := { home with held := true }
     p.held = true ∧ (on id).l2Lacks p.ddie (plineOf p) (Req.needs p.req) = true) ∧
    (let q : Pkt := { home with src := .eng 9 0, req := .atomic ⟨true, .n64, 0, false, 32, 0, 5, 0⟩ }
     (on id fun s => { s with agenda := [⟨9, .wr { q with req := .write [(0, 1)] }⟩] }).peerWrites q = true ∧ pktBad q = false ∧ pktBad { q with trunc := true } = true ∧
     (on id).peerWrites q = false) ∧
    (let s := on id (rooted 0 leafMem)
     walk s 0 0 0 = some (.leaf ⟨0x7F, 2, 2⟩) ∧ leafPermits 0x7F .r false = true ∧ leafPermits 3 .r false = false ∧
     (s.die 0).walks = [] ∧ ((s.die 0).mtlb.filter fun e => e.set = 0).length < 16 ∧ walk (on id) 0 0 0 = none) ∧
    (((on id fun s => s.modDie 0 fun d => { d with confl := [home] }).die 0).confl = [home]) ∧
    ∀ d, d < 4 → ((on id).die d).c0q = [] ∧ (((on id).die d).budget.map Prod.fst).Nodup := by decide +kernel
def shared (l : L2Line) (k : List LineLock) (s : State) : State := s.modDie 0 fun d => { d with l2 := [l], locks := k }
/-- A read with its sector present; a write with no sharer, with one, and with two and with one invalidation left. -/
theorem witness_RequestsPerformed : (on id).upsets = [] ∧ (∀ q k, fld (Tab.getD ((on id).part q).wp 0 (3 * k)) 1 3 ≠ 1) ∧
    (let s := on id (shared ⟨0, 0, 1, 0, 0, false, 0⟩ [])
     pktBad home = false ∧ home.phys = some 0 ∧ ({ home with held := true } : Pkt).held = true ∧
     (s.holder home.ddie (homeSlice (plineOf home * 512)) (homeBank (plineOf home * 512))).isSome = true ∧
     s.l2Lacks home.ddie (plineOf home) (Req.needs home.req) = false ∧ Req.invalidates home.req = false) ∧
    (let p : Pkt := { home with held := true, req := .write [(511, 7)] }
     let s (n : Nat) := on id (shared ⟨0, 0, 1, 0, 4, false, 0⟩ [lock p n])
     Req.invalidates p.req = true ∧ (s 0).sharersOf p.ddie (plineOf p) = 4 ∧ ((s 0).die p.ddie).locks = [lock p 0] ∧
     (lock p 0).pkt = p ∧ (lock p 0).line = plineOf p ∧ ((s 0).die p.ddie).locks.find? (fun l => l.line = plineOf p) = some (lock p 0) ∧
     ((s 0).die p.ddie).locks.find? (fun l => l.pkt = p) = some (lock p 0) ∧ pktBad p = false ∧ (on id).sharersOf p.ddie (plineOf p) = 0 ∧ p.ddie = 0 ∧ 2 ≤ (lock p 2).left ∧ (lock p 1).left ≤ 1 ∧
     ∀ k, k ∈ [1, 2, 3] → ((s 2).die k).locks = []) ∧ home.src = .grp 0 0 ∧ HasGroup (on id) 0 x0 :=
  ⟨rfl, unwatched rfl, by decide +kernel, by decide +kernel, by decide +kernel, rfl⟩
def scp : ScPkt := { src := .grp 0 0, gang := 0, rank := 15, off := 0, bytes := [(127, 5)], va := 0, cls := 1 }
/-- A rank with its block, and with none; a link whose second retraining, and whose third, fails, and its eighth bad replay;
XMAP with no root, a leaf, an empty entry with an empty pool and with pages, a malformed table. -/
theorem witness_PooledAndLinkEvents :
    (let s (st : ArrSt) := on id fun s =>
       { withMb s with gangs := [(0, ⟨0, 0, 0, 16, 0, [(15, 0)], 0, 0, 0, false⟩)], arrs := [(0, { Arr.reset with st := st })] }
     scp.src = .grp 0 0 ∧ scpBad scp = false ∧ scpBad { scp with trunc := true } = true ∧ (s .storage).poolDropped scp = false ∧ (s .storage).poolBlk scp = some 0 ∧
     ((s .storage).arr 0).writable = true ∧ ((s .compute).arr 0).writable = false ∧ (on id).poolBlk scp = none) ∧
    ((∀ n, n ∈ [0, 1, 2, 7] → (⟨n, n, false⟩ : Link).down = false) ∧ (1 : Nat) < 2 ∧ (6 : Nat) < 7 ∧
      usesLink 3 0 = true ∧ Tab.get? (on id).ctxs 0 = some loadCtx ∧ loadCtx.ending = none) ∧
    (let s (p : W64) (m : Memory) := on id fun s => (rooted p m s).modDie 0 fun d => { d with xmapq := [⟨0, 0x10000, 0, 0⟩] }
     ((s 0 []).die 0).xmapq = ⟨0, 0x10000, 0, 0⟩ :: [] ∧ (on id).rootOf 0 0 = none ∧ (s 0 []).rootOf 0 0 = some (0, 0x8001) ∧
     walk (s 0 leafMem) 0 0 0x10000 = some (.leaf ⟨0x7F, 2, 2⟩) ∧ walk (s 0 []) 0 0 0x10000 = some .bad ∧
     walk (s 0 emptyMem) 0 0 0x10000 = some (.empty3 0x13008) ∧ fld (0 : W64) 48 16 = 0 ∧ fld (0x1000000000000 : W64) 48 16 ≠ 0) ∧
    HasGroup (on id) 0 x0 ∧ ∀ q k, fld (Tab.getD ((on id).part q).wp 0 (3 * k)) 1 3 ≠ 1 :=
  ⟨by decide +kernel, by decide +kernel, by decide +kernel, rfl, unwatched rfl⟩

/-! ### The engines' events -/

theorem get_mem {t : Tab Nat} {k v : Nat} : Tab.get? t k = some v → (k, v) ∈ t := by
  induction t with
  | nil => intro h; simp [Tab.get?] at h
  | cons e r ih =>
    obtain ⟨i, x⟩ := e
    intro h
    unfold Tab.get? at h
    split at h
    · simp_all
    · exact List.mem_cons_of_mem _ (ih h)
/-- Tiles of mb stand apart: tile name t is physical tile t. -/
theorem witness_tiles_apart : ∀ i j p, mb.tileOf 0 i = some p → mb.tileOf 0 j = some p → i = j := fun i j p hi hj => by
  have same : ∀ e, e ∈ mb.tiles0 → e.1 = e.2 := by decide +kernel
  exact (same _ (get_mem hi)).trans (same _ (get_mem hj)).symm
def mop (k : OpKind) : AOp := { (on id withMb).mkOp c0 x0 1 k none with id := 9 }
def ops (o : AOp) (s : State) : State := { withMb s with ops := [(9, o)] }
def loop (ppt cfg1 : W64) (row : Nat) (ex : Bool) : Loop :=
  { (on id withMb).loopNow loadCtx mb (loopOf (mat (.s 4) { MatExt.none with mm1 := 31 }) x0) with
    ppt := ppt, cfg1 := cfg1, row := row, exactv := ex, busy := true }
/-- A finished copy; MACLR of 16 tiles; MAMOV of 8; MPPT with its table read; MADMIT; MRELEASE; MLOOP at its last row. -/
theorem witness_MatrixEvents_ends : let s (o : AOp) := on id (ops o)
    (Tab.get? (s (mop (.maclr 0 16))).ops 9 = some (mop (.maclr 0 16)) ∧ (mop (.maclr 0 16)).id = 9 ∧ (mop (.maclr 0 16)).gone = false ∧
      (mop (.maclr 0 16)).cls = 1 ∧ (mop (.maclr 0 16)).susp = false ∧ (0, Place.slot 0) ∈ ((s (mop (.maclr 0 16))).blk 0).places) ∧
    ({ mop (.move (.sc 0) (.va 0) 4) with cls := 0 } : AOp).cls ≠ 1 ∧ (0 + 8 ≤ 8 ∧ tilesOk mb 0 0 8 = true) ∧
    (let o := { mop (.mppt 0) with got := [(0, bytesOf 128 1)] }
     o.dfr = none ∧ o.readAll = true ∧ Tab.get? (s o).ctxs o.ctx = some loadCtx) ∧
    (mop (.madmit 23 (.va 0) (.va 0) .e4m3 false)).kind = .madmit 23 (.va 0) (.va 0) .e4m3 false ∧ Ty.e4m3 ≠ .u0 ∧
    (let t := on id fun s => { ops (mop (.mrelease 23)) s with arrs := [(23, { Arr.reset with st := .switching })] }
     (t.arr (mb.arrKey 23)).st = .switching) ∧
    (let l := loop 0 0 31 true
     let o := { mop (.mloop l) with started := true, lim := 32 }
     l.busy = true ∧ o.dfr = none ∧ (s o).opRuns o = true ∧ l.row < l.m ∧ l.m ≤ l.row + 1 ∧ l.ks = 1 ∧ l.step = 0 ∧ l.row < o.lim ∧ l.row < 32 ∧
     tilesOk mb 0 l.t0 (Arr.reset.cols / 32) = true ∧ l.exact = false ∧ l.exactv = true ∧ Arr.reset.st ≠ .fenced ∧
     (l.aligned (List.replicate 264 0)).isSome = true) ∧
    (let l := loop 1 0 31 true; l.exact = true ∧ l.en % 32 = 0 ∧ tilesOk mb 0 l.t0 (l.en / 32) = true) := by decide +kernel
/-- Operations at the head of the sequencer: an array free, and one fenced; a legal profile; a loop on an admitted array. -/
theorem witness_MatrixEvents_accepts :
    let s (o : AOp) (a : Arr) := on id fun s => { (ops o s).modCore 0 fun c => { c with mxq := [9] } with arrs := [(0, a), (23, a)] }
    let ready (o : AOp) (a : Arr) : Prop := ((s o a).core o.core).mxq = 9 :: [] ∧ ((s o a).core o.core).mxHold = none ∧
      (s o a).opWaits o = false ∧ (s o a).tileWait o = false ∧ ((s o a).ctx o.ctx).ending = none ∧
      ∀ j, j ∈ opArrays ((s o a).atAccept o) → ((s o a).arr (mb.arrKey j)).busy = none ∧
        ((s o a).arr (mb.arrKey j)).test = none ∧ (s o a).testDue o.core ((s o a).arr (mb.arrKey j)) = false
    let m := mop (.madmit 23 (.va 0) (.va 0) .e4m3 false)
    let st := mop (.mastore .f32 (.va 0) 0 16 0)
    let lp := mop (.mloop (loop 0 0 0 false))
    let c : Arr := { Arr.reset with st := .compute }
    (ready m Arr.reset ∧ (Arr.reset.st ≠ .fenced)) ∧ ready m { Arr.reset with st := .fenced } ∧
    (ready st Arr.reset ∧ storeLegal (Tab.getD loadCtx.ppt 0 0) = true ∧ storeLegal 2 = false) ∧
    (ready lp c ∧
      let l := (s lp c).loopNow loadCtx mb (loop 0 0 0 false)
      loopVaries mb 0 l = true ∧ (s lp c).rangeIn 0 0 0 l.range.1 l.range.2 = .ok ∧ l.row < l.m ∧ l.step < l.ks ∧ lp.stopReq = false ∧
      l.exact = false ∧ c.ww8 = bit64 l.ppt 17) := by
  refine ⟨⟨?_, ?_⟩, ?_, ⟨?_, ?_⟩, ?_, ?_⟩ <;> decide +kernel
theorem witness_MatrixEvents_tests :
    (on id fun s => { s with arrs := [(23, { Arr.reset with st := .compute, test := some (0, none) })] }).arr 23 =
      { Arr.reset with st := .compute, test := some (0, none) } ∧ 0 ≤ (on id).aclk ∧
    (let a : Arr := { Arr.reset with st := .compute, steps := 4096 }
     a.test = none ∧ (on id).testDue (23 / 24) a = true ∧ a.busy = none) := by decide +kernel
def bk (b : Bank) : State := on id fun s => { s with banks := [(511, b)] }
def age (c : AgCmd) : AgEntry := ⟨9, 0, c, 1, 31⟩
/-- Bank 511 in each mode, its commands on the way and at it, its line locks. -/
theorem witness_AgateEvents : (on id).upsets = [] ∧
    (let b : Bank := { Bank.reset with coming := [(0, age .on)] }; ((bk b).bank 511).coming = (0, age .on) :: [] ∧ b.mode = .cache) ∧
    (let b : Bank := { Bank.reset with mode := .entering }
     ((bk b).bank 511).mode = .entering ∧ (bk b).bankLocked 511 = false ∧ b.late = [] ∧ b.hold = [] ∧
     ((bk b).modDie 3 fun d => { d with locks := [⟨1, 127, 0, rdPkt, 0, false⟩] }).bankLocked 511 = true) ∧
    (let b : Bank := { Bank.reset with mode := .agate, ctx := some 0, coming := [(0, age .off)] }
     ((bk b).bank 511).coming = (0, age .off) :: [] ∧ b.mode = .agate ∧ b.ctx = some (age .off).ctx) ∧
    (let b : Bank := { Bank.reset with mode := .leaving }
     ((bk b).bank 511).mode = .leaving ∧ ((bk b).die 3).locks = [] ∧ b.hold = []) ∧
    (∀ c, c ∈ [AgCmd.op 5 0 0 16 32 16 false 1 7, .op 6 0 0 16 32 16 false 1 7, .op 12 0 0 16 32 16 false 1 7, .red 0 16 false 0x40,
        .ld 0 16 false 8 0x40 16376 8, .st 0 16 false 8 0x40 0 16384] →
      let b : Bank := { Bank.reset with mode := .agate, queue := [age c] }
      ((bk b).bank 511).queue = age c :: [] ∧ b.busy = false ∧ b.mode = .agate ∧ ({ b with busy := true } : Bank).busy = true) ∧
    (let o := mop (.agate [] [511])
     let ch : AOp := { mop (.agchild 9 1 511 true 0x40 8) with id := 10 }
     let s := on id fun s => { s with ops := [(9, o), (10, ch)] }
     Tab.get? s.ops 9 = some o ∧ s.childOf 511 = some ch ∧ ch.dfr = none) := by decide +kernel

/-! ### Welt, queues and placement -/

/-- An arrival that is not the last, the last, and a bad one; a release of phase 4 with groups that wait for it, an access of
theirs outstanding or none; a grant. -/
theorem witness_WeltAndTickEvents : (on id).upsets = [] ∧ (∀ q, ((on id).part q).wp = []) ∧
    (let s := on id (channel 2)
     (s.chan 31).arrived + 1 ≠ (s.chan 31).expect ∧ ((on id (channel 1)).chan 31).arrived + 1 = ((on id (channel 1)).chan 31).expect ∧
     (⟨31, 0, 0, .bar, true⟩ : WArr).crcBad = true ∧ Tab.get? s.ctxs 0 = some (s.ctx 0) ∧ (s.ctx 0).ending = none ∧
     (s.ctx 0).holdsChan 31 = true) ∧
    (let r : List (BitVec 16 × W64 × W32 × Bool × Bool × Bool) := [(4, 5, 6, false, false, false)]
     let y := waiting (.welt 31 3 (some (.s 4, true))) x0
     let s := on (fun _ => y) fun s => { s with chans := [(31, { Chan.reset with rel := r })] }
     (s.chan 31).rel = (4, 5, 6, false, false, false) :: [] ∧ y.dead = false ∧ y.bLive = false ∧ y.b.wait = .none ∧ y.a.re = none ∧
     y.a.wait = .welt 31 3 (some (.s 4, true)) ∧ (waiting (.welt 31 4 none) x0).a.wait = .welt 31 4 none ∧
     (on (waiting (.welt 31 3 none))).before c0 (waiting (.welt 31 3 none) x0) = [] ∧
     (let z := waiting (.welt 31 3 none) { x0 with pend := [stOut] }; (on fun _ => z).before c0 z ≠ [])) ∧
    (let s := on id fun s => s.modPart 0 fun p => { p with mask := 8 }
     (s.part 0).mask.toNat / 2 ^ 3 % 2 = 1 ∧ bit64 0x80000000 31 = true ∧
     ∀ q, q ∈ [1, 2, 3] → (s.part q).holdsChan (3 * 32 + 31) = false) ∧
    (let s := on id fun s => { s with tstopArm := true, tstopAt := 1 }
     (on id).tstopArm = false ∧ s.tstopArm = true ∧ s.tstopAt = s.tick + 1 ∧ (s.tick + 1).toNat % 1024 ≠ 0 ∧
     ∀ d, d < 4 → fld (s.die d).trctl 16 16 = 0) ∧
    (let s := on id fun s => s.modDie 0 fun d => { d with trctl := 0x20, trbase := 4, trhead := 15 }
     bit64 (s.die 0).trctl 5 = true ∧ bit64 ((on id).die 0).trctl 5 = false ∧ s.scheds = [0] ∧ dieOfCore (0 / 4) = 0 ∧
     s.onSched 0 = [(0, x0)] ∧ 4 ≤ fld (s.die 0).trbase 0 8 ∧ fld (s.die 0).trhead 0 32 < 2 ^ fld (s.die 0).trbase 0 8 ∧
     fld (s.die 0).trbase 16 21 * 2 ^ 16 + 32 * 15 + 32 ≤ dpaLimit) := by
  refine ⟨rfl, fun q => rfl, ?_, ⟨rfl, ?_⟩, ?_, ?_, ?_⟩ <;> decide +kernel
def qs (r : LQueue) (ls : Tab Launch) (s : State) : State :=
  { (mapped s).modPart 0 fun p => { p with mask := 1 } with queues := [(0, r)], launches := ls, mem := [(0x10000, 3)] }
def q0 : LQueue := { LQueue.reset with log2n := 4, en := true }
def qOn (r : LQueue) : State := on id (qs r [])
/-- Tails 17 past HEAD, one that the word in memory does not hold, and one that it does; a queue of no context, one not mapped;
sizes 2^3, 2^4, 2^12 and 2^13; nothing waiting, and a record waiting. -/
theorem witness_QueueEvents_registers : let s := qOn q0
    (s.queue 0 0 = q0 ∧ q0.en = true ∧ LQueue.reset.en = false ∧ s.ctxOf 0 q0.asid = some 0 ∧
      s.ctxOf 0 ({ q0 with asid := 5 } : LQueue).asid = none) ∧
    (q0.size < dist48 17 q0.head ∧ dist48 16 q0.head ≤ q0.size ∧ dist48 3 q0.head ≤ q0.size) ∧
    ((s.vread (s.leadDie 0) (s.ctx 0) q0.base 8).2.toOption = some (bytesLE 8 3) ∧ natOfBytes (bytesLE 8 3) % 2 ^ 48 = 3 ∧
      ((on id).vread 0 ((on id).ctx 0) 0 8).2.toOption = none) ∧
    (∀ n, n ∈ ([3, 4, 12, 13] : List (BitVec 4)) → let r : LQueue := { LQueue.reset with log2n := n }
      r.en = false ∧ r.err = 0 ∧ (r.log2n < 4 ∨ 12 < r.log2n ∨ (4 ≤ r.log2n ∧ r.log2n ≤ 12))) ∧
    (q0.launch = none ∧ q0.waiting = 0) ∧
    (let r : LQueue := { q0 with limit := 1 }
     r.en = true ∧ r.launch = none ∧ r.waiting ≠ 0 ∧ ((qOn r).ctx 0).ending = none ∧
     ((qOn r).vread 0 ((qOn r).ctx 0) (r.base + w64 (128 * (1 + r.head % r.size))) 128).2.toOption.isSome = true) := by decide +kernel
def lr (st : LStep) (w2 w3 w4 w5 w6 : W64) : Launch :=
  { id := 5, ctx := 0, pid := 0, q := 0, seq := 0, words := [0, 0, w2, w3, w4, w5, w6], at_ := 0x100, cls := 0, step := st,
    placed := 0, ended := 0, total := 1, prev := none, readyAt := 0, seen := [], met := 0, asked := none }
/-- One group, one array, one tile, 16 V and 8 S registers. -/
def shape : W64 := w64 (32 + 16 * 2 ^ 16 + 8 * 2 ^ 24 + 2 ^ 32 + 2 ^ 40)
def lOn (l : Launch) : State := on id (qs { q0 with launch := some 5, limit := 1 } [(5, l)])
/-- A record in each step: malformed, held on an earlier one, free; with no dependence, one not met and one met; with no working
set, one that reads and one that does not; running, and ended. -/
theorem witness_QueueEvents_records :
    (let l := { lr .order 0 0 0 0 0 with total := 0 }
     ((lOn l).queue 0 0).launch = some l.id ∧ Tab.get? (lOn l).launches l.id = some l ∧ l.step = .order ∧ l.readyAt ≤ (lOn l).aclk ∧
     l.total = 0 ∧ (lOn l).recordFault l ≠ none) ∧
    ((lOn (lr .order shape 0 0 0 0)).recordFault (lr .order shape 0 0 0 0) = none ∧ (lr .order shape 0 0 0 0).total ≠ 0) ∧
    (let l := { lr .order shape 2 0 0 0 with prev := some 4 }
     let s := on id (qs { q0 with launch := some 5, limit := 2 } [(4, { lr .run shape 0 0 0 0 with id := 4 }), (5, l)])
     bit64 (l.word 3) 1 = true ∧ (Tab.get? s.launches 4).isSome = true) ∧
    (let l := lr .deps shape 0 0 0 0
     (lOn l).heldAt 0 0 .deps = some l ∧ ((lOn l).queue 0 0).launch = some l.id ∧ l.deps = [] ∧ l.met = 0) ∧
    (let l (v : W64) := lr .deps shape 4 0 0 v
     (lOn (l 4)).heldAt 0 0 .deps = some (l 4) ∧ (l 4).deps = [(0, 4)] ∧
     ((lOn (l 4)).vread ((lOn (l 4)).leadDie 0) ((lOn (l 4)).ctx 0) 0 8).2.toOption = some (bytesLE 8 3) ∧
     natOfBytes (bytesLE 8 3) < (4 : W64).toNat ∧ (3 : W64).toNat ≤ natOfBytes (bytesLE 8 3)) ∧
    ((lOn (lr .wset shape 0 0 0 0)).heldAt 0 0 .wset = some (lr .wset shape 0 0 0 0) ∧ bit64 ((lr .wset shape 0 0 0 0).word 3) 0 = false ∧
      (let s := on id fun s => { (qs { q0 with launch := some 5, limit := 1 } [(5, lr .wset shape 1 0x40 0 0)] s).modDie 0 fun d =>
         { d with xroot := [(0, 0x8001)] } with mem := leafMem ++ [(0x10048, 1)] }
       s.heldAt 0 0 .wset = some (lr .wset shape 1 0x40 0 0) ∧ (s.walkSet (lr .wset shape 1 0x40 0 0)).2.isSome = true) ∧
      ((lOn (lr .wset shape 1 0x20000 0 0)).walkSet (lr .wset shape 1 0x20000 0 0)).2 = none) ∧
    ((lr .place shape 0 0 0 0).step ≠ .run ∧
      (let l := { lr .run shape 0 0 0 0 with ended := 1 }
       l.ended = l.total ∧ bit64 ((lOn l).die ((lOn l).leadDie 0)).trctl 7 = false ∧ bit64 (l.word 3) 5 = false ∧
       (lOn l).vaRefuse 0 ((lOn l).ctx 0) (l.at_ + 0x78) 8 = none ∧
       ((lOn l).xlate (vaDie (l.at_ + 0x78)) 0 (l.at_ + 0x78).toNat .w false false).2.toOption.isSome = true)) ∧
    (let s := on id fun s => s.modPart 0 fun p => { p with qstop := [[0]] }
     (on id).ctxOf 0 (.ofNat 16 (fld (9 * 2 ^ 48) 48 16)) = none ∧ (on id).ctxOf 0 (.ofNat 16 (fld 0 48 16)) = some 0 ∧ loadCtx.pid = 0 ∧
     (((on id).part 0).qstop.filter fun ks => !ks.all (on id).ctxStopped) = ((on id).part 0).qstop ∧
     ((s.part 0).qstop.filter fun ks => !ks.all s.ctxStopped) ≠ (s.part 0).qstop) := by decide +kernel
theorem witness_QueueEvents_unwatched : ∀ p n, fld (Tab.getD ((lOn (lr .run shape 0 0 0 0)).part p).wp 0 (3 * n)) 1 3 ≠ 1 := by
  intro p n
  match p with
  | 0 => show fld (0 : W64) 1 3 ≠ 1; decide
  | k + 1 => show fld (0 : W64) 1 3 ≠ 1; decide
/-- Nothing to place; a launch of class 0, and of class 1 with no class-0 queue at work, whose block fits on core 1; a saved block of one group whose image reads. -/
theorem witness_PlacementEvents :
    (((qOn q0).part 0).mask = .ofNat 4 (2 ^ 0) ∧ ((qOn q0).part 0).saved = [] ∧ (∀ k, k < 4 → (qOn q0).turnOf 0 k = []) ∧
      (qOn q0).launches = []) ∧
    (∀ e, e ∈ (qOn { q0 with cls := 1 }).queues → e.1 / 64 = 0 → e.2.cls = 0 → e.2.en = false ∨ e.2.idle = true) ∧
    (let l := lr .place shape 0 0 0 0
     let s := lOn l
     (∀ k, k < 4 → s.turnOf 0 k = if k = l.cls.toNat then [l] else []) ∧ l.cls = 0 ∧ l.gsize = 1 ∧ l.pair = false ∧
     l.placed < l.total ∧ 1 ∈ coresOf 0 false ∧ s.fitsAt (l.block 0 0 0 0 0) (List.range l.ngrp) 1 = true) ∧
    (let b : Block := { loadBlock with saved := true, narr := 1, ntile := 1, vregs := 16, sregs := 8, swLead := some 0,
                                       places := [(0, .parked 0x40)] }
     let s := on id fun s => { (qs q0 [] s).modPart 0 fun p => { p with saved := [0] } with
       blocks := [(0, b)], gangs := [(0, ⟨0, 0, 0, 1, 0, [(0, 0)], 0, 0, 0, false⟩)] }
     (s.part 0).saved = [0] ∧ Tab.get? s.blocks 0 = some b ∧ b.saved = true ∧ b.id = 0 ∧ b.pair = false ∧
     (s.gang 0).blks = [(0, 0)] ∧ (s.gang 0).size = 1 ∧ b.parked = [(0, 0x40)] ∧ b.swLead = some 0 ∧ (s.ctx b.ctx).ending = none ∧
     b.cls.toNat < 4 ∧ 1 ∈ coresOf 0 false ∧ s.fitsAt b [0] 1 = true ∧
     (s.vread 0 (s.ctx b.ctx) 0x40 64).2.toOption.isSome = true) := by decide +kernel

/-! ### The host, resets, peers, debug and boot -/

/-- Die 0 ready; its partition 0 holds dies 0 and 1. -/
def ready (f : Die → Die := id) (s : State) : State :=
  (s.modDie 0 fun d => f { d with stage := 3 }).modPart 0 fun p => { p with mask := 3 }
def hOn (f : Die → Die := id) : State := on id (ready f)
/-- An odd offset, the last window, a register of each kind; masks and partitions; table entries; decoders; requests at the last
byte of a line, past one, in a decoder of its partition's die, of another die, of a die held. -/
theorem witness_HostEvents :
    (hOn.barOk 0 0x100002 4 = false ∧ hOn.barOk 0 0x2000000 8 = false ∧
      (∀ n, n ∈ [0x300, 0x608, 0x810, 0x900, 0xD00, 0xD08, 0x808, 0x910, 0xD10] → hOn.barOk 0 (0x100000 + n) 8 = true) ∧
      (∀ n, n ∈ [0x608, 0x8, 0x10, 0x350, 0x800, 0x908, 0xE00] → hOn.barOk 0 (0x100000 + n) 4 = true)) ∧
    (hOn.partRefused 0x5 = true ∧ (on id fun s => { s with ctxs := [] }).partRefused 0xF = false) ∧
    (bit64 (Tab.getD (hOn.part 0).ctab 0 0) 0 = false ∧ hOn.ctxOf 0 (.ofNat 16 (fld 0 48 16)) ≠ none ∧
      hOn.ctxOf 0 (.ofNat 16 (fld (9 * 2 ^ 48) 48 16)) = none ∧ bit64 (Tab.getD ((on id brkOn).part 0).ctab 0 0) 0 = true) ∧
    (hOn.answers 0 0 = true ∧ (on id).answers 0 0 = false ∧ 3 < (4 : Nat)) ∧
    (let s (t : W64) := hOn fun d => { d with hdm := [(3, 2 ^ 28, 2 ^ 28)], hdmx := [(3, t)] }
     ((s 0).die 0).hdm = [(3, 2 ^ 28, 2 ^ 28)] ∧ ((s 0).die 0).hostFrozen = false ∧ (2 ^ 28 + 63) % 64 + 1 ≤ 64 ∧
     ¬ (2 ^ 28 + 63) % 64 + 2 ≤ 64 ∧ fld (1 : W64) 0 2 = 1 ∧ ((s 1).die 1).held = false ∧ (s 1).pidOfDie 1 = some 0 ∧
     (s 1).pidOfDie 1 = (s 1).pidOfDie 0 ∧ (s 2).pidOfDie 2 = none ∧
     fld ((w64 (0x1FF * 2 ^ 28)) : W64) 28 9 * 2 ^ 28 + 63 + 1 ≤ 2 ^ 37 ∧ 63 + 1 ≤ dpaLimit ∧
     (((s 1).modDie 1 fun d => { d with held := true }).die 1).held = true ∧
     ((s 0).die 0).hdm.all (fun e => decide (5 < e.2.1 ∨ e.2.1 + e.2.2 ≤ 5)) = true) ∧
    (hOn.pidOfDie 0 = some 0 ∧ Tab.get? hOn.ctxs 0 = some loadCtx ∧ loadCtx.pid = 0 ∧ loadCtx.ending = none) := by decide +kernel
/-- A context with a group in cluster 0; shootdowns while one runs, of another die's pages, past the die's end, of its last page,
of all; one with no request of its left, and with one; a port frozen, with no grant, with one for the requester, at a line's end. -/
theorem witness_ResetAndPeerEvents :
    (hOn.runsOn 0 1 0 = true ∧ (0 : Nat) < 32 ∧ (31 : Nat) < 32 ∧ (0x80000000 : W32).toNat / 2 ^ 31 % 2 = 1) ∧
    (bit64 ((hOn fun d => { d with sdst := 2 }).die 0).sdst 1 = true ∧ bit64 (hOn.die 0).sdst 1 = false ∧
      fld ((hOn fun d => { d with sdva := 2 ^ 54 }).die 0).sdva 54 2 ≠ 0 ∧
      (let d := (hOn fun d => { d with sdva := w64 ((2 ^ 38 - 1) * 2 ^ 16) }).die 0
       fld d.sdva 54 2 = 0 ∧ ¬ ((0 + 1) * 2 ^ 38 < fld d.sdva 16 40 + 1) ∧ (0 + 1) * 2 ^ 38 < fld d.sdva 16 40 + 2) ∧
      hOn.pidOfDie 0 = some 0 ∧ dieOfCore 127 ∈ diesOf (hOn.part 0).mask ∧ (on id).pidOfDie 0 = none) ∧
    ((hOn.die 0).shoot = none ∧
      (let h : Shoot := ⟨0, 0, 2 ^ 38, [{ home with held := true }]⟩
       let s := hOn fun d => { d with shoot := some h, confl := [home] }
       h.lo = 0 * 2 ^ 38 ∧ h.hi = (0 + 1) * 2 ^ 38 ∧ (s.die 0).shoot = some h ∧ { home with held := true } ∈ s.translated h 0 ∧ { home with held := true } ∈ h.left ∧
       (∀ p, p ∈ (hOn fun d => { d with shoot := some h }).translated h 0 → p ∉ h.left))) ∧
    (let g : W64 := w64 (2 ^ 47 + 7 * 2 ^ 36)
     let s := hOn fun d => { d with pgrant := [(6, g)] }
     let r : PeerReq := ⟨0, 3, 7, 0, false, 511, some [5], 0, none⟩
     ((hOn fun d => { d with portFrozen := 8 }).die 0).portFrozen.toNat / 2 ^ 3 % 2 = 1 ∧ r.port < 4 ∧ r.die = 0 ∧
     (s.die 0).portFrozen.toNat / 2 ^ 3 % 2 = 0 ∧ bit64 g 47 = true ∧ fld g 36 10 = r.srcDev ∧ bit64 g 46 = false ∧
     fld g 36 10 ≠ 8 ∧ s.grantCtx 0 3 = some 0 ∧ bit64 (Tab.getD (hOn.die 0).pgrant 0 6) 47 = false ∧ fld r.addr 56 8 = 0 ∧
     (s.die 0).absdie.toNat / 2 ^ vaDie r.addr % 2 = 0 ∧ (s.ctx 0).pdmask.toNat / 2 ^ vaDie r.addr % 2 = 1 ∧
     r.addr.toNat % 512 + 1 ≤ 512 ∧ hOn.grantCtx 0 3 = some 0 ∧ (on id).grantCtx 0 3 = none) := by decide +kernel
def cmd (cls idx lane : Nat) : DbgCmd := ⟨0, 0, 0, lane, cls, idx⟩
def stopped (s : State) : State := { s.modCtx 0 fun c => { c with stop := true } with stopped := true }
/-- Commands that name no group, another partition's, one that runs, an undeclared register, the last of each class; a tick at the
least distance; a tap on, and held. -/
theorem witness_DebugEvents :
    ((on id).dbgGroup ⟨0, 0, 47, 0, 0, 0⟩ = none ∧ (on id).dbgMine 1 (cmd 0 0 0) = false ∧ (on id).dbgMine 0 (cmd 0 0 0) = true ∧
      (on id).dbgGroup (cmd 1 127 0) = some x0 ∧ ((on id).ctx x0.ctx).stop = false) ∧
    (let s := on id stopped
     (s.ctx x0.ctx).stop = true ∧ s.ctxStopped x0.ctx = true ∧ dbgReg x0 false 0 255 = false ∧ 254 < x0.vdecl ∧ 127 < x0.sdecl ∧
     x0.dbgBusy (cmd 1 127 0) = false ∧ s.stopped = true ∧ s.tapOn 0 = true ∧
     (s.tick + 1).toNat % 1024 ≠ 0 ∧ ∀ d, d < 4 → fld (s.die d).trctl 16 16 = 0) ∧
    ((127 : W64).toNat < (on id).tick.toNat + 128 ∧ (on id).tick.toNat + 128 ≤ (128 : W64).toNat ∧ (on id).tick.toNat + 128 < 2 ^ 64) ∧
    ((on id).stopped = false ∧ (on id).tapOn 3 = true ∧ (on id fun s => { s with held := true }).tapOn 3 = false) := by decide +kernel
def stages (a b : BitVec 3) : State := on id fun s => (s.modDie 0 fun d => { d with stage := a }).modDie 1 fun d => { d with stage := b }
/-- BOOTLD for a die that waits for its image, and for one that does not; dies 0 and 1 that authenticate each other; a time-out with
die 0 authentic and not; indices 0, 1, 4 and 5; no leaf left; I3C addressed or not; the last fused arrays. -/
theorem witness_BootEvents :
    (bit64 0x103 8 = true ∧ fld 0x103 0 2 = 3 ∧ ((stages 1 1).die 0).stage = 1 ∧ (hOn.die 0).stage ≠ 1 ∧ bit64 3 8 = false) ∧
    (((stages 0 0).die 0).stage.toNat < 2 ∧ ((stages 0 0).die 0).held = false ∧ 2 ≤ ((stages 2 2).die 0).stage.toNat) ∧
    ((stages 2 2).canAuth 0 = true ∧ (stages 2 2).canAuth 1 = true ∧ (stages 2 0).canAuth 0 = false) ∧
    (((stages 2 2).die 0).stage ≠ 3 ∧ ((stages 2 2).die 0).stage ≠ 4 ∧ ((stages 2 2).die 0).authed = false ∧
      (let s := (stages 2 2).modDie 0 fun d => { d with authed := true }
       (s.die 0).authed = true ∧ (s.die 0).held = false) ∧ (hOn.die 0).stage = 3) ∧
    ((0 : Nat) < 1 ∧ (1 : Nat) ≤ 4 ∧ 4 < (5 : Nat) ∧ (hOn.die 0).leaves ≠ 0 ∧ ((hOn fun d => { d with leaves := 0 }).die 0).leaves = 0) ∧
    (let s := on id fun s => { s with i3cDyn := some 8, i3cSel := some 0x108 }
     s.i3cDyn ≠ none ∧ (0x108 : BitVec 24).toNat / 2 ^ 20 % 4 = 0 ∧ (0x108 : BitVec 24).toNat % 8 = 0 ∧ (s.die 0).held = false ∧
     s.i3cSel = some 0x108 ∧ s.pathDown 0 ((0x108 : BitVec 24).toNat / 2 ^ 22) = false ∧
     (0x108 : BitVec 24).toNat % 2 ^ 20 ∈ [0, 0x108, 0x400, 0x600, 0xB00, 0x818] ∧ (on id).i3cDyn = none ∧ (on id).i3cSel = none ∧
     (0x109 : BitVec 24).toNat % 8 ≠ 0 ∧ (0x4B : Nat) ≠ 0x4A) ∧
    (Arr.reset.st ≠ .fenced ∧ ({ Arr.reset with blk := some 0 } : Arr).blk ≠ none) := by decide +kernel

/-- A machine in which the word of one register, store or row finds an error in the ACLKs 0 to 9, of one bit or of two. -/
def hit (p : Spot) (n : Nat) (s : State) : State := { s with upsets := [⟨p, 0, 10, n⟩] }
/-- S2 in error, which an SADD that may issue reads; the word SPLITIX names; the last word of a block's fifth array; an L1 line;
rows 16 and 15 of bank 511 under an AGOP and an AGRED. -/
theorem witness_ErrorsStop :
    (∀ p n, (on id (hit p n)).aclk < 10) ∧
    (let i : Instr := .sadd (alu .i32 (.s 1) (.s 2) (.s 3))
     let s := hit (.s 0 2) 2 (fetches 64 saddWord id)
     canIssue s x0 64 saddWord ∧ ({ s with cur := some c0 } : State).slotSt 0 x0 false = .go i 8 ∧
     ((x0.slot false).held && (x0.slot false).counted) = false ∧ icountOf x0.ystate + 1 ≤ deadlineOf x0.ystate ∧
     .s 0 2 ∈ readSpots 0 x0 false i) ∧
    (let y := up 1 x0
     HasGroup (on (up 1)) 0 y ∧ Spot.split c0.g y.splitIx.toNat = .split 0 0 ∧ srNum (ctl .b96 (.s 4) .none .none 0 0x042) = 0x042 ∧
     srRead 0x042 y.level (.s 4) = .ok ∧ isV (.s 4) = false ∧ y.uniPred hd0 = true) ∧
    (let b : Block := { mb with narr := 5 }
     let y := at1 (fun _ => 5 * 32768 - 4) x0
     let s := on (fun _ => y) fun s => { s with blocks := [(0, b)] }
     HasGroup s 0 y ∧ ⟨31, 5 * 32768 - 4, 4⟩ ∈ accs y 4 ∧ s.scLoc b (5 * 32768 - 4) = .own 4 32764 ∧ scNotReady s b (accs y 4) = false ∧
     0 < (32764 % 4 + 4 + 3) / 4 ∧ scBad s b (accs y 4) = [] ∧ orderWait (s.before c0 y) false 0 = false) ∧
    (let y := at1 (fun l => 4 * l) x0
     let s := on (fun _ => y) fun s => s.modCore 0 fun c => { c with l1 := [⟨0, 0, true, bytesOf 128 5, 0⟩] }
     HasGroup s 0 y ∧ 0 ∈ accLines (accs y 4) ∧ bad s 4 (accs y 4) = [] ∧ frz s 4 (accs y 4) = false ∧
     orderWait (s.before c0 y) false 0 = false ∧ (s.core 0).l1Find (s.asidAt 0 0) 0 true ≠ none) ∧
    (∀ c, c ∈ [AgCmd.op 5 0 0 16 32 16 false 1 7, .red 0 16 false 0x40] →
      let o := { mop (.agate [] [511]) with cls := 2 }
      let s := on id fun s => { s with ops := [(9, o)], banks := [(511, { Bank.reset with mode := .agate, queue := [age c], busy := true })] }
      (s.bank 511).queue = age c :: [] ∧ (s.bank 511).busy = true ∧ Tab.get? s.ops (age c).op = some o ∧ o.cls ≠ 0 ∧ o.cls ≠ 3 ∧
      o.gone = false) ∧ 16 ∈ agopReads 5 0 16 32 16 false 1 0 ∧ 15 < 0 + (16 : Nat) := by
  refine ⟨fun _ _ => Nat.zero_lt_succ 9, ⟨?_, rfl, ?_⟩, ⟨rfl, ?_⟩, ⟨rfl, ?_⟩, ⟨rfl, ?_⟩, ?_⟩ <;> (try unfold canIssue HasGroup) <;> decide +kernel

end Sys2Proof.Tests
end

section

/-! SUPPORT. The fields of a control word, and what a word that decodes by a control row holds (R282, R290, R291). -/

namespace Sys2Proof

/-! ## Operand classes -/

theorem Cls.admits_ss {o : Opnd} (h : Cls.ss.admits o = true) : ∃ n, o = .s n := by
  cases o with
  | s n => exact ⟨n, rfl⟩
  | _ => simp [Cls.admits] at h

theorem Cls.admits_sd {o : Opnd} (h : Cls.sd.admits o = true) : o = .zero ∨ ∃ n, o = .s n := by
  cases o with
  | zero => exact .inl rfl
  | s n => exact .inr ⟨n, rfl⟩
  | _ => simp [Cls.admits] at h

theorem Cls.admits_sx {o : Opnd} (h : Cls.sx.admits o = true) : (∃ n, o = .s n) ∨ o = .zero ∨ ∃ n, o = .small n := by
  cases o with
  | s n => exact .inl ⟨n, rfl⟩
  | zero => exact .inr (.inl rfl)
  | small n => exact .inr (.inr ⟨n, rfl⟩)
  | _ => simp [Cls.admits] at h

/-! ## Control words -/

/-- Length, SUB and specifiers of a control word that meets its form. -/
theorem CtlForm.ok_parts {f : CtlForm} {a : CtlArgs} (h : f.ok a = true) :
    a.len ∈ f.lens ∧ a.sub.toNat ∈ f.subs ∧ f.dst.admits a.dst = true ∧ f.sa.admits a.sa = true := by
  simp only [CtlForm.ok, Bool.and_eq_true, List.contains_iff_mem] at h
  obtain ⟨⟨⟨⟨⟨⟨⟨⟨⟨⟨-, hlen⟩, -⟩, hsub⟩, hdst⟩, hsa⟩, -⟩, -⟩, -⟩, -⟩, -⟩ := h
  exact ⟨hlen, hsub, hdst, hsa⟩

theorem Common.read_opc (w : Nat) : (Common.read w).opc = w / 4 % 256 := rfl

theorem Common.read_len (w : Nat) : (Common.read w).len = w % 4 := rfl

theorem Common.read_sub (w : Nat) : (Common.read w).sub = w / 2 ^ 55 % 16 := by
  change w / 2 ^ 2 / 2 ^ 8 / 2 ^ 4 / 2 ^ 1 / 2 ^ 4 / 2 ^ 9 / 2 ^ 9 / 2 ^ 9 / 2 ^ 9 % 2 ^ 4 = _
  simp only [Nat.div_div_eq_div_mul, Nat.reducePow, Nat.reduceMul]

/-- Where a control word holds its length, opcode and SUB (R268, R282). -/
theorem CtlForm.write_fields (f : CtlForm) (a : CtlArgs) (ho : f.opc < 2 ^ 8) :
    wordBits (f.write a) = a.len.bits ∧ f.write a / 4 % 256 = f.opc ∧ f.write a / 2 ^ 55 % 16 = a.sub.toNat := by
  have hf := Common.of_fits a.len f.opc a.hd a.dst.code a.sa.code a.sb.code 0 a.sub.toNat a.ty.code ho a.dst.code_lt
    a.sa.code_lt a.sb.code_lt (by decide) a.sub.isLt a.ty.code_lt
  have hr : Common.read (f.write a) = _ := Common.read_word _ (a.x1.toNat + 2 ^ 32 * a.x2.toNat) hf
  refine ⟨wordBits_of _ _ ?_, ?_, ?_⟩
  · rw [← Common.read_len, hr]; rfl
  · rw [← Common.read_opc, hr]; rfl
  · rw [← Common.read_sub, hr]; rfl

/-- A well-formed control word of a form of 64 bits: its length, opcode and SUB, and the classes of its specifiers. -/
theorem CtlForm.write_b64 {f : CtlForm} {a : CtlArgs} (hl : f.lens = [.b64]) (ho : f.opc < 2 ^ 8) (h : f.ok a = true) :
    wordBits (f.write a) = 64 ∧ f.write a / 4 % 256 = f.opc ∧ f.write a / 2 ^ 55 % 16 = a.sub.toNat ∧ a.sub.toNat ∈ f.subs ∧
      f.dst.admits a.dst = true ∧ f.sa.admits a.sa = true := by
  obtain ⟨hlen, hsub, hdst, hsa⟩ := CtlForm.ok_parts h
  obtain ⟨hbits, hopc, hfield⟩ := f.write_fields a ho
  rw [hl, List.mem_singleton] at hlen
  exact ⟨by rw [hbits, hlen]; rfl, hopc, hfield, hsub, hdst, hsa⟩

/-- A control word's SUB is the field's. -/
theorem CtlForm.parse_sub {f : CtlForm} {c : Common} {ext : Nat} {a : CtlArgs} (h : f.parse c ext = .ok a) :
    a.sub = .ofNat 4 c.sub := by
  simp only [CtlForm.parse, Bind.bind, Except.bind] at h
  repeat' split at h
  all_goals cases h
  rfl

/-- A word whose opcode map entry is a control row decodes, if at all, to that row's instruction, with the word's SUB and
within the row's form (R290, R291). -/
theorem decode_ctl {w : Nat} {i : Instr} {f : CtlForm} {mk : CtlArgs → Instr} (hv : ∀ a, (mk a).view = .ctl f a)
    (hl : w % 4 ≠ 3) (hp : ¬ (0x78 ≤ w / 4 % 256 ∧ w / 4 % 256 < 0x80))
    (hr : rowOf (w / 4 % 256) (w / 2 ^ 55 % 16) (w % 4) = some (.ctl mk)) (h : decode w = .ok i) :
    ∃ a, i = mk a ∧ f.ok a = true ∧ a.sub.toNat = w / 2 ^ 55 % 16 := by
  simp only [decode, if_neg hl, Common.read_opc, Common.read_sub, Common.read_len, if_neg hp, hr, Row.parse, hv] at h
  cases ha : f.parse (Common.read w) (w / 2 ^ 64 % 2 ^ (wordBits w - 64)) with
  | error e => simp only [ha, Except.map] at h; cases h
  | ok a =>
    simp only [ha, Except.map] at h
    split at h
    case isFalse => cases h
    case isTrue hw =>
      cases h
      refine ⟨a, rfl, by simpa only [Instr.wf, hv, View.ok] using hw, ?_⟩
      rw [CtlForm.parse_sub ha, Common.read_sub, BitVec.toNat_ofNat]
      exact Nat.mod_eq_of_lt (Nat.mod_lt _ (by decide))

end Sys2Proof

namespace Sys2Proof.Machine

/-! ## Uniform forms on the current group -/

/-- A uniform form answers its body's state under a true predicate, and otherwise only moves past itself (R274). -/
theorem uniform_current {s : State} {c : Cur} {x : Group} (hc : Current s c x) (h : Hd) (len : Nat)
    (f : Cur → Group → State) : uniform h len s f = .next (if x.uniPred h = true then f c x else s.retire c x len) := by
  obtain ⟨hcur, hgrp, -⟩ := hc
  simp only [uniform, withCur, hcur, hgrp]

/-- A uniform form whose predicate is false (R274). -/
theorem uniform_false {s : State} {c : Cur} {x : Group} (hc : Current s c x) {h : Hd} (hp : x.uniPred h = false) (len : Nat)
    (f : Cur → Group → State) : ∃ t y, uniform h len s f = .next t ∧ OnlyGroup s t c.g ∧ HasGroup t c.g y ∧
      Moved x y c.slotB len [] := by
  rw [uniform_current hc, if_neg (by simp [hp])]
  obtain ⟨honly, y, hy, hm⟩ := retire_spec hc.2.2 c x len
  exact ⟨_, y, rfl, honly, hy, hm⟩

/-- Retiring a group after writes to its registers: its slot moves past the instruction, and its registers are as the
writes left them. -/
theorem retire_regs {s : State} (hu : s.upsets = []) (c : Cur) {x z : Group} (len : Nat) {ds : List Dst}
    (hz : z = { x with v := z.v, s := z.s, p := z.p }) (hk : RegsKept x z ds) :
    OnlyGroup s (s.retire c z len) c.g ∧ ∃ y, HasGroup (s.retire c z len) c.g y ∧ Moved x y c.slotB len ds ∧
      RegsKept z y [] := by
  obtain ⟨honly, y, hy, hm⟩ := retire_spec hu c z len
  exact ⟨honly, y, hy, .after_regs hz hk hm (by simp), hm.2.1⟩

/-- A scalar destination's write keeps every register `dstsOf` does not name (R272). -/
theorem dstS_kept_dsts (x : Group) (o : Opnd) (w : W64) : RegsKept x (x.dstS o w) (dstsOf o) := by
  refine (dstS_kept x o w).mono fun d hd => ?_
  cases o <;> simp_all [dstsOf]

/-- Retiring a group after a scalar result. -/
theorem retire_dstS {s : State} (hu : s.upsets = []) (c : Cur) (x : Group) (o : Opnd) (w : W64) (len : Nat) :
    OnlyGroup s (s.retire c (x.dstS o w) len) c.g ∧ ∃ y, HasGroup (s.retire c (x.dstS o w) len) c.g y ∧
      Moved x y c.slotB len (dstsOf o) ∧ ∀ n, o = .s n → y.getS n.toNat = w := by
  obtain ⟨honly, y, hy, hm, -, hs, -⟩ := retire_regs hu c len (dstS_regs x o w) (dstS_kept_dsts x o w)
  refine ⟨honly, y, hy, hm, ?_⟩
  rintro n rfl
  rw [hs _ (by simp), dstS_get]

end Sys2Proof.Machine
end

section

/-! PROOF. Scalar bit fields, counts, bit reversal and immediate halves (R301, R303). -/

namespace Sys2Proof.Machine

/-! ## Counts and reversal of a `w`-bit number -/

theorem popN_eq_length_filter (w x : Nat) : popN w x = ((List.range w).filter fun i => x.testBit i).length := by
  unfold popN
  simp only [Nat.testBit_eq_decide_div_mod_eq]

/-- A number of `w` bits has no higher one bit. -/
theorem bitLen_le {w y : Nat} (h : y < 2 ^ w) : bitLen y ≤ w := by
  unfold bitLen
  split
  case isTrue => exact Nat.zero_le w
  case isFalse h0 => exact (Nat.log2_lt h0).2 h

theorem lt_bitLen {w y : Nat} (h : 2 ^ w ≤ y) : w < bitLen y := by
  have h0 : y ≠ 0 := Nat.ne_of_gt (Nat.lt_of_lt_of_le (Nat.two_pow_pos w) h)
  unfold bitLen
  rw [if_neg h0]
  exact Nat.lt_succ_of_le ((Nat.le_log2 h0).2 h)

/-- Leading zeros are the bits above the highest one bit. -/
theorem clzN_eq_sub_bitLen (w x : Nat) : clzN w x = w - bitLen (x % 2 ^ w) := by
  induction w with
  | zero => rw [Nat.zero_sub]; rfl
  | succ w ih =>
    have hlow : x % 2 ^ w < 2 ^ w := Nat.mod_lt _ (Nat.two_pow_pos w)
    unfold clzN
    split
    case isTrue htop =>
      have hlen : w < bitLen (x % 2 ^ (w + 1)) := lt_bitLen (by rw [Nat.mod_pow_succ, htop]; omega)
      omega
    case isFalse htop =>
      have hzero : x / 2 ^ w % 2 = 0 := by omega
      have hlen := bitLen_le hlow
      rw [Nat.mod_pow_succ, hzero, ih]
      change 1 + (w - bitLen (x % 2 ^ w)) = w + 1 - bitLen (x % 2 ^ w)
      omega

/-- Bit `i` of a reversed number is bit `w − 1 − i` of the number. -/
theorem revN_eq_sum (w x : Nat) :
    revN w x = ((List.range w).map fun i => if x.testBit (w - 1 - i) then 2 ^ i else 0).sum := by
  induction w generalizing x with
  | zero => rfl
  | succ w ih =>
    have hlow : ∀ i ∈ List.range w, (if x.testBit (w + 1 - 1 - i) then 2 ^ i else 0) =
        if (x / 2).testBit (w - 1 - i) then 2 ^ i else 0 := by
      intro i hi
      have hi := List.mem_range.1 hi
      rw [Nat.testBit_div_two, show w - 1 - i + 1 = w + 1 - 1 - i by omega]
    have htop : (if x.testBit (w + 1 - 1 - w) then 2 ^ w else 0) = 2 ^ w * (x % 2) := by
      rw [show w + 1 - 1 - w = 0 by omega, Nat.testBit_zero]
      rcases Nat.mod_two_eq_zero_or_one x with h | h <;> simp [h]
    rw [List.range_succ, List.map_append, List.sum_append, List.map_congr_left hlow, ← ih, List.map_singleton, htop,
      List.sum_singleton, revN, Nat.add_comm]

/-! ## Fields (R303) -/

/-- The highest bit of a number of `n + 1` bits. -/
theorem testBit_top {n v : Nat} (hv : v < 2 ^ (n + 1)) : v.testBit n = decide (2 ^ n ≤ v) := by
  rw [Bool.eq_iff_iff, decide_eq_true_eq]
  refine ⟨Nat.ge_two_pow_of_testBit, fun h => ?_⟩
  rw [Nat.testBit_eq_decide_div_mod_eq, Nat.div_eq_of_lt_le (k := 1) (by omega) (by omega)]
  rfl

/-- The two's complement of a field of `n + 1` bits, as a 64-bit number. -/
theorem wrap_sgn_field {n v : Nat} (hn : n < 64) (hv : v < 2 ^ (n + 1)) :
    wrap 64 (sgn (n + 1) v) = if v.testBit n then v + (2 ^ 64 - 2 ^ (n + 1)) else v := by
  have h64 : 2 ^ (n + 1) ≤ 2 ^ 64 := Nat.pow_le_pow_right (by decide) hn
  rw [testBit_top hv, wrap, sgn, Nat.mod_eq_of_lt hv]
  simp only [decide_eq_true_eq]
  rw [Nat.pow_succ] at *
  generalize 2 ^ n = m at *
  split <;> split <;> omega

theorem ctlPos_eq (ctl : Nat) : bitsN ctl 0 6 = ctl % 64 := by
  change ctl / 1 % 64 = ctl % 64
  rw [Nat.div_one]

theorem bfWidth_eq (ctl : Nat) : bfWidth ctl = min (ctl / 256 % 128) (64 - ctl % 64) := by
  rw [bfWidth, ctlPos_eq]
  rfl

/-- A field of at most 64 bits of a word, zero- or sign-extended. -/
theorem bfExtract_eq (signed : Bool) (x ctl : Nat) :
    bfExtract signed x ctl =
      let f := min (ctl / 256 % 128) (64 - ctl % 64)
      let v := x / 2 ^ (ctl % 64) % 2 ^ f
      if f = 0 then 0 else if signed = true ∧ v.testBit (f - 1) then v + (2 ^ 64 - 2 ^ f) else v := by
  unfold bfExtract
  rw [bfWidth_eq, ctlPos_eq]
  generalize hf : min (ctl / 256 % 128) (64 - ctl % 64) = f
  cases f with
  | zero => rfl
  | succ n =>
    have hv : bitsN x (ctl % 64) (n + 1) < 2 ^ (n + 1) := Nat.mod_lt _ (Nat.two_pow_pos (n + 1))
    change _ = if n + 1 = 0 then 0 else
      if signed = true ∧ (bitsN x (ctl % 64) (n + 1)).testBit n then _ else bitsN x (ctl % 64) (n + 1)
    dsimp only
    rw [wrap_sgn_field (by omega) hv]
    cases signed <;> simp [bitsN]

/-- Bits `[pos + f − 1 : pos]` replaced. -/
theorem bfInsert_eq (x y ctl : Nat) :
    bfInsert x y ctl =
      let f := min (ctl / 256 % 128) (64 - ctl % 64)
      if f = 0 then x else (setFld (w64 x) (ctl % 64) f y).toNat := by
  rw [bfInsert, bfWidth_eq, ctlPos_eq]

/-! ## Immediate halves (R301) -/

/-- A form that writes IMM32 into half `h` of its scalar destination and keeps the other half `k`. -/
theorem scalarMovi_spec {i : Instr} {a : AluArgs} {h k : Nat} (hh : h < 2) (hk : k < 2) (hne : k ≠ h)
    (hi : ∀ s, exec i s = scalarMovi a s h) :
    UniformRuns i a.hd (lenBytes a.ext.len) (dstsOf a.dst) (fun x y => ∀ n, a.dst = .s n →
      fld (y.getS n.toNat) (32 * h) 32 = (aluI32 a).toNat ∧
      fld (y.getS n.toNat) (32 * k) 32 = fld (x.getS n.toNat) (32 * k) 32) := by
  refine uniform_runs hi fun s c x hc => ?_
  obtain ⟨honly, y, hy, hm, hs⟩ := retire_dstS hc.2.2 c x a.dst
    (setFld (match a.dst with | .s n => x.getS n.toNat | _ => 0) (32 * h) 32 (aluI32 a).toNat) (lenBytes a.ext.len)
  refine ⟨honly, y, hy, hm, fun n hn => ?_⟩
  rw [hs n hn, hn, fld_setFld_self _ _ _ _ (by omega), fld_setFld_ne _ _ _ _ _ _ (by omega) (by omega)]
  exact ⟨Nat.mod_eq_of_lt (aluI32 a).isLt, rfl⟩

/-- Settles O8: each form's element function is the field, count or reversal the rule names, and the immediate halves are
`scalarMovi_spec` at either half. -/
theorem scalarFieldsAndHalves : Obligations.ScalarFieldsAndHalves := by
  refine ⟨fun a => ⟨?_, ?_, ?_, ?_, ?_⟩, fun a => ⟨?_, ?_⟩⟩
  · refine scalarOp_spec fun s => ?_
    rw [exec_sbfe, execSbfe, scalarBits]
    simp only [bfExtract_eq, decide_eq_true_eq]
  · refine scalarOp_spec fun s => ?_
    rw [exec_sbfi, execSbfi]
    simp only [bfInsert_eq]
  · refine scalarOp_spec fun s => ?_
    rw [exec_spopc, execSpopc, scalarBits]
    simp only [popN_eq_length_filter]
  · refine scalarOp_spec fun s => ?_
    rw [exec_sclz, execSclz, scalarBits]
    simp only [clzN_eq_sub_bitLen]
  · refine scalarOp_spec fun s => ?_
    rw [exec_sbrev, execSbrev, scalarBits]
    simp only [revN_eq_sum]
  · exact scalarMovi_spec (h := 0) (k := 1) (by decide) (by decide) (by decide) (exec_smovi a)
  · exact scalarMovi_spec (h := 1) (k := 0) (by decide) (by decide) (by decide) (exec_smoviHi a)

end Sys2Proof.Machine
end

section

/-! PROOF. ELECT (R312), and EXMRD and EXMWR (R313). -/

namespace Sys2Proof.Machine

/-! ## The lowest lane of a mask -/

/-- `lowLane` is 32 for no lane, and otherwise the lowest lane of the mask. -/
theorem lowLane_cases (m : Mask) : (lowLane m = 32 ∧ m = 0) ∨
    (lowLane m < 32 ∧ Mask.has m (lowLane m) = true ∧ ∀ l, l < lowLane m → Mask.has m l = false) := by
  have hfind : (Mask.lanes m).head? = (List.range 32).find? (Mask.has m) := List.head?_filter
  unfold lowLane
  rw [hfind]
  cases hlo : (List.range 32).find? (Mask.has m) with
  | none =>
    refine .inl ⟨rfl, Mask.ext_lanes fun l hl => ?_⟩
    rw [List.find?_range_eq_none] at hlo
    rw [Mask.has_zero]
    simpa using hlo l hl
  | some lo =>
    rw [List.find?_range_eq_some] at hlo
    obtain ⟨hhas, hmem, hmin⟩ := hlo
    exact .inr ⟨List.mem_range.1 hmem, hhas, fun l hl => by simpa using hmin l hl⟩

/-! ## A predicate register written lane by lane -/

/-- Lane by lane writes of a predicate register are the writes of a result. -/
theorem setP_each_eq_writes (k : Nat) (f : Nat → BitVec 16) (ls : List Nat) (x : Group) :
    ls.foldl (fun x l => x.setP k l (f l)) x = (ls.map fun l => RegWr.p k l (f l)).foldl Group.regWr x := by
  rw [List.foldl_map]; rfl

/-- Lane by lane writes of a predicate register leave every other register alone. -/
theorem setP_each_kept (k : Nat) (f : Nat → BitVec 16) (x : Group) :
    RegsKept x (lanes32.foldl (fun x l => x.setP k l (f l)) x) [.p k] := by
  rw [setP_each_eq_writes]
  refine .writes _ x _ fun w hw => ?_
  obtain ⟨l, hl, rfl⟩ := List.mem_map.1 hw
  exact ⟨List.mem_range.1 hl, List.mem_singleton.2 rfl⟩

/-- Lane by lane writes of a predicate register change nothing but P registers. -/
theorem setP_each_only_p (k : Nat) (f : Nat → BitVec 16) (ls : List Nat) (x : Group) :
    ls.foldl (fun x l => x.setP k l (f l)) x = { x with p := (ls.foldl (fun x l => x.setP k l (f l)) x).p } := by
  induction ls generalizing x with
  | nil => rfl
  | cons a r ih =>
    have hset : x.setP k a (f a) = { x with p := (x.setP k a (f a)).p } := by unfold Group.setP; split <;> rfl
    rw [List.foldl_cons, ih]
    generalize List.foldl _ _ r = z
    rw [hset]

theorem setP_each_get (k : Nat) (f : Nat → BitVec 16) (x : Group) {l : Nat} (hl : l < 32) (hk : k ≠ 0) :
    (lanes32.foldl (fun x l => x.setP k l (f l)) x).getP k l = f l := by
  have key : ∀ ls : List Nat, ∀ x : Group, (∀ m ∈ ls, m < 32) →
      (ls.foldl (fun x l => x.setP k l (f l)) x).getP k l = if l ∈ ls then f l else x.getP k l := by
    intro ls
    induction ls with
    | nil => intro x _; simp
    | cons a r ih =>
      intro x hm
      rw [List.foldl_cons, ih _ fun m h => hm m (List.mem_cons_of_mem _ h),
        Group.getP_setP _ _ _ _ _ _ (hm a List.mem_cons_self) hl]
      by_cases hr : l ∈ r <;> by_cases ha : l = a <;> simp_all
  rw [key lanes32 x fun m h => List.mem_range.1 h, if_pos (show l ∈ lanes32 from List.mem_range.2 hl)]

/-! ## ELECT -/

/-- What ELECT's writes leave: Sd the lane number, Pk that lane's bit 0 alone, P0 its value (R40, R312). -/
theorem electWrites_spec {s : State} (hu : s.upsets = []) (c : Cur) (x : Group) (o : Opnd) (k lo len : Nat) :
    let z := lanes32.foldl (fun x l => x.setP k l (if l = lo then 1 else 0)) (x.dstS o (w64 lo))
    OnlyGroup s (s.retire c z len) c.g ∧ ∃ y, HasGroup (s.retire c z len) c.g y ∧
      Moved x y c.slotB len (dstsOf o ++ [.p k]) ∧ (∀ n, o = .s n → y.getS n.toNat = w64 lo) ∧
      (k ≠ 0 → ∀ l, l < 32 → y.getP k l = if l = lo then 1 else 0) := by
  intro z
  have hkeep : RegsKept (x.dstS o (w64 lo)) z [.p k] := setP_each_kept k _ _
  have hkept : RegsKept x z (dstsOf o ++ [.p k]) :=
    .trans ((dstS_kept_dsts x o _).mono (by simp +contextual)) (hkeep.mono (by simp))
  have hregs : z = { x with v := z.v, s := z.s, p := z.p } := by
    have hp : z = { x.dstS o (w64 lo) with p := z.p } := setP_each_only_p k _ _ _
    rw [dstS_regs] at hp
    rw [hp]
  obtain ⟨honly, y, hy, hm, -, hs, hp⟩ := retire_regs hu c len hregs hkept
  refine ⟨honly, y, hy, hm, ?_, fun hk l hl => ?_⟩
  · rintro n rfl
    rw [hs _ (by simp), hkeep.2.1 _ (by simp), dstS_get]
  · rw [hp _ _ hl (by simp)]
    exact setP_each_get k _ _ hl hk

/-- Settles O12: the lowest lane is the first that the lanes of EXM hold, and the writes are those of `electWrites_spec`. -/
theorem electLowestLane : Obligations.ElectLowestLane := by
  intro a
  constructor
  · intro hwf
    obtain ⟨hbits, hopc, hsub, -, hdst, -⟩ := CtlForm.write_b64 rfl (by decide) hwf
    exact ⟨hbits, hopc, hsub, Cls.admits_sd hdst⟩
  · intro s c x hc
    refine ⟨fun hp => ⟨lowLane (x.slot c.slotB).lanes, lowLane_cases _, ?_⟩, fun hp => uniform_false hc hp _ _⟩
    obtain ⟨honly, y, hy, hm, hs, hpk⟩ :=
      electWrites_spec hc.2.2 c x a.dst a.sub.toNat (lowLane (x.slot c.slotB).lanes) (lenBytes a.len)
    refine ⟨_, y, (uniform_current hc a.hd _ _).trans (by rw [if_pos hp]; rfl), honly, hy, hm, hs, fun hk => hpk ?_, fun l _ => rfl⟩
    exact fun h0 => hk (BitVec.eq_of_toNat_eq h0)

/-! ## EXMRD and EXMWR -/

/-- SUB values past those of EXMRD and of EXMWR do not decode. -/
theorem decode_exm_sub {w : Nat} {i : Instr} (hl : w % 4 ≠ 3)
    (h : (w / 4 % 256 = 0x2C ∧ 2 ≤ w / 2 ^ 55 % 16) ∨ (w / 4 % 256 = 0x2D ∧ 3 ≤ w / 2 ^ 55 % 16)) : decode w ≠ .ok i := by
  intro hd
  rcases h with ⟨ho, hs⟩ | ⟨ho, hs⟩
  · have hrow : rowOf (w / 4 % 256) (w / 2 ^ 55 % 16) (w % 4) = some (.ctl .exmrd) := by
      rw [ho]
      change some (Row.ctl (if _ then _ else _)) = _
      rw [if_neg (by omega)]
    obtain ⟨a, -, hok, hsub⟩ := decode_ctl (fun _ => rfl) hl (by omega) hrow hd
    obtain ⟨-, hmem, -, -⟩ := CtlForm.ok_parts hok
    have := List.mem_singleton.1 hmem
    omega
  · have hrow : rowOf (w / 4 % 256) (w / 2 ^ 55 % 16) (w % 4) = some (.ctl .exmwr) := by
      rw [ho]
      change some (Row.ctl (if _ then _ else if _ then _ else _)) = _
      rw [if_neg (by omega), if_neg (by omega)]
    obtain ⟨a, -, hok, hsub⟩ := decode_ctl (fun _ => rfl) hl (by omega) hrow hd
    obtain ⟨-, hmem, -, -⟩ := CtlForm.ok_parts hok
    have := List.mem_singleton.1 hmem
    omega

theorem encode_exmrd_fields (a : CtlArgs) {i : Instr} (hw : i.wf = true) (h : i = .exmrd a ∨ i = .exmrdOwn a) :
    wordBits (encode i) = 64 ∧ encode i / 4 % 256 = 0x2C ∧ (∃ n, a.dst = .s n) ∧
      encode i / 2 ^ 55 % 16 = if i = .exmrd a then 0 else 1 := by
  rcases h with rfl | rfl
  · obtain ⟨hbits, hopc, hsub, hone, hdst, -⟩ := CtlForm.write_b64 rfl (by decide) hw
    exact ⟨hbits, hopc, Cls.admits_ss hdst, by rw [if_pos rfl]; exact hsub.trans (List.mem_singleton.1 hone)⟩
  · obtain ⟨hbits, hopc, hsub, hone, hdst, -⟩ := CtlForm.write_b64 rfl (by decide) hw
    exact ⟨hbits, hopc, Cls.admits_ss hdst, by rw [if_neg nofun]; exact hsub.trans (List.mem_singleton.1 hone)⟩

theorem encode_exmwr_fields (a : CtlArgs) {i : Instr} (hw : i.wf = true)
    (h : i = .exmwr a ∨ i = .exmwrAnd a ∨ i = .exmwrOr a) :
    wordBits (encode i) = 64 ∧ encode i / 4 % 256 = 0x2D ∧ ((∃ n, a.sa = .s n) ∨ a.sa = .zero ∨ ∃ n, a.sa = .small n) ∧
      encode i / 2 ^ 55 % 16 = if i = .exmwr a then 0 else if i = .exmwrAnd a then 1 else 2 := by
  rcases h with rfl | rfl | rfl
  · obtain ⟨hbits, hopc, hsub, hone, -, hsa⟩ := CtlForm.write_b64 rfl (by decide) hw
    exact ⟨hbits, hopc, Cls.admits_sx hsa, by rw [if_pos rfl]; exact hsub.trans (List.mem_singleton.1 hone)⟩
  · obtain ⟨hbits, hopc, hsub, hone, -, hsa⟩ := CtlForm.write_b64 rfl (by decide) hw
    exact ⟨hbits, hopc, Cls.admits_sx hsa, by rw [if_neg nofun, if_pos rfl]; exact hsub.trans (List.mem_singleton.1 hone)⟩
  · obtain ⟨hbits, hopc, hsub, hone, -, hsa⟩ := CtlForm.write_b64 rfl (by decide) hw
    exact ⟨hbits, hopc, Cls.admits_sx hsa, by rw [if_neg nofun, if_neg nofun]; exact hsub.trans (List.mem_singleton.1 hone)⟩

/-- A form that reads a mask of the slot, under a true predicate: the scalar destination holds it, zero-extended. -/
theorem maskRead_spec {s : State} {c : Cur} {x : Group} (hc : Current s c x) {a : CtlArgs} (hp : x.uniPred a.hd = true)
    (m : Cur → Group → Mask) {i : Instr}
    (hi : exec i s = uniform a.hd (ctlLen a) s fun c x => s.retire c (x.dstS a.dst (w64 (m c x).toNat)) (ctlLen a)) :
    ∃ t y, exec i s = .next t ∧ OnlyGroup s t c.g ∧ HasGroup t c.g y ∧ Moved x y c.slotB (lenBytes a.len) (dstsOf a.dst) ∧
      ∀ n, a.dst = .s n → y.getS n.toNat = (m c x).setWidth 64 := by
  rw [hi, uniform_current hc, if_pos hp]
  obtain ⟨honly, y, hy, hm, hs⟩ := retire_dstS hc.2.2 c x a.dst (w64 (m c x).toNat) (lenBytes a.len)
  exact ⟨_, y, rfl, honly, hy, hm, fun n hn => (hs n hn).trans (BitVec.ofNat_toNat ..)⟩

/-- An EXMWR form under a true predicate: the slot has the new EXM within OWN (R191). -/
theorem exmWrite_spec {s : State} {c : Cur} {x : Group} (hc : Current s c x) {a : CtlArgs} (hp : x.uniPred a.hd = true)
    {f : Mask → Mask → Mask} {i : Instr} (hi : exec i s = exmWrite a s f) :
    ∃ t y, exec i s = .next t ∧ OnlyGroup s t c.g ∧ HasGroup t c.g y ∧
      Moved (x.setSlot c.slotB { x.slot c.slotB with
        exm := f (x.slot c.slotB).exm ((x.srcS a.sa).setWidth 32) &&& (x.slot c.slotB).own }) y c.slotB (lenBytes a.len) [] := by
  rw [hi, exmWrite, uniform_current hc, if_pos hp]
  obtain ⟨honly, y, hy, hm⟩ := retire_spec hc.2.2 c (x.setSlot c.slotB { x.slot c.slotB with
    exm := f (x.slot c.slotB).exm ((x.srcS a.sa).setWidth 32) &&& (x.slot c.slotB).own }) (lenBytes a.len)
  exact ⟨_, y, rfl, honly, hy, hm⟩

/-- Settles O13: the decoder by `decode_exm_sub`, the encodings by the control words' fields, EXMRD by `maskRead_spec` and
EXMWR by `exmWrite_spec`. -/
theorem executionMasks : Obligations.ExecutionMasks := by
  refine ⟨fun w i hl h => decode_exm_sub hl h,
    fun a i hw => ⟨encode_exmrd_fields a hw, encode_exmwr_fields a hw⟩, fun a s c x hc => ⟨fun hp => ?_, fun hp i hi => ?_⟩⟩
  · exact ⟨maskRead_spec hc hp (fun c x => (x.slot c.slotB).exm) (exec_exmrd a s),
      maskRead_spec hc hp (fun c x => (x.slot c.slotB).own) (exec_exmrdOwn a s),
      exmWrite_spec hc hp (exec_exmwr a s), exmWrite_spec hc hp (exec_exmwrAnd a s), exmWrite_spec hc hp (exec_exmwrOr a s)⟩
  · rcases hi with rfl | rfl | rfl | rfl | rfl <;> exact uniform_false hc hp _ _

end Sys2Proof.Machine
end
